-- ==== Sys2Proof/Word.lean ====
section
/-! DEFINITION. The plainest types of the model: bytes and words as they cross the part's interfaces, and the numbers
that name a canister slot, a station and a tin size (00_scope.md "Names"). -/

namespace Sys2Proof

/-- One byte on the station port, on the peer line or in a stored sector. -/
abbrev Byte := BitVec 8

/-- A two-byte field. -/
abbrev Word16 := BitVec 16

/-- A four-byte field. -/
abbrev Word32 := BitVec 32

/-- A canister slot. The manual's slot n (1 to 16) is the value n - 1. -/
abbrev Slot := Fin 16

/-- The manual's number of a slot, 1 to 16. -/
def Slot.number (s : Slot) : Nat := s.val + 1

/-- A station number, 0 to 15. -/
abbrev Station := Fin 16

/-- A tin size code, 0 to 7. -/
abbrev SizeCode := Fin 8

end Sys2Proof
end

