-- ==== Sys2Proof/Config.lean ====
section
/-! DEFINITION. What is fixed in the part, the shape and the default values of the stored parameters
(12_stored_configuration_and_start_up.md), and the free values. -/

namespace Sys2Proof

/-! ## Names shared by the whole model -/

/-- The station's four modes (R168), in the order of its table. -/
inductive Mode where
  | pause | run | maint | offline
  deriving DecidableEq, Repr

/-- The two shared supplies (R151). -/
inductive Pool where
  | power | air
  deriving DecidableEq, Repr

/-- The three bays. -/
inductive BayId where
  | dispense | lid | shake
  deriving DecidableEq, Repr

/-- The blocks that hold a deferral timer for a start of their own (R114). -/
inductive StartOwner where
  | carriage | lid | shake
  deriving DecidableEq, Repr

/-- NORMAL or GENTLE (R1). -/
inductive ShakeClass where
  | normal | gentle
  deriving DecidableEq, Repr

/-- Line mode of the identity sector (R196). -/
inductive LineMode where
  | peer | solo
  deriving DecidableEq, Repr

/-- How far a bay fault reaches (R170). -/
inductive StopScope where
  | bay | station
  deriving DecidableEq, Repr

/-- The two nonvolatile sectors. -/
inductive SectorId where
  | identity | station
  deriving DecidableEq, Repr

/-! ## Stored parameters -/

/-- The identity sector's parameters (R196). -/
structure Identity where
  number : Station
  lineMode : LineMode
  beaconInterval : Nat
  powerBudget : Nat
  airBudget : Nat
  deriving DecidableEq, Repr

/-- Part 0 of the station sector (R197). -/
structure General where
  scope : StopScope
  keepalive : Nat
  spinDraw : Nat
  runDraw : Nat
  pressDraw : Nat
  quietLimit : Nat
  windowLen : Nat
  band : Nat
  blankTime : Nat
  settleTimeout : Nat
  tolAbs : Nat
  tolRel : Nat
  verifyFloor : Nat
  maxTopUps : Nat
  normalPeriod : Nat
  gentlePeriod : Nat
  stirRun : Nat
  stirMinPeriod : Nat
  lowMargin : Nat
  testVolumes : Vector Nat 4
  testMask : Nat
  spread : Nat
  cupMax : Nat
  deriving DecidableEq, Repr

/-- One entry of the tin size table (R197, part 1). -/
structure TinSize where
  enabled : Bool
  fill : Nat
  grossLow : Nat
  grossHigh : Nat
  headroom : Nat
  shakeTime : Nat
  lidType : Nat
  deriving DecidableEq, Repr

/-- The static parameters of one canister (R19, R197 parts 2 and 3). -/
structure CanStatic where
  travel : Nat
  snuffBack : Nat
  reserve : Nat
  minShot : Nat
  stepRate : Nat
  settleLimit : Nat
  stirInterval : Nat
  nominalK : Nat
  deriving DecidableEq, Repr

/-- The configuration in use between two starts. -/
structure Loaded where
  ident : Identity
  general : General
  sizes : Vector TinSize 8
  cans : Vector CanStatic 16
  deriving DecidableEq, Repr

/-! ## Default values (R196, R197) -/

def Identity.default : Identity :=
  { number := 0, lineMode := .solo, beaconInterval := 250, powerBudget := 40, airBudget := 24 }

def General.default : General :=
  { scope := .station, keepalive := 10, spinDraw := 24, runDraw := 10, pressDraw := 8, quietLimit := 5,
    windowLen := 10, band := 2, blankTime := 1500, settleTimeout := 20, tolAbs := 50, tolRel := 20,
    verifyFloor := 100, maxTopUps := 2, normalPeriod := 100000, gentlePeriod := 142857, stirRun := 20,
    stirMinPeriod := 500000, lowMargin := 20000, testVolumes := #v[50, 200, 500, 1000], testMask := 7,
    spread := 15, cupMax := 20000 }

def TinSize.unused : TinSize :=
  { enabled := false, fill := 1000, grossLow := 110000, grossHigh := 170000, headroom := 60, shakeTime := 60,
    lidType := 0 }

def CanStatic.default : CanStatic :=
  { travel := 16000, snuffBack := 120, reserve := 20000, minShot := 5, stepRate := 4000, settleLimit := 60,
    stirInterval := 240, nominalK := 640 }

def Loaded.default : Loaded :=
  { ident := Identity.default
    general := General.default
    sizes := #v[
      { TinSize.unused with enabled := true },
      { enabled := true, fill := 2500, grossLow := 280000, grossHigh := 420000, headroom := 150, shakeTime := 90,
        lidType := 1 },
      { enabled := true, fill := 5000, grossLow := 560000, grossHigh := 800000, headroom := 250, shakeTime := 120,
        lidType := 2 },
      { enabled := true, fill := 10000, grossLow := 1100000, grossHigh := 1550000, headroom := 500, shakeTime := 150,
        lidType := 3 },
      TinSize.unused, TinSize.unused, TinSize.unused, TinSize.unused]
    cans := Vector.replicate 16 CanStatic.default }

/-! ## Figures fixed in the part -/

namespace Config

/-- Full scale of the converter, 40 kg in counts (R61). -/
def fullScale : Int := 4000000
/-- Tin-present threshold in net counts (R61, R70). -/
def tinThreshold : Int := 10000
/-- Zero tracking limit in counts (R61, R71). -/
def zeroBand : Int := 50
/-- The zero offset's limit either way (R61). -/
def zeroLimit : Int := 100000
/-- Places of the job queue (R5). -/
def jobPlaces : Nat := 24
/-- Records the completion queue holds (R194). -/
def completionPlaces : Nat := 16
/-- Stirrer slots (R35). -/
def stirSlots : Nat := 4
/-- The stir age saturates here (R19). -/
def ageLimit : Nat := 65535
/-- The level saturates here (R25). -/
def levelLimit : Nat := 500000
/-- Speed check of a stirrer in ms (R36). -/
def stirCheckMs : Nat := 3000
/-- A speed measurement saturates here, in µs (R36, R129). -/
def speedSaturation : Nat := 2000000
/-- Valve turn time in ms (R54). -/
def valveTurnMs : Nat := 150
/-- Motor steps for each rotation pulse (section 3.4). -/
def stepsPerPulse : Nat := 32
/-- Carriage move limit in ms (R117). -/
def moveLimitMs : Nat := 8000
/-- A stroke that seats sooner than this has no lid, ms (R119). -/
def seatMinMs : Nat := 150
/-- Seat limit in ms (R119). -/
def seatLimitMs : Nat := 3000
/-- Dwell in ms (R119). -/
def dwellMs : Nat := 400
/-- Press home limit in ms (R119). -/
def homeLimitMs : Nat := 3000
/-- Clamp limit in ms (R127). -/
def clampLimitMs : Nat := 4000
/-- Spin-up limit in ms (R127). -/
def spinLimitMs : Nat := 6000
/-- A claim wait sets BUDGET_WAIT after this many ms (R161). -/
def waitLimitMs : Nat := 30000
/-- Prime step, in motor steps (R99). -/
def primeStep : Nat := 400
/-- Prime tries (R99). -/
def primeTries : Nat := 6
/-- Gain that primes the pump, mg (R99). -/
def primeGain : Int := 50
/-- Passes of a calibration (R99). -/
def calPasses : Nat := 5
/-- The largest factor K a canister can hold (R19). -/
def maxK : Nat := 6400
/-- The smallest factor K other than none (R19). -/
def minK : Nat := 100
/-- Attempts after which a frame is dropped (R139). -/
def frameAttempts : Nat := 8
/-- Bit times of idle before a start (R136, R135). -/
def idleBits : Nat := 12

/-! ## Free values -/

/-- FREE VALUE (log 9). The byte at an index of a sector that a cut or failed write left behind: "a partly written
image" (R201), "whatever the failed write left in it" (R200). The first argument is the draw, a counter in State. -/
opaque freeByte : Nat → Nat → Byte

end Config

end Sys2Proof
end

