-- ==== Sys2Proof/Syntax.lean ====
section
/-! DEFINITION. The commands of the part: one constructor of `Instr` for each row of spec/opcode_table.json, with the
operands its rules give it, and the station port's requests as they stand once their payload has been read (R207). -/

namespace Sys2Proof

/-- The fields of a SUBMIT payload in the order of R208, as received. -/
structure SubmitFields where
  orderRef : Word32
  size : Byte
  count : Byte
  priority : Byte
  shakeTime : Word16
  shakeClass : Byte
  lineCount : Byte
  lines : List (Byte × Word16)
  deriving DecidableEq, Repr

/-- The fields of a CAN_LOAD payload (R207). -/
structure CanLoadFields where
  slot : Byte
  code : Word16
  density : Word16
  k : Word16
  level : Word32
  deriving DecidableEq, Repr

/-- A request of section 11.2 whose payload has the length its kind asks for (R187, R207). -/
inductive Request where
  | submit (f : SubmitFields)
  | cancel (job : Word16)
  | setPrio (job : Word16) (priority : Byte)
  | queryJob (job : Word16)
  | queryBays
  | takeRecord
  | canLoad (f : CanLoadFields)
  | canLevel (slot : Byte) (level : Word32)
  | canQuery (slot : Byte)
  | canClear (slot : Byte)
  | calibrate (slot : Byte) (mask : Option Byte)
  | calAbort
  | lids (lidType : Byte)
  | events
  | eventAck (set : Word16)
  | eventMask (set : Word16)
  | mode (code : Byte)
  | clearFault (code : Byte)
  | resume
  | peers
  | nvRead (sector part : Byte)
  | nvStore (sector part : Byte) (image : List Byte)
  | reset
  | ping (payload : List Byte)
  deriving DecidableEq, Repr

/-- The levels of the part's sensor inputs and of its service strap. -/
structure Inputs where
  /-- tin-presence sensors of the three bays (on = a tin stands there) -/
  presDispense : Bool
  presLid : Bool
  presShake : Bool
  /-- emergency-stop input active -/
  estop : Bool
  doorOpen : Bool
  guardOpen : Bool
  /-- press home sensor on -/
  pressHome : Bool
  /-- the lid magazine sensor reports lids present -/
  magazine : Bool
  clampClosed : Bool
  /-- service strap fitted -/
  strap : Bool
  deriving DecidableEq, Repr

/-- The payload of a BEACON in the order of R211. -/
structure Beacon where
  mode : Byte
  interval : Byte
  powerHeld : Byte
  airHeld : Byte
  powerWait : Byte
  powerCount : Byte
  airWait : Byte
  airCount : Byte
  jobs : Byte
  bays : Byte
  deriving DecidableEq, Repr

/-- Why a received frame is discarded (the cases of R137). -/
inductive DiscardCause where
  | framingError | missingStartBit | unknownKind | wrongUrgency | badCrc | fieldOutOfRange
  deriving DecidableEq, Repr

/-- The commands: the rows of spec/opcode_table.json, in its order. -/
inductive Instr where
  | powerOn
  | resetLine (active : Bool)
  | startUp (inputs : Inputs)
  | nvWriteDone (agrees : Bool)
  | messageComplete (bytes : List Byte)
  | messageGap
  | oversizeMessage (length : Word16)
  | responseSent
  | submit (f : SubmitFields)
  | cancel (job : Word16)
  | setPrio (job : Word16) (priority : Byte)
  | queryJob (job : Word16)
  | queryBays
  | takeRecord
  | canLoad (f : CanLoadFields)
  | canLevel (slot : Byte) (level : Word32)
  | canQuery (slot : Byte)
  | canClear (slot : Byte)
  | calibrate (slot : Byte) (mask : Option Byte)
  | calAbort
  | lids (lidType : Byte)
  | events
  | eventAck (set : Word16)
  | eventMask (set : Word16)
  | mode (code : Byte)
  | clearFault (code : Byte)
  | clearFaultStation
  | resume
  | peers
  | nvRead (sector part : Byte)
  | nvStore (sector part : Byte) (image : List Byte)
  | reset
  | ping (payload : List Byte)
  | keepaliveExpiry
  | emergencyStop
  | estopInputReleased
  | cabinetDoorOpen
  | cabinetDoorClose
  | minuteTimer
  | stirrerRevolution (slot : Slot) (period : Nat)
  | stirrerSpeedSaturated (slot : Slot)
  | stirSpeedTimeout (slot : Slot)
  | stirRunExpiry (slot : Slot)
  | valveTurnDone
  | rotationPulse (slot : Slot)
  | pumpSegmentEnd
  | scaleSample (raw : Int)
  | blankTimerExpiry
  | settleTimeout
  | tinPresenceDispense (on : Bool)
  | recordJoin
  | carriageMoveStart
  | quietDeferralExpiry (owner : StartOwner)
  | carriageArrival
  | moveTimeout
  | homeRunStart
  | carriageHome
  | magazineSensor (present : Bool)
  | pressStart
  | lidSeated
  | seatLimit
  | dwellExpiry
  | pressHomeSensor
  | homeLimit
  | pressGuard (isOpen : Bool)
  | tinPresenceLid (on : Bool)
  | clampSensor (closed : Bool)
  | clampTimeout
  | spinUpStart
  | shakerRevolution (period : Nat)
  | shakerSpeedSaturated
  | spinUpTimeout
  | shakeSecond
  | shakeRunExpiry
  | tinPresenceShake (on : Bool)
  | frameStart
  | arbitrationLost
  | transmitError
  | frameSent
  | frameDiscarded (cause : DiscardCause)
  | claimReceived (src : Station) (pool : Pool) (amount : Byte)
  | adjustReceived (src : Station) (pool : Pool) (amount : Byte)
  | releaseReceived (src : Station) (pool : Pool)
  | waitReceived (src : Station) (pool : Pool) (amount count : Byte)
  | beaconReceived (src : Station) (contents : Beacon)
  | beaconTimerExpiry
  | rosterAgeOut (station : Station)
  | waitTimerExpiry (pool : Pool)
  | powerLoss
  deriving DecidableEq, Repr

end Sys2Proof
end

