-- ==== Sys2Proof/Decode.lean ====
section
/-! DEFINITION. The commands that words spell by the opcode table's bits. The table gives no row any bits: the commands
are requests and events, so there is none. -/

namespace Sys2Proof

/-- The command a word spells by the opcode table's bits: none. -/
def decodeTableWord (_nbits _w : Nat) : Option Instr := none

end Sys2Proof
end

