-- ==== Sys2Proof/Machine/Image.lean ====
section
/-! DEFINITION. Bytes: multi-byte fields, the CRC of R205, and the two stored sectors as byte strings with their check
code, their carried fields and their judgement at load (R197, R198, R204). Nothing here knows State. -/

namespace Sys2Proof.Machine

/-! ## Multi-byte fields, most significant byte first -/

/-- A non-negative value in `width` bytes, high byte first. -/
def bytesOf : (width : Nat) → (value : Nat) → List Byte
  | 0, _ => []
  | w + 1, v => BitVec.ofNat 8 (v / 256 ^ w) :: bytesOf w v

/-- A signed value in `width` bytes, two's complement (R204). -/
def signedBytesOf (width : Nat) (value : Int) : List Byte :=
  bytesOf width (value % (256 ^ width : Nat)).toNat

/-- The value of a field, high byte first. -/
def valueOf (bytes : List Byte) : Nat :=
  bytes.foldl (fun acc b => acc * 256 + b.toNat) 0

/-- A choice of two: 0 for the first value named, 1 for the second (R197). Here `true` is the second. -/
def choiceByte (second : Bool) : Byte := if second then 1 else 0

/-- A fact that holds (1) or does not (0). -/
def markByte (holds : Bool) : Byte := if holds then 1 else 0

/-- An optional field: one byte 1 and the field, or one byte 0 and zeros of the field's width (R204). -/
def optionBytes {α : Type} (width : Nat) (encode : α → List Byte) : Option α → List Byte
  | none => 0 :: List.replicate width 0
  | some a => 1 :: encode a

/-- Quotient rounded half up: the integer part of (2a + b) divided by 2b (R41). -/
def roundDiv (a b : Nat) : Nat := (2 * a + b) / (2 * b)

/-! ## The shared CRC (R205) -/

/-- One bit: compare the top bit with the data bit, shift left, and XOR with 1021h if they differed. -/
def crcBit (r : BitVec 16) (bit : Bool) : BitVec 16 :=
  if r.msb != bit then (r <<< 1) ^^^ 0x1021#16 else r <<< 1

/-- One byte, most significant bit first. -/
def crcByte (r : BitVec 16) (b : Byte) : BitVec 16 :=
  [7, 6, 5, 4, 3, 2, 1, 0].foldl (fun r i => crcBit r (b.getLsbD i)) r

/-- `k r`, with `r` brought to a numeral first, so that a long string's CRC can be evaluated step by step. -/
def withNumeral {α : Type} (r : BitVec 16) (k : BitVec 16 → α) : α :=
  match r.toNat with
  | 0 => k 0#16
  | n + 1 => k (BitVec.ofNat 16 (n + 1))

/-- The register after further bytes. -/
def crcFrom : List Byte → BitVec 16 → BitVec 16
  | [], r => r
  | b :: bs, r => withNumeral (crcByte r b) (crcFrom bs)

/-- The CRC of a byte string: initial value all ones, no final inversion. -/
def crc16 (bytes : List Byte) : BitVec 16 := crcFrom bytes 0xFFFF#16

/-- The CRC as its two bytes, high byte first. -/
def crcBytes (bytes : List Byte) : List Byte := bytesOf 2 (crc16 bytes).toNat

/-! ## Check codes of the stored sectors (R198, stage 1) -/

/-- A sector as stored: its contents and, in two bytes after them, their check code. -/
def sealed (contents : List Byte) : List Byte := contents ++ crcBytes contents

/-- The number of the flipped bit, counted from the last bit of the contents, whose pattern of change is `s`. -/
def findFlip : (fuel : Nat) → (pattern s : BitVec 16) → (j : Nat) → Option Nat
  | 0, _, _, _ => none
  | n + 1, p, s, j => if p = s then some j else withNumeral (crcBit p false) fun p' => findFlip n p' s (j + 1)

/-- The contents with the bit numbered `j` from the end flipped. -/
def flipFromEnd (contents : List Byte) (j : Nat) : List Byte :=
  contents.modify (contents.length - 1 - j / 8) (· ^^^ BitVec.twoPow 8 (j % 8))

/-- Exactly one bit set. -/
def singleBit (s : BitVec 16) : Bool := s != 0 && (s &&& (s - 1)) == 0

/-- What stage 1 of R198 finds of a sector, with the contents as they are loaded or answered. -/
inductive CodeVerdict where
  | clean (contents : List Byte)
  | corrected (contents : List Byte)
  | uncorrectable (contents : List Byte)
  deriving DecidableEq, Repr

/-- Stage 1 of R198: the exclusive or of the computed and the stored code decides. -/
def judgeCode (stored : List Byte) : CodeVerdict :=
  let contents := stored.take (stored.length - 2)
  let code := BitVec.ofNat 16 (valueOf (stored.drop (stored.length - 2)))
  let syndrome := crc16 contents ^^^ code
  if syndrome = 0 then .clean contents
  else
    match findFlip (8 * contents.length) 0x1021#16 syndrome 0 with
    | some j => .corrected (flipFromEnd contents j)
    | none => if singleBit syndrome then .corrected contents else .uncorrectable contents

/-- The contents of a sector with any single flipped bit corrected, or as they stand when uncorrectable (R199). -/
def CodeVerdict.contents : CodeVerdict → List Byte
  | .clean c => c
  | .corrected c => c
  | .uncorrectable c => c

/-! ## Carried fields (R197) -/

/-- One stored parameter: its width in bytes and its range. -/
structure FieldSpec where
  width : Nat
  low : Nat
  high : Nat
  deriving DecidableEq, Repr

/-- The identity sector's fields; the beacon interval is carried as its code. -/
def identityFields : List FieldSpec :=
  [⟨1, 0, 15⟩, ⟨1, 0, 1⟩, ⟨1, 0, 18⟩, ⟨1, 1, 255⟩, ⟨1, 1, 255⟩]

/-- Part 0 of the station sector, in the order of R197's table. -/
def generalFields : List FieldSpec :=
  [⟨1, 0, 1⟩, ⟨1, 0, 60⟩, ⟨1, 1, 255⟩, ⟨1, 1, 255⟩, ⟨1, 1, 255⟩, ⟨1, 0, 15⟩, ⟨1, 3, 25⟩, ⟨1, 1, 20⟩, ⟨2, 200, 5000⟩,
   ⟨1, 5, 60⟩, ⟨2, 20, 500⟩, ⟨1, 5, 100⟩, ⟨2, 50, 1000⟩, ⟨1, 0, 3⟩, ⟨3, 50000, 500000⟩, ⟨3, 50000, 500000⟩,
   ⟨1, 5, 120⟩, ⟨3, 20000, 2000000⟩, ⟨3, 0, 100000⟩] ++
  [⟨2, 10, 5000⟩, ⟨2, 10, 5000⟩, ⟨2, 10, 5000⟩, ⟨2, 10, 5000⟩, ⟨1, 1, 15⟩, ⟨1, 5, 100⟩, ⟨3, 1000, 100000⟩]

/-- One entry of the tin size table. -/
def sizeFields : List FieldSpec :=
  [⟨1, 0, 1⟩, ⟨2, 250, 20000⟩, ⟨3, 0, 3999999⟩, ⟨3, 0, 3999999⟩, ⟨2, 1, 4000⟩, ⟨2, 30, 300⟩, ⟨1, 0, 15⟩]

/-- One canister set, in the order of R19's list. -/
def canFields : List FieldSpec :=
  [⟨2, 2000, 32000⟩, ⟨1, 0, 200⟩, ⟨3, 0, 100000⟩, ⟨1, 1, 100⟩, ⟨2, 200, 8000⟩, ⟨2, 0, 720⟩, ⟨2, 0, 720⟩,
   ⟨2, 100, 6400⟩]

/-- What a message or a sector carries as one unit: the identity sector or a part of the station sector. -/
inductive PartId where
  | identity
  | general
  | sizes
  | cansLow
  | cansHigh
  deriving DecidableEq, Repr

def PartId.fields : PartId → List FieldSpec
  | .identity => identityFields
  | .general => generalFields
  | .sizes => (List.replicate 8 sizeFields).flatten
  | .cansLow => (List.replicate 8 canFields).flatten
  | .cansHigh => (List.replicate 8 canFields).flatten

/-- The part's bytes: identity 5, part 0 43, part 1 112, parts 2 and 3 120 (R207). -/
def PartId.size (p : PartId) : Nat := (p.fields.map FieldSpec.width).sum

/-- The number of a part of the station sector, 0 to 3 (the identity sector's is 0). -/
def PartId.number : PartId → Nat
  | .identity => 0
  | .general => 0
  | .sizes => 1
  | .cansLow => 2
  | .cansHigh => 3

def PartId.sector : PartId → SectorId
  | .identity => .identity
  | .general => .station
  | .sizes => .station
  | .cansLow => .station
  | .cansHigh => .station

/-- The part a request names by its sector byte and part byte (R207). -/
def PartId.ofBytes (sector part : Byte) : Option PartId :=
  if sector = 0 then (if part = 0 then some .identity else none)
  else if sector = 1 then
    if part = 0 then some .general
    else if part = 1 then some .sizes
    else if part = 2 then some .cansLow
    else if part = 3 then some .cansHigh
    else none
  else none

/-- The values of consecutive fields. -/
def readFields : List FieldSpec → List Byte → List Nat
  | [], _ => []
  | f :: fs, bytes => valueOf (bytes.take f.width) :: readFields fs (bytes.drop f.width)

/-- Consecutive fields as bytes. -/
def writeFields : List FieldSpec → List Nat → List Byte
  | [], _ => []
  | f :: fs, [] => bytesOf f.width 0 ++ writeFields fs []
  | f :: fs, v :: vs => bytesOf f.width v ++ writeFields fs vs

/-- Whether the value at one position of a part is wrong: outside its range, a gross band's high bound below its low
bound, or a snuff-back count not below its travel (R198, stage 2). -/
def wrongAt (p : PartId) (values : List Nat) (i : Nat) (f : FieldSpec) : Bool :=
  let v := values.getD i 0
  let before := values.getD (i - 1) 0
  v < f.low || f.high < v ||
  (match p with
   | .sizes => i % 7 == 3 && v < before
   | .cansLow => i % 8 == 1 && before ≤ v
   | .cansHigh => i % 8 == 1 && before ≤ v
   | .identity => false
   | .general => false)

def firstWrongFrom (p : PartId) (values : List Nat) : (i : Nat) → List FieldSpec → Option Nat
  | _, [] => none
  | i, f :: fs => if wrongAt p values i f then some (i + 1) else firstWrongFrom p values (i + 1) fs

/-- The position, counted from 1 (log 10), of the first parameter of a part found wrong. -/
def firstWrong (p : PartId) (bytes : List Byte) : Option Nat :=
  firstWrongFrom p (readFields p.fields bytes) 0 p.fields

/-! ## From fields to parameters and back -/

def identityOfValues (v : List Nat) : Identity :=
  { number := Fin.ofNat 16 (v.getD 0 0)
    lineMode := if v.getD 1 0 = 0 then .peer else .solo
    beaconInterval := 100 + 50 * v.getD 2 0
    powerBudget := v.getD 3 0
    airBudget := v.getD 4 0 }

/-- The beacon-interval code: (interval - 100) / 50 (R145). -/
def intervalCode (i : Identity) : Nat := (i.beaconInterval - 100) / 50

def identityValues (i : Identity) : List Nat :=
  [i.number.val, (match i.lineMode with | .peer => 0 | .solo => 1), intervalCode i, i.powerBudget, i.airBudget]

def generalOfValues (v : List Nat) : General :=
  { scope := if v.getD 0 0 = 0 then .bay else .station
    keepalive := v.getD 1 0
    spinDraw := v.getD 2 0
    runDraw := v.getD 3 0
    pressDraw := v.getD 4 0
    quietLimit := v.getD 5 0
    windowLen := v.getD 6 0
    band := v.getD 7 0
    blankTime := v.getD 8 0
    settleTimeout := v.getD 9 0
    tolAbs := v.getD 10 0
    tolRel := v.getD 11 0
    verifyFloor := v.getD 12 0
    maxTopUps := v.getD 13 0
    normalPeriod := v.getD 14 0
    gentlePeriod := v.getD 15 0
    stirRun := v.getD 16 0
    stirMinPeriod := v.getD 17 0
    lowMargin := v.getD 18 0
    testVolumes := #v[v.getD 19 0, v.getD 20 0, v.getD 21 0, v.getD 22 0]
    testMask := v.getD 23 0
    spread := v.getD 24 0
    cupMax := v.getD 25 0 }

def generalValues (g : General) : List Nat :=
  [(match g.scope with | .bay => 0 | .station => 1), g.keepalive, g.spinDraw, g.runDraw, g.pressDraw, g.quietLimit,
   g.windowLen, g.band, g.blankTime, g.settleTimeout, g.tolAbs, g.tolRel, g.verifyFloor, g.maxTopUps, g.normalPeriod,
   g.gentlePeriod, g.stirRun, g.stirMinPeriod, g.lowMargin] ++ g.testVolumes.toList ++
  [g.testMask, g.spread, g.cupMax]

/-- The entry of a tin size; its flag is 1 for enabled (R197; log 75). -/
def sizeOfValues (v : List Nat) : TinSize :=
  { enabled := v.getD 0 0 = 1
    fill := v.getD 1 0
    grossLow := v.getD 2 0
    grossHigh := v.getD 3 0
    headroom := v.getD 4 0
    shakeTime := v.getD 5 0
    lidType := v.getD 6 0 }

def sizeValues (t : TinSize) : List Nat :=
  [(if t.enabled then 1 else 0), t.fill, t.grossLow, t.grossHigh, t.headroom, t.shakeTime, t.lidType]

def canStaticOfValues (v : List Nat) : CanStatic :=
  { travel := v.getD 0 0
    snuffBack := v.getD 1 0
    reserve := v.getD 2 0
    minShot := v.getD 3 0
    stepRate := v.getD 4 0
    settleLimit := v.getD 5 0
    stirInterval := v.getD 6 0
    nominalK := v.getD 7 0 }

def canStaticValues (c : CanStatic) : List Nat :=
  [c.travel, c.snuffBack, c.reserve, c.minShot, c.stepRate, c.settleLimit, c.stirInterval, c.nominalK]

/-! ## Whole sectors -/

/-- Where a part begins in its sector's contents. -/
def PartId.offset : PartId → Nat
  | .identity => 0
  | .general => 0
  | .sizes => 43
  | .cansLow => 155
  | .cansHigh => 275

/-- A part's bytes within its sector's contents. -/
def partBytes (p : PartId) (contents : List Byte) : List Byte := (contents.drop p.offset).take p.size

def identityContents (i : Identity) : List Byte := writeFields identityFields (identityValues i)

def stationContents (c : Loaded) : List Byte :=
  writeFields generalFields (generalValues c.general) ++
  (c.sizes.toList.map fun t => writeFields sizeFields (sizeValues t)).flatten ++
  (c.cans.toList.map fun p => writeFields canFields (canStaticValues p)).flatten

/-- The default image of a sector (12.2). -/
def defaultContents : SectorId → List Byte
  | .identity => identityContents Identity.default
  | .station => stationContents Loaded.default

/-- The contents of a sector with one part replaced. -/
def replacePart (p : PartId) (contents image : List Byte) : List Byte :=
  contents.take p.offset ++ image ++ contents.drop (p.offset + p.size)

/-- The parameters a pair of sector contents stands for. -/
def loadedOf (ident station : List Byte) : Loaded :=
  let sizes := readFields PartId.sizes.fields (partBytes .sizes station)
  let cans := readFields PartId.cansLow.fields (partBytes .cansLow station) ++
    readFields PartId.cansHigh.fields (partBytes .cansHigh station)
  { ident := identityOfValues (readFields identityFields ident)
    general := generalOfValues (readFields generalFields (partBytes .general station))
    sizes := Vector.ofFn fun i => sizeOfValues (sizes.drop (7 * i.val))
    cans := Vector.ofFn fun i => canStaticOfValues (cans.drop (8 * i.val)) }

/-! ## The judgement of both sectors at a start (R198) -/

/-- A sector's load report (R198). -/
inductive LoadReport where
  | clean
  | corrected
  | uncorrectable
  | range (part position : Nat)
  | draw
  deriving DecidableEq, Repr

/-- Whether a report makes the load fail (R198). -/
def LoadReport.failed : LoadReport → Bool
  | .clean => false
  | .corrected => false
  | .uncorrectable => true
  | .range _ _ => true
  | .draw => true

/-- The parts of a sector, in order. -/
def sectorParts : SectorId → List PartId
  | .identity => [.identity]
  | .station => [.general, .sizes, .cansLow, .cansHigh]

/-- The first parameter of a sector found wrong: its part's number and its position there. -/
def firstWrongPart (contents : List Byte) : List PartId → Option (Nat × Nat)
  | [] => none
  | p :: ps =>
    match firstWrong p (partBytes p contents) with
    | some i => some (p.number, i)
    | none => firstWrongPart contents ps

/-- Stages 1 and 2 of R198 for one sector. -/
def judgeSector (sector : SectorId) (stored : List Byte) : LoadReport :=
  match judgeCode stored with
  | .uncorrectable _ => .uncorrectable
  | .clean c =>
    match firstWrongPart c (sectorParts sector) with
    | some (p, i) => .range p i
    | none => .clean
  | .corrected c =>
    match firstWrongPart c (sectorParts sector) with
    | some (p, i) => .range p i
    | none => .corrected

/-- Whether stage 1 corrects a bit of the sector. -/
def corrects (stored : List Byte) : Bool :=
  match judgeCode stored with
  | .corrected _ => true
  | .clean _ => false
  | .uncorrectable _ => false

/-- Stage 3 of R198: the draws against each other and against the budgets. -/
def drawsFit (c : Loaded) : Bool :=
  c.general.runDraw ≤ c.general.spinDraw && c.general.spinDraw ≤ c.ident.powerBudget &&
  c.general.runDraw ≤ c.ident.powerBudget && c.general.pressDraw ≤ c.ident.airBudget

/-- What a start makes of the two sectors: their reports and, when the load passes, the configuration. -/
structure LoadResult where
  identReport : LoadReport
  stationReport : LoadReport
  loaded : Option Loaded
  deriving DecidableEq, Repr

/-- R198 over both sectors. -/
def loadSectors (ident station : List Byte) : LoadResult :=
  let ri := judgeSector .identity ident
  let rs := judgeSector .station station
  if ri.failed || rs.failed then { identReport := ri, stationReport := rs, loaded := none }
  else
    let c := loadedOf (judgeCode ident).contents (judgeCode station).contents
    if drawsFit c then { identReport := ri, stationReport := rs, loaded := some c }
    else { identReport := ri, stationReport := .draw, loaded := none }

end Sys2Proof.Machine
end

