-- ==== Sys2Proof/Machine/State.lean ====
section
/-! DEFINITION. The state of the part, block by block as 00_scope.md's block overview lists them, and the state after a
start. State is plain data. -/

namespace Sys2Proof.Machine

/-! ## Tin records (R77) and jobs (R1) -/

/-- The fault kinds of R171, with ESTOP, which joins a tin's notes (R98); codes in R209. -/
inductive FaultKind where
  | pumpStall | scaleUnsettled | tinLost | transferJam | lidMissing | lidJam | pressHome | guardBreach | clamp
  | shakeSpeed | estop
  deriving DecidableEq, Repr

/-- Why a line is passed (R83). -/
inductive PassReason where
  | preStir | awaitRefill | awaitCanister
  deriving DecidableEq, Repr

inductive LineState where
  | pending
  | passed (reason : PassReason)
  | active
  | done
  deriving DecidableEq, Repr

inductive LineVerdict where
  | ok | raised | volumetric | omittedZero | omittedSmall | under | over | disturbed | interrupted
  deriving DecidableEq, Repr

/-- What is fixed at a line's first debit (R42): the reported colorant code, S, M_exp and E (absent for a volumetric
line), and the density and K kept for its top-ups. -/
structure LinePlan where
  code : Nat
  steps : Nat
  mExp : Nat
  tol : Option Nat
  density : Nat
  k : Nat
  deriving DecidableEq, Repr

/-- One entry of a tin's line table (R77). `raised` remembers that R44 raised the volume; `base` and `carried` are the
base reading and the carried gain. A first shot has begun exactly when `plan` is present. -/
structure LineEntry where
  slot : Slot
  amount : Nat
  plannedV : Nat
  raised : Bool
  plan : Option LinePlan
  delivered : Nat
  gain : Option Int
  topUps : Nat
  st : LineState
  verdict : Option LineVerdict
  base : Option Int
  carried : Int
  deriving DecidableEq, Repr

/-- The lid result: SEATED (no fault) or FAILED with a fault kind, and the seat time in ms. -/
structure LidResult where
  fault : Option FaultKind
  seatTime : Nat
  deriving DecidableEq, Repr

structure ShakeResult where
  seconds : Nat
  restarts : Nat
  deriving DecidableEq, Repr

inductive Verdict where
  | good | hold | cancelled
  deriving DecidableEq, Repr

/-- A tin record (R77, R209). `batch` keeps the job's tin count for QUERY_JOB (log 22), `committed` whether the tin is
committed (R11); neither is reported. -/
structure TinRecord where
  jobId : Nat
  orderRef : Nat
  index : Nat
  batch : Nat
  size : SizeCode
  shakeTime : Nat
  shakeClass : ShakeClass
  tare : Option Int
  lid : Option LidResult
  shake : Option ShakeResult
  verdict : Option Verdict
  notes : List FaultKind
  lost : Bool
  cancelled : Bool
  committed : Bool
  lines : List LineEntry
  deriving DecidableEq, Repr

structure FormulaLine where
  slot : Slot
  amount : Nat
  deriving DecidableEq, Repr

/-- A job record (R1). -/
structure Job where
  id : Nat
  orderRef : Nat
  arrival : Nat
  size : SizeCode
  count : Nat
  issued : Nat
  priority : Nat
  shakeTime : Option Nat
  shakeClass : ShakeClass
  lines : List FormulaLine
  deriving DecidableEq, Repr

/-- The job queue: records in the order of R8, reserved places (R10), the two counters (R6, R7). -/
structure JobQueue where
  records : List Job
  reserved : List Job
  nextId : Nat
  nextArrival : Nat
  deriving DecidableEq, Repr

/-! ## Canisters and stirring -/

inductive CanState where
  | absent | uncalibrated | ready | calibrating | faulted
  deriving DecidableEq, Repr

inductive Activity where
  | idle | stirring | pumping | refilling
  deriving DecidableEq, Repr

inductive CanFault where
  | stir | noFlow | stall
  deriving DecidableEq, Repr

/-- A canister record (R19). -/
structure Canister where
  state : CanState
  activity : Activity
  code : Nat
  density : Nat
  k : Nat
  level : Nat
  piston : Nat
  snuff : Nat
  age : Nat
  miss : Nat
  reason : Option CanFault
  deriving DecidableEq, Repr

/-- One granted stirrer slot (R35, R36): run time left, what is left of the speed check while it runs, slow revolutions
in a row, and whether the run timer has expired while the check is still waiting. -/
structure StirRun where
  slot : Slot
  left : Nat
  check : Option Nat
  slow : Nat
  expired : Bool
  deriving DecidableEq, Repr

/-- The stir manager: granted slots, pre-dispense requests in the order made, the minute timer in ms. The periodic
requests are computed from R33's conditions. -/
structure StirManager where
  runs : List StirRun
  pre : List Slot
  minute : Nat
  deriving DecidableEq, Repr

/-! ## Pump drive -/

inductive OpKind where
  | lineShot | topUp | primeShot | testShot
  deriving DecidableEq, Repr

inductive Segment where
  | home | restore | forward | refill | snuffBack
  deriving DecidableEq, Repr

/-- Where a segment stands: the valve turning to the canister, the piston moving, the valve turning back. -/
inductive SegStage where
  | turnOut | moving | turnBack
  deriving DecidableEq, Repr

/-- The operation record (R49). `turn` is the time the present valve turn has run, `frac` the part of a step (in
thousandths) that the step rate has accumulated (log 15). -/
structure PumpOp where
  slot : Slot
  kind : OpKind
  total : Nat
  k : Nat
  counted : Nat
  segment : Segment
  stage : SegStage
  toRun : Nat
  run : Nat
  pulses : Nat
  turn : Nat
  frac : Nat
  paused : Bool
  deriving DecidableEq, Repr

structure PumpDrive where
  op : Option PumpOp
  homed : Vector Bool 16
  deriving DecidableEq, Repr

/-! ## Scale monitor -/

/-- The last sample (R61): its value and whether it was saturated. -/
structure Sample where
  value : Int
  saturated : Bool
  deriving DecidableEq, Repr

/-- The scale monitor (R61). `blank` is the blank timer, the ms left of the blanking period: absent when the scale is not
blanked, 0 between running out and its expiry, which BLANK_TIMER_EXPIRY takes (R66; log 4). `request` is the open request's
settle timer in ms. -/
structure Scale where
  zero : Int
  window : List Int
  blank : Option Nat
  latest : Option Int
  request : Option Nat
  above : Bool
  last : Option Sample
  deriving DecidableEq, Repr

/-! ## Dispense bay and calibration -/

/-- The dispense bay's states, in the order of R76's table. -/
inductive DispState where
  | empty | called | wrongTin | tare | dispensing | waiting | done | outbound | cancelled | fault | stopped | orphan
  | calCup | calPrime | calRate | calEnd
  deriving DecidableEq, Repr

/-- The step of the active line (R204). -/
inductive LineStep where
  | selection | beforeReading | shot | verify | interrupted
  deriving DecidableEq, Repr

/-- Where a calibration stands within R102 and R103. -/
inductive CalStage where
  | cupWait | cupReading | stirWait | beforeReading | shot | afterReading | over
  deriving DecidableEq, Repr

/-- One entry of the results of a pass (R99). -/
structure CalResult where
  steps : Nat
  gain : Int
  ki : Nat
  deriving DecidableEq, Repr

/-- The calibration record (R99). `tests` are test numbers less one; `steps` is the present shot's step count. -/
structure CalRecord where
  slot : Slot
  tests : List (Fin 4)
  kp : Nat
  density : Nat
  primeTry : Nat
  pass : Nat
  test : Option (Fin 4)
  before : Option Int
  results : List CalResult
  stage : CalStage
  steps : Nat
  deriving DecidableEq, Repr

inductive CalOutcome where
  | pass | primeLoops | primeMaxstroke | rateSpread | rateLow | aborted
  deriving DecidableEq, Repr

/-- The last-result record (R99). -/
structure LastResult where
  slot : Slot
  outcome : CalOutcome
  passes : Nat
  newK : Option Nat
  ks : List Nat
  deriving DecidableEq, Repr

/-- The dispense bay. `recWait`: its closed record waits for room (R93, R96). `lost`: it is finishing after a lost tin
(R93). `removed`: a removal noted while stopped or in fault (R94). `placed`: an object has been set down while stopped or
in fault and still stands (log 32). -/
structure DispenseBay where
  st : DispState
  resume : Option DispState
  step : Option LineStep
  quiet : Bool
  fresh : Bool
  tin : Option TinRecord
  recWait : Bool
  lost : Bool
  removed : Bool
  placed : Bool
  cal : Option CalRecord
  last : Option LastResult
  deriving DecidableEq, Repr

/-! ## Carriage, lid bay, shake bay -/

inductive CarriageState where
  | idle | moving | jammed
  deriving DecidableEq, Repr

inductive Move where
  | dispenseToLid | lidToShake | homeRun
  deriving DecidableEq, Repr

/-- What a jam waits for (R118): the TRANSFER_JAM's CLEAR_FAULT, or CLEAR_FAULT(station). -/
inductive JamCause where
  | transfer | estop
  deriving DecidableEq, Repr

/-- The carriage (R112). Timers in ms. `homeDue`: the jam's cause is cleared and its home run is due (R118). -/
structure Carriage where
  st : CarriageState
  move : Option Move
  tin : Option TinRecord
  deferral : Option Nat
  timer : Option Nat
  charge : Option BayId
  drive : Bool
  cause : Option JamCause
  homeDue : Bool
  deriving DecidableEq, Repr

/-- The lid bay's states, in the order of R119's table. -/
inductive LidState where
  | empty | inbound | awaitLids | awaitAir | awaitQuiet | extend | dwell | retract | done | outbound | fault | stopped
  | orphan
  deriving DecidableEq, Repr

/-- The lid bay (R119). Timers in ms. `seatTime` is the last stroke's measured seat time, `homeCheck` the home check of
a resumption under way (R125), `removed` a removal noted while stopped or in fault. -/
structure LidBay where
  st : LidState
  resume : Option LidState
  tin : Option TinRecord
  declared : Option Nat
  valve : Bool
  seat : Option Nat
  seatTime : Nat
  dwell : Option Nat
  home : Option Nat
  deferral : Option Nat
  homeCheck : Bool
  removed : Bool
  deriving DecidableEq, Repr

/-- The shake bay's states, in the order of R127's table. -/
inductive ShakeState where
  | empty | inbound | clamp | awaitPower | awaitQuiet | spinUp | run | spinDown | awaitRoom | unclamp | awaitRemoval
  | fault | stopped | orphan
  deriving DecidableEq, Repr

inductive ShakerDrive where
  | off | driven | braked
  deriving DecidableEq, Repr

inductive ClampDrive where
  | off | closing | opening
  deriving DecidableEq, Repr

/-- The shake bay (R127). Timers in ms. `turning` is the spin-down mark, `lastSpeed` the last measurement in µs, `joined`
says that a record has joined and its clamp is still to be opened (R131, R134). -/
structure ShakeBay where
  st : ShakeState
  resume : Option ShakeState
  tin : Option TinRecord
  drive : ShakerDrive
  clampDrive : ClampDrive
  clamp : Option Nat
  spin : Option Nat
  run : Option Nat
  deferral : Option Nat
  slow : Nat
  turning : Bool
  lastSpeed : Option Nat
  joined : Bool
  removed : Bool
  deriving DecidableEq, Repr

/-! ## Peer line, roster, claim agents -/

/-- The line states, in the order of R135. -/
inductive LineCtlState where
  | silent | listening | active | down | barred
  deriving DecidableEq, Repr

inductive NoticeKind where
  | claim | adjust | release | wait | beacon
  deriving DecidableEq, Repr

/-- A frame in the transmit queue (R140). A BEACON has no pool, amount or count of its own: its fields here are POWER
and zeros, and its contents are taken when an attempt starts (R146). -/
structure Frame where
  kind : NoticeKind
  pool : Pool
  amount : Nat
  count : Nat
  attempts : Nat
  deriving DecidableEq, Repr

/-- Whether the frame being sent still stands in the queue, has been replaced there by a newer one, or has been
withdrawn by its owner (R140). -/
inductive Fate where
  | queued | superseded | withdrawn
  deriving DecidableEq, Repr

/-- The attempt in progress (R135): the frame, its fate and the bytes on the line (R136, R211). -/
structure Attempt where
  frame : Frame
  fate : Fate
  bytes : List Byte
  deriving DecidableEq, Repr

/-- The peer line controller (R135). `beacon` is the time left to the next beacon in ms, `startReq` in bit times. -/
structure LineCtl where
  st : LineCtlState
  queue : List Frame
  attempt : Option Attempt
  startReq : Nat
  drops : Nat
  beacon : Option Nat
  listens : Nat
  ret : LineCtlState
  awaitIdle : Bool
  deriving DecidableEq, Repr

/-- A wait in a pool as the roster holds it (R147). -/
structure PoolWait where
  amount : Nat
  count : Nat
  deriving DecidableEq, Repr

/-- The beacon summary of a roster entry (R147). -/
structure Summary where
  mode : Nat
  interval : Nat
  jobs : Nat
  bays : Nat
  deriving DecidableEq, Repr

/-- A roster entry (R147). -/
structure RosterEntry where
  present : Bool
  age : Nat
  heldPower : Nat
  heldAir : Nat
  waitPower : Option PoolWait
  waitAir : Option PoolWait
  summary : Option Summary
  mismatch : Bool
  deriving DecidableEq, Repr

inductive AgentState where
  | idle | asking | waiting | held
  deriving DecidableEq, Repr

/-- A claim agent (R152). The wait timer is in ms. -/
structure Agent where
  st : AgentState
  asked : Option Nat
  announced : Nat
  standing : Bool
  count : Nat
  timer : Option Nat
  deriving DecidableEq, Repr

/-! ## Fault monitor, events, station port, store -/

/-- The fault monitor (R168, R170). The three input levels stand in `Inputs`. The keepalive timer is in ms. -/
structure Monitor where
  mode : Mode
  config : Bool
  barred : Bool
  estop : Bool
  faultD : Option FaultKind
  faultL : Option FaultKind
  faultS : Option FaultKind
  safe : Bool
  keepalive : Option Nat
  deriving DecidableEq, Repr

/-- The event flags, in the order of R190's table. -/
inductive EventFlag where
  | completionReady | completionFull | tinWanted | tinWrong | lidsWanted | canisterLow | canisterFault | bayFault
  | calDone | recalAdvised | keepaliveLost | lineChange | budgetWait | configCorrected | orphanTin
  deriving DecidableEq, Repr

/-- The fifteen flags and their enables, bit n for the flag of code n (R207). -/
structure Events where
  flags : BitVec 15
  enables : BitVec 15
  deriving DecidableEq, Repr

/-- The status codes of section 11.3. -/
inductive Status where
  | ok | okShort | inProgress | empty | badFrame | badKind | badField | full | noSuchJob | noCanister | overfill | busy
  | notPermitted
  deriving DecidableEq, Repr

/-- The station port's receiver (R183). -/
inductive Receiver where
  | hunting
  | assembling (got : List Byte)
  | ignoring
  deriving DecidableEq, Repr

/-- What a complete message is judged to be (R184, R187): broken, of no request kind, of a length that does not fit its
kind, or a request. -/
inductive Message where
  | badFrame (kind : Byte)
  | badKind (kind : Byte)
  | misfit (kind : Byte)
  | request (r : Request)
  deriving DecidableEq, Repr

/-- A response (R186, R206). `kind` is the request's kind code, before its top bit is set. -/
structure Response where
  kind : Byte
  status : Status
  overrun : Bool
  payload : List Byte
  deriving DecidableEq, Repr

structure Port where
  receiver : Receiver
  answering : Option Response
  held : Option Message
  overrun : Bool
  deriving DecidableEq, Repr

/-- The write under way (R199, R200): the part and the contents the sector is to have. -/
structure WriteJob where
  part : PartId
  contents : List Byte
  deriving DecidableEq, Repr

inductive WriteResult where
  | none | done | failed
  deriving DecidableEq, Repr

/-- The configuration store (R196 to R199). The two sectors hold contents and check code. -/
structure Store where
  identBytes : List Byte
  stationBytes : List Byte
  identReport : LoadReport
  stationReport : LoadReport
  strapMark : Bool
  write : Option WriteJob
  identLast : WriteResult
  stationLast : WriteResult
  deriving DecidableEq, Repr

/-- Whether the part is without power (its reset line released or held), held by its reset line, about to start, running
on while the start after a RESET waits for a write's end, or running (R201). The phase thus tells the reset line's level:
it is held in `offHeld` and `held` and released in every other phase. -/
inductive Phase where
  | off | offHeld | held | starting | awaitWrite | running
  deriving DecidableEq, Repr

/-! ## The whole -/

structure State where
  phase : Phase
  inputs : Inputs
  cfg : Loaded
  store : Store
  port : Port
  events : Events
  jobs : JobQueue
  cans : Vector Canister 16
  stir : StirManager
  pump : PumpDrive
  scale : Scale
  disp : DispenseBay
  carriage : Carriage
  lid : LidBay
  shake : ShakeBay
  line : LineCtl
  roster : Vector RosterEntry 16
  power : Agent
  air : Agent
  mon : Monitor
  completion : List TinRecord
  free : Nat
  pending : List Instr
  deriving DecidableEq, Repr

/-- No command makes the part stop: bay faults, station faults and refused requests are effects on the state (R171,
R186), so there is no reason to stop and no constructor. -/
inductive Fault where
  deriving DecidableEq, Repr

/-- Why a command has no meaning here. -/
inductive Refusal where
  /-- Raised by exec's arm of a command that has not been given its meaning; safe. No arm raises it now. -/
  | notModelled (mnemonic : String)
  deriving DecidableEq, Repr

/-! ## Reset values, block by block -/

def JobQueue.reset : JobQueue := { records := [], reserved := [], nextId := 1, nextArrival := 0 }

def Canister.reset : Canister :=
  { state := .absent, activity := .idle, code := 0, density := 0, k := 0, level := 0, piston := 0, snuff := 0,
    age := 65535, miss := 0, reason := none }

def StirManager.reset : StirManager := { runs := [], pre := [], minute := 0 }

def PumpDrive.reset : PumpDrive := { op := none, homed := Vector.replicate 16 false }

def Scale.reset : Scale :=
  { zero := 0, window := [], blank := none, latest := none, request := none, above := false, last := none }

def DispenseBay.reset : DispenseBay :=
  { st := .empty, resume := none, step := none, quiet := false, fresh := false, tin := none, recWait := false,
    lost := false, removed := false, placed := false, cal := none, last := none }

def Carriage.reset : Carriage :=
  { st := .idle, move := none, tin := none, deferral := none, timer := none, charge := none, drive := false,
    cause := none, homeDue := false }

def LidBay.reset : LidBay :=
  { st := .empty, resume := none, tin := none, declared := none, valve := false, seat := none, seatTime := 0,
    dwell := none, home := none, deferral := none, homeCheck := false, removed := false }

def ShakeBay.reset : ShakeBay :=
  { st := .empty, resume := none, tin := none, drive := .off, clampDrive := .off, clamp := none, spin := none,
    run := none, deferral := none, slow := 0, turning := false, lastSpeed := none, joined := false,
    removed := false }

def LineCtl.reset : LineCtl :=
  { st := .silent, queue := [], attempt := none, startReq := 12, drops := 0, beacon := none, listens := 0,
    ret := .active, awaitIdle := false }

def RosterEntry.reset : RosterEntry :=
  { present := false, age := 65535, heldPower := 0, heldAir := 0, waitPower := none, waitAir := none, summary := none,
    mismatch := false }

def Agent.reset : Agent :=
  { st := .idle, asked := none, announced := 0, standing := false, count := 0, timer := none }

def Monitor.reset : Monitor :=
  { mode := .pause, config := false, barred := false, estop := false, faultD := none, faultL := none, faultS := none,
    safe := false, keepalive := none }

def Events.reset : Events := { flags := 0, enables := 0 }

def Port.reset : Port := { receiver := .hunting, answering := none, held := none, overrun := false }

/-- The levels the sensors are taken to have at reset (log 2): nothing stands in a bay, the press is home, the clamp is
open, the magazine is empty, no stop is pressed, door and guard are closed, no strap is fitted. -/
def Inputs.quiet : Inputs :=
  { presDispense := false, presLid := false, presShake := false, estop := false, doorOpen := false,
    guardOpen := false, pressHome := true, magazine := false, clampClosed := false, strap := false }

/-- The factory store: both sectors hold the default image and its check code (12). -/
def Store.factory : Store :=
  { identBytes := sealed (defaultContents .identity), stationBytes := sealed (defaultContents .station),
    identReport := .clean, stationReport := .clean, strapMark := false, write := none, identLast := .none,
    stationLast := .none }

/-- The machine right after reset: the start has run over the factory sectors with the inputs of `Inputs.quiet`
(log 1). The mode is PAUSE (R168) and, the factory line mode being SOLO, the line is SILENT (R142). -/
def State.reset : State :=
  { phase := .running
    inputs := Inputs.quiet
    cfg := Loaded.default
    store := Store.factory
    port := Port.reset
    events := Events.reset
    jobs := JobQueue.reset
    cans := Vector.replicate 16 Canister.reset
    stir := StirManager.reset
    pump := PumpDrive.reset
    scale := Scale.reset
    disp := DispenseBay.reset
    carriage := Carriage.reset
    lid := LidBay.reset
    shake := ShakeBay.reset
    line := LineCtl.reset
    roster := Vector.replicate 16 RosterEntry.reset
    power := Agent.reset
    air := Agent.reset
    mon := Monitor.reset
    completion := []
    free := 0
    pending := [] }

end Sys2Proof.Machine
end

