-- ==== Sys2Proof/Machine/Ops.lean ====
section
/-! DEFINITION. The named operations over the state that every block's file uses: updates of one block, the canister
and agent accessors, the conditions several rules share, and the notes of a tin record. -/

namespace Sys2Proof.Machine

/-! ## Updates of one block -/

def State.mapPhase (f : Phase → Phase) (s : State) : State := { s with phase := f s.phase }
def State.mapInputs (f : Inputs → Inputs) (s : State) : State := { s with inputs := f s.inputs }
def State.mapCfg (f : Loaded → Loaded) (s : State) : State := { s with cfg := f s.cfg }
def State.mapStore (f : Store → Store) (s : State) : State := { s with store := f s.store }
def State.mapPort (f : Port → Port) (s : State) : State := { s with port := f s.port }
def State.mapEvents (f : Events → Events) (s : State) : State := { s with events := f s.events }
def State.mapJobs (f : JobQueue → JobQueue) (s : State) : State := { s with jobs := f s.jobs }
def State.mapCans (f : Vector Canister 16 → Vector Canister 16) (s : State) : State := { s with cans := f s.cans }
def State.mapStir (f : StirManager → StirManager) (s : State) : State := { s with stir := f s.stir }
def State.mapPump (f : PumpDrive → PumpDrive) (s : State) : State := { s with pump := f s.pump }
def State.mapScale (f : Scale → Scale) (s : State) : State := { s with scale := f s.scale }
def State.mapDisp (f : DispenseBay → DispenseBay) (s : State) : State := { s with disp := f s.disp }
def State.mapCarriage (f : Carriage → Carriage) (s : State) : State := { s with carriage := f s.carriage }
def State.mapLid (f : LidBay → LidBay) (s : State) : State := { s with lid := f s.lid }
def State.mapShake (f : ShakeBay → ShakeBay) (s : State) : State := { s with shake := f s.shake }
def State.mapLine (f : LineCtl → LineCtl) (s : State) : State := { s with line := f s.line }
def State.mapRoster (f : Vector RosterEntry 16 → Vector RosterEntry 16) (s : State) : State := { s with roster := f s.roster }
def State.mapPower (f : Agent → Agent) (s : State) : State := { s with power := f s.power }
def State.mapAir (f : Agent → Agent) (s : State) : State := { s with air := f s.air }
def State.mapMon (f : Monitor → Monitor) (s : State) : State := { s with mon := f s.mon }
def State.mapCompletion (f : List TinRecord → List TinRecord) (s : State) : State := { s with completion := f s.completion }
def State.mapFree (f : Nat → Nat) (s : State) : State := { s with free := f s.free }

/-! ## Canisters -/

/-- The record of one canister (R19). -/
def State.can (s : State) (i : Slot) : Canister := s.cans[i]

/-- The static parameters of one canister (R19). -/
def State.canStatic (s : State) (i : Slot) : CanStatic := s.cfg.cans[i]

/-- Update of one canister record. -/
def State.mapCan (i : Slot) (f : Canister → Canister) (s : State) : State :=
  s.mapCans fun v => v.set i (f v[i])

/-! ## Claim agents and pools -/

def State.agent (s : State) : Pool → Agent
  | .power => s.power
  | .air => s.air

def State.mapAgent : Pool → (Agent → Agent) → State → State
  | .power, f, s => s.mapPower f
  | .air, f, s => s.mapAir f

/-- The budget of a pool (R151). -/
def State.budget (s : State) : Pool → Nat
  | .power => s.cfg.ident.powerBudget
  | .air => s.cfg.ident.airBudget

/-- A roster entry's held amount in a pool (R147). -/
def RosterEntry.held (e : RosterEntry) : Pool → Nat
  | .power => e.heldPower
  | .air => e.heldAir

/-- A roster entry's wait in a pool (R147). -/
def RosterEntry.wait (e : RosterEntry) : Pool → Option PoolWait
  | .power => e.waitPower
  | .air => e.waitAir

def RosterEntry.setHeld (e : RosterEntry) : Pool → Nat → RosterEntry
  | .power, n => { e with heldPower := n }
  | .air, n => { e with heldAir := n }

def RosterEntry.setWait (e : RosterEntry) : Pool → Option PoolWait → RosterEntry
  | .power, w => { e with waitPower := w }
  | .air, w => { e with waitAir := w }

/-! ## Conditions several rules share -/

/-- The part runs (R201): its blocks go on too while the start after a RESET waits for a write's end. -/
def State.running (s : State) : Bool := s.phase = .running || s.phase = .awaitWrite

/-- The station port takes messages (R189): none from the end of RESET's response on (log 7). -/
def State.serves (s : State) : Bool := s.phase = .running

/-- The part runs and has a configuration: its mode is not OFFLINE (R201, R202). -/
def State.online (s : State) : Bool := s.running && s.mon.mode ≠ .offline

/-- The latched fault of a bay (R171). -/
def State.fault (s : State) : BayId → Option FaultKind
  | .dispense => s.mon.faultD
  | .lid => s.mon.faultL
  | .shake => s.mon.faultS

def State.setFault (b : BayId) (k : Option FaultKind) (s : State) : State :=
  match b with
  | .dispense => s.mapMon fun m => { m with faultD := k }
  | .lid => s.mapMon fun m => { m with faultL := k }
  | .shake => s.mapMon fun m => { m with faultS := k }

/-- At least one bay holds a latched fault. -/
def State.anyFault (s : State) : Bool := s.mon.faultD.isSome || s.mon.faultL.isSome || s.mon.faultS.isSome

/-- A station stop stands while the stop scope is STATION and a bay holds a latched fault (R170). -/
def State.stationStop (s : State) : Bool := s.cfg.general.scope = .station && s.anyFault

/-- A station stop or the station fault ESTOP stands. -/
def State.stopStands (s : State) : Bool := s.stationStop || s.mon.estop

/-- An elapsed timer runs and has reached its limit (log 4). -/
def reached (limit : Nat) (t : Option Nat) : Bool := t.any fun n => limit ≤ n

/-! ## Tin records -/

/-- A fault kind joins the notes the first time it is met, up to four kinds (R98). -/
def TinRecord.note (k : FaultKind) (t : TinRecord) : TinRecord :=
  if t.notes.contains k || 4 ≤ t.notes.length then t else { t with notes := t.notes ++ [k] }

/-- A shot has been given for the tin: a first shot of one of its lines has begun (R14, R50). -/
def TinRecord.shotGiven (t : TinRecord) : Bool := t.lines.any fun l => l.plan.isSome

/-- Update of the tin record a bay holds, if it holds one. -/
def State.mapTin (b : BayId) (f : TinRecord → TinRecord) (s : State) : State :=
  match b with
  | .dispense => s.mapDisp fun d => { d with tin := d.tin.map f }
  | .lid => s.mapLid fun d => { d with tin := d.tin.map f }
  | .shake => s.mapShake fun d => { d with tin := d.tin.map f }

/-- The record of a committed tin (R11). -/
def TinRecord.commit (t : TinRecord) : TinRecord := { t with committed := true }

/-- Update of the tin record on the carriage. -/
def State.mapCarried (f : TinRecord → TinRecord) (s : State) : State :=
  s.mapCarriage fun c => { c with tin := c.tin.map f }

/-- The first element of a list that satisfies a test, with its index. -/
def findIdxFrom {α : Type} (p : α → Bool) : List α → Nat → Option (Nat × α)
  | [], _ => none
  | a :: as, n => if p a then some (n, a) else findIdxFrom p as (n + 1)

end Sys2Proof.Machine
end

