-- ==== Sys2Proof/Machine/Flags.lean ====
section
/-! DEFINITION. The event flags and the attention output (R190, R191), and the codes of section 13 for every
enumeration that a message or a record carries. -/

namespace Sys2Proof.Machine

/-! ## Event flags -/

/-- A flag's bit: its place in R190's table (R207). -/
def EventFlag.bit : EventFlag → Nat
  | .completionReady => 0
  | .completionFull => 1
  | .tinWanted => 2
  | .tinWrong => 3
  | .lidsWanted => 4
  | .canisterLow => 5
  | .canisterFault => 6
  | .bayFault => 7
  | .calDone => 8
  | .recalAdvised => 9
  | .keepaliveLost => 10
  | .lineChange => 11
  | .budgetWait => 12
  | .configCorrected => 13
  | .orphanTin => 14

/-- Whether a flag is set. -/
def State.flag (s : State) (f : EventFlag) : Bool := s.events.flags.getLsbD f.bit

/-- A setting event of a flag (R190). -/
def setFlag (f : EventFlag) (s : State) : State :=
  s.mapEvents fun e => { e with flags := e.flags ||| BitVec.twoPow 15 f.bit }

/-- A clearing action of a flag (R190, third column). -/
def clearFlag (f : EventFlag) (s : State) : State :=
  s.mapEvents fun e => { e with flags := e.flags &&& ~~~(BitVec.twoPow 15 f.bit) }

/-- The attention output is active while an enabled flag is set (R191). -/
def attention (s : State) : Bool := s.events.flags &&& s.events.enables != 0

/-! ## Codes (R204, R206, R209, R210) -/

def Status.code : Status → Byte
  | .ok => 0x00
  | .okShort => 0x01
  | .inProgress => 0x02
  | .empty => 0x03
  | .badFrame => 0x10
  | .badKind => 0x11
  | .badField => 0x12
  | .full => 0x13
  | .noSuchJob => 0x14
  | .noCanister => 0x15
  | .overfill => 0x16
  | .busy => 0x17
  | .notPermitted => 0x18

def FaultKind.code : FaultKind → Nat
  | .pumpStall => 1
  | .scaleUnsettled => 2
  | .tinLost => 3
  | .transferJam => 4
  | .lidMissing => 5
  | .lidJam => 6
  | .pressHome => 7
  | .guardBreach => 8
  | .clamp => 9
  | .shakeSpeed => 10
  | .estop => 11

def modeCode : Mode → Nat
  | .pause => 0
  | .run => 1
  | .maint => 2
  | .offline => 3

def shakeClassCode : ShakeClass → Nat
  | .normal => 0
  | .gentle => 1

def Verdict.code : Verdict → Nat
  | .good => 0
  | .hold => 1
  | .cancelled => 2

def LineState.code : LineState → Nat
  | .pending => 0
  | .passed _ => 1
  | .active => 2
  | .done => 3

def LineState.reasonCode : LineState → Nat
  | .passed .preStir => 1
  | .passed .awaitRefill => 2
  | .passed .awaitCanister => 3
  | .pending => 0
  | .active => 0
  | .done => 0

def LineVerdict.code : LineVerdict → Nat
  | .ok => 0
  | .raised => 1
  | .volumetric => 2
  | .omittedZero => 3
  | .omittedSmall => 4
  | .under => 5
  | .over => 6
  | .disturbed => 7
  | .interrupted => 8

def CanState.code : CanState → Nat
  | .absent => 0
  | .uncalibrated => 1
  | .ready => 2
  | .calibrating => 3
  | .faulted => 4

def Activity.code : Activity → Nat
  | .idle => 0
  | .stirring => 1
  | .pumping => 2
  | .refilling => 3

def CanFault.code : CanFault → Nat
  | .stir => 1
  | .noFlow => 2
  | .stall => 3

def DispState.code : DispState → Nat
  | .empty => 0
  | .called => 1
  | .wrongTin => 2
  | .tare => 3
  | .dispensing => 4
  | .waiting => 5
  | .done => 6
  | .outbound => 7
  | .cancelled => 8
  | .fault => 9
  | .stopped => 10
  | .orphan => 11
  | .calCup => 12
  | .calPrime => 13
  | .calRate => 14
  | .calEnd => 15

def LineStep.code : LineStep → Nat
  | .selection => 0
  | .beforeReading => 1
  | .shot => 2
  | .verify => 3
  | .interrupted => 4

def CalOutcome.code : CalOutcome → Nat
  | .pass => 0
  | .primeLoops => 1
  | .primeMaxstroke => 2
  | .rateSpread => 3
  | .rateLow => 4
  | .aborted => 5

/-- Operation kinds in the order of section 3.4's list. -/
def OpKind.code : OpKind → Nat
  | .lineShot => 0
  | .topUp => 1
  | .primeShot => 2
  | .testShot => 3

def CarriageState.code : CarriageState → Nat
  | .idle => 0
  | .moving => 1
  | .jammed => 2

def Move.code : Move → Nat
  | .dispenseToLid => 0
  | .lidToShake => 1
  | .homeRun => 2

def LidState.code : LidState → Nat
  | .empty => 0
  | .inbound => 1
  | .awaitLids => 2
  | .awaitAir => 3
  | .awaitQuiet => 4
  | .extend => 5
  | .dwell => 6
  | .retract => 7
  | .done => 8
  | .outbound => 9
  | .fault => 10
  | .stopped => 11
  | .orphan => 12

def ShakeState.code : ShakeState → Nat
  | .empty => 0
  | .inbound => 1
  | .clamp => 2
  | .awaitPower => 3
  | .awaitQuiet => 4
  | .spinUp => 5
  | .run => 6
  | .spinDown => 7
  | .awaitRoom => 8
  | .unclamp => 9
  | .awaitRemoval => 10
  | .fault => 11
  | .stopped => 12
  | .orphan => 13

def AgentState.code : AgentState → Nat
  | .idle => 0
  | .asking => 1
  | .waiting => 2
  | .held => 3

def LineCtlState.code : LineCtlState → Nat
  | .silent => 0
  | .listening => 1
  | .active => 2
  | .down => 3
  | .barred => 4

def lineModeCode : LineMode → Nat
  | .peer => 0
  | .solo => 1

def stopScopeCode : StopScope → Nat
  | .bay => 0
  | .station => 1

def LoadReport.code : LoadReport → Nat
  | .clean => 0
  | .corrected => 1
  | .uncorrectable => 2
  | .range _ _ => 3
  | .draw => 4

def WriteResult.code : WriteResult → Nat
  | .none => 0
  | .done => 1
  | .failed => 2

def poolCode : Pool → Nat
  | .power => 0
  | .air => 1

def NoticeKind.code : NoticeKind → Nat
  | .claim => 1
  | .adjust => 2
  | .release => 3
  | .wait => 4
  | .beacon => 5

end Sys2Proof.Machine
end

