-- ==== Sys2Proof/Machine/Line.lean ====
section
/-! DEFINITION. The transmit queue of the peer line controller (R138 to R141): which frame goes next, placing and
withdrawing frames. The controller's own events stand in LineControl.lean, after the claim agents it reports to. -/

namespace Sys2Proof.Machine

/-- The urgency of a notice kind (R145). -/
def NoticeKind.urgency : NoticeKind → Nat
  | .claim => 0
  | .adjust => 0
  | .release => 0
  | .wait => 1
  | .beacon => 2

/-- Frames of one kind for one pool replace each other in the queue (R140). -/
def Frame.same (f g : Frame) : Bool := f.kind = g.kind && f.pool = g.pool

/-- A frame takes the last place among its urgency (R140). -/
def insertFrame (f : Frame) : List Frame → List Frame
  | [] => [f]
  | g :: gs => if f.kind.urgency < g.kind.urgency then f :: g :: gs else g :: insertFrame f gs

/-- The frame takes the place of one of its kind and pool, or the last place among its urgency (R140). -/
def putFrame (f : Frame) (q : List Frame) : List Frame :=
  if q.any f.same then q.map fun g => if f.same g then f else g else insertFrame f q

/-- The attempt in progress is for the queued frame that `f` would replace or withdraw. -/
def LineCtl.sending (c : LineCtl) (f : Frame) : Bool :=
  match c.attempt with
  | some a => a.fate = .queued && f.same a.frame
  | none => false

/-- The fate of the attempt in progress changes. -/
def LineCtl.setFate (x : Fate) (c : LineCtl) : LineCtl :=
  { c with attempt := c.attempt.map fun a => { a with fate := x } }

/-- The line's queue takes frames: in SILENT and BARRED none is placed (R141, R144). -/
def State.lineTakes (s : State) : Bool := s.line.st ≠ .silent && s.line.st ≠ .barred

/-- A frame with its attempts still to come. -/
def newFrame (kind : NoticeKind) (pool : Pool) (amount count : Nat) : Frame :=
  { kind := kind, pool := pool, amount := amount, count := count, attempts := 0 }

/-- A frame is placed in the transmit queue; one of its kind and pool in progress leaves the queue (R140; log 61). -/
def placeFrame (f : Frame) (s : State) : State :=
  if s.lineTakes then
    s.mapLine fun c =>
      let c' := if c.sending f then c.setFate .superseded else c
      { c' with queue := putFrame f c.queue }
  else s

/-- The owner of a queued frame withdraws it; one in progress leaves the queue too (R140; log 61). -/
def withdrawFrame (kind : NoticeKind) (pool : Pool) (s : State) : State :=
  let f := newFrame kind pool 0 0
  s.mapLine fun c =>
    let c' := if c.sending f then c.setFate .withdrawn else c
    { c' with queue := c.queue.filter fun g => !f.same g }

/-- The frames a line state may start (R141). -/
def LineCtlState.allows : LineCtlState → NoticeKind → Bool
  | .active, _ => true
  | .listening, k => k ≠ .claim
  | .down, k => k = .beacon
  | .silent, _ => false
  | .barred, _ => false

/-- The frame the controller starts next (R138). -/
def LineCtl.next (c : LineCtl) : Option Frame := c.queue.find? fun f => c.st.allows f.kind

end Sys2Proof.Machine
end

