-- ==== Sys2Proof/Machine/Claims.lean ====
section
/-! DEFINITION. The claim agents (09_shared_supply_claims.md): room and courtesy, asking, judging, waiting, lowering and
releasing. -/

namespace Sys2Proof.Machine

/-! ## Room and courtesy (R154, R155) -/

/-- The station numbers. -/
def stations : List Station := List.finRange 16

/-- What a roster entry counts for in a pool: its held amount while it is PRESENT (R147, R154). -/
def counted (s : State) (p : Pool) (i : Station) : Nat :=
  if s.roster[i].present && i ≠ s.cfg.ident.number then s.roster[i].held p else 0

/-- The room for this station's own claim (R154). -/
def ownRoom (s : State) (p : Pool) : Nat := s.budget p - (stations.map (counted s p)).sum

/-- The room for a peer's claim: the claimant's own entry is left out and this station's announced holding counts. -/
def peerRoom (s : State) (p : Pool) (claimant : Station) : Nat :=
  s.budget p - (((stations.filter (· ≠ claimant)).map (counted s p)).sum + (s.agent p).announced)

/-- A PRESENT peer waits in the pool with seniority over this station (R155). -/
def seniorWaiter (s : State) (p : Pool) (i : Station) : Bool :=
  let e := s.roster[i]
  e.present && i ≠ s.cfg.ident.number &&
  match e.wait p with
  | none => false
  | some w => (s.agent p).count < w.count || (w.count = (s.agent p).count && i < s.cfg.ident.number)

/-- Courtesy: this station may place a CLAIM for `a` in pool `p` (R155). -/
def courtesy (s : State) (p : Pool) (a : Nat) : Bool :=
  s.line.st = .active && a ≤ ownRoom s p && !stations.any (seniorWaiter s p)

/-! ## Reports to the bays -/

/-- The report of HELD is the bay's leave to go on from AWAIT_AIR or AWAIT_POWER (R122, R128, R153). -/
def reportHeld (p : Pool) (s : State) : State :=
  match p with
  | .air => s.mapLid fun b => if b.st = .awaitAir then { b with st := .awaitQuiet } else b
  | .power => s.mapShake fun b => if b.st = .awaitPower then { b with st := .awaitQuiet } else b

/-- The agent becomes HELD for `a` (R158, R167). -/
def grantOwn (p : Pool) (a : Nat) (s : State) : State :=
  reportHeld p (s.mapAgent p fun g =>
    { g with st := .held, asked := some a, announced := a, standing := false, count := 0, timer := none })

/-! ## Waiting -/

/-- The agent places a WAIT for its asked amount with its present count. -/
def placeWait (p : Pool) (s : State) : State :=
  placeFrame (newFrame .wait p ((s.agent p).asked.getD 0) (s.agent p).count) s

/-- The agent becomes WAITING: a wait begins unless one stands, and a WAIT is placed (R156, R158, R159). -/
def beginWait (p : Pool) (s : State) : State :=
  placeWait p (s.mapAgent p fun g =>
    if g.standing then { g with st := .waiting }
    else { g with st := .waiting, standing := true, count := 0, timer := some 0 })

/-- The agent places a CLAIM and becomes ASKING (R156, R160). -/
def placeClaim (p : Pool) (s : State) : State :=
  placeFrame (newFrame .claim p ((s.agent p).asked.getD 0) 0) (s.mapAgent p fun g => { g with st := .asking })

/-- A try of a WAITING agent (R160). -/
def tryClaim (p : Pool) (s : State) : State :=
  if (s.agent p).st = .waiting && courtesy s p ((s.agent p).asked.getD 0) then
    placeClaim p (withdrawFrame .wait p s)
  else s

/-- The agents are told that the roster has changed, or that the line has entered ACTIVE; POWER tries before AIR (R160; log 62). -/
def tryBoth (s : State) : State := tryClaim .air (tryClaim .power s)

/-- The wait count rises by one at an expiry of the beacon timer while a wait stands, and the rise makes a try, at a
saturated count too (R160; log 63). -/
def raiseCount (p : Pool) (s : State) : State :=
  if (s.agent p).standing then
    tryClaim p (s.mapAgent p fun g => { g with count := min 255 (g.count + 1) })
  else s

/-! ## Orders of the bays -/

/-- A bay asks its IDLE agent for amount `a` (R156; SOLO: R167). -/
def askClaim (p : Pool) (a : Nat) (s : State) : State :=
  if (s.agent p).st = .idle then
    if s.cfg.ident.lineMode = .solo then
      if a ≤ s.budget p then grantOwn p a s
      else s.mapAgent p fun g => { g with st := .waiting, asked := some a }
    else
      let s' := s.mapAgent p fun g => { g with asked := some a }
      if courtesy s' p a then placeClaim p s' else beginWait p s'
  else s

/-- The shake bay orders its HELD agent to lower its claim to `b` (R162). -/
def lowerClaim (p : Pool) (b : Nat) (s : State) : State :=
  if (s.agent p).st = .held && b < (s.agent p).announced then
    if s.lineTakes then placeFrame (newFrame .adjust p b 0) s
    else s.mapAgent p fun g => { g with announced := b }
  else s

/-- A release order (R163): the agent goes to IDLE from any state. -/
def releaseOrder (p : Pool) (s : State) : State :=
  let s1 := withdrawFrame .adjust p (withdrawFrame .wait p (withdrawFrame .claim p s))
  let s2 := s1.mapAgent p fun g =>
    { g with st := .idle, asked := none, standing := false, count := 0, timer := none }
  if s.lineTakes then placeFrame (newFrame .release p 0 0) s2
  else s2.mapAgent p fun g => { g with announced := 0 }

/-- A bay gives up what its agent waits for or holds; an IDLE agent has nothing to give up (R121, R125, R133). -/
def giveUp (p : Pool) (s : State) : State := if (s.agent p).st = .idle then s else releaseOrder p s

/-! ## Reports of the controller -/

/-- An ASKING agent judges its own CLAIM at its frame end (R158). -/
def judgeOwn (p : Pool) (s : State) : State :=
  if (s.agent p).st = .asking then
    let a := (s.agent p).asked.getD 0
    if a ≤ ownRoom s p then grantOwn p a s else beginWait p s
  else s

/-- A withdrawn CLAIM that was sent after all is judged by its IDLE agent: if granted, its amount is announced until the
RELEASE that follows (R163). -/
def judgeWithdrawn (p : Pool) (a : Nat) (s : State) : State :=
  if a ≤ ownRoom s p then s.mapAgent p fun g => { g with announced := a } else s

/-- A CLAIM dropped or returned unsent: its ASKING agent becomes WAITING (R159). -/
def claimLost (p : Pool) (s : State) : State := if (s.agent p).st = .asking then beginWait p s else s

/-- An ADJUST to `b` sent, dropped or returned unsent lowers the announced holding (R162). -/
def adjustDone (p : Pool) (b : Nat) (s : State) : State :=
  s.mapAgent p fun g => { g with announced := min g.announced b }

/-- A RELEASE sent, dropped or returned unsent ends the announced holding (R163). -/
def releaseDone (p : Pool) (s : State) : State := s.mapAgent p fun g => { g with announced := 0 }

end Sys2Proof.Machine
end

