-- ==== Sys2Proof/Machine/Operands.lean ====
section
/-! DEFINITION. The arithmetic of dispensing, weighing, calibration and shaking (R41 to R48, R59, R64, R104 to R106,
R129), and the reading of request payloads (R207, R208). -/

namespace Sys2Proof.Machine

/-! ## From formula amount to planned shot -/

/-- V = round(amount × fill_ml / 1000), cml (R3, R43). -/
def plannedVolume (amount fill : Nat) : Nat := roundDiv (amount * fill) 1000

/-- What the minimum-shot test makes of a planned volume (R44). -/
inductive Treatment where
  | omittedZero | raised | omittedSmall | kept
  deriving DecidableEq, Repr

/-- R44's table; `m` is the canister's minimum shot. -/
def treat (v m : Nat) : Treatment :=
  if v = 0 then .omittedZero
  else if v < m then (if m ≤ 2 * v then .raised else .omittedSmall)
  else .kept

/-- The final V of R44: the volume the line will be dispensed at. -/
def finalVolume (v m : Nat) : Nat :=
  match treat v m with
  | .omittedZero => 0
  | .omittedSmall => 0
  | .raised => m
  | .kept => v

/-- S = round(V × K / 100) steps (R45). -/
def stepCount (v k : Nat) : Nat := roundDiv (v * k) 100

/-- M_exp = round(V × density / 100) mg (R46). -/
def expectedGain (v density : Nat) : Nat := roundDiv (v * density) 100

/-- E = max(tol_abs, round(M_exp × tol_rel / 1000)) mg (R47). -/
def tolerance (g : General) (mExp : Nat) : Nat := max g.tolAbs (roundDiv (mExp * g.tolRel) 1000)

/-- V_t = round(D × 100 / density) cml, raised to the minimum shot (R48). -/
def topUpVolume (deficit density m : Nat) : Nat := max (roundDiv (deficit * 100) density) m

/-- round((S - counted) × 100 / K) cml (R59). -/
def creditVolume (total counted k : Nat) : Nat := roundDiv ((total - counted) * 100) k

/-- The volume of `steps` at factor `k`, round(s × 100 / K) cml (R103). -/
def nominalVolume (steps k : Nat) : Nat := roundDiv (steps * 100) k

/-- K_i = round(s_i × density / G) (R105). -/
def testFactor (steps density gain : Nat) : Nat := roundDiv (steps * density) gain

/-- Mean of a window, rounded down toward minus infinity from (2 × sum + N) / 2N (R64). -/
def settledMean (window : List Int) : Int := (2 * window.sum + window.length) / (2 * window.length : Nat)

/-- Measured gain in mg between two readings in counts (R77). -/
def gainOf (carried after base : Int) : Int := carried + 10 * (after - base)

/-- Whole seconds of a time in ms, rounded (log 12). -/
def wholeSeconds (ms : Nat) : Nat := roundDiv ms 1000

/-! ## Shaker speed (R129) -/

def targetPeriod (g : General) : ShakeClass → Nat
  | .normal => g.normalPeriod
  | .gentle => g.gentlePeriod

/-- t + t / 20 truncated. -/
def reachLimit (t : Nat) : Nat := t + t / 20

/-- t + round(3 × t / 20). -/
def slowLimit (t : Nat) : Nat := t + roundDiv (3 * t) 20

/-! ## Requests: kind codes and payloads (R207) -/

/-- A request's kind code. -/
def requestKind : Request → Byte
  | .submit _ => 0x01
  | .cancel _ => 0x02
  | .setPrio _ _ => 0x03
  | .queryJob _ => 0x04
  | .queryBays => 0x05
  | .takeRecord => 0x06
  | .canLoad _ => 0x07
  | .canLevel _ _ => 0x08
  | .canQuery _ => 0x09
  | .canClear _ => 0x0A
  | .calibrate _ _ => 0x0B
  | .calAbort => 0x0C
  | .lids _ => 0x0D
  | .events => 0x0E
  | .eventAck _ => 0x0F
  | .eventMask _ => 0x10
  | .mode _ => 0x11
  | .clearFault _ => 0x12
  | .resume => 0x13
  | .peers => 0x14
  | .nvRead _ _ => 0x15
  | .nvStore _ _ _ => 0x16
  | .reset => 0x17
  | .ping _ => 0x18

/-- Whether a kind byte names a request kind (R184). -/
def knownKind (k : Byte) : Bool := 1 ≤ k.toNat && k.toNat ≤ 0x18

/-- Whether a kind is served in OFFLINE (section 11.2). -/
def servedOffline (k : Byte) : Bool :=
  k = 0x0E || k = 0x0F || k = 0x10 || k = 0x15 || k = 0x16 || k = 0x17 || k = 0x18

/-- Byte `i` of a payload. -/
def byteAt (p : List Byte) (i : Nat) : Byte := p.getD i 0

/-- The two bytes at offset `i`. -/
def wordAt (p : List Byte) (i : Nat) : Word16 := BitVec.ofNat 16 (valueOf ((p.drop i).take 2))

/-- The four bytes at offset `i`. -/
def longAt (p : List Byte) (i : Nat) : Word32 := BitVec.ofNat 32 (valueOf ((p.drop i).take 4))

/-- `n` formula lines of three bytes each. -/
def submitLines : (n : Nat) → List Byte → List (Byte × Word16)
  | 0, _ => []
  | n + 1, p => (byteAt p 0, wordAt p 1) :: submitLines n (p.drop 3)

/-- The fields of a SUBMIT payload (R208). -/
def submitOf (p : List Byte) : SubmitFields :=
  { orderRef := longAt p 0
    size := byteAt p 4
    count := byteAt p 5
    priority := byteAt p 6
    shakeTime := wordAt p 7
    shakeClass := byteAt p 9
    lineCount := byteAt p 10
    lines := submitLines ((p.length - 11) / 3) (p.drop 11) }

/-- `r` when the length fits. -/
def fitting (fits : Bool) (r : Request) : Option Request := if fits then some r else none

/-- The request a kind byte and a payload stand for; none when the length does not fit the kind (R187, R207). -/
def requestOf (kind : Byte) (p : List Byte) : Option Request :=
  let n := p.length
  match kind.toNat with
  | 0x01 => fitting (11 ≤ n && n = 11 + 3 * (byteAt p 10).toNat) (.submit (submitOf p))
  | 0x02 => fitting (n = 2) (.cancel (wordAt p 0))
  | 0x03 => fitting (n = 3) (.setPrio (wordAt p 0) (byteAt p 2))
  | 0x04 => fitting (n = 2) (.queryJob (wordAt p 0))
  | 0x05 => fitting (n = 0) .queryBays
  | 0x06 => fitting (n = 0) .takeRecord
  | 0x07 => fitting (n = 11)
      (.canLoad { slot := byteAt p 0, code := wordAt p 1, density := wordAt p 3, k := wordAt p 5, level := longAt p 7 })
  | 0x08 => fitting (n = 5) (.canLevel (byteAt p 0) (longAt p 1))
  | 0x09 => fitting (n = 1) (.canQuery (byteAt p 0))
  | 0x0A => fitting (n = 1) (.canClear (byteAt p 0))
  | 0x0B => fitting (n = 1 || n = 2) (.calibrate (byteAt p 0) (if n = 2 then some (byteAt p 1) else none))
  | 0x0C => fitting (n = 0) .calAbort
  | 0x0D => fitting (n = 1) (.lids (byteAt p 0))
  | 0x0E => fitting (n = 0) .events
  | 0x0F => fitting (n = 2) (.eventAck (wordAt p 0))
  | 0x10 => fitting (n = 2) (.eventMask (wordAt p 0))
  | 0x11 => fitting (n = 1) (.mode (byteAt p 0))
  | 0x12 => fitting (n = 1) (.clearFault (byteAt p 0))
  | 0x13 => fitting (n = 0) .resume
  | 0x14 => fitting (n = 0) .peers
  | 0x15 => fitting (n = 2) (.nvRead (byteAt p 0) (byteAt p 1))
  | 0x16 =>
    match PartId.ofBytes (byteAt p 0) (byteAt p 1) with
    | some part => fitting (n = 2 + part.size) (.nvStore (byteAt p 0) (byteAt p 1) (p.drop 2))
    | none => none
  | 0x17 => fitting (n = 0) .reset
  | 0x18 => fitting (n ≤ 16) (.ping p)
  | _ => none

/-- The payload a request is sent with (R207, R208). -/
def requestPayload (r : Request) : List Byte :=
  match r with
  | .submit f =>
    bytesOf 4 f.orderRef.toNat ++ [f.size, f.count, f.priority] ++ bytesOf 2 f.shakeTime.toNat ++
      [f.shakeClass, f.lineCount] ++ (f.lines.map fun l => l.1 :: bytesOf 2 l.2.toNat).flatten
  | .cancel job => bytesOf 2 job.toNat
  | .setPrio job priority => bytesOf 2 job.toNat ++ [priority]
  | .queryJob job => bytesOf 2 job.toNat
  | .canLoad f =>
    [f.slot] ++ bytesOf 2 f.code.toNat ++ bytesOf 2 f.density.toNat ++ bytesOf 2 f.k.toNat ++ bytesOf 4 f.level.toNat
  | .canLevel slot level => slot :: bytesOf 4 level.toNat
  | .canQuery slot => [slot]
  | .canClear slot => [slot]
  | .calibrate slot none => [slot]
  | .calibrate slot (some mask) => [slot, mask]
  | .lids lidType => [lidType]
  | .eventAck set => bytesOf 2 set.toNat
  | .eventMask set => bytesOf 2 set.toNat
  | .mode code => [code]
  | .clearFault code => [code]
  | .nvRead sector part => [sector, part]
  | .nvStore sector part image => sector :: part :: image
  | .ping payload => payload
  | .queryBays => []
  | .takeRecord => []
  | .calAbort => []
  | .events => []
  | .resume => []
  | .peers => []
  | .reset => []

/-- A slot byte of a request: 1 to 16, or none when it is out of range. -/
def slotOf (b : Byte) : Option Slot :=
  if h : 1 ≤ b.toNat ∧ b.toNat ≤ 16 then some ⟨b.toNat - 1, by omega⟩ else none

end Sys2Proof.Machine
end

