-- ==== Sys2Proof/Machine/Jobs.lean ====
section
/-! DEFINITION. The job queue's operations (01_formulas_tin_jobs_and_the_job_queue.md): order, places, identities, the
call of a tin and its return. The requests stand in JobRequests.lean. -/

namespace Sys2Proof.Machine

/-! ## Order and places -/

/-- A job stands before another: lower priority number first, then lower arrival sequence (R8). -/
def Job.before (a b : Job) : Bool := a.priority < b.priority || (a.priority == b.priority && a.arrival < b.arrival)

/-- A job placed at the position its priority and arrival sequence give it (R8). -/
def insertJob (j : Job) : List Job → List Job
  | [] => [j]
  | k :: ks => if j.before k then j :: k :: ks else k :: insertJob j ks

/-- Priority 0, 1 or 2 (R8). -/
def Job.eligible (j : Job) : Bool := j.priority ≤ 2

/-- Occupied places: job records and reserved places (R5). -/
def JobQueue.places (q : JobQueue) : Nat := q.records.length + q.reserved.length

def JobQueue.record? (q : JobQueue) (id : Nat) : Option Job := q.records.find? (·.id == id)

def JobQueue.reserved? (q : JobQueue) (id : Nat) : Option Job := q.reserved.find? (·.id == id)

/-- Position of a job id in the queue order, counted from 1; 0 when it has none (R9, R16). -/
def JobQueue.position (q : JobQueue) (id : Nat) : Nat :=
  match findIdxFrom (fun j : Job => j.id == id) q.records 1 with
  | some (n, _) => n
  | none => 0

/-! ## Identities (R6, R7) -/

/-- A tin of the job stands in this place. -/
def holdsJob (id : Nat) : Option TinRecord → Bool
  | none => false
  | some t => t.jobId == id

/-- A job id present on the station (R6). -/
def idPresent (s : State) (id : Nat) : Bool :=
  s.jobs.records.any (·.id == id) || s.jobs.reserved.any (·.id == id) || holdsJob id s.disp.tin ||
  holdsJob id s.carriage.tin || holdsJob id s.lid.tin || holdsJob id s.shake.tin ||
  s.completion.any (·.jobId == id)

/-- The next candidate: from 65535 to 1 (R6). -/
def nextCandidate (c : Nat) : Nat := if 65535 ≤ c then 1 else c + 1

/-- The first candidate that is neither 0 nor present (R6). -/
def freeId (s : State) : (fuel : Nat) → (candidate : Nat) → Nat
  | 0, c => c
  | n + 1, c => if c = 0 || idPresent s c then freeId s n (nextCandidate c) else c

/-- Jobs in arrival order. -/
def insertByArrival (j : Job) : List Job → List Job
  | [] => [j]
  | k :: ks => if j.arrival < k.arrival then j :: k :: ks else k :: insertByArrival j ks

/-- A job's rank among those present, in arrival order. -/
def arrivalRank (all : List Job) (j : Job) : Nat := (all.filter fun k => k.arrival < j.arrival).length

/-- The renumbering of R7: the jobs and reserved places present take 0, 1, … in their present arrival order. -/
def renumber (q : JobQueue) : JobQueue :=
  let all := q.records ++ q.reserved
  let again := fun j : Job => { j with arrival := arrivalRank all j }
  { q with records := q.records.map again, reserved := q.reserved.map again, nextArrival := all.length }

/-- The arrival counter steps by one, with the renumbering when it would pass 4,294,967,295 (R7). -/
def stepArrival (q : JobQueue) : JobQueue :=
  if 4294967295 ≤ q.nextArrival then renumber q else { q with nextArrival := q.nextArrival + 1 }

/-! ## Handing tins to the dispense bay (R10, R11) -/

/-- A fresh line entry of a called tin (R77). -/
def freshLine (l : FormulaLine) : LineEntry :=
  { slot := l.slot, amount := l.amount, plannedV := 0, raised := false, plan := none, delivered := 0, gain := none,
    topUps := 0, st := .pending, verdict := none, base := none, carried := 0 }

/-- The tin record opened from a job, its tins issued already raised (R10, R77). -/
def openRecord (s : State) (j : Job) : TinRecord :=
  { jobId := j.id, orderRef := j.orderRef, index := j.issued, batch := j.count, size := j.size
    shakeTime := j.shakeTime.getD (s.cfg.sizes[j.size]).shakeTime
    shakeClass := j.shakeClass, tare := none, lid := none, shake := none, verdict := none, notes := [], lost := false
    cancelled := false, committed := false, lines := j.lines.map freshLine }

/-- The first eligible job, if any (R8). -/
def firstEligible (q : JobQueue) : Option Job := q.records.find? Job.eligible

/-- The queue after a tin of `j` has been handed over: tins issued raised by one, and with the last tin the record
becomes a reserved place (R10). -/
def issueTin (j : Job) (q : JobQueue) : JobQueue :=
  let j' := { j with issued := j.issued + 1 }
  if j'.issued = j'.count then
    { q with records := q.records.filter (·.id != j.id), reserved := q.reserved ++ [j'] }
  else { q with records := q.records.map fun k => if k.id == j.id then j' else k }

/-- The conditions under which the dispense bay asks for a tin (R78). The bay held for a lost-tin record is not EMPTY. -/
def mayCall (s : State) : Bool :=
  s.disp.st = .empty && s.mon.mode = .run && !s.mon.safe && !s.inputs.presDispense && !s.stopStands

/-- The dispense bay asks, and the first eligible job, if there is one, hands it a tin: the bay goes to CALLED and
TIN_WANTED is set (R10, R78). -/
def askTin (s : State) : State :=
  if mayCall s then
    match firstEligible s.jobs with
    | none => s
    | some j =>
      setFlag .tinWanted
        ((s.mapJobs (issueTin j)).mapDisp fun d =>
          { d with st := .called, resume := none, step := none, removed := false,
                   tin := some (openRecord s { j with issued := j.issued + 1 }) })
  else s

/-- At commitment the job's reserved place is released (R11). -/
def commitTin (id : Nat) (s : State) : State :=
  s.mapJobs fun q => { q with reserved := q.reserved.filter (·.id != id) }

/-- A tin comes back to its job (R11): tins issued lowered by one; a reserved place becomes a record again. A job that
CANCEL has removed takes nothing back. -/
def returnTin (id : Nat) (q : JobQueue) : JobQueue :=
  match q.reserved? id with
  | some j =>
    { q with reserved := q.reserved.filter (·.id != id), records := insertJob { j with issued := j.issued - 1 } q.records }
  | none => { q with records := q.records.map fun k => if k.id == id then { k with issued := k.issued - 1 } else k }

/-- The bay withdraws its call, or loses a tin that no shot was given (R11, R79, R93): TIN_WANTED is cleared, the tin goes
back to its job unless it is committed (R11, R18; log 51), and the tin record is discarded. -/
def withdrawTin (s : State) : State :=
  match s.disp.tin with
  | none => s
  | some t =>
    let s1 := if t.committed then s else s.mapJobs (returnTin t.jobId)
    clearFlag .tinWanted (s1.mapDisp fun d => { d with tin := none })

/-- The call is withdrawn and the bay returns to EMPTY (R79). -/
def withdrawCall (s : State) : State := (withdrawTin s).mapDisp fun d => { d with st := .empty, resume := none }

/-- A standing call is withdrawn when the mode leaves RUN or SAFE is set while the bay is CALLED (R79, R169, R180). -/
def withdrawStandingCall (s : State) : State :=
  if s.disp.st = .called && (s.mon.mode ≠ .run || s.mon.safe) then withdrawCall s else s

end Sys2Proof.Machine
end

