-- ==== Sys2Proof/Machine/Records.lean ====
section
/-! DEFINITION. Closing a tin record, the completion queue, and what each bay does once its record has joined
(R98, R194, R93, R96, R126, R131). -/

namespace Sys2Proof.Machine

/-! ## The verdict (R98) -/

/-- A line's verdict that holds a tin. -/
def LineEntry.spoils (l : LineEntry) : Bool :=
  l.verdict = some .under || l.verdict = some .over || l.verdict = some .disturbed || l.verdict = some .interrupted

/-- The lid outcome is SEATED. -/
def TinRecord.seated (t : TinRecord) : Bool :=
  match t.lid with
  | some r => r.fault.isNone
  | none => false

/-- The verdict a record is closed with (R98). -/
def verdictOf (t : TinRecord) : Verdict :=
  if t.cancelled then .cancelled
  else if t.lines.any LineEntry.spoils || t.lost || !t.seated then .hold
  else .good

/-- The completion queue has room (R194). -/
def hasRoom (s : State) : Bool := s.completion.length < Config.completionPlaces

/-- A closed record joins at the back, and COMPLETION_READY is set (R98, R194). -/
def joinRecord (t : TinRecord) (s : State) : State :=
  setFlag .completionReady (s.mapCompletion fun q => q ++ [{ t with verdict := some (verdictOf t) }])

/-! ## The bays after their record has joined -/

/-- The shake bay with its clamp open: EMPTY with its sensor off, else AWAIT_REMOVAL (R131, R203). After a record has
joined, a removal noted since takes it to EMPTY too (R134; log 59); the UNCLAMP of a start judges the sensor alone. -/
def afterUnclamp (s : State) : State :=
  s.mapShake fun b =>
    { b with
      clampDrive := .off
      clamp := none
      st := if b.joined && b.removed || !s.inputs.presShake then .empty else .awaitRemoval
      resume := none
      joined := false
      removed := false }

/-- The shake bay drives its clamp open with a new 4 s; a clamp already open is confirmed at once (R131). -/
def enterUnclamp (s : State) : State :=
  if s.inputs.clampClosed then
    s.mapShake fun b => { b with st := .unclamp, resume := none, clampDrive := .opening, clamp := some 0 }
  else afterUnclamp s

/-- The shake bay's record has joined. -/
def shakeJoined (s : State) : State :=
  enterUnclamp (s.mapShake fun b => { b with tin := none, joined := true, removed := false })

/-- The lid bay's lost record has joined: EMPTY (R126). -/
def lidJoined (s : State) : State := s.mapLid fun b => { b with st := .empty, resume := none, tin := none, removed := false }

/-- A dispense bay finishing after a lost tin goes to EMPTY once no fault is latched, no record waits and the sensor is
off (R93); while ESTOP stands it stays in FAULT (R175). -/
def finishLost (s : State) : State :=
  if s.disp.st = .fault && s.disp.lost && s.mon.faultD.isNone && s.disp.tin.isNone && !s.inputs.presDispense &&
      !s.mon.estop then
    s.mapDisp fun b => { b with st := .empty, resume := none, step := none, lost := false, removed := false }
  else s

/-- The dispense bay's record has joined: a cancelled tin's bay goes to EMPTY, at its resumption when it is held, and a
lost tin's bay finishes (R93, R96). -/
def dispJoined (s : State) : State :=
  let s1 := s.mapDisp fun b => { b with tin := none, recWait := false }
  if s.disp.st = .cancelled then s1.mapDisp fun b => { b with st := .empty, resume := none, step := none, removed := false }
  else if s.disp.lost then finishLost s1
  else s1.mapDisp fun b => { b with resume := some .empty }

/-! ## Joining and waiting -/

/-- The shake bay's record joins, if it waits in AWAIT_ROOM and there is room (R131). -/
def drainShake (s : State) : State :=
  match s.shake.tin with
  | some t => if s.shake.st = .awaitRoom && hasRoom s then shakeJoined (joinRecord t s) else s
  | none => s

/-- The lid bay's lost record joins, if it waits in DONE and there is room (R126). -/
def drainLid (s : State) : State :=
  match s.lid.tin with
  | some t => if s.lid.st = .done && t.lost && hasRoom s then lidJoined (joinRecord t s) else s
  | none => s

/-- The dispense bay's closed record joins, if it waits and there is room, in a held bay too (R93, R96; log 39). -/
def drainDisp (s : State) : State :=
  match s.disp.tin with
  | some t =>
    if s.disp.recWait && hasRoom s then dispJoined (joinRecord t s) else s
  | none => s

/-- Records that wait join while there is room: the shake bay's first, then the lid bay's, then the dispense bay's
(R194). -/
def drain (s : State) : State := drainDisp (drainLid (drainShake s))

/-- A bay that has just closed its record, or takes up its wait again at a resumption: the record joins at once, or its wait
begins with COMPLETION_FULL (R194; log 58). -/
def joinOrWait (join : State → State) (s : State) : State :=
  if hasRoom s then join s else setFlag .completionFull s

/-- The shake bay enters AWAIT_ROOM (R131). -/
def enterAwaitRoom (s : State) : State :=
  joinOrWait drainShake (s.mapShake fun b => { b with st := .awaitRoom, resume := none })

/-- The lid bay holds a lost record in DONE (R126). -/
def enterLidLost (s : State) : State :=
  joinOrWait drainLid (s.mapLid fun b => { b with st := .done, resume := none })

/-- The dispense bay's record is closed and joins or waits (R93, R96). -/
def closeDispRecord (s : State) : State :=
  joinOrWait drainDisp (s.mapDisp fun b => { b with recWait := true })

end Sys2Proof.Machine
end

