-- ==== Sys2Proof/Machine/Scale.lean ====
section
/-! DEFINITION. The scale monitor's operations (04_the_scale.md): the window, blanking and the dispense bay's request. The
SCALE_SAMPLE command itself stands in ScaleCommands.lean, after the dispense bay it reports to. -/

namespace Sys2Proof.Machine

/-- The dispense bay opens a request for a fresh reading: the window is emptied, the settle timer starts from 0 (R67),
the quiet request is raised (R90) and the fresh-reading mark is cleared (R84). -/
def openRequest (s : State) : State :=
  (s.mapScale fun c => { c with window := [], request := some 0 }).mapDisp fun d => { d with quiet := true, fresh := false }

/-- The dispense bay closes an open request without an answer (R69) and lowers its quiet request (R90). -/
def closeRequest (s : State) : State :=
  (s.mapScale fun c => { c with request := none }).mapDisp fun d => { d with quiet := false }

/-- A blanking trigger: the window is emptied and the blank timer set to the blank time, whatever it held (R65). -/
def blankTrigger (s : State) : State :=
  s.mapScale fun c => { c with window := [], blank := some s.cfg.general.blankTime }

/-- The blank timer has run out: blanking ends (R66). A timer that a trigger taken first has started again has not, and the
scale stays blanked until the blank time has passed since that trigger (R65). -/
def blankExpires (s : State) : State :=
  if s.scale.blank = some 0 then s.mapScale fun c => { c with blank := none } else s

/-- A net sample offered to the window (R63): appended when it lies within the band of the first sample, else the first
of a new window. -/
def offerToWindow (band : Nat) (net : Int) : List Int → List Int
  | [] => [net]
  | first :: rest => if (net - first).natAbs ≤ band then first :: rest ++ [net] else [net]

/-- The offset after a reading near zero is absorbed, within its limit either way (R71). -/
def absorbed (zero reading : Int) : Int := max (-Config.zeroLimit) (min Config.zeroLimit (zero + reading))

/-- Zero tracking of a settled reading (R71; log 54): absorbed when the bay is EMPTY, its sensor off and the reading near zero.
The latest settled reading is recorded as what could not be absorbed. -/
def trackZero (reading : Int) (s : State) : State :=
  if s.disp.st = .empty && !s.inputs.presDispense && (reading.natAbs : Int) ≤ Config.zeroBand then
    s.mapScale fun c =>
      { c with zero := absorbed c.zero reading, latest := some (c.zero + reading - absorbed c.zero reading) }
  else s

end Sys2Proof.Machine
end

