-- ==== Sys2Proof/Machine/Lid.lean ====
section
/-! DEFINITION. The lid bay's operations (07_carriage_lidding_and_shaking.md, section 7.2): the lid test, the stroke, the
retraction. Its faults, stops and resumptions stand in Faults.lean. -/

namespace Sys2Proof.Machine

/-- The lid test (R121). -/
def lidTestPasses (s : State) (t : TinRecord) : Bool :=
  s.lid.declared = some (s.cfg.sizes[t.size]).lidType && s.inputs.magazine

/-- The bay asks for the press draw in AWAIT_AIR (R122). -/
def enterAwaitAir (s : State) : State :=
  askClaim .air s.cfg.general.pressDraw (s.mapLid fun b => { b with st := .awaitAir, resume := none })

/-- The bay waits for lids, with LIDS_WANTED set (R121). -/
def enterAwaitLids (s : State) : State :=
  setFlag .lidsWanted (s.mapLid fun b => { b with st := .awaitLids, resume := none, deferral := none })

/-- The lid test of a tin handed to the bay, or of a resumption (R121, R125). -/
def lidTest (s : State) : State :=
  match s.lid.tin with
  | none => s
  | some t => if lidTestPasses s t then enterAwaitAir s else enterAwaitLids s

/-- The test made again when the declaration or the magazine sensor has changed (R120, R121). -/
def lidRecheck (s : State) : State :=
  match s.lid.tin with
  | none => s
  | some t =>
    match s.lid.st with
    | .awaitLids => if lidTestPasses s t then enterAwaitAir (clearFlag .lidsWanted s) else s
    | .awaitAir => if lidTestPasses s t then s else enterAwaitLids (giveUp .air s)
    | .awaitQuiet => if lidTestPasses s t then s else enterAwaitLids (giveUp .air s)
    | _ => s

/-- The press start is due (R122): AWAIT_QUIET, AIR held, the guard closed. -/
def pressDue (s : State) : Bool := s.lid.st = .awaitQuiet && s.air.st = .held && !s.inputs.guardOpen

/-- The press start is taken (R123). The press leaves its home sensor (log 30). -/
def startPress (s : State) : State :=
  blankTrigger ((s.mapInputs fun i => { i with pressHome := false }).mapLid fun b =>
    { b with st := .extend, valve := true, seat := some 0, seatTime := 0, home := none, homeCheck := false, deferral := none })

/-- The valve is released and the home timer started: the press retracts (R123, R124). -/
def retractPress (b : LidBay) : LidBay := { b with valve := false, seat := none, dwell := none, home := some 0 }

/-- The seat time measured so far, ms. -/
def LidBay.seatSoFar (b : LidBay) : Nat := b.seat.getD b.seatTime

/-- The lid result FAILED with a fault kind and the seat time measured so far (R124). -/
def recordFailed (k : FaultKind) (s : State) : State :=
  s.mapTin .lid fun t => { t with lid := some { fault := some k, seatTime := s.lid.seatSoFar } }

/-- The lid is seated: the seat time is kept and the bay dwells (R123). -/
def seatLid (time : Nat) (s : State) : State :=
  s.mapLid fun b => { b with st := .dwell, seat := none, seatTime := time, dwell := some 0 }

/-- The dwell ends and the press goes home (R123). -/
def endDwell (s : State) : State := s.mapLid fun b => { retractPress b with st := .retract }

/-- The stroke ends at press home: AIR is released, the result recorded SEATED and the carriage requested; a lost tin's
record goes to its wait instead (R123, R126). -/
def endStroke (s : State) : State :=
  let s1 := giveUp .air (s.mapLid fun b => { b with home := none })
  match s1.lid.tin with
  | none => s1
  | some t =>
    if t.lost then enterLidLost s1
    else
      (s1.mapTin .lid fun t => { t with lid := some { fault := none, seatTime := s.lid.seatTime } }).mapLid fun b =>
        { b with st := .done }

/-- The carriage hands the bay a tin (R116, R121). A bay held in STOPPED or FAULT acts on it when it resumes. -/
def lidArrive (t : TinRecord) (s : State) : State :=
  let s1 := s.mapLid fun b => { b with tin := some t }
  if s.lid.st = .inbound then lidTest s1 else s1

end Sys2Proof.Machine
end

