-- ==== Sys2Proof/Machine/Shake.lean ====
section
/-! DEFINITION. The shake bay's operations (07_carriage_lidding_and_shaking.md, section 7.3). Its faults, stops and
resumptions stand in Faults.lean. -/

namespace Sys2Proof.Machine

/-- The shake result as it stands, opened when it is first needed (log 18). -/
def TinRecord.shaken (t : TinRecord) : ShakeResult := t.shake.getD { seconds := 0, restarts := 0 }

/-- The clamp is confirmed closed: the bay asks for the spin-up draw (R128). -/
def clampConfirmed (s : State) : State :=
  askClaim .power s.cfg.general.spinDraw (s.mapShake fun b =>
    { b with st := .awaitPower, clampDrive := .off, clamp := none })

/-- The clamp is driven closed with a new 4 s; one already closed is confirmed at once (R128, R132). -/
def enterClamp (s : State) : State :=
  let s1 := s.mapShake fun b => { b with st := .clamp, resume := none, clampDrive := .closing, clamp := some 0 }
  if s.inputs.clampClosed then clampConfirmed s1 else s1

/-- The carriage hands the bay a tin (R116, R128). A bay held in STOPPED or FAULT acts on it when it resumes. -/
def shakeArrive (t : TinRecord) (s : State) : State :=
  let s1 := s.mapShake fun b => { b with tin := some t }
  if s.shake.st = .inbound then enterClamp s1 else s1

/-- The spin-up start is due (R128): AWAIT_QUIET with POWER held. -/
def spinDue (s : State) : Bool := s.shake.st = .awaitQuiet && s.power.st = .held

/-- The spin-up start is taken (R129). -/
def startSpin (s : State) : State :=
  blankTrigger (s.mapShake fun b => { b with st := .spinUp, drive := .driven, spin := some 0, deferral := none })

/-- The target period of the tin in the bay (R129). -/
def shakeTarget (s : State) : Nat :=
  match s.shake.tin with
  | some t => targetPeriod s.cfg.general t.shakeClass
  | none => targetPeriod s.cfg.general .normal

/-- The shaker has reached speed: trigger, the claim lowered to the run draw, the run timer started (R129). -/
def reachSpeed (s : State) : State :=
  lowerClaim .power s.cfg.general.runDraw (blankTrigger (s.mapShake fun b =>
    { b with st := .run, spin := none, run := some 0, slow := 0 }))

/-- The shaker is braked, with the trigger for the spin-down start (R130, R132). -/
def brake (s : State) : State :=
  blankTrigger (s.mapShake fun b => { b with drive := .braked, spin := none, run := none })

/-- The shaker is at rest: drive off, trigger, POWER released, mark cleared (R130, R132, R133). -/
def comeToRest (s : State) : State :=
  giveUp .power (blankTrigger (s.mapShake fun b => { b with drive := .off, turning := false }))

/-- The shake has ended: the result is recorded, a lost tin's left as it stands, and the record goes to join (R130,
R134). -/
def endShake (s : State) : State :=
  enterAwaitRoom ((comeToRest s).mapTin .shake fun t => if t.lost then t else { t with shake := some t.shaken })

/-- A full new shake: the restart count rises and the clamp is driven closed (R132). -/
def restartShake (s : State) : State :=
  enterClamp (s.mapTin .shake fun t =>
    { t with shake := some { t.shaken with restarts := min 255 (t.shaken.restarts + 1) } })

/-- An ORPHAN shake bay whose tin is gone: a closed clamp is opened first (R203). -/
def shakeOrphanGone (s : State) : State :=
  if s.inputs.clampClosed then enterUnclamp s
  else s.mapShake fun b => { b with st := .empty, resume := none, removed := false }

end Sys2Proof.Machine
end

