-- ==== Sys2Proof/Machine/Carriage.lean ====
section
/-! DEFINITION. The carriage (07_carriage_lidding_and_shaking.md, section 7.1): which move is due, its start, its arrival,
the placement of a jammed carriage's tin, the home run; and the deferral of starts (R114). -/

namespace Sys2Proof.Machine

/-! ## Requests and due starts (R113, R118) -/

/-- The lid bay's request is eligible: DONE with a seated lid, the shake bay EMPTY (R113, R123). -/
def lidMoveEligible (s : State) : Bool :=
  s.lid.st = .done && s.shake.st = .empty &&
  match s.lid.tin with
  | some t => !t.lost
  | none => false

/-- The dispense bay's request is eligible: DONE, the lid bay EMPTY (R97, R113). -/
def dispMoveEligible (s : State) : Bool := s.disp.st = .done && s.lid.st = .empty && s.disp.tin.isSome

/-- A move start is due (R113). -/
def moveDue (s : State) : Bool :=
  s.carriage.st = .idle && (lidMoveEligible s || dispMoveEligible s) && !s.stopStands

/-- A jammed carriage's home run is due (R118). -/
def homeRunDue (s : State) : Bool := s.carriage.st = .jammed && s.carriage.homeDue && !s.stopStands

/-- A start of the carriage is due (R114). -/
def carriageDue (s : State) : Bool := moveDue s || homeRunDue s

/-! ## Starts (R115, R118) -/

/-- The carriage sets off: drive on, move timer from 0, the blanking trigger. -/
def setOff (m : Move) (t : Option TinRecord) (charge : Option BayId) (s : State) : State :=
  blankTrigger (s.mapCarriage fun c =>
    { c with st := .moving, move := some m, tin := t, deferral := none, timer := some 0, charge := charge, drive := true,
             cause := none, homeDue := false })

/-- A tin none of whose lines got a shot is committed when the carriage takes it (R11, R97, R115). -/
def commitTaken (t : TinRecord) (s : State) : State := if t.shotGiven then s else commitTin t.jobId s

/-- The move start is taken: the move from the lid bay is chosen before the other (R113, R115). -/
def startMove (s : State) : State :=
  if lidMoveEligible s then
    setOff .lidToShake s.lid.tin (some .lid)
      ((s.mapLid fun b => { b with st := .outbound, tin := none }).mapShake fun b => { b with st := .inbound })
  else
    match s.disp.tin with
    | none => s
    | some t =>
      setOff .dispenseToLid (some t.commit) (some .dispense)
        (((commitTaken t s).mapDisp fun b => { b with st := .outbound, tin := none, step := none }).mapLid fun b =>
          { b with st := .inbound })

/-- The home run is started: no tin, the jam charge kept (R118). -/
def startHomeRun (s : State) : State := setOff .homeRun none s.carriage.charge s

/-- A due start of the carriage is taken. -/
def startCarriage (s : State) : State :=
  if moveDue s then startMove s else if homeRunDue s then startHomeRun s else s

/-! ## Deferral (R114) -/

/-- A due start may be taken at once: the quiet request is lowered, or the quiet limit is 0 (R114). -/
def quietAllows (s : State) : Bool := !s.disp.quiet || s.cfg.general.quietLimit = 0

/-- The start an owner has deferred is taken: at the quiet limit, or when the quiet request is lowered (R114). -/
def takeDeferred (o : StartOwner) (s : State) : State :=
  match o with
  | .carriage => if s.carriage.deferral.isSome then startCarriage s else s
  | .lid => if s.lid.deferral.isSome && pressDue s then startPress s else s
  | .shake => if s.shake.deferral.isSome && spinDue s then startSpin s else s

/-- Every deferred start is taken at a lowering of the quiet request that the same command may follow with a new request
(R114; log 68). -/
def takeAllDeferred (s : State) : State := takeDeferred .shake (takeDeferred .lid (takeDeferred .carriage s))

/-- A deferral timer runs from 0 while its start is due and the quiet request stands, and is discarded otherwise
(R114). -/
def deferralOf (due quiet : Bool) (t : Option Nat) : Option Nat := if due && quiet then some (t.getD 0) else none

/-- The three deferral timers after a command, by the quiet request as the command leaves it (R114). -/
def keepDeferrals (s : State) : State :=
  let quiet := !quietAllows s
  ((s.mapCarriage fun c => { c with deferral := deferralOf (carriageDue s) quiet c.deferral }).mapLid fun b =>
    { b with deferral := deferralOf (pressDue s) quiet b.deferral }).mapShake fun b =>
      { b with deferral := deferralOf (spinDue s) quiet b.deferral }

/-! ## Arrival, jam, placement (R116 to R118) -/

/-- A bay that a move concerns stands OUTBOUND or INBOUND and goes to state `p`; held meanwhile in FAULT or STOPPED, it
will resume into `p`. -/
def dispPoint (p : DispState) (s : State) : State :=
  s.mapDisp fun b =>
    if b.st = .fault || b.st = .stopped then { b with resume := some p }
    else if b.st = .outbound then { b with st := p }
    else b

def lidPoint (p : LidState) (s : State) : State :=
  s.mapLid fun b =>
    if b.st = .fault || b.st = .stopped then { b with resume := some p }
    else if b.st = .inbound || b.st = .outbound then { b with st := p }
    else b

def shakePoint (p : ShakeState) (s : State) : State :=
  s.mapShake fun b =>
    if b.st = .fault || b.st = .stopped then { b with resume := some p }
    else if b.st = .inbound then { b with st := p }
    else b

/-- The carriage stands still: drive off, timer stopped. -/
def standStill (st : CarriageState) (s : State) : State :=
  s.mapCarriage fun c => { c with st := st, drive := false, timer := none, deferral := none }

/-- The carried tin is handed to the target bay, and the source bay goes from OUTBOUND to EMPTY (R116, R118). -/
def handOver (m : Move) (t : TinRecord) (s : State) : State :=
  let s1 := s.mapCarriage fun c => { c with tin := none }
  match m with
  | .dispenseToLid => lidArrive t (dispPoint .empty s1)
  | .lidToShake => shakeArrive t (lidPoint .empty s1)
  | .homeRun => s1

/-- The move has arrived (R116). -/
def arrive (m : Move) (s : State) : State :=
  let s1 := blankTrigger ((standStill .idle s).mapCarriage fun c => { c with move := none, charge := none })
  match s.carriage.tin with
  | some t => handOver m t s1
  | none => s1

/-- The tin goes back to the source bay, which is DONE again; the target bay is EMPTY (R118). -/
def handBack (m : Move) (t : TinRecord) (s : State) : State :=
  let s1 := s.mapCarriage fun c => { c with tin := none }
  match m with
  | .dispenseToLid => lidPoint .empty ((dispPoint .done s1).mapDisp fun b => { b with tin := some t })
  | .lidToShake => shakePoint .empty ((lidPoint .done s1).mapLid fun b => { b with tin := some t })
  | .homeRun => s1

/-- The presence sensor of a move's target bay. -/
def targetSensor (s : State) : Move → Bool
  | .dispenseToLid => s.inputs.presLid
  | .lidToShake => s.inputs.presShake
  | .homeRun => false

/-- A jammed carriage's tin is placed from the presence sensors (R118). -/
def placeTin (s : State) : State :=
  match s.carriage.move, s.carriage.tin with
  | some m, some t => if targetSensor s m then handOver m t s else handBack m t s
  | _, _ => s

/-- A jammed carriage whose cause is cleared is resolved while ESTOP does not stand: the tin is placed and the home run
becomes due, which `move` shows from here on (R118; log 55). -/
def resolveCarriage (s : State) : State :=
  if s.carriage.st = .jammed && s.carriage.cause.isNone && !s.carriage.homeDue && !s.mon.estop then
    (placeTin s).mapCarriage fun c => { c with homeDue := true, move := some .homeRun }
  else s

/-- The home sensor confirms the home run (R118). -/
def arriveHome (s : State) : State :=
  blankTrigger ((standStill .idle s).mapCarriage fun c => { c with move := none, charge := none })

end Sys2Proof.Machine
end

