-- ==== Sys2Proof/Machine/Canisters.lean ====
section
/-! DEFINITION. The canister table's level accounting and miss count, and the stir manager's operations
(02_colorant_canisters_and_stirring.md). -/

namespace Sys2Proof.Machine

/-! ## Level accounting (R24 to R26) -/

/-- Reserve plus low margin (R26). -/
def lowMark (s : State) (i : Slot) : Nat := (s.canStatic i).reserve + s.cfg.general.lowMargin

/-- The canister is low (R26). -/
def isLow (s : State) (i : Slot) : Bool := (s.can i).level < lowMark s i

/-- The level is set by CAN_LOAD or CAN_LEVEL, with the test of R26. -/
def setLevel (i : Slot) (level : Nat) (s : State) : State :=
  let s1 := s.mapCan i fun c => { c with level := level }
  if isLow s1 i then setFlag .canisterLow s1 else s1

/-- A debit of `v` leaves the level at or above the reserve (R24). -/
def canDebit (s : State) (i : Slot) (v : Nat) : Bool := (s.canStatic i).reserve + v ≤ (s.can i).level

/-- A debit lowers the level, saturating at 0; CANISTER_LOW is set when it takes a canister that was not low below its
low mark (R24, R26). -/
def debit (i : Slot) (v : Nat) (s : State) : State :=
  let s1 := s.mapCan i fun c => { c with level := c.level - v }
  if !isLow s i && isLow s1 i then setFlag .canisterLow s1 else s1

/-- A credit raises the level, saturating (R25). -/
def credit (i : Slot) (v : Nat) (s : State) : State :=
  s.mapCan i fun c => { c with level := min Config.levelLimit (c.level + v) }

/-! ## Miss count (R27) -/

/-- What a weighed line's end tells the miss count. -/
inductive Outcome27 where
  | within | corrected | neither
  deriving DecidableEq, Repr

/-- The report of a weighed line's outcome (R27, R89). -/
def countMiss (i : Slot) (o : Outcome27) (s : State) : State :=
  match o with
  | .neither => s
  | .within => s.mapCan i fun c => { c with miss := 0 }
  | .corrected =>
    let s1 := s.mapCan i fun c => { c with miss := min 3 (c.miss + 1) }
    if (s.can i).miss = 2 then setFlag .recalAdvised s1 else s1

/-! ## Stir requests (R33, R34) -/

def slots : List Slot := List.finRange 16

/-- A granted stir runs on the canister (R21). -/
def State.stirring (s : State) (i : Slot) : Bool := (s.can i).activity = .stirring

/-- A pre-dispense request for the canister is in the list. -/
def State.preRequested (s : State) (i : Slot) : Bool := s.stir.pre.contains i

/-- The settle limit is non-zero and the stir age above it (R34). -/
def hasSettled (s : State) (i : Slot) : Bool := (s.canStatic i).settleLimit ≠ 0 && (s.canStatic i).settleLimit < (s.can i).age

/-- A pre-dispense request is made (R34's table). -/
def makePre (i : Slot) (s : State) : State :=
  if (s.can i).state = .faulted || (s.can i).state = .absent || s.stirring i || s.preRequested i then s
  else s.mapStir fun m => { m with pre := m.pre ++ [i] }

/-- The dispense bay's pre-dispense requests are dropped (R34). -/
def dropPre (s : State) : State := s.mapStir fun m => { m with pre := [] }

/-- The canister has a periodic request (R33). -/
def periodic (s : State) (i : Slot) : Bool :=
  (s.canStatic i).stirInterval ≠ 0 && (s.canStatic i).stirInterval ≤ (s.can i).age &&
  ((s.can i).state = .uncalibrated || (s.can i).state = .ready || (s.can i).state = .calibrating) &&
  !s.stirring i && !s.preRequested i

/-- How overdue a periodic request is (R33). -/
def overdue (s : State) (i : Slot) : Nat := (s.can i).age - (s.canStatic i).stirInterval

/-! ## The stirrer arbiter (R35 to R39) -/

/-- A request for the canister may be granted now (R35). -/
def stirEligible (s : State) (i : Slot) : Bool :=
  (s.can i).activity = .idle && !s.inputs.doorOpen && !s.mon.estop

/-- The most overdue of some canisters, the lower slot first among equals (R35). -/
def mostOverdue (s : State) : List Slot → Option Slot
  | [] => none
  | i :: is =>
    match mostOverdue s is with
    | none => some i
    | some j => if overdue s i < overdue s j then some j else some i

/-- The next grant: pre-dispense requests in the order made, then periodic ones (R35). -/
def nextGrant (s : State) : Option Slot :=
  match s.stir.pre.find? (stirEligible s) with
  | some i => some i
  | none => mostOverdue s (slots.filter fun i => periodic s i && stirEligible s i)

/-- A stirrer slot is granted to a canister (R35). -/
def grantStir (i : Slot) (s : State) : State :=
  (s.mapStir fun m =>
    { m with
      pre := m.pre.filter (· ≠ i)
      runs := m.runs ++
        [{ slot := i, left := s.cfg.general.stirRun * 1000, check := some Config.stirCheckMs, slow := 0, expired := false }] }).mapCan
    i fun c => { c with activity := .stirring }

/-- Up to `n` free slots are granted one after another. -/
def grantUpTo : (n : Nat) → State → State
  | 0, s => s
  | n + 1, s =>
    if s.stir.runs.length < Config.stirSlots then
      match nextGrant s with
      | some i => grantUpTo n (grantStir i s)
      | none => s
    else s

/-- Every free slot is granted while an eligible request exists (R35). -/
def grantStirs (s : State) : State := grantUpTo Config.stirSlots s

/-- The granted stir of a canister. -/
def State.stirRun? (s : State) (i : Slot) : Option StirRun := s.stir.runs.find? (·.slot = i)

/-- Update of a canister's granted stir. -/
def mapRun (i : Slot) (f : StirRun → StirRun) (s : State) : State :=
  s.mapStir fun m => { m with runs := m.runs.map fun r => if r.slot = i then f r else r }

/-- The slot granted to a canister is freed and its stirrer stops; the age is kept. -/
def freeStir (i : Slot) (s : State) : State :=
  (s.mapStir fun m => { m with runs := m.runs.filter (·.slot ≠ i) }).mapCan i fun c =>
    if c.activity = .stirring then { c with activity := .idle } else c

/-- A stir completes: slot freed, age 0 (R37). -/
def completeStir (i : Slot) (s : State) : State := (freeStir i s).mapCan i fun c => { c with age := 0 }

/-- The emergency stop frees every slot without completing its stir (R39). -/
def freeAllStirs (s : State) : State :=
  (s.mapStir fun m => { m with runs := [] }).mapCans fun v =>
    v.map fun c => if c.activity = .stirring then { c with activity := .idle } else c

/-- The canister becomes FAULTED with its first reason kept, CANISTER_FAULT is set, its stir is stopped and its request
removed (R28). -/
def markFaulted (i : Slot) (why : CanFault) (s : State) : State :=
  setFlag .canisterFault
    ((freeStir i (s.mapStir fun m => { m with pre := m.pre.filter (· ≠ i) })).mapCan i fun c =>
      match c.state with
      | .uncalibrated => { c with state := .faulted, reason := some why }
      | .ready => { c with state := .faulted, reason := some why }
      | .calibrating => { c with state := .faulted, reason := some why }
      | .absent => c
      | .faulted => c)

end Sys2Proof.Machine
end

