-- ==== Sys2Proof/Machine/Pump.lean ====
section
/-! DEFINITION. The pump drive (03_shot_arithmetic_and_the_pump_drive.md, section 3.4): the segments of an operation, the
steps, the rotation check, the pause and the interruption. What the dispense bay makes of an operation's end stands in
Dispense.lean and Calibration.lean. -/

namespace Sys2Proof.Machine

/-- Update of the operation in flight. -/
def mapOp (f : PumpOp → PumpOp) (s : State) : State := s.mapPump fun p => { p with op := p.op.map f }

/-- The canister's activity while its pump is in use (R21). -/
def setActivity (i : Slot) (a : Activity) (s : State) : State := s.mapCan i fun c => { c with activity := a }

/-- A segment that begins with its steps. -/
def moveSegment (g : Segment) (steps : Nat) (o : PumpOp) : PumpOp :=
  { o with segment := g, stage := .moving, toRun := steps, run := 0, pulses := 0, turn := 0, frac := 0 }

/-- A segment that begins with the valve's turn to the canister (R51, R54). -/
def turnSegment (g : Segment) (steps : Nat) (o : PumpOp) : PumpOp :=
  { o with segment := g, stage := .turnOut, toRun := steps, run := 0, pulses := 0, turn := 0, frac := 0 }

/-- The next forward segment, or the refill it needs first (R53, R54). -/
def forwardOrRefill (o : PumpOp) (s : State) : State :=
  let p := (s.can o.slot).piston
  let room := (s.canStatic o.slot).travel - p
  let left := o.total - o.counted
  if room = 0 && 0 < left then setActivity o.slot .refilling (mapOp (turnSegment .refill p) s)
  else mapOp (moveSegment .forward (min left room)) s

/-- The first segment of an operation: home, restore, or the first forward or refill (R50 to R53). A restore chosen while the
cabinet door is open has begun (log 65), and so has a home or a refill, whose valve turns with the canister REFILLING while
the pause holds its steps: the model's choice (log 79). -/
def firstSegment (o : PumpOp) (s : State) : State :=
  if !s.pump.homed[o.slot] then
    setActivity o.slot .refilling (mapOp (turnSegment .home (s.canStatic o.slot).travel) s)
  else if 0 < (s.can o.slot).snuff then
    (mapOp (moveSegment .restore (s.can o.slot).snuff) s).mapCan o.slot fun c => { c with snuff := 0 }
  else forwardOrRefill o s

/-- An operation is handed to the idle drive (R50). It begins paused while the cabinet door is open; what its first segment
may do in that pause is the model's choice (logs 65 and 79). -/
def beginOp (i : Slot) (kind : OpKind) (steps k : Nat) (s : State) : State :=
  let o : PumpOp :=
    { slot := i, kind := kind, total := steps, k := k, counted := 0, segment := .forward, stage := .moving, toRun := 0,
      run := 0, pulses := 0, turn := 0, frac := 0, paused := s.inputs.doorOpen }
  firstSegment o (setActivity i .pumping (s.mapPump fun p => { p with op := some o }))

/-- `n` steps of the segment are issued: the piston position and the counted steps follow (R52 to R55). During a home
segment the position is kept until its end (log 14). -/
def issueSteps (n : Nat) (o : PumpOp) (s : State) : State :=
  let s1 := mapOp (fun o => { o with run := o.run + n }) s
  match o.segment with
  | .home => s1
  | .restore => s1.mapCan o.slot fun c => { c with piston := c.piston + n }
  | .forward =>
    (mapOp (fun o => { o with counted := o.counted + n }) s1).mapCan o.slot fun c => { c with piston := c.piston + n }
  | .refill => s1.mapCan o.slot fun c => { c with piston := c.piston - n }
  | .snuffBack => s1.mapCan o.slot fun c => { c with piston := c.piston - n }

/-- The rotation check of an ended segment fails: pulses differ by more than 2 from its steps / 32 truncated (R56). -/
def stalls (o : PumpOp) : Bool :=
  o.segment ≠ .home && (o.toRun / Config.stepsPerPulse + 2 < o.pulses || o.pulses + 2 < o.toRun / Config.stepsPerPulse)

/-- The operation is over and the drive idle; the activity returns to IDLE (R58, R60). -/
def endOp (o : PumpOp) (s : State) : State := setActivity o.slot .idle (s.mapPump fun p => { p with op := none })

/-- After the last counted step: the snuff-back, or the operation's end when none is made (R55, R60). -/
def snuffOrEnd (o : PumpOp) (s : State) : State :=
  let b := (s.canStatic o.slot).snuffBack
  if b = 0 || (s.can o.slot).piston < b then endOp o s else mapOp (moveSegment .snuffBack b) s

/-- What follows a segment whose movement has ended and passed its check. The drive is idle afterwards exactly when the
operation is completed. -/
def afterMove (o : PumpOp) (s : State) : State :=
  match o.segment with
  | .home => mapOp (fun o => { o with stage := .turnBack, turn := 0 }) s
  | .refill => mapOp (fun o => { o with stage := .turnBack, turn := 0 }) s
  | .restore => forwardOrRefill o s
  | .forward => if o.counted < o.total then forwardOrRefill o s else snuffOrEnd o s
  | .snuffBack => endOp o (s.mapCan o.slot fun c => { c with snuff := (s.canStatic o.slot).snuffBack })

/-- The valve's turn back to the nozzle ends a home or refill segment (R51, R54). -/
def afterTurnBack (o : PumpOp) (s : State) : State :=
  let s1 := setActivity o.slot .pumping s
  if o.segment = .home then
    forwardOrRefill o ((s1.mapPump fun p => { p with homed := p.homed.set o.slot true }).mapCan o.slot fun c =>
      { c with piston := 0, snuff := 0 })
  else forwardOrRefill o s1

/-- A valve turn ends: the segment's movement begins, or the segment ends (R51, R54). -/
def turnDone (s : State) : State :=
  match s.pump.op with
  | none => s
  | some o =>
    match o.stage with
    | .turnOut => mapOp (fun o => { o with stage := .moving, turn := 0 }) s
    | .turnBack => afterTurnBack o s
    | .moving => s

/-- A rotation pulse from a canister's sensor is counted while a segment of it moves, a pause included (R56). -/
def countPulse (i : Slot) (s : State) : State :=
  match s.pump.op with
  | none => s
  | some o =>
    if o.slot = i && o.stage = .moving && (0 < o.run || !o.paused) then mapOp (fun o => { o with pulses := o.pulses + 1 }) s
    else s

/-- The drive pauses or resumes with the cabinet door (R57). -/
def setPaused (b : Bool) (s : State) : State := mapOp (fun o => { o with paused := b }) s

/-- The volume of the counted steps not run (R59). -/
def opCredit (s : State) : Nat :=
  match s.pump.op with
  | none => 0
  | some o => creditVolume o.total o.counted o.k

/-- The operation in flight stops at once, its credit is made and the drive is idle (R58, R59). -/
def interruptOp (s : State) : State :=
  match s.pump.op with
  | none => s
  | some o => credit o.slot (creditVolume o.total o.counted o.k) (endOp o s)

end Sys2Proof.Machine
end

