-- ==== Sys2Proof/Machine/Calibration.lean ====
section
/-! DEFINITION. Pump calibration (06_pump_calibration.md): the cup, prime tries, rate passes and the outcome. What ends a
calibration early from outside (CAL_ABORT, faults, stops) calls `abortCal`. -/

namespace Sys2Proof.Machine

/-- Update of the calibration record. -/
def mapCal (f : CalRecord → CalRecord) (s : State) : State := s.mapDisp fun d => { d with cal := d.cal.map f }

/-- A calibration that has not reached its outcome. -/
def calRunning (s : State) : Bool :=
  match s.disp.cal with
  | some c => c.stage ≠ .over
  | none => false

/-! ## The outcome (R107, R108) -/

/-- In CAL_END the bay goes to EMPTY once the cup is lifted, by the sensor as it stands (R108, R110; log 52). -/
def calEnded (s : State) : State :=
  if s.disp.st = .calEnd && !s.inputs.presDispense then
    s.mapDisp fun d => { d with st := .empty, resume := none, cal := none, removed := false }
  else s

/-- What an outcome makes of the canister (R107's table). A canister that a fault has made FAULTED stays so. -/
def settleCanister (newK : Option Nat) (c : Canister) : Canister :=
  match c.state with
  | .calibrating =>
    match newK with
    | some k => { c with state := .ready, k := k, miss := 0 }
    | none => { c with state := if 0 < c.k then .ready else .uncalibrated }
  | .absent => c
  | .uncalibrated => c
  | .ready => c
  | .faulted => c

/-- A calibration reaches its outcome (R107). The new K is present for PASS only. The before-reading stays in the record (log
66), and a pass that was begun counts as run (log 67). -/
def calOutcome (o : CalOutcome) (newK : Option Nat) (s : State) : State :=
  match s.disp.cal with
  | none => s
  | some c =>
    let held := s.disp.st = .fault || s.disp.st = .stopped
    let s1 := (dropPre (closeRequest s)).mapDisp fun d =>
      { d with
        cal := some { c with stage := .over, test := none }
        last := some { slot := c.slot, outcome := o, passes := c.pass, newK := newK, ks := c.results.map (·.ki) }
        step := none
        st := if held then d.st else .calEnd
        resume := if held then some .calEnd else none }
    calEnded (setFlag .calDone (s1.mapCan c.slot (settleCanister newK)))

/-- The calibration, if one runs, ends with outcome ABORTED (R109 to R111). -/
def abortCal (s : State) : State := if calRunning s then calOutcome .aborted none s else s

/-! ## A calibration shot (R103) -/

/-- The debit and the start of the shot, or the wait for a stir granted meanwhile (R103, third to fifth step). -/
def calDebit (before : Int) (c : CalRecord) (s : State) : State :=
  if s.stirring c.slot then mapCal (fun c => { c with stage := .stirWait }) s
  else
    let s1 := debit c.slot (nominalVolume c.steps c.kp) s
    let s2 := (mapCal (fun c => { c with before := some before, stage := .shot }) s1).mapDisp fun d => { d with fresh := false }
    beginOp c.slot (if s.disp.st = .calPrime then .primeShot else .testShot) c.steps c.kp s2

/-- The first two steps of a shot: the wait for the stir, then the before-reading. Made when the shot begins and at each
report on its canister. -/
def calRecheck (s : State) : State :=
  match s.disp.cal with
  | none => s
  | some c =>
    if c.stage = .stirWait && (s.disp.st = .calPrime || s.disp.st = .calRate) then
      if s.stirring c.slot || s.preRequested c.slot then s
      else if hasSettled s c.slot then makePre c.slot s
      else
        match s.disp.fresh, s.scale.latest with
        | true, some r => calDebit r c s
        | _, _ => openRequest (mapCal (fun c => { c with stage := .beforeReading }) s)
    else s

/-- A shot of `steps` is begun; `before` is the before-reading it starts with, the cup's for the first prime try (R102) and
none while any other waits for its own (log 66). -/
def calShot (steps : Nat) (before : Option Int) (s : State) : State :=
  calRecheck (mapCal (fun c => { c with steps := steps, stage := .stirWait, before := before }) s)

/-! ## Priming (R104) -/

/-- The next prime try, or PRIME_MAXSTROKE when its steps are above the travel. -/
def primeTry (before : Option Int) (s : State) : State :=
  match s.disp.cal with
  | none => s
  | some c =>
    let n := c.primeTry + 1
    let s1 := mapCal (fun c => { c with primeTry := n }) s
    if (s.canStatic c.slot).travel < Config.primeStep * n then calOutcome .primeMaxstroke none s1
    else calShot (Config.primeStep * n) before s1

/-! ## Rate tests (R105, R106) -/

/-- Test `t` of the pass begins. -/
def calTest (t : Fin 4) (s : State) : State :=
  match s.disp.cal with
  | none => s
  | some c => calShot (stepCount s.cfg.general.testVolumes[t] c.kp) none (mapCal (fun c => { c with test := some t }) s)

/-- A pass begins: its count rises, its results are emptied and its first test runs. -/
def calPass (s : State) : State :=
  let s1 := mapCal (fun c => { c with pass := c.pass + 1, results := [] }) s
  match s1.disp.cal with
  | none => s1
  | some c =>
    match c.tests with
    | [] => s1
    | t :: _ => calTest t s1

/-- The new K of a pass: the mean of its K_i (R106). -/
def passK (results : List CalResult) : Nat := roundDiv (results.map (·.ki)).sum results.length

/-- The largest K_i less the smallest. -/
def passSpread (results : List CalResult) : Nat :=
  let ks := results.map (·.ki)
  ks.foldl max 0 - ks.foldl min (ks.headD 0)

/-- The pass succeeds (R106). -/
def passSucceeds (spread : Nat) (results : List CalResult) : Bool :=
  passSpread results ≤ roundDiv (passK results * spread) 1000 && Config.minK ≤ passK results && passK results ≤ Config.maxK

/-- The pass is judged (R106). -/
def judgePass (s : State) : State :=
  match s.disp.cal with
  | none => s
  | some c =>
    if passSucceeds s.cfg.general.spread c.results then calOutcome .pass (some (passK c.results)) s
    else if c.pass < Config.calPasses then calPass s
    else calOutcome .rateSpread none s

/-- A test's gain gives its factor, or ends the calibration with RATE_LOW (R105). -/
def judgeTest (gain : Int) (s : State) : State :=
  match s.disp.cal with
  | none => s
  | some c =>
    if gain < s.cfg.general.verifyFloor then calOutcome .rateLow none s
    else
      let ki := testFactor c.steps c.density gain.toNat
      if Config.maxK < ki then calOutcome .rateLow none s
      else
        let s1 := mapCal (fun c => { c with results := c.results ++ [{ steps := c.steps, gain := gain, ki := ki }] }) s
        match c.tests.find? fun t => (c.test.getD 0) < t with
        | some t => calTest t s1
        | none => judgePass s1

/-- A prime try's gain primes the pump or fails (R104). -/
def judgePrime (gain : Int) (s : State) : State :=
  match s.disp.cal with
  | none => s
  | some c =>
    if Config.primeGain ≤ gain then calPass (s.mapDisp fun d => { d with st := .calRate })
    else if Config.primeTries ≤ c.primeTry then calOutcome .primeLoops none s
    else primeTry none s

/-! ## Readings and operations of a calibration -/

/-- A cup on the scale is weighed (R102). -/
def weighCup (s : State) : State := openRequest (mapCal (fun c => { c with stage := .cupReading }) s)

/-- The cup reading is judged against the cup maximum (R102). -/
def judgeCup (r : Int) (s : State) : State :=
  if r ≤ s.cfg.general.cupMax then
    primeTry (some r) (s.mapDisp fun d => { d with st := .calPrime })
  else setFlag .tinWrong (mapCal (fun c => { c with stage := .cupWait }) s)

/-- A reading answers the calibration's request. -/
def calAnswer (r : Int) (s : State) : State :=
  match s.disp.cal with
  | none => s
  | some c =>
    match c.stage with
    | .cupReading => judgeCup r s
    | .beforeReading => calDebit r c s
    | .afterReading =>
      let gain := 10 * (r - c.before.getD r)
      if s.disp.st = .calPrime then judgePrime gain s else judgeTest gain s
    | .cupWait => s
    | .stirWait => s
    | .shot => s
    | .over => s

/-- A calibration shot's operation has completed: its after-reading is opened (R103). -/
def calShotDone (s : State) : State := openRequest (mapCal (fun c => { c with stage := .afterReading }) s)

end Sys2Proof.Machine
end

