-- ==== Sys2Proof/Machine/Dispense.lean ====
section
/-! DEFINITION. The dispense bay's work on one tin (05_the_dispense_bay.md): accepting it, taking its lines, judging
weighings, top-ups, and what the bay makes of readings, completed operations and reports of the canister table. Its
halts and resumptions stand in Faults.lean. -/

namespace Sys2Proof.Machine

/-! ## The line table -/

/-- The lines of the tin in the bay. -/
def dispLines (s : State) : List LineEntry :=
  match s.disp.tin with
  | some t => t.lines
  | none => []

/-- One line entry. -/
def lineAt (s : State) (i : Nat) : Option LineEntry := (dispLines s)[i]?

/-- Update of one line entry. -/
def mapEntryAt (i : Nat) (f : LineEntry → LineEntry) (s : State) : State :=
  s.mapTin .dispense fun t => { t with lines := t.lines.modify i f }

/-- The ACTIVE line with its place. -/
def activeLine (s : State) : Option (Nat × LineEntry) := findIdxFrom (fun l : LineEntry => l.st = .active) (dispLines s) 0

/-- The line is DONE with a verdict. -/
def finishLine (i : Nat) (v : LineVerdict) (s : State) : State :=
  (mapEntryAt i (fun l => { l with st := .done, verdict := some v }) s).mapDisp fun d => { d with step := none }

/-- The line is passed with a reason (R83). -/
def passLine (i : Nat) (r : PassReason) (s : State) : State :=
  (mapEntryAt i (fun l => { l with st := .passed r }) s).mapDisp fun d => { d with step := none }

/-! ## What a line would ask for -/

/-- The volume of a top-up for measured gain `g` (R48). -/
def topUpFor (s : State) (l : LineEntry) (p : LinePlan) (g : Int) : Nat :=
  topUpVolume ((p.mExp : Int) - g).toNat p.density (s.canStatic l.slot).minShot

/-- The volume the line would next ask for: V before its first shot, else the V_t of its carried deficit (R83). -/
def nextVolume (s : State) (l : LineEntry) : Nat :=
  match l.plan with
  | none => l.plannedV
  | some p => topUpFor s l p l.carried

/-- S, M_exp and E from the canister record as it stands (R42, R45 to R47). -/
def planFor (s : State) (l : LineEntry) : LinePlan :=
  let c := s.can l.slot
  let m := expectedGain l.plannedV c.density
  { code := c.code, steps := stepCount l.plannedV c.k, mExp := m
    tol := if s.cfg.general.verifyFloor ≤ m then some (tolerance s.cfg.general m) else none
    density := c.density, k := c.k }

/-- A line needs a before-reading when its M_exp is at or above the verify floor or a shot has been given (R85). -/
def needsReading (s : State) (l : LineEntry) : Bool := l.plan.isSome || (planFor s l).tol.isSome

/-! ## Passing lines (R82, R83) -/

/-- The first two reasons of R83. -/
def passReason (s : State) (i : Slot) : Option PassReason :=
  if (s.can i).state ≠ .ready then some .awaitCanister
  else if s.stirring i || s.preRequested i || hasSettled s i then some .preStir
  else none

/-- A PASSED line judged afresh against the three tests; a line whose reason has ended and which meets no other keeps
its entry and is selectable (R83). The level is compared and no debit is asked, so a line found short of it takes
AWAIT_REFILL without CANISTER_LOW, which R26 ties to a refused debit: the model's choice (log 76). -/
def judgeEntry (s : State) (l : LineEntry) : LineEntry :=
  match l.st with
  | .passed _ =>
    match passReason s l.slot with
    | some r => { l with st := .passed r }
    | none => if canDebit s l.slot (nextVolume s l) then l else { l with st := .passed .awaitRefill }
  | .pending => l
  | .active => l
  | .done => l

/-- The request of PRE_STIR's third case, for a PASSED line that meets it (R83). -/
def requestFor (l : LineEntry) (s : State) : State :=
  match l.st with
  | .passed _ => if passReason s l.slot = some .preStir then makePre l.slot s else s
  | .pending => s
  | .active => s
  | .done => s

/-- The tin in the dispense bay carries the cancelled mark (R14). -/
def dispCancelled (s : State) : Bool :=
  match s.disp.tin with
  | some t => t.cancelled
  | none => false

/-- Every PASSED line is judged afresh; requests are made while the bay works (R83). The lines of a lost or cancelled tin
keep the states they have (R93, R96). -/
def judgePassed (s : State) : State :=
  if s.disp.lost || dispCancelled s then s
  else
    let s1 := s.mapTin .dispense fun t => { t with lines := t.lines.map (judgeEntry s) }
    if s.disp.st = .dispensing || s.disp.st = .waiting then (dispLines s1).foldl (fun t l => requestFor l t) s1 else s1

/-- The line may be selected: PENDING, or PASSED with its reason ended (R82, R83). -/
def selectable (s : State) (l : LineEntry) : Bool :=
  match l.st with
  | .pending => true
  | .active => false
  | .done => false
  | .passed .awaitCanister => (s.can l.slot).state = .ready
  | .passed .preStir => !s.stirring l.slot && !s.preRequested l.slot
  | .passed .awaitRefill => canDebit s l.slot (nextVolume s l)

/-! ## The debit and the shot (R42, R85, R88) -/

/-- The shot or top-up of volume `v` begins: the debit is made, the entry filled in, the tin committed at its first shot
and the operation handed to the drive (R42, R85). -/
def beginShot (i : Nat) (l : LineEntry) (v : Nat) (before : Option Int) (s : State) : State :=
  let p := l.plan.getD (planFor s l)
  let first := l.plan.isNone
  let s1 := mapEntryAt i (fun l =>
    { l with
      st := .active
      plan := some p
      delivered := l.delivered + v
      topUps := if first then l.topUps else l.topUps + 1
      base := before.orElse fun _ => l.base }) (debit l.slot v s)
  let s2 := s1.mapDisp fun d => { d with st := .dispensing, step := some .shot, fresh := false }
  let s3 :=
    match s.disp.tin with
    | some t => commitTin t.jobId (s2.mapTin .dispense TinRecord.commit)
    | none => s2
  beginOp l.slot (if first then .lineShot else .topUp) (if first then p.steps else stepCount v p.k) p.k s3

/-- The debit is asked for, after the test of the canister's activity: refused, the line is passed for AWAIT_REFILL with
CANISTER_LOW set (R24, R26, R85). -/
def debitStage (i : Nat) (l : LineEntry) (v : Nat) (before : Option Int) (s : State) : State :=
  if s.stirring l.slot then passLine i .preStir s
  else if canDebit s l.slot v then beginShot i l v before s
  else setFlag .canisterLow (passLine i .awaitRefill s)

/-- A selected line is taken: passed for a reason of R83, or weighed before its debit (R83, R85). -/
def takeLine (i : Nat) (l : LineEntry) (s : State) : State :=
  match passReason s l.slot with
  | some .preStir => makePre l.slot (passLine i .preStir s)
  | some r => passLine i r s
  | none =>
    if needsReading s l then
      match s.disp.fresh, s.scale.latest with
      | true, some r => debitStage i l (nextVolume s l) (some r) s
      | _, _ =>
        openRequest ((mapEntryAt i (fun l => { l with st := .active }) s).mapDisp fun d =>
          { d with st := .dispensing, step := some .beforeReading })
    else debitStage i l (nextVolume s l) none s

/-! ## Selection (R82, R97) -/

/-- The lines at the given places are tried in order until one is ACTIVE. -/
def selectFrom : List Nat → State → State
  | [], s => s
  | i :: is, s =>
    match lineAt s i with
    | none => selectFrom is s
    | some l =>
      if selectable s l then
        let s1 := takeLine i l s
        if (activeLine s1).isSome then s1 else selectFrom is s1
      else selectFrom is s

/-- With no line ACTIVE the bay goes to DONE or to WAITING (R82, R97). -/
def finishSelection (s : State) : State :=
  if (activeLine s).isSome then s
  else if (dispLines s).all fun l => l.st = .done then s.mapDisp fun d => { d with st := .done, step := none }
  else s.mapDisp fun d => { d with st := .waiting, step := none }

/-- Whenever no line is ACTIVE, the first selectable line is taken (R82). -/
def selectLine (s : State) : State :=
  if (activeLine s).isSome then s
  else finishSelection (selectFrom (List.range (dispLines s).length) (s.mapDisp fun d => { d with st := .dispensing }))

/-- An ACTIVE line is selected again: taken as when it was selected first, and when it is then not ACTIVE the next
selection follows (R82, R85). -/
def retakeLine (i : Nat) (l : LineEntry) (s : State) : State :=
  let s1 := takeLine i l (mapEntryAt i (fun l => { l with st := .pending }) s)
  if (activeLine s1).isSome then s1 else selectLine s1

/-! ## Accepting a tin (R81) -/

/-- A line entry planned at acceptance: V and the minimum-shot test (R42 to R44). -/
def planEntry (s : State) (size : SizeCode) (l : LineEntry) : LineEntry :=
  let v := plannedVolume l.amount (s.cfg.sizes[size]).fill
  let m := (s.canStatic l.slot).minShot
  match treat v m with
  | .omittedZero => { l with plannedV := 0, st := .done, verdict := some .omittedZero }
  | .omittedSmall => { l with plannedV := 0, st := .done, verdict := some .omittedSmall }
  | .raised => { l with plannedV := m, raised := true, st := .pending }
  | .kept => { l with plannedV := v, st := .pending }

/-- The look-ahead of R81: a request for a PENDING line whose canister has stood past its settle limit. -/
def lookAhead (l : LineEntry) (s : State) : State :=
  if l.st = .pending && hasSettled s l.slot then makePre l.slot s else s

/-- The tin is accepted with its tare (R81). -/
def acceptTin (r : Int) (t : TinRecord) (s : State) : State :=
  let s1 := clearFlag .tinWanted (s.mapTin .dispense fun u =>
    { u with tare := some r, lines := u.lines.map (planEntry s t.size) })
  let s2 := (dispLines s1).foldl (fun u l => lookAhead l u) s1
  selectLine s2

/-- The tare reading is judged against the gross band (R81). -/
def judgeTare (r : Int) (s : State) : State :=
  match s.disp.tin with
  | none => s
  | some t =>
    let z := s.cfg.sizes[t.size]
    if (z.grossLow : Int) ≤ r && r ≤ z.grossHigh then acceptTin r t s
    else setFlag .tinWrong (s.mapDisp fun d => { d with st := .wrongTin })

/-! ## Judging a weighing (R86 to R89) -/

/-- What R87 makes of a measured gain. -/
inductive Judgement where
  | disturbed | within | over | noFlow | topUp | short
  deriving DecidableEq, Repr

/-- R87's table, its cases in order. -/
def judgeGain (mExp tol topUps maxTopUps : Nat) (g : Int) : Judgement :=
  let d : Int := mExp - g
  if g < -(tol : Int) then .disturbed
  else if d.natAbs ≤ tol then .within
  else if d < 0 then .over
  else if (mExp / 2 : Nat) < d then .noFlow
  else if topUps < maxTopUps then .topUp
  else .short

/-- What the end of a weighed line tells the miss count (R27, R89). -/
def outcomeOf (j : Judgement) (topUps : Nat) : Outcome27 :=
  if 0 < topUps then .corrected
  else
    match j with
    | .within => .within
    | .over => .corrected
    | .short => .corrected
    | .disturbed => .neither
    | .noFlow => .neither
    | .topUp => .neither

/-- The run of a passed line is closed: its gain becomes the carried gain and its base reading is cleared (R88). -/
def closeRun (i : Nat) (g : Int) (s : State) : State := mapEntryAt i (fun l => { l with carried := g, base := none }) s

/-- A top-up follows at once in the same take, or the line is passed with its run closed (R88). -/
def topUpNow (i : Nat) (l : LineEntry) (p : LinePlan) (g : Int) (s : State) : State :=
  match passReason s l.slot with
  | some .preStir => selectLine (makePre l.slot (passLine i .preStir (closeRun i g s)))
  | some r => selectLine (passLine i r (closeRun i g s))
  | none =>
    let v := topUpFor s l p g
    if canDebit s l.slot v then beginShot i l v none s
    else selectLine (setFlag .canisterLow (passLine i .awaitRefill (closeRun i g s)))

/-- A weighed line ends: verdict, miss count, and for lack of flow the canister's fault; then the bay selects (R87,
R89). -/
def endWeighed (i : Nat) (l : LineEntry) (v : LineVerdict) (j : Judgement) (s : State) : State :=
  let s1 := countMiss l.slot (outcomeOf j l.topUps) (finishLine i v s)
  if j = .noFlow then selectLine (judgePassed (markFaulted l.slot .noFlow s1)) else selectLine s1

/-- A weighed line's after-reading, or its recovery reading, is judged (R87, R95). -/
def judgeReading (i : Nat) (l : LineEntry) (p : LinePlan) (r : Int) (s : State) : State :=
  let g := gainOf l.carried r (l.base.getD r)
  let s1 := mapEntryAt i (fun l => { l with gain := some g }) s
  let j := judgeGain p.mExp (p.tol.getD 0) l.topUps s.cfg.general.maxTopUps g
  match j with
  | .disturbed => endWeighed i l .disturbed j s1
  | .within => endWeighed i l (if l.raised then .raised else .ok) j s1
  | .over => endWeighed i l .over j s1
  | .noFlow => endWeighed i l .under j s1
  | .topUp => topUpNow i l p g s1
  | .short => endWeighed i l .under j s1

/-- A reading answers the request of the active line. -/
def lineAnswer (r : Int) (s : State) : State :=
  match activeLine s with
  | none => s
  | some (i, l) =>
    match s.disp.step with
    | some .beforeReading =>
      let s1 := debitStage i l (nextVolume s l) (some r) s
      if (activeLine s1).isSome then s1 else selectLine s1
    | some .verify =>
      match l.plan with
      | some p => judgeReading i l p r s
      | none => s
    | some .selection => s
    | some .shot => s
    | some .interrupted => s
    | none => s

/-! ## What the neighbours report -/

/-- A settled reading answers the bay's open request: the quiet request is lowered, the fresh-reading mark set, and the
bay goes on by its state (R67, R81, R84, R85, R87, R102, R103). -/
def answerRequest (r : Int) (s : State) : State :=
  let s1 := (closeRequest s).mapDisp fun d => { d with fresh := true }
  match s.disp.st with
  | .tare => judgeTare r s1
  | .dispensing => lineAnswer r s1
  | .calCup => calAnswer r s1
  | .calPrime => calAnswer r s1
  | .calRate => calAnswer r s1
  | _ => s1

/-- The line's operation has completed: a volumetric line is DONE, a weighed line enters VERIFY (R86, R87). -/
def shotDone (s : State) : State :=
  match activeLine s with
  | none => s
  | some (i, l) =>
    match l.plan.bind (·.tol) with
    | none => selectLine (finishLine i (if l.raised then .raised else .volumetric) s)
    | some _ => openRequest (s.mapDisp fun d => { d with step := some .verify })

/-- The pump drive reports an operation completed (R60). -/
def opCompleted (s : State) : State :=
  match s.disp.st with
  | .dispensing => shotDone s
  | .calPrime => calShotDone s
  | .calRate => calShotDone s
  | _ => s

/-- The canister table reports that a canister has changed or has left READY, or that a stir on it has completed: the
passed lines are judged afresh, a line waiting for its before-reading is taken again, ahead of any other, and a waiting
bay or calibration goes on (R29, R82, R83, R85, R103; log 35). The withdrawal of the before-reading's request lowers the
quiet request, so the deferred starts are taken before the line may open another (R90, R114; log 68). -/
def reportCanister (c : Slot) (s : State) : State :=
  let s1 := judgePassed s
  match s1.disp.st with
  | .dispensing =>
    match activeLine s1 with
    | some (i, l) =>
      if l.slot = c && s1.disp.step = some .beforeReading then
        retakeLine i l (takeAllDeferred (closeRequest s1))
      else s1
    | none => s1
  | .waiting => if (dispLines s1).any (selectable s1) then selectLine s1 else s1
  | .calPrime => calRecheck s1
  | .calRate => calRecheck s1
  | _ => s1

/-- A canister becomes FAULTED; a calibration on it ends with ABORTED, and the bay is told (R28, R29, R111). -/
def canisterFault (c : Slot) (why : CanFault) (s : State) : State :=
  let s1 := markFaulted c why s
  let s2 :=
    match s1.disp.cal with
    | some k => if k.slot = c then abortCal s1 else s1
    | none => s1
  reportCanister c s2

/-- A stir completes and the bay is told (R37). -/
def stirCompleted (c : Slot) (s : State) : State := reportCanister c (completeStir c s)

end Sys2Proof.Machine
end

