-- ==== Sys2Proof/Machine/Faults.lean ====
section
/-! DEFINITION. Faults and stops (10_faults_guards_and_the_keepalive.md): latching a bay fault, the station stop, the
emergency stop, the loss of a tin in each bay, clearing and resuming (R91 to R95, R110, R111, R124 to R126, R132 to R134,
R171 to R176). -/

namespace Sys2Proof.Machine

/-! ## Halting a bay -/

/-- The dispense bay's operation in flight is interrupted; its line keeps what was delivered and stands INTERRUPTED
(R58, R92). -/
def interruptShot (s : State) : State :=
  match s.pump.op, activeLine s with
  | none, _ => s
  | some _, none => interruptOp s
  | some _, some (i, _) =>
    interruptOp ((mapEntryAt i (fun l => { l with delivered := l.delivered - opCredit s }) s).mapDisp fun d =>
      { d with step := some .interrupted })

/-- A line that had not reached its debit is to be selected again (R91, R95). -/
def haltedStep : Option LineStep → Option LineStep
  | some .beforeReading => some .selection
  | p => p

/-- The dispense bay enters FAULT or STOPPED. The credit of an operation it interrupts is a report on its canister, at which
the passed lines are judged afresh (R59, R83, R91 to R94, R110, R111; log 35): one that is not 0 counts as raising the
level even when the level already stands at its limit (R25, R29; log 71). -/
def haltDisp (dest : DispState) (s : State) : State :=
  if s.disp.st = .fault || s.disp.st = dest then s
  else
    let s1 := dropPre (closeRequest (interruptShot s))
    let s2 := s1.mapDisp fun d =>
      { d with
        st := dest
        resume := if d.st = .stopped then d.resume else some d.st
        step := haltedStep d.step
        fresh := false
        removed := if d.st = .stopped then d.removed else false
        placed := if d.st = .stopped then d.placed else false }
    let s3 := abortCal s2
    if 0 < opCredit s then judgePassed s3 else s3

/-- What the lid bay's entry to FAULT or STOPPED does to the stroke and the claim (R124, R125). A press that is in RETRACT
already has its home timer run on from where it stands, where R125 does not say whether it starts again: the model's choice
(log 84). -/
def haltStroke (estop : Bool) (s : State) : State :=
  match s.lid.st with
  | .awaitLids => clearFlag .lidsWanted s
  | .awaitAir => giveUp .air s
  | .awaitQuiet => giveUp .air s
  | .extend => s.mapLid fun b => { retractPress b with seatTime := b.seatSoFar, home := if estop then none else some 0 }
  | .dwell => s.mapLid fun b => { retractPress b with home := if estop then none else some 0 }
  | .retract => if estop then s.mapLid fun b => { b with home := none } else s
  | _ => s

/-- A stop that finds the bay STOPPED, or in FAULT at the home check of its resumption, ends the check and leaves the bay
STOPPED: its next resumption makes the check again (R125, R173; log 16). -/
def dropHomeCheck (estop : Bool) (s : State) : State :=
  s.mapLid fun b => { b with st := .stopped, homeCheck := false, home := if estop then none else b.home }

/-- A stop finds the bay STOPPED already, or at the home check that follows its cleared fault (log 16). -/
def lidStandsStopped (s : State) : Bool := s.lid.st = .stopped || (s.lid.st = .fault && s.lid.homeCheck)

/-- The lid bay enters FAULT or STOPPED (R124, R125). -/
def haltLid (dest : LidState) (estop : Bool) (s : State) : State :=
  if dest = .stopped && lidStandsStopped s then dropHomeCheck estop s
  else if s.lid.st = .fault then s
  else
    (haltStroke estop s).mapLid fun b =>
      { b with
        st := dest
        resume := if b.st = .stopped then b.resume else some b.st
        deferral := none
        homeCheck := false
        removed := if b.st = .stopped then b.removed else false }

/-- What the shake bay's entry to FAULT or STOPPED does to the clamp, the shaker and the claim (R132, R133). -/
def haltShaker (estop : Bool) (s : State) : State :=
  let s1 := s.mapShake fun b => { b with clampDrive := .off, clamp := none }
  match s.shake.st with
  | .awaitPower => giveUp .power s1
  | .awaitQuiet => giveUp .power s1
  | .spinUp =>
    if estop then s1.mapShake fun b => { b with drive := .off, turning := true, spin := none, run := none }
    else (brake s1).mapShake fun b => { b with turning := true }
  | .run =>
    if estop then s1.mapShake fun b => { b with drive := .off, turning := true, spin := none, run := none }
    else (brake s1).mapShake fun b => { b with turning := true }
  | .spinDown => s1.mapShake fun b => { b with turning := true, drive := if estop then .off else b.drive }
  | _ => s1

/-- The shake bay enters FAULT or STOPPED. A removal noted in UNCLAMP stays noted (R134). -/
def haltShake (dest : ShakeState) (estop : Bool) (s : State) : State :=
  if s.shake.st = .fault || s.shake.st = dest then s
  else
    (haltShaker estop s).mapShake fun b =>
      { b with
        st := dest
        resume := if b.st = .stopped then b.resume else some b.st
        deferral := none
        removed := if b.st = .stopped || b.st = .unclamp then b.removed else false }

/-! ## Latching a fault (R171 to R173) -/

/-- A bay goes to FAULT. -/
def faultBay : BayId → State → State
  | .dispense, s => haltDisp .fault s
  | .lid, s => (haltLid .fault false s).mapLid fun b => { b with homeCheck := false }
  | .shake, s => haltShake .fault false s

/-- Every bay but one goes to STOPPED, unless it is in FAULT; POWER is given up before AIR (R173; log 62). -/
def stopOthers : BayId → State → State
  | .dispense, s => haltLid .stopped false (haltShake .stopped false s)
  | .lid, s => haltShake .stopped false (haltDisp .stopped s)
  | .shake, s => haltLid .stopped false (haltDisp .stopped s)

/-- A bay reports a fault: it joins the tin's notes and sets BAY_FAULT; a first one is latched, the bay is in FAULT, and
the stop scope is applied (R98, R171 to R173). -/
def latch (b : BayId) (k : FaultKind) (s : State) : State :=
  let s1 := setFlag .bayFault (s.mapTin b (TinRecord.note k))
  if (s.fault b).isNone then
    let s2 := faultBay b (s1.setFault b (some k))
    if s.cfg.general.scope = .station && !s.anyFault then stopOthers b s2 else s2
  else s1

/-! ## Loss of a tin -/

/-- What a loss makes of the ACTIVE line: INTERRUPTED when its operation was in flight, to be selected again when it had
not reached its debit (R93; log 19). -/
def loseLine (s : State) : State :=
  match activeLine s with
  | none => s
  | some (i, l) =>
    if s.pump.op.isSome then
      let s1 := finishLine i .interrupted (interruptShot s)
      if (l.plan.bind (·.tol)).isSome then countMiss l.slot (outcomeOf .disturbed l.topUps) s1 else s1
    else if s.disp.step = some .beforeReading || s.disp.step = some .selection then
      mapEntryAt i (fun l => { l with st := .pending }) s
    else s

/-- A lost tin without a shot goes back to its job; with one its record is closed (R93). -/
def closeLost (s : State) : State :=
  match s.disp.tin with
  | none => s
  | some t => if t.shotGiven then closeDispRecord s else withdrawTin s

/-- The dispense bay's state, or the one it resumes into. -/
def dispWork (s : State) : Option DispState :=
  if s.disp.st = .fault || s.disp.st = .stopped then s.disp.resume else some s.disp.st

/-- A tin in work stands in the dispense bay, so that its loss is R93's. -/
def dispHolds (s : State) : Bool :=
  (dispWork s = some .tare || dispWork s = some .dispensing || dispWork s = some .waiting || dispWork s = some .done) &&
  !s.disp.lost && !s.disp.recWait &&
  match s.disp.tin with
  | some t => !t.cancelled
  | none => false

/-- The dispense bay's tin is lost (R93). A start deferred on the request closed here meets a station stop of TIN_LOST first,
and is dropped: the model's choice (log 80). -/
def loseDisp (s : State) : State :=
  if dispHolds s then
    let s1 := (dropPre (loseLine (closeRequest s))).mapDisp fun d => { d with lost := true }
    let s2 := latch .dispense .tinLost (s1.mapTin .dispense fun t => { t with lost := true })
    if s.mon.faultD.isNone then closeLost s2 else s2
  else s

/-- The lid bay's tin is lost: marked and noted; a held bay carries it out at its resumption (R126). -/
def loseLid (s : State) : State :=
  match s.lid.tin with
  | none => s
  | some t =>
    if t.lost then s
    else
      let s1 := s.mapTin .lid fun t => (t.note .tinLost) |> fun t => { t with lost := true }
      match s.lid.st with
      | .awaitLids => enterLidLost (clearFlag .lidsWanted s1)
      | .awaitAir => enterLidLost (giveUp .air s1)
      | .awaitQuiet => enterLidLost (giveUp .air s1)
      | .extend => s1.mapLid fun b => { retractPress b with st := .retract }
      | .dwell => s1.mapLid fun b => { retractPress b with st := .retract }
      | .done => enterLidLost s1
      | _ => s1

/-- The shake bay's tin is lost before its record has joined (R134). In CLAMP the clamp drive stops with the timer, and a
clamp whose sensor is not yet on is taken as open (log 74). -/
def loseShake (s : State) : State :=
  match s.shake.tin with
  | none => s
  | some t =>
    if t.lost then s
    else
      let s1 := s.mapTin .shake fun t => (t.note .tinLost) |> fun t => { t with lost := true }
      match s.shake.st with
      | .clamp => enterAwaitRoom (s1.mapShake fun b => { b with clampDrive := .off, clamp := none })
      | .awaitPower => enterAwaitRoom (giveUp .power s1)
      | .awaitQuiet => enterAwaitRoom (giveUp .power s1)
      | .spinUp => (brake s1).mapShake fun b => { b with st := .spinDown }
      | .run => (brake s1).mapShake fun b => { b with st := .spinDown }
      | _ => s1

/-! ## Resuming -/

/-- The conditions of R78 on mode and SAFE. -/
def callStands (s : State) : Bool := s.mon.mode = .run && !s.mon.safe

/-- A tin set down for a call is weighed (R80). -/
def enterTare (s : State) : State := openRequest (s.mapDisp fun d => { d with st := .tare, resume := none, removed := false })

/-- The bay returns to CALLED: the call is withdrawn if it no longer stands, and a tin on the scale goes to TARE (R79,
R95). A call that CANCEL has withdrawn leaves the bay EMPTY (R14). -/
def returnToCalled (s : State) : State :=
  if s.disp.tin.isNone then s.mapDisp fun d => { d with st := .empty, resume := none, removed := false }
  else if !callStands s then withdrawCall (s.mapDisp fun d => { d with removed := false })
  else if s.inputs.presDispense then enterTare s
  else s.mapDisp fun d => { d with st := .called, resume := none, removed := false }

/-- The bay waits for a cancelled tin to be lifted, and closes its record once it is (R96). R96 waits for the sensor to go
off; where it is off already, a tin cancelled in a bay held at CALLED or WRONG_TIN with nothing on the scale, the record is
closed at once, at the resumption: the model's choice (log 83). -/
def enterCancelled (s : State) : State :=
  let gone := s.disp.removed || !s.inputs.presDispense
  let s1 := (dropPre (closeRequest s)).mapDisp fun d => { d with st := .cancelled, resume := none, step := none, removed := false }
  let s2 := s1.mapTin .dispense fun t => { t with cancelled := true }
  if s.disp.recWait then drainDisp s2 else if gone then closeDispRecord s2 else s2

/-- The ACTIVE line of a resumed bay (R95). -/
def resumeLine (s : State) : State :=
  match activeLine s with
  | none => selectLine s
  | some (i, l) =>
    match s.disp.step with
    | some .interrupted =>
      if (l.plan.bind (·.tol)).isSome then openRequest (s.mapDisp fun d => { d with step := some .verify })
      else selectLine (finishLine i .interrupted s)
    | some .verify => openRequest s
    | _ => selectLine (mapEntryAt i (fun l => { l with st := .pending }) (s.mapDisp fun d => { d with step := none }))

/-- The dispense bay re-enters a resume state (R95, R108, R118). An object set down while the bay was held sets TIN_WRONG when
it resumes at EMPTY (log 32), and not when it ends EMPTY from another resume state (log 70). -/
def resumeDispAt (r : DispState) (s : State) : State :=
  let back := s.mapDisp fun d => { d with st := r, resume := none, removed := false }
  match r with
  | .tare => openRequest back
  | .dispensing => resumeLine back
  | .waiting => selectLine back
  | .done => if s.inputs.presDispense then back else loseDisp back
  | .called => returnToCalled s
  | .wrongTin => if s.disp.removed || !s.inputs.presDispense then returnToCalled s else back
  | .empty => if s.inputs.presDispense && s.disp.placed then setFlag .tinWrong back else back
  | .cancelled => enterCancelled s
  | .orphan =>
    if s.disp.removed || !s.inputs.presDispense then s.mapDisp fun d => { d with st := .empty, resume := none, removed := false }
    else back
  | .calEnd => calEnded back
  | _ => back

/-- A bay in this state goes on when nothing stops the station (R95, R173). -/
def dispMayResume (s : State) : Bool :=
  (s.disp.st = .stopped || (s.disp.st = .fault && s.mon.faultD.isNone)) && !s.stopStands

/-- The dispense bay resumes, if it may: a lost tin is handled as lost, a cancelled one goes to CANCELLED, any other
resume point is re-entered (R93, R95). -/
def resumeDisp (s : State) : State :=
  if dispMayResume s then
    if s.disp.lost then
      let s1 := s.mapDisp fun d => { d with st := .fault }
      finishLost (drainDisp s1)
    else if dispCancelled s then enterCancelled (loseLine s)
    else resumeDispAt (s.disp.resume.getD .empty) s
  else s

/-- The lid bay goes on from a passed home check or an unfinished approach: a lost tin's record is closed, else the lid
test is made (R125, R126). -/
def lidGoOn (s : State) : State :=
  match s.lid.tin with
  | none => s
  | some t => if t.lost then enterLidLost s else lidTest s

/-- The home check waits for the press home sensor; one already on passes at once (R125). -/
def homeCheck (s : State) : State :=
  if s.inputs.pressHome then lidGoOn (giveUp .air (s.mapLid fun b => { b with home := none, homeCheck := false }))
  else s.mapLid fun b => { b with home := some 0, homeCheck := true }

/-- The press of a held bay is out: its retraction runs, or the bay was halted in its stroke and the press home sensor is
still off (R125, R126). -/
def pressOut (s : State) : Bool :=
  s.lid.home.isSome ||
  ((s.lid.resume = some .extend || s.lid.resume = some .dwell || s.lid.resume = some .retract) && !s.inputs.pressHome)

/-- The lid bay carries out a loss found while it was held: a press that is out is retracted first, within a home time that
runs on or starts now (R126). -/
def resumeLostLid (s : State) : State :=
  if pressOut s then
    s.mapLid fun b => { retractPress b with st := .retract, resume := none, home := some (b.home.getD 0) }
  else enterLidLost (giveUp .air s)

/-- The lid bay re-enters a resume state (R125). -/
def resumeLidAt (r : LidState) (s : State) : State :=
  let back := s.mapLid fun b => { b with st := r, resume := none, removed := false }
  match r with
  | .inbound => if s.lid.tin.isSome then lidTest back else back
  | .awaitLids => lidTest back
  | .awaitAir => lidTest back
  | .awaitQuiet => lidTest back
  | .extend => homeCheck s
  | .dwell => homeCheck s
  | .retract => homeCheck s
  | .done => if s.inputs.presLid then back else loseLid back
  | .orphan =>
    if s.lid.removed || !s.inputs.presLid then s.mapLid fun b => { b with st := .empty, resume := none, removed := false }
    else back
  | _ => back

def lidMayResume (s : State) : Bool :=
  (s.lid.st = .stopped || (s.lid.st = .fault && s.mon.faultL.isNone)) && !s.stopStands && !s.lid.homeCheck

/-- The lid bay resumes, if it may (R125). -/
def resumeLid (s : State) : State :=
  if lidMayResume s then
    match s.lid.tin with
    | some t => if t.lost then resumeLostLid s else resumeLidAt (s.lid.resume.getD .empty) s
    | none => resumeLidAt (s.lid.resume.getD .empty) s
  else s

/-- The shake bay re-enters a resume state (R132, R133); an EMPTY one opens a clamp it finds closed (R203; log 53). -/
def resumeShakeAt (r : ShakeState) (s : State) : State :=
  let back := s.mapShake fun b => { b with st := r, resume := none, removed := false }
  match r with
  | .empty => if s.inputs.clampClosed then enterUnclamp back else back
  | .inbound => if s.shake.tin.isSome then enterClamp back else back
  | .clamp => restartShake back
  | .awaitPower => restartShake back
  | .awaitQuiet => restartShake back
  | .spinUp => restartShake back
  | .run => restartShake back
  | .spinDown => restartShake back
  | .awaitRoom => enterAwaitRoom back
  | .unclamp => enterUnclamp s
  | .awaitRemoval =>
    if s.shake.removed || !s.inputs.presShake then back.mapShake fun b => { b with st := .empty } else back
  | .orphan => if s.shake.removed || !s.inputs.presShake then shakeOrphanGone back else back
  | _ => back

def shakeMayResume (s : State) : Bool :=
  (s.shake.st = .stopped || (s.shake.st = .fault && s.mon.faultS.isNone)) && !s.stopStands && !s.shake.turning

/-- The shake bay resumes, if it may: no sooner than its shaker is at rest (R132 to R134). -/
def resumeShake (s : State) : State :=
  if shakeMayResume s then
    match s.shake.tin with
    | some t => if t.lost then enterAwaitRoom s else resumeShakeAt (s.shake.resume.getD .empty) s
    | none => resumeShakeAt (s.shake.resume.getD .empty) s
  else s

/-- Every bay that may resume does so (R95, R125, R133, R173). The order of the resumptions is the model's choice, the
furthest downstream first (logs 24 and 62), so that the records which join at them do so in R194's order. -/
def resumeAll (s : State) : State := resumeDisp (resumeLid (resumeShake s))

/-! ## Clearing (R174, R176) -/

/-- The carriage jam charged to a bay is cleared with its fault (R118, R171, R174). -/
def clearJam (b : BayId) (s : State) : State :=
  s.mapCarriage fun c => if c.charge = some b && c.cause = some .transfer then { c with cause := none } else c

/-- A bay in FAULT goes to STOPPED while a stop stands (R95, R174). -/
def holdCleared (b : BayId) (s : State) : State :=
  if s.stopStands then
    match b with
    | .dispense => s.mapDisp fun d => if d.st = .fault then { d with st := .stopped } else d
    | .lid => s.mapLid fun d => if d.st = .fault then { d with st := .stopped } else d
    | .shake => s.mapShake fun d => if d.st = .fault then { d with st := .stopped } else d
  else s

/-- A tin that the dispense bay found lost while it was in FAULT is handled as lost at the fault's clearing (R93). -/
def closeFound (b : BayId) (s : State) : State :=
  if b = .dispense && s.disp.lost && !s.disp.recWait then closeLost s else s

/-- CLEAR_FAULT of a bay that holds a latched fault (R174): the carriage is resolved and every bay that may resume does so
in the order of `resumeAll` (logs 24 and 62), a tin found lost in the dispense bay being handled in that bay's turn. -/
def clearBay (b : BayId) (s : State) : State :=
  if (s.fault b).isNone then s
  else
    let s1 := resolveCarriage (holdCleared b (clearJam b (s.setFault b none)))
    resumeDisp (closeFound b (resumeLid (resumeShake s1)))

/-- CLEAR_FAULT(station) with the input inactive clears ESTOP (R176). A dispense bay that ESTOP alone held in FAULT after
a lost tin goes to EMPTY here, a station stop or not (R93; log 21). -/
def clearStation (s : State) : State :=
  if s.mon.estop then
    let s1 := s.mapMon fun m => { m with estop := false }
    let s2 := s1.mapCarriage fun c => if c.cause = some .estop then { c with cause := none } else c
    finishLost (resumeAll (resolveCarriage s2))
  else s

/-! ## The emergency stop (R175) -/

/-- ESTOP joins the notes of every tin held. -/
def noteEverywhere (k : FaultKind) (s : State) : State :=
  (((s.mapTin .dispense (TinRecord.note k)).mapTin .lid (TinRecord.note k)).mapTin .shake (TinRecord.note k)).mapCarried
    (TinRecord.note k)

/-- A carriage under way becomes JAMMED (R117, R118). -/
def jamByStop (s : State) : State :=
  if s.carriage.st = .moving then
    (standStill .jammed s).mapCarriage fun c => { c with cause := some .estop, homeDue := false }
  else s.mapCarriage fun c => { c with deferral := none }

/-- Every actuator output is off: pump, carriage, press valve, shaker and clamp (R175). -/
def drivesOff (s : State) : State :=
  (((interruptOp s).mapCarriage fun c => { c with drive := false }).mapLid fun b => { b with valve := false }).mapShake
    fun b => { b with drive := .off, clampDrive := .off }

/-- The emergency stop acts on every block; POWER has its release order before AIR (R175; log 62). -/
def applyEstop (s : State) : State :=
  let s1 := freeAllStirs (dropPre (jamByStop (noteEverywhere .estop (blankTrigger s))))
  let s2 := haltLid .stopped true (releaseOrder .power (haltShake .stopped true (haltDisp .stopped s1)))
  let s3 := releaseOrder .air (drivesOff s2)
  setFlag .bayFault (s3.mapMon fun m => { m with estop := true })

end Sys2Proof.Machine
end

