-- ==== Sys2Proof/Machine/Settle.lean ====
section
/-! DEFINITION. What follows every command in a running part: free stirrer slots are granted (R35), an EMPTY dispense bay
asks for a tin (R78), and the deferral timers follow what is due (R114), in this order (log 24). The frames of a command:
`whenServing`, `whenOnline` and `whenSensed`. -/

namespace Sys2Proof.Machine

/-- What every command is followed by, in every mode but OFFLINE. -/
def settle (s : State) : State := if s.online then keepDeferrals (askTin (grantStirs s)) else s

/-- A command on the station port, in any mode. -/
def whenServing (f : State → State) (s : State) : State := if s.serves then settle (f s) else s

/-- A command that acts in every mode but OFFLINE. -/
def whenOnline (f : State → State) (s : State) : State := if s.online then settle (f s) else s

/-- A sensor's command: a running part records the level; in every mode but OFFLINE the blocks act on it (R202). -/
def whenSensed (level : State → State) (f : State → State) (s : State) : State :=
  if s.online then settle (f (level s)) else if s.running then level s else s

end Sys2Proof.Machine
end

