-- ==== Sys2Proof/Machine/CanisterCommands.lean ====
section
/-! DEFINITION. The meanings of the commands of stirrers and pumps: MINUTE_TIMER, the stirrer speed and run commands,
VALVE_TURN_DONE, ROTATION_PULSE, PUMP_SEGMENT_END (R32, R36, R37, R54, R56). -/

namespace Sys2Proof.Machine

/-! ## Stirring -/

/-- Every stir age rises by one, and the minute timer starts again (R32). -/
def ageStirs (s : State) : State :=
  (s.mapStir fun m => { m with minute := 0 }).mapCans fun v =>
    v.map fun c => { c with age := min Config.ageLimit (c.age + 1) }

/-- MINUTE_TIMER (R32). -/
def execMinuteTimer (s : State) : Host.Outcome State Fault Refusal := .next (whenOnline ageStirs s)

/-- A granted stir is running: its stirrer is driven, the door being closed (R38). -/
def runningStir (s : State) (i : Slot) : Option StirRun := if s.inputs.doorOpen then none else s.stirRun? i

/-- A measurement above the limit: at speed, the third in a row fails the stir (R36). -/
def slowStir (i : Slot) (s : State) : State :=
  match runningStir s i with
  | none => s
  | some r =>
    if r.check.isSome then s
    else if 2 ≤ r.slow then canisterFault i .stir s
    else mapRun i (fun r => { r with slow := r.slow + 1 }) s

/-- A measurement at or below the limit: speed is reached, and a stir whose run timer has expired completes (R36, R37). -/
def fastStir (i : Slot) (s : State) : State :=
  match runningStir s i with
  | none => s
  | some r => if r.expired then stirCompleted i s else mapRun i (fun r => { r with check := none, slow := 0 }) s

/-- STIRRER_REVOLUTION (R36). -/
def execStirrerRevolution (slot : Slot) (period : Nat) (s : State) : Host.Outcome State Fault Refusal :=
  .next (whenOnline (fun t => if period ≤ t.cfg.general.stirMinPeriod then fastStir slot t else slowStir slot t) s)

/-- STIRRER_SPEED_SATURATED (R36): one slow revolution, at a minimum period of 2,000,000 µs too (log 64). -/
def execStirrerSpeedSaturated (slot : Slot) (s : State) : Host.Outcome State Fault Refusal :=
  .next (whenOnline (slowStir slot) s)

/-- The speed check expires without speed: the stir fails (R36). -/
def checkExpires (i : Slot) (s : State) : State :=
  match runningStir s i with
  | none => s
  | some r => if r.check.isSome then canisterFault i .stir s else s

/-- STIR_SPEED_TIMEOUT (R36). -/
def execStirSpeedTimeout (slot : Slot) (s : State) : Host.Outcome State Fault Refusal :=
  .next (whenOnline (checkExpires slot) s)

/-- The run timer expires: the stir completes once speed has been reached, with slow revolutions counted toward the third
too (log 78), and otherwise waits for its speed check (R36, R37). -/
def runExpires (i : Slot) (s : State) : State :=
  match runningStir s i with
  | none => s
  | some r => if r.check.isSome then mapRun i (fun r => { r with left := 0, expired := true }) s else stirCompleted i s

/-- STIR_RUN_EXPIRY (R37). -/
def execStirRunExpiry (slot : Slot) (s : State) : Host.Outcome State Fault Refusal := .next (whenOnline (runExpires slot) s)

/-! ## Pumping -/

/-- VALVE_TURN_DONE (R51, R54). -/
def execValveTurnDone (s : State) : Host.Outcome State Fault Refusal := .next (whenOnline turnDone s)

/-- ROTATION_PULSE (R56). -/
def execRotationPulse (slot : Slot) (s : State) : Host.Outcome State Fault Refusal :=
  .next (whenOnline (countPulse slot) s)

/-- A stalled segment: the canister becomes FAULTED, at whose report the passed lines are judged afresh, and the bay latches
PUMP_STALL, which interrupts the operation (R29, R56, R58, R83, R92, R110). -/
def pumpStalled (i : Slot) (s : State) : State := latch .dispense .pumpStall (judgePassed (markFaulted i .stall s))

/-- The segment's last step is issued: the rotation check, then what follows (R53 to R56, R60). A snuff-back
that fails its check is interrupted, and the snuff pending stays 0 (R55, R58; log 72). -/
def endSegment (o : PumpOp) (s : State) : State :=
  let s1 := issueSteps (o.toRun - o.run) o s
  match s1.pump.op with
  | none => s1
  | some o1 =>
    if stalls o1 then pumpStalled o1.slot s1
    else
      let s2 := afterMove o1 s1
      if s2.pump.op.isNone then opCompleted s2 else s2

/-- A moving segment that is not paused ends. -/
def segmentEnds (s : State) : State :=
  match s.pump.op with
  | none => s
  | some o => if o.stage = .moving && !o.paused then endSegment o s else s

/-- PUMP_SEGMENT_END (R56). -/
def execPumpSegmentEnd (s : State) : Host.Outcome State Fault Refusal := .next (whenOnline segmentEnds s)

end Sys2Proof.Machine
end

