-- ==== Sys2Proof/Machine/CarriageCommands.lean ====
section
/-! DEFINITION. The meanings of the carriage's commands: CARRIAGE_MOVE_START, QUIET_DEFERRAL_EXPIRY, CARRIAGE_ARRIVAL,
MOVE_TIMEOUT, HOME_RUN_START, CARRIAGE_HOME (R113 to R118). -/

namespace Sys2Proof.Machine

/-- CARRIAGE_MOVE_START (R114, R115): a due move is taken once the quiet request allows. -/
def execCarriageMoveStart (s : State) : Host.Outcome State Fault Refusal :=
  .next (whenOnline (fun t => if moveDue t && quietAllows t then startMove t else t) s)

/-- QUIET_DEFERRAL_EXPIRY (R114): a deferred start is taken at the quiet limit. -/
def execQuietDeferralExpiry (owner : StartOwner) (s : State) : Host.Outcome State Fault Refusal :=
  .next (whenOnline (takeDeferred owner) s)

/-- The arrival sensor confirms a move under way (R116). -/
def arrivalSensed (s : State) : State :=
  match s.carriage.st, s.carriage.move with
  | .moving, some .dispenseToLid => arrive .dispenseToLid s
  | .moving, some .lidToShake => arrive .lidToShake s
  | _, _ => s

/-- CARRIAGE_ARRIVAL (R116). -/
def execCarriageArrival (s : State) : Host.Outcome State Fault Refusal := .next (whenOnline arrivalSensed s)

/-- The move timer has reached its limit: the carriage is JAMMED, and TRANSFER_JAM is noted on the carried tin and latched
against the bay the move is charged to (R117, R118). An arrival taken first has stopped the timer (R116), and the start that
is then due may have started it again for the next move, which has not reached it (log 4). -/
def moveJams (s : State) : State :=
  if s.carriage.st = .moving && reached Config.moveLimitMs s.carriage.timer then
    let s1 := ((standStill .jammed s).mapCarriage fun c => { c with cause := some .transfer, homeDue := false }).mapCarried
      (TinRecord.note .transferJam)
    latch (s.carriage.charge.getD .dispense) .transferJam s1
  else s

/-- MOVE_TIMEOUT (R117, R118). -/
def execMoveTimeout (s : State) : Host.Outcome State Fault Refusal := .next (whenOnline moveJams s)

/-- HOME_RUN_START (R118): a due home run is taken once the quiet request allows. -/
def execHomeRunStart (s : State) : Host.Outcome State Fault Refusal :=
  .next (whenOnline (fun t => if homeRunDue t && quietAllows t then startHomeRun t else t) s)

/-- The home sensor confirms a home run under way (R118). -/
def homeSensed (s : State) : State :=
  match s.carriage.st, s.carriage.move with
  | .moving, some .homeRun => arriveHome s
  | _, _ => s

/-- CARRIAGE_HOME (R118). -/
def execCarriageHome (s : State) : Host.Outcome State Fault Refusal := .next (whenOnline homeSensed s)

end Sys2Proof.Machine
end

