-- ==== Sys2Proof/Machine/DispenseCommands.lean ====
section
/-! DEFINITION. The meanings of the commands of the scale and of the dispense bay: SCALE_SAMPLE, BLANK_TIMER_EXPIRY,
SETTLE_TIMEOUT, TIN_PRESENCE_DISPENSE, RECORD_JOIN (R62 to R73, R80, R93, R194). -/

namespace Sys2Proof.Machine

/-! ## Samples (R62 to R64, R70) -/

/-- A sample at or above full scale empties the window and is recorded as saturated (R62; log 13). -/
def saturatedSample (raw : Int) (s : State) : State :=
  s.mapScale fun c => { c with window := [], last := some { value := raw, saturated := true } }

/-- The dispense bay takes no notice of crossings in the calibration states (R102). -/
def calibrating (s : State) : Bool :=
  s.disp.st = .calCup || s.disp.st = .calPrime || s.disp.st = .calRate || s.disp.st = .calEnd

/-- A crossing is reported: it clears the fresh-reading mark, and a fall below is the loss of a tin in work (R70, R84,
R93). -/
def reportCrossing (above : Bool) (s : State) : State :=
  if calibrating s then s
  else
    let s1 := s.mapDisp fun d => { d with fresh := false }
    if above then s1 else loseDisp s1

/-- The net sample tested against the tin-present threshold (R70). -/
def testThreshold (net : Int) (s : State) : State :=
  let above : Bool := Config.tinThreshold ≤ net
  if above = s.scale.above then s else reportCrossing above (s.mapScale fun c => { c with above := above })

/-- A full window gives a settled reading: the latest one, the answer to an open request, and an offer to zero tracking,
in this order (R64, R67, R71, R73). -/
def produceReading (s : State) : State :=
  let r := settledMean s.scale.window
  let s1 := s.mapScale fun c => { c with window := [], latest := some r }
  trackZero r (if s1.scale.request.isSome then answerRequest r s1 else s1)

/-- The net sample offered to the window unless the scale is blanked (R63, R64, R66): a sample taken before the expiry of a
blank timer that has run out is discarded too. -/
def offerSample (net : Int) (s : State) : State :=
  if s.scale.blank.isSome then s
  else
    let s1 := s.mapScale fun c => { c with window := offerToWindow s.cfg.general.band net c.window }
    if s.cfg.general.windowLen ≤ s1.scale.window.length then produceReading s1 else s1

/-- A raw sample (R62). -/
def takeSample (raw : Int) (s : State) : State :=
  if Config.fullScale ≤ raw then saturatedSample raw s
  else
    let net := raw - s.scale.zero
    offerSample net (testThreshold net (s.mapScale fun c => { c with last := some { value := net, saturated := false } }))

/-- SCALE_SAMPLE (R62). -/
def execScaleSample (raw : Int) (s : State) : Host.Outcome State Fault Refusal := .next (whenOnline (takeSample raw) s)

/-- BLANK_TIMER_EXPIRY (R66). -/
def execBlankTimerExpiry (s : State) : Host.Outcome State Fault Refusal := .next (whenOnline blankExpires s)

/-- A request is open and its settle timer has reached the settle timeout (R68). -/
def settleDue (s : State) : Bool := reached (s.cfg.general.settleTimeout * 1000) s.scale.request

/-- An open request's settle timer reaches the settle timeout: the request is closed, and the bay latches SCALE_UNSETTLED
(R68, R91, R110). A request that a withdrawal or an answer taken first has closed is not reported, nor is one opened in its
place, whose timer starts from 0 (R67 to R69). The lowered quiet request meets the deferred starts only in `settle`, after the
station stop this fault may begin, so that a start the stop holds is dropped and not taken: the model's choice (log 80). -/
def settleExpires (s : State) : State :=
  if settleDue s then latch .dispense .scaleUnsettled (closeRequest s) else s

/-- SETTLE_TIMEOUT (R68). -/
def execSettleTimeout (s : State) : Host.Outcome State Fault Refusal := .next (whenOnline settleExpires s)

/-! ## The presence sensor (R78 to R80, R93, R94, R96, R102, R108, R110) -/

/-- The sensor comes on. A held bay notes the object for its resumption (log 32). -/
def dispTinOn (s : State) : State :=
  match s.disp.st with
  | .empty => setFlag .tinWrong s
  | .called => enterTare s
  | .calCup =>
    match s.disp.cal with
    | some c => if c.stage = .cupWait then weighCup s else s
    | none => s
  | .fault => s.mapDisp fun d => { d with placed := true }
  | .stopped => s.mapDisp fun d => { d with placed := true }
  | _ => s

/-- A held bay notes a removal that it acts on when it resumes, and finds a tin in work lost (R93, R94). A removal noted
before a CANCEL is not that of the cancelled tin (see `markCancelled`). -/
def heldTinOff (s : State) : State :=
  let s1 := s.mapDisp fun d => { d with placed := false }
  if dispHolds s1 then loseDisp s1
  else if s1.disp.lost then finishLost s1
  else s1.mapDisp fun d => { d with removed := true }

/-- The cup is lifted while its reading is open (R102). -/
def cupLifted (s : State) : State :=
  if s.scale.request.isSome then closeRequest (mapCal (fun c => { c with stage := .cupWait }) s) else s

/-- The sensor goes off. -/
def dispTinOff (s : State) : State :=
  match s.disp.st with
  | .wrongTin => returnToCalled s
  | .tare => loseDisp s
  | .dispensing => loseDisp s
  | .waiting => loseDisp s
  | .done => loseDisp s
  | .cancelled => if s.disp.recWait then s else closeDispRecord s
  | .orphan => s.mapDisp fun d => { d with st := .empty }
  | .calCup => cupLifted s
  | .calPrime => latch .dispense .tinLost s
  | .calRate => latch .dispense .tinLost s
  | .calEnd => calEnded s
  | .fault => heldTinOff s
  | .stopped => heldTinOff s
  | .empty => s
  | .called => s
  | .outbound => s

/-- TIN_PRESENCE_DISPENSE (R80). -/
def execTinPresenceDispense (on : Bool) (s : State) : Host.Outcome State Fault Refusal :=
  .next (whenSensed (State.mapInputs fun i => { i with presDispense := on }) (if on then dispTinOn else dispTinOff) s)

/-- RECORD_JOIN (R194): waiting records join while there is room. -/
def execRecordJoin (s : State) : Host.Outcome State Fault Refusal := .next (whenOnline drain s)

end Sys2Proof.Machine
end

