-- ==== Sys2Proof/Machine/LidCommands.lean ====
section
/-! DEFINITION. The meanings of the lid bay's commands: MAGAZINE_SENSOR, PRESS_START, LID_SEATED, SEAT_LIMIT,
DWELL_EXPIRY, PRESS_HOME_SENSOR, HOME_LIMIT, PRESS_GUARD, TIN_PRESENCE_LID (R121 to R126, R177). -/

namespace Sys2Proof.Machine

/-- MAGAZINE_SENSOR (R121). -/
def execMagazineSensor (present : Bool) (s : State) : Host.Outcome State Fault Refusal :=
  .next (whenSensed (State.mapInputs fun i => { i with magazine := present }) lidRecheck s)

/-- PRESS_START (R114, R122, R123). -/
def execPressStart (s : State) : Host.Outcome State Fault Refusal :=
  .next (whenOnline (fun t => if pressDue t && quietAllows t then startPress t else t) s)

/-- A stroke fails: the result is FAILED with the seat time so far, and the fault is latched, which retracts the press
(R124). -/
def strokeFails (k : FaultKind) (s : State) : State := latch .lid k (recordFailed k s)

/-- The seated sensor comes on in EXTEND (R123, R124). -/
def seatedSensed (s : State) : State :=
  if s.lid.st = .extend then
    if s.lid.seatSoFar < Config.seatMinMs then strokeFails .lidMissing s else seatLid s.lid.seatSoFar s
  else s

/-- LID_SEATED (R123, R124). -/
def execLidSeated (s : State) : Host.Outcome State Fault Refusal := .next (whenOnline seatedSensed s)

/-- The seat timer reaches its limit in EXTEND (R124). -/
def seatExpires (s : State) : State :=
  if s.lid.st = .extend then
    strokeFails .lidJam (s.mapLid fun b => { b with seat := some Config.seatLimitMs })
  else s

/-- SEAT_LIMIT (R124). -/
def execSeatLimit (s : State) : Host.Outcome State Fault Refusal := .next (whenOnline seatExpires s)

/-- DWELL_EXPIRY (R123). -/
def execDwellExpiry (s : State) : Host.Outcome State Fault Refusal :=
  .next (whenOnline (fun t => if t.lid.st = .dwell then endDwell t else t) s)

/-- The press home sensor comes on: it ends the stroke, passes a home check, or ends the retraction of a held bay, with
AIR released (R123 to R125). -/
def pressHomeSensed (s : State) : State :=
  if s.lid.st = .retract then endStroke s
  else if s.lid.homeCheck then
    let s1 := giveUp .air (s.mapLid fun b => { b with home := none, homeCheck := false })
    if s1.stopStands then s1 else lidGoOn s1
  else if s.lid.home.isSome then giveUp .air (s.mapLid fun b => { b with home := none })
  else s

/-- PRESS_HOME_SENSOR (R123 to R125). -/
def execPressHomeSensor (s : State) : Host.Outcome State Fault Refusal :=
  .next (whenSensed (State.mapInputs fun i => { i with pressHome := true }) pressHomeSensed s)

/-- The home timer has reached its limit: AIR is released, and PRESS_HOME is latched from RETRACT or a home check, or noted
after another fault, whose kind the lid result keeps; a STOPPED bay latches nothing, and a lost tin's result stays as it
stands (R124 to R126; logs 56, 57). A timer that a resumption taken first has started again for its home check has not
reached it (R125; log 4). -/
def homeExpires (s : State) : State :=
  if reached Config.homeLimitMs s.lid.home then
    let s1 := giveUp .air (s.mapLid fun b => { b with home := none })
    if s.lid.st = .retract then
      match s.lid.tin with
      | some t => if t.lost then latch .lid .pressHome s1 else strokeFails .pressHome s1
      | none => latch .lid .pressHome s1
    else if s.lid.homeCheck then latch .lid .pressHome s1
    else if s.lid.st = .fault && s.mon.faultL.isSome then latch .lid .pressHome s1
    else s1
  else s

/-- HOME_LIMIT (R124, R125). -/
def execHomeLimit (s : State) : Host.Outcome State Fault Refusal := .next (whenOnline homeExpires s)

/-- The guard opens in EXTEND or DWELL (R124, R177). -/
def guardChanged (isOpen : Bool) (s : State) : State :=
  if isOpen && (s.lid.st = .extend || s.lid.st = .dwell) then strokeFails .guardBreach s else s

/-- PRESS_GUARD (R122, R124, R177). -/
def execPressGuard (isOpen : Bool) (s : State) : Host.Outcome State Fault Refusal :=
  .next (whenSensed (State.mapInputs fun i => { i with guardOpen := isOpen }) (guardChanged isOpen) s)

/-- The lid bay's presence sensor goes off: an orphan is gone, or the tin is lost (R119, R126). -/
def lidTinOff (s : State) : State :=
  if s.lid.st = .orphan then s.mapLid fun b => { b with st := .empty }
  else if (s.lid.st = .fault || s.lid.st = .stopped) && s.lid.tin.isNone then s.mapLid fun b => { b with removed := true }
  else loseLid s

/-- TIN_PRESENCE_LID (R126). -/
def execTinPresenceLid (on : Bool) (s : State) : Host.Outcome State Fault Refusal :=
  .next (whenSensed (State.mapInputs fun i => { i with presLid := on }) (if on then id else lidTinOff) s)

end Sys2Proof.Machine
end

