-- ==== Sys2Proof/Machine/LineControl.lean ====
section
/-! DEFINITION. The peer line controller and the peer roster (08_the_peer_line.md): the bytes of a frame, starting and
ending an attempt, the line states, received notices, beacons, and what notices do to the roster. -/

namespace Sys2Proof.Machine

/-! ## Frame bytes (R145, R146, R211) -/

/-- The wait a beacon carries: amount and count while a wait stands, zeros while none does (R152). -/
def waitBytes (a : Agent) : List Byte :=
  if a.standing then [BitVec.ofNat 8 (a.asked.getD 0), BitVec.ofNat 8 a.count] else [0, 0]

/-- The bays occupied: dispense in bit 0, lid in bit 1, shake in bit 2 (R211). -/
def baysOccupied (s : State) : Byte :=
  (if s.disp.st ≠ .empty then 1 else 0) ||| (if s.lid.st ≠ .empty then 2 else 0) |||
  (if s.shake.st ≠ .empty then 4 else 0)

/-- A beacon's contents as the station stands (R146). -/
def beaconBytes (s : State) : List Byte :=
  [BitVec.ofNat 8 (modeCode s.mon.mode), BitVec.ofNat 8 (intervalCode s.cfg.ident), BitVec.ofNat 8 s.power.announced,
   BitVec.ofNat 8 s.air.announced] ++ waitBytes s.power ++ waitBytes s.air ++
  [BitVec.ofNat 8 s.jobs.places, baysOccupied s]

/-- A frame's payload (R211). -/
def payloadBytes (s : State) (f : Frame) : List Byte :=
  let pool := BitVec.ofNat 8 (poolCode f.pool)
  match f.kind with
  | .claim => [pool, BitVec.ofNat 8 f.amount]
  | .adjust => [pool, BitVec.ofNat 8 f.amount]
  | .release => [pool]
  | .wait => [pool, BitVec.ofNat 8 f.amount, BitVec.ofNat 8 f.count]
  | .beacon => beaconBytes s

/-- The arbitration byte: urgency in bits 7 and 6, station number in bits 5 to 2, ones in bits 1 and 0 (R211). -/
def arbitrationByte (urgency number : Nat) : Byte := BitVec.ofNat 8 (64 * urgency + 4 * number + 3)

/-- A frame's bytes with their CRC (R136, R205). -/
def frameBytes (s : State) (f : Frame) : List Byte :=
  let body := arbitrationByte f.kind.urgency s.cfg.ident.number.val :: BitVec.ofNat 8 f.kind.code :: payloadBytes s f
  body ++ crcBytes body

/-! ## Line states (R141 to R144) -/

/-- A change of line state, with LINE_CHANGE (R141). -/
def enterLine (st : LineCtlState) (s : State) : State := setFlag .lineChange (s.mapLine fun c => { c with st := st })

/-- Queued CLAIMs not in progress are returned unsent on entry to DOWN (R143). -/
def returnClaim (p : Pool) (s : State) : State :=
  let f := newFrame .claim p 0 0
  if s.line.queue.any f.same && !s.line.sending f then
    claimLost p (s.mapLine fun c => { c with queue := c.queue.filter fun g => !f.same g })
  else s

/-- The line goes to DOWN when the consecutive drops reach 3 in LISTENING or ACTIVE; POWER's CLAIM is returned before AIR's
(R143; log 62). -/
def downOnThird (s : State) : State :=
  if 3 ≤ s.line.drops && (s.line.st = .listening || s.line.st = .active) then
    returnClaim .air (returnClaim .power (enterLine .down (s.mapLine fun c => { c with ret := c.st })))
  else s

/-- A frame sent in DOWN takes the line to its return state (R143). -/
def returnFromDown (s : State) : State :=
  if s.line.st = .down then
    if s.line.ret = .listening then enterLine .listening (s.mapLine fun c => { c with listens := 0 })
    else tryBoth (enterLine .active s)
  else s

/-! ## Reports to the owners of frames -/

/-- The owner of a frame is told it was sent (R138). -/
def reportSent (a : Attempt) (s : State) : State :=
  match a.frame.kind with
  | .claim => if a.fate = .withdrawn then judgeWithdrawn a.frame.pool a.frame.amount s else judgeOwn a.frame.pool s
  | .adjust => adjustDone a.frame.pool a.frame.amount s
  | .release => releaseDone a.frame.pool s
  | .wait => s
  | .beacon => s

/-- The owner of a frame is told it was dropped or returned unsent (R139, R144). -/
def reportUnsent (f : Frame) (s : State) : State :=
  match f.kind with
  | .claim => claimLost f.pool s
  | .adjust => adjustDone f.pool f.amount s
  | .release => releaseDone f.pool s
  | .wait => s
  | .beacon => s

/-- A drop counts toward the consecutive drops, and the third takes the line DOWN (R139, R143). -/
def countDrop (s : State) : State := downOnThird (s.mapLine fun c => { c with drops := min 3 (c.drops + 1) })

/-- The frames of one kind and pool leave the queue. -/
def unqueue (f : Frame) (s : State) : State :=
  s.mapLine fun c => { c with queue := c.queue.filter fun g => !f.same g }

/-! ## Attempts (R138 to R140) -/

/-- The controller starts the first allowed queued frame (R138). -/
def startFrame (s : State) : State :=
  match s.line.attempt, s.line.next with
  | none, some f =>
    s.mapLine fun c => { c with attempt := some { frame := f, fate := .queued, bytes := frameBytes s f }, awaitIdle := false }
  | _, _ => s

/-- What becomes of a frame whose attempt ended without being sent. `counted`: the attempt counts (a transmit error). A
frame that lost arbitration keeps its place (R138); a CLAIM that meets an error in DOWN is returned unsent (R143). -/
def attemptFailed (counted : Bool) (a : Attempt) (s : State) : State :=
  match a.fate with
  | .withdrawn => s
  | .superseded => if a.frame.kind = .beacon then countDrop s else s
  | .queued =>
    if counted && s.line.st = .down && a.frame.kind = .claim then reportUnsent a.frame (unqueue a.frame s)
    else if counted then
      if Config.frameAttempts ≤ a.frame.attempts + 1 then countDrop (reportUnsent a.frame (unqueue a.frame s))
      else s.mapLine fun c =>
        { c with queue := c.queue.map fun g => if a.frame.same g then { g with attempts := g.attempts + 1 } else g }
    else s

/-- The attempt ends; the next start needs `idle` bit times (R138, R139). -/
def endAttempt (idle : Nat) (s : State) : State := s.mapLine fun c => { c with attempt := none, startReq := idle }

/-- A frame driven through its frame end (R138). -/
def frameDone (a : Attempt) (s : State) : State :=
  let s1 := (endAttempt Config.idleBits s).mapLine fun c => { c with drops := 0 }
  let s2 := if a.fate = .queued then unqueue a.frame s1 else s1
  returnFromDown (reportSent a s2)

/-! ## BARRED (R144) -/

/-- A valid frame bearing this station's own number, which it has not sent: the line goes to BARRED, the queue is
emptied and its pool frames returned unsent, and the station fault is reported (R144, R182). -/
def barLine (s : State) : State :=
  let frames := s.line.queue
  let s1 := enterLine .barred (s.mapLine fun c => { c with queue := [], attempt := none, beacon := none })
  let s2 := frames.foldl (fun t f => reportUnsent f t) s1
  setFlag .bayFault (s2.mapMon fun m => { m with barred := true })

/-! ## Beacons (R142, R146) -/

def beaconFrame : Frame := newFrame .beacon .power 0 0

/-- The earlier BEACON is superseded: dropped if it is not in progress; else it finishes its attempt (R146). -/
def supersedeBeacon (s : State) : State :=
  if s.line.queue.any beaconFrame.same then
    if s.line.sending beaconFrame then unqueue beaconFrame (s.mapLine (LineCtl.setFate .superseded))
    else countDrop (unqueue beaconFrame s)
  else s

/-- A new BEACON takes its place in the queue and the timer runs for another interval (R146). -/
def placeBeacon (s : State) : State :=
  placeFrame beaconFrame (s.mapLine fun c => { c with beacon := some s.cfg.ident.beaconInterval })

/-- The listening count rises, and the fourth expiry takes the line to ACTIVE (R142). -/
def countListening (s : State) : State :=
  if s.line.st = .listening then
    let s1 := s.mapLine fun c => { c with listens := min 4 (c.listens + 1) }
    if 4 ≤ s1.line.listens then tryBoth (enterLine .active s1) else s1
  else s

/-- An expiry of the beacon timer: a superseded BEACON is dropped before the expiry is counted, and POWER tries before AIR
(R142, R146, R160; logs 60, 62). A wait that begins because this drop takes the line to DOWN and returns a CLAIM has its
count raised to 1 by the same expiry: the model's choice (log 60). -/
def beaconExpiry (s : State) : State :=
  if s.line.beacon.isSome then
    countListening (raiseCount .air (raiseCount .power (placeBeacon (supersedeBeacon s))))
  else s

/-- The line after a load that passes in PEER mode (R142). -/
def startLine (s : State) : State :=
  if s.cfg.ident.lineMode = .peer then
    placeBeacon (enterLine .listening (s.mapLine fun c => { c with listens := 0 }))
  else s

/-! ## The roster (R147, R148, R157, R164, R165) -/

/-- Update of one roster entry. -/
def State.mapEntry (i : Station) (f : RosterEntry → RosterEntry) (s : State) : State :=
  s.mapRoster fun r => r.set i (f r[i])

/-- A received CLAIM is judged against the peer's room: granted, or void (R157). -/
def judgePeer (src : Station) (p : Pool) (a : Nat) (s : State) : State :=
  if a ≤ peerRoom s p src then s.mapEntry src fun e => (e.setHeld p a).setWait p none
  else s.mapEntry src fun e => e.setHeld p 0

/-- A received ADJUST can only lower a holding; else it is ignored with LINE_CHANGE set (R164). -/
def adjustPeer (src : Station) (p : Pool) (a : Nat) (s : State) : State :=
  if a ≤ s.roster[src].held p then s.mapEntry src fun e => e.setHeld p a else setFlag .lineChange s

/-- A received RELEASE (R165). -/
def releasePeer (src : Station) (p : Pool) (s : State) : State :=
  s.mapEntry src fun e => (e.setHeld p 0).setWait p none

/-- A received WAIT (R165). -/
def waitPeer (src : Station) (p : Pool) (amount count : Nat) (s : State) : State :=
  s.mapEntry src fun e => (e.setHeld p 0).setWait p (some { amount := amount, count := count })

/-- A wait carried by a beacon; an amount of 0 means none (R145, R148). -/
def carriedWait (amount count : Byte) : Option PoolWait :=
  if amount = 0 then none else some { amount := amount.toNat, count := count.toNat }

/-- A received BEACON sets its source's entry directly; LINE_CHANGE is set when the mismatch mark goes from clear to set
(R148). -/
def beaconPeer (src : Station) (b : Beacon) (s : State) : State :=
  let differs := b.interval.toNat ≠ intervalCode s.cfg.ident
  let s1 := s.mapEntry src fun e =>
    { e with
      heldPower := b.powerHeld.toNat
      heldAir := b.airHeld.toNat
      waitPower := carriedWait b.powerWait b.powerCount
      waitAir := carriedWait b.airWait b.airCount
      summary := some { mode := b.mode.toNat, interval := b.interval.toNat, jobs := b.jobs.toNat, bays := b.bays.toNat }
      mismatch := differs }
  if differs && !s.roster[src].mismatch then setFlag .lineChange s1 else s1

/-- A discarded frame: the controller waits for the line to go idle (R137). -/
def discardFrame (s : State) : State :=
  if s.line.st = .silent then s else s.mapLine fun c => { c with awaitIdle := true }

/-- The agents are told what a notice has made of the roster: of every notice but an ADJUST that is ignored (R157, R164,
R165, R148). -/
def thenTell (act : State → State) (s : State) : State := tryBoth (act s)

/-- An ADJUST that lowers a holding is told to the agents; an ignored one is not (R164). -/
def takeAdjust (src : Station) (p : Pool) (a : Nat) (s : State) : State :=
  if a ≤ s.roster[src].held p then tryBoth (adjustPeer src p a s) else adjustPeer src p a s

/-- A valid notice: SILENT receives nothing; under this station's own number R144 acts; else the source's entry becomes
PRESENT with age 0, and the notice acts (R137, R147). -/
def receive (src : Station) (act : State → State) (s : State) : State :=
  if s.line.st = .silent then s
  else
    let s0 := s.mapLine fun c => { c with awaitIdle := false }
    if src = s.cfg.ident.number then
      if s.line.st = .barred then s0 else barLine s0
    else act (s0.mapEntry src fun e => { e with present := true, age := 0 })

/-- The age at which an entry becomes ABSENT: four times this station's beacon interval, ms (R147). -/
def ageOutAge (s : State) : Nat := 4 * s.cfg.ident.beaconInterval

/-- An entry that has reached the limit becomes ABSENT: held amounts 0, waits absent, summary and mark kept; the agents
are told (R147). -/
def ageOut (i : Station) (s : State) : State :=
  if s.line.st ≠ .silent && s.roster[i].present && ageOutAge s ≤ s.roster[i].age then
    tryBoth (s.mapEntry i fun e => { e with present := false, heldPower := 0, heldAir := 0, waitPower := none, waitAir := none })
  else s

end Sys2Proof.Machine
end

