-- ==== Sys2Proof/Machine/LineCommands.lean ====
section
/-! DEFINITION. The meanings of the peer line's commands: the attempt in progress (FRAME_START, ARBITRATION_LOST,
TRANSMIT_ERROR, FRAME_SENT), received frames, BEACON_TIMER_EXPIRY, ROSTER_AGE_OUT, WAIT_TIMER_EXPIRY (R137 to R148, R157,
R161, R164, R165). -/

namespace Sys2Proof.Machine

/-- FRAME_START (R138). -/
def execFrameStart (s : State) : Host.Outcome State Fault Refusal := .next (whenOnline startFrame s)

/-- Arbitration is lost: the attempt is not counted, and the next start needs 12 bit times (R138, R140, R143). -/
def loseArbitration (s : State) : State :=
  match s.line.attempt with
  | none => s
  | some a => attemptFailed false a (endAttempt Config.idleBits s)

/-- ARBITRATION_LOST (R138). -/
def execArbitrationLost (s : State) : Host.Outcome State Fault Refusal := .next (whenOnline loseArbitration s)

/-- A transmit error: the attempt counts, and the next start needs the backoff of the station's number (R139). -/
def transmitFails (s : State) : State :=
  match s.line.attempt with
  | none => s
  | some a => attemptFailed true a (endAttempt ((s.cfg.ident.number.val + 1) * 16) s)

/-- TRANSMIT_ERROR (R139). -/
def execTransmitError (s : State) : Host.Outcome State Fault Refusal := .next (whenOnline transmitFails s)

/-- The frame in progress is driven through its frame end (R138). -/
def frameEnds (s : State) : State :=
  match s.line.attempt with
  | none => s
  | some a => frameDone a s

/-- FRAME_SENT (R138). -/
def execFrameSent (s : State) : Host.Outcome State Fault Refusal := .next (whenOnline frameEnds s)

/-- FRAME_DISCARDED (R137): whatever the cause, the controller waits for the line to go idle. -/
def execFrameDiscarded (_cause : DiscardCause) (s : State) : Host.Outcome State Fault Refusal :=
  .next (whenOnline discardFrame s)

/-- CLAIM_RECEIVED (R157); an amount of 0 is outside its range (R137, R145). -/
def execClaimReceived (src : Station) (pool : Pool) (amount : Byte) (s : State) : Host.Outcome State Fault Refusal :=
  .next (whenOnline (if amount = 0 then discardFrame else receive src (thenTell (judgePeer src pool amount.toNat))) s)

/-- ADJUST_RECEIVED (R164); an amount of 0 is outside its range. -/
def execAdjustReceived (src : Station) (pool : Pool) (amount : Byte) (s : State) : Host.Outcome State Fault Refusal :=
  .next (whenOnline (if amount = 0 then discardFrame else receive src (takeAdjust src pool amount.toNat)) s)

/-- RELEASE_RECEIVED (R165). -/
def execReleaseReceived (src : Station) (pool : Pool) (s : State) : Host.Outcome State Fault Refusal :=
  .next (whenOnline (receive src (thenTell (releasePeer src pool))) s)

/-- WAIT_RECEIVED (R165); an amount of 0 is outside its range. -/
def execWaitReceived (src : Station) (pool : Pool) (amount count : Byte) (s : State) :
    Host.Outcome State Fault Refusal :=
  .next (whenOnline (if amount = 0 then discardFrame else receive src (thenTell (waitPeer src pool amount.toNat count.toNat))) s)

/-- BEACON_RECEIVED (R148); contents out of range are discarded (R137, R145). -/
def execBeaconReceived (src : Station) (contents : Beacon) (s : State) : Host.Outcome State Fault Refusal :=
  .next (whenOnline (if contents.mode.toNat ≤ 2 && contents.interval.toNat ≤ 18 && contents.jobs.toNat ≤ 24 &&
    contents.bays.toNat ≤ 7 then receive src (thenTell (beaconPeer src contents)) else discardFrame) s)

/-- BEACON_TIMER_EXPIRY (R142, R146, R160). -/
def execBeaconTimerExpiry (s : State) : Host.Outcome State Fault Refusal := .next (whenOnline beaconExpiry s)

/-- ROSTER_AGE_OUT (R147). -/
def execRosterAgeOut (station : Station) (s : State) : Host.Outcome State Fault Refusal :=
  .next (whenOnline (ageOut station) s)

/-- A claim wait reaches 30 s: BUDGET_WAIT is set and the timer stops (R161). -/
def waitExpires (p : Pool) (s : State) : State :=
  if (s.agent p).timer.isSome then setFlag .budgetWait (s.mapAgent p fun g => { g with timer := none }) else s

/-- WAIT_TIMER_EXPIRY (R161). -/
def execWaitTimerExpiry (pool : Pool) (s : State) : Host.Outcome State Fault Refusal :=
  .next (whenOnline (waitExpires pool) s)

end Sys2Proof.Machine
end

