-- ==== Sys2Proof/Machine/MonitorCommands.lean ====
section
/-! DEFINITION. The meanings of the fault monitor's commands: KEEPALIVE_EXPIRY, EMERGENCY_STOP, ESTOP_INPUT_RELEASED,
CABINET_DOOR_OPEN, CABINET_DOOR_CLOSE (R175, R176, R178, R180). -/

namespace Sys2Proof.Machine

/-- The keepalive timer has run out: KEEPALIVE_LOST and SAFE are set, and a standing call is withdrawn (R180). A timer that
is stopped or was restarted meanwhile does not expire (R181). -/
def keepaliveLost (s : State) : State :=
  if s.mon.keepalive = some 0 then
    withdrawStandingCall (setFlag .keepaliveLost (s.mapMon fun m => { m with keepalive := none, safe := true }))
  else s

/-- KEEPALIVE_EXPIRY (R180). -/
def execKeepaliveExpiry (s : State) : Host.Outcome State Fault Refusal := .next (whenOnline keepaliveLost s)

/-- EMERGENCY_STOP (R175): applied unless ESTOP already stands; OFFLINE records the level only. -/
def execEmergencyStop (s : State) : Host.Outcome State Fault Refusal :=
  .next (whenSensed (State.mapInputs fun i => { i with estop := true })
    (fun t => if t.mon.estop then t else applyEstop t) s)

/-- ESTOP_INPUT_RELEASED (R176): only the recorded level changes. -/
def execEstopInputReleased (s : State) : Host.Outcome State Fault Refusal :=
  .next (whenSensed (State.mapInputs fun i => { i with estop := false }) id s)

/-- CABINET_DOOR_OPEN (R178): the pump pauses (R57), and the running stirs are held (R38) while the door is open. -/
def execCabinetDoorOpen (s : State) : Host.Outcome State Fault Refusal :=
  .next (whenSensed (State.mapInputs fun i => { i with doorOpen := true }) (setPaused true) s)

/-- The held stirs run on with a full speed check (R38). -/
def restartChecks (s : State) : State :=
  s.mapStir fun m => { m with runs := m.runs.map fun r => { r with check := some Config.stirCheckMs, slow := 0 } }

/-- CABINET_DOOR_CLOSE (R178): the pump goes on (R57), the held stirs resume (R38). -/
def execCabinetDoorClose (s : State) : Host.Outcome State Fault Refusal :=
  .next (whenSensed (State.mapInputs fun i => { i with doorOpen := false }) (fun t => restartChecks (setPaused false t)) s)

end Sys2Proof.Machine
end

