-- ==== Sys2Proof/Machine/Formats.lean ====
section
/-! DEFINITION. The layouts of responses and records (13_formats.md). Untabulated layouts follow R204: each field in the
order of its rule, in the fewest whole bytes of its range (log 11). -/

namespace Sys2Proof.Machine

/-! ## The carrying rules -/

/-- One byte. -/
def byte1 (n : Nat) : List Byte := bytesOf 1 n

/-- A fact, 1 when it holds (R204; log 11); the fresh-reading mark and the lids in the magazine are sent so too (log 77). -/
def factByte (b : Bool) : List Byte := [markByte b]

/-- A mark or level whose rule names its standing value first: 0 while it stands, 1 otherwise (R204; log 11). -/
def firstNamed (b : Bool) : List Byte := [choiceByte (!b)]

/-- An optional number of `w` bytes behind its presence byte. -/
def optNat (w : Nat) : Option Nat → List Byte := optionBytes w (bytesOf w)

/-- An optional signed number of 4 bytes behind its presence byte. -/
def optInt : Option Int → List Byte := optionBytes 4 (signedBytesOf 4)

/-- A timer of the part in whole seconds, `w` bytes, behind its presence byte (log 12). -/
def optSeconds (w : Nat) (t : Option Nat) : List Byte := optNat w (t.map wholeSeconds)

/-- A bit of a mark byte. -/
def bitIf (b : Bool) (n : Nat) : Nat := if b then 2 ^ n else 0

/-! ## The completion record (R209) -/

/-- A line entry, 34 bytes. -/
def lineBytes (l : LineEntry) : List Byte :=
  let p := l.plan
  let e := p.bind (·.tol)
  byte1 (Slot.number l.slot) ++ byte1 l.st.code ++ byte1 l.st.reasonCode ++
  byte1 ((l.verdict.map LineVerdict.code).getD 0) ++
  byte1 (bitIf p.isSome 0 + bitIf e.isSome 1 + bitIf l.gain.isSome 2 + bitIf l.verdict.isSome 3) ++ byte1 l.topUps ++
  bytesOf 2 ((p.map (·.code)).getD 0) ++ bytesOf 2 l.amount ++ bytesOf 4 l.plannedV ++
  bytesOf 4 ((p.map (·.steps)).getD 0) ++ bytesOf 4 ((p.map (·.mExp)).getD 0) ++ bytesOf 4 (e.getD 0) ++
  bytesOf 4 l.delivered ++ signedBytesOf 4 (l.gain.getD 0)

/-- The notes: fault kind codes in the order met, unused bytes 0. -/
def noteBytes (notes : List FaultKind) : List Byte := ((notes.map fun k : FaultKind => BitVec.ofNat 8 k.code) ++ [0, 0, 0, 0]).take 4

/-- A tin record, 29 bytes and 34 for each line entry (R209). Shake seconds past 65,535 are sent as their low 16 bits: the
model's choice (log 81). -/
def recordBytes (t : TinRecord) : List Byte :=
  bytesOf 2 t.jobId ++ bytesOf 4 t.orderRef ++ byte1 t.index ++ byte1 t.size.val ++ bytesOf 2 t.shakeTime ++
  byte1 (shakeClassCode t.shakeClass) ++ byte1 ((t.verdict.map Verdict.code).getD 0) ++
  byte1 (bitIf t.tare.isSome 0 + bitIf t.lid.isSome 1 + bitIf t.shake.isSome 2 + bitIf t.lost 3 + bitIf t.cancelled 4 +
    bitIf t.verdict.isSome 5) ++
  signedBytesOf 4 (t.tare.getD 0) ++ bytesOf 2 ((t.lid.map (·.seatTime)).getD 0) ++
  byte1 ((t.lid.map fun r => if r.fault.isSome then 1 else 0).getD 0) ++
  byte1 (((t.lid.bind (·.fault)).map FaultKind.code).getD 0) ++ bytesOf 2 ((t.shake.map (·.seconds)).getD 0) ++
  byte1 ((t.shake.map (·.restarts)).getD 0) ++ noteBytes t.notes ++ byte1 t.lines.length ++
  (t.lines.map lineBytes).flatten

/-- A tin record where one may be absent. -/
def optRecord : Option TinRecord → List Byte := optionBytes 29 recordBytes

/-! ## CAN_QUERY (R30, R210) -/

/-- The kind of stir request pending for a canister. -/
def stirRequestCode (s : State) (i : Slot) : Nat :=
  if s.preRequested i then 2 else if periodic s i then 1 else 0

/-- The seconds of a stir's run remaining (log 12). -/
def stirRemaining (s : State) (i : Slot) : Nat :=
  match s.stirRun? i with
  | some r => if s.stirring i then wholeSeconds r.left else 0
  | none => 0

/-- The answer of CAN_QUERY, 38 bytes. -/
def canisterBytes (s : State) (i : Slot) : List Byte :=
  let c := s.can i
  byte1 (Slot.number i) ++ byte1 c.state.code ++ byte1 c.activity.code ++ bytesOf 2 c.code ++ bytesOf 2 c.density ++ bytesOf 2 c.k ++
  bytesOf 4 c.level ++ factByte (isLow s i) ++ bytesOf 2 c.piston ++ byte1 c.snuff ++ bytesOf 2 c.age ++ byte1 c.miss ++
  byte1 ((c.reason.map CanFault.code).getD 0) ++ byte1 (stirRequestCode s i) ++ byte1 (stirRemaining s i) ++
  writeFields canFields (canStaticValues (s.canStatic i))

/-! ## QUERY_BAYS (R188) -/

/-- The fault monitor's part (R170). -/
def monitorBytes (s : State) : List Byte :=
  byte1 (modeCode s.mon.mode) ++ firstNamed s.mon.safe ++
  byte1 (bitIf s.mon.config 0 + bitIf s.mon.barred 1 + bitIf s.mon.estop 2) ++
  optNat 1 (s.mon.faultD.map FaultKind.code) ++ optNat 1 (s.mon.faultL.map FaultKind.code) ++
  optNat 1 (s.mon.faultS.map FaultKind.code) ++ byte1 (stopScopeCode s.cfg.general.scope) ++ factByte s.stationStop ++
  firstNamed s.inputs.estop ++ firstNamed s.inputs.doorOpen ++ firstNamed s.inputs.guardOpen ++
  optSeconds 1 s.mon.keepalive

/-- One entry of the results of a pass (R99). -/
def resultBytes (r : CalResult) : List Byte := bytesOf 3 r.steps ++ signedBytesOf 4 r.gain ++ bytesOf 2 r.ki

/-- The calibration record (R99). -/
def calBytes (c : CalRecord) : List Byte :=
  byte1 (Slot.number c.slot) ++ byte1 (c.tests.map fun t => 2 ^ t.val).sum ++ bytesOf 2 c.kp ++ bytesOf 2 c.density ++
  byte1 c.primeTry ++ byte1 c.pass ++ optNat 1 (c.test.map fun t => t.val + 1) ++ optInt c.before ++
  byte1 c.results.length ++ (c.results.map resultBytes).flatten

/-- The last-result record (R99). -/
def lastBytes (r : LastResult) : List Byte :=
  byte1 (Slot.number r.slot) ++ byte1 r.outcome.code ++ byte1 r.passes ++ optNat 2 r.newK ++ byte1 r.ks.length ++
  (r.ks.map (bytesOf 2)).flatten

/-- The pump drive's operation: slot, kind and counted steps while it is busy (R49). -/
def opBytes (o : PumpOp) : List Byte := byte1 (Slot.number o.slot) ++ byte1 o.kind.code ++ bytesOf 4 o.counted

/-- The dispense bay's part (R76, R99, R49). The active line is numbered from 1; the latched fault stands in the monitor's
part (log 69); the fresh-reading mark is 1 when set (log 77). The step is sent as the bay holds it, in FAULT also when no
line is ACTIVE any more: the model's choice (log 82). -/
def dispenseBytes (s : State) : List Byte :=
  byte1 s.disp.st.code ++ optNat 1 (s.disp.resume.map DispState.code) ++
  optNat 1 ((activeLine s).map fun p => p.1 + 1) ++ optNat 1 (s.disp.step.map LineStep.code) ++ factByte s.disp.quiet ++
  factByte s.disp.fresh ++ optRecord s.disp.tin ++ optionBytes 16 calBytes s.disp.cal ++
  optionBytes 7 lastBytes s.disp.last ++ optionBytes 6 opBytes s.pump.op

/-- The scale monitor's part (R74). The blank timer is 0 when the scale is not blanked (R61). -/
def scaleBytes (s : State) : List Byte :=
  optionBytes 5 (fun x : Sample => signedBytesOf 4 x.value ++ factByte x.saturated) s.scale.last ++
  optInt s.scale.latest ++ signedBytesOf 3 s.scale.zero ++ byte1 s.scale.window.length ++ bytesOf 2 (s.scale.blank.getD 0) ++
  optNat 2 s.scale.request ++ byte1 (if s.scale.above then 1 else 0)

/-- The carriage's part (R112). -/
def carriageBytes (s : State) : List Byte :=
  byte1 s.carriage.st.code ++ optNat 1 (s.carriage.move.map Move.code) ++ optNat 2 (s.carriage.tin.map (·.jobId)) ++
  optNat 1 (s.carriage.tin.map (·.index)) ++ optSeconds 1 s.carriage.deferral ++ optNat 2 s.carriage.timer ++
  optRecord s.carriage.tin

/-- The lid bay's part (R119); the magazine sensor is 1 for lids present (log 77). -/
def lidBytes (s : State) : List Byte :=
  byte1 s.lid.st.code ++ optNat 1 (s.lid.resume.map LidState.code) ++ optNat 1 (s.mon.faultL.map FaultKind.code) ++
  optNat 1 s.lid.declared ++ factByte s.inputs.magazine ++ byte1 s.air.st.code ++ optNat 2 s.lid.seat ++
  optNat 2 s.lid.home ++ optSeconds 1 s.lid.deferral ++ optRecord s.lid.tin

/-- The shake bay's part (R127). -/
def shakeBytes (s : State) : List Byte :=
  byte1 s.shake.st.code ++ optNat 1 (s.shake.resume.map ShakeState.code) ++ optNat 1 (s.mon.faultS.map FaultKind.code) ++
  byte1 s.power.st.code ++ optNat 3 s.shake.lastSpeed ++ optSeconds 1 s.shake.clamp ++ optSeconds 1 s.shake.spin ++
  optSeconds 2 s.shake.run ++ optSeconds 1 s.shake.deferral ++ optRecord s.shake.tin

/-- A claim agent (R152). -/
def agentBytes (a : Agent) : List Byte :=
  byte1 a.st.code ++ optNat 1 a.asked ++ byte1 a.announced ++ byte1 a.count ++ optSeconds 1 a.timer ++ firstNamed a.standing

/-- The snapshot of QUERY_BAYS (R188). -/
def baysBytes (s : State) : List Byte :=
  monitorBytes s ++ dispenseBytes s ++ scaleBytes s ++ carriageBytes s ++ lidBytes s ++ shakeBytes s ++
  agentBytes s.power ++ agentBytes s.air ++ byte1 s.line.st.code ++ byte1 s.completion.length

/-! ## PEERS, events, stored parts -/

/-- A wait of a roster entry. -/
def waitField : Option PoolWait → List Byte := optionBytes 2 fun w => byte1 w.amount ++ byte1 w.count

/-- A roster entry (R147). -/
def entryBytes (e : RosterEntry) : List Byte :=
  firstNamed e.present ++ bytesOf 2 e.age ++ byte1 e.heldPower ++ byte1 e.heldAir ++ waitField e.waitPower ++
  waitField e.waitAir ++
  optionBytes 4 (fun b : Summary => byte1 b.mode ++ byte1 b.interval ++ byte1 b.jobs ++ byte1 b.bays) e.summary ++
  firstNamed e.mismatch

/-- The answer of PEERS (R150); this station's own entry is given with its reset values. -/
def peersBytes (s : State) : List Byte :=
  byte1 s.cfg.ident.number.val ++ byte1 (lineModeCode s.cfg.ident.lineMode) ++ byte1 s.line.st.code ++
  byte1 s.line.drops ++ byte1 s.line.queue.length ++
  (stations.map fun i => entryBytes (if i = s.cfg.ident.number then RosterEntry.reset else s.roster[i])).flatten

/-- The flags, the first in bit 0 (R204). -/
def flagBytes (f : BitVec 15) : List Byte := bytesOf 2 f.toNat

/-- The answer of EVENTS (R192). -/
def eventsBytes (s : State) : List Byte :=
  flagBytes s.events.flags ++ flagBytes s.events.enables ++ firstNamed (attention s)

/-- A load report: its code, and the part and the position of RANGE (R198; log 10). -/
def reportBytes (r : LoadReport) : List Byte :=
  byte1 r.code ++
  match r with
  | .range part position => optNat 1 (some part) ++ optNat 1 (some position)
  | .clean => optNat 1 none ++ optNat 1 none
  | .corrected => optNat 1 none ++ optNat 1 none
  | .uncorrectable => optNat 1 none ++ optNat 1 none
  | .draw => optNat 1 none ++ optNat 1 none

/-! ## The envelope (R206) -/

/-- The status byte: OVERRUN in bit 7, the code below it. -/
def statusByte (r : Response) : Byte := r.status.code ||| (if r.overrun then 0x80 else 0)

/-- A response as its bytes go out on the port. -/
def Response.bytes (r : Response) : List Byte :=
  let body := [0x7E] ++ bytesOf 2 (r.payload.length + 1) ++ [r.kind ||| 0x80] ++ [statusByte r] ++ r.payload
  body ++ crcBytes body

end Sys2Proof.Machine
end

