-- ==== Sys2Proof/Machine/JobRequests.lean ====
section
/-! DEFINITION. The requests on the job queue and the completion queue: SUBMIT, CANCEL, SETPRIO, QUERY_JOB, TAKE_RECORD
(R2 to R16, R195), after the common checks. -/

namespace Sys2Proof.Machine

/-- What an owner makes of a request: the status, the payload of the response, the state after (R186). -/
structure Answer where
  status : Status
  payload : List Byte
  after : State

/-- A refusal changes nothing and carries no payload (R186, R187). -/
def refuse (st : Status) (s : State) : Answer := { status := st, payload := [], after := s }

/-- Accepted, or answered with what was asked for. -/
def accept (payload : List Byte) (s : State) : Answer := { status := .ok, payload := payload, after := s }

/-! ## SUBMIT (R2 to R7) -/

/-- One line of a SUBMIT in range. -/
def submitLine (l : Byte × Word16) : Option FormulaLine :=
  match slotOf l.1 with
  | none => none
  | some i => if 1 ≤ l.2.toNat && l.2.toNat ≤ 60000 then some { slot := i, amount := l.2.toNat } else none

/-- Every line in range, in order. -/
def submitLinesOf : List (Byte × Word16) → Option (List FormulaLine)
  | [] => some []
  | l :: ls =>
    match submitLine l, submitLinesOf ls with
    | some f, some fs => some (f :: fs)
    | _, _ => none

/-- No slot appears in two lines. -/
def distinctSlots : List FormulaLine → Bool
  | [] => true
  | l :: ls => !(ls.any fun m => m.slot = l.slot) && distinctSlots ls

/-- The shake class a byte codes (R208). -/
def shakeClassOf (b : Byte) : Option ShakeClass := if b = 0 then some .normal else if b = 1 then some .gentle else none

/-- The ranges of R2's check (2) that concern single fields. -/
def submitRanges (f : SubmitFields) : Bool :=
  1 ≤ f.count.toNat && f.count.toNat ≤ 40 && f.priority.toNat ≤ 3 &&
  (f.shakeTime = 0 || (30 ≤ f.shakeTime.toNat && f.shakeTime.toNat ≤ 300)) &&
  1 ≤ f.lineCount.toNat && f.lineCount.toNat ≤ 12 && f.lineCount.toNat = f.lines.length

/-- Check (2) of R2: the job a SUBMIT's fields describe, its identity still to be given; none when a field is out of
range. -/
def submitJob (s : State) (f : SubmitFields) : Option Job :=
  if h : f.size.toNat < 8 then
    match shakeClassOf f.shakeClass, submitLinesOf f.lines with
    | some cls, some lines =>
      if submitRanges f && distinctSlots lines && (s.cfg.sizes[f.size.toNat]).enabled then
        some
          { id := 0, orderRef := f.orderRef.toNat, arrival := 0, size := ⟨f.size.toNat, h⟩, count := f.count.toNat
            issued := 0, priority := f.priority.toNat
            shakeTime := if f.shakeTime = 0 then none else some f.shakeTime.toNat
            shakeClass := cls, lines := lines }
      else none
    | _, _ => none
  else none

/-- Check (3) of R2: a line names a canister that is ABSENT or UNCALIBRATED. -/
def missingCanister (s : State) (j : Job) : Bool :=
  j.lines.any fun l => (s.can l.slot).state = .absent || (s.can l.slot).state = .uncalibrated

/-- The volumes of a job's lines for one tin (R3). -/
def jobVolume (s : State) (j : Job) : Nat := (j.lines.map fun l => plannedVolume l.amount (s.cfg.sizes[j.size]).fill).sum

/-- Check (4) of R2: the volumes overfill the tin (R3). -/
def overfills (s : State) (j : Job) : Bool := (s.cfg.sizes[j.size]).headroom * 100 < jobVolume s j

/-- A line's canister cannot cover the batch above its reserve (R4). -/
def shortLine (s : State) (j : Job) (l : FormulaLine) : Bool :=
  let v := plannedVolume l.amount (s.cfg.sizes[j.size]).fill
  (s.can l.slot).level - (s.canStatic l.slot).reserve < j.count * finalVolume v (s.canStatic l.slot).minShot

/-- The short set, slot 1 in bit 0 (R4, R208). -/
def shortSet (s : State) (j : Job) : Nat :=
  ((j.lines.filter (shortLine s j)).map fun l => 2 ^ l.slot.val).sum

/-- The job with the identity and the arrival sequence the queue gives it (R6, R7). -/
def identified (s : State) (j : Job) : Job :=
  { j with id := freeId s 64 s.jobs.nextId, arrival := s.jobs.nextArrival }

/-- The queue after the job has joined it (R4, R6, R7). -/
def enqueue (j : Job) (q : JobQueue) : JobQueue :=
  stepArrival { q with records := insertJob j q.records, nextId := nextCandidate j.id }

/-- SUBMIT (R2, R4). -/
def ownSubmit (f : SubmitFields) (s : State) : Answer :=
  match submitJob s f with
  | none => refuse .badField s
  | some j0 =>
    if missingCanister s j0 then refuse .noCanister s
    else if overfills s j0 then refuse .overfill s
    else if Config.jobPlaces ≤ s.jobs.places then refuse .full s
    else
      let j := identified s j0
      let s1 := s.mapJobs (enqueue j)
      let short := shortSet s j
      { status := if short = 0 then .ok else .okShort
        payload := bytesOf 2 j.id ++ bytesOf 1 (s1.jobs.position j.id) ++ bytesOf 2 short
        after := s1 }

/-! ## CANCEL (R12 to R15) -/

/-- The job id is found where R12 looks. -/
def jobKnown (s : State) (id : Nat) : Bool :=
  s.jobs.records.any (·.id == id) || s.jobs.reserved.any (·.id == id) || holdsJob id s.disp.tin ||
  holdsJob id s.carriage.tin || holdsJob id s.lid.tin || holdsJob id s.shake.tin

/-- The tins of a job not yet issued (R13). -/
def unissued (q : JobQueue) (id : Nat) : Nat :=
  match q.record? id with
  | some j => j.count - j.issued
  | none => 0

/-- The job's record or reserved place leaves the queue (R13). -/
def removeJob (id : Nat) (q : JobQueue) : JobQueue :=
  { q with records := q.records.filter (·.id != id), reserved := q.reserved.filter (·.id != id) }

/-- The effect of a CANCEL on the dispense bay (R15). -/
inductive CancelEffect where
  | none | callWithdrawn | tinCancelled
  deriving DecidableEq, Repr

def CancelEffect.code : CancelEffect → Nat
  | .none => 0
  | .callWithdrawn => 1
  | .tinCancelled => 2

/-- R14's table, for a tin of this job in the bay. -/
def cancelEffect (s : State) (t : TinRecord) : CancelEffect :=
  match s.disp.st with
  | .called => .callWithdrawn
  | .wrongTin => .callWithdrawn
  | .tare => .tinCancelled
  | .dispensing => if t.shotGiven then .none else .tinCancelled
  | .waiting => if t.shotGiven then .none else .tinCancelled
  | .done => if t.shotGiven then .none else .tinCancelled
  | .fault => if s.disp.resume = some .outbound || t.shotGiven || t.cancelled then .none else .tinCancelled
  | .stopped => if s.disp.resume = some .outbound || t.shotGiven || t.cancelled then .none else .tinCancelled
  | _ => .none

/-- The cancelled mark is set in a held bay, and its call, if one still stands, is no longer wanted (R14, R190; log 25). A
removal noted before was not that of a cancelled tin (R94) and is forgotten, so that an object set down since is waited for
in CANCELLED (R96). -/
def markCancelled (s : State) : State :=
  clearFlag .tinWanted ((s.mapTin .dispense fun t => { t with cancelled := true }).mapDisp fun d => { d with removed := false })

/-- The tin goes to CANCELLED; a line that had not reached its debit is PENDING again (R14, R96). -/
def cancelTin (s : State) : State :=
  if s.disp.st = .fault || s.disp.st = .stopped then markCancelled s
  else clearFlag .tinWanted (enterCancelled (loseLine s))

/-- R14 carried out. -/
def cancelInBay (e : CancelEffect) (s : State) : State :=
  match e with
  | .none => s
  | .callWithdrawn => if s.disp.st = .called then withdrawCall s else withdrawTin s
  | .tinCancelled => cancelTin s

/-- A tin of the job goes on to a GOOD or HOLD record (R15). -/
def carriesOn (s : State) (id : Nat) : Bool :=
  (match s.disp.tin with
   | some t => t.jobId == id && t.shotGiven
   | none => false) ||
  holdsJob id s.carriage.tin || holdsJob id s.lid.tin || holdsJob id s.shake.tin

/-- What R14 says of the tin in the bay, if it is of this job. -/
def effectOn (s : State) (id : Nat) : CancelEffect :=
  match s.disp.tin with
  | some t => if t.jobId == id then cancelEffect s t else .none
  | none => .none

/-- CANCEL (R12 to R15). -/
def ownCancel (job : Word16) (s : State) : Answer :=
  let id := job.toNat
  if jobKnown s id then
    let e := effectOn s id
    let dropped := unissued s.jobs id + (if e = .callWithdrawn then 1 else 0)
    let s1 := cancelInBay e (s.mapJobs (removeJob id))
    { status := if carriesOn s1 id then .inProgress else .ok
      payload := byte1 dropped ++ byte1 e.code
      after := s1 }
  else refuse .noSuchJob s

/-! ## SETPRIO, QUERY_JOB (R9, R16) -/

/-- The queue with a job's priority changed and its record moved to its place (R8, R9). -/
def reprioritise (id p : Nat) (q : JobQueue) : JobQueue :=
  let reserved := q.reserved.map fun j => if j.id == id then { j with priority := p } else j
  match q.record? id with
  | some j => { q with records := insertJob { j with priority := p } (q.records.filter (·.id != id)), reserved := reserved }
  | none => { q with reserved := reserved }

/-- SETPRIO (R9). -/
def ownSetPrio (job : Word16) (priority : Byte) (s : State) : Answer :=
  let id := job.toNat
  if 3 < priority.toNat then refuse .badField s
  else if s.jobs.records.any (·.id == id) || s.jobs.reserved.any (·.id == id) then
    let s1 := s.mapJobs (reprioritise id priority.toNat)
    accept (byte1 (s1.jobs.position id)) s1
  else refuse .noSuchJob s

/-- The tin index of the job's tin in one place. -/
def indexOf (id : Nat) : Option TinRecord → Option Nat
  | some t => if t.jobId == id then some t.index else none
  | none => none

/-- A tin record of the job on the station. -/
def someTin (s : State) (id : Nat) : Option TinRecord :=
  [s.disp.tin, s.carriage.tin, s.lid.tin, s.shake.tin].findSome? fun t =>
    match t with
    | some r => if r.jobId == id then some r else none
    | none => none

/-- Order reference, size code and tin count of a job: from its record or reserved place, else from one of its tins
(R16; log 22). -/
def jobFacts (s : State) (id : Nat) : List Byte :=
  match s.jobs.record? id, s.jobs.reserved? id, someTin s id with
  | some j, _, _ =>
    bytesOf 4 j.orderRef ++ byte1 j.size.val ++ byte1 j.count ++ optNat 1 (some j.priority) ++ optNat 1 (some j.issued)
  | none, some j, _ =>
    bytesOf 4 j.orderRef ++ byte1 j.size.val ++ byte1 j.count ++ optNat 1 (some j.priority) ++ optNat 1 (some j.issued)
  | none, none, some t =>
    bytesOf 4 t.orderRef ++ byte1 t.size.val ++ byte1 t.batch ++ optNat 1 none ++ optNat 1 none
  | none, none, none => []

/-- QUERY_JOB (R16). -/
def ownQueryJob (job : Word16) (s : State) : Answer :=
  let id := job.toNat
  if jobKnown s id then
    accept (jobFacts s id ++ byte1 (s.jobs.position id) ++ optNat 1 (indexOf id s.disp.tin) ++
      optNat 1 (indexOf id s.carriage.tin) ++ optNat 1 (indexOf id s.lid.tin) ++ optNat 1 (indexOf id s.shake.tin)) s
  else refuse .noSuchJob s

/-! ## TAKE_RECORD (R195) -/

/-- TAKE_RECORD: the oldest record is removed and answered with the count left, then a waiting record joins. -/
def ownTakeRecord (s : State) : Answer :=
  match s.completion with
  | [] => refuse .empty s
  | r :: rs =>
    let s1 := drain (s.mapCompletion fun _ => rs)
    accept (byte1 rs.length ++ recordBytes r) (if s1.completion.isEmpty then clearFlag .completionReady s1 else s1)

end Sys2Proof.Machine
end

