-- ==== Sys2Proof/Machine/CanisterRequests.lean ====
section
/-! DEFINITION. The requests on the canister table and on calibration: CAN_LOAD, CAN_LEVEL, CAN_QUERY, CAN_CLEAR,
CALIBRATE, CAL_ABORT (R22, R23, R30, R31, R100, R101, R109), after the common checks. -/

namespace Sys2Proof.Machine

/-- The fields of a CAN_LOAD in range (R22). -/
def loadInRange (f : CanLoadFields) : Bool :=
  800 ≤ f.density.toNat && f.density.toNat ≤ 2500 &&
  (f.k = 0 || (Config.minK ≤ f.k.toNat && f.k.toNat ≤ Config.maxK)) && f.level.toNat ≤ Config.levelLimit

/-- The state after an accepted CAN_LOAD (R20). -/
def loadedState (st : CanState) (k : Nat) : CanState :=
  match st with
  | .absent => if k = 0 then .uncalibrated else .ready
  | .uncalibrated => if k = 0 then .uncalibrated else .ready
  | .ready => if k = 0 then .uncalibrated else .ready
  | .calibrating => .calibrating
  | .faulted => .faulted

/-- CAN_LOAD (R22). -/
def ownCanLoad (f : CanLoadFields) (s : State) : Answer :=
  match slotOf f.slot with
  | none => refuse .badField s
  | some i =>
    if !loadInRange f then refuse .badField s
    else if (s.can i).activity = .pumping || (s.can i).activity = .refilling || (s.can i).state = .calibrating then
      refuse .busy s
    else
      let s1 := s.mapCan i fun c =>
        { c with code := f.code.toNat, density := f.density.toNat, k := f.k.toNat, state := loadedState c.state f.k.toNat }
      accept [] (reportCanister i (setLevel i f.level.toNat s1))

/-- CAN_LEVEL (R23). -/
def ownCanLevel (slot : Byte) (level : Word32) (s : State) : Answer :=
  match slotOf slot with
  | none => refuse .badField s
  | some i =>
    if Config.levelLimit < level.toNat then refuse .badField s
    else if (s.can i).state = .absent then refuse .noCanister s
    else if (s.can i).activity = .pumping then refuse .busy s
    else accept [] (reportCanister i (setLevel i level.toNat s))

/-- CAN_QUERY (R30). -/
def ownCanQuery (slot : Byte) (s : State) : Answer :=
  match slotOf slot with
  | none => refuse .badField s
  | some i => accept (canisterBytes s i) s

/-- What CAN_CLEAR makes of a canister (R31). -/
def clearedCanister (c : Canister) : Canister :=
  match c.state with
  | .faulted => { c with miss := 0, reason := none, state := if 0 < c.k then .ready else .uncalibrated }
  | .absent => { c with miss := 0 }
  | .uncalibrated => { c with miss := 0 }
  | .ready => { c with miss := 0 }
  | .calibrating => { c with miss := 0 }

/-- CAN_CLEAR (R31). -/
def ownCanClear (slot : Byte) (s : State) : Answer :=
  match slotOf slot with
  | none => refuse .badField s
  | some i =>
    if (s.can i).state = .absent then refuse .noCanister s
    else if (s.can i).state = .calibrating then refuse .busy s
    else
      let s1 := s.mapCan i clearedCanister
      accept [] (if (s.can i).state = .faulted then reportCanister i s1 else s1)

/-- The tests a mask selects, in ascending number; test 1 is bit 0 (R99, R207). -/
def testsOf (mask : Nat) : List (Fin 4) := (List.finRange 4).filter fun t => mask.testBit t.val

/-- A mask selects at least one of the four tests and no other bit (R100). -/
def maskFits : Option Byte → Bool
  | none => true
  | some m => 1 ≤ m.toNat && m.toNat ≤ 15

/-- The calibration record opened at acceptance (R99, R101). -/
def newCal (s : State) (i : Slot) (mask : Option Byte) : CalRecord :=
  let c := s.can i
  { slot := i
    tests := testsOf ((mask.map BitVec.toNat).getD s.cfg.general.testMask)
    kp := if 0 < c.k then c.k else (s.canStatic i).nominalK
    density := c.density, primeTry := 0, pass := 0, test := none, before := none, results := [], stage := .cupWait
    steps := 0 }

/-- An accepted CALIBRATE (R101, R102). -/
def startCal (i : Slot) (mask : Option Byte) (s : State) : State :=
  let s1 := (s.mapDisp fun d =>
    { d with st := .calCup, resume := none, step := none, removed := false, cal := some (newCal s i mask), last := none }).mapCan
      i fun c => { c with state := .calibrating, reason := none }
  let s2 := if hasSettled s1 i then makePre i s1 else s1
  if s2.inputs.presDispense then weighCup s2 else s2

/-- CALIBRATE (R100). -/
def ownCalibrate (slot : Byte) (mask : Option Byte) (s : State) : Answer :=
  match slotOf slot with
  | none => refuse .badField s
  | some i =>
    if !maskFits mask then refuse .badField s
    else if s.mon.mode ≠ .maint then refuse .notPermitted s
    else if s.disp.st ≠ .empty then refuse .busy s
    else if (s.can i).state = .absent then refuse .noCanister s
    else accept [] (startCal i mask s)

/-- CAL_ABORT: a shot in flight is interrupted with its credit, and the calibration ends ABORTED (R109). -/
def ownCalAbort (s : State) : Answer :=
  if s.disp.st = .calCup || s.disp.st = .calPrime || s.disp.st = .calRate then accept [] (abortCal (interruptOp s))
  else refuse .notPermitted s

end Sys2Proof.Machine
end

