-- ==== Sys2Proof/Machine/StationRequests.lean ====
section
/-! DEFINITION. The requests on the lid bay, the event flags, the fault monitor, the line controller and the configuration
store, and RESET and PING (R120, R150, R169, R174, R176, R181, R188, R189, R192, R193, R199, R200), after the common
checks. -/

namespace Sys2Proof.Machine

/-- QUERY_BAYS (R188). -/
def ownQueryBays (s : State) : Answer := accept (baysBytes s) s

/-- LIDS (R120). -/
def ownLids (lidType : Byte) (s : State) : Answer :=
  if 15 < lidType.toNat then refuse .badField s
  else accept [] (lidRecheck (s.mapLid fun b => { b with declared := some lidType.toNat }))

/-! ## Event flags (R192, R193) -/

/-- EVENTS. -/
def ownEvents (s : State) : Answer := accept (eventsBytes s) s

/-- A set names a flag beyond the fifteen (R207: bit 15). -/
def beyondFlags (set : Word16) : Bool := set.getLsbD 15

/-- EVENT_ACK. -/
def ownEventAck (set : Word16) (s : State) : Answer :=
  if beyondFlags set then refuse .badField s
  else
    let s1 := s.mapEvents fun e => { e with flags := e.flags &&& ~~~(set.setWidth 15) }
    accept (flagBytes s1.events.flags) s1

/-- EVENT_MASK. -/
def ownEventMask (set : Word16) (s : State) : Answer :=
  if beyondFlags set then refuse .badField s
  else
    let s1 := s.mapEvents fun e => { e with enables := set.setWidth 15 }
    accept (flagBytes s1.events.flags ++ flagBytes s1.events.enables) s1

/-! ## The fault monitor (R169, R174, R176, R181) -/

/-- The mode a code asks for (R169, R207). -/
def modeOf (code : Byte) : Option Mode :=
  if code = 0 then some .pause else if code = 1 then some .run else if code = 2 then some .maint else none

/-- MODE (R169). -/
def ownMode (code : Byte) (s : State) : Answer :=
  match modeOf code with
  | none => refuse .badField s
  | some m =>
    if m = .run && s.mon.safe then refuse .notPermitted s
    else if m = s.mon.mode then accept [] s
    else if m = .maint && s.disp.st ≠ .empty && s.disp.st ≠ .called then refuse .busy s
    else accept (byte1 (modeCode m)) (withdrawStandingCall (s.mapMon fun q => { q with mode := m }))

/-- CLEAR_FAULT(station) (R176). -/
def ownClearStation (s : State) : Answer :=
  if s.mon.estop && s.inputs.estop then refuse .busy s else accept [] (clearStation s)

/-- CLEAR_FAULT (R174). -/
def ownClearFault (code : Byte) (s : State) : Answer :=
  if code = 0 then accept [] (clearBay .dispense s)
  else if code = 1 then accept [] (clearBay .lid s)
  else if code = 2 then accept [] (clearBay .shake s)
  else if code = 3 then ownClearStation s
  else refuse .badField s

/-- RESUME (R181). -/
def ownResume (s : State) : Answer := accept [] (s.mapMon fun m => { m with safe := false })

/-- PEERS (R150). -/
def ownPeers (s : State) : Answer := accept (peersBytes s) s

/-! ## The configuration store (R199, R200) -/

/-- The stored sector, contents and check code. -/
def Store.sector (c : Store) : SectorId → List Byte
  | .identity => c.identBytes
  | .station => c.stationBytes

def Store.setSector (c : Store) : SectorId → List Byte → Store
  | .identity, b => { c with identBytes := b }
  | .station, b => { c with stationBytes := b }

def Store.report (c : Store) : SectorId → LoadReport
  | .identity => c.identReport
  | .station => c.stationReport

def Store.lastWrite (c : Store) : SectorId → WriteResult
  | .identity => c.identLast
  | .station => c.stationLast

def Store.setLastWrite (c : Store) : SectorId → WriteResult → Store
  | .identity, r => { c with identLast := r }
  | .station, r => { c with stationLast := r }

/-- The store is writing this sector. -/
def Store.writingSector (c : Store) (x : SectorId) : Bool :=
  match c.write with
  | some w => w.part.sector = x
  | none => false

/-- NV_READ (R199). -/
def ownNvRead (sector part : Byte) (s : State) : Answer :=
  match PartId.ofBytes sector part with
  | none => refuse .badField s
  | some p =>
    if s.store.writingSector p.sector then refuse .busy s
    else
      accept
        (reportBytes (s.store.report p.sector) ++ byte1 (s.store.lastWrite p.sector).code ++ factByte s.store.strapMark ++
          partBytes p (judgeCode (s.store.sector p.sector)).contents) s

/-- The contents a write builds on: the sector as it stands, a flipped bit corrected, or the default image when it is
uncorrectable (R200). -/
def writeBase (s : State) (x : SectorId) : List Byte :=
  match judgeCode (s.store.sector x) with
  | .clean c => c
  | .corrected c => c
  | .uncorrectable _ => defaultContents x

/-- NV_STORE (R200). -/
def ownNvStore (sector part : Byte) (image : List Byte) (s : State) : Answer :=
  match PartId.ofBytes sector part with
  | none => refuse .badField s
  | some p =>
    if image.length ≠ p.size then refuse .badField s
    else if s.mon.mode ≠ .maint && s.mon.mode ≠ .offline then refuse .notPermitted s
    else if p = .identity && !s.store.strapMark then refuse .notPermitted s
    else if s.store.write.isSome then refuse .busy s
    else if (firstWrong p image).isSome then refuse .badField s
    else
      accept [] (s.mapStore fun c =>
        { c with write := some { part := p, contents := replacePart p (writeBase s p.sector) image } })

/-! ## RESET and PING (R189) -/

/-- RESET is answered OK; the start follows its response. -/
def ownReset (s : State) : Answer := accept [] s

/-- PING returns its payload. -/
def ownPing (payload : List Byte) (s : State) : Answer :=
  if 16 < payload.length then refuse .badField s else accept payload s

end Sys2Proof.Machine
end

