-- ==== Sys2Proof/Machine/Port.lean ====
section
/-! DEFINITION. The station port (11_station_port_events_and_completion_records.md): the common checks and the owners,
taking and holding messages, the receiver. -/

namespace Sys2Proof.Machine

/-! ## Owners (R186, R187) -/

/-- The owner's answer to a request that has passed the OFFLINE check. -/
def ownerAnswer (r : Request) (s : State) : Answer :=
  match r with
  | .submit f => ownSubmit f s
  | .cancel job => ownCancel job s
  | .setPrio job p => ownSetPrio job p s
  | .queryJob job => ownQueryJob job s
  | .queryBays => ownQueryBays s
  | .takeRecord => ownTakeRecord s
  | .canLoad f => ownCanLoad f s
  | .canLevel slot level => ownCanLevel slot level s
  | .canQuery slot => ownCanQuery slot s
  | .canClear slot => ownCanClear slot s
  | .calibrate slot mask => ownCalibrate slot mask s
  | .calAbort => ownCalAbort s
  | .lids t => ownLids t s
  | .events => ownEvents s
  | .eventAck set => ownEventAck set s
  | .eventMask set => ownEventMask set s
  | .mode code => ownMode code s
  | .clearFault code => ownClearFault code s
  | .resume => ownResume s
  | .peers => ownPeers s
  | .nvRead sector part => ownNvRead sector part s
  | .nvStore sector part image => ownNvStore sector part image s
  | .reset => ownReset s
  | .ping payload => ownPing payload s

/-- The kind is refused in OFFLINE (R187, first common check). -/
def offlineRefused (kind : Byte) (s : State) : Bool := s.mon.mode = .offline && !servedOffline kind

/-- What a message that the port takes is answered with (R184, R187). -/
def answerMessage (m : Message) (s : State) : Answer :=
  match m with
  | .badFrame _ => refuse .badFrame s
  | .badKind _ => refuse .badKind s
  | .misfit k => if offlineRefused k s then refuse .notPermitted s else refuse .badField s
  | .request r => if offlineRefused (requestKind r) s then refuse .notPermitted s else ownerAnswer r s

/-- The kind byte a response returns. -/
def Message.kind : Message → Byte
  | .badFrame k => k
  | .badKind k => k
  | .misfit k => k
  | .request r => requestKind r

/-! ## Taking and holding (R184, R185) -/

/-- The port takes a message: its owner answers, and the response begins at once with the OVERRUN mark, which it clears
(R185, R186). -/
def takeMessage (m : Message) (s : State) : State :=
  let a := answerMessage m s
  a.after.mapPort fun p =>
    { p with
      answering := some { kind := m.kind, status := a.status, overrun := s.port.overrun, payload := a.payload }
      overrun := false }

/-- A valid request: its frame passed and its kind is known (R179, R184). -/
def Message.valid : Message → Bool
  | .badFrame _ => false
  | .badKind _ => false
  | .misfit _ => true
  | .request _ => true

/-- The keepalive timer is set to its period at a valid request, unless it is off or the station OFFLINE (R179). -/
def restartKeepalive (s : State) : State :=
  if s.cfg.general.keepalive = 0 || s.mon.mode = .offline then s
  else s.mapMon fun m => { m with keepalive := some (s.cfg.general.keepalive * 1000) }

/-- A complete message: discarded when one is already held, else judged, held or taken (R184, R185). -/
def messageArrives (m : Message) (s : State) : State :=
  if s.port.held.isSome then s.mapPort fun p => { p with overrun := true }
  else
    let s1 := if m.valid then restartKeepalive s else s
    if s.port.answering.isSome then s1.mapPort fun p => { p with held := some m } else takeMessage m s1

/-- A request arrives whole on the port (log 6). It does not pass through the receiver: whatever message the receiver is
assembling or ignoring, the request is judged all the same, and the receiver stays as it was, which is the model's choice. -/
def requestArrives (r : Request) (s : State) : State := messageArrives (.request r) s

/-! ## The receiver (R183, R206) -/

/-- A complete message's bytes judged (R184, steps 2 to 4, and the length check of R187). -/
def judgeBytes (bytes : List Byte) : Message :=
  let n := bytes.length
  let kind := byteAt bytes 3
  if crcBytes (bytes.take (n - 2)) ≠ bytes.drop (n - 2) then .badFrame kind
  else if !knownKind kind then .badKind kind
  else
    match requestOf kind ((bytes.take (n - 2)).drop 4) with
    | some r => .request r
    | none => .misfit kind

/-- The total size a message's length field announces. -/
def announcedSize (got : List Byte) : Nat := (wordAt got 1).toNat + 6

/-- One received byte (R183). -/
def receiveByte (b : Byte) (s : State) : State :=
  match s.port.receiver with
  | .ignoring => s
  | .hunting => if b = 0x7E then s.mapPort fun p => { p with receiver := .assembling [b] } else s
  | .assembling got =>
    let all := got ++ [b]
    if all.length = 3 && 300 < announcedSize all then s.mapPort fun p => { p with receiver := .ignoring }
    else if 6 ≤ all.length && all.length = announcedSize all then
      messageArrives (judgeBytes all) (s.mapPort fun p => { p with receiver := .hunting })
    else s.mapPort fun p => { p with receiver := .assembling all }

/-- Received bytes, in order. -/
def receiveBytes (bytes : List Byte) (s : State) : State := bytes.foldl (fun t b => receiveByte b t) s

/-- A gap of more than 20 ms: the receiver hunts again (R183). -/
def receiverGap (s : State) : State := s.mapPort fun p => { p with receiver := .hunting }

end Sys2Proof.Machine
end

