-- ==== Sys2Proof/Machine/Start.lean ====
section
/-! DEFINITION. Power, reset line, start-up and the end of a sector write (12_stored_configuration_and_start_up.md). -/

namespace Sys2Proof.Machine

/-! ## What is lost (R201) -/

/-- Every volatile block at its reset value; the sectors, the write under way, the inputs, the free-value counter and the
queue of commands stay. -/
def volatileReset (s : State) : State :=
  { s with
    cfg := Loaded.default
    port := Port.reset
    events := Events.reset
    jobs := JobQueue.reset
    cans := Vector.replicate 16 Canister.reset
    stir := StirManager.reset
    pump := PumpDrive.reset
    scale := Scale.reset
    disp := DispenseBay.reset
    carriage := Carriage.reset
    lid := LidBay.reset
    shake := ShakeBay.reset
    line := LineCtl.reset
    roster := Vector.replicate 16 RosterEntry.reset
    power := Agent.reset
    air := Agent.reset
    mon := Monitor.reset
    completion := [] }

/-- FREE VALUE (log 9). What a cut or failed write leaves of a sector: each byte is free; the draw counter advances. -/
def scramble (x : SectorId) (s : State) : State :=
  let n := (s.store.sector x).length
  (s.mapStore fun c => c.setSector x ((List.range n).map (Config.freeByte s.free))).mapFree (· + 1)

/-- A write under way is cut short (R201). -/
def cutWrite (s : State) : State :=
  match s.store.write with
  | none => s
  | some w => (scramble w.part.sector s).mapStore fun c => { c with write := none }

/-- The part goes down to a phase in which it does nothing, every output off. -/
def goDown (p : Phase) (s : State) : State := (volatileReset s).mapPhase fun _ => p

/-- The start after a RESET's response (R189, R201). While a write is under way the whole start waits: the port has ended,
and the other blocks go on (log 7). -/
def resetStart (s : State) : State :=
  if s.store.write.isSome then (s.mapPort fun _ => Port.reset).mapPhase fun _ => .awaitWrite else goDown .starting s

/-! ## The end of a write (R200) -/

/-- What a write leaves at its end in the store, by what its readback shows (R200). -/
def storeWritten (agrees : Bool) (w : WriteJob) (s : State) : State :=
  let x := w.part.sector
  let s1 := if agrees then s.mapStore fun c => c.setSector x (sealed w.contents) else scramble x s
  s1.mapStore fun c => { c.setLastWrite x (if agrees then .done else .failed) with write := none }

/-- A write and its readback end; a start that waited for it begins (R200, R201). -/
def endWrite (agrees : Bool) (s : State) : State :=
  match s.store.write with
  | none => s
  | some w =>
    if s.phase = .awaitWrite then goDown .starting (storeWritten agrees w s) else storeWritten agrees w s

/-! ## Start-up (R198, R201 to R203) -/

/-- A bay whose sensor is on at start goes to ORPHAN with ORPHAN_TIN (R203). -/
def placeDisp (s : State) : State :=
  if s.inputs.presDispense then setFlag .orphanTin (s.mapDisp fun b => { b with st := .orphan }) else s

def placeLid (s : State) : State :=
  if s.inputs.presLid then setFlag .orphanTin (s.mapLid fun b => { b with st := .orphan }) else s

/-- The shake bay opens a clamp found closed on an empty bay at once, unless the emergency stop is applied at start: it is
then opened when the stop has cleared (R203). -/
def placeShake (s : State) : State :=
  if s.inputs.presShake then setFlag .orphanTin (s.mapShake fun b => { b with st := .orphan })
  else if s.inputs.clampClosed && !s.inputs.estop then enterUnclamp s
  else s

/-- Load failed: OFFLINE with the station fault CONFIG and BAY_FAULT (R182, R202). -/
def startOffline (s : State) : State := setFlag .bayFault (s.mapMon fun m => { m with mode := .offline, config := true })

/-- Load passed: the line starts, the bays are placed, and an active emergency-stop input is applied (R142, R176, R201,
R203), with every effect of R175's table, the blanking trigger and both agents' release orders among them (log 73). -/
def startOnline (s : State) : State :=
  let s1 := placeShake (placeLid (placeDisp (startLine s)))
  if s1.inputs.estop then applyEstop s1 else s1

/-- The store after a start has judged its sectors (R198, R199). -/
def judgedStore (r : LoadResult) (strap : Bool) (c : Store) : Store :=
  { c with
    identReport := r.identReport
    stationReport := r.stationReport
    strapMark := strap
    write := none
    identLast := .none
    stationLast := .none }

/-- A start: outputs off and state reset, strap and inputs sensed, both sectors loaded and judged, and the outcome
(R201). -/
def startUp (i : Inputs) (s : State) : State :=
  let r := loadSectors s.store.identBytes s.store.stationBytes
  let corrected := corrects s.store.identBytes || corrects s.store.stationBytes
  let s1 := ((volatileReset s).mapPhase fun _ => .running).mapInputs fun _ => i
  let s2 := s1.mapStore (judgedStore r i.strap)
  let s3 := if corrected then setFlag .configCorrected s2 else s2
  match r.loaded with
  | none => startOffline s3
  | some c => startOnline (s3.mapCfg fun _ => c)

/-- The reset line is held (R201). -/
def Phase.lineHeld (p : Phase) : Bool := p = .offHeld || p = .held

/-- A start can run: power is on, the reset line is released and no write is under way (R201). -/
def mayStart (s : State) : Bool := (s.phase = .starting || s.phase = .running) && s.store.write.isNone

end Sys2Proof.Machine
end

