-- ==== Sys2Proof/Machine/PortCommands.lean ====
section
/-! DEFINITION. The meanings of the commands on the station port: its messages as bytes, the end of a response, and the
requests, each arriving whole (log 6). -/

namespace Sys2Proof.Machine

/-- MESSAGE_COMPLETE (R183, R184): the bytes reach the receiver. -/
def execMessageComplete (bytes : List Byte) (s : State) : Host.Outcome State Fault Refusal :=
  .next (whenServing (receiveBytes bytes) s)

/-- MESSAGE_GAP (R183). -/
def execMessageGap (s : State) : Host.Outcome State Fault Refusal := .next (whenServing receiverGap s)

/-- OVERSIZE_MESSAGE (R183): the start of a message that announces this length. -/
def execOversizeMessage (length : Word16) (s : State) : Host.Outcome State Fault Refusal :=
  .next (whenServing (receiveBytes (0x7E :: bytesOf 2 length.toNat)) s)

/-- The response in progress has sent its last byte: a RESET's starts the part afresh, and after any other the held
message is taken (R185, R189). -/
def endResponse (s : State) : State :=
  match s.port.answering with
  | none => s
  | some r =>
    if r.kind = 0x17 && r.status = .ok then resetStart s
    else
      match s.port.held with
      | none => s.mapPort fun p => { p with answering := none }
      | some m => takeMessage m (s.mapPort fun p => { p with answering := none, held := none })

/-- RESPONSE_SENT (R185, R189). -/
def execResponseSent (s : State) : Host.Outcome State Fault Refusal := .next (whenServing endResponse s)

/-- SUBMIT (R2). -/
def execSubmit (f : SubmitFields) (s : State) : Host.Outcome State Fault Refusal :=
  .next (whenServing (requestArrives (.submit f)) s)

/-- CANCEL (R12). -/
def execCancel (job : Word16) (s : State) : Host.Outcome State Fault Refusal :=
  .next (whenServing (requestArrives (.cancel job)) s)

/-- SETPRIO (R9). -/
def execSetPrio (job : Word16) (priority : Byte) (s : State) : Host.Outcome State Fault Refusal :=
  .next (whenServing (requestArrives (.setPrio job priority)) s)

/-- QUERY_JOB (R16). -/
def execQueryJob (job : Word16) (s : State) : Host.Outcome State Fault Refusal :=
  .next (whenServing (requestArrives (.queryJob job)) s)

/-- QUERY_BAYS (R188). -/
def execQueryBays (s : State) : Host.Outcome State Fault Refusal := .next (whenServing (requestArrives .queryBays) s)

/-- TAKE_RECORD (R195). -/
def execTakeRecord (s : State) : Host.Outcome State Fault Refusal := .next (whenServing (requestArrives .takeRecord) s)

/-- CAN_LOAD (R22). -/
def execCanLoad (f : CanLoadFields) (s : State) : Host.Outcome State Fault Refusal :=
  .next (whenServing (requestArrives (.canLoad f)) s)

/-- CAN_LEVEL (R23). -/
def execCanLevel (slot : Byte) (level : Word32) (s : State) : Host.Outcome State Fault Refusal :=
  .next (whenServing (requestArrives (.canLevel slot level)) s)

/-- CAN_QUERY (R30). -/
def execCanQuery (slot : Byte) (s : State) : Host.Outcome State Fault Refusal :=
  .next (whenServing (requestArrives (.canQuery slot)) s)

/-- CAN_CLEAR (R31). -/
def execCanClear (slot : Byte) (s : State) : Host.Outcome State Fault Refusal :=
  .next (whenServing (requestArrives (.canClear slot)) s)

/-- CALIBRATE (R100). -/
def execCalibrate (slot : Byte) (mask : Option Byte) (s : State) : Host.Outcome State Fault Refusal :=
  .next (whenServing (requestArrives (.calibrate slot mask)) s)

/-- CAL_ABORT (R109). -/
def execCalAbort (s : State) : Host.Outcome State Fault Refusal := .next (whenServing (requestArrives .calAbort) s)

/-- LIDS (R120). -/
def execLids (lidType : Byte) (s : State) : Host.Outcome State Fault Refusal :=
  .next (whenServing (requestArrives (.lids lidType)) s)

/-- EVENTS (R192). -/
def execEvents (s : State) : Host.Outcome State Fault Refusal := .next (whenServing (requestArrives .events) s)

/-- EVENT_ACK (R193). -/
def execEventAck (set : Word16) (s : State) : Host.Outcome State Fault Refusal :=
  .next (whenServing (requestArrives (.eventAck set)) s)

/-- EVENT_MASK (R192). -/
def execEventMask (set : Word16) (s : State) : Host.Outcome State Fault Refusal :=
  .next (whenServing (requestArrives (.eventMask set)) s)

/-- MODE (R169). -/
def execMode (code : Byte) (s : State) : Host.Outcome State Fault Refusal :=
  .next (whenServing (requestArrives (.mode code)) s)

/-- CLEAR_FAULT (R174). -/
def execClearFault (code : Byte) (s : State) : Host.Outcome State Fault Refusal :=
  .next (whenServing (requestArrives (.clearFault code)) s)

/-- CLEAR_FAULT(station) (R176). -/
def execClearFaultStation (s : State) : Host.Outcome State Fault Refusal :=
  .next (whenServing (requestArrives (.clearFault 3)) s)

/-- RESUME (R181). -/
def execResume (s : State) : Host.Outcome State Fault Refusal := .next (whenServing (requestArrives .resume) s)

/-- PEERS (R150). -/
def execPeers (s : State) : Host.Outcome State Fault Refusal := .next (whenServing (requestArrives .peers) s)

/-- NV_READ (R199). -/
def execNvRead (sector part : Byte) (s : State) : Host.Outcome State Fault Refusal :=
  .next (whenServing (requestArrives (.nvRead sector part)) s)

/-- NV_STORE (R200). -/
def execNvStore (sector part : Byte) (image : List Byte) (s : State) : Host.Outcome State Fault Refusal :=
  .next (whenServing (requestArrives (.nvStore sector part image)) s)

/-- RESET (R189). -/
def execReset (s : State) : Host.Outcome State Fault Refusal := .next (whenServing (requestArrives .reset) s)

/-- PING (R189). -/
def execPing (payload : List Byte) (s : State) : Host.Outcome State Fault Refusal :=
  .next (whenServing (requestArrives (.ping payload)) s)

end Sys2Proof.Machine
end

