-- ==== Sys2Proof/Machine/PowerCommands.lean ====
section
/-! DEFINITION. The meanings of the commands on power, reset line, start and sector write: POWER_ON, RESET_LINE, START_UP,
NV_WRITE_DONE, POWER_LOSS. -/

namespace Sys2Proof.Machine

/-- POWER_ON (R201): every output goes off, and the part begins a start unless its reset line is held. -/
def execPowerOn (s : State) : Host.Outcome State Fault Refusal :=
  .next (goDown (if s.phase.lineHeld then .held else .starting) (cutWrite s))

/-- RESET_LINE (R201): acting, it cuts a write short and holds the part; released, the part starts. Without power only its
level is followed. -/
def execResetLine (active : Bool) (s : State) : Host.Outcome State Fault Refusal :=
  .next
    (if s.phase = .off || s.phase = .offHeld then s.mapPhase fun _ => if active then .offHeld else .off
     else if active then goDown .held (cutWrite s)
     else if s.phase = .held then s.mapPhase fun _ => .starting
     else s)

/-- START_UP (R201). -/
def execStartUp (inputs : Inputs) (s : State) : Host.Outcome State Fault Refusal :=
  .next (if mayStart s then settle (startUp inputs s) else s)

/-- NV_WRITE_DONE (R200). -/
def execNvWriteDone (agrees : Bool) (s : State) : Host.Outcome State Fault Refusal := .next (endWrite agrees s)

/-- POWER_LOSS (R201): everything volatile is lost, and a write under way is cut short. -/
def execPowerLoss (s : State) : Host.Outcome State Fault Refusal :=
  .next (goDown (if s.phase.lineHeld then .offHeld else .off) (cutWrite s))

end Sys2Proof.Machine
end

