-- ==== Sys2Proof/Machine/ShakeCommands.lean ====
section
/-! DEFINITION. The meanings of the shake bay's commands: CLAMP_SENSOR, CLAMP_TIMEOUT, SPIN_UP_START, SHAKER_REVOLUTION,
SHAKER_SPEED_SATURATED, SPIN_UP_TIMEOUT, SHAKE_SECOND, SHAKE_RUN_EXPIRY, TIN_PRESENCE_SHAKE (R128 to R134). -/

namespace Sys2Proof.Machine

/-- The clamp-closed sensor changes: it confirms a closing or an opening clamp (R128, R131). -/
def clampSensed (closed : Bool) (s : State) : State :=
  if closed then (if s.shake.st = .clamp then clampConfirmed s else s)
  else if s.shake.st = .unclamp then afterUnclamp s
  else s

/-- CLAMP_SENSOR (R128, R131). -/
def execClampSensor (closed : Bool) (s : State) : Host.Outcome State Fault Refusal :=
  .next (whenSensed (State.mapInputs fun i => { i with clampClosed := closed }) (clampSensed closed) s)

/-- The clamp timer reaches its limit: the drive stops and CLAMP is latched (R128, R131, R132). -/
def clampExpires (s : State) : State :=
  if s.shake.clamp.isSome then
    latch .shake .clamp (s.mapShake fun b => { b with clampDrive := .off, clamp := none })
  else s

/-- CLAMP_TIMEOUT (R131). -/
def execClampTimeout (s : State) : Host.Outcome State Fault Refusal := .next (whenOnline clampExpires s)

/-- SPIN_UP_START (R114, R128, R129). -/
def execSpinUpStart (s : State) : Host.Outcome State Fault Refusal :=
  .next (whenOnline (fun t => if spinDue t && quietAllows t then startSpin t else t) s)

/-- A measurement in RUN: the third slow one in a row latches SHAKE_SPEED (R130). -/
def judgeSpeed (period : Nat) (s : State) : State :=
  if slowLimit (shakeTarget s) < period then
    if 2 ≤ s.shake.slow then latch .shake .shakeSpeed (s.mapShake fun b => { b with slow := 3 })
    else s.mapShake fun b => { b with slow := b.slow + 1 }
  else s.mapShake fun b => { b with slow := 0 }

/-- A measured revolution (R129, R130). -/
def measure (period : Nat) (s : State) : State :=
  let s1 := s.mapShake fun b => { b with lastSpeed := some period }
  match s.shake.st with
  | .spinUp => if period ≤ reachLimit (shakeTarget s) then reachSpeed s1 else s1
  | .run => judgeSpeed period s1
  | _ => s1

/-- SHAKER_REVOLUTION (R129, R130). -/
def execShakerRevolution (period : Nat) (s : State) : Host.Outcome State Fault Refusal :=
  .next (whenOnline (measure period) s)

/-- A saturated measurement: the shaker is at rest in SPIN_DOWN or after a fault or stop; in RUN it is a slow one (R130,
R132, R133). -/
def saturatedSpeed (s : State) : State :=
  let s1 := s.mapShake fun b => { b with lastSpeed := some Config.speedSaturation }
  match s.shake.st with
  | .spinDown => endShake s1
  | .run => judgeSpeed Config.speedSaturation s1
  | _ => if s.shake.turning then resumeShake (comeToRest s1) else s1

/-- SHAKER_SPEED_SATURATED (R130). -/
def execShakerSpeedSaturated (s : State) : Host.Outcome State Fault Refusal := .next (whenOnline saturatedSpeed s)

/-- SPIN_UP_TIMEOUT (R129, R132). -/
def execSpinUpTimeout (s : State) : Host.Outcome State Fault Refusal :=
  .next (whenOnline (fun t => if t.shake.st = .spinUp then latch .shake .shakeSpeed t else t) s)

/-- A whole second in RUN (R130). The count keeps every earlier run's seconds (R132) and is not bounded (log 81). -/
def secondRun (s : State) : State :=
  if s.shake.st = .run then
    s.mapTin .shake fun t => { t with shake := some { t.shaken with seconds := t.shaken.seconds + 1 } }
  else s

/-- SHAKE_SECOND (R130). -/
def execShakeSecond (s : State) : Host.Outcome State Fault Refusal := .next (whenOnline secondRun s)

/-- The run timer reaches the shake time: the shaker is braked, POWER still held (R130). -/
def runEnds (s : State) : State :=
  if s.shake.st = .run then (brake s).mapShake fun b => { b with st := .spinDown } else s

/-- SHAKE_RUN_EXPIRY (R130). -/
def execShakeRunExpiry (s : State) : Host.Outcome State Fault Refusal := .next (whenOnline runEnds s)

/-- The shake bay's presence sensor goes off: a removal, an orphan gone, or a loss (R131, R134, R203). -/
def shakeTinOff (s : State) : State :=
  match s.shake.st with
  | .orphan => shakeOrphanGone s
  | .awaitRemoval => s.mapShake fun b => { b with st := .empty }
  | .unclamp => s.mapShake fun b => { b with removed := true }
  | .fault => if s.shake.tin.isNone then s.mapShake fun b => { b with removed := true } else loseShake s
  | .stopped => if s.shake.tin.isNone then s.mapShake fun b => { b with removed := true } else loseShake s
  | _ => loseShake s

/-- TIN_PRESENCE_SHAKE (R134). -/
def execTinPresenceShake (on : Bool) (s : State) : Host.Outcome State Fault Refusal :=
  .next (whenSensed (State.mapInputs fun i => { i with presShake := on }) (if on then id else shakeTinOff) s)

end Sys2Proof.Machine
end

