-- ==== Sys2Proof/Machine/Dispatch.lean ====
section
/-! DEFINITION. One arm per command. -/

namespace Sys2Proof.Machine

/-- The effect of a command on everything but the queue. -/
def exec (i : Instr) (s : State) : Host.Outcome State Fault Refusal :=
  match i with
  | .powerOn => Sys2Proof.Machine.execPowerOn s
  | .resetLine active => Sys2Proof.Machine.execResetLine active s
  | .startUp inputs => Sys2Proof.Machine.execStartUp inputs s
  | .nvWriteDone agrees => Sys2Proof.Machine.execNvWriteDone agrees s
  | .messageComplete bytes => Sys2Proof.Machine.execMessageComplete bytes s
  | .messageGap => Sys2Proof.Machine.execMessageGap s
  | .oversizeMessage length => Sys2Proof.Machine.execOversizeMessage length s
  | .responseSent => Sys2Proof.Machine.execResponseSent s
  | .submit f => Sys2Proof.Machine.execSubmit f s
  | .cancel job => Sys2Proof.Machine.execCancel job s
  | .setPrio job priority => Sys2Proof.Machine.execSetPrio job priority s
  | .queryJob job => Sys2Proof.Machine.execQueryJob job s
  | .queryBays => Sys2Proof.Machine.execQueryBays s
  | .takeRecord => Sys2Proof.Machine.execTakeRecord s
  | .canLoad f => Sys2Proof.Machine.execCanLoad f s
  | .canLevel slot level => Sys2Proof.Machine.execCanLevel slot level s
  | .canQuery slot => Sys2Proof.Machine.execCanQuery slot s
  | .canClear slot => Sys2Proof.Machine.execCanClear slot s
  | .calibrate slot mask => Sys2Proof.Machine.execCalibrate slot mask s
  | .calAbort => Sys2Proof.Machine.execCalAbort s
  | .lids lidType => Sys2Proof.Machine.execLids lidType s
  | .events => Sys2Proof.Machine.execEvents s
  | .eventAck set => Sys2Proof.Machine.execEventAck set s
  | .eventMask set => Sys2Proof.Machine.execEventMask set s
  | .mode code => Sys2Proof.Machine.execMode code s
  | .clearFault code => Sys2Proof.Machine.execClearFault code s
  | .clearFaultStation => Sys2Proof.Machine.execClearFaultStation s
  | .resume => Sys2Proof.Machine.execResume s
  | .peers => Sys2Proof.Machine.execPeers s
  | .nvRead sector part => Sys2Proof.Machine.execNvRead sector part s
  | .nvStore sector part image => Sys2Proof.Machine.execNvStore sector part image s
  | .reset => Sys2Proof.Machine.execReset s
  | .ping payload => Sys2Proof.Machine.execPing payload s
  | .keepaliveExpiry => Sys2Proof.Machine.execKeepaliveExpiry s
  | .emergencyStop => Sys2Proof.Machine.execEmergencyStop s
  | .estopInputReleased => Sys2Proof.Machine.execEstopInputReleased s
  | .cabinetDoorOpen => Sys2Proof.Machine.execCabinetDoorOpen s
  | .cabinetDoorClose => Sys2Proof.Machine.execCabinetDoorClose s
  | .minuteTimer => Sys2Proof.Machine.execMinuteTimer s
  | .stirrerRevolution slot period => Sys2Proof.Machine.execStirrerRevolution slot period s
  | .stirrerSpeedSaturated slot => Sys2Proof.Machine.execStirrerSpeedSaturated slot s
  | .stirSpeedTimeout slot => Sys2Proof.Machine.execStirSpeedTimeout slot s
  | .stirRunExpiry slot => Sys2Proof.Machine.execStirRunExpiry slot s
  | .valveTurnDone => Sys2Proof.Machine.execValveTurnDone s
  | .rotationPulse slot => Sys2Proof.Machine.execRotationPulse slot s
  | .pumpSegmentEnd => Sys2Proof.Machine.execPumpSegmentEnd s
  | .scaleSample raw => Sys2Proof.Machine.execScaleSample raw s
  | .blankTimerExpiry => Sys2Proof.Machine.execBlankTimerExpiry s
  | .settleTimeout => Sys2Proof.Machine.execSettleTimeout s
  | .tinPresenceDispense on => Sys2Proof.Machine.execTinPresenceDispense on s
  | .recordJoin => Sys2Proof.Machine.execRecordJoin s
  | .carriageMoveStart => Sys2Proof.Machine.execCarriageMoveStart s
  | .quietDeferralExpiry owner => Sys2Proof.Machine.execQuietDeferralExpiry owner s
  | .carriageArrival => Sys2Proof.Machine.execCarriageArrival s
  | .moveTimeout => Sys2Proof.Machine.execMoveTimeout s
  | .homeRunStart => Sys2Proof.Machine.execHomeRunStart s
  | .carriageHome => Sys2Proof.Machine.execCarriageHome s
  | .magazineSensor present => Sys2Proof.Machine.execMagazineSensor present s
  | .pressStart => Sys2Proof.Machine.execPressStart s
  | .lidSeated => Sys2Proof.Machine.execLidSeated s
  | .seatLimit => Sys2Proof.Machine.execSeatLimit s
  | .dwellExpiry => Sys2Proof.Machine.execDwellExpiry s
  | .pressHomeSensor => Sys2Proof.Machine.execPressHomeSensor s
  | .homeLimit => Sys2Proof.Machine.execHomeLimit s
  | .pressGuard isOpen => Sys2Proof.Machine.execPressGuard isOpen s
  | .tinPresenceLid on => Sys2Proof.Machine.execTinPresenceLid on s
  | .clampSensor closed => Sys2Proof.Machine.execClampSensor closed s
  | .clampTimeout => Sys2Proof.Machine.execClampTimeout s
  | .spinUpStart => Sys2Proof.Machine.execSpinUpStart s
  | .shakerRevolution period => Sys2Proof.Machine.execShakerRevolution period s
  | .shakerSpeedSaturated => Sys2Proof.Machine.execShakerSpeedSaturated s
  | .spinUpTimeout => Sys2Proof.Machine.execSpinUpTimeout s
  | .shakeSecond => Sys2Proof.Machine.execShakeSecond s
  | .shakeRunExpiry => Sys2Proof.Machine.execShakeRunExpiry s
  | .tinPresenceShake on => Sys2Proof.Machine.execTinPresenceShake on s
  | .frameStart => Sys2Proof.Machine.execFrameStart s
  | .arbitrationLost => Sys2Proof.Machine.execArbitrationLost s
  | .transmitError => Sys2Proof.Machine.execTransmitError s
  | .frameSent => Sys2Proof.Machine.execFrameSent s
  | .frameDiscarded cause => Sys2Proof.Machine.execFrameDiscarded cause s
  | .claimReceived src pool amount => Sys2Proof.Machine.execClaimReceived src pool amount s
  | .adjustReceived src pool amount => Sys2Proof.Machine.execAdjustReceived src pool amount s
  | .releaseReceived src pool => Sys2Proof.Machine.execReleaseReceived src pool s
  | .waitReceived src pool amount count => Sys2Proof.Machine.execWaitReceived src pool amount count s
  | .beaconReceived src contents => Sys2Proof.Machine.execBeaconReceived src contents s
  | .beaconTimerExpiry => Sys2Proof.Machine.execBeaconTimerExpiry s
  | .rosterAgeOut station => Sys2Proof.Machine.execRosterAgeOut station s
  | .waitTimerExpiry pool => Sys2Proof.Machine.execWaitTimerExpiry pool s
  | .powerLoss => Sys2Proof.Machine.execPowerLoss s

end Sys2Proof.Machine
end

