-- ==== Sys2Proof/Machine/Tick.lean ====
section
/-! DEFINITION. One millisecond of time (log 3): what step does on an empty queue. Running timers advance; no expiry is
taken here, since each is a command of its own (log 4). -/

namespace Sys2Proof.Machine

/-- An elapsed timer advances up to its limit. -/
def elapse (limit : Nat) (t : Option Nat) : Option Nat := t.map fun n => min limit (n + 1)

/-- A remaining time runs down, and stays at 0 until its expiry is taken. -/
def runDown (t : Option Nat) : Option Nat := t.map (· - 1)

/-- A granted stir's run timer and speed check (R36). -/
def tickRun (r : StirRun) : StirRun := { r with left := r.left - 1, check := runDown r.check }

/-- The stir manager: the minute timer runs; the runs are held while the door is open (R32, R38). -/
def tickStir (s : State) : State :=
  s.mapStir fun m =>
    { m with
      minute := min 60000 (m.minute + 1)
      runs := if s.inputs.doorOpen then m.runs else m.runs.map tickRun }

/-- Steps are issued at the canister's step rate while a segment moves and the drive is not paused (R60; log 15). A
segment's last step is left to its end. -/
def tickPump (s : State) : State :=
  match s.pump.op with
  | none => s
  | some o =>
    match o.stage with
    | .turnOut => mapOp (fun o => { o with turn := min Config.valveTurnMs (o.turn + 1) }) s
    | .turnBack => mapOp (fun o => { o with turn := min Config.valveTurnMs (o.turn + 1) }) s
    | .moving =>
      if o.paused then s
      else
        let f := o.frac + (s.canStatic o.slot).stepRate
        let n := min (f / 1000) (o.toRun - 1 - o.run)
        issueSteps n o (mapOp (fun o => { o with frac := f % 1000 }) s)

/-- The scale: the blank timer runs down, the settle timer up to its timeout (R66, R68). -/
def tickScale (s : State) : State :=
  s.mapScale fun c =>
    { c with
      blank := runDown c.blank
      request := elapse (s.cfg.general.settleTimeout * 1000) c.request }

/-- The carriage's timers (R112, R114). -/
def tickCarriage (s : State) : State :=
  s.mapCarriage fun c =>
    { c with
      deferral := elapse (s.cfg.general.quietLimit * 1000) c.deferral
      timer := elapse Config.moveLimitMs c.timer }

/-- The lid bay's timers (R119). -/
def tickLid (s : State) : State :=
  s.mapLid fun b =>
    { b with
      seat := elapse Config.seatLimitMs b.seat
      dwell := elapse Config.dwellMs b.dwell
      home := elapse Config.homeLimitMs b.home
      deferral := elapse (s.cfg.general.quietLimit * 1000) b.deferral }

/-- The shake time of the tin in the bay, ms; the longest there is when there is none. -/
def runLimit (s : State) : Nat :=
  match s.shake.tin with
  | some t => t.shakeTime * 1000
  | none => 300000

/-- The shake bay's timers (R127). -/
def tickShake (s : State) : State :=
  s.mapShake fun b =>
    { b with
      clamp := elapse Config.clampLimitMs b.clamp
      spin := elapse Config.spinLimitMs b.spin
      run := elapse (runLimit s) b.run
      deferral := elapse (s.cfg.general.quietLimit * 1000) b.deferral }

/-- An entry's age grows; a PRESENT one that has reached the limit waits there for its row (R147; log 4). -/
def tickEntry (limit : Nat) (e : RosterEntry) : RosterEntry :=
  if e.present && limit ≤ e.age then e else { e with age := min Config.ageLimit (e.age + 1) }

/-- The beacon timer runs down; the roster's ages grow in every line state but SILENT (R146, R147). -/
def tickLine (s : State) : State :=
  let s1 := s.mapLine fun c => { c with beacon := runDown c.beacon }
  if s.line.st = .silent then s1 else s1.mapRoster fun r => r.map (tickEntry (ageOutAge s))

/-- The agents' wait timers (R161). -/
def tickAgent (a : Agent) : Agent := { a with timer := elapse Config.waitLimitMs a.timer }

/-- The keepalive timer (R179). -/
def tickMon (s : State) : State := s.mapMon fun m => { m with keepalive := runDown m.keepalive }

/-- One millisecond. Nothing runs in OFFLINE, nor while the part is off, held or starting. -/
def tick (s : State) : State :=
  if s.online then
    settle (tickMon (((tickLine (tickShake (tickLid (tickCarriage (tickScale (tickPump (tickStir s))))))).mapPower
      tickAgent).mapAir tickAgent))
  else s

end Sys2Proof.Machine
end

