-- ==== Sys2Proof/Safety.lean ====
section
/-! DEFINITION. What the statements of this row speak of: a part that serves requests, what a request's answer leaves, and
the invariants that every step keeps. -/

namespace Sys2Proof.Safety

open Sys2Proof.Machine

/-! ## Requests -/

/-- The request of section 11.2 that a command brings, for the commands that are requests. -/
def requestOfCommand : Instr → Option Request
  | .submit f => some (.submit f)
  | .cancel job => some (.cancel job)
  | .setPrio job priority => some (.setPrio job priority)
  | .queryJob job => some (.queryJob job)
  | .queryBays => some .queryBays
  | .takeRecord => some .takeRecord
  | .canLoad f => some (.canLoad f)
  | .canLevel slot level => some (.canLevel slot level)
  | .canQuery slot => some (.canQuery slot)
  | .canClear slot => some (.canClear slot)
  | .calibrate slot mask => some (.calibrate slot mask)
  | .calAbort => some .calAbort
  | .lids lidType => some (.lids lidType)
  | .events => some .events
  | .eventAck set => some (.eventAck set)
  | .eventMask set => some (.eventMask set)
  | .mode code => some (.mode code)
  | .clearFault code => some (.clearFault code)
  | .clearFaultStation => some (.clearFault 3)
  | .resume => some .resume
  | .peers => some .peers
  | .nvRead sector part => some (.nvRead sector part)
  | .nvStore sector part image => some (.nvStore sector part image)
  | .reset => some .reset
  | .ping payload => some (.ping payload)
  | _ => none

/-- The part runs and its port answers nothing and holds nothing, so that a request is taken as it completes (R185).
The receiver may be assembling or ignoring other bytes (log 6). -/
def portFree (s : State) : Prop := s.phase = .running ∧ s.port.answering = none ∧ s.port.held = none

/-- A free port in a mode that serves every request (R187). -/
def serving (s : State) : Prop := portFree s ∧ s.mon.mode ≠ .offline

/-- The response begins: the port answers `kind` with a status and a payload, carries the OVERRUN mark as it stood and
clears it (R185, R186). -/
def withResponse (kind : Byte) (st : Status) (payload : List Byte) (overrun : Bool) (s : State) : State :=
  s.mapPort fun p =>
    { p with answering := some { kind := kind, status := st, overrun := overrun, payload := payload }, overrun := false }

/-- A payload of the length its kind asks for, with a SUBMIT's count of lines the lines it carries (R207, R208). -/
def requestFits : Request → Prop
  | .submit f => f.lineCount.toNat = f.lines.length
  | .nvStore sector part image => ∃ p, PartId.ofBytes sector part = some p ∧ image.length = p.size
  | .ping payload => payload.length ≤ 16
  | _ => True

/-- A message as it is sent on the port: the envelope of R206 round a kind and a payload, with its CRC. -/
def messageBytes (kind : Byte) (payload : List Byte) : List Byte :=
  let body := [0x7E] ++ bytesOf 2 payload.length ++ [kind] ++ payload
  body ++ crcBytes body

/-! ## Limits on what the blocks hold -/

/-- At most 24 places of the job queue are occupied (R5). -/
def jobsFit (q : JobQueue) : Prop := q.places ≤ Config.jobPlaces

/-- At most four stirrers are granted (R35). -/
def stirsFit (m : StirManager) : Prop := m.runs.length ≤ Config.stirSlots

/-- The zero offset lies within its limits (R71). -/
def zeroFits (c : Scale) : Prop := -Config.zeroLimit ≤ c.zero ∧ c.zero ≤ Config.zeroLimit

/-- At most 16 records wait to be taken (R194). -/
def recordsFit (q : List TinRecord) : Prop := q.length ≤ Config.completionPlaces

/-- Consecutive drops and listening count stay in their ranges (R135), and no two queued frames are of one kind and pool
(R140). -/
def lineFits (c : LineCtl) : Prop :=
  c.drops ≤ 3 ∧ c.listens ≤ 4 ∧ c.queue.Pairwise fun f g => f.same g = false

/-- Levels and miss counts stay in their ranges (R19). -/
def canFits (c : Canister) : Prop := c.level ≤ Config.levelLimit ∧ c.miss ≤ 3

def cansFit (v : Vector Canister 16) : Prop := ∀ i : Slot, canFits v[i]

/-- Every limit together. -/
def WithinLimits (s : State) : Prop :=
  jobsFit s.jobs ∧ cansFit s.cans ∧ stirsFit s.stir ∧ zeroFits s.scale ∧ lineFits s.line ∧ recordsFit s.completion

/-- The job records stand in the order of R8, and no id stands twice among records and reserved places; both queues are
within their lengths, which is what leaves an id free (R6). -/
def JobsOrdered (s : State) : Prop :=
  jobsFit s.jobs ∧ recordsFit s.completion ∧ s.jobs.records.Pairwise (fun a b => b.before a = false) ∧
  (s.jobs.records ++ s.jobs.reserved).Pairwise fun a b => a.id ≠ b.id

/-- The quiet request stands exactly while a scale request is open, and a bay STOPPED or in FAULT has none (R90). -/
def QuietFits (s : State) : Prop :=
  (s.disp.quiet = true ↔ s.scale.request.isSome = true) ∧
  (s.scale.request.isSome = true → s.disp.st ≠ .stopped ∧ s.disp.st ≠ .fault)

/-! ## Supplies and drives -/

/-- The press is driven only in its stroke and only on air that is HELD (R123), with no retraction under way. -/
def pressLicensed (b : LidBay) (a : Agent) : Prop :=
  b.valve = true → (b.st = .extend ∨ b.st = .dwell) ∧ b.home = none ∧ b.homeCheck = false ∧ a.st = .held

/-- The shaker is driven only in SPIN_UP and RUN and only on power that is HELD (R129). -/
def shakerLicensed (b : ShakeBay) (a : Agent) : Prop :=
  b.drive = .driven → (b.st = .spinUp ∨ b.st = .run) ∧ a.st = .held

/-- No supply is drawn on without its claim. -/
def DrivesLicensed (s : State) : Prop := pressLicensed s.lid s.air ∧ shakerLicensed s.shake s.power

/-! ## The emergency stop -/

/-- The three bays are STOPPED or in FAULT. -/
def baysHeld (s : State) : Prop :=
  (s.disp.st = .stopped ∨ s.disp.st = .fault) ∧ (s.lid.st = .stopped ∨ s.lid.st = .fault) ∧
  (s.shake.st = .stopped ∨ s.shake.st = .fault)

/-- Every drive is off: no pump operation, no stir, the carriage, the press valve, the shaker and the clamp. -/
def allOff (s : State) : Prop :=
  s.pump.op = none ∧ s.stir.runs = [] ∧ s.carriage.drive = false ∧ s.lid.valve = false ∧ s.shake.drive = .off ∧
  s.shake.clampDrive = .off

/-- While ESTOP stands nothing is driven and the bays stay STOPPED or in FAULT (R175); the carriage's drive runs only
while it is MOVING. -/
def StopHolds (s : State) : Prop :=
  (s.carriage.drive = true → s.carriage.st = .moving) ∧
  (s.mon.estop = true → baysHeld s ∧ allOff s ∧ s.carriage.st ≠ .moving)

end Sys2Proof.Safety
end

