-- ==== Sys2Proof/WellFormed.lean ====
section
/-! DEFINITION. Which commands can reach the part at all. A command outside these bounds stands for no event: a message
longer than the receiver takes (R183), a revolution longer than the measurement (R36, R129), or a frame that R137
discards before it is a notice (R145). The meanings do not rest on these checks; they bound what a sender sends. -/

namespace Sys2Proof

/-- The most payload bytes a received message can have: 300 bytes less the envelope's six (R183). -/
def maxPayload : Nat := 294

/-- A BEACON payload in the ranges of R145: mode PAUSE, RUN or MAINT; interval code 0 to 18; jobs queued 0 to 24; no
other bit than the three bays'. -/
def Beacon.inRange (b : Beacon) : Bool :=
  b.mode.toNat ≤ 2 && b.interval.toNat ≤ 18 && b.jobs.toNat ≤ 24 && b.bays.toNat ≤ 7

/-- The check of one command. -/
def Instr.wellFormed : Instr → Bool
  | .submit f => 11 + 3 * f.lines.length ≤ maxPayload
  | .nvStore _ _ image => 2 + image.length ≤ maxPayload
  | .ping payload => payload.length ≤ maxPayload
  | .messageComplete bytes => !bytes.isEmpty
  | .oversizeMessage length => 300 < length.toNat + 6
  | .stirrerRevolution _ period => period < Config.speedSaturation
  | .shakerRevolution period => period < Config.speedSaturation
  | .claimReceived _ _ amount => amount != 0
  | .adjustReceived _ _ amount => amount != 0
  | .waitReceived _ _ amount _ => amount != 0
  | .beaconReceived _ contents => contents.inRange
  | .powerOn | .resetLine _ | .startUp _ | .nvWriteDone _ | .messageGap | .responseSent | .cancel _ | .setPrio _ _
  | .queryJob _ | .queryBays | .takeRecord | .canLoad _ | .canLevel _ _ | .canQuery _ | .canClear _ | .calibrate _ _
  | .calAbort | .lids _ | .events | .eventAck _ | .eventMask _ | .mode _ | .clearFault _ | .clearFaultStation | .resume
  | .peers | .nvRead _ _ | .reset | .keepaliveExpiry | .emergencyStop | .estopInputReleased | .cabinetDoorOpen
  | .cabinetDoorClose | .minuteTimer | .stirrerSpeedSaturated _ | .stirSpeedTimeout _ | .stirRunExpiry _
  | .valveTurnDone | .rotationPulse _ | .pumpSegmentEnd | .scaleSample _ | .blankTimerExpiry | .settleTimeout
  | .tinPresenceDispense _ | .recordJoin | .carriageMoveStart | .quietDeferralExpiry _ | .carriageArrival
  | .moveTimeout | .homeRunStart | .carriageHome | .magazineSensor _ | .pressStart | .lidSeated | .seatLimit
  | .dwellExpiry | .pressHomeSensor | .homeLimit | .pressGuard _ | .tinPresenceLid _ | .clampSensor _ | .clampTimeout
  | .spinUpStart | .shakerSpeedSaturated | .spinUpTimeout | .shakeSecond | .shakeRunExpiry | .tinPresenceShake _
  | .frameStart | .arbitrationLost | .transmitError | .frameSent | .frameDiscarded _ | .releaseReceived _ _
  | .beaconTimerExpiry | .rosterAgeOut _ | .waitTimerExpiry _ | .powerLoss => true

end Sys2Proof
end

