-- ==== Sys2Proof/Certificates/Slice0/Obligations.lean ====
section
/-! DEFINITION. The statements of this row, about one command at a time, about the port, and about the invariants that
every step keeps. `settle` is what every command is followed by: O4 and O5 say all it does. -/

open Sys2Proof Sys2Proof.Machine Sys2Proof.Safety

/-! ## A step, and what follows every command -/

/-- A step takes the command at the front of the queue and runs it on the state with the queue's rest. -/
def Obligations.StepTakesFrontCommand : Prop :=
  ∀ (c : Instr) (cs : List Instr) (s : State), s.pending = c :: cs → step s = exec c { s with pending := cs }

/-- On an empty queue a step is one millisecond (log 3): nothing in OFFLINE or while the part does not run, else every
timer advances by 1 ms up to its limit, where it waits for its expiry, a PRESENT entry's age up to four beacon intervals
(log 4). A pump operation in flight has its valve turn timed; the motor of a moving segment is stepped at its canister's
rate, its last step left to the segment's end (log 15), and the piston position follows but in a home segment (log 14);
a paused one stands. -/
def Obligations.IdleMillisecondAdvancesTimers : Prop :=
  (∀ s : State, s.pending = [] → s.online = false → step s = .next s) ∧
  (∀ s : State, s.pending = [] → s.online = true →
    let ticked (pump : PumpDrive) (cans : Vector Canister 16) : State := { s with
      pump := pump
      cans := cans
      stir := { s.stir with
        minute := min 60000 (s.stir.minute + 1)
        runs :=
          if s.inputs.doorOpen then s.stir.runs
          else s.stir.runs.map fun r => { r with left := r.left - 1, check := r.check.map (· - 1) } }
      scale := { s.scale with
        blank := s.scale.blank.map (· - 1)
        request := s.scale.request.map fun n => min (s.cfg.general.settleTimeout * 1000) (n + 1) }
      carriage := { s.carriage with
        deferral := s.carriage.deferral.map fun n => min (s.cfg.general.quietLimit * 1000) (n + 1)
        timer := s.carriage.timer.map fun n => min 8000 (n + 1) }
      lid := { s.lid with
        seat := s.lid.seat.map fun n => min 3000 (n + 1)
        dwell := s.lid.dwell.map fun n => min 400 (n + 1)
        home := s.lid.home.map fun n => min 3000 (n + 1)
        deferral := s.lid.deferral.map fun n => min (s.cfg.general.quietLimit * 1000) (n + 1) }
      shake := { s.shake with
        clamp := s.shake.clamp.map fun n => min 4000 (n + 1)
        spin := s.shake.spin.map fun n => min 6000 (n + 1)
        run := s.shake.run.map fun n => min (runLimit s) (n + 1)
        deferral := s.shake.deferral.map fun n => min (s.cfg.general.quietLimit * 1000) (n + 1) }
      line := { s.line with beacon := s.line.beacon.map (· - 1) }
      roster :=
        if s.line.st = .silent then s.roster
        else s.roster.map fun e =>
          if e.present && 4 * s.cfg.ident.beaconInterval ≤ e.age then e else { e with age := min 65535 (e.age + 1) }
      power := { s.power with timer := s.power.timer.map fun n => min 30000 (n + 1) }
      air := { s.air with timer := s.air.timer.map fun n => min 30000 (n + 1) }
      mon := { s.mon with keepalive := s.mon.keepalive.map (· - 1) } }
    (s.pump.op = none → step s = .next (settle (ticked s.pump s.cans))) ∧
    (∀ o : PumpOp, s.pump.op = some o →
      (o.stage ≠ .moving → step s = .next (settle (ticked
        { s.pump with op := some { o with turn := min 150 (o.turn + 1) } } s.cans))) ∧
      (o.stage = .moving → o.paused = true → step s = .next (settle (ticked s.pump s.cans))) ∧
      (o.stage = .moving → o.paused = false →
        let steps := o.frac + (s.cfg.cans[o.slot]).stepRate
        let n := min (steps / 1000) (o.toRun - 1 - o.run)
        let c := s.cans[o.slot]
        step s = .next (settle (ticked
          { s.pump with op := some { o with
            run := o.run + n
            frac := steps % 1000
            counted := if o.segment = .forward then o.counted + n else o.counted } }
          (match o.segment with
            | .home => s.cans
            | .restore => s.cans.set o.slot { c with piston := c.piston + n }
            | .forward => s.cans.set o.slot { c with piston := c.piston + n }
            | .refill => s.cans.set o.slot { c with piston := c.piston - n }
            | .snuffBack => s.cans.set o.slot { c with piston := c.piston - n }))))))

/-- Every command answers a next state (the model's choice, log 5) and leaves the commands that wait behind it (the queue
is the model's own, log 1). -/
def Obligations.EveryCommandAnswersNext : Prop :=
  ∀ (c : Instr) (s : State), ∃ t, exec c s = .next t ∧ t.pending = s.pending

/-- What follows a command touches the stirrer grants, a call of a tin and the three deferral timers, and nothing
else. A call sets TIN_WANTED and no other flag, and leaves the enables. -/
def Obligations.SettleTouchesOnlyItsBlocks : Prop :=
  ∀ s : State, let t := settle s
    t.phase = s.phase ∧ t.inputs = s.inputs ∧ t.cfg = s.cfg ∧ t.store = s.store ∧ t.port = s.port ∧ t.pump = s.pump ∧
    t.scale = s.scale ∧ t.line = s.line ∧ t.roster = s.roster ∧ t.power = s.power ∧ t.air = s.air ∧ t.mon = s.mon ∧
    t.completion = s.completion ∧ t.free = s.free ∧ t.pending = s.pending ∧
    t.carriage = { s.carriage with deferral := t.carriage.deferral } ∧
    t.lid = { s.lid with deferral := t.lid.deferral } ∧ t.shake = { s.shake with deferral := t.shake.deferral } ∧
    (∀ i : Slot, t.cans[i] = { s.cans[i] with activity := (t.cans[i]).activity }) ∧ t.stir.minute = s.stir.minute ∧
    (t.disp = s.disp ∧ t.jobs = s.jobs ∧ t.events = s.events ∨
      s.disp.st = .empty ∧ t.disp.st = .called ∧
        t.events = { s.events with flags := s.events.flags ||| BitVec.twoPow 15 2 }) ∧
    (s.online = false → t = s)

/-- The first eligible job hands an EMPTY bay a tin whenever R78's conditions hold together: the bay is CALLED,
TIN_WANTED is set and no other flag or enable changes, the job's tins issued rise by one, and with the last tin its
record becomes a reserved place; no call is made otherwise. Stirrers are granted in every mode but OFFLINE, one after another while a slot of the four is free, to
canisters whose activity was IDLE; afterwards no slot is free while an eligible request exists; none is granted with the
door open or while ESTOP stands. The first eligible pre-dispense request in the order made goes first, then the most
overdue of the eligible periodic ones, the lower slot among equals. A pre-dispense request joins the list at its back,
unless the canister is FAULTED, ABSENT, stirred or requested already. A deferral timer stands, from 0 when it is new,
exactly while its start is due and the quiet request is raised,
as the command leaves it, with a quiet limit above 0. -/
def Obligations.SettleCallsGrantsAndDefers : Prop :=
  ((∀ (s : State) (j : Job), s.online = true → s.disp.st = .empty → s.mon.mode = .run → s.mon.safe = false →
    s.inputs.presDispense = false → s.stopStands = false →
    (s.jobs.records.find? fun k => decide (k.priority ≤ 2)) = some j →
      let j' := { j with issued := j.issued + 1 }
      let t := settle s
      t.disp = { s.disp with
        st := .called, resume := none, step := none, removed := false, tin := some (openRecord s j') } ∧
      t.events = { s.events with flags := s.events.flags ||| BitVec.twoPow 15 2 } ∧
      t.jobs =
        if j.issued + 1 = j.count then
          { s.jobs with records := s.jobs.records.filter (·.id != j.id), reserved := s.jobs.reserved ++ [j'] }
        else { s.jobs with records := s.jobs.records.map fun k => if k.id == j.id then j' else k }) ∧
  (∀ s : State,
    (s.disp.st ≠ .empty ∨ s.mon.mode ≠ .run ∨ s.mon.safe = true ∨ s.inputs.presDispense = true ∨ s.stopStands = true ∨
      ∀ k ∈ s.jobs.records, 2 < k.priority) →
      (settle s).disp = s.disp ∧ (settle s).jobs = s.jobs)) ∧
  (((∀ s : State, s.online = true → (settle s).stir.runs.length < 4 → nextGrant (settle s) = none) ∧
  (∀ s : State, s.stir.runs.length ≤ 4 → (settle s).stir.runs.length ≤ 4) ∧
  (∀ (s : State) (r : StirRun), r ∈ (settle s).stir.runs → r ∉ s.stir.runs →
    (s.cans[r.slot]).activity = .idle ∧ ((settle s).cans[r.slot]).activity = .stirring ∧
    r.left = s.cfg.general.stirRun * 1000 ∧ r.check = some 3000) ∧
  (∀ s : State, s.inputs.doorOpen = true ∨ s.mon.estop = true → (settle s).stir = s.stir ∧ (settle s).cans = s.cans) ∧
  (∀ s : State, s.online = true → (settle s).stir = (grantStirs s).stir ∧ (settle s).cans = (grantStirs s).cans) ∧
  (∀ s : State,
    (4 ≤ s.stir.runs.length ∨ nextGrant s = none → grantStirs s = s) ∧
    (∀ i : Slot, s.stir.runs.length < 4 → nextGrant s = some i → grantStirs s = grantStirs { s with
      stir := { s.stir with
        pre := s.stir.pre.filter (· ≠ i)
        runs := s.stir.runs ++
          [{ slot := i, left := s.cfg.general.stirRun * 1000, check := some 3000, slow := 0, expired := false }] }
      cans := s.cans.set i { s.cans[i] with activity := .stirring } })) ∧
  (∀ s : State,
    let overdueBy (i : Slot) : Nat := (s.cans[i]).age - (s.cfg.cans[i]).stirInterval
    let first := s.stir.pre.find? (stirEligible s)
    (nextGrant s = none ↔ ∀ i : Slot, stirEligible s i = true → i ∉ s.stir.pre ∧ periodic s i = false) ∧
    (∀ i : Slot, first = some i → nextGrant s = some i) ∧
    (∀ i : Slot, first = none → periodic s i = true → stirEligible s i = true →
      (∀ j : Slot, periodic s j = true → stirEligible s j = true →
        overdueBy j < overdueBy i ∨ (overdueBy j = overdueBy i ∧ i ≤ j)) → nextGrant s = some i)) ∧
  (∀ (s : State) (i : Slot),
    let c := s.cans[i]
    let p := s.cfg.cans[i]
    (stirEligible s i = true ↔ c.activity = .idle ∧ s.inputs.doorOpen = false ∧ s.mon.estop = false) ∧
    (periodic s i = true ↔ p.stirInterval ≠ 0 ∧ p.stirInterval ≤ c.age ∧
      (c.state = .uncalibrated ∨ c.state = .ready ∨ c.state = .calibrating) ∧ c.activity ≠ .stirring ∧
      i ∉ s.stir.pre) ∧
    (hasSettled s i = true ↔ p.settleLimit ≠ 0 ∧ p.settleLimit < c.age) ∧
    (c.state = .faulted ∨ c.state = .absent ∨ c.activity = .stirring ∨ i ∈ s.stir.pre → makePre i s = s) ∧
    (c.state ≠ .faulted → c.state ≠ .absent → c.activity ≠ .stirring → i ∉ s.stir.pre →
      makePre i s = { s with stir := { s.stir with pre := s.stir.pre ++ [i] } }))) ∧
  (∀ s : State, s.online = true →
    let waits := s.disp.quiet && s.cfg.general.quietLimit != 0
    (settle s).carriage.deferral = (if (carriageDue s && waits) = true then some (s.carriage.deferral.getD 0) else none) ∧
    (settle s).lid.deferral = (if (pressDue s && waits) = true then some (s.lid.deferral.getD 0) else none) ∧
    (settle s).shake.deferral = (if (spinDue s && waits) = true then some (s.shake.deferral.getD 0) else none)))

/-! ## Reset, power and the configuration store -/

/-- The state after reset holds the spec's reset values: PAUSE, queues and bays empty, sixteen ABSENT canisters with
stir age 65,535, every flag clear and enable off, the roster ABSENT and the agents IDLE, the attention output
inactive; the configuration is the factory default and the phase RUNNING (log 1). The reset state keeps the limits and
the order of jobs, has no quiet request, draws on no supply without its claim, and no stop stands in it. -/
def Obligations.ResetHoldsTheResetValues : Prop :=
  (let s := State.reset
  s.mon.mode = .pause ∧ s.mon.safe = false ∧ s.mon.estop = false ∧ s.anyFault = false ∧ s.jobs.places = 0 ∧
  s.completion = [] ∧
  (∀ i : Slot, (s.cans[i]).state = .absent ∧ (s.cans[i]).activity = .idle ∧ (s.cans[i]).level = 0 ∧
    (s.cans[i]).age = 65535) ∧
  s.stir.runs = [] ∧ s.pump.op = none ∧ s.scale.zero = 0 ∧ s.scale.window = [] ∧ s.disp.st = .empty ∧
  s.carriage.st = .idle ∧ s.lid.st = .empty ∧ s.lid.declared = none ∧ s.shake.st = .empty ∧ s.events.flags = 0 ∧
  s.events.enables = 0 ∧ attention s = false ∧
  (∀ n : Station, (s.roster[n]).present = false ∧ (s.roster[n]).age = 65535) ∧ s.power.st = .idle ∧ s.air.st = .idle ∧
  s.line.st = .silent ∧ s.port.receiver = .hunting ∧ s.port.held = none ∧ s.port.overrun = false ∧
  s.cfg = Loaded.default ∧ s.phase = .running ∧ s.pending = []) ∧
  (WithinLimits State.reset ∧ DrivesLicensed State.reset ∧ StopHolds State.reset ∧ JobsOrdered State.reset ∧
    QuietFits State.reset)

/-- POWER_LOSS, POWER_ON and an acting RESET_LINE put every volatile block at its reset value and keep the sectors; a
write under way leaves its sector with bytes that no rule fixes (free values, log 9). A released RESET_LINE lets the
part start, and one held through a power-on or a power loss goes on holding it. That POWER_ON acts in every phase and
cuts a write short, that without power RESET_LINE is only followed, the phases and the configuration a part that is
down shows are the model's reading (log 7). -/
def Obligations.PowerAndResetLineForget : Prop :=
  let down (p : Phase) (s : State) : State :=
    { State.reset with phase := p, inputs := s.inputs, store := s.store, free := s.free, pending := s.pending }
  let lost (s : State) : Phase := if s.phase = .held ∨ s.phase = .offHeld then .offHeld else .off
  let on (s : State) : Phase := if s.phase = .held ∨ s.phase = .offHeld then .held else .starting
  (∀ s : State, s.store.write = none →
    exec .powerLoss s = .next (down (lost s) s) ∧ exec .powerOn s = .next (down (on s) s) ∧
    (s.phase ≠ .off → s.phase ≠ .offHeld → exec (.resetLine true) s = .next (down .held s))) ∧
  (∀ (s : State) (w : WriteJob), s.store.write = some w → ∃ bytes : List Byte,
    bytes.length = (s.store.sector w.part.sector).length ∧
    let t := { s with store := { s.store.setSector w.part.sector bytes with write := none }, free := s.free + 1 }
    exec .powerLoss s = .next (down (lost s) t) ∧ exec .powerOn s = .next (down (on s) t) ∧
    (s.phase ≠ .off → s.phase ≠ .offHeld → exec (.resetLine true) s = .next (down .held t))) ∧
  (∀ s : State, s.phase = .held → exec (.resetLine false) s = .next { s with phase := .starting }) ∧
  (∀ (s : State) (active : Bool), s.phase = .off ∨ s.phase = .offHeld →
    exec (.resetLine active) s = .next { s with phase := if active then .offHeld else .off }) ∧
  (∀ s : State, s.phase ≠ .held → s.phase ≠ .offHeld → exec (.resetLine false) s = .next s)

/-- A start whose load passes runs with the loaded configuration in PAUSE: an empty station with no object in it, its
line SILENT or, in PEER mode, LISTENING with a first BEACON queued; CONFIG_CORRECTED tells of a corrected bit. A bay
that finds an object at start is ORPHAN with ORPHAN_TIN set, a clamp found closed is opened, and an emergency-stop
input found active applies the stop, which holds the bays from EMPTY or ORPHAN, blanks the scale and, in PEER mode, has a
RELEASE queued in each pool (the last two by log 73); a load that fails leaves OFFLINE with
CONFIG and BAY_FAULT. While the reset line is held or a write is under way no start runs. That START_UP acts in RUNNING
too, as a further start, is the model's reading (log 7). The judgement of the sectors: one that carries its check code is
clean, one flipped bit of contents or code is corrected, two make it uncorrectable; an uncorrectable sector, or one with
a parameter out of its range, reported by its part and position, fails the load, and so do draws that do not fit each
other or the budgets. -/
def Obligations.StartUpPlacesTheStation : Prop :=
  (∀ (s : State) (i : Inputs) (c : Loaded), mayStart s = true →
    (loadSectors s.store.identBytes s.store.stationBytes).loaded = some c →
    i.presDispense = false → i.presLid = false → i.presShake = false → i.clampClosed = false → i.estop = false →
    let r := loadSectors s.store.identBytes s.store.stationBytes
    let corrected : BitVec 15 :=
      if corrects s.store.identBytes || corrects s.store.stationBytes then BitVec.twoPow 15 13 else 0
    let t := { State.reset with
      inputs := i
      cfg := c
      store := { s.store with
        identReport := r.identReport, stationReport := r.stationReport, strapMark := i.strap, write := none
        identLast := .none, stationLast := .none }
      events := { flags := corrected, enables := 0 }
      free := s.free
      pending := s.pending }
    (c.ident.lineMode = .solo → exec (.startUp i) s = .next (settle t)) ∧
    (c.ident.lineMode = .peer → exec (.startUp i) s = .next (settle { t with
      events := { flags := corrected ||| BitVec.twoPow 15 11, enables := 0 }
      line := { LineCtl.reset with
        st := .listening
        queue := [{ kind := .beacon, pool := .power, amount := 0, count := 0, attempts := 0 }]
        beacon := some c.ident.beaconInterval } }))) ∧
  ((∀ (s : State) (i : Inputs) (c : Loaded), mayStart s = true →
    (loadSectors s.store.identBytes s.store.stationBytes).loaded = some c → ∃ t, exec (.startUp i) s = .next t ∧
      t.mon.mode = .pause ∧ t.mon.estop = i.estop ∧
      t.flag .orphanTin = (i.presDispense || i.presLid || i.presShake) ∧
      (i.estop = false →
        t.disp.st = (if i.presDispense then .orphan else .empty) ∧ t.lid.st = (if i.presLid then .orphan else .empty) ∧
        t.shake.st = (if i.presShake then .orphan else if i.clampClosed then .unclamp else .empty)) ∧
      (i.estop = true → t.flag .bayFault = true ∧ t.disp.st = .stopped ∧ t.lid.st = .stopped ∧ t.shake.st = .stopped ∧
        t.disp.resume = some (if i.presDispense then .orphan else .empty) ∧
        t.lid.resume = some (if i.presLid then .orphan else .empty) ∧
        t.shake.resume = some (if i.presShake then .orphan else .empty) ∧ t.shake.clampDrive = .off ∧
        t.scale.blank = some c.general.blankTime ∧
        (c.ident.lineMode = .peer → ∀ p : Pool, ∃ f ∈ t.line.queue, f.kind = .release ∧ f.pool = p))) ∧
  (∀ (s : State) (i : Inputs), mayStart s = true →
    (loadSectors s.store.identBytes s.store.stationBytes).loaded = none → ∃ t, exec (.startUp i) s = .next t ∧
      t.phase = .running ∧ t.mon.mode = .offline ∧ t.mon.config = true ∧ t.flag .bayFault = true ∧ t.line.st = .silent ∧
      t.jobs = JobQueue.reset ∧ t.disp = DispenseBay.reset ∧ t.lid = LidBay.reset ∧ t.shake = ShakeBay.reset)) ∧
  (∀ (s : State) (i : Inputs), s.phase = .held ∨ s.phase = .offHeld ∨ s.phase = .off ∨ s.store.write.isSome = true →
    exec (.startUp i) s = .next s) ∧
  ((∀ contents : List Byte, contents.length = 5 ∨ contents.length = 395 →
    let stored := contents ++ bytesOf 2 (crc16 contents).toNat
    let flip (n : Nat) (bytes : List Byte) : List Byte := bytes.modify (n / 8) (· ^^^ BitVec.twoPow 8 (n % 8))
    judgeCode stored = .clean contents ∧
    (∀ n : Nat, n < 8 * stored.length → judgeCode (flip n stored) = .corrected contents) ∧
    (∀ n m : Nat, n < m → m < 8 * stored.length →
      judgeCode (flip n (flip m stored)) = .uncorrectable ((flip n (flip m stored)).take contents.length))) ∧
  (∀ (x : SectorId) (stored contents : List Byte),
    let wrong (p : PartId) : Option Nat := firstWrong p (partBytes p contents)
    (corrects stored = true ↔ ∃ c, judgeCode stored = .corrected c) ∧
    (judgeCode stored = .uncorrectable contents → judgeSector x stored = .uncorrectable) ∧
    (judgeCode stored = .clean contents ∨ judgeCode stored = .corrected contents →
      (∀ (p : PartId) (n : Nat), p.sector = x → wrong p = some n →
        (∀ q : PartId, q.sector = x → q.number < p.number → wrong q = none) →
          judgeSector x stored = .range p.number n) ∧
      ((∀ p : PartId, p.sector = x → wrong p = none) →
        judgeSector x stored = if corrects stored then .corrected else .clean))) ∧
  (∀ ident station : List Byte,
    let ri := judgeSector .identity ident
    let rs := judgeSector .station station
    let passes (r : LoadReport) : Prop := r = .clean ∨ r = .corrected
    let iv := (judgeCode ident).contents
    let sv := (judgeCode station).contents
    let draw (bytes : List Byte) (n : Nat) : Nat := (bytes.getD n 0).toNat
    let fits := draw sv 3 ≤ draw sv 2 ∧ draw sv 2 ≤ draw iv 3 ∧ draw sv 4 ≤ draw iv 4
    (¬ (passes ri ∧ passes rs) →
      loadSectors ident station = { identReport := ri, stationReport := rs, loaded := none }) ∧
    (passes ri → passes rs → ¬ fits →
      loadSectors ident station = { identReport := ri, stationReport := .draw, loaded := none }) ∧
    (passes ri → passes rs → fits →
      loadSectors ident station = { identReport := ri, stationReport := rs, loaded := some (loadedOf iv sv) })))

/-- NV_STORE's checks are made in the order sector and part (an image of another length than the part's among them),
mode, strap, write under way, parameters; each has its refusal. A part's parameters stand one after another in the
widths of R197; one is wrong outside its range, as a gross band's high bound below the low one, or as a snuff-back not
below its travel, and the first wrong one counts, from 1 (log 10). An accepted NV_STORE begins a write of the part into
its sector as it stands, with a flipped bit corrected, or into the default image where it is uncorrectable; the write's
end leaves the whole new sector with its check code, or, when the readback differs, bytes that no rule fixes (free
values, log 9). A start that waited for it (section 12.5, log 7) then begins, with every volatile block at its reset
value; a running part goes on. -/
def Obligations.SectorWriteBeginsAndEnds : Prop :=
  (∀ (s u : State) (sector part : Byte) (image : List Byte), portFree s → u = restartKeepalive s →
    let refused (st : Status) : Prop :=
      exec (.nvStore sector part image) s = .next (settle (withResponse 0x16 st [] s.port.overrun u))
    (PartId.ofBytes sector part = none → refused .badField) ∧
    (∀ p : PartId, PartId.ofBytes sector part = some p →
      let allowed := u.mon.mode = .maint ∨ u.mon.mode = .offline
      let strapped := p = .identity → u.store.strapMark = true
      (image.length ≠ p.size → refused .badField) ∧
      (image.length = p.size → ¬ allowed → refused .notPermitted) ∧
      (image.length = p.size → allowed → ¬ strapped → refused .notPermitted) ∧
      (image.length = p.size → allowed → strapped → u.store.write.isSome = true → refused .busy) ∧
      (image.length = p.size → allowed → strapped → u.store.write = none → (firstWrong p image).isSome = true →
        refused .badField) ∧
      (image.length = p.size → allowed → strapped → u.store.write = none → firstWrong p image = none →
        exec (.nvStore sector part image) s = .next (settle (withResponse 0x16 .ok [] s.port.overrun { u with
          store := { u.store with
            write := some { part := p, contents := replacePart p (writeBase u p.sector) image } } }))))) ∧
  ((∀ (sector part : Byte) (p : PartId), PartId.ofBytes sector part = some p ↔
    sector.toNat = (match p.sector with | .identity => 0 | .station => 1) ∧ part.toNat = p.number) ∧
  (∀ p : PartId, (p.sector, p.number, p.size, p.offset) =
    match p with
    | .identity => (.identity, 0, 5, 0)
    | .general => (.station, 0, 43, 0)
    | .sizes => (.station, 1, 112, 43)
    | .cansLow => (.station, 2, 120, 155)
    | .cansHigh => (.station, 3, 120, 275)) ∧
  (∀ (p : PartId) (image : List Byte),
    let start (i : Nat) : Nat := ((p.fields.take i).map FieldSpec.width).sum
    let value (i : Nat) : Nat := valueOf ((image.drop (start i)).take (start (i + 1) - start i))
    let right (i : Nat) (f : FieldSpec) : Prop :=
      f.low ≤ value i ∧ value i ≤ f.high ∧ (p = .sizes → i % 7 = 3 → value (i - 1) ≤ value i) ∧
      (p = .cansLow ∨ p = .cansHigh → i % 8 = 1 → value i < value (i - 1))
    (firstWrong p image = none ↔ ∀ (i : Nat) (f : FieldSpec), p.fields[i]? = some f → right i f) ∧
    (∀ n : Nat, firstWrong p image = some (n + 1) ↔
      (∃ f, p.fields[n]? = some f ∧ ¬ right n f) ∧
      ∀ (i : Nat) (f : FieldSpec), i < n → p.fields[i]? = some f → right i f) ∧
    firstWrong p image ≠ some 0) ∧
  (∀ (p : PartId) (contents image : List Byte),
    replacePart p contents image = contents.take p.offset ++ image ++ contents.drop (p.offset + p.size) ∧
    sealed contents = contents ++ bytesOf 2 (crc16 contents).toNat) ∧
  (∀ (s : State) (x : SectorId) (contents : List Byte),
    let stored := match x with
      | .identity => s.store.identBytes
      | .station => s.store.stationBytes
    (judgeCode stored = .clean contents ∨ judgeCode stored = .corrected contents → writeBase s x = contents) ∧
    (judgeCode stored = .uncorrectable contents → writeBase s x = defaultContents x))) ∧
  (∀ (s : State) (w : WriteJob), s.store.write = some w →
    let ended (store : Store) (free : Nat) : State :=
      if s.phase = .awaitWrite then
        { State.reset with phase := .starting, inputs := s.inputs, store := store, free := free, pending := s.pending }
      else { s with store := store, free := free }
    exec (.nvWriteDone true) s = .next (ended
      { (s.store.setSector w.part.sector (sealed w.contents)).setLastWrite w.part.sector .done with write := none }
      s.free) ∧
    ∃ bytes : List Byte, bytes.length = (s.store.sector w.part.sector).length ∧
      exec (.nvWriteDone false) s = .next (ended
        { (s.store.setSector w.part.sector bytes).setLastWrite w.part.sector .failed with write := none }
        (s.free + 1))) ∧
  (∀ (s : State) (agrees : Bool), s.store.write = none → exec (.nvWriteDone agrees) s = .next s)

/-! ## The station port -/

/-- A gap makes the receiver hunt again. A message that announces more than 300 bytes is discarded at its second
length byte, and every byte until a gap is ignored. A whole message whose CRC does not match is answered BAD_FRAME,
one whose kind byte names no request BAD_KIND, both without restarting the keepalive timer; one of a known kind whose
length does not fit is answered BAD_FIELD. -/
def Obligations.ReceiverDiscardsAndJudges : Prop :=
  (∀ s : State, s.phase = .running →
    exec .messageGap s = .next (settle { s with port := { s.port with receiver := .hunting } }) ∧
    (∀ length : Word16, s.port.receiver = .hunting → 300 < length.toNat + 6 →
      exec (.oversizeMessage length) s = .next (settle { s with port := { s.port with receiver := .ignoring } })) ∧
    (∀ bytes : List Byte, s.port.receiver = .ignoring → exec (.messageComplete bytes) s = .next (settle s))) ∧
  ((∀ (s : State) (kind : Byte) (payload : List Byte) (crc : Word16), portFree s → s.port.receiver = .hunting →
    payload.length ≤ maxPayload →
    let body := [0x7E] ++ bytesOf 2 payload.length ++ [kind] ++ payload
    crcBytes body ≠ bytesOf 2 crc.toNat →
      exec (.messageComplete (body ++ bytesOf 2 crc.toNat)) s =
        .next (settle (withResponse kind .badFrame [] s.port.overrun s))) ∧
  (∀ (s : State) (kind : Byte) (payload : List Byte), portFree s → s.port.receiver = .hunting →
    payload.length ≤ maxPayload → (kind = 0 ∨ 0x18 < kind.toNat) →
      exec (.messageComplete (messageBytes kind payload)) s =
        .next (settle (withResponse kind .badKind [] s.port.overrun s))) ∧
  (∀ (s : State) (kind : Byte) (payload : List Byte), serving s → s.port.receiver = .hunting →
    payload.length ≤ maxPayload → 1 ≤ kind.toNat → kind.toNat ≤ 0x18 → requestOf kind payload = none →
      exec (.messageComplete (messageBytes kind payload)) s =
        .next (settle (withResponse kind .badField [] s.port.overrun (restartKeepalive s)))))

/-- A request's payload, written as section 13 lays it out, reads back as that request with every operand. -/
def Obligations.RequestPayloadsReadBack : Prop :=
  ∀ r : Request, requestFits r → requestOf (requestKind r) (requestPayload r) = some r

/-- The bytes of a request's message, received by a hunting receiver, do what the request's own command does. -/
def Obligations.MessageBytesAreTheirRequest : Prop :=
  ∀ (c : Instr) (r : Request) (s : State), requestOfCommand c = some r → requestFits r →
    (requestPayload r).length ≤ maxPayload → s.phase = .running → s.port.receiver = .hunting →
    exec (.messageComplete (messageBytes (requestKind r) (requestPayload r))) s = exec c s

/-- A request that completes (whatever the receiver holds, log 6) while another is being answered is held; with one already held it is discarded and the
OVERRUN mark is set, the keepalive timer untouched. Once a response has been sent the held request is taken, and its
answer carries and clears the OVERRUN mark; with none held the port is free. -/
def Obligations.PortAnswersOneAtATime : Prop :=
  (∀ (c : Instr) (r : Request) (s : State), requestOfCommand c = some r → s.phase = .running →
    s.port.answering.isSome = true →
    (s.port.held = none →
      let u := restartKeepalive s
      exec c s = .next (settle { u with port := { u.port with held := some (.request r) } })) ∧
    (s.port.held.isSome = true → exec c s = .next (settle { s with port := { s.port with overrun := true } }))) ∧
  (∀ (s : State) (a : Response), s.phase = .running → s.port.answering = some a → ¬ (a.kind = 0x17 ∧ a.status = .ok) →
    (s.port.held = none →
      exec .responseSent s = .next (settle { s with port := { s.port with answering := none } })) ∧
    (∀ m : Message, s.port.held = some m →
      let u := { s with port := { s.port with answering := none, held := none } }
      let n := answerMessage m u
      exec .responseSent s = .next (settle (withResponse m.kind n.status n.payload s.port.overrun n.after))))

/-- A request that a free port takes (whatever the receiver holds, log 6) is answered at once by its owner, with the OVERRUN mark, which the response
clears; the keepalive timer starts afresh. In OFFLINE the requests outside section 11.2's list are refused with
NOT_PERMITTED and change nothing. -/
def Obligations.RequestsAreAnsweredByTheirOwner : Prop :=
  (∀ (c : Instr) (r : Request) (s : State), requestOfCommand c = some r → serving s →
    let n := ownerAnswer r (restartKeepalive s)
    exec c s = .next (settle (withResponse (requestKind r) n.status n.payload s.port.overrun n.after))) ∧
  (∀ s : State, serving s → 0 < s.cfg.general.keepalive →
    restartKeepalive s = { s with mon := { s.mon with keepalive := some (s.cfg.general.keepalive * 1000) } }) ∧
  (∀ (c : Instr) (r : Request) (s : State), requestOfCommand c = some r → portFree s → s.mon.mode = .offline →
    requestKind r ∉ ([0x0E, 0x0F, 0x10, 0x15, 0x16, 0x17, 0x18] : List Byte) →
    exec c s = .next (withResponse (requestKind r) .notPermitted [] s.port.overrun s))

/-- The requests that ask change nothing but the port and the keepalive timer, and are answered with what they ask
for, in the model's layouts (logs 11, 12, 69, 75, 77, 82). -/
def Obligations.QueriesChangeNothing : Prop :=
  ∀ s u : State, serving s → u = restartKeepalive s →
    exec .queryBays s = .next (settle (withResponse 0x05 .ok (baysBytes u) s.port.overrun u)) ∧
    exec .peers s = .next (settle (withResponse 0x14 .ok (peersBytes u) s.port.overrun u)) ∧
    (∀ (slot : Byte) (i : Slot), slot.toNat = i.val + 1 →
      exec (.canQuery slot) s = .next (settle (withResponse 0x09 .ok (canisterBytes u i) s.port.overrun u))) ∧
    (∀ job : Word16, jobKnown u job.toNat = true →
      let id := job.toNat
      exec (.queryJob job) s = .next (settle (withResponse 0x04 .ok
        (jobFacts u id ++ bytesOf 1 (u.jobs.position id) ++ optNat 1 (indexOf id u.disp.tin) ++
          optNat 1 (indexOf id u.carriage.tin) ++ optNat 1 (indexOf id u.lid.tin) ++ optNat 1 (indexOf id u.shake.tin))
        s.port.overrun u))) ∧
    (∀ job : Word16, jobKnown u job.toNat = false →
      exec (.queryJob job) s = .next (settle (withResponse 0x04 .noSuchJob [] s.port.overrun u))) ∧
    (∀ (sector part : Byte) (p : PartId), PartId.ofBytes sector part = some p →
      u.store.writingSector p.sector = false →
        exec (.nvRead sector part) s = .next (settle (withResponse 0x15 .ok
          (reportBytes (u.store.report p.sector) ++ bytesOf 1 (u.store.lastWrite p.sector).code ++
            [if u.store.strapMark then 1 else 0] ++ partBytes p (judgeCode (u.store.sector p.sector)).contents)
          s.port.overrun u))) ∧
    (∀ (sector part : Byte) (p : PartId), PartId.ofBytes sector part = some p →
      u.store.writingSector p.sector = true →
        exec (.nvRead sector part) s = .next (settle (withResponse 0x15 .busy [] s.port.overrun u)))

/-- PING returns its payload unchanged in every mode, a payload above 16 bytes is BAD_FIELD; RESET is answered OK, no
request is taken behind it, and at the end of its response the part is down to a start as after power-on. While a
write is under way the start waits, the port being silent and the other blocks going on (log 7). -/
def Obligations.PingAndReset : Prop :=
  (∀ s u : State, portFree s → u = restartKeepalive s →
    (∀ payload : List Byte, payload.length ≤ 16 →
      exec (.ping payload) s = .next (settle (withResponse 0x18 .ok payload s.port.overrun u))) ∧
    (∀ payload : List Byte, 16 < payload.length →
      exec (.ping payload) s = .next (settle (withResponse 0x18 .badField [] s.port.overrun u))) ∧
    exec .reset s = .next (settle (withResponse 0x17 .ok [] s.port.overrun u))) ∧
  (∀ (s : State) (a : Response), s.phase = .running → s.port.answering = some a → a.kind = 0x17 → a.status = .ok →
    (s.store.write = none → exec .responseSent s = .next { State.reset with
      phase := .starting, inputs := s.inputs, store := s.store, free := s.free, pending := s.pending }) ∧
    (s.store.write.isSome = true → exec .responseSent s = .next (settle { s with
      phase := .awaitWrite
      port := { receiver := .hunting, answering := none, held := none, overrun := false } }))) ∧
  (∀ (c : Instr) (r : Request) (s : State), requestOfCommand c = some r → s.phase = .awaitWrite → exec c s = .next s)

/-! ## Events and attention -/

/-- The attention output is active exactly while a flag is set whose enable is set; it depends on nothing else,
follows every change at once, and is inactive after reset. A flag whose enable is off is set all the same. -/
def Obligations.AttentionFollowsTheFlags : Prop :=
  (∀ s : State, attention s = true ↔ ∃ f : EventFlag, s.flag f = true ∧ s.events.enables.getLsbD f.bit = true) ∧
  (∀ s t : State, s.events = t.events → attention s = attention t) ∧
  (∀ (s : State) (f : EventFlag), (setFlag f s).flag f = true) ∧
  (∀ (s : State) (f : EventFlag), s.events.enables.getLsbD f.bit = true → attention (setFlag f s) = true) ∧
  attention State.reset = false

/-- EVENTS answers the flags, the enables and the level of the attention output (0 active, 1 inactive, read from 13
R204, log 11) and changes nothing; EVENT_MASK gives every enable the value given, leaves the flags and answers both; a
set beyond the fifteen is BAD_FIELD; in every mode. -/
def Obligations.EventsAndEventMask : Prop :=
  ∀ s u : State, portFree s → u = restartKeepalive s →
    exec .events s = .next (settle (withResponse 0x0E .ok
      (bytesOf 2 s.events.flags.toNat ++ bytesOf 2 s.events.enables.toNat ++ [if attention s then 0 else 1])
      s.port.overrun u)) ∧
    (∀ set : Word16, set.toNat < 32768 →
      exec (.eventMask set) s = .next (settle (withResponse 0x10 .ok
        (bytesOf 2 s.events.flags.toNat ++ bytesOf 2 set.toNat) s.port.overrun
        { u with events := { flags := s.events.flags, enables := set.setWidth 15 } }))) ∧
    (∀ set : Word16, 32768 ≤ set.toNat →
      exec (.eventMask set) s = .next (settle (withResponse 0x10 .badField [] s.port.overrun u)))

/-- EVENT_ACK clears every flag named, whatever its enable, keeps the others and the enables, and answers the flags as
they then stand; a set beyond the fifteen is BAD_FIELD. A setting taken first is cleared; one taken after stands. -/
def Obligations.EventAckClearsWhatItNames : Prop :=
  (∀ s u : State, portFree s → u = restartKeepalive s →
    (∀ set : Word16, set.toNat < 32768 →
      let flags := s.events.flags &&& ~~~(set.setWidth 15)
      exec (.eventAck set) s = .next (settle (withResponse 0x0F .ok (bytesOf 2 flags.toNat) s.port.overrun
        { u with events := { flags := flags, enables := s.events.enables } }))) ∧
    (∀ set : Word16, 32768 ≤ set.toNat →
      exec (.eventAck set) s = .next (settle (withResponse 0x0F .badField [] s.port.overrun u)))) ∧
  (∀ (s : State) (f : EventFlag) (set : Word16), set.toNat < 32768 →
    let acked (t : State) : State := (ownEventAck set t).after
    ((acked s).flag f = (s.flag f && !set.getLsbD f.bit)) ∧
    (set.getLsbD f.bit = true → (acked (setFlag f s)).flag f = false) ∧ (setFlag f (acked s)).flag f = true)

/-! ## Jobs and records -/

/-- SUBMIT's checks are made in the order fields, canister, volume, place; a job that passes them joins the queue
under the next free id and arrival number and is answered OK, or OK_SHORT when canisters cannot cover it, with its id,
its position and the short canisters. Where the arrival counter can rise no further, the jobs and reserved places present
take 0, 1 and so on in their arrival order, and the counter their number. A record placed in an ordered queue stands in
the order of priority and arrival, and the queue holds what it held and the record. A canister is missing that is ABSENT
or UNCALIBRATED; the tin overfills when its lines' volumes pass the headroom; a canister is short, by its bit of the set,
when the batch's demand on it, at the volume after the minimum-shot rules, exceeds its level above its reserve; the id
given is the first from the counter on, from 65535 to 1, that is present nowhere on the station. -/
def Obligations.SubmitQueuesByPriority : Prop :=
  (∀ (f : SubmitFields) (s u : State), serving s → u = restartKeepalive s →
    let answer (st : Status) : Host.Outcome State Fault Refusal := .next (settle (withResponse 0x01 st [] s.port.overrun u))
    (submitJob u f = none → exec (.submit f) s = answer .badField) ∧
    (∀ j : Job, submitJob u f = some j →
      (missingCanister u j = true → exec (.submit f) s = answer .noCanister) ∧
      (missingCanister u j = false → overfills u j = true → exec (.submit f) s = answer .overfill) ∧
      (missingCanister u j = false → overfills u j = false → 24 ≤ u.jobs.places → exec (.submit f) s = answer .full) ∧
      (missingCanister u j = false → overfills u j = false → u.jobs.places < 24 → u.jobs.nextArrival < 4294967295 →
        let k := { j with id := freeId u 64 u.jobs.nextId, arrival := u.jobs.nextArrival }
        let q : JobQueue :=
          { records := insertJob k u.jobs.records
            reserved := u.jobs.reserved
            nextId := if 65535 ≤ k.id then 1 else k.id + 1
            nextArrival := u.jobs.nextArrival + 1 }
        exec (.submit f) s = .next (settle (withResponse 0x01 (if shortSet u k = 0 then .ok else .okShort)
          (bytesOf 2 k.id ++ bytesOf 1 (q.position k.id) ++ bytesOf 2 (shortSet u k)) s.port.overrun
          { u with jobs := q }))) ∧
      (missingCanister u j = false → overfills u j = false → u.jobs.places < 24 → 4294967295 ≤ u.jobs.nextArrival →
        let k := { j with id := freeId u 64 u.jobs.nextId, arrival := u.jobs.nextArrival }
        let records := insertJob k u.jobs.records
        let present := records ++ u.jobs.reserved
        let again (x : Job) : Job := { x with arrival := (present.filter fun y => decide (y.arrival < x.arrival)).length }
        let q : JobQueue :=
          { records := records.map again
            reserved := u.jobs.reserved.map again
            nextId := if 65535 ≤ k.id then 1 else k.id + 1
            nextArrival := present.length }
        exec (.submit f) s = .next (settle (withResponse 0x01 (if shortSet u k = 0 then .ok else .okShort)
          (bytesOf 2 k.id ++ bytesOf 1 (q.position k.id) ++ bytesOf 2 (shortSet u k)) s.port.overrun
          { u with jobs := q }))))) ∧
  (∀ (j : Job) (l : List Job),
    (∀ k : Job, k ∈ insertJob j l ↔ k = j ∨ k ∈ l) ∧ (insertJob j l).length = l.length + 1 ∧
    (l.Pairwise (fun a b => b.before a = false) → (insertJob j l).Pairwise fun a b => b.before a = false)) ∧
  (∀ (s : State) (j : Job),
    let size := s.cfg.sizes[j.size]
    let volume (l : FormulaLine) : Nat := (2 * (l.amount * size.fill) + 1000) / 2000
    let final (l : FormulaLine) : Nat :=
      let m := (s.cfg.cans[l.slot]).minShot
      if m ≤ volume l then volume l else if m ≤ 2 * volume l then m else 0
    (missingCanister s j = true ↔ ∃ l ∈ j.lines, (s.cans[l.slot]).state = .absent ∨ (s.cans[l.slot]).state = .uncalibrated) ∧
    (overfills s j = true ↔ size.headroom * 100 < (j.lines.map volume).sum) ∧
    ((j.lines.map (·.slot)).Nodup → ∀ i : Slot, (shortSet s j).testBit i.val = true ↔
      ∃ l ∈ j.lines, l.slot = i ∧ (s.cans[i]).level - (s.cfg.cans[i]).reserve < j.count * final l)) ∧
  (∀ (s : State) (c : Nat), s.jobs.records.length + s.jobs.reserved.length ≤ 24 → s.completion.length ≤ 16 →
    1 ≤ c → c ≤ 65535 →
    let candidate (n : Nat) : Nat := (c - 1 + n) % 65535 + 1
    let present (id : Nat) : Prop :=
      (∃ j ∈ s.jobs.records ++ s.jobs.reserved, j.id = id) ∨ (∃ r ∈ s.completion, r.jobId = id) ∨
      ∃ t ∈ [s.disp.tin, s.carriage.tin, s.lid.tin, s.shake.tin], t.map (·.jobId) = some id
    ∃ n : Nat, freeId s 64 c = candidate n ∧ ¬ present (candidate n) ∧ ∀ m : Nat, m < n → present (candidate m))

/-- CANCEL of an unknown job is NO_SUCH_JOB. Of a known one it removes the record or reserved place and answers how many
tins were dropped, the effect on the dispense bay, and IN_PROGRESS when a tin of the job goes on to its record, else OK.
The job's tin in the bay: CALLED or WRONG_TIN, its call is withdrawn and counts as dropped; in TARE, or before its first
shot in DISPENSING, WAITING or DONE, it goes to CANCELLED with requests closed and dropped, a line that had not reached
its debit being PENDING; held out of such a state in FAULT or STOPPED, it is marked cancelled, its call is no longer
wanted (log 25) and a removal noted before is forgotten; with a shot given, in OUTBOUND or cancelled already, nothing
more happens. SETPRIO moves the job's record to the place its new priority gives it and answers the position; a reserved
place takes the priority; an unknown job is NO_SUCH_JOB and a level above 3 BAD_FIELD. -/
def Obligations.CancelAndSetPrio : Prop :=
  (∀ (job : Word16) (s u : State), serving s → u = restartKeepalive s →
    let id := job.toNat
    let left : State := { u with jobs := { u.jobs with
      records := u.jobs.records.filter (·.id != id), reserved := u.jobs.reserved.filter (·.id != id) } }
    let unissuedTins := match u.jobs.records.find? (·.id == id) with
      | some j => j.count - j.issued
      | none => 0
    let elsewhere := holdsJob id u.carriage.tin || holdsJob id u.lid.tin || holdsJob id u.shake.tin
    let answer (goesOn : Bool) (dropped effect : Nat) (t : State) : Host.Outcome State Fault Refusal :=
      .next (settle (withResponse 0x02 (if elsewhere || goesOn then .inProgress else .ok)
        (bytesOf 1 dropped ++ bytesOf 1 effect) s.port.overrun t))
    let unwanted : Events := { u.events with flags := u.events.flags &&& ~~~(BitVec.twoPow 15 2) }
    (jobKnown u id = false → exec (.cancel job) s = .next (settle (withResponse 0x02 .noSuchJob [] s.port.overrun u))) ∧
    (jobKnown u id = true → holdsJob id u.disp.tin = false → exec (.cancel job) s = answer false unissuedTins 0 left) ∧
    (∀ t : TinRecord, u.disp.tin = some t → t.jobId = id →
      let held := u.disp.st = .fault ∨ u.disp.st = .stopped
      let working := u.disp.st = .dispensing ∨ u.disp.st = .waiting ∨ u.disp.st = .done
      (u.disp.st = .called → exec (.cancel job) s = answer false (unissuedTins + 1) 1 { left with
        disp := { u.disp with st := .empty, resume := none, tin := none }, events := unwanted }) ∧
      (u.disp.st = .wrongTin → exec (.cancel job) s = answer false (unissuedTins + 1) 1 { left with
        disp := { u.disp with tin := none }, events := unwanted }) ∧
      (u.disp.st = .tare ∨ working → t.shotGiven = false → u.inputs.presDispense = true → u.disp.removed = false →
        u.disp.recWait = false → u.pump.op = none →
        let cancelled (lines : List LineEntry) : State := { left with
          stir := { u.stir with pre := [] }
          scale := { u.scale with request := none }
          disp := { u.disp with
            st := .cancelled, resume := none, step := none, removed := false, quiet := false
            tin := some { t with cancelled := true, lines := lines } }
          events := unwanted }
        (activeLine u = none → exec (.cancel job) s = answer false unissuedTins 2 (cancelled t.lines)) ∧
        (∀ (i : Nat) (l : LineEntry), activeLine u = some (i, l) → u.disp.step = some .beforeReading →
          exec (.cancel job) s = answer false unissuedTins 2
            (cancelled (t.lines.modify i fun l => { l with st := .pending })))) ∧
      (working → t.shotGiven = true → exec (.cancel job) s = answer true unissuedTins 0 left) ∧
      (held → u.disp.resume = some .outbound ∨ t.shotGiven = true ∨ t.cancelled = true →
        exec (.cancel job) s = answer t.shotGiven unissuedTins 0 left) ∧
      (held → u.disp.resume ≠ some .outbound → t.shotGiven = false → t.cancelled = false →
        exec (.cancel job) s = answer false unissuedTins 2 { left with
          disp := { u.disp with tin := some { t with cancelled := true }, removed := false }, events := unwanted }) ∧
      (u.disp.st = .outbound ∨ u.disp.st = .cancelled →
        exec (.cancel job) s = answer t.shotGiven unissuedTins 0 left))) ∧
  (∀ (job : Word16) (priority : Byte) (s u : State), serving s → u = restartKeepalive s →
    let id := job.toNat
    let p := priority.toNat
    (3 < p → exec (.setPrio job priority) s = .next (settle (withResponse 0x03 .badField [] s.port.overrun u))) ∧
    (p ≤ 3 → (∀ j ∈ u.jobs.records, j.id ≠ id) → (∀ j ∈ u.jobs.reserved, j.id ≠ id) →
      exec (.setPrio job priority) s = .next (settle (withResponse 0x03 .noSuchJob [] s.port.overrun u))) ∧
    (∀ j : Job, p ≤ 3 → (u.jobs.records.find? (·.id == id)) = some j → (∀ k ∈ u.jobs.reserved, k.id ≠ id) →
      let q := { u.jobs with records := insertJob { j with priority := p } (u.jobs.records.filter (·.id != id)) }
      exec (.setPrio job priority) s =
        .next (settle (withResponse 0x03 .ok (bytesOf 1 (q.position id)) s.port.overrun { u with jobs := q }))) ∧
    (p ≤ 3 → (∀ j ∈ u.jobs.records, j.id ≠ id) → (∃ j ∈ u.jobs.reserved, j.id = id) →
      exec (.setPrio job priority) s = .next (settle (withResponse 0x03 .ok [0] s.port.overrun { u with
        jobs := { u.jobs with reserved := u.jobs.reserved.map fun k => if k.id == id then { k with priority := p } else k } }))))

/-- TAKE_RECORD removes the oldest record and answers it with the count left; a record that waits joins at once, and
COMPLETION_READY is cleared when none is left; an empty queue is answered EMPTY. Waiting records join the completion
queue while it has room: the shake bay's before the lid bay's before the dispense bay's; each joins at the back with its
verdict and sets COMPLETION_READY. RECORD_JOIN does just this. The dispense bay's record joins in a held bay too, which
stays held and resumes from EMPTY (log 39). The verdict is CANCELLED with the cancelled mark; otherwise HOLD with a line
UNDER, OVER, DISTURBED or INTERRUPTED, with the lost mark, or with a lid outcome absent or not SEATED; otherwise GOOD. -/
def Obligations.RecordsJoinAndAreTaken : Prop :=
  (∀ s u : State, serving s → u = restartKeepalive s →
    (u.completion = [] → exec .takeRecord s = .next (settle (withResponse 0x06 .empty [] s.port.overrun u))) ∧
    (∀ (r : TinRecord) (rs : List TinRecord), u.completion = r :: rs →
      let v := drain { u with completion := rs }
      exec .takeRecord s = .next (settle (withResponse 0x06 .ok (bytesOf 1 rs.length ++ recordBytes r) s.port.overrun
        (if v.completion = [] then clearFlag .completionReady v else v))))) ∧
  ((∀ s : State, s.online = true → exec .recordJoin s = .next (settle (drainDisp (drainLid (drainShake s))))) ∧
  (∀ (s : State) (t : TinRecord), s.completion.length < 16 → s.shake.st = .awaitRoom → s.shake.tin = some t →
    (drainShake s).completion = s.completion ++ [{ t with verdict := some (verdictOf t) }] ∧
    (drainShake s).flag .completionReady = true ∧ (drainShake s).shake.tin = none) ∧
  (∀ (s : State) (t : TinRecord), s.completion.length < 16 → s.lid.st = .done → s.lid.tin = some t → t.lost = true →
    (drainLid s).completion = s.completion ++ [{ t with verdict := some (verdictOf t) }] ∧
    (drainLid s).flag .completionReady = true ∧ (drainLid s).lid.tin = none ∧ (drainLid s).lid.st = .empty) ∧
  (∀ (s : State) (t : TinRecord), s.completion.length < 16 → s.disp.tin = some t → s.disp.recWait = true →
    (drainDisp s).completion = s.completion ++ [{ t with verdict := some (verdictOf t) }] ∧
    (drainDisp s).flag .completionReady = true ∧ (drainDisp s).disp.tin = none ∧ (drainDisp s).disp.recWait = false ∧
    (s.disp.st = .cancelled → (drainDisp s).disp.st = .empty) ∧
    (s.disp.st = .stopped ∨ s.disp.st = .fault → s.disp.lost = false →
      (drainDisp s).disp.st = s.disp.st ∧ (drainDisp s).disp.resume = some .empty)) ∧
  (∀ s : State, 16 ≤ s.completion.length → drain s = s)) ∧
  (∀ t : TinRecord,
    let spoilt : Prop := ∃ l ∈ t.lines, ∃ v ∈ [LineVerdict.under, .over, .disturbed, .interrupted], l.verdict = some v
    let seated : Prop := ∃ r : LidResult, t.lid = some r ∧ r.fault = none
    let held : Prop := spoilt ∨ t.lost = true ∨ ¬ seated
    (t.cancelled = true → verdictOf t = .cancelled) ∧ (t.cancelled = false → held → verdictOf t = .hold) ∧
    (t.cancelled = false → ¬ held → verdictOf t = .good))

/-! ## Canisters, stirring, calibration -/

/-- An accepted CAN_LOAD sets code, density, K and level, makes the canister READY or, with K 0, UNCALIBRATED unless it
is FAULTED, sets CANISTER_LOW when the level is below the low mark, and the bay is told; BUSY while its pump works or it
is CALIBRATING. An accepted CAN_LEVEL sets the level and nothing else of the canister; an accepted CAN_CLEAR sets the
miss count to 0 and takes a FAULTED canister to READY or UNCALIBRATED; both tell the bay of a change. Both refuse an
ABSENT canister, CAN_LEVEL a PUMPING one and CAN_CLEAR a CALIBRATING one. -/
def Obligations.CanLoadLevelAndClear : Prop :=
  (∀ (f : CanLoadFields) (i : Slot) (s u : State), serving s → u = restartKeepalive s → f.slot.toNat = i.val + 1 →
    800 ≤ f.density.toNat → f.density.toNat ≤ 2500 → (f.k = 0 ∨ (100 ≤ f.k.toNat ∧ f.k.toNat ≤ 6400)) →
    f.level.toNat ≤ 500000 →
    let c := u.cans[i]
    let state : CanState := if f.k = 0 then .uncalibrated else .ready
    let v := { u with cans := u.cans.set i { c with
      code := f.code.toNat
      density := f.density.toNat
      k := f.k.toNat
      level := f.level.toNat
      state := if c.state = .faulted then .faulted else state } }
    let low := f.level.toNat < (u.cfg.cans[i]).reserve + u.cfg.general.lowMargin
    (c.activity = .pumping ∨ c.activity = .refilling ∨ c.state = .calibrating →
      exec (.canLoad f) s = .next (settle (withResponse 0x07 .busy [] s.port.overrun u))) ∧
    (c.activity ≠ .pumping → c.activity ≠ .refilling → c.state ≠ .calibrating →
      exec (.canLoad f) s = .next (settle (withResponse 0x07 .ok [] s.port.overrun
        (reportCanister i (if low then setFlag .canisterLow v else v)))))) ∧
  (∀ (slot : Byte) (i : Slot) (s u : State), serving s → u = restartKeepalive s → slot.toNat = i.val + 1 →
    let c := u.cans[i]
    (∀ level : Word32, level.toNat ≤ 500000 →
      let v := { u with cans := u.cans.set i { c with level := level.toNat } }
      let low := level.toNat < (u.cfg.cans[i]).reserve + u.cfg.general.lowMargin
      (c.state = .absent →
        exec (.canLevel slot level) s = .next (settle (withResponse 0x08 .noCanister [] s.port.overrun u))) ∧
      (c.state ≠ .absent → c.activity = .pumping →
        exec (.canLevel slot level) s = .next (settle (withResponse 0x08 .busy [] s.port.overrun u))) ∧
      (c.state ≠ .absent → c.activity ≠ .pumping →
        exec (.canLevel slot level) s = .next (settle (withResponse 0x08 .ok [] s.port.overrun
          (reportCanister i (if low then setFlag .canisterLow v else v)))))) ∧
    (c.state = .absent →
      exec (.canClear slot) s = .next (settle (withResponse 0x0A .noCanister [] s.port.overrun u))) ∧
    (c.state = .calibrating →
      exec (.canClear slot) s = .next (settle (withResponse 0x0A .busy [] s.port.overrun u))) ∧
    (c.state = .ready ∨ c.state = .uncalibrated →
      exec (.canClear slot) s = .next (settle (withResponse 0x0A .ok [] s.port.overrun
        { u with cans := u.cans.set i { c with miss := 0 } }))) ∧
    (c.state = .faulted →
      exec (.canClear slot) s = .next (settle (withResponse 0x0A .ok [] s.port.overrun
        (reportCanister i { u with cans := u.cans.set i { c with
          miss := 0, reason := none, state := if 0 < c.k then .ready else .uncalibrated } })))))

/-- CALIBRATE's checks are made in the order slot and mask, mode, bay, canister: BAD_FIELD, NOT_PERMITTED, BUSY,
NO_CANISTER. In MAINT on a free bay it opens a calibration: the bay goes to CAL_CUP and the canister to CALIBRATING, a
stir is requested for a settled canister, and an object already on the scale has its reading requested. CAL_ABORT in
CAL_CUP, CAL_PRIME or CAL_RATE ends it ABORTED with CAL_DONE: a shot in flight is interrupted with its credit, an open
request is closed, the requests are dropped, the canister is READY or UNCALIBRATED again, and the bay waits in CAL_END
for the cup to be lifted or, with none, is EMPTY; with no calibration to abort it is NOT_PERMITTED. The last result
counts a pass that was begun (log 67); in CAL_END the record keeps its before-reading (log 66) and has no test (log
42). -/
def Obligations.CalibrateAndCalAbort : Prop :=
  (∀ (slot : Byte) (mask : Option Byte) (s u : State), serving s → u = restartKeepalive s →
    slot.toNat = 0 ∨ 16 < slot.toNat ∨ (∃ m, mask = some m ∧ (m.toNat = 0 ∨ 15 < m.toNat)) →
      exec (.calibrate slot mask) s = .next (settle (withResponse 0x0B .badField [] s.port.overrun u))) ∧
  (∀ (slot : Byte) (i : Slot) (mask : Option Byte) (s u : State), serving s → u = restartKeepalive s →
    slot.toNat = i.val + 1 → maskFits mask = true →
    let k := u.cans[i]
    let answer (st : Status) (t : State) : Host.Outcome State Fault Refusal :=
      .next (settle (withResponse 0x0B st [] s.port.overrun t))
    (u.mon.mode ≠ .maint → exec (.calibrate slot mask) s = answer .notPermitted u) ∧
    (u.mon.mode = .maint → u.disp.st ≠ .empty → exec (.calibrate slot mask) s = answer .busy u) ∧
    (u.mon.mode = .maint → u.disp.st = .empty → k.state = .absent →
      exec (.calibrate slot mask) s = answer .noCanister u) ∧
    (u.mon.mode = .maint → u.disp.st = .empty → k.state ≠ .absent →
      let asks : Bool := hasSettled u i && decide (k.activity ≠ .stirring ∧ i ∉ u.stir.pre)
      let t := { u with
        disp := { u.disp with
          st := .calCup, resume := none, step := none, removed := false, cal := some (newCal u i mask), last := none }
        cans := u.cans.set i { k with state := .calibrating, reason := none }
        stir := if asks then { u.stir with pre := u.stir.pre ++ [i] } else u.stir }
      (u.inputs.presDispense = false → exec (.calibrate slot mask) s = answer .ok t) ∧
      (u.inputs.presDispense = true → exec (.calibrate slot mask) s = answer .ok { t with
        scale := { u.scale with window := [], request := some 0 }
        disp := { t.disp with
          quiet := true, fresh := false, cal := some { newCal u i mask with stage := .cupReading } } }))) ∧
  (∀ (c : CalRecord) (s u : State), serving s → u = restartKeepalive s →
    u.disp.st = .calCup ∨ u.disp.st = .calPrime ∨ u.disp.st = .calRate →
    u.disp.cal = some c → c.stage ≠ .over → (u.cans[c.slot]).state = .calibrating →
      let k := u.cans[c.slot]
      let ended (pump : PumpDrive) (k : Canister) : State := { u with
        pump := pump
        stir := { u.stir with pre := [] }
        scale := { u.scale with request := none }
        events := { u.events with flags := u.events.flags ||| BitVec.twoPow 15 8 }
        cans := u.cans.set c.slot { k with state := if 0 < k.k then .ready else .uncalibrated }
        disp := { u.disp with
          st := if u.inputs.presDispense then .calEnd else .empty
          resume := none
          step := none
          quiet := false
          removed := u.inputs.presDispense && u.disp.removed
          cal := if u.inputs.presDispense then some { c with stage := .over, test := none } else none
          last := some
            { slot := c.slot, outcome := .aborted, passes := c.pass, newK := none, ks := c.results.map (·.ki) } } }
      let ok (t : State) : Host.Outcome State Fault Refusal := .next (settle (withResponse 0x0C .ok [] s.port.overrun t))
      (u.pump.op = none → exec .calAbort s = ok (ended u.pump k)) ∧
      (∀ o : PumpOp, u.pump.op = some o → o.slot = c.slot →
        exec .calAbort s = ok (ended { u.pump with op := none } { k with
          activity := .idle, level := min 500000 (k.level + creditVolume o.total o.counted o.k) }))) ∧
  (∀ s u : State, serving s → u = restartKeepalive s → u.disp.st ≠ .calCup → u.disp.st ≠ .calPrime →
    u.disp.st ≠ .calRate → exec .calAbort s = .next (settle (withResponse 0x0C .notPermitted [] s.port.overrun u)))

/-- MINUTE_TIMER raises every canister's stir age by one, saturating at 65,535, in every state and activity, and starts
the next minute. A running stirrer's revolutions: a fast one reaches speed, or ends the stir when its time is up; slow
ones, a saturated measurement among them at every minimum period (log 64), count at speed only, and the third in a row is
a canister fault STIR. Its check and its run time likewise end the stir, the run time with one or two slow revolutions
counted too (log 78). Nothing happens to a canister that is not stirred, or with the door open. A completed stir frees its slot and
sets the age to 0, and a failed one keeps the age: the canister is FAULTED with its first reason, its request is gone
and CANISTER_FAULT is set. Of both the bay is told, a calibration of a FAULTED canister ending first. The open cabinet door holds the pump operation and the running stirs; the closed one lets
the operation go on and every stir with its time left and a full speed check. -/
def Obligations.StirrersAgeHoldAndAreJudged : Prop :=
  (∀ s : State, s.online = true →
    exec .minuteTimer s = .next (settle { s with
      stir := { s.stir with minute := 0 }
      cans := s.cans.map fun c => { c with age := min 65535 (c.age + 1) } })) ∧
  (((∀ (s : State) (i : Slot) (r : StirRun) (period : Nat), s.online = true → s.inputs.doorOpen = false →
    s.stirRun? i = some r →
    (period ≤ s.cfg.general.stirMinPeriod → r.expired = false →
      exec (.stirrerRevolution i period) s = .next (settle (mapRun i (fun r => { r with check := none, slow := 0 }) s))) ∧
    (period ≤ s.cfg.general.stirMinPeriod → r.expired = true →
      exec (.stirrerRevolution i period) s = .next (settle (stirCompleted i s))) ∧
    (s.cfg.general.stirMinPeriod < period →
      exec (.stirrerRevolution i period) s = exec (.stirrerSpeedSaturated i) s) ∧
    (r.check.isSome = true → exec (.stirrerSpeedSaturated i) s = .next (settle s) ∧
      exec (.stirSpeedTimeout i) s = .next (settle (canisterFault i .stir s)) ∧
      exec (.stirRunExpiry i) s = .next (settle (mapRun i (fun r => { r with left := 0, expired := true }) s))) ∧
    (r.check = none → r.slow < 2 →
      exec (.stirrerSpeedSaturated i) s = .next (settle (mapRun i (fun r => { r with slow := r.slow + 1 }) s))) ∧
    (r.check = none → 2 ≤ r.slow →
      exec (.stirrerSpeedSaturated i) s = .next (settle (canisterFault i .stir s))) ∧
    (r.check = none → exec (.stirSpeedTimeout i) s = .next (settle s) ∧
      exec (.stirRunExpiry i) s = .next (settle (stirCompleted i s)))) ∧
  (∀ (s : State) (i : Slot) (period : Nat), s.online = true → s.inputs.doorOpen = true ∨ s.stirRun? i = none →
    exec (.stirrerRevolution i period) s = .next (settle s) ∧ exec (.stirrerSpeedSaturated i) s = .next (settle s) ∧
    exec (.stirSpeedTimeout i) s = .next (settle s) ∧ exec (.stirRunExpiry i) s = .next (settle s))) ∧
  (∀ (s : State) (i : Slot),
    stirCompleted i s = reportCanister i (completeStir i s) ∧
    (∀ why : CanFault,
      (∀ c : CalRecord, s.disp.cal = some c → c.slot = i →
        canisterFault i why s = reportCanister i (abortCal (markFaulted i why s))) ∧
      ((∀ c : CalRecord, s.disp.cal = some c → c.slot ≠ i) →
        canisterFault i why s = reportCanister i (markFaulted i why s)))) ∧
  (∀ (s : State) (i : Slot), (s.cans[i]).activity = .stirring →
    (completeStir i s = { s with
      stir := { s.stir with runs := s.stir.runs.filter (·.slot ≠ i) }
      cans := s.cans.set i { s.cans[i] with activity := .idle, age := 0 } }) ∧
    (∀ why : CanFault, (s.cans[i]).state = .ready ∨ (s.cans[i]).state = .uncalibrated ∨ (s.cans[i]).state = .calibrating →
      markFaulted i why s = { s with
        stir := { s.stir with pre := s.stir.pre.filter (· ≠ i), runs := s.stir.runs.filter (·.slot ≠ i) }
        cans := s.cans.set i { s.cans[i] with activity := .idle, state := .faulted, reason := some why }
        events := { s.events with flags := s.events.flags ||| BitVec.twoPow 15 6 } }))) ∧
  (∀ s : State, s.online = true →
    exec .cabinetDoorOpen s = .next (settle { s with
      inputs := { s.inputs with doorOpen := true }
      pump := { s.pump with op := s.pump.op.map fun o => { o with paused := true } } }) ∧
    exec .cabinetDoorClose s = .next (settle { s with
      inputs := { s.inputs with doorOpen := false }
      pump := { s.pump with op := s.pump.op.map fun o => { o with paused := false } }
      stir := { s.stir with runs := s.stir.runs.map fun r => { r with check := some 3000, slow := 0 } } }))

/-! ## Shot arithmetic, pump and scale -/

/-- Every kept volume comes back from its step count at every factor K, and the credit of an operation of which no
counted step has run is the volume debited. An interrupted operation leaves the drive idle and its canister's activity
IDLE, and the volume of its counted steps not run goes back to the level, which saturates. A latched fault of the
dispense bay, a station stop or the emergency stop takes that volume off the ACTIVE line's delivered volume too, and the
line waits at its INTERRUPTED step; a tin lost with its operation in flight has the line DONE, INTERRUPTED, in its
record. -/
def Obligations.InterruptionsReturnTheirVolume : Prop :=
  (∀ v k : Nat, 100 ≤ k → nominalVolume (stepCount v k) k = v ∧ creditVolume (stepCount v k) 0 k = v) ∧
  (∀ total counted k : Nat, creditVolume total counted k = roundDiv ((total - counted) * 100) k) ∧
  (∀ (s : State) (o : PumpOp), s.pump.op = some o →
    let c := s.cans[o.slot]
    interruptOp s = { s with
      pump := { s.pump with op := none }
      cans := s.cans.set o.slot { c with
        activity := .idle, level := min 500000 (c.level + creditVolume o.total o.counted o.k) } }) ∧
  (∀ (s : State) (t : TinRecord) (i : Nat) (l : LineEntry) (o : PumpOp), s.disp.tin = some t →
    activeLine s = some (i, l) → s.pump.op = some o → s.disp.st = .dispensing → s.disp.cal = none →
    let credit := creditVolume o.total o.counted o.k
    let level := min 500000 ((s.cans[o.slot]).level + credit)
    let held (st : DispState) (u : State) : Prop :=
      u.pump.op = none ∧ u.disp.st = st ∧ u.disp.resume = some .dispensing ∧ u.disp.step = some .interrupted ∧
      (u.cans[o.slot]).level = level ∧
      (u.disp.tin.bind fun x => x.lines[i]?) = some { l with delivered := l.delivered - credit }
    (∀ dest : DispState, dest = .fault ∨ dest = .stopped → held dest (haltDisp dest s)) ∧
    (∀ k : FaultKind, s.mon.faultD = none → held .fault (latch .dispense k s)) ∧
    (∀ (b : BayId) (k : FaultKind), b ≠ .dispense → s.cfg.general.scope = .station → s.anyFault = false →
      held .stopped (latch b k s)) ∧
    (s.online = true → s.mon.estop = false → ∃ u, exec .emergencyStop s = .next u ∧ held .stopped u) ∧
    (s.online = true → s.mon.faultD = none → t.cancelled = false → s.disp.lost = false → s.disp.recWait = false →
      l.plan.isSome = true → s.completion.length < 16 → ∃ u x, exec (.tinPresenceDispense false) s = .next u ∧
        u.pump.op = none ∧ (u.cans[o.slot]).level = level ∧ u.completion = s.completion ++ [x] ∧
        x.lines[i]? = some { l with delivered := l.delivered - credit, st := .done, verdict := some .interrupted }))

/-- A valve turn's end starts the piston, or ends a refill or home segment and begins the next; a rotation pulse is
counted while a segment of its canister moves and changes nothing else. -/
def Obligations.ValveTurnsAndPulses : Prop :=
  (∀ (s : State) (o : PumpOp), s.online = true → s.pump.op = some o →
    (o.stage = .turnOut → exec .valveTurnDone s = .next (settle { s with
      pump := { s.pump with op := some { o with stage := .moving, turn := 0 } } })) ∧
    (o.stage = .turnBack → o.segment = .home →
      exec .valveTurnDone s = .next (settle (forwardOrRefill o { s with
        pump := { s.pump with homed := s.pump.homed.set o.slot true }
        cans := s.cans.set o.slot { s.cans[o.slot] with activity := .pumping, piston := 0, snuff := 0 } }))) ∧
    (o.stage = .turnBack → o.segment = .refill →
      exec .valveTurnDone s = .next (settle (forwardOrRefill o { s with
        cans := s.cans.set o.slot { s.cans[o.slot] with activity := .pumping } }))) ∧
    (o.stage = .moving → exec .valveTurnDone s = .next (settle s)) ∧
    (o.stage = .moving → (0 < o.run ∨ o.paused = false) →
      exec (.rotationPulse o.slot) s = .next (settle { s with
        pump := { s.pump with op := some { o with pulses := o.pulses + 1 } } })) ∧
    (∀ i : Slot, i ≠ o.slot ∨ o.stage ≠ .moving → exec (.rotationPulse i) s = .next (settle s))) ∧
  (∀ (s : State) (i : Slot), s.online = true → s.pump.op = none →
    exec .valveTurnDone s = .next (settle s) ∧ exec (.rotationPulse i) s = .next (settle s))

/-- An operation begins with the home segment when its slot is not homed, else with the restore of a pending snuff-back,
begun behind an open door too (log 65), else with its counted steps: a forward segment of the steps left within the
travel left, or, with no travel left, a refill of the steps the piston stands at. A home or a refill has begun behind an
open door too, its valve turning and its canister REFILLING (log 79). The end of a moving segment issues its
remaining steps (log 15). One whose pulses do not fit its steps, but for a home segment, is a pump stall: the canister
is FAULTED, the passed lines are judged, and the bay latches PUMP_STALL; a snuff-back that stalls leaves the snuff
pending at 0 (log 72). Home and refill segments end with the valve's turn back, a restore and a forward segment that is
not the last with the next one; the last is followed by the snuff-back, whose end completes the operation, or completes
it itself when the slot has none or the piston stands below its steps. A paused segment does not end. -/
def Obligations.SegmentsEndWithTheirSteps : Prop :=
  (∀ (s : State) (o : PumpOp), s.pump.op = some o →
    let c := s.cans[o.slot]
    let travel := (s.cfg.cans[o.slot]).travel
    let segment (g : Segment) (stage : SegStage) (steps : Nat) : PumpDrive := { s.pump with op := some { o with
      segment := g, stage := stage, toRun := steps, run := 0, pulses := 0, turn := 0, frac := 0 } }
    (s.pump.homed[o.slot] = false → firstSegment o s = { s with
      pump := segment .home .turnOut travel, cans := s.cans.set o.slot { c with activity := .refilling } }) ∧
    (s.pump.homed[o.slot] = true → 0 < c.snuff → firstSegment o s = { s with
      pump := segment .restore .moving c.snuff, cans := s.cans.set o.slot { c with snuff := 0 } }) ∧
    (s.pump.homed[o.slot] = true → c.snuff = 0 → firstSegment o s = forwardOrRefill o s) ∧
    (o.counted < o.total → c.piston < travel → forwardOrRefill o s = { s with
      pump := segment .forward .moving (min (o.total - o.counted) (travel - c.piston)) }) ∧
    (o.counted < o.total → travel ≤ c.piston → forwardOrRefill o s = { s with
      pump := segment .refill .turnOut c.piston, cans := s.cans.set o.slot { c with activity := .refilling } })) ∧
  (∀ (s : State) (i : Slot) (kind : OpKind) (steps k : Nat),
    let o : PumpOp :=
      { slot := i, kind := kind, total := steps, k := k, counted := 0, segment := .forward, stage := .moving, toRun := 0
        run := 0, pulses := 0, turn := 0, frac := 0, paused := s.inputs.doorOpen }
    beginOp i kind steps k s = firstSegment o { s with
      pump := { s.pump with op := some o }, cans := s.cans.set i { s.cans[i] with activity := .pumping } }) ∧
  (∀ (s : State) (o : PumpOp), s.online = true → s.pump.op = some o → o.stage = .moving →
    let n := o.toRun - o.run
    let c := s.cans[o.slot]
    let piston := match o.segment with
      | .home => c.piston
      | .restore => c.piston + n
      | .forward => c.piston + n
      | .refill => c.piston - n
      | .snuffBack => c.piston - n
    let o1 := { o with run := o.run + n, counted := if o.segment = .forward then o.counted + n else o.counted }
    let t := { s with
      pump := { s.pump with op := some o1 }, cans := s.cans.set o.slot { c with piston := piston } }
    let b := (s.cfg.cans[o.slot]).snuffBack
    let fits := o.pulses ≤ o.toRun / 32 + 2 ∧ o.toRun / 32 ≤ o.pulses + 2
    let turned : State := { t with pump := { s.pump with op := some { o1 with stage := .turnBack, turn := 0 } } }
    let completed (snuff : Nat) : State := opCompleted { t with
      pump := { s.pump with op := none }
      cans := s.cans.set o.slot { c with piston := piston, snuff := snuff, activity := .idle } }
    (o.paused = true → exec .pumpSegmentEnd s = .next (settle s)) ∧
    (o.paused = false →
      (o.segment ≠ .home → ¬ fits → exec .pumpSegmentEnd s =
        .next (settle (latch .dispense .pumpStall (judgePassed (markFaulted o.slot .stall t))))) ∧
      (o.segment = .home → exec .pumpSegmentEnd s = .next (settle turned)) ∧
      (o.segment = .refill → fits → exec .pumpSegmentEnd s = .next (settle turned)) ∧
      (o.segment = .restore → fits → exec .pumpSegmentEnd s = .next (settle (forwardOrRefill o1 t))) ∧
      (o.segment = .forward → fits → o1.counted < o.total →
        exec .pumpSegmentEnd s = .next (settle (forwardOrRefill o1 t))) ∧
      (o.segment = .forward → fits → o.total ≤ o1.counted → 0 < b → b ≤ piston →
        exec .pumpSegmentEnd s = .next (settle { t with pump := { s.pump with op := some { o1 with
          segment := .snuffBack, stage := .moving, toRun := b, run := 0, pulses := 0, turn := 0, frac := 0 } } })) ∧
      (o.segment = .forward → fits → o.total ≤ o1.counted → b = 0 ∨ piston < b →
        exec .pumpSegmentEnd s = .next (settle (completed c.snuff))) ∧
      (o.segment = .snuffBack → fits → exec .pumpSegmentEnd s = .next (settle (completed b)))))

/-- A sample at or above full scale empties the window; any other is made net of the zero offset, recorded, tested
against the tin-present threshold, and offered to the window: blanked it is discarded, in the band it is appended, out
of it it starts a new window. A crossing clears the fresh-reading mark, but in the calibration states, CAL_END among
them, which take no notice of it (log 36); a fall below the threshold in TARE, DISPENSING, WAITING or DONE, or in STOPPED or
FAULT out of one of them, is the loss of the tin: TIN_LOST is latched, the bay is in FAULT, a tin without a shot goes back
to its job unless it is committed (log 51), and the record of one with a shot is closed and joins or waits; behind a
latched fault, which stays, the tin is marked lost and noted. A fall in another state clears the mark only. -/
def Obligations.ScaleSamplesAreOffered : Prop :=
  ∀ (s : State) (raw : Int), s.online = true →
    (4000000 ≤ raw → exec (.scaleSample raw) s = .next (settle { s with
      scale := { s.scale with window := [], last := some { value := raw, saturated := true } } })) ∧
    (raw < 4000000 → s.scale.above = decide (10000 ≤ raw - s.scale.zero) →
      let net := raw - s.scale.zero
      let sample : Option Sample := some { value := net, saturated := false }
      (s.scale.blank.isSome = true →
        exec (.scaleSample raw) s = .next (settle { s with scale := { s.scale with last := sample } })) ∧
      (s.scale.blank = none → s.scale.window = [] → 1 < s.cfg.general.windowLen →
        exec (.scaleSample raw) s = .next (settle { s with scale := { s.scale with last := sample, window := [net] } })) ∧
      (∀ (first : Int) (rest : List Int), s.scale.blank = none → s.scale.window = first :: rest →
        ((net - first).natAbs ≤ s.cfg.general.band → rest.length + 2 < s.cfg.general.windowLen →
          exec (.scaleSample raw) s = .next (settle { s with
            scale := { s.scale with last := sample, window := first :: rest ++ [net] } })) ∧
        (s.cfg.general.band < (net - first).natAbs → 1 < s.cfg.general.windowLen →
          exec (.scaleSample raw) s = .next (settle { s with
            scale := { s.scale with last := sample, window := [net] } })))) ∧
    (raw < 4000000 → s.scale.above ≠ decide (10000 ≤ raw - s.scale.zero) →
      let net := raw - s.scale.zero
      let window := if s.scale.blank.isSome then s.scale.window else offerToWindow s.cfg.general.band net s.scale.window
      let t := { s with
        scale := { s.scale with
          above := decide (10000 ≤ net), last := some { value := net, saturated := false }, window := window } }
      let work := if s.disp.st = .fault ∨ s.disp.st = .stopped then s.disp.resume else some s.disp.st
      let holds : Prop := (work = some .tare ∨ work = some .dispensing ∨ work = some .waiting ∨ work = some .done) ∧
        s.disp.lost = false ∧ s.disp.recWait = false ∧ s.disp.tin.map (·.cancelled) = some false
      (s.scale.blank.isSome = true ∨ window.length < s.cfg.general.windowLen →
        (s.disp.st = .calCup ∨ s.disp.st = .calPrime ∨ s.disp.st = .calRate ∨ s.disp.st = .calEnd →
          exec (.scaleSample raw) s = .next (settle t)) ∧
        (s.disp.st ≠ .calCup → s.disp.st ≠ .calPrime → s.disp.st ≠ .calRate → s.disp.st ≠ .calEnd →
          10000 ≤ net ∨ ¬ holds →
          exec (.scaleSample raw) s = .next (settle { t with disp := { s.disp with fresh := false } }))) ∧
      (∀ (r : TinRecord) (k : FaultKind), net < 10000 → holds → s.disp.tin = some r → s.mon.faultD = some k →
        ∃ u, exec (.scaleSample raw) s = .next u ∧ u.mon.faultD = some k ∧ u.disp.st = s.disp.st ∧ u.disp.lost = true ∧
          u.flag .bayFault = true ∧ u.scale.above = false ∧ u.disp.tin.map (·.lost) = some true ∧
          u.disp.tin.map (·.notes) = some (r.note .tinLost).notes ∧ u.jobs = s.jobs) ∧
      (∀ r : TinRecord, net < 10000 → holds → s.disp.tin = some r → s.mon.faultD = none →
          ∃ u, exec (.scaleSample raw) s = .next u ∧ u.mon.faultD = some .tinLost ∧ u.disp.st = .fault ∧
            u.disp.lost = true ∧ u.flag .bayFault = true ∧ u.scale.above = false ∧
            (r.shotGiven = false → u.disp.tin = none ∧
              u.jobs = if r.committed then s.jobs else returnTin r.jobId s.jobs) ∧
            (r.shotGiven = true → s.completion.length < 16 → u.disp.tin = none ∧
              ∃ x, u.completion = s.completion ++ [x] ∧ x.jobId = r.jobId ∧ x.index = r.index ∧ x.lost = true ∧
                x.verdict = some .hold) ∧
            (r.shotGiven = true → 16 ≤ s.completion.length → u.disp.recWait = true ∧
              u.flag .completionFull = true ∧ u.completion = s.completion)))

/-- The sample that fills the window gives a settled reading, its mean, which is recorded. With no request open, on an
EMPTY bay with its sensor off, a reading within 50 counts of zero (one of exactly 50 too, log 54) is absorbed into the
zero offset within its limits; else nothing more happens. An open request is answered: it is closed, the quiet request
lowered and the fresh-reading mark set, and the bay goes on by what it asked for: the tare is judged, a before-reading
leads to the line's debit and, the line passed, to the next selection, an after-reading is judged, and so are a
calibration's cup, before- and after-readings. BLANK_TIMER_EXPIRY ends blanking when the blank timer has run out; with a
timer that has not, as one that a trigger has started again, it changes nothing. SETTLE_TIMEOUT closes an open request
whose settle timer has reached the settle timeout and latches SCALE_UNSETTLED against the dispense bay, a stop it begins
coming before the starts that waited on the request (log 80); with a timer that has not reached it, or with no request
open, it changes nothing. -/
def Obligations.ReadingsSettleOrTimeOut : Prop :=
  (∀ (s : State) (raw : Int), s.online = true → raw < 4000000 → s.scale.above = decide (10000 ≤ raw - s.scale.zero) →
    s.scale.blank = none →
    let net := raw - s.scale.zero
    let window := offerToWindow s.cfg.general.band net s.scale.window
    let r := settledMean window
    let t := { s with
      scale := { s.scale with last := some { value := net, saturated := false }, window := [], latest := some r } }
    s.cfg.general.windowLen ≤ window.length →
    (s.scale.request = none → ¬ (s.disp.st = .empty ∧ s.inputs.presDispense = false ∧ r.natAbs ≤ 50) →
      exec (.scaleSample raw) s = .next (settle t)) ∧
    (s.scale.request = none → s.disp.st = .empty → s.inputs.presDispense = false → r.natAbs ≤ 50 →
      let zero := max (-100000) (min 100000 (s.scale.zero + r))
      exec (.scaleSample raw) s = .next (settle { t with
        scale := { t.scale with zero := zero, latest := some (s.scale.zero + r - zero) } })) ∧
    (s.scale.request.isSome = true → s.inputs.presDispense = true →
      let u := { t with
        scale := { t.scale with request := none }
        disp := { s.disp with quiet := false, fresh := true } }
      (s.disp.st = .tare → exec (.scaleSample raw) s = .next (settle (judgeTare r u))) ∧
      (∀ (i : Nat) (l : LineEntry), s.disp.st = .dispensing → activeLine s = some (i, l) →
        s.disp.step = some .beforeReading →
          let v := debitStage i l (nextVolume s l) (some r) u
          exec (.scaleSample raw) s = .next (settle (if (activeLine v).isSome then v else selectLine v))) ∧
      (∀ (i : Nat) (l : LineEntry) (p : LinePlan), s.disp.st = .dispensing → activeLine s = some (i, l) →
        s.disp.step = some .verify → l.plan = some p →
          exec (.scaleSample raw) s = .next (settle (judgeReading i l p r u))) ∧
      (∀ c : CalRecord, s.disp.cal = some c →
        (s.disp.st = .calCup → c.stage = .cupReading →
          exec (.scaleSample raw) s = .next (settle (judgeCup r u))) ∧
        (s.disp.st = .calPrime ∨ s.disp.st = .calRate → c.stage = .beforeReading →
          exec (.scaleSample raw) s = .next (settle (calDebit r c u))) ∧
        (∀ before : Int, c.stage = .afterReading → c.before = some before →
          (s.disp.st = .calPrime →
            exec (.scaleSample raw) s = .next (settle (judgePrime (10 * (r - before)) u))) ∧
          (s.disp.st = .calRate →
            exec (.scaleSample raw) s = .next (settle (judgeTest (10 * (r - before)) u))))))) ∧
  (∀ s : State, s.online = true →
    (s.scale.blank = some 0 →
      exec .blankTimerExpiry s = .next (settle { s with scale := { s.scale with blank := none } })) ∧
    (s.scale.blank ≠ some 0 → exec .blankTimerExpiry s = .next (settle s)) ∧
    (∀ n : Nat, s.scale.request = some n → s.cfg.general.settleTimeout * 1000 ≤ n →
      exec .settleTimeout s = .next (settle (latch .dispense .scaleUnsettled { s with
        scale := { s.scale with request := none }, disp := { s.disp with quiet := false } }))) ∧
    (∀ n : Nat, s.scale.request = some n → n < s.cfg.general.settleTimeout * 1000 →
      exec .settleTimeout s = .next (settle s)) ∧
    (s.scale.request = none → exec .settleTimeout s = .next (settle s)))

/-! ## Mode, faults, stops and the keepalive -/

/-- MODE takes the station to PAUSE, RUN or MAINT, withdrawing a standing call when it leaves RUN; RUN is refused while
SAFE is set, MAINT while the dispense bay works, and any other code is BAD_FIELD. A keepalive timer that has run out
sets SAFE and KEEPALIVE_LOST at its expiry, leaves the mode, and withdraws a call that stands in CALLED; one that is
stopped or was restarted does not expire. A withdrawal clears TIN_WANTED, gives the tin back to its job unless it is
committed (log 51), discards its record and leaves the bay EMPTY; the job's tins issued are one lower, a reserved place
becoming a record again at its place in the order; a job that has been removed takes nothing back. -/
def Obligations.ModeAndKeepaliveHoldCalls : Prop :=
  (∀ (code : Byte) (s u : State), serving s → u = restartKeepalive s →
    (2 < code.toNat → exec (.mode code) s = .next (settle (withResponse 0x11 .badField [] s.port.overrun u))) ∧
    (∀ m : Mode, modeOf code = some m →
      (m = .run → u.mon.safe = true →
        exec (.mode code) s = .next (settle (withResponse 0x11 .notPermitted [] s.port.overrun u))) ∧
      (m = .maint → u.mon.mode ≠ .maint → u.disp.st ≠ .empty → u.disp.st ≠ .called →
        exec (.mode code) s = .next (settle (withResponse 0x11 .busy [] s.port.overrun u))) ∧
      (¬ (m = .run ∧ u.mon.safe = true) → u.mon.mode = m →
        exec (.mode code) s = .next (settle (withResponse 0x11 .ok [] s.port.overrun u))) ∧
      (¬ (m = .run ∧ u.mon.safe = true) → u.mon.mode ≠ m →
        (m = .maint → u.disp.st = .empty ∨ u.disp.st = .called) →
        let v := { u with mon := { u.mon with mode := m } }
        exec (.mode code) s = .next (settle (withResponse 0x11 .ok (bytesOf 1 (modeCode m)) s.port.overrun
          (if u.disp.st = .called ∧ (m ≠ .run ∨ u.mon.safe = true) then withdrawCall v else v)))))) ∧
  (∀ s : State, s.online = true → s.mon.keepalive ≠ some 0 → exec .keepaliveExpiry s = .next (settle s)) ∧
  (∀ s : State, s.online = true → s.mon.keepalive = some 0 →
    let t := { s with
      mon := { s.mon with keepalive := none, safe := true }
      events := { s.events with flags := s.events.flags ||| BitVec.twoPow 15 10 } }
    exec .keepaliveExpiry s = .next (settle (if s.disp.st = .called then withdrawCall t else t))) ∧
  (∀ s : State,
    (∀ t : TinRecord, s.disp.tin = some t →
      let back : State := { s with
        jobs := if t.committed then s.jobs else returnTin t.jobId s.jobs
        disp := { s.disp with tin := none }
        events := { s.events with flags := s.events.flags &&& ~~~(BitVec.twoPow 15 2) } }
      withdrawTin s = back ∧ withdrawCall s = { back with disp := { back.disp with st := .empty, resume := none } }) ∧
    (s.disp.tin = none →
      withdrawTin s = s ∧ withdrawCall s = { s with disp := { s.disp with st := .empty, resume := none } })) ∧
  (∀ (q : JobQueue) (id : Nat),
    (∀ j : Job, q.reserved.find? (·.id == id) = some j → returnTin id q = { q with
      records := insertJob { j with issued := j.issued - 1 } q.records
      reserved := q.reserved.filter (·.id != id) }) ∧
    ((∀ j ∈ q.reserved, j.id ≠ id) → returnTin id q = { q with
      records := q.records.map fun k => if k.id == id then { k with issued := k.issued - 1 } else k }) ∧
    ((∀ j ∈ q.records ++ q.reserved, j.id ≠ id) → returnTin id q = q))

/-- CLEAR_FAULT of a bay without a latched fault changes nothing; with one it is cleared, and the bay goes from FAULT to
STOPPED while ESTOP stands, or under scope STATION while another bay's fault is latched; otherwise the jam it caused is
resolved and every bay that may resume does. The order of these resumptions, the shake bay's, the lid bay's, then the
dispense bay's, is the model's choice (log 24, with log 62). A tin the dispense bay found lost while it was in FAULT is
handled as lost at the clearing, whatever stop stands (log 21): closed with a shot, else withdrawn. CLEAR_FAULT(station)
clears ESTOP unless the input is active, and a lost tin's bay that ESTOP alone held in FAULT, its fault cleared, its
record joined and its sensor off, is then EMPTY, a station stop or not (log 21).
RESUME clears SAFE. What a resumption does stands in DispenseBayResumes and LidAndShakeBaysResume, what a resolution
does in MovesEndInArrivalOrJam. -/
def Obligations.FaultsAreCleared : Prop :=
  ∀ s u : State, serving s → u = restartKeepalive s →
    let ok (t : State) : Host.Outcome State Fault Refusal := .next (settle (withResponse 0x12 .ok [] s.port.overrun t))
    (∀ (code : Byte) (b : BayId), code.toNat = (match b with | .dispense => 0 | .lid => 1 | .shake => 2) →
      (u.fault b = none → exec (.clearFault code) s = ok u) ∧
      ((u.fault b).isSome = true →
        exec (.clearFault code) s = ok (resumeDisp (closeFound b (resumeLid (resumeShake
          (resolveCarriage (holdCleared b (clearJam b (u.setFault b none)))))))))) ∧
    (u.mon.estop = true → u.carriage.cause ≠ some .transfer →
      (u.mon.faultD.isSome = true → u.disp.st = .fault → u.disp.lost = false → exec (.clearFault 0) s = ok { u with
        mon := { u.mon with faultD := none }, disp := { u.disp with st := .stopped } }) ∧
      (u.mon.faultL.isSome = true → u.lid.st = .fault → exec (.clearFault 1) s = ok { u with
        mon := { u.mon with faultL := none }, lid := { u.lid with st := .stopped } }) ∧
      (u.mon.faultS.isSome = true → u.shake.st = .fault → exec (.clearFault 2) s = ok { u with
        mon := { u.mon with faultS := none }, shake := { u.shake with st := .stopped } })) ∧
    (u.mon.estop = false → u.cfg.general.scope = .station → u.carriage.st ≠ .jammed → u.carriage.cause = none →
      (u.mon.faultD.isSome = true → u.mon.faultL.isSome = true ∨ u.mon.faultS.isSome = true → u.disp.st = .fault →
        u.disp.lost = false → exec (.clearFault 0) s = ok { u with
          mon := { u.mon with faultD := none }, disp := { u.disp with st := .stopped } }) ∧
      (u.mon.faultL.isSome = true → u.mon.faultD.isSome = true ∨ u.mon.faultS.isSome = true → u.lid.st = .fault →
        exec (.clearFault 1) s = ok { u with
          mon := { u.mon with faultL := none }, lid := { u.lid with st := .stopped } }) ∧
      (u.mon.faultS.isSome = true → u.mon.faultD.isSome = true ∨ u.mon.faultL.isSome = true → u.shake.st = .fault →
        exec (.clearFault 2) s = ok { u with
          mon := { u.mon with faultS := none }, shake := { u.shake with st := .stopped } })) ∧
    (∀ b : BayId,
      let stands := u.mon.estop = true ∨ (u.cfg.general.scope = .station ∧
        (u.mon.faultD.isSome = true ∨ u.mon.faultL.isSome = true ∨ u.mon.faultS.isSome = true))
      clearJam b u = { u with carriage :=
        if u.carriage.charge = some b ∧ u.carriage.cause = some .transfer then { u.carriage with cause := none }
        else u.carriage } ∧
      (¬ stands → holdCleared b u = u) ∧
      (stands → holdCleared b u = match b with
        | .dispense => { u with disp := if u.disp.st = .fault then { u.disp with st := .stopped } else u.disp }
        | .lid => { u with lid := if u.lid.st = .fault then { u.lid with st := .stopped } else u.lid }
        | .shake => { u with shake := if u.shake.st = .fault then { u.shake with st := .stopped } else u.shake })) ∧
    (∀ c : Instr, c = .clearFaultStation ∨ c = .clearFault 3 →
      (u.mon.estop = true → u.inputs.estop = true →
        exec c s = .next (settle (withResponse 0x12 .busy [] s.port.overrun u))) ∧
      (u.mon.estop = false → exec c s = ok u) ∧
      (u.mon.estop = true → u.inputs.estop = false → exec c s = ok (finishLost (resumeDisp (resumeLid (resumeShake
        (resolveCarriage { u with
          mon := { u.mon with estop := false }
          carriage := if u.carriage.cause = some .estop then { u.carriage with cause := none } else u.carriage })))))) ∧
      (u.mon.estop = true → u.inputs.estop = false → u.cfg.general.scope = .station →
        u.mon.faultL.isSome = true ∨ u.mon.faultS.isSome = true → u.carriage.st ≠ .jammed → u.carriage.cause = none →
        u.mon.faultD = none → u.disp.st = .fault → u.disp.lost = true → u.disp.tin = none →
        u.inputs.presDispense = false → exec c s = ok { u with
          mon := { u.mon with estop := false }
          disp := { u.disp with st := .empty, resume := none, step := none, lost := false, removed := false } })) ∧
    (∀ v : State,
      let finishes := v.disp.st = .fault ∧ v.disp.lost = true ∧ v.mon.faultD = none ∧ v.disp.tin = none ∧
        v.inputs.presDispense = false ∧ v.mon.estop = false
      (finishes → finishLost v = { v with
        disp := { v.disp with st := .empty, resume := none, step := none, lost := false, removed := false } }) ∧
      (¬ finishes → finishLost v = v)) ∧
    (closeFound .dispense u = (if u.disp.lost = true ∧ u.disp.recWait = false then closeLost u else u) ∧
      closeFound .lid u = u ∧ closeFound .shake u = u) ∧
    (∀ t : TinRecord, u.disp.tin = some t →
      (t.shotGiven = true → closeLost u = closeDispRecord u) ∧ (t.shotGiven = false → closeLost u = withdrawTin u)) ∧
    (∀ code : Byte, 3 < code.toNat →
      exec (.clearFault code) s = .next (settle (withResponse 0x12 .badField [] s.port.overrun u))) ∧
    exec .resume s = .next (settle (withResponse 0x13 .ok [] s.port.overrun { u with mon := { u.mon with safe := false } }))

/-- A dispense bay STOPPED, or in FAULT with its fault cleared, resumes once no station stop and no ESTOP stands, and
else stays as it is. TARE weighs again; a line before its debit is selected again; a weighed line that was interrupted,
or one in VERIFY, is weighed again; an interrupted volumetric line is DONE, INTERRUPTED; WAITING selects; DONE stays
DONE, its tin lost when the sensor is off; a call whose mode or SAFE condition fails is withdrawn, and one with an
object on the scale is weighed; a wrong object or an orphan lifted meanwhile leaves a called bay CALLED and any other
EMPTY; CAL_END ends with the cup; an object set down on an EMPTY bay meanwhile sets TIN_WRONG (log 32), one on a bay
that ends EMPTY from another resume state does not (log 70). A cancelled tin goes to CANCELLED with its requests
dropped, and its record is closed if it is gone, or at once where nothing stands on the scale (log 83). A lost tin's bay
stays in FAULT until its record has joined and the sensor is off, and is then EMPTY. -/
def Obligations.DispenseBayResumes : Prop :=
  (∀ s : State, dispMayResume s = true ↔
    (s.disp.st = .stopped ∨ (s.disp.st = .fault ∧ s.mon.faultD = none)) ∧ s.stationStop = false ∧ s.mon.estop = false) ∧
  (∀ s : State, dispMayResume s = false → resumeDisp s = s) ∧
  (∀ (s : State) (r : DispState), dispMayResume s = true → s.disp.lost = false → dispCancelled s = false →
    s.disp.resume = some r →
    let back (r : DispState) : State := { s with disp := { s.disp with st := r, resume := none, removed := false } }
    let weigh (t : State) : State := { t with
      scale := { t.scale with window := [], request := some 0 }, disp := { t.disp with quiet := true, fresh := false } }
    let gone := s.disp.removed = true ∨ s.inputs.presDispense = false
    let here := s.disp.removed = false ∧ s.inputs.presDispense = true
    let lines (i : Nat) (f : LineEntry → LineEntry) : Option TinRecord :=
      s.disp.tin.map fun t => { t with lines := t.lines.modify i f }
    let stands := s.mon.mode = .run ∧ s.mon.safe = false
    (r = .tare → resumeDisp s = weigh (back .tare)) ∧
    (r = .dispensing ∧ activeLine s = none ∨ r = .waiting → resumeDisp s = selectLine (back r)) ∧
    (∀ (i : Nat) (l : LineEntry), r = .dispensing → activeLine s = some (i, l) →
      let t := back .dispensing
      (s.disp.step = some .interrupted → (l.plan.bind (·.tol)).isSome = true →
        resumeDisp s = weigh { t with disp := { t.disp with step := some .verify } }) ∧
      (s.disp.step = some .interrupted → l.plan.bind (·.tol) = none → resumeDisp s = selectLine { t with disp := { t.disp with
        step := none, tin := lines i fun l => { l with st := .done, verdict := some .interrupted } } }) ∧
      (s.disp.step = some .verify → resumeDisp s = weigh t) ∧
      (s.disp.step = some .selection → resumeDisp s = selectLine { t with disp := { t.disp with
        step := none, tin := lines i fun l => { l with st := .pending } } })) ∧
    (r = .done → s.inputs.presDispense = true → resumeDisp s = back .done) ∧
    (r = .done → s.inputs.presDispense = false → resumeDisp s = loseDisp (back .done)) ∧
    (r = .outbound → resumeDisp s = back .outbound) ∧
    (r = .called ∨ (r = .wrongTin ∧ gone) →
      (s.disp.tin = none → resumeDisp s = back .empty) ∧
      (s.disp.tin.isSome = true → ¬ stands →
        resumeDisp s = withdrawCall { s with disp := { s.disp with removed := false } }) ∧
      (s.disp.tin.isSome = true → stands → s.inputs.presDispense = true → resumeDisp s = weigh (back .tare)) ∧
      (s.disp.tin.isSome = true → stands → s.inputs.presDispense = false → resumeDisp s = back .called)) ∧
    (r = .wrongTin ∨ r = .orphan → here → resumeDisp s = back r) ∧
    (r = .orphan → gone → resumeDisp s = back .empty) ∧
    (r = .empty → s.inputs.presDispense = true → s.disp.placed = true → resumeDisp s =
      { back .empty with events := { s.events with flags := s.events.flags ||| BitVec.twoPow 15 3 } }) ∧
    (r = .empty → s.inputs.presDispense = false ∨ s.disp.placed = false → resumeDisp s = back .empty) ∧
    (r = .calEnd → s.inputs.presDispense = true → resumeDisp s = back .calEnd) ∧
    (r = .calEnd → s.inputs.presDispense = false → resumeDisp s = { s with disp := { s.disp with
      st := .empty, resume := none, removed := false, cal := none } })) ∧
  (∀ (s : State) (t : TinRecord), dispMayResume s = true → s.disp.lost = false → s.disp.tin = some t →
    t.cancelled = true → s.pump.op = none → activeLine s = none →
    let u := { s with
      stir := { s.stir with pre := [] }
      scale := { s.scale with request := none }
      disp := { s.disp with st := .cancelled, resume := none, step := none, removed := false, quiet := false } }
    (s.disp.removed = false → s.inputs.presDispense = true → s.disp.recWait = false → resumeDisp s = u) ∧
    (s.disp.removed = true ∨ s.inputs.presDispense = false → s.disp.recWait = false →
      resumeDisp s = closeDispRecord u) ∧
    (s.disp.recWait = true → resumeDisp s = drainDisp u)) ∧
  (∀ s : State, dispMayResume s = true → s.disp.lost = true →
    (s.disp.tin = none → s.mon.faultD = none → s.inputs.presDispense = false → resumeDisp s = { s with disp := { s.disp with
      st := .empty, resume := none, step := none, lost := false, removed := false } }) ∧
    (s.disp.tin = none → s.inputs.presDispense = true → resumeDisp s = { s with disp := { s.disp with st := .fault } }) ∧
    (s.disp.recWait = true → s.disp.tin.isSome = true → 16 ≤ s.completion.length →
      resumeDisp s = { s with disp := { s.disp with st := .fault } })) ∧
  (∀ s : State, s.disp.tin.isSome = true →
    (s.completion.length < 16 → closeDispRecord s = drainDisp { s with disp := { s.disp with recWait := true } }) ∧
    (16 ≤ s.completion.length → closeDispRecord s = { s with
      disp := { s.disp with recWait := true }
      events := { s.events with flags := s.events.flags ||| BitVec.twoPow 15 1 } }))

/-- A lid bay STOPPED, or in FAULT with its fault cleared, resumes once no station stop and no ESTOP stands, and a shake
bay no sooner than its shaker is at rest; else each stays as it is. The lid bay: a tin handed over, or waiting for lids,
air or quiet, has the lid test made; a stroke is preceded by the home check, passed at once when the press is home and
else when its sensor comes on, with AIR given up and then the lid test, unless a stop stands; at the home limit
PRESS_HOME is latched (log 16). DONE stays DONE, its tin lost when the sensor is off; an orphan lifted meanwhile leaves
the bay EMPTY. A lost tin's press is retracted first when it is out (log 16), else the bay gives up AIR and its record
waits to join. The shake bay: from the clamp to the spin-down a full new shake begins, its restart count one higher and
the clamp driven closed, or confirmed when it is closed; AWAIT_ROOM, UNCLAMP and AWAIT_REMOVAL are taken up again, a wait
for room in either bay being a new one, with COMPLETION_FULL set again (log 58), and an UNCLAMP whose clamp is found open
ending as the opening clamp would end it (log 59); an EMPTY bay or an orphan's opens a clamp it finds closed (log 53); a lost tin's record waits to join. A shaker that comes
to rest in FAULT or STOPPED gives up POWER, and the bay may then resume. -/
def Obligations.LidAndShakeBaysResume : Prop :=
  (∀ s : State,
    (lidMayResume s = true ↔ (s.lid.st = .stopped ∨ (s.lid.st = .fault ∧ s.mon.faultL = none)) ∧
      s.stationStop = false ∧ s.mon.estop = false ∧ s.lid.homeCheck = false) ∧
    (shakeMayResume s = true ↔ (s.shake.st = .stopped ∨ (s.shake.st = .fault ∧ s.mon.faultS = none)) ∧
      s.stationStop = false ∧ s.mon.estop = false ∧ s.shake.turning = false) ∧
    (lidMayResume s = false → resumeLid s = s) ∧ (shakeMayResume s = false → resumeShake s = s)) ∧
  (∀ (s : State) (r : LidState), lidMayResume s = true → s.lid.resume = some r →
    (∀ t : TinRecord, s.lid.tin = some t → t.lost = false) →
    let back (r : LidState) : State := { s with lid := { s.lid with st := r, resume := none, removed := false } }
    (r = .outbound ∨ r = .empty ∨ (r = .inbound ∧ s.lid.tin = none) → resumeLid s = back r) ∧
    ((r = .inbound ∧ s.lid.tin.isSome = true) ∨ r = .awaitLids ∨ r = .awaitAir ∨ r = .awaitQuiet →
      resumeLid s = lidTest (back r)) ∧
    (r = .extend ∨ r = .dwell ∨ r = .retract →
      (s.inputs.pressHome = true → s.lid.tin.isSome = true → resumeLid s =
        lidTest (giveUp .air { s with lid := { s.lid with home := none, homeCheck := false } })) ∧
      (s.inputs.pressHome = false → resumeLid s = { s with lid := { s.lid with home := some 0, homeCheck := true } })) ∧
    (r = .done → s.inputs.presLid = true → resumeLid s = back .done) ∧
    (∀ t : TinRecord, r = .done → s.inputs.presLid = false → s.lid.tin = some t → resumeLid s = enterLidLost { s with
      lid := { s.lid with
        st := .done, resume := none, removed := false, tin := some { t.note .tinLost with lost := true } } }) ∧
    (r = .orphan → s.lid.removed = true ∨ s.inputs.presLid = false → resumeLid s = back .empty) ∧
    (r = .orphan → s.lid.removed = false → s.inputs.presLid = true → resumeLid s = back .orphan)) ∧
  (∀ (s : State) (t : TinRecord), s.lid.tin = some t →
    let passes := s.lid.declared = some (s.cfg.sizes[t.size]).lidType ∧ s.inputs.magazine = true
    (passes → lidTest s = askClaim .air s.cfg.general.pressDraw { s with
      lid := { s.lid with st := .awaitAir, resume := none } }) ∧
    (¬ passes → lidTest s = { s with
      lid := { s.lid with st := .awaitLids, resume := none, deferral := none }
      events := { s.events with flags := s.events.flags ||| BitVec.twoPow 15 4 } })) ∧
  (∀ (s : State) (t : TinRecord), s.online = true → s.lid.homeCheck = true → s.lid.st ≠ .retract → s.lid.tin = some t →
    let u := giveUp .air { s with
      inputs := { s.inputs with pressHome := true }, lid := { s.lid with home := none, homeCheck := false } }
    let stop := s.stationStop = true ∨ s.mon.estop = true
    (stop → exec .pressHomeSensor s = .next (settle u)) ∧
    (¬ stop → t.lost = false → exec .pressHomeSensor s = .next (settle (lidTest u))) ∧
    (¬ stop → t.lost = true → exec .pressHomeSensor s = .next (settle (enterLidLost u))) ∧
    (∀ n : Nat, s.lid.home = some n → 3000 ≤ n → exec .homeLimit s = .next (settle (latch .lid .pressHome
      (giveUp .air { s with lid := { s.lid with home := none } }))))) ∧
  (∀ (s : State) (t : TinRecord), lidMayResume s = true → s.lid.tin = some t → t.lost = true →
    let stroke := s.lid.resume = some .extend ∨ s.lid.resume = some .dwell ∨ s.lid.resume = some .retract
    let out := s.lid.home.isSome = true ∨ (stroke ∧ s.inputs.pressHome = false)
    (out → resumeLid s = { s with lid := { s.lid with
      st := .retract, resume := none, valve := false, seat := none, dwell := none
      home := some (s.lid.home.getD 0) } }) ∧
    (¬ out → resumeLid s = enterLidLost (giveUp .air s))) ∧
  (∀ (s : State) (r : ShakeState), shakeMayResume s = true → s.shake.resume = some r →
    (∀ t : TinRecord, s.shake.tin = some t → t.lost = false) →
    let back (r : ShakeState) : State :=
      { s with shake := { s.shake with st := r, resume := none, removed := false } }
    let closing (t : TinRecord) : State := { s with shake := { s.shake with
      st := .clamp, resume := none, removed := false, tin := some t, clampDrive := .closing, clamp := some 0 } }
    let clamped (t : TinRecord) : State := askClaim .power s.cfg.general.spinDraw { s with shake := { s.shake with
      st := .awaitPower, resume := none, removed := false, tin := some t, clampDrive := .off, clamp := none } }
    let opening : State := { s with shake := { s.shake with
      st := .unclamp, resume := none, removed := false, clampDrive := .opening, clamp := some 0 } }
    let gone := s.shake.removed = true ∨ s.inputs.presShake = false
    (∀ t : TinRecord, s.shake.tin = some t →
      let again := { t with shake := some { t.shaken with restarts := min 255 (t.shaken.restarts + 1) } }
      (r = .clamp ∨ r = .awaitPower ∨ r = .awaitQuiet ∨ r = .spinUp ∨ r = .run ∨ r = .spinDown →
        (s.inputs.clampClosed = false → resumeShake s = closing again) ∧
        (s.inputs.clampClosed = true → resumeShake s = clamped again)) ∧
      (r = .inbound →
        (s.inputs.clampClosed = false → resumeShake s = closing t) ∧
        (s.inputs.clampClosed = true → resumeShake s = clamped t))) ∧
    (r = .inbound → s.shake.tin = none → resumeShake s = back .inbound) ∧
    (r = .awaitRoom → resumeShake s = enterAwaitRoom (back .awaitRoom)) ∧
    (r = .unclamp →
      (s.inputs.clampClosed = true → resumeShake s = { s with shake := { s.shake with
        st := .unclamp, resume := none, clampDrive := .opening, clamp := some 0 } }) ∧
      (s.inputs.clampClosed = false → resumeShake s = { s with shake := { s.shake with
        st := if s.inputs.presShake = false ∨ (s.shake.joined = true ∧ s.shake.removed = true) then .empty else .awaitRemoval
        clampDrive := .off, clamp := none, resume := none, joined := false, removed := false } })) ∧
    (r = .awaitRemoval → gone → resumeShake s = back .empty) ∧
    (r = .awaitRemoval ∨ r = .orphan → ¬ gone → resumeShake s = back r) ∧
    (r = .empty ∨ (r = .orphan ∧ gone) →
      (s.inputs.clampClosed = true → resumeShake s = opening) ∧
      (s.inputs.clampClosed = false → resumeShake s = back .empty))) ∧
  (∀ (s : State) (t : TinRecord), shakeMayResume s = true → s.shake.tin = some t → t.lost = true →
    resumeShake s = enterAwaitRoom s) ∧
  (∀ s : State, s.online = true → s.shake.st = .stopped ∨ s.shake.st = .fault → s.shake.turning = true →
    exec .shakerSpeedSaturated s = .next (settle (resumeShake (giveUp .power { s with
      scale := { s.scale with window := [], blank := some s.cfg.general.blankTime }
      shake := { s.shake with drive := .off, turning := false, lastSpeed := some 2000000 } }))))

/-- The first fault of a bay is latched and takes the bay to FAULT with BAY_FAULT set, under stop scope BAY without
touching another bay; a further one joins the tin's notes and sets BAY_FAULT only. Under stop scope STATION the first
fault of the station stops the others: a bay in none of FAULT and STOPPED goes to STOPPED with the state it left as its
resume state, CAL_END when a calibration runs (R111); a STOPPED bay keeps its resume state, and a bay in FAULT stays as
it is, but for a lid bay at the home check of a cleared fault, which goes back to STOPPED (log 16). While another fault
is latched, the other bays stay as they are. -/
def Obligations.FaultsLatchOncePerBay : Prop :=
  (∀ (s : State) (b : BayId) (k : FaultKind), (s.fault b).isSome = true →
    latch b k s = setFlag .bayFault (s.mapTin b (TinRecord.note k))) ∧
  (∀ (s : State) (b : BayId) (k : FaultKind), s.fault b = none →
    (latch b k s).fault b = some k ∧ (latch b k s).flag .bayFault = true ∧
    (b = .dispense → (latch b k s).disp.st = .fault) ∧ (b = .lid → (latch b k s).lid.st = .fault) ∧
    (b = .shake → (latch b k s).shake.st = .fault)) ∧
  (∀ (s : State) (b : BayId) (k : FaultKind), s.cfg.general.scope = .bay →
    (b ≠ .dispense → (latch b k s).disp = s.disp) ∧ (b ≠ .lid → (latch b k s).lid = s.lid) ∧
    (b ≠ .shake → (latch b k s).shake = s.shake)) ∧
  (∀ (s : State) (b : BayId) (k : FaultKind), s.cfg.general.scope = .station →
    let t := latch b k s
    (s.anyFault = true →
      (b ≠ .dispense → t.disp = s.disp) ∧ (b ≠ .lid → t.lid = s.lid) ∧ (b ≠ .shake → t.shake = s.shake)) ∧
    (s.anyFault = false →
      (b ≠ .dispense →
        (s.disp.st = .fault ∨ s.disp.st = .stopped → t.disp = s.disp) ∧
        (s.disp.st ≠ .fault → s.disp.st ≠ .stopped → t.disp.st = .stopped ∧
          t.disp.resume = some (if calRunning s then .calEnd else s.disp.st))) ∧
      (b ≠ .lid →
        (s.lid.st = .fault → s.lid.homeCheck = false → t.lid = s.lid) ∧
        ((s.lid.st = .fault ∧ s.lid.homeCheck = true) ∨ s.lid.st = .stopped →
          t.lid = { s.lid with st := .stopped, homeCheck := false }) ∧
        (s.lid.st ≠ .fault → s.lid.st ≠ .stopped → t.lid.st = .stopped ∧ t.lid.resume = some s.lid.st)) ∧
      (b ≠ .shake →
        (s.shake.st = .fault ∨ s.shake.st = .stopped → t.shake = s.shake) ∧
        (s.shake.st ≠ .fault → s.shake.st ≠ .stopped → t.shake.st = .stopped ∧ t.shake.resume = some s.shake.st))))

/-- The emergency stop turns every drive off, sets ESTOP and BAY_FAULT, holds the three bays, frees the stirrers with
their ages kept, blanks the scale and takes both agents to IDLE, a RELEASE being queued in each pool where the line takes
frames. ESTOP joins the notes of every tin held, the carried one among them; a move under way is JAMMED without
TRANSFER_JAM, and no fault is latched. While ESTOP stands, activations and releases change the recorded level
only, as in OFFLINE. -/
def Obligations.EmergencyStopHaltsEverything : Prop :=
  (∀ s : State, s.online = true → s.mon.estop = false → ∃ t, exec .emergencyStop s = .next t ∧
    t.mon = { s.mon with estop := true } ∧ t.inputs.estop = true ∧ t.flag .bayFault = true ∧ baysHeld t ∧ allOff t ∧
    t.stir.pre = [] ∧ t.scale.window = [] ∧ t.scale.blank = some s.cfg.general.blankTime ∧
    (∀ i : Slot, (t.cans[i]).age = (s.cans[i]).age ∧ (t.cans[i]).activity ≠ .stirring) ∧
    (∀ p : Pool, (t.agent p).st = .idle ∧
      (s.lineTakes = true → ∃ f ∈ t.line.queue, f.kind = .release ∧ f.pool = p) ∧
      (s.lineTakes = false → (t.agent p).announced = 0)) ∧
    t.disp.tin.map (·.notes) = s.disp.tin.map (fun r => (r.note .estop).notes) ∧
    t.lid.tin = s.lid.tin.map (TinRecord.note .estop) ∧ t.shake.tin = s.shake.tin.map (TinRecord.note .estop) ∧
    t.carriage =
      if s.carriage.st = .moving then { s.carriage with
        st := .jammed, drive := false, timer := none, deferral := none, cause := some .estop, homeDue := false
        tin := s.carriage.tin.map (TinRecord.note .estop) }
      else { s.carriage with
        drive := false, deferral := none, tin := s.carriage.tin.map (TinRecord.note .estop) }) ∧
  (∀ (r : TinRecord) (k : FaultKind), r.note k =
    if k ∈ r.notes ∨ 4 ≤ r.notes.length then r else { r with notes := r.notes ++ [k] }) ∧
  (∀ s : State, s.online = true → s.mon.estop = true →
    exec .emergencyStop s = .next (settle { s with inputs := { s.inputs with estop := true } })) ∧
  (∀ s : State, s.online = true →
    exec .estopInputReleased s = .next (settle { s with inputs := { s.inputs with estop := false } })) ∧
  (∀ s : State, s.phase = .running → s.mon.mode = .offline →
    exec .emergencyStop s = .next { s with inputs := { s.inputs with estop := true } } ∧
    exec .estopInputReleased s = .next { s with inputs := { s.inputs with estop := false } })

/-! ## The dispense bay -/

/-- The dispense bay's sensor: an object set down uncalled sets TIN_WRONG, one set down on a call is weighed; a wrong
tin's removal brings the call back, or withdraws a call that stands no longer; an orphan's, or a cup's in CAL_END,
leaves the bay EMPTY; a cancelled tin's closes its record. A cup set down in CAL_CUP while one is waited for is weighed;
lifted while its reading is open it is waited for again; lifted in CAL_PRIME or CAL_RATE it is TIN_LOST, and the
calibration ends ABORTED with CAL_END as the resume state. Other arrivals and removals are recorded only, a held bay
noting the object, or the removal it acts on at its resumption (log 32). A tin lifted in TARE, DISPENSING, WAITING or
DONE, or while the bay is STOPPED out of one of them, is lost: TIN_LOST is latched, the bay is in FAULT and finishes
without it; without a shot the tin goes back to its job unless it is committed (log 51). In FAULT it is lost too: the
latched fault stays, the record is marked and noted. The bay that finishes after a lost tin is EMPTY once no fault is
latched, no record waits and the object is lifted, but while ESTOP stands. -/
def Obligations.DispenseSensorIsFollowed : Prop :=
  (∀ s : State, s.online = true →
    let on := { s with inputs := { s.inputs with presDispense := true } }
    let off := { s with inputs := { s.inputs with presDispense := false } }
    (s.disp.st = .empty → exec (.tinPresenceDispense true) s = .next (settle { on with
      events := { s.events with flags := s.events.flags ||| BitVec.twoPow 15 3 } })) ∧
    (s.disp.st = .called → exec (.tinPresenceDispense true) s = .next (settle { on with
      scale := { s.scale with window := [], request := some 0 }
      disp := { s.disp with st := .tare, resume := none, removed := false, quiet := true, fresh := false } })) ∧
    (s.disp.st ≠ .empty → s.disp.st ≠ .called → s.disp.st ≠ .calCup → s.disp.st ≠ .stopped → s.disp.st ≠ .fault →
      exec (.tinPresenceDispense true) s = .next (settle on)) ∧
    (s.disp.st = .stopped ∨ s.disp.st = .fault →
      exec (.tinPresenceDispense true) s = .next (settle { on with disp := { s.disp with placed := true } })) ∧
    (s.disp.st = .wrongTin → s.disp.tin.isSome = true → s.mon.mode = .run → s.mon.safe = false →
      exec (.tinPresenceDispense false) s = .next (settle { off with
        disp := { s.disp with st := .called, resume := none, removed := false } })) ∧
    (s.disp.st = .orphan → exec (.tinPresenceDispense false) s = .next (settle { off with
      disp := { s.disp with st := .empty } })) ∧
    (s.disp.st = .calEnd → exec (.tinPresenceDispense false) s = .next (settle { off with
      disp := { s.disp with st := .empty, resume := none, cal := none, removed := false } })) ∧
    (s.disp.st = .cancelled → s.disp.recWait = false →
      exec (.tinPresenceDispense false) s = .next (settle (closeDispRecord off))) ∧
    (s.disp.st = .wrongTin → s.disp.tin = none → exec (.tinPresenceDispense false) s = .next (settle { off with
      disp := { s.disp with st := .empty, resume := none, removed := false } })) ∧
    (s.disp.st = .wrongTin → s.disp.tin.isSome = true → s.mon.mode ≠ .run ∨ s.mon.safe = true →
      exec (.tinPresenceDispense false) s =
        .next (settle (withdrawCall { off with disp := { s.disp with removed := false } }))) ∧
    ((s.disp.st = .cancelled ∧ s.disp.recWait = true) ∨ s.disp.st = .empty ∨ s.disp.st = .called ∨ s.disp.st = .outbound →
      exec (.tinPresenceDispense false) s = .next (settle off)) ∧
    (∀ c : CalRecord, s.disp.st = .calCup → s.disp.cal = some c →
      (c.stage = .cupWait → exec (.tinPresenceDispense true) s = .next (settle { on with
        scale := { s.scale with window := [], request := some 0 }
        disp := { s.disp with quiet := true, fresh := false, cal := some { c with stage := .cupReading } } })) ∧
      (c.stage ≠ .cupWait → exec (.tinPresenceDispense true) s = .next (settle on)) ∧
      (s.scale.request.isSome = true → exec (.tinPresenceDispense false) s = .next (settle { off with
        scale := { s.scale with request := none }
        disp := { s.disp with quiet := false, cal := some { c with stage := .cupWait } } })) ∧
      (s.scale.request = none → exec (.tinPresenceDispense false) s = .next (settle off))) ∧
    (s.disp.st = .calPrime ∨ s.disp.st = .calRate →
      exec (.tinPresenceDispense false) s = .next (settle (latch .dispense .tinLost off)) ∧
      (calRunning s = true → s.mon.faultD = none → let t := latch .dispense .tinLost off
        t.mon.faultD = some .tinLost ∧ t.disp.st = .fault ∧ t.disp.resume = some .calEnd ∧ t.pump.op = none ∧
        t.scale.request = none ∧ t.disp.quiet = false ∧ t.disp.last.map (·.outcome) = some .aborted ∧
        t.flag .calDone = true ∧ t.flag .bayFault = true)) ∧
    (s.disp.st = .stopped ∨ s.disp.st = .fault →
      let noted (lifted : Bool) : State := { off with
        disp := { s.disp with placed := false, removed := lifted || s.disp.removed } }
      (s.disp.lost = false → s.disp.recWait = true ∨ s.disp.tin = none ∨ (∃ r, s.disp.tin = some r ∧ r.cancelled = true) ∨
          (s.disp.resume ≠ some .tare ∧ s.disp.resume ≠ some .dispensing ∧ s.disp.resume ≠ some .waiting ∧
            s.disp.resume ≠ some .done) →
        exec (.tinPresenceDispense false) s = .next (settle (noted true))) ∧
      (s.disp.lost = true →
        (s.disp.st = .fault → s.mon.faultD = none → s.disp.tin = none → s.mon.estop = false →
          exec (.tinPresenceDispense false) s = .next (settle { off with disp := { s.disp with
            st := .empty, resume := none, step := none, lost := false, removed := false, placed := false } })) ∧
        (s.disp.st = .stopped ∨ s.mon.faultD.isSome = true ∨ s.disp.tin.isSome = true ∨ s.mon.estop = true →
          exec (.tinPresenceDispense false) s = .next (settle (noted false)))))) ∧
  (∀ (s : State) (r : TinRecord) (k : FaultKind), s.online = true → s.disp.tin = some r → r.cancelled = false →
    s.disp.lost = false → s.disp.recWait = false → s.mon.faultD = some k → s.disp.st = .fault →
    s.disp.resume = some .tare ∨ s.disp.resume = some .dispensing ∨ s.disp.resume = some .waiting ∨
      s.disp.resume = some .done →
      ∃ t, exec (.tinPresenceDispense false) s = .next t ∧ t.mon.faultD = some k ∧ t.disp.st = .fault ∧
        t.disp.lost = true ∧ t.flag .bayFault = true ∧ t.disp.tin.map (·.lost) = some true ∧
        t.disp.tin.map (·.notes) = some (r.note .tinLost).notes ∧ t.jobs = s.jobs) ∧
  (∀ (s : State) (r : TinRecord), s.online = true → s.disp.tin = some r → r.cancelled = false → s.disp.lost = false →
    s.disp.recWait = false → s.mon.faultD = none →
    s.disp.st = .tare ∨ s.disp.st = .dispensing ∨ s.disp.st = .waiting ∨ s.disp.st = .done ∨
      (s.disp.st = .stopped ∧ (s.disp.resume = some .tare ∨ s.disp.resume = some .dispensing ∨
        s.disp.resume = some .waiting ∨ s.disp.resume = some .done)) →
      ∃ t, exec (.tinPresenceDispense false) s = .next t ∧ t.mon.faultD = some .tinLost ∧ t.disp.st = .fault ∧
        t.disp.lost = true ∧ t.flag .bayFault = true ∧ t.pump.op = none ∧
        (r.shotGiven = false → s.pump.op = none → t.disp.tin = none ∧
          t.jobs = if r.committed then s.jobs else returnTin r.jobId s.jobs))

/-- A tare reading outside the tin's gross band sends the bay to WRONG_TIN; within it the tin is accepted: its tare is
kept, TIN_WANTED cleared, every line planned by its volume and the minimum-shot test, a pre-dispense request made for
each PENDING line whose canister has settled, and the first line selected. While a line is ACTIVE none is selected; else
the first one in the formula's order that is PENDING, or PASSED with its reason ended (log 35), is taken, and the
next one where it is passed; with none to select the bay is DONE when every line is, and WAITING otherwise. At a report on
a canister every PASSED line of a tin neither lost nor cancelled is judged afresh, its canister READY, unstirred and
unsettled, and its level covering the line's next volume, or else passed for the reason met first, a settled canister
having its stir requested while the bay works, and a level found short setting no CANISTER_LOW (log 76); and a WAITING
bay with a line to select selects. -/
def Obligations.TinsAreAcceptedAndLinesSelected : Prop :=
  (∀ (s : State) (t : TinRecord) (r : Int), s.disp.tin = some t →
    let z := s.cfg.sizes[t.size]
    (¬ ((z.grossLow : Int) ≤ r ∧ r ≤ z.grossHigh) → judgeTare r s = { s with
      disp := { s.disp with st := .wrongTin }
      events := { s.events with flags := s.events.flags ||| BitVec.twoPow 15 3 } }) ∧
    ((z.grossLow : Int) ≤ r → r ≤ z.grossHigh →
      let lines := t.lines.map (planEntry s t.size)
      let ask (u : State) (l : LineEntry) : State :=
        if l.st = .pending ∧ hasSettled s l.slot = true then makePre l.slot u else u
      judgeTare r s = selectLine (lines.foldl ask { s with
        disp := { s.disp with tin := some { t with tare := some r, lines := lines } }
        events := { s.events with flags := s.events.flags &&& ~~~(BitVec.twoPow 15 2) } }))) ∧
  (∀ (s : State) (size : SizeCode) (l : LineEntry),
    let v := roundDiv (l.amount * (s.cfg.sizes[size]).fill) 1000
    let m := (s.cfg.cans[l.slot]).minShot
    planEntry s size l =
      if v = 0 then { l with plannedV := 0, st := .done, verdict := some .omittedZero }
      else if m ≤ v then { l with plannedV := v, st := .pending }
      else if m ≤ 2 * v then { l with plannedV := m, raised := true, st := .pending }
      else { l with plannedV := 0, st := .done, verdict := some .omittedSmall }) ∧
  (∀ (s : State) (l : LineEntry), selectable s l = true ↔
    l.st = .pending ∨ (l.st = .passed .awaitCanister ∧ (s.cans[l.slot]).state = .ready) ∨
    (l.st = .passed .preStir ∧ (s.cans[l.slot]).activity ≠ .stirring ∧ l.slot ∉ s.stir.pre) ∨
    (l.st = .passed .awaitRefill ∧ (s.cfg.cans[l.slot]).reserve + nextVolume s l ≤ (s.cans[l.slot]).level)) ∧
  (∀ (s : State) (t : TinRecord), s.disp.tin = some t →
    ((∃ l ∈ t.lines, l.st = .active) → selectLine s = s) ∧
    ((∀ l ∈ t.lines, l.st = .done) → selectLine s = { s with disp := { s.disp with st := .done, step := none } }) ∧
    ((∀ l ∈ t.lines, l.st ≠ .active ∧ selectable s l = false) → (∃ l ∈ t.lines, l.st ≠ .done) →
      selectLine s = { s with disp := { s.disp with st := .waiting, step := none } }) ∧
    (∀ (i : Nat) (l : LineEntry), t.lines[i]? = some l → selectable s l = true → (∀ m ∈ t.lines, m.st ≠ .active) →
      (∀ (j : Nat) (m : LineEntry), j < i → t.lines[j]? = some m → selectable s m = false) →
        let u := takeLine i l { s with disp := { s.disp with st := .dispensing } }
        ((activeLine u).isSome = true → selectLine s = u) ∧ (activeLine u = none → selectLine s = selectLine u))) ∧
  (∀ (s : State) (i : Slot),
    let c := s.cans[i]
    let stirs : Prop := c.activity = .stirring ∨ i ∈ s.stir.pre ∨ hasSettled s i = true
    (passReason s i = some .awaitCanister ↔ c.state ≠ .ready) ∧
    (passReason s i = some .preStir ↔ c.state = .ready ∧ stirs) ∧ (passReason s i = none ↔ c.state = .ready ∧ ¬ stirs)) ∧
  (∀ (s : State) (l : LineEntry),
    ((∀ why : PassReason, l.st ≠ .passed why) → judgeEntry s l = l) ∧
    (∀ why : PassReason, l.st = .passed why →
      (∀ r : PassReason, passReason s l.slot = some r → judgeEntry s l = { l with st := .passed r }) ∧
      (passReason s l.slot = none →
        ((s.cans[l.slot]).level < (s.cfg.cans[l.slot]).reserve + nextVolume s l →
          judgeEntry s l = { l with st := .passed .awaitRefill }) ∧
        ((s.cfg.cans[l.slot]).reserve + nextVolume s l ≤ (s.cans[l.slot]).level → judgeEntry s l = l)))) ∧
  (∀ (s : State) (t : TinRecord), s.disp.tin = some t →
    let lines := t.lines.map (judgeEntry s)
    let judged := { s with disp := { s.disp with tin := some { t with lines := lines } } }
    let ask (u : State) (l : LineEntry) : State :=
      if l.st = .passed .preStir ∧ hasSettled s l.slot = true then makePre l.slot u else u
    (s.disp.lost = true ∨ t.cancelled = true → judgePassed s = s) ∧
    (s.disp.lost = false → t.cancelled = false →
      (s.disp.st = .dispensing ∨ s.disp.st = .waiting → judgePassed s = lines.foldl ask judged) ∧
      (s.disp.st ≠ .dispensing → s.disp.st ≠ .waiting → judgePassed s = judged))) ∧
  (∀ (s : State) (i : Slot),
    let t := judgePassed s
    (t.disp.st = .waiting → ∀ r : TinRecord, t.disp.tin = some r →
      ((∃ l ∈ r.lines, selectable t l = true) → reportCanister i s = selectLine t) ∧
      ((∀ l ∈ r.lines, selectable t l = false) → reportCanister i s = t)) ∧
    (t.disp.st = .dispensing → t.disp.step ≠ some .beforeReading ∨ activeLine t = none → reportCanister i s = t) ∧
    (t.disp.st ≠ .dispensing → t.disp.st ≠ .waiting → t.disp.st ≠ .calPrime → t.disp.st ≠ .calRate →
      reportCanister i s = t))

/-- A selected line is passed for AWAIT_CANISTER when its canister is not READY, for PRE_STIR when it stirs, is to stir
or has settled, a request being made in the last case. Any other line that needs a before-reading is ACTIVE with a
request open, unless the fresh-reading mark lets the latest reading stand; then, and at once for a volumetric line, the
debit is asked for. A canister stirred meanwhile passes the line for PRE_STIR; a level that would fall below the reserve
passes it for AWAIT_REFILL with CANISTER_LOW set; a granted debit begins the shot: the plan of the first shot is the
canister's present one and stays, delivered volume and level move by the volume, the before-reading is the base, the
mark is cleared, the drive has the operation, and the tin is committed, its job's reserved place released. -/
def Obligations.LinesArePassedOrShot : Prop :=
  (∀ (s : State) (t : TinRecord) (i : Nat) (l : LineEntry), s.disp.tin = some t →
    let c := s.cans[l.slot]
    let pass (why : PassReason) : State := { s with disp := { s.disp with
      step := none, tin := some { t with lines := t.lines.modify i fun l => { l with st := .passed why } } } }
    let weighed := l.plan.isSome = true ∨ s.cfg.general.verifyFloor ≤ roundDiv (l.plannedV * c.density) 100
    (c.state ≠ .ready → takeLine i l s = pass .awaitCanister) ∧
    (c.state = .ready → c.activity = .stirring ∨ l.slot ∈ s.stir.pre → takeLine i l s = pass .preStir) ∧
    (c.state = .ready → c.activity ≠ .stirring → l.slot ∉ s.stir.pre →
      (hasSettled s l.slot = true → takeLine i l s = { pass .preStir with
        stir := { s.stir with pre := s.stir.pre ++ [l.slot] } }) ∧
      (hasSettled s l.slot = false → weighed → s.disp.fresh = false → takeLine i l s = { s with
        scale := { s.scale with window := [], request := some 0 }
        disp := { s.disp with
          st := .dispensing
          step := some .beforeReading
          quiet := true
          fresh := false
          tin := some { t with lines := t.lines.modify i fun l => { l with st := .active } } } }) ∧
      (∀ r : Int, hasSettled s l.slot = false → weighed → s.disp.fresh = true → s.scale.latest = some r →
        takeLine i l s = debitStage i l (nextVolume s l) (some r) s) ∧
      (hasSettled s l.slot = false → ¬ weighed → takeLine i l s = debitStage i l (nextVolume s l) none s)) ∧
    (∀ (v : Nat) (before : Option Int),
      (c.activity = .stirring → debitStage i l v before s = pass .preStir) ∧
      (c.activity ≠ .stirring → c.level < (s.cfg.cans[l.slot]).reserve + v → debitStage i l v before s =
        { pass .awaitRefill with events := { s.events with flags := s.events.flags ||| BitVec.twoPow 15 5 } }) ∧
      (c.activity ≠ .stirring → (s.cfg.cans[l.slot]).reserve + v ≤ c.level →
        debitStage i l v before s = beginShot i l v before s))) ∧
  (∀ (s : State) (l : LineEntry), nextVolume s l = match l.plan with
    | none => l.plannedV
    | some p => max (roundDiv (((p.mExp : Int) - l.carried).toNat * 100) p.density) (s.cfg.cans[l.slot]).minShot) ∧
  (∀ (s : State) (t : TinRecord) (i : Nat) (l : LineEntry) (v : Nat) (before : Option Int), s.disp.tin = some t →
    let c := s.cans[l.slot]
    let g := s.cfg.general
    let m := roundDiv (l.plannedV * c.density) 100
    let now : LinePlan :=
      { code := c.code
        steps := roundDiv (l.plannedV * c.k) 100
        mExp := m
        tol := if g.verifyFloor ≤ m then some (max g.tolAbs (roundDiv (m * g.tolRel) 1000)) else none
        density := c.density
        k := c.k }
    let p := l.plan.getD now
    let low := (s.cfg.cans[l.slot]).reserve + g.lowMargin
    let u := beginShot i l v before s
    u.disp = { s.disp with
      st := .dispensing
      step := some .shot
      fresh := false
      tin := some { t with
        committed := true
        lines := t.lines.modify i fun e => { e with
          st := .active
          plan := some p
          delivered := e.delivered + v
          topUps := if l.plan.isNone then e.topUps else e.topUps + 1
          base := before.orElse fun _ => e.base } } } ∧
    u.jobs = { s.jobs with reserved := s.jobs.reserved.filter (·.id != t.jobId) } ∧
    (u.cans[l.slot]).level = c.level - v ∧
    u.flag .canisterLow = (s.flag .canisterLow || (low ≤ c.level && c.level - v < low)) ∧
    ∃ o : PumpOp, u.pump.op = some o ∧ o.slot = l.slot ∧ o.k = p.k ∧ o.counted = 0 ∧
      (l.plan = none → o.kind = .lineShot ∧ o.total = p.steps) ∧
      (l.plan.isSome = true → o.kind = .topUp ∧ o.total = roundDiv (v * p.k) 100))

/-- A volumetric line whose shot completes is DONE, VOLUMETRIC or RAISED, its miss count untouched; a weighed one goes
to VERIFY with a request open. The after-reading's gain is recorded and judged, the first case deciding: below minus E
DISTURBED; within E OK or RAISED; above it OVER; short by more than half of M_exp UNDER, the canister FAULTED with
NO_FLOW; short with top-ups left a top-up; else UNDER. The miss count is set to 0 by a line within tolerance without a
top-up, rises by one by a line that needed a top-up, ended OVER, or ended short with its top-ups used up, also when none
is allowed (log 34), RECAL_ADVISED being set when it reaches 3, and is else untouched. A top-up follows at once, or the
line is passed with its run closed. Then the bay selects. -/
def Obligations.WeighingsAreJudged : Prop :=
  (∀ (s : State) (t : TinRecord) (i : Nat) (l : LineEntry), s.disp.st = .dispensing → s.disp.tin = some t →
    activeLine s = some (i, l) →
    (l.plan.bind (·.tol) = none → opCompleted s = selectLine { s with disp := { s.disp with
      step := none
      tin := some { t with lines := t.lines.modify i fun e =>
        { e with st := .done, verdict := some (if l.raised then .raised else .volumetric) } } } }) ∧
    ((l.plan.bind (·.tol)).isSome = true → opCompleted s = { s with
      scale := { s.scale with window := [], request := some 0 }
      disp := { s.disp with step := some .verify, quiet := true, fresh := false } })) ∧
  (∀ (s : State) (t : TinRecord) (i : Nat) (l : LineEntry) (p : LinePlan) (r : Int), s.disp.tin = some t →
    let gain : Int := l.carried + 10 * (r - l.base.getD r)
    let tol : Nat := p.tol.getD 0
    let short : Int := p.mExp - gain
    let half : Int := (p.mExp / 2 : Nat)
    let lines := t.lines.modify i fun e => { e with gain := some gain }
    let measured := { s with disp := { s.disp with tin := some { t with lines := lines } } }
    let ended (v : LineVerdict) : State := { s with disp := { s.disp with
      step := none
      tin := some { t with lines := lines.modify i fun e => { e with st := .done, verdict := some v } } } }
    let count (o : Outcome27) (u : State) : State := countMiss l.slot (if 0 < l.topUps then .corrected else o) u
    (gain < -(tol : Int) → judgeReading i l p r s = selectLine (count .neither (ended .disturbed))) ∧
    (-(tol : Int) ≤ gain → short.natAbs ≤ tol →
      judgeReading i l p r s = selectLine (count .within (ended (if l.raised then .raised else .ok)))) ∧
    (-(tol : Int) ≤ gain → short < -(tol : Int) → judgeReading i l p r s = selectLine (count .corrected (ended .over))) ∧
    (-(tol : Int) ≤ gain → tol < short → half < short → judgeReading i l p r s =
      selectLine (judgePassed (markFaulted l.slot .noFlow (count .neither (ended .under))))) ∧
    (-(tol : Int) ≤ gain → tol < short → short ≤ half →
      (s.cfg.general.maxTopUps ≤ l.topUps →
        judgeReading i l p r s = selectLine (count .corrected (ended .under))) ∧
      (l.topUps < s.cfg.general.maxTopUps →
        let v := max (roundDiv (short.toNat * 100) p.density) (s.cfg.cans[l.slot]).minShot
        let passed (why : PassReason) : State := { s with disp := { s.disp with
          step := none
          tin := some { t with lines := (lines.modify i fun e =>
            { e with carried := gain, base := none }).modify i fun e => { e with st := .passed why } } } }
        (passReason s l.slot = none → (s.cfg.cans[l.slot]).reserve + v ≤ (s.cans[l.slot]).level →
          judgeReading i l p r s = beginShot i l v none measured) ∧
        (passReason s l.slot = none → (s.cans[l.slot]).level < (s.cfg.cans[l.slot]).reserve + v →
          judgeReading i l p r s = selectLine { passed .awaitRefill with
            events := { s.events with flags := s.events.flags ||| BitVec.twoPow 15 5 } }) ∧
        (passReason s l.slot = some .awaitCanister → judgeReading i l p r s = selectLine (passed .awaitCanister)) ∧
        (passReason s l.slot = some .preStir →
          judgeReading i l p r s = selectLine (makePre l.slot (passed .preStir)))))) ∧
  (∀ (s : State) (i : Slot),
    let c := s.cans[i]
    countMiss i .neither s = s ∧ countMiss i .within s = { s with cans := s.cans.set i { c with miss := 0 } } ∧
    (c.miss ≠ 2 → countMiss i .corrected s = { s with cans := s.cans.set i { c with miss := min 3 (c.miss + 1) } }) ∧
    (c.miss = 2 → countMiss i .corrected s = { s with
      cans := s.cans.set i { c with miss := 3 }
      events := { s.events with flags := s.events.flags ||| BitVec.twoPow 15 9 } }))

/-- A calibration's course. A cup at or below the cup maximum begins CAL_PRIME, a heavier one sets TIN_WRONG. Prime try
n takes 400 n steps, beyond the travel PRIME_MAXSTROKE; a gain of 50 mg or more begins CAL_RATE, the sixth failed try is
PRIME_LOOPS. A pass runs its tests in order; a gain below the verify floor or a factor above 6,400 is RATE_LOW, and at
its end the mean factor is the new K: PASS when the spread and the range allow it, else another pass, after the fifth
RATE_SPREAD. A shot waits while its canister stirs or is to stir; one that has settled has a
stir requested first, and the bay looks again at each report. Then a shot with a fresh reading debits its nominal volume
and has the drive's operation, or waits again where a stir has been granted meanwhile; its completion opens the after-reading. At its outcome CAL_DONE is set, the last result kept, the canister READY with
the new K and no misses after PASS, else READY or UNCALIBRATED with its old K, and the bay in CAL_END while the cup
stands. What the record's before-reading holds between shots is log 66, that a pass begun counts as run log 67. -/
def Obligations.CalibrationsRunTheirCourse : Prop :=
  (∀ (s : State) (c : CalRecord), s.disp.cal = some c →
    let with' (st : DispState) (d : CalRecord) : State := { s with disp := { s.disp with st := st, cal := some d } }
    (∀ r : Int,
      (r ≤ s.cfg.general.cupMax → judgeCup r s = primeTry (some r) (with' .calPrime c)) ∧
      ((s.cfg.general.cupMax : Int) < r → judgeCup r s = { with' s.disp.st { c with stage := .cupWait } with
        events := { s.events with flags := s.events.flags ||| BitVec.twoPow 15 3 } })) ∧
    (∀ before : Option Int,
      let n := c.primeTry + 1
      ((s.cfg.cans[c.slot]).travel < 400 * n → primeTry before s =
        calOutcome .primeMaxstroke none (with' s.disp.st { c with primeTry := n })) ∧
      (400 * n ≤ (s.cfg.cans[c.slot]).travel → primeTry before s = calRecheck (with' s.disp.st
        { c with primeTry := n, steps := 400 * n, stage := .stirWait, before := before }))) ∧
    (∀ gain : Int,
      (50 ≤ gain → judgePrime gain s = calPass (with' .calRate c)) ∧
      (gain < 50 → c.primeTry < 6 → judgePrime gain s = primeTry none s) ∧
      (gain < 50 → 6 ≤ c.primeTry → judgePrime gain s = calOutcome .primeLoops none s)) ∧
    (∀ (i : Fin 4) (rest : List (Fin 4)), c.tests = i :: rest →
      calPass s = calTest i (with' s.disp.st { c with pass := c.pass + 1, results := [] })) ∧
    (∀ i : Fin 4, calTest i s = calRecheck (with' s.disp.st { c with
      test := some i
      steps := roundDiv (s.cfg.general.testVolumes[i] * c.kp) 100
      stage := .stirWait
      before := none })) ∧
    (∀ gain : Int,
      let ki := roundDiv (c.steps * c.density) gain.toNat
      let d := { c with results := c.results ++ [{ steps := c.steps, gain := gain, ki := ki }] }
      (gain < s.cfg.general.verifyFloor ∨ 6400 < ki → judgeTest gain s = calOutcome .rateLow none s) ∧
      (s.cfg.general.verifyFloor ≤ gain → ki ≤ 6400 →
        (∀ i : Fin 4, (c.tests.find? fun t => decide (c.test.getD 0 < t)) = some i →
          judgeTest gain s = calTest i (with' s.disp.st d)) ∧
        ((c.tests.find? fun t => decide (c.test.getD 0 < t)) = none →
          judgeTest gain s = judgePass (with' s.disp.st d)))) ∧
    (let ks := c.results.map (·.ki)
      let newK := roundDiv ks.sum ks.length
      let good := ks.foldl max 0 - ks.foldl min (ks.headD 0) ≤ roundDiv (newK * s.cfg.general.spread) 1000 ∧
        100 ≤ newK ∧ newK ≤ 6400
      (good → judgePass s = calOutcome .pass (some newK) s) ∧
      (¬ good → c.pass < 5 → judgePass s = calPass s) ∧
      (¬ good → 5 ≤ c.pass → judgePass s = calOutcome .rateSpread none s))) ∧
  (∀ (s : State) (c : CalRecord) (before : Int), s.disp.cal = some c → s.disp.st = .calPrime ∨ s.disp.st = .calRate →
    (s.cans[c.slot]).activity ≠ .stirring →
    let u := calDebit before c s
    (c.stage = .stirWait → c.slot ∉ s.stir.pre → hasSettled s c.slot = false →
      (s.disp.fresh = true → s.scale.latest = some before → calRecheck s = u) ∧
      (s.disp.fresh = false → calRecheck s = { s with
        scale := { s.scale with window := [], request := some 0 }
        disp := { s.disp with quiet := true, fresh := false, cal := some { c with stage := .beforeReading } } })) ∧
    u.disp = { s.disp with fresh := false, cal := some { c with before := some before, stage := .shot } } ∧
    (u.cans[c.slot]).level = (s.cans[c.slot]).level - roundDiv (c.steps * 100) c.kp ∧
    (∃ o : PumpOp, u.pump.op = some o ∧ o.slot = c.slot ∧ o.total = c.steps ∧ o.k = c.kp ∧ o.counted = 0 ∧
      o.kind = if s.disp.st = .calPrime then .primeShot else .testShot) ∧
    opCompleted s = { s with
      scale := { s.scale with window := [], request := some 0 }
      disp := { s.disp with quiet := true, fresh := false, cal := some { c with stage := .afterReading } } }) ∧
  (∀ (s : State) (c : CalRecord), s.disp.cal = some c → s.disp.st = .calPrime ∨ s.disp.st = .calRate →
    let busy := (s.cans[c.slot]).activity = .stirring ∨ c.slot ∈ s.stir.pre
    (c.stage = .stirWait →
      (busy → calRecheck s = s) ∧ (¬ busy → hasSettled s c.slot = true → calRecheck s = makePre c.slot s)) ∧
    (c.stage ≠ .stirWait → calRecheck s = s) ∧
    (∀ before : Int, (s.cans[c.slot]).activity = .stirring → calDebit before c s = { s with
      disp := { s.disp with cal := some { c with stage := .stirWait } } }) ∧
    (∀ i : Slot, reportCanister i s = calRecheck (judgePassed s))) ∧
  (∀ (s : State) (c : CalRecord) (o : CalOutcome) (newK : Option Nat), s.disp.cal = some c → s.disp.st ≠ .fault →
    s.disp.st ≠ .stopped → s.inputs.presDispense = true → (s.cans[c.slot]).state = .calibrating →
    let k := s.cans[c.slot]
    calOutcome o newK s = { s with
      stir := { s.stir with pre := [] }
      scale := { s.scale with request := none }
      events := { s.events with flags := s.events.flags ||| BitVec.twoPow 15 8 }
      cans := s.cans.set c.slot (match newK with
        | some n => { k with state := .ready, k := n, miss := 0 }
        | none => { k with state := if 0 < k.k then .ready else .uncalibrated })
      disp := { s.disp with
        st := .calEnd
        resume := none
        step := none
        quiet := false
        cal := some { c with stage := .over, test := none }
        last := some { slot := c.slot, outcome := o, passes := c.pass, newK := newK, ks := c.results.map (·.ki) } } })

/-! ## Carriage, lid bay and shake bay -/

/-- When each start is due: the carriage's move while it is IDLE with an eligible request and no stop stands, its home
run while it is JAMMED with one owed and no stop stands, the press in AWAIT_QUIET with AIR held and the guard closed,
the spin-up in AWAIT_QUIET with POWER held. A start that is due is taken when the quiet request is lowered or the quiet
limit is 0, and at the quiet limit when it was deferred; otherwise nothing is started, nor at the quiet limit of an owner that has no
deferral or whose start is due no longer. A canister's report that
withdraws the before-reading lowers the quiet request, and every deferred start is taken before the line is taken again
(log 68). What each start does: the carriage is driven with its tin, the move from the lid bay before the other, its
timer from 0, and a tin it takes from the dispense bay is committed; the press extends with its seat timer from 0, its
home sensor taken as off (log 30); the shaker is driven with its spin-up timer from 0. Each blanks the scale. The rows
that take a start are read as log 8 says. -/
def Obligations.DueStartsDriveAndBlank : Prop :=
  (∀ s : State, s.online = true →
    (moveDue s = true → quietAllows s = true → exec .carriageMoveStart s = .next (settle (startMove s))) ∧
    (homeRunDue s = true → quietAllows s = true → exec .homeRunStart s = .next (settle (startHomeRun s))) ∧
    (pressDue s = true → quietAllows s = true → exec .pressStart s = .next (settle (startPress s))) ∧
    (spinDue s = true → quietAllows s = true → exec .spinUpStart s = .next (settle (startSpin s))) ∧
    (s.carriage.deferral.isSome = true →
      (moveDue s = true → exec (.quietDeferralExpiry .carriage) s = .next (settle (startMove s))) ∧
      (moveDue s = false → homeRunDue s = true →
        exec (.quietDeferralExpiry .carriage) s = .next (settle (startHomeRun s)))) ∧
    (s.lid.deferral.isSome = true → pressDue s = true →
      exec (.quietDeferralExpiry .lid) s = .next (settle (startPress s))) ∧
    (s.shake.deferral.isSome = true → spinDue s = true →
      exec (.quietDeferralExpiry .shake) s = .next (settle (startSpin s))) ∧
    (s.carriage.deferral = none ∨ (moveDue s = false ∧ homeRunDue s = false) →
      exec (.quietDeferralExpiry .carriage) s = .next (settle s)) ∧
    (s.lid.deferral = none ∨ pressDue s = false → exec (.quietDeferralExpiry .lid) s = .next (settle s)) ∧
    (s.shake.deferral = none ∨ spinDue s = false → exec (.quietDeferralExpiry .shake) s = .next (settle s)) ∧
    ((moveDue s && quietAllows s) = false → exec .carriageMoveStart s = .next (settle s)) ∧
    ((homeRunDue s && quietAllows s) = false → exec .homeRunStart s = .next (settle s)) ∧
    ((pressDue s && quietAllows s) = false → exec .pressStart s = .next (settle s)) ∧
    ((spinDue s && quietAllows s) = false → exec .spinUpStart s = .next (settle s))) ∧
  (∀ s : State,
    let scale := { s.scale with window := [], blank := some s.cfg.general.blankTime }
    let carriage (m : Move) (t : Option TinRecord) (charge : Option BayId) : Carriage :=
      { st := .moving, move := some m, tin := t, deferral := none, timer := some 0, charge := charge, drive := true
        cause := none, homeDue := false }
    (lidMoveEligible s = true → startMove s = { s with
      scale := scale
      carriage := carriage .lidToShake s.lid.tin (some .lid)
      lid := { s.lid with st := .outbound, tin := none }
      shake := { s.shake with st := .inbound } }) ∧
    (∀ t : TinRecord, lidMoveEligible s = false → s.disp.tin = some t → startMove s = { s with
      scale := scale
      carriage := carriage .dispenseToLid (some { t with committed := true }) (some .dispense)
      jobs :=
        if t.shotGiven then s.jobs else { s.jobs with reserved := s.jobs.reserved.filter (·.id != t.jobId) }
      disp := { s.disp with st := .outbound, tin := none, step := none }
      lid := { s.lid with st := .inbound } }) ∧
    startHomeRun s = { s with scale := scale, carriage := carriage .homeRun none s.carriage.charge } ∧
    startPress s = { s with
      scale := scale
      inputs := { s.inputs with pressHome := false }
      lid := { s.lid with
        st := .extend, valve := true, seat := some 0, seatTime := 0, home := none, homeCheck := false
        deferral := none } } ∧
    startSpin s = { s with
      scale := scale
      shake := { s.shake with st := .spinUp, drive := .driven, spin := some 0, deferral := none } }) ∧
  (∀ s : State,
    let stopped : Prop := s.mon.estop = true ∨ (s.cfg.general.scope = .station ∧ s.anyFault = true)
    (lidMoveEligible s = true ↔
      s.lid.st = .done ∧ s.shake.st = .empty ∧ ∃ t : TinRecord, s.lid.tin = some t ∧ t.lost = false) ∧
    (dispMoveEligible s = true ↔ s.disp.st = .done ∧ s.lid.st = .empty ∧ s.disp.tin.isSome = true) ∧
    (moveDue s = true ↔
      s.carriage.st = .idle ∧ (lidMoveEligible s = true ∨ dispMoveEligible s = true) ∧ ¬ stopped) ∧
    (homeRunDue s = true ↔ s.carriage.st = .jammed ∧ s.carriage.homeDue = true ∧ ¬ stopped) ∧
    (carriageDue s = true ↔ moveDue s = true ∨ homeRunDue s = true) ∧
    (pressDue s = true ↔ s.lid.st = .awaitQuiet ∧ s.air.st = .held ∧ s.inputs.guardOpen = false) ∧
    (spinDue s = true ↔ s.shake.st = .awaitQuiet ∧ s.power.st = .held) ∧
    (quietAllows s = true ↔ s.disp.quiet = false ∨ s.cfg.general.quietLimit = 0)) ∧
  (∀ s : State,
    let t := if s.carriage.deferral.isSome && moveDue s then startMove s
      else if s.carriage.deferral.isSome && homeRunDue s then startHomeRun s else s
    let u := if t.lid.deferral.isSome && pressDue t then startPress t else t
    takeAllDeferred s = if u.shake.deferral.isSome && spinDue u then startSpin u else u) ∧
  (∀ (s : State) (c : Slot) (i : Nat) (l : LineEntry),
    let t := judgePassed s
    t.disp.st = .dispensing → activeLine t = some (i, l) → l.slot = c → t.disp.step = some .beforeReading →
      reportCanister c s = retakeLine i l (takeAllDeferred { t with
        scale := { t.scale with request := none }, disp := { t.disp with quiet := false } }))

/-- The arrival sensor ends a move: the carriage is IDLE, the source bay EMPTY, the scale blanked, and the target bay
holds the tin and begins its work, a clamp found closed at once asking for the spin-up draw; a source bay held in
STOPPED or FAULT resumes into EMPTY, and a target bay so held has the tin for its resumption. The home sensor ends a
home run. A move timer that has reached 8,000 ms jams the carriage and latches TRANSFER_JAM against the charged bay; one
that has not, or is stopped, does nothing (log 4). Without a move of the kind nothing happens. A jam whose cause is
cleared is resolved once ESTOP does not stand: the target bay's presence sensor tells where its tin stands, which that
bay then holds as on an arrival, or else the source bay, DONE again with the target EMPTY; a bay held meanwhile resumes
into that state; and the carriage's home run is due, which `move` shows (log 55). -/
def Obligations.MovesEndInArrivalOrJam : Prop :=
  (∀ s : State, s.online = true →
    let scale := { s.scale with window := [], blank := some s.cfg.general.blankTime }
    let idle := { s.carriage with
      st := .idle, drive := false, timer := none, deferral := none, move := none, charge := none, tin := none }
    let disp : DispenseBay :=
      if s.disp.st = .fault ∨ s.disp.st = .stopped then { s.disp with resume := some .empty }
      else if s.disp.st = .outbound then { s.disp with st := .empty } else s.disp
    let lid : LidBay :=
      if s.lid.st = .fault ∨ s.lid.st = .stopped then { s.lid with resume := some .empty }
      else if s.lid.st = .inbound ∨ s.lid.st = .outbound then { s.lid with st := .empty } else s.lid
    (∀ t : TinRecord, s.carriage.st = .moving → s.carriage.move = some .dispenseToLid → s.carriage.tin = some t →
      let held := { s with scale := scale, carriage := idle, disp := disp, lid := { s.lid with tin := some t } }
      (s.lid.st = .inbound → exec .carriageArrival s = .next (settle (lidTest held))) ∧
      (s.lid.st ≠ .inbound → exec .carriageArrival s = .next (settle held))) ∧
    (∀ t : TinRecord, s.carriage.st = .moving → s.carriage.move = some .lidToShake → s.carriage.tin = some t →
      let held (shake : ShakeBay) : State :=
        { s with scale := scale, carriage := idle, lid := lid, shake := { shake with tin := some t } }
      (s.shake.st = .inbound → s.inputs.clampClosed = false → exec .carriageArrival s = .next (settle (held
        { s.shake with st := .clamp, resume := none, clampDrive := .closing, clamp := some 0 }))) ∧
      (s.shake.st = .inbound → s.inputs.clampClosed = true →
        exec .carriageArrival s = .next (settle (askClaim .power s.cfg.general.spinDraw (held
          { s.shake with st := .awaitPower, resume := none, clampDrive := .off, clamp := none })))) ∧
      (s.shake.st ≠ .inbound → exec .carriageArrival s = .next (settle (held s.shake)))) ∧
    (s.carriage.st = .moving → s.carriage.move = some .homeRun → exec .carriageArrival s = .next (settle s) ∧
      (s.carriage.tin = none → exec .carriageHome s = .next (settle { s with scale := scale, carriage := idle }))) ∧
    (s.carriage.st = .moving → s.carriage.move ≠ some .homeRun → exec .carriageHome s = .next (settle s)) ∧
    (∀ n : Nat, s.carriage.st = .moving → s.carriage.timer = some n → 8000 ≤ n →
      exec .moveTimeout s = .next (settle (latch (s.carriage.charge.getD .dispense) .transferJam { s with
        carriage := { s.carriage with
          st := .jammed, drive := false, timer := none, deferral := none, cause := some .transfer, homeDue := false
          tin := s.carriage.tin.map (TinRecord.note .transferJam) } }))) ∧
    (s.carriage.timer = none ∨ (∃ n : Nat, s.carriage.timer = some n ∧ n < 8000) →
      exec .moveTimeout s = .next (settle s)) ∧
    (s.carriage.st ≠ .moving →
      exec .carriageArrival s = .next (settle s) ∧ exec .carriageHome s = .next (settle s) ∧
      exec .moveTimeout s = .next (settle s))) ∧
  (∀ s : State,
    (s.carriage.st ≠ .jammed ∨ s.carriage.cause.isSome = true ∨ s.carriage.homeDue = true ∨ s.mon.estop = true →
      resolveCarriage s = s) ∧
    (s.carriage.st = .jammed → s.carriage.cause = none → s.carriage.homeDue = false → s.mon.estop = false →
      let due (tin : Option TinRecord) : Carriage :=
        { s.carriage with tin := tin, homeDue := true, move := some .homeRun }
      let dispAt (p : DispState) : DispenseBay :=
        if s.disp.st = .fault ∨ s.disp.st = .stopped then { s.disp with resume := some p }
        else if s.disp.st = .outbound then { s.disp with st := p } else s.disp
      let lidAt (p : LidState) : LidBay :=
        if s.lid.st = .fault ∨ s.lid.st = .stopped then { s.lid with resume := some p }
        else if s.lid.st = .inbound ∨ s.lid.st = .outbound then { s.lid with st := p } else s.lid
      let shakeAt (p : ShakeState) : ShakeBay :=
        if s.shake.st = .fault ∨ s.shake.st = .stopped then { s.shake with resume := some p }
        else if s.shake.st = .inbound then { s.shake with st := p } else s.shake
      (s.carriage.tin = none → resolveCarriage s = { s with carriage := due none }) ∧
      (∀ t : TinRecord, s.carriage.tin = some t → s.carriage.move = some .dispenseToLid →
        let held := { s with
          carriage := due none, disp := dispAt .empty, lid := { s.lid with tin := some t } }
        (s.inputs.presLid = true → s.lid.st = .inbound → resolveCarriage s = lidTest held) ∧
        (s.inputs.presLid = true → s.lid.st ≠ .inbound → resolveCarriage s = held) ∧
        (s.inputs.presLid = false → resolveCarriage s = { s with
          carriage := due none, disp := { dispAt .done with tin := some t }, lid := lidAt .empty })) ∧
      (∀ t : TinRecord, s.carriage.tin = some t → s.carriage.move = some .lidToShake →
        let held (shake : ShakeBay) : State :=
          { s with carriage := due none, lid := lidAt .empty, shake := { shake with tin := some t } }
        (s.inputs.presShake = true → s.shake.st = .inbound → s.inputs.clampClosed = false → resolveCarriage s = held
          { s.shake with st := .clamp, resume := none, clampDrive := .closing, clamp := some 0 }) ∧
        (s.inputs.presShake = true → s.shake.st = .inbound → s.inputs.clampClosed = true →
          resolveCarriage s = askClaim .power s.cfg.general.spinDraw (held
            { s.shake with st := .awaitPower, resume := none, clampDrive := .off, clamp := none })) ∧
        (s.inputs.presShake = true → s.shake.st ≠ .inbound → resolveCarriage s = held s.shake) ∧
        (s.inputs.presShake = false → resolveCarriage s = { s with
          carriage := due none, lid := { lidAt .done with tin := some t }, shake := shakeAt .empty }))))

/-- LIDS declares a lid type, a code above 15 being BAD_FIELD; the magazine sensor is recorded; and a bay that waits
judges its tin afresh: from AWAIT_LIDS it goes on to ask for air, from AWAIT_AIR or AWAIT_QUIET back to AWAIT_LIDS. In
other states neither reaches the bay's work. -/
def Obligations.LidTestsAreMadeAfresh : Prop :=
  (∀ (lidType : Byte) (s u : State), serving s → u = restartKeepalive s →
    (15 < lidType.toNat → exec (.lids lidType) s = .next (settle (withResponse 0x0D .badField [] s.port.overrun u))) ∧
    (lidType.toNat ≤ 15 → exec (.lids lidType) s = .next (settle (withResponse 0x0D .ok [] s.port.overrun
      (lidRecheck { u with lid := { u.lid with declared := some lidType.toNat } }))))) ∧
  (∀ (s : State) (present : Bool), s.online = true →
    exec (.magazineSensor present) s =
      .next (settle (lidRecheck { s with inputs := { s.inputs with magazine := present } }))) ∧
  (∀ s : State, s.lid.st ≠ .awaitLids → s.lid.st ≠ .awaitAir → s.lid.st ≠ .awaitQuiet → lidRecheck s = s) ∧
  (∀ (s : State) (t : TinRecord), s.lid.tin = some t →
    let passes := s.lid.declared = some (s.cfg.sizes[t.size]).lidType ∧ s.inputs.magazine = true
    (s.lid.st = .awaitLids → ¬ passes → lidRecheck s = s) ∧
    (s.lid.st = .awaitLids → passes → lidRecheck s = askClaim .air s.cfg.general.pressDraw { s with
      lid := { s.lid with st := .awaitAir, resume := none }
      events := { s.events with flags := s.events.flags &&& ~~~(BitVec.twoPow 15 4) } }) ∧
    (s.lid.st = .awaitAir ∨ s.lid.st = .awaitQuiet → passes → lidRecheck s = s) ∧
    (s.lid.st = .awaitAir ∨ s.lid.st = .awaitQuiet → ¬ passes → lidRecheck s = giveUp .air { s with
      lid := { s.lid with st := .awaitLids, resume := none, deferral := none }
      events := { s.events with flags := s.events.flags ||| BitVec.twoPow 15 4 } }))

/-- The stroke: the seated sensor at 150 ms or later takes the bay to DWELL with the seat time, the dwell's end
releases the press, and the press home sensor gives up the air, records the lid SEATED and leaves the bay DONE. -/
def Obligations.LidStrokeSeatsTheLid : Prop :=
  ∀ s : State, s.online = true →
    (∀ time : Nat, s.lid.st = .extend → s.lid.seat = some time → 150 ≤ time →
      exec .lidSeated s = .next (settle { s with
        lid := { s.lid with st := .dwell, seat := none, seatTime := time, dwell := some 0 } })) ∧
    (s.lid.st = .dwell → exec .dwellExpiry s = .next (settle { s with
      lid := { s.lid with st := .retract, valve := false, seat := none, dwell := none, home := some 0 } })) ∧
    (∀ t : TinRecord, s.lid.st = .retract → s.lid.tin = some t → t.lost = false →
      exec .pressHomeSensor s = .next (settle (giveUp .air { s with
        inputs := { s.inputs with pressHome := true }
        lid := { s.lid with
          st := .done
          home := none
          tin := some { t with lid := some { fault := none, seatTime := s.lid.seatTime } } } }))) ∧
    (s.lid.st ≠ .extend → exec .lidSeated s = .next (settle s) ∧ exec .seatLimit s = .next (settle s)) ∧
    (s.lid.st ≠ .dwell → exec .dwellExpiry s = .next (settle s)) ∧
    (s.lid.st ≠ .retract → s.lid.homeCheck = false → s.lid.home = none →
      exec .pressHomeSensor s = .next (settle { s with inputs := { s.inputs with pressHome := true } }))

/-- The stroke's faults: seated too soon LID_MISSING, not seated in 3,000 ms LID_JAM, the guard opened in EXTEND or
DWELL GUARD_BREACH, not home in 3,000 ms PRESS_HOME with the air given up; each records the lid FAILED and is latched.
After another fault a press not home in time is noted, and a STOPPED bay latches nothing (logs 56, 57); a home timer
that has not reached 3,000 ms, or is stopped, does nothing (log 4). A lifted orphan leaves the bay EMPTY, and a removal
is noted while a bay without a tin is held. A lifted tin is lost, noted and marked: in AWAIT_LIDS, AWAIT_AIR,
AWAIT_QUIET or DONE its record waits to join, LIDS_WANTED cleared or the claim given up; in EXTEND or DWELL the press
retracts first; in RETRACT, FAULT and STOPPED the bay goes on as it was, and once the press is home, or not home in
time, the lid result stays as it stands. A lost record joins when there is room, the bay being EMPTY, and else waits in
DONE with COMPLETION_FULL set. -/
def Obligations.LidFaultsFailTheLid : Prop :=
  (∀ s : State, s.online = true →
    let failed (k : FaultKind) (time : Nat) (t : State) : State :=
      t.mapTin .lid fun r => { r with lid := some { fault := some k, seatTime := time } }
    let homeless := giveUp .air { s with lid := { s.lid with home := none } }
    let lifted : Inputs := { s.inputs with presLid := false }
    (∀ time : Nat, s.lid.st = .extend → s.lid.seat = some time → time < 150 →
      exec .lidSeated s = .next (settle (latch .lid .lidMissing (failed .lidMissing time s)))) ∧
    (s.lid.st = .extend → exec .seatLimit s = .next (settle (latch .lid .lidJam (failed .lidJam 3000 { s with
      lid := { s.lid with seat := some 3000 } })))) ∧
    (s.lid.st = .extend ∨ s.lid.st = .dwell →
      exec (.pressGuard true) s = .next (settle (latch .lid .guardBreach
        (failed .guardBreach s.lid.seatSoFar { s with inputs := { s.inputs with guardOpen := true } })))) ∧
    (∀ isOpen : Bool, isOpen = false ∨ (s.lid.st ≠ .extend ∧ s.lid.st ≠ .dwell) →
      exec (.pressGuard isOpen) s = .next (settle { s with inputs := { s.inputs with guardOpen := isOpen } })) ∧
    (∀ (t : TinRecord) (n : Nat), s.lid.st = .retract → s.lid.home = some n → 3000 ≤ n → s.lid.tin = some t →
      (t.lost = false → exec .homeLimit s =
        .next (settle (latch .lid .pressHome (failed .pressHome s.lid.seatSoFar homeless)))) ∧
      (t.lost = true → exec .homeLimit s = .next (settle (latch .lid .pressHome homeless)))) ∧
    (∀ n : Nat, s.lid.st = .fault ∨ s.lid.st = .stopped → s.lid.homeCheck = false → s.lid.home = some n →
      (s.lid.st = .fault → s.mon.faultL.isSome = true → 3000 ≤ n →
        exec .homeLimit s = .next (settle (latch .lid .pressHome homeless))) ∧
      (s.lid.st = .stopped → 3000 ≤ n → exec .homeLimit s = .next (settle homeless)) ∧
      exec .pressHomeSensor s = .next (settle (giveUp .air { s with
        inputs := { s.inputs with pressHome := true }, lid := { s.lid with home := none } }))) ∧
    (s.lid.home = none ∨ (∃ n : Nat, s.lid.home = some n ∧ n < 3000) → exec .homeLimit s = .next (settle s)) ∧
    (s.lid.st = .orphan → exec (.tinPresenceLid false) s = .next (settle { s with
      inputs := lifted, lid := { s.lid with st := .empty } })) ∧
    (s.lid.tin = none → s.lid.st = .fault ∨ s.lid.st = .stopped → exec (.tinPresenceLid false) s =
      .next (settle { s with inputs := lifted, lid := { s.lid with removed := true } })) ∧
    (s.lid.tin = none → s.lid.st ≠ .orphan → s.lid.st ≠ .fault → s.lid.st ≠ .stopped →
      exec (.tinPresenceLid false) s = .next (settle { s with inputs := lifted })) ∧
    (∀ t : TinRecord, s.lid.tin = some t → s.lid.st ≠ .orphan →
      let lost := { s with
        inputs := lifted, lid := { s.lid with tin := some { t.note .tinLost with lost := true } } }
      let off (u : State) : Prop := exec (.tinPresenceLid false) s = .next (settle u)
      (t.lost = true → off { s with inputs := lifted }) ∧
      (t.lost = false →
        (s.lid.st = .awaitLids → off (enterLidLost { lost with
          events := { s.events with flags := s.events.flags &&& ~~~(BitVec.twoPow 15 4) } })) ∧
        (s.lid.st = .awaitAir ∨ s.lid.st = .awaitQuiet → off (enterLidLost (giveUp .air lost))) ∧
        (s.lid.st = .extend ∨ s.lid.st = .dwell → off { lost with lid := { lost.lid with
          st := .retract, valve := false, seat := none, dwell := none, home := some 0 } }) ∧
        (s.lid.st = .done → off (enterLidLost lost)) ∧
        (s.lid.st = .retract ∨ s.lid.st = .fault ∨ s.lid.st = .stopped → off lost))) ∧
    (∀ t : TinRecord, s.lid.st = .retract → s.lid.tin = some t → t.lost = true →
      exec .pressHomeSensor s = .next (settle (enterLidLost (giveUp .air { s with
        inputs := { s.inputs with pressHome := true }, lid := { s.lid with home := none } })))) ∧
    exec (.tinPresenceLid true) s = .next (settle { s with inputs := { s.inputs with presLid := true } })) ∧
  (∀ (s : State) (t : TinRecord), s.lid.tin = some t → t.lost = true →
    (s.completion.length < 16 → enterLidLost s = { s with
      completion := s.completion ++ [{ t with verdict := some (verdictOf t) }]
      events := { s.events with flags := s.events.flags ||| BitVec.twoPow 15 0 }
      lid := { s.lid with st := .empty, resume := none, tin := none, removed := false } }) ∧
    (16 ≤ s.completion.length → enterLidLost s = { s with
      events := { s.events with flags := s.events.flags ||| BitVec.twoPow 15 1 }
      lid := { s.lid with st := .done, resume := none } }))

/-- The shake: the closed clamp asks for the spin-up draw; a revolution at or below the reach limit takes SPIN_UP to
RUN with the claim lowered to the run draw; every second counts, without a bound (log 81); the run's end brakes the shaker with POWER still
held; at rest POWER is given up and the record, which has its shake result from then on at the latest (log 18), goes to
join. The open clamp leaves the bay EMPTY with its sensor off, and in AWAIT_REMOVAL while a tin stands there, a lost tin
set down again included (log 59); a removal noted since the record joined leaves it EMPTY too, while at a start, with no
record, the sensor alone decides. Outside CLAMP the clamp's closing, and outside UNCLAMP its opening, is recorded
only; so is a measurement outside SPIN_UP and RUN, and a saturated one that finds the shaker neither in RUN nor coasting
to rest; the second and the run's end act in RUN alone. -/
def Obligations.ShakeRunsItsCourse : Prop :=
  ∀ s : State, s.online = true →
    let scale := { s.scale with window := [], blank := some s.cfg.general.blankTime }
    (s.shake.st = .clamp → exec (.clampSensor true) s = .next (settle (askClaim .power s.cfg.general.spinDraw { s with
      inputs := { s.inputs with clampClosed := true }
      shake := { s.shake with st := .awaitPower, clampDrive := .off, clamp := none } }))) ∧
    (∀ period : Nat, s.shake.st = .spinUp → period ≤ shakeTarget s + shakeTarget s / 20 →
      exec (.shakerRevolution period) s = .next (settle (lowerClaim .power s.cfg.general.runDraw { s with
        scale := scale
        shake := { s.shake with st := .run, spin := none, run := some 0, slow := 0, lastSpeed := some period } }))) ∧
    (∀ period : Nat, s.shake.st = .spinUp → shakeTarget s + shakeTarget s / 20 < period →
      exec (.shakerRevolution period) s = .next (settle { s with
        shake := { s.shake with lastSpeed := some period } })) ∧
    (∀ period : Nat, s.shake.st = .run → period ≤ slowLimit (shakeTarget s) →
      exec (.shakerRevolution period) s = .next (settle { s with
        shake := { s.shake with lastSpeed := some period, slow := 0 } })) ∧
    (∀ t : TinRecord, s.shake.st = .run → s.shake.tin = some t → exec .shakeSecond s = .next (settle { s with
      shake := { s.shake with tin := some { t with
        shake := some { t.shaken with seconds := t.shaken.seconds + 1 } } } })) ∧
    (s.shake.st = .run → exec .shakeRunExpiry s = .next (settle { s with
      scale := scale
      shake := { s.shake with st := .spinDown, drive := .braked, spin := none, run := none } })) ∧
    (∀ t : TinRecord, s.shake.st = .spinDown → s.shake.tin = some t → t.lost = false →
      exec .shakerSpeedSaturated s = .next (settle (enterAwaitRoom (giveUp .power { s with
        scale := scale
        shake := { s.shake with
          drive := .off
          turning := false
          lastSpeed := some 2000000
          tin := some { t with shake := some t.shaken } } })))) ∧
    (s.shake.st = .unclamp → exec (.clampSensor false) s = .next (settle { s with
      inputs := { s.inputs with clampClosed := false }
      shake := { s.shake with
        st := if s.inputs.presShake = false ∨ (s.shake.joined = true ∧ s.shake.removed = true) then .empty else .awaitRemoval
        clampDrive := .off, clamp := none, resume := none, joined := false, removed := false } })) ∧
    (s.shake.st = .awaitRemoval → exec (.tinPresenceShake false) s = .next (settle { s with
      inputs := { s.inputs with presShake := false }, shake := { s.shake with st := .empty } })) ∧
    (∀ closed : Bool, s.shake.st ≠ (if closed then .clamp else .unclamp) →
      exec (.clampSensor closed) s = .next (settle { s with inputs := { s.inputs with clampClosed := closed } })) ∧
    (∀ period : Nat, s.shake.st ≠ .spinUp → s.shake.st ≠ .run →
      exec (.shakerRevolution period) s = .next (settle { s with shake := { s.shake with lastSpeed := some period } })) ∧
    (s.shake.st ≠ .spinDown → s.shake.st ≠ .run → s.shake.turning = false → exec .shakerSpeedSaturated s =
      .next (settle { s with shake := { s.shake with lastSpeed := some 2000000 } })) ∧
    (s.shake.st ≠ .run → exec .shakeSecond s = .next (settle s) ∧ exec .shakeRunExpiry s = .next (settle s))

/-- The shake's faults: the clamp not confirmed in 4 s is CLAMP with its drive off, speed not reached in 6 s and the
third slow revolution in a row in RUN are SHAKE_SPEED, each latched; one slow revolution is counted, and a saturated
measurement in RUN is a slow one. A lifted tin whose record has not joined is lost, noted and marked: from CLAMP,
AWAIT_POWER and AWAIT_QUIET its record goes to join, the clamp's drive off (log 74) or the claim given up; in SPIN_UP
and RUN the shaker is braked to rest first; elsewhere the bay goes on, and at rest the shake result stays as it stands.
In UNCLAMP, and in a held bay without a tin, the removal is noted; a lifted orphan leaves the bay EMPTY, or UNCLAMP when
the clamp is closed. A record joins when there is room, and the clamp is opened, or found open; else it waits in AWAIT_ROOM with COMPLETION_FULL set. -/
def Obligations.ShakeFaultsAreLatched : Prop :=
  (∀ s : State, s.online = true →
    let scale := { s.scale with window := [], blank := some s.cfg.general.blankTime }
    let lifted : Inputs := { s.inputs with presShake := false }
    let off (u : State) : Prop := exec (.tinPresenceShake false) s = .next (settle u)
    (s.shake.clamp.isSome = true → exec .clampTimeout s = .next (settle (latch .shake .clamp { s with
      shake := { s.shake with clampDrive := .off, clamp := none } }))) ∧
    (s.shake.clamp = none → exec .clampTimeout s = .next (settle s)) ∧
    (s.shake.st = .spinUp → exec .spinUpTimeout s = .next (settle (latch .shake .shakeSpeed s))) ∧
    (s.shake.st ≠ .spinUp → exec .spinUpTimeout s = .next (settle s)) ∧
    (∀ period : Nat, s.shake.st = .run → slowLimit (shakeTarget s) < period → s.shake.slow < 2 →
      exec (.shakerRevolution period) s = .next (settle { s with
        shake := { s.shake with lastSpeed := some period, slow := s.shake.slow + 1 } })) ∧
    (∀ period : Nat, s.shake.st = .run → slowLimit (shakeTarget s) < period → 2 ≤ s.shake.slow →
      exec (.shakerRevolution period) s = .next (settle (latch .shake .shakeSpeed { s with
        shake := { s.shake with lastSpeed := some period, slow := 3 } }))) ∧
    (s.shake.st = .run → slowLimit (shakeTarget s) < 2000000 →
      (s.shake.slow < 2 → exec .shakerSpeedSaturated s = .next (settle { s with
        shake := { s.shake with lastSpeed := some 2000000, slow := s.shake.slow + 1 } })) ∧
      (2 ≤ s.shake.slow → exec .shakerSpeedSaturated s = .next (settle (latch .shake .shakeSpeed { s with
        shake := { s.shake with lastSpeed := some 2000000, slow := 3 } })))) ∧
    (∀ t : TinRecord, s.shake.tin = some t → s.shake.st ≠ .orphan → s.shake.st ≠ .awaitRemoval → s.shake.st ≠ .unclamp →
      let lost := { s with
        inputs := lifted, shake := { s.shake with tin := some { t.note .tinLost with lost := true } } }
      (t.lost = true → off { s with inputs := lifted }) ∧
      (t.lost = false →
        (s.shake.st = .clamp →
          off (enterAwaitRoom { lost with shake := { lost.shake with clampDrive := .off, clamp := none } })) ∧
        (s.shake.st = .awaitPower ∨ s.shake.st = .awaitQuiet → off (enterAwaitRoom (giveUp .power lost))) ∧
        (s.shake.st = .spinUp ∨ s.shake.st = .run → off { lost with
          scale := scale
          shake := { lost.shake with st := .spinDown, drive := .braked, spin := none, run := none } }) ∧
        (s.shake.st = .inbound ∨ s.shake.st = .spinDown ∨ s.shake.st = .awaitRoom ∨ s.shake.st = .fault ∨
          s.shake.st = .stopped → off lost))) ∧
    (∀ t : TinRecord, s.shake.st = .spinDown → s.shake.tin = some t → t.lost = true →
      exec .shakerSpeedSaturated s = .next (settle (enterAwaitRoom (giveUp .power { s with
        scale := scale, shake := { s.shake with drive := .off, turning := false, lastSpeed := some 2000000 } })))) ∧
    (s.shake.st = .unclamp ∨ (s.shake.tin = none ∧ (s.shake.st = .fault ∨ s.shake.st = .stopped)) →
      off { s with inputs := lifted, shake := { s.shake with removed := true } }) ∧
    (s.shake.st = .orphan →
      (s.inputs.clampClosed = false → off { s with
        inputs := lifted, shake := { s.shake with st := .empty, resume := none, removed := false } }) ∧
      (s.inputs.clampClosed = true → off { s with inputs := lifted, shake := { s.shake with
        st := .unclamp, resume := none, clampDrive := .opening, clamp := some 0 } })) ∧
    exec (.tinPresenceShake true) s = .next (settle { s with inputs := { s.inputs with presShake := true } })) ∧
  (∀ (s : State) (t : TinRecord), s.shake.tin = some t →
    let joined (shake : ShakeBay) : State := { s with
      completion := s.completion ++ [{ t with verdict := some (verdictOf t) }]
      events := { s.events with flags := s.events.flags ||| BitVec.twoPow 15 0 }
      shake := { shake with resume := none, tin := none, removed := false } }
    (s.completion.length < 16 → s.inputs.clampClosed = true → enterAwaitRoom s =
      joined { s.shake with st := .unclamp, clampDrive := .opening, clamp := some 0, joined := true }) ∧
    (s.completion.length < 16 → s.inputs.clampClosed = false → enterAwaitRoom s = joined { s.shake with
      st := if s.inputs.presShake then .awaitRemoval else .empty
      clampDrive := .off, clamp := none, joined := false }) ∧
    (16 ≤ s.completion.length → enterAwaitRoom s = { s with
      events := { s.events with flags := s.events.flags ||| BitVec.twoPow 15 1 }
      shake := { s.shake with st := .awaitRoom, resume := none } }))

/-! ## The peer line, the roster and the claims -/

/-- The controller starts the first queued frame that the line state allows: every kind in ACTIVE, all but a CLAIM in
LISTENING, a BEACON in DOWN, none in SILENT and BARRED. Its bytes are the arbitration byte, the kind, the payload and the
CRC. A lost arbitration costs 12 bit times and no attempt, and the frame keeps its place; a transmit error costs the
station's backoff and one attempt, and the eighth drops the frame, tells its owner and counts a drop. A CLAIM that meets
an error in DOWN is returned unsent. A frame superseded or withdrawn meanwhile ends with such an attempt, without report
or count, but for a superseded BEACON, which counts a drop, by a lost arbitration too (log 27). -/
def Obligations.FramesStartAndFail : Prop :=
  (∀ s : State, s.online = true →
    (∀ f : Frame, s.line.attempt = none → s.line.next = some f → exec .frameStart s = .next (settle { s with
      line := { s.line with
        attempt := some { frame := f, fate := .queued, bytes := frameBytes s f }, awaitIdle := false } })) ∧
    (s.line.attempt.isSome = true ∨ s.line.next = none → exec .frameStart s = .next (settle s)) ∧
    (∀ a : Attempt, s.line.attempt = some a → a.fate = .queued →
      exec .arbitrationLost s = .next (settle { s with line := { s.line with attempt := none, startReq := 12 } })) ∧
    (∀ a : Attempt, s.line.attempt = some a → a.fate = .queued → s.line.st = .down → a.frame.kind = .claim →
      exec .transmitError s = .next (settle (claimLost a.frame.pool { s with line := { s.line with
        attempt := none
        startReq := (s.cfg.ident.number.val + 1) * 16
        queue := s.line.queue.filter fun g => !a.frame.same g } }))) ∧
    (∀ a : Attempt, s.line.attempt = some a → a.fate = .queued → ¬ (s.line.st = .down ∧ a.frame.kind = .claim) →
      (a.frame.attempts < 7 → exec .transmitError s = .next (settle { s with line := { s.line with
        attempt := none
        startReq := (s.cfg.ident.number.val + 1) * 16
        queue := s.line.queue.map fun g => if a.frame.same g then { g with attempts := g.attempts + 1 } else g } })) ∧
      (7 ≤ a.frame.attempts → exec .transmitError s = .next (settle (countDrop (reportUnsent a.frame { s with
        line := { s.line with
          attempt := none
          startReq := (s.cfg.ident.number.val + 1) * 16
          queue := s.line.queue.filter fun g => !a.frame.same g } }))))) ∧
    (∀ a : Attempt, s.line.attempt = some a → a.fate ≠ .queued →
      let ended (idle : Nat) : State := { s with line := { s.line with attempt := none, startReq := idle } }
      let backoff := (s.cfg.ident.number.val + 1) * 16
      (a.fate = .superseded → a.frame.kind = .beacon →
        exec .arbitrationLost s = .next (settle (countDrop (ended 12))) ∧
        exec .transmitError s = .next (settle (countDrop (ended backoff)))) ∧
      (a.fate = .withdrawn ∨ a.frame.kind ≠ .beacon →
        exec .arbitrationLost s = .next (settle (ended 12)) ∧ exec .transmitError s = .next (settle (ended backoff)))) ∧
    (s.line.attempt = none →
      exec .arbitrationLost s = .next (settle s) ∧ exec .transmitError s = .next (settle s) ∧
      exec .frameSent s = .next (settle s))) ∧
  (∀ c : LineCtl,
    let allowed (k : NoticeKind) : Prop :=
      c.st = .active ∨ (c.st = .listening ∧ k ≠ .claim) ∨ (c.st = .down ∧ k = .beacon)
    (∀ f : Frame, c.next = some f ↔ allowed f.kind ∧
      ∃ l r : List Frame, c.queue = l ++ f :: r ∧ ∀ g ∈ l, ¬ allowed g.kind) ∧
    (c.next = none ↔ ∀ g ∈ c.queue, ¬ allowed g.kind)) ∧
  (∀ (s : State) (f : Frame),
    let byte (n : Nat) : Byte := BitVec.ofNat 8 n
    let frame (urgency kind : Nat) (payload : List Byte) : List Byte :=
      let body := [byte (64 * urgency + 4 * s.cfg.ident.number.val + 3), byte kind] ++ payload
      body ++ crcBytes body
    let pool : Byte := if f.pool = .power then 0 else 1
    let wait (g : Agent) : List Byte := if g.standing then [byte (g.asked.getD 0), byte g.count] else [0, 0]
    let bays := (if s.disp.st ≠ .empty then 1 else 0) + (if s.lid.st ≠ .empty then 2 else 0) +
      (if s.shake.st ≠ .empty then 4 else 0)
    (f.kind = .claim → frameBytes s f = frame 0 1 [pool, byte f.amount]) ∧
    (f.kind = .adjust → frameBytes s f = frame 0 2 [pool, byte f.amount]) ∧
    (f.kind = .release → frameBytes s f = frame 0 3 [pool]) ∧
    (f.kind = .wait → frameBytes s f = frame 1 4 [pool, byte f.amount, byte f.count]) ∧
    (f.kind = .beacon → frameBytes s f = frame 2 5 ([byte (modeCode s.mon.mode),
      byte ((s.cfg.ident.beaconInterval - 100) / 50), byte s.power.announced, byte s.air.announced] ++ wait s.power ++
      wait s.air ++ [byte s.jobs.places, byte bays])))

/-- A frame sent leaves the queue and ends the run of drops, and its owner is told: a RELEASE or ADJUST settles the
announced holding, and this station's own CLAIM is judged against its room, becoming HELD or WAITING. The third
consecutive drop takes a LISTENING or ACTIVE line DOWN with LINE_CHANGE; fewer leave it. On the way DOWN the queued
CLAIMs that are not in progress are returned, POWER's before AIR's (log 62), and an ASKING owner so told waits. A frame
sent in DOWN takes the line back: to LISTENING with the count of expiries from 0, or to ACTIVE, where the agents try. A
superseded or withdrawn frame that is sent stands as sent: its successor keeps its place in the queue, and a withdrawn
CLAIM within the room is announced until its RELEASE (log 27). The room for this station's own claim is the pool's budget
less the held amounts of its PRESENT peers, and 0 when these reach or pass it. -/
def Obligations.SentAndDroppedFrames : Prop :=
  (∀ (s : State) (a : Attempt), s.online = true → s.line.attempt = some a → a.fate = .queued → s.line.st ≠ .down →
    let p := a.frame.pool
    let t := { s with line := { s.line with
      attempt := none, startReq := 12, drops := 0, queue := s.line.queue.filter fun g => !a.frame.same g } }
    (a.frame.kind = .wait ∨ a.frame.kind = .beacon → exec .frameSent s = .next (settle t)) ∧
    (a.frame.kind = .release → exec .frameSent s = .next (settle (t.mapAgent p fun g => { g with announced := 0 }))) ∧
    (a.frame.kind = .adjust → exec .frameSent s =
      .next (settle (t.mapAgent p fun g => { g with announced := min g.announced a.frame.amount }))) ∧
    (a.frame.kind = .claim → (s.agent p).st = .asking →
      let asked := (s.agent p).asked.getD 0
      (asked ≤ ownRoom s p → exec .frameSent s = .next (settle (grantOwn p asked t))) ∧
      (ownRoom s p < asked → exec .frameSent s = .next (settle (beginWait p t)))) ∧
    (a.frame.kind = .claim → (s.agent p).st ≠ .asking → exec .frameSent s = .next (settle t))) ∧
  ((∀ s : State, s.line.drops < 2 → countDrop s = { s with line := { s.line with drops := s.line.drops + 1 } }) ∧
  (∀ s : State, 2 ≤ s.line.drops → s.line.st ≠ .listening → s.line.st ≠ .active →
    countDrop s = { s with line := { s.line with drops := 3 } }) ∧
  (∀ s : State, 2 ≤ s.line.drops → s.line.st = .listening ∨ s.line.st = .active →
    countDrop s = returnClaim .air (returnClaim .power { s with
      line := { s.line with drops := 3, ret := s.line.st, st := .down }
      events := { s.events with flags := s.events.flags ||| BitVec.twoPow 15 11 } }) ∧
    (countDrop s).line.st = .down ∧ (countDrop s).line.ret = s.line.st ∧ (countDrop s).flag .lineChange = true ∧
    ∀ f ∈ (countDrop s).line.queue, f.kind = .claim → s.line.sending f = true) ∧
  (∀ (s : State) (p : Pool),
    let queued : Prop := ∃ f ∈ s.line.queue, f.kind = .claim ∧ f.pool = p
    let driven : Prop := ∃ a : Attempt, s.line.attempt = some a ∧ a.fate = .queued ∧ a.frame.kind = .claim ∧ a.frame.pool = p
    let rest := { s with line := { s.line with
      queue := s.line.queue.filter fun g => !(g.kind = .claim && g.pool = p) } }
    (queued → ¬ driven → (s.agent p).st = .asking → returnClaim p s = beginWait p rest) ∧
    (queued → ¬ driven → (s.agent p).st ≠ .asking → returnClaim p s = rest) ∧
    (¬ queued ∨ driven → returnClaim p s = s)) ∧
  (∀ (s : State) (a : Attempt), s.online = true → s.line.attempt = some a → a.fate ≠ .queued →
    let t := { s with line := { s.line with attempt := none, startReq := 12, drops := 0 } }
    exec .frameSent s = .next (settle (returnFromDown (reportSent a t)))) ∧
  (∀ (s : State) (a : Attempt),
    let p := a.frame.pool
    let announce (n : Nat) : State := s.mapAgent p fun g => { g with announced := n }
    (a.frame.kind = .claim → a.fate = .withdrawn →
      reportSent a s = if a.frame.amount ≤ ownRoom s p then announce a.frame.amount else s) ∧
    (a.frame.kind = .claim → a.fate ≠ .withdrawn → (s.agent p).st = .asking → let asked := (s.agent p).asked.getD 0
      reportSent a s = if asked ≤ ownRoom s p then grantOwn p asked s else beginWait p s) ∧
    (a.frame.kind = .claim → a.fate ≠ .withdrawn → (s.agent p).st ≠ .asking → reportSent a s = s) ∧
    (a.frame.kind = .adjust → reportSent a s = announce (min (s.agent p).announced a.frame.amount)) ∧
    (a.frame.kind = .release → reportSent a s = announce 0) ∧
    (a.frame.kind = .wait ∨ a.frame.kind = .beacon → reportSent a s = s)) ∧
  (∀ (s : State) (a : Attempt), s.online = true → s.line.attempt = some a → a.fate = .queued → s.line.st = .down →
    let t := { s with line := { s.line with
      attempt := none, startReq := 12, drops := 0, queue := s.line.queue.filter fun g => !a.frame.same g } }
    exec .frameSent s = .next (settle (returnFromDown (reportSent a t))) ∧
    (a.frame.kind = .beacon → exec .frameSent s = .next (settle (returnFromDown t)))) ∧
  (∀ s : State, s.line.st = .down → s.line.ret = .listening → returnFromDown s = { s with
    line := { s.line with st := .listening, listens := 0 }
    events := { s.events with flags := s.events.flags ||| BitVec.twoPow 15 11 } }) ∧
  (∀ s : State, s.line.st = .down → s.line.ret ≠ .listening → returnFromDown s = tryBoth { s with
    line := { s.line with st := .active }
    events := { s.events with flags := s.events.flags ||| BitVec.twoPow 15 11 } }) ∧
  (∀ s : State, s.line.st ≠ .down → returnFromDown s = s)) ∧
  (∀ s : State,
    let peers (held : RosterEntry → Nat) : Nat := ((List.finRange 16).map fun i : Station =>
      if (s.roster[i]).present = true ∧ i ≠ s.cfg.ident.number then held s.roster[i] else 0).sum
    let leaves (room budget holdings : Nat) : Prop :=
      (budget ≤ holdings → room = 0) ∧ (holdings < budget → room + holdings = budget)
    leaves (ownRoom s .power) s.cfg.ident.powerBudget (peers RosterEntry.heldPower) ∧
    leaves (ownRoom s .air) s.cfg.ident.airBudget (peers RosterEntry.heldAir))

/-- A received CLAIM of a peer is judged against the room of its pool for that peer, in every line state that receives:
granted, its amount is the peer's held amount and its wait is absent; above the room, the claim is void, the held amount
becomes 0 and the wait is kept. A received ADJUST at or below the peer's held amount lowers it; above it the ADJUST is
ignored and LINE_CHANGE is set. A received RELEASE leaves the peer no held amount and no wait in the pool; a received
WAIT leaves it no held amount and the WAIT's amount and count. The agents are told of every change, and a waiting agent
tries. The room for a peer's claim is the pool's budget less the held amounts of the PRESENT peers other than the claimant
and this station's own announced holding, and 0 when these reach or pass it. -/
def Obligations.ReceivedNoticesChangeTheRoster : Prop :=
  ∀ (s : State) (src : Station) (pool : Pool), s.online = true → s.line.st ≠ .silent → src ≠ s.cfg.ident.number →
    let heard := { s.roster[src] with present := true, age := 0 }
    let t (e : RosterEntry) : State :=
      { s with line := { s.line with awaitIdle := false }, roster := s.roster.set src e }
    (∀ amount : Byte, amount ≠ 0 →
      (amount.toNat ≤ peerRoom s pool src → exec (.claimReceived src pool amount) s =
        .next (settle (tryBoth (t ((heard.setHeld pool amount.toNat).setWait pool none))))) ∧
      (peerRoom s pool src < amount.toNat → exec (.claimReceived src pool amount) s =
        .next (settle (tryBoth (t (heard.setHeld pool 0))))) ∧
      (amount.toNat ≤ heard.held pool → exec (.adjustReceived src pool amount) s =
        .next (settle (tryBoth (t (heard.setHeld pool amount.toNat))))) ∧
      (heard.held pool < amount.toNat → exec (.adjustReceived src pool amount) s =
        .next (settle (setFlag .lineChange (t heard)))) ∧
      (∀ count : Byte, exec (.waitReceived src pool amount count) s =
        .next (settle (tryBoth (t ((heard.setHeld pool 0).setWait pool
          (some { amount := amount.toNat, count := count.toNat }))))))) ∧
    exec (.releaseReceived src pool) s = .next (settle (tryBoth (t ((heard.setHeld pool 0).setWait pool none)))) ∧
    (let others (held : RosterEntry → Nat) : Nat := ((List.finRange 16).map fun i : Station =>
      if (s.roster[i]).present = true ∧ i ≠ s.cfg.ident.number ∧ i ≠ src then held s.roster[i] else 0).sum
    let leaves (room budget holdings : Nat) : Prop :=
      (budget ≤ holdings → room = 0) ∧ (holdings < budget → room + holdings = budget)
    leaves (peerRoom s .power src) s.cfg.ident.powerBudget (others RosterEntry.heldPower + s.power.announced) ∧
    leaves (peerRoom s .air src) s.cfg.ident.airBudget (others RosterEntry.heldAir + s.air.announced))

/-- A received BEACON of a peer sets its entry: held amounts, waits, summary and mismatch mark, LINE_CHANGE being set
when the mark goes from clear to set. -/
def Obligations.ReceivedBeaconsSetTheEntry : Prop :=
  ∀ (s : State) (src : Station) (b : Beacon), s.online = true → s.line.st ≠ .silent → src ≠ s.cfg.ident.number →
    b.inRange = true →
    let differs := decide (b.interval.toNat ≠ intervalCode s.cfg.ident)
    let wait (amount count : Byte) : Option PoolWait :=
      if amount = 0 then none else some { amount := amount.toNat, count := count.toNat }
    let t := { s with
      line := { s.line with awaitIdle := false }
      roster := s.roster.set src
        { present := true
          age := 0
          heldPower := b.powerHeld.toNat
          heldAir := b.airHeld.toNat
          waitPower := wait b.powerWait b.powerCount
          waitAir := wait b.airWait b.airCount
          summary := some
            { mode := b.mode.toNat, interval := b.interval.toNat, jobs := b.jobs.toNat, bays := b.bays.toNat }
          mismatch := differs } }
    exec (.beaconReceived src b) s =
      .next (settle (tryBoth (if differs = true ∧ (s.roster[src]).mismatch = false then setFlag .lineChange t else t)))

/-- A SILENT line receives nothing; a frame that is discarded or out of range makes the controller wait for the line
to go idle; a valid notice under this station's own number bars the line: BARRED, its queue empty, with LINE_CHANGE,
the station fault BARRED and BAY_FAULT. Every queued pool frame is then returned to its agent as unsent: an ASKING agent
whose CLAIM was queued waits, a RELEASE ends the announced holding, an ADJUST lowers it, and an agent without a queued
frame stays as it is. In BARRED such a notice is skipped. -/
def Obligations.NoticesThatDoNotCount : Prop :=
  ∀ (s : State) (src : Station) (pool : Pool) (amount count : Byte) (b : Beacon) (cause : DiscardCause),
    s.online = true → amount ≠ 0 → b.inRange = true →
    let notices : List Instr := [.claimReceived src pool amount, .adjustReceived src pool amount,
      .releaseReceived src pool, .waitReceived src pool amount count, .beaconReceived src b]
    (s.line.st = .silent → ∀ c ∈ .frameDiscarded cause :: notices, exec c s = .next (settle s)) ∧
    (s.line.st ≠ .silent → exec (.frameDiscarded cause) s =
        .next (settle { s with line := { s.line with awaitIdle := true } }) ∧
      exec (.claimReceived src pool 0) s = .next (settle { s with line := { s.line with awaitIdle := true } })) ∧
    (s.line.st ≠ .silent → s.line.st ≠ .barred → src = s.cfg.ident.number → ∀ c ∈ notices, ∃ t, exec c s = .next t ∧
      t.line.st = .barred ∧ t.line.queue = [] ∧ t.line.attempt = none ∧ t.line.beacon = none ∧ t.mon.barred = true ∧
      t.flag .lineChange = true ∧ t.flag .bayFault = true ∧ t.mon.mode = s.mon.mode) ∧
    (src = s.cfg.ident.number →
      let heard := { s with line := { s.line with awaitIdle := false } }
      (s.line.st = .barred → ∀ c ∈ notices, exec c s = .next (settle heard)) ∧
      (s.line.st ≠ .silent → s.line.st ≠ .barred → ∀ c ∈ notices, exec c s = .next (settle (barLine heard)) ∧
        barLine heard = setFlag .bayFault ((s.line.queue.foldl (fun t f => reportUnsent f t) (setFlag .lineChange
          { heard with line := { heard.line with st := .barred, queue := [], attempt := none, beacon := none } })).mapMon
            fun m => { m with barred := true }))) ∧
    (∀ p : Pool,
      let g := s.agent p
      let h := (barLine s).agent p
      let queued (k : NoticeKind) : Prop := ∃ f ∈ s.line.queue, f.kind = k ∧ f.pool = p
      (queued .claim → g.st = .asking → h.st = .waiting ∧ h.standing = true ∧ h.asked = g.asked ∧
        (g.standing = false → h.count = 0 ∧ h.timer = some 0)) ∧
      (g.st ≠ .asking ∨ ¬ queued .claim →
        h.st = g.st ∧ h.standing = g.standing ∧ h.count = g.count ∧ h.timer = g.timer ∧ h.asked = g.asked) ∧
      (queued .release → h.announced = 0) ∧
      (∀ f ∈ s.line.queue, f.kind = .adjust → f.pool = p → h.announced ≤ f.amount) ∧
      (¬ queued .release → ¬ queued .adjust → h.announced = g.announced))

/-- An asked IDLE agent: in SOLO it is HELD at once within its budget, and waits above it, which is the model's reading
of a case that no load lets arise (log 41); in PEER it places a CLAIM when courtesy allows and otherwise begins a wait.
An agent that is granted its amount is HELD with it announced and its wait over, which is the leave of a bay in
AWAIT_AIR or AWAIT_POWER to go on to AWAIT_QUIET. A wait that begins has its count and timer from 0, one that stands
goes on, and a WAIT is placed for it. A waiting agent that may claim withdraws its WAIT from the queue, places a CLAIM
for the amount it asked and is ASKING; one that may not stays as it is. Courtesy needs an ACTIVE line, room (the budget
less what the PRESENT peers hold, never below 0), and no senior waiter among the PRESENT peers; of two agents told of one event POWER tries first (log 62). An order to lower
places an ADJUST, or lowers the announced holding where the line takes no frames; one to release takes the agent to IDLE
with nothing asked and no wait, its CLAIM, WAIT and ADJUST out of the queue, and places a RELEASE, or ends the announced
holding. A placed frame takes the place of one of its kind and pool, or the last place of its urgency. A frame whose
attempt is in progress leaves the queue at once when it is replaced or withdrawn (log 61). An owner told that its frame
was not sent: an ASKING agent waits, and a RELEASE or ADJUST settles the announced holding. -/
def Obligations.AgentsAskAndRelease : Prop :=
  ((∀ (s : State) (p : Pool) (a : Nat), (s.agent p).st = .idle →
    let asked := s.mapAgent p fun g => { g with asked := some a }
    (s.cfg.ident.lineMode = .solo → a ≤ s.budget p → askClaim p a s = grantOwn p a s) ∧
    (s.cfg.ident.lineMode = .solo → s.budget p < a →
      askClaim p a s = s.mapAgent p fun g => { g with st := .waiting, asked := some a }) ∧
    (s.cfg.ident.lineMode = .peer → courtesy s p a = true → askClaim p a s = placeFrame (newFrame .claim p a 0)
      (s.mapAgent p fun g => { g with st := .asking, asked := some a })) ∧
    (s.cfg.ident.lineMode = .peer → courtesy s p a = false → askClaim p a s = beginWait p asked)) ∧
  (∀ (s : State) (p : Pool) (a : Nat), (s.agent p).st ≠ .idle → askClaim p a s = s) ∧
  (∀ (s : State) (a : Nat),
    let held : Agent := { st := .held, asked := some a, announced := a, standing := false, count := 0, timer := none }
    grantOwn .air a s = { s with
      air := held, lid := if s.lid.st = .awaitAir then { s.lid with st := .awaitQuiet } else s.lid } ∧
    grantOwn .power a s = { s with
      power := held, shake := if s.shake.st = .awaitPower then { s.shake with st := .awaitQuiet } else s.shake }) ∧
  (∀ (s : State) (p : Pool) (a : Nat), (s.agent p).asked = some a →
    ((s.agent p).standing = false → beginWait p s = placeFrame (newFrame .wait p a 0)
      (s.mapAgent p fun g => { g with st := .waiting, standing := true, count := 0, timer := some 0 })) ∧
    ((s.agent p).standing = true → beginWait p s = placeFrame (newFrame .wait p a (s.agent p).count)
      (s.mapAgent p fun g => { g with st := .waiting }))) ∧
  (∀ (s : State) (p : Pool) (a : Nat), (s.agent p).st = .waiting → (s.agent p).asked = some a →
    (courtesy s p a = true → (∀ x : Attempt, s.line.attempt = some x → x.frame.pool = p → x.fate ≠ .queued) →
      let claim : Frame := { kind := .claim, pool := p, amount := a, count := 0, attempts := 0 }
      let queue := s.line.queue.filter fun g => !(g.kind = .wait && g.pool = p)
      let t := { s with line := { s.line with queue := putFrame claim queue } }
      tryClaim p s = t.mapAgent p fun g => { g with st := .asking }) ∧
    (courtesy s p a = true → ((tryClaim p s).agent p).st = .asking ∧
      (∀ f ∈ (tryClaim p s).line.queue, ¬ (f.kind = .wait ∧ f.pool = p)) ∧
      (∃ f ∈ (tryClaim p s).line.queue, f.kind = .claim ∧ f.pool = p ∧ f.amount = a)) ∧
    (courtesy s p a = false → tryClaim p s = s)) ∧
  (∀ (s : State) (p : Pool), (s.agent p).st ≠ .waiting → tryClaim p s = s) ∧
  (∀ s : State, tryBoth s = tryClaim .air (tryClaim .power s)) ∧
  (∀ (s : State) (p : Pool) (a : Nat), courtesy s p a = true ↔ s.line.st = .active ∧ a ≤ ownRoom s p ∧
    ∀ i : Station, i ≠ s.cfg.ident.number → (s.roster[i]).present = true → ∀ w : PoolWait,
      (s.roster[i]).wait p = some w →
        w.count ≤ (s.agent p).count ∧ (w.count = (s.agent p).count → s.cfg.ident.number ≤ i)) ∧
  (∀ s : State,
    let peers (held : RosterEntry → Nat) : Nat := ((List.finRange 16).map fun i : Station =>
      if (s.roster[i]).present = true ∧ i ≠ s.cfg.ident.number then held s.roster[i] else 0).sum
    let leaves (room budget holdings : Nat) : Prop :=
      (budget ≤ holdings → room = 0) ∧ (holdings < budget → room + holdings = budget)
    leaves (ownRoom s .power) s.cfg.ident.powerBudget (peers RosterEntry.heldPower) ∧
    leaves (ownRoom s .air) s.cfg.ident.airBudget (peers RosterEntry.heldAir))) ∧
  (∀ (s : State) (p : Pool) (b : Nat),
    ((s.agent p).st = .held → b < (s.agent p).announced →
      (s.lineTakes = true → lowerClaim p b s = placeFrame (newFrame .adjust p b 0) s) ∧
      (s.lineTakes = false → lowerClaim p b s = s.mapAgent p fun g => { g with announced := b })) ∧
    ((s.agent p).st ≠ .held ∨ (s.agent p).announced ≤ b → lowerClaim p b s = s)) ∧
  (∀ (s : State) (p : Pool),
    let t := releaseOrder p s
    (t.agent p).st = .idle ∧ (t.agent p).asked = none ∧ (t.agent p).standing = false ∧ (t.agent p).count = 0 ∧
    (t.agent p).timer = none ∧
    (s.lineTakes = true → (t.agent p).announced = (s.agent p).announced ∧
      (∃ f ∈ t.line.queue, f.kind = .release ∧ f.pool = p) ∧
      ∀ f ∈ t.line.queue, f.pool = p → f.kind = .release ∨ f.kind = .beacon) ∧
    (s.lineTakes = false → (t.agent p).announced = 0) ∧
    ((s.agent p).st = .idle → giveUp p s = s) ∧ ((s.agent p).st ≠ .idle → giveUp p s = t)) ∧
  (∀ (s : State) (f : Frame),
    (s.lineTakes = false → placeFrame f s = s) ∧
    (s.lineTakes = true → placeFrame f s = { s with line := { s.line with
      queue := putFrame f s.line.queue
      attempt := s.line.attempt.map fun a =>
        if a.fate = .queued ∧ f.same a.frame = true then { a with fate := .superseded } else a } }) ∧
    (∀ q : List Frame, q.any f.same = true → putFrame f q = q.map fun g => if f.same g = true then f else g) ∧
    (∀ l r : List Frame, (∀ g ∈ l ++ r, f.same g = false) → (∀ g ∈ l, g.kind.urgency ≤ f.kind.urgency) →
      (∀ g ∈ r, f.kind.urgency < g.kind.urgency) → putFrame f (l ++ r) = l ++ f :: r)) ∧
  (∀ (s : State) (f : Frame),
    (f.kind = .claim → reportUnsent f s = claimLost f.pool s) ∧
    ((s.agent f.pool).st = .asking → claimLost f.pool s = beginWait f.pool s) ∧
    ((s.agent f.pool).st ≠ .asking → claimLost f.pool s = s) ∧
    (f.kind = .adjust →
      reportUnsent f s = s.mapAgent f.pool fun g => { g with announced := min g.announced f.amount }) ∧
    (f.kind = .release → reportUnsent f s = s.mapAgent f.pool fun g => { g with announced := 0 }) ∧
    (f.kind = .wait ∨ f.kind = .beacon → reportUnsent f s = s))

/-- BEACON_TIMER_EXPIRY: an earlier BEACON still queued is superseded, dropped at once when it is not in progress (log
60) and else left to its attempt's end; a new one is placed and the next interval starts; a standing wait's count rises,
that of a wait begun by the drop too (log 60), saturating at 255, and the rise makes a try (log 63), POWER before AIR (log 62); and the fourth expiry in LISTENING
makes the line ACTIVE with LINE_CHANGE, the agents trying. ROSTER_AGE_OUT makes a PRESENT entry whose age has reached
four beacon intervals ABSENT with nothing held or waited for; WAIT_TIMER_EXPIRY sets BUDGET_WAIT and stops the timer.
Without its timer, or before its age, none of them does anything. -/
def Obligations.LineTimersExpire : Prop :=
  (∀ s : State, s.online = true →
    (s.line.beacon.isSome = true → exec .beaconTimerExpiry s =
      .next (settle (countListening (raiseCount .air (raiseCount .power (placeBeacon (supersedeBeacon s))))))) ∧
    (s.line.beacon = none → exec .beaconTimerExpiry s = .next (settle s)) ∧
    (∀ i : Station, s.line.st ≠ .silent → (s.roster[i]).present = true →
      4 * s.cfg.ident.beaconInterval ≤ (s.roster[i]).age →
      exec (.rosterAgeOut i) s = .next (settle (tryBoth { s with roster := s.roster.set i { s.roster[i] with
        present := false, heldPower := 0, heldAir := 0, waitPower := none, waitAir := none } }))) ∧
    (∀ i : Station, s.line.st = .silent ∨ (s.roster[i]).present = false ∨
      (s.roster[i]).age < 4 * s.cfg.ident.beaconInterval → exec (.rosterAgeOut i) s = .next (settle s)) ∧
    (∀ p : Pool, (s.agent p).timer.isSome = true → exec (.waitTimerExpiry p) s =
      .next (settle (setFlag .budgetWait (s.mapAgent p fun g => { g with timer := none })))) ∧
    (∀ p : Pool, (s.agent p).timer = none → exec (.waitTimerExpiry p) s = .next (settle s))) ∧
  (∀ s : State,
    let beacon : Frame := { kind := .beacon, pool := .power, amount := 0, count := 0, attempts := 0 }
    let rest := s.line.queue.filter fun g => !beacon.same g
    (s.line.queue.any beacon.same = false → supersedeBeacon s = s) ∧
    (∀ a : Attempt, s.line.queue.any beacon.same = true → s.line.attempt = some a → a.fate = .queued →
      a.frame.kind = .beacon → a.frame.pool = .power → supersedeBeacon s = { s with line := { s.line with
        queue := rest, attempt := some { a with fate := .superseded } } }) ∧
    (s.line.queue.any beacon.same = true → s.line.sending beacon = false →
      supersedeBeacon s = countDrop { s with line := { s.line with queue := rest } }) ∧
    placeBeacon s = placeFrame beacon { s with line := { s.line with beacon := some s.cfg.ident.beaconInterval } } ∧
    (∀ p : Pool,
      ((s.agent p).standing = true → raiseCount p s =
        tryClaim p (s.mapAgent p fun g => { g with count := min 255 (g.count + 1) })) ∧
      ((s.agent p).standing = false → raiseCount p s = s)) ∧
    (s.line.st ≠ .listening → countListening s = s) ∧
    (s.line.st = .listening → s.line.listens < 3 → countListening s =
      { s with line := { s.line with listens := s.line.listens + 1 } }) ∧
    (s.line.st = .listening → s.line.listens = 3 → countListening s = tryBoth { s with
      line := { s.line with st := .active, listens := 4 }
      events := { s.events with flags := s.events.flags ||| BitVec.twoPow 15 11 } }))

/-! ## Invariants of every step -/

/-- Every step keeps the limits: at most 24 job places, 16 waiting records and 4 stirs, levels within 500,000 and miss
counts within 3, the zero offset within 100,000 either way, drops within 3, and no two queued frames of one kind and
pool. -/
def Obligations.EveryStepKeepsTheLimits : Prop :=
  ∀ s t : State, step s = .next t → WithinLimits s → WithinLimits t

/-- Every step keeps the job queue in order: the records stand by priority and then by arrival, no id stands twice among
records and reserved places, and at most 24 places are occupied, while at most 16 records wait to be taken. -/
def Obligations.EveryStepKeepsTheJobOrder : Prop :=
  ∀ s t : State, step s = .next t → JobsOrdered s → JobsOrdered t

/-- Every step keeps the quiet request: it stands exactly while the dispense bay's scale request is open, and a bay that
is STOPPED or in FAULT has none open. -/
def Obligations.EveryStepKeepsTheQuietRequest : Prop :=
  ∀ s t : State, step s = .next t → QuietFits s → QuietFits t

/-- Every step keeps the licence of the drives: the press is driven only in its stroke and only on air that is HELD,
the shaker only in SPIN_UP and RUN and only on power that is HELD. -/
def Obligations.EveryStepKeepsTheLicences : Prop :=
  ∀ s t : State, step s = .next t → DrivesLicensed s → DrivesLicensed t

/-- Every step keeps the emergency stop: while ESTOP stands, the bays stay STOPPED or in FAULT, every drive stays off
and the carriage does not move. -/
def Obligations.EveryStepKeepsTheStop : Prop :=
  ∀ s t : State, step s = .next t → StopHolds s → StopHolds t
end

