-- ==== Sys2Proof/Laws/State.lean ====
section
/-! SUPPORT. One lemma per field per update of State's blocks, each true by `rfl`: a block's update changes that block
alone; and what `reached` says of a stopped and of a running timer. -/

namespace Sys2Proof.Machine

@[simp] theorem State.mapPhase_phase (f : Phase → Phase) (s : State) : (s.mapPhase f).phase = f s.phase := rfl
@[simp] theorem State.mapPhase_inputs (f : Phase → Phase) (s : State) : (s.mapPhase f).inputs = s.inputs := rfl
@[simp] theorem State.mapPhase_cfg (f : Phase → Phase) (s : State) : (s.mapPhase f).cfg = s.cfg := rfl
@[simp] theorem State.mapPhase_store (f : Phase → Phase) (s : State) : (s.mapPhase f).store = s.store := rfl
@[simp] theorem State.mapPhase_port (f : Phase → Phase) (s : State) : (s.mapPhase f).port = s.port := rfl
@[simp] theorem State.mapPhase_events (f : Phase → Phase) (s : State) : (s.mapPhase f).events = s.events := rfl
@[simp] theorem State.mapPhase_jobs (f : Phase → Phase) (s : State) : (s.mapPhase f).jobs = s.jobs := rfl
@[simp] theorem State.mapPhase_cans (f : Phase → Phase) (s : State) : (s.mapPhase f).cans = s.cans := rfl
@[simp] theorem State.mapPhase_stir (f : Phase → Phase) (s : State) : (s.mapPhase f).stir = s.stir := rfl
@[simp] theorem State.mapPhase_pump (f : Phase → Phase) (s : State) : (s.mapPhase f).pump = s.pump := rfl
@[simp] theorem State.mapPhase_scale (f : Phase → Phase) (s : State) : (s.mapPhase f).scale = s.scale := rfl
@[simp] theorem State.mapPhase_disp (f : Phase → Phase) (s : State) : (s.mapPhase f).disp = s.disp := rfl
@[simp] theorem State.mapPhase_carriage (f : Phase → Phase) (s : State) : (s.mapPhase f).carriage = s.carriage := rfl
@[simp] theorem State.mapPhase_lid (f : Phase → Phase) (s : State) : (s.mapPhase f).lid = s.lid := rfl
@[simp] theorem State.mapPhase_shake (f : Phase → Phase) (s : State) : (s.mapPhase f).shake = s.shake := rfl
@[simp] theorem State.mapPhase_line (f : Phase → Phase) (s : State) : (s.mapPhase f).line = s.line := rfl
@[simp] theorem State.mapPhase_roster (f : Phase → Phase) (s : State) : (s.mapPhase f).roster = s.roster := rfl
@[simp] theorem State.mapPhase_power (f : Phase → Phase) (s : State) : (s.mapPhase f).power = s.power := rfl
@[simp] theorem State.mapPhase_air (f : Phase → Phase) (s : State) : (s.mapPhase f).air = s.air := rfl
@[simp] theorem State.mapPhase_mon (f : Phase → Phase) (s : State) : (s.mapPhase f).mon = s.mon := rfl
@[simp] theorem State.mapPhase_completion (f : Phase → Phase) (s : State) : (s.mapPhase f).completion = s.completion := rfl
@[simp] theorem State.mapPhase_free (f : Phase → Phase) (s : State) : (s.mapPhase f).free = s.free := rfl
@[simp] theorem State.mapPhase_pending (f : Phase → Phase) (s : State) : (s.mapPhase f).pending = s.pending := rfl
@[simp] theorem State.mapInputs_phase (f : Inputs → Inputs) (s : State) : (s.mapInputs f).phase = s.phase := rfl
@[simp] theorem State.mapInputs_inputs (f : Inputs → Inputs) (s : State) : (s.mapInputs f).inputs = f s.inputs := rfl
@[simp] theorem State.mapInputs_cfg (f : Inputs → Inputs) (s : State) : (s.mapInputs f).cfg = s.cfg := rfl
@[simp] theorem State.mapInputs_store (f : Inputs → Inputs) (s : State) : (s.mapInputs f).store = s.store := rfl
@[simp] theorem State.mapInputs_port (f : Inputs → Inputs) (s : State) : (s.mapInputs f).port = s.port := rfl
@[simp] theorem State.mapInputs_events (f : Inputs → Inputs) (s : State) : (s.mapInputs f).events = s.events := rfl
@[simp] theorem State.mapInputs_jobs (f : Inputs → Inputs) (s : State) : (s.mapInputs f).jobs = s.jobs := rfl
@[simp] theorem State.mapInputs_cans (f : Inputs → Inputs) (s : State) : (s.mapInputs f).cans = s.cans := rfl
@[simp] theorem State.mapInputs_stir (f : Inputs → Inputs) (s : State) : (s.mapInputs f).stir = s.stir := rfl
@[simp] theorem State.mapInputs_pump (f : Inputs → Inputs) (s : State) : (s.mapInputs f).pump = s.pump := rfl
@[simp] theorem State.mapInputs_scale (f : Inputs → Inputs) (s : State) : (s.mapInputs f).scale = s.scale := rfl
@[simp] theorem State.mapInputs_disp (f : Inputs → Inputs) (s : State) : (s.mapInputs f).disp = s.disp := rfl
@[simp] theorem State.mapInputs_carriage (f : Inputs → Inputs) (s : State) : (s.mapInputs f).carriage = s.carriage := rfl
@[simp] theorem State.mapInputs_lid (f : Inputs → Inputs) (s : State) : (s.mapInputs f).lid = s.lid := rfl
@[simp] theorem State.mapInputs_shake (f : Inputs → Inputs) (s : State) : (s.mapInputs f).shake = s.shake := rfl
@[simp] theorem State.mapInputs_line (f : Inputs → Inputs) (s : State) : (s.mapInputs f).line = s.line := rfl
@[simp] theorem State.mapInputs_roster (f : Inputs → Inputs) (s : State) : (s.mapInputs f).roster = s.roster := rfl
@[simp] theorem State.mapInputs_power (f : Inputs → Inputs) (s : State) : (s.mapInputs f).power = s.power := rfl
@[simp] theorem State.mapInputs_air (f : Inputs → Inputs) (s : State) : (s.mapInputs f).air = s.air := rfl
@[simp] theorem State.mapInputs_mon (f : Inputs → Inputs) (s : State) : (s.mapInputs f).mon = s.mon := rfl
@[simp] theorem State.mapInputs_completion (f : Inputs → Inputs) (s : State) : (s.mapInputs f).completion = s.completion := rfl
@[simp] theorem State.mapInputs_free (f : Inputs → Inputs) (s : State) : (s.mapInputs f).free = s.free := rfl
@[simp] theorem State.mapInputs_pending (f : Inputs → Inputs) (s : State) : (s.mapInputs f).pending = s.pending := rfl
@[simp] theorem State.mapCfg_phase (f : Loaded → Loaded) (s : State) : (s.mapCfg f).phase = s.phase := rfl
@[simp] theorem State.mapCfg_inputs (f : Loaded → Loaded) (s : State) : (s.mapCfg f).inputs = s.inputs := rfl
@[simp] theorem State.mapCfg_cfg (f : Loaded → Loaded) (s : State) : (s.mapCfg f).cfg = f s.cfg := rfl
@[simp] theorem State.mapCfg_store (f : Loaded → Loaded) (s : State) : (s.mapCfg f).store = s.store := rfl
@[simp] theorem State.mapCfg_port (f : Loaded → Loaded) (s : State) : (s.mapCfg f).port = s.port := rfl
@[simp] theorem State.mapCfg_events (f : Loaded → Loaded) (s : State) : (s.mapCfg f).events = s.events := rfl
@[simp] theorem State.mapCfg_jobs (f : Loaded → Loaded) (s : State) : (s.mapCfg f).jobs = s.jobs := rfl
@[simp] theorem State.mapCfg_cans (f : Loaded → Loaded) (s : State) : (s.mapCfg f).cans = s.cans := rfl
@[simp] theorem State.mapCfg_stir (f : Loaded → Loaded) (s : State) : (s.mapCfg f).stir = s.stir := rfl
@[simp] theorem State.mapCfg_pump (f : Loaded → Loaded) (s : State) : (s.mapCfg f).pump = s.pump := rfl
@[simp] theorem State.mapCfg_scale (f : Loaded → Loaded) (s : State) : (s.mapCfg f).scale = s.scale := rfl
@[simp] theorem State.mapCfg_disp (f : Loaded → Loaded) (s : State) : (s.mapCfg f).disp = s.disp := rfl
@[simp] theorem State.mapCfg_carriage (f : Loaded → Loaded) (s : State) : (s.mapCfg f).carriage = s.carriage := rfl
@[simp] theorem State.mapCfg_lid (f : Loaded → Loaded) (s : State) : (s.mapCfg f).lid = s.lid := rfl
@[simp] theorem State.mapCfg_shake (f : Loaded → Loaded) (s : State) : (s.mapCfg f).shake = s.shake := rfl
@[simp] theorem State.mapCfg_line (f : Loaded → Loaded) (s : State) : (s.mapCfg f).line = s.line := rfl
@[simp] theorem State.mapCfg_roster (f : Loaded → Loaded) (s : State) : (s.mapCfg f).roster = s.roster := rfl
@[simp] theorem State.mapCfg_power (f : Loaded → Loaded) (s : State) : (s.mapCfg f).power = s.power := rfl
@[simp] theorem State.mapCfg_air (f : Loaded → Loaded) (s : State) : (s.mapCfg f).air = s.air := rfl
@[simp] theorem State.mapCfg_mon (f : Loaded → Loaded) (s : State) : (s.mapCfg f).mon = s.mon := rfl
@[simp] theorem State.mapCfg_completion (f : Loaded → Loaded) (s : State) : (s.mapCfg f).completion = s.completion := rfl
@[simp] theorem State.mapCfg_free (f : Loaded → Loaded) (s : State) : (s.mapCfg f).free = s.free := rfl
@[simp] theorem State.mapCfg_pending (f : Loaded → Loaded) (s : State) : (s.mapCfg f).pending = s.pending := rfl
@[simp] theorem State.mapStore_phase (f : Store → Store) (s : State) : (s.mapStore f).phase = s.phase := rfl
@[simp] theorem State.mapStore_inputs (f : Store → Store) (s : State) : (s.mapStore f).inputs = s.inputs := rfl
@[simp] theorem State.mapStore_cfg (f : Store → Store) (s : State) : (s.mapStore f).cfg = s.cfg := rfl
@[simp] theorem State.mapStore_store (f : Store → Store) (s : State) : (s.mapStore f).store = f s.store := rfl
@[simp] theorem State.mapStore_port (f : Store → Store) (s : State) : (s.mapStore f).port = s.port := rfl
@[simp] theorem State.mapStore_events (f : Store → Store) (s : State) : (s.mapStore f).events = s.events := rfl
@[simp] theorem State.mapStore_jobs (f : Store → Store) (s : State) : (s.mapStore f).jobs = s.jobs := rfl
@[simp] theorem State.mapStore_cans (f : Store → Store) (s : State) : (s.mapStore f).cans = s.cans := rfl
@[simp] theorem State.mapStore_stir (f : Store → Store) (s : State) : (s.mapStore f).stir = s.stir := rfl
@[simp] theorem State.mapStore_pump (f : Store → Store) (s : State) : (s.mapStore f).pump = s.pump := rfl
@[simp] theorem State.mapStore_scale (f : Store → Store) (s : State) : (s.mapStore f).scale = s.scale := rfl
@[simp] theorem State.mapStore_disp (f : Store → Store) (s : State) : (s.mapStore f).disp = s.disp := rfl
@[simp] theorem State.mapStore_carriage (f : Store → Store) (s : State) : (s.mapStore f).carriage = s.carriage := rfl
@[simp] theorem State.mapStore_lid (f : Store → Store) (s : State) : (s.mapStore f).lid = s.lid := rfl
@[simp] theorem State.mapStore_shake (f : Store → Store) (s : State) : (s.mapStore f).shake = s.shake := rfl
@[simp] theorem State.mapStore_line (f : Store → Store) (s : State) : (s.mapStore f).line = s.line := rfl
@[simp] theorem State.mapStore_roster (f : Store → Store) (s : State) : (s.mapStore f).roster = s.roster := rfl
@[simp] theorem State.mapStore_power (f : Store → Store) (s : State) : (s.mapStore f).power = s.power := rfl
@[simp] theorem State.mapStore_air (f : Store → Store) (s : State) : (s.mapStore f).air = s.air := rfl
@[simp] theorem State.mapStore_mon (f : Store → Store) (s : State) : (s.mapStore f).mon = s.mon := rfl
@[simp] theorem State.mapStore_completion (f : Store → Store) (s : State) : (s.mapStore f).completion = s.completion := rfl
@[simp] theorem State.mapStore_free (f : Store → Store) (s : State) : (s.mapStore f).free = s.free := rfl
@[simp] theorem State.mapStore_pending (f : Store → Store) (s : State) : (s.mapStore f).pending = s.pending := rfl
@[simp] theorem State.mapPort_phase (f : Port → Port) (s : State) : (s.mapPort f).phase = s.phase := rfl
@[simp] theorem State.mapPort_inputs (f : Port → Port) (s : State) : (s.mapPort f).inputs = s.inputs := rfl
@[simp] theorem State.mapPort_cfg (f : Port → Port) (s : State) : (s.mapPort f).cfg = s.cfg := rfl
@[simp] theorem State.mapPort_store (f : Port → Port) (s : State) : (s.mapPort f).store = s.store := rfl
@[simp] theorem State.mapPort_port (f : Port → Port) (s : State) : (s.mapPort f).port = f s.port := rfl
@[simp] theorem State.mapPort_events (f : Port → Port) (s : State) : (s.mapPort f).events = s.events := rfl
@[simp] theorem State.mapPort_jobs (f : Port → Port) (s : State) : (s.mapPort f).jobs = s.jobs := rfl
@[simp] theorem State.mapPort_cans (f : Port → Port) (s : State) : (s.mapPort f).cans = s.cans := rfl
@[simp] theorem State.mapPort_stir (f : Port → Port) (s : State) : (s.mapPort f).stir = s.stir := rfl
@[simp] theorem State.mapPort_pump (f : Port → Port) (s : State) : (s.mapPort f).pump = s.pump := rfl
@[simp] theorem State.mapPort_scale (f : Port → Port) (s : State) : (s.mapPort f).scale = s.scale := rfl
@[simp] theorem State.mapPort_disp (f : Port → Port) (s : State) : (s.mapPort f).disp = s.disp := rfl
@[simp] theorem State.mapPort_carriage (f : Port → Port) (s : State) : (s.mapPort f).carriage = s.carriage := rfl
@[simp] theorem State.mapPort_lid (f : Port → Port) (s : State) : (s.mapPort f).lid = s.lid := rfl
@[simp] theorem State.mapPort_shake (f : Port → Port) (s : State) : (s.mapPort f).shake = s.shake := rfl
@[simp] theorem State.mapPort_line (f : Port → Port) (s : State) : (s.mapPort f).line = s.line := rfl
@[simp] theorem State.mapPort_roster (f : Port → Port) (s : State) : (s.mapPort f).roster = s.roster := rfl
@[simp] theorem State.mapPort_power (f : Port → Port) (s : State) : (s.mapPort f).power = s.power := rfl
@[simp] theorem State.mapPort_air (f : Port → Port) (s : State) : (s.mapPort f).air = s.air := rfl
@[simp] theorem State.mapPort_mon (f : Port → Port) (s : State) : (s.mapPort f).mon = s.mon := rfl
@[simp] theorem State.mapPort_completion (f : Port → Port) (s : State) : (s.mapPort f).completion = s.completion := rfl
@[simp] theorem State.mapPort_free (f : Port → Port) (s : State) : (s.mapPort f).free = s.free := rfl
@[simp] theorem State.mapPort_pending (f : Port → Port) (s : State) : (s.mapPort f).pending = s.pending := rfl
@[simp] theorem State.mapEvents_phase (f : Events → Events) (s : State) : (s.mapEvents f).phase = s.phase := rfl
@[simp] theorem State.mapEvents_inputs (f : Events → Events) (s : State) : (s.mapEvents f).inputs = s.inputs := rfl
@[simp] theorem State.mapEvents_cfg (f : Events → Events) (s : State) : (s.mapEvents f).cfg = s.cfg := rfl
@[simp] theorem State.mapEvents_store (f : Events → Events) (s : State) : (s.mapEvents f).store = s.store := rfl
@[simp] theorem State.mapEvents_port (f : Events → Events) (s : State) : (s.mapEvents f).port = s.port := rfl
@[simp] theorem State.mapEvents_events (f : Events → Events) (s : State) : (s.mapEvents f).events = f s.events := rfl
@[simp] theorem State.mapEvents_jobs (f : Events → Events) (s : State) : (s.mapEvents f).jobs = s.jobs := rfl
@[simp] theorem State.mapEvents_cans (f : Events → Events) (s : State) : (s.mapEvents f).cans = s.cans := rfl
@[simp] theorem State.mapEvents_stir (f : Events → Events) (s : State) : (s.mapEvents f).stir = s.stir := rfl
@[simp] theorem State.mapEvents_pump (f : Events → Events) (s : State) : (s.mapEvents f).pump = s.pump := rfl
@[simp] theorem State.mapEvents_scale (f : Events → Events) (s : State) : (s.mapEvents f).scale = s.scale := rfl
@[simp] theorem State.mapEvents_disp (f : Events → Events) (s : State) : (s.mapEvents f).disp = s.disp := rfl
@[simp] theorem State.mapEvents_carriage (f : Events → Events) (s : State) : (s.mapEvents f).carriage = s.carriage := rfl
@[simp] theorem State.mapEvents_lid (f : Events → Events) (s : State) : (s.mapEvents f).lid = s.lid := rfl
@[simp] theorem State.mapEvents_shake (f : Events → Events) (s : State) : (s.mapEvents f).shake = s.shake := rfl
@[simp] theorem State.mapEvents_line (f : Events → Events) (s : State) : (s.mapEvents f).line = s.line := rfl
@[simp] theorem State.mapEvents_roster (f : Events → Events) (s : State) : (s.mapEvents f).roster = s.roster := rfl
@[simp] theorem State.mapEvents_power (f : Events → Events) (s : State) : (s.mapEvents f).power = s.power := rfl
@[simp] theorem State.mapEvents_air (f : Events → Events) (s : State) : (s.mapEvents f).air = s.air := rfl
@[simp] theorem State.mapEvents_mon (f : Events → Events) (s : State) : (s.mapEvents f).mon = s.mon := rfl
@[simp] theorem State.mapEvents_completion (f : Events → Events) (s : State) : (s.mapEvents f).completion = s.completion := rfl
@[simp] theorem State.mapEvents_free (f : Events → Events) (s : State) : (s.mapEvents f).free = s.free := rfl
@[simp] theorem State.mapEvents_pending (f : Events → Events) (s : State) : (s.mapEvents f).pending = s.pending := rfl
@[simp] theorem State.mapJobs_phase (f : JobQueue → JobQueue) (s : State) : (s.mapJobs f).phase = s.phase := rfl
@[simp] theorem State.mapJobs_inputs (f : JobQueue → JobQueue) (s : State) : (s.mapJobs f).inputs = s.inputs := rfl
@[simp] theorem State.mapJobs_cfg (f : JobQueue → JobQueue) (s : State) : (s.mapJobs f).cfg = s.cfg := rfl
@[simp] theorem State.mapJobs_store (f : JobQueue → JobQueue) (s : State) : (s.mapJobs f).store = s.store := rfl
@[simp] theorem State.mapJobs_port (f : JobQueue → JobQueue) (s : State) : (s.mapJobs f).port = s.port := rfl
@[simp] theorem State.mapJobs_events (f : JobQueue → JobQueue) (s : State) : (s.mapJobs f).events = s.events := rfl
@[simp] theorem State.mapJobs_jobs (f : JobQueue → JobQueue) (s : State) : (s.mapJobs f).jobs = f s.jobs := rfl
@[simp] theorem State.mapJobs_cans (f : JobQueue → JobQueue) (s : State) : (s.mapJobs f).cans = s.cans := rfl
@[simp] theorem State.mapJobs_stir (f : JobQueue → JobQueue) (s : State) : (s.mapJobs f).stir = s.stir := rfl
@[simp] theorem State.mapJobs_pump (f : JobQueue → JobQueue) (s : State) : (s.mapJobs f).pump = s.pump := rfl
@[simp] theorem State.mapJobs_scale (f : JobQueue → JobQueue) (s : State) : (s.mapJobs f).scale = s.scale := rfl
@[simp] theorem State.mapJobs_disp (f : JobQueue → JobQueue) (s : State) : (s.mapJobs f).disp = s.disp := rfl
@[simp] theorem State.mapJobs_carriage (f : JobQueue → JobQueue) (s : State) : (s.mapJobs f).carriage = s.carriage := rfl
@[simp] theorem State.mapJobs_lid (f : JobQueue → JobQueue) (s : State) : (s.mapJobs f).lid = s.lid := rfl
@[simp] theorem State.mapJobs_shake (f : JobQueue → JobQueue) (s : State) : (s.mapJobs f).shake = s.shake := rfl
@[simp] theorem State.mapJobs_line (f : JobQueue → JobQueue) (s : State) : (s.mapJobs f).line = s.line := rfl
@[simp] theorem State.mapJobs_roster (f : JobQueue → JobQueue) (s : State) : (s.mapJobs f).roster = s.roster := rfl
@[simp] theorem State.mapJobs_power (f : JobQueue → JobQueue) (s : State) : (s.mapJobs f).power = s.power := rfl
@[simp] theorem State.mapJobs_air (f : JobQueue → JobQueue) (s : State) : (s.mapJobs f).air = s.air := rfl
@[simp] theorem State.mapJobs_mon (f : JobQueue → JobQueue) (s : State) : (s.mapJobs f).mon = s.mon := rfl
@[simp] theorem State.mapJobs_completion (f : JobQueue → JobQueue) (s : State) : (s.mapJobs f).completion = s.completion := rfl
@[simp] theorem State.mapJobs_free (f : JobQueue → JobQueue) (s : State) : (s.mapJobs f).free = s.free := rfl
@[simp] theorem State.mapJobs_pending (f : JobQueue → JobQueue) (s : State) : (s.mapJobs f).pending = s.pending := rfl
@[simp] theorem State.mapCans_phase (f : Vector Canister 16 → Vector Canister 16) (s : State) : (s.mapCans f).phase = s.phase := rfl
@[simp] theorem State.mapCans_inputs (f : Vector Canister 16 → Vector Canister 16) (s : State) : (s.mapCans f).inputs = s.inputs := rfl
@[simp] theorem State.mapCans_cfg (f : Vector Canister 16 → Vector Canister 16) (s : State) : (s.mapCans f).cfg = s.cfg := rfl
@[simp] theorem State.mapCans_store (f : Vector Canister 16 → Vector Canister 16) (s : State) : (s.mapCans f).store = s.store := rfl
@[simp] theorem State.mapCans_port (f : Vector Canister 16 → Vector Canister 16) (s : State) : (s.mapCans f).port = s.port := rfl
@[simp] theorem State.mapCans_events (f : Vector Canister 16 → Vector Canister 16) (s : State) : (s.mapCans f).events = s.events := rfl
@[simp] theorem State.mapCans_jobs (f : Vector Canister 16 → Vector Canister 16) (s : State) : (s.mapCans f).jobs = s.jobs := rfl
@[simp] theorem State.mapCans_cans (f : Vector Canister 16 → Vector Canister 16) (s : State) : (s.mapCans f).cans = f s.cans := rfl
@[simp] theorem State.mapCans_stir (f : Vector Canister 16 → Vector Canister 16) (s : State) : (s.mapCans f).stir = s.stir := rfl
@[simp] theorem State.mapCans_pump (f : Vector Canister 16 → Vector Canister 16) (s : State) : (s.mapCans f).pump = s.pump := rfl
@[simp] theorem State.mapCans_scale (f : Vector Canister 16 → Vector Canister 16) (s : State) : (s.mapCans f).scale = s.scale := rfl
@[simp] theorem State.mapCans_disp (f : Vector Canister 16 → Vector Canister 16) (s : State) : (s.mapCans f).disp = s.disp := rfl
@[simp] theorem State.mapCans_carriage (f : Vector Canister 16 → Vector Canister 16) (s : State) : (s.mapCans f).carriage = s.carriage := rfl
@[simp] theorem State.mapCans_lid (f : Vector Canister 16 → Vector Canister 16) (s : State) : (s.mapCans f).lid = s.lid := rfl
@[simp] theorem State.mapCans_shake (f : Vector Canister 16 → Vector Canister 16) (s : State) : (s.mapCans f).shake = s.shake := rfl
@[simp] theorem State.mapCans_line (f : Vector Canister 16 → Vector Canister 16) (s : State) : (s.mapCans f).line = s.line := rfl
@[simp] theorem State.mapCans_roster (f : Vector Canister 16 → Vector Canister 16) (s : State) : (s.mapCans f).roster = s.roster := rfl
@[simp] theorem State.mapCans_power (f : Vector Canister 16 → Vector Canister 16) (s : State) : (s.mapCans f).power = s.power := rfl
@[simp] theorem State.mapCans_air (f : Vector Canister 16 → Vector Canister 16) (s : State) : (s.mapCans f).air = s.air := rfl
@[simp] theorem State.mapCans_mon (f : Vector Canister 16 → Vector Canister 16) (s : State) : (s.mapCans f).mon = s.mon := rfl
@[simp] theorem State.mapCans_completion (f : Vector Canister 16 → Vector Canister 16) (s : State) : (s.mapCans f).completion = s.completion := rfl
@[simp] theorem State.mapCans_free (f : Vector Canister 16 → Vector Canister 16) (s : State) : (s.mapCans f).free = s.free := rfl
@[simp] theorem State.mapCans_pending (f : Vector Canister 16 → Vector Canister 16) (s : State) : (s.mapCans f).pending = s.pending := rfl
@[simp] theorem State.mapStir_phase (f : StirManager → StirManager) (s : State) : (s.mapStir f).phase = s.phase := rfl
@[simp] theorem State.mapStir_inputs (f : StirManager → StirManager) (s : State) : (s.mapStir f).inputs = s.inputs := rfl
@[simp] theorem State.mapStir_cfg (f : StirManager → StirManager) (s : State) : (s.mapStir f).cfg = s.cfg := rfl
@[simp] theorem State.mapStir_store (f : StirManager → StirManager) (s : State) : (s.mapStir f).store = s.store := rfl
@[simp] theorem State.mapStir_port (f : StirManager → StirManager) (s : State) : (s.mapStir f).port = s.port := rfl
@[simp] theorem State.mapStir_events (f : StirManager → StirManager) (s : State) : (s.mapStir f).events = s.events := rfl
@[simp] theorem State.mapStir_jobs (f : StirManager → StirManager) (s : State) : (s.mapStir f).jobs = s.jobs := rfl
@[simp] theorem State.mapStir_cans (f : StirManager → StirManager) (s : State) : (s.mapStir f).cans = s.cans := rfl
@[simp] theorem State.mapStir_stir (f : StirManager → StirManager) (s : State) : (s.mapStir f).stir = f s.stir := rfl
@[simp] theorem State.mapStir_pump (f : StirManager → StirManager) (s : State) : (s.mapStir f).pump = s.pump := rfl
@[simp] theorem State.mapStir_scale (f : StirManager → StirManager) (s : State) : (s.mapStir f).scale = s.scale := rfl
@[simp] theorem State.mapStir_disp (f : StirManager → StirManager) (s : State) : (s.mapStir f).disp = s.disp := rfl
@[simp] theorem State.mapStir_carriage (f : StirManager → StirManager) (s : State) : (s.mapStir f).carriage = s.carriage := rfl
@[simp] theorem State.mapStir_lid (f : StirManager → StirManager) (s : State) : (s.mapStir f).lid = s.lid := rfl
@[simp] theorem State.mapStir_shake (f : StirManager → StirManager) (s : State) : (s.mapStir f).shake = s.shake := rfl
@[simp] theorem State.mapStir_line (f : StirManager → StirManager) (s : State) : (s.mapStir f).line = s.line := rfl
@[simp] theorem State.mapStir_roster (f : StirManager → StirManager) (s : State) : (s.mapStir f).roster = s.roster := rfl
@[simp] theorem State.mapStir_power (f : StirManager → StirManager) (s : State) : (s.mapStir f).power = s.power := rfl
@[simp] theorem State.mapStir_air (f : StirManager → StirManager) (s : State) : (s.mapStir f).air = s.air := rfl
@[simp] theorem State.mapStir_mon (f : StirManager → StirManager) (s : State) : (s.mapStir f).mon = s.mon := rfl
@[simp] theorem State.mapStir_completion (f : StirManager → StirManager) (s : State) : (s.mapStir f).completion = s.completion := rfl
@[simp] theorem State.mapStir_free (f : StirManager → StirManager) (s : State) : (s.mapStir f).free = s.free := rfl
@[simp] theorem State.mapStir_pending (f : StirManager → StirManager) (s : State) : (s.mapStir f).pending = s.pending := rfl
@[simp] theorem State.mapPump_phase (f : PumpDrive → PumpDrive) (s : State) : (s.mapPump f).phase = s.phase := rfl
@[simp] theorem State.mapPump_inputs (f : PumpDrive → PumpDrive) (s : State) : (s.mapPump f).inputs = s.inputs := rfl
@[simp] theorem State.mapPump_cfg (f : PumpDrive → PumpDrive) (s : State) : (s.mapPump f).cfg = s.cfg := rfl
@[simp] theorem State.mapPump_store (f : PumpDrive → PumpDrive) (s : State) : (s.mapPump f).store = s.store := rfl
@[simp] theorem State.mapPump_port (f : PumpDrive → PumpDrive) (s : State) : (s.mapPump f).port = s.port := rfl
@[simp] theorem State.mapPump_events (f : PumpDrive → PumpDrive) (s : State) : (s.mapPump f).events = s.events := rfl
@[simp] theorem State.mapPump_jobs (f : PumpDrive → PumpDrive) (s : State) : (s.mapPump f).jobs = s.jobs := rfl
@[simp] theorem State.mapPump_cans (f : PumpDrive → PumpDrive) (s : State) : (s.mapPump f).cans = s.cans := rfl
@[simp] theorem State.mapPump_stir (f : PumpDrive → PumpDrive) (s : State) : (s.mapPump f).stir = s.stir := rfl
@[simp] theorem State.mapPump_pump (f : PumpDrive → PumpDrive) (s : State) : (s.mapPump f).pump = f s.pump := rfl
@[simp] theorem State.mapPump_scale (f : PumpDrive → PumpDrive) (s : State) : (s.mapPump f).scale = s.scale := rfl
@[simp] theorem State.mapPump_disp (f : PumpDrive → PumpDrive) (s : State) : (s.mapPump f).disp = s.disp := rfl
@[simp] theorem State.mapPump_carriage (f : PumpDrive → PumpDrive) (s : State) : (s.mapPump f).carriage = s.carriage := rfl
@[simp] theorem State.mapPump_lid (f : PumpDrive → PumpDrive) (s : State) : (s.mapPump f).lid = s.lid := rfl
@[simp] theorem State.mapPump_shake (f : PumpDrive → PumpDrive) (s : State) : (s.mapPump f).shake = s.shake := rfl
@[simp] theorem State.mapPump_line (f : PumpDrive → PumpDrive) (s : State) : (s.mapPump f).line = s.line := rfl
@[simp] theorem State.mapPump_roster (f : PumpDrive → PumpDrive) (s : State) : (s.mapPump f).roster = s.roster := rfl
@[simp] theorem State.mapPump_power (f : PumpDrive → PumpDrive) (s : State) : (s.mapPump f).power = s.power := rfl
@[simp] theorem State.mapPump_air (f : PumpDrive → PumpDrive) (s : State) : (s.mapPump f).air = s.air := rfl
@[simp] theorem State.mapPump_mon (f : PumpDrive → PumpDrive) (s : State) : (s.mapPump f).mon = s.mon := rfl
@[simp] theorem State.mapPump_completion (f : PumpDrive → PumpDrive) (s : State) : (s.mapPump f).completion = s.completion := rfl
@[simp] theorem State.mapPump_free (f : PumpDrive → PumpDrive) (s : State) : (s.mapPump f).free = s.free := rfl
@[simp] theorem State.mapPump_pending (f : PumpDrive → PumpDrive) (s : State) : (s.mapPump f).pending = s.pending := rfl
@[simp] theorem State.mapScale_phase (f : Scale → Scale) (s : State) : (s.mapScale f).phase = s.phase := rfl
@[simp] theorem State.mapScale_inputs (f : Scale → Scale) (s : State) : (s.mapScale f).inputs = s.inputs := rfl
@[simp] theorem State.mapScale_cfg (f : Scale → Scale) (s : State) : (s.mapScale f).cfg = s.cfg := rfl
@[simp] theorem State.mapScale_store (f : Scale → Scale) (s : State) : (s.mapScale f).store = s.store := rfl
@[simp] theorem State.mapScale_port (f : Scale → Scale) (s : State) : (s.mapScale f).port = s.port := rfl
@[simp] theorem State.mapScale_events (f : Scale → Scale) (s : State) : (s.mapScale f).events = s.events := rfl
@[simp] theorem State.mapScale_jobs (f : Scale → Scale) (s : State) : (s.mapScale f).jobs = s.jobs := rfl
@[simp] theorem State.mapScale_cans (f : Scale → Scale) (s : State) : (s.mapScale f).cans = s.cans := rfl
@[simp] theorem State.mapScale_stir (f : Scale → Scale) (s : State) : (s.mapScale f).stir = s.stir := rfl
@[simp] theorem State.mapScale_pump (f : Scale → Scale) (s : State) : (s.mapScale f).pump = s.pump := rfl
@[simp] theorem State.mapScale_scale (f : Scale → Scale) (s : State) : (s.mapScale f).scale = f s.scale := rfl
@[simp] theorem State.mapScale_disp (f : Scale → Scale) (s : State) : (s.mapScale f).disp = s.disp := rfl
@[simp] theorem State.mapScale_carriage (f : Scale → Scale) (s : State) : (s.mapScale f).carriage = s.carriage := rfl
@[simp] theorem State.mapScale_lid (f : Scale → Scale) (s : State) : (s.mapScale f).lid = s.lid := rfl
@[simp] theorem State.mapScale_shake (f : Scale → Scale) (s : State) : (s.mapScale f).shake = s.shake := rfl
@[simp] theorem State.mapScale_line (f : Scale → Scale) (s : State) : (s.mapScale f).line = s.line := rfl
@[simp] theorem State.mapScale_roster (f : Scale → Scale) (s : State) : (s.mapScale f).roster = s.roster := rfl
@[simp] theorem State.mapScale_power (f : Scale → Scale) (s : State) : (s.mapScale f).power = s.power := rfl
@[simp] theorem State.mapScale_air (f : Scale → Scale) (s : State) : (s.mapScale f).air = s.air := rfl
@[simp] theorem State.mapScale_mon (f : Scale → Scale) (s : State) : (s.mapScale f).mon = s.mon := rfl
@[simp] theorem State.mapScale_completion (f : Scale → Scale) (s : State) : (s.mapScale f).completion = s.completion := rfl
@[simp] theorem State.mapScale_free (f : Scale → Scale) (s : State) : (s.mapScale f).free = s.free := rfl
@[simp] theorem State.mapScale_pending (f : Scale → Scale) (s : State) : (s.mapScale f).pending = s.pending := rfl
@[simp] theorem State.mapDisp_phase (f : DispenseBay → DispenseBay) (s : State) : (s.mapDisp f).phase = s.phase := rfl
@[simp] theorem State.mapDisp_inputs (f : DispenseBay → DispenseBay) (s : State) : (s.mapDisp f).inputs = s.inputs := rfl
@[simp] theorem State.mapDisp_cfg (f : DispenseBay → DispenseBay) (s : State) : (s.mapDisp f).cfg = s.cfg := rfl
@[simp] theorem State.mapDisp_store (f : DispenseBay → DispenseBay) (s : State) : (s.mapDisp f).store = s.store := rfl
@[simp] theorem State.mapDisp_port (f : DispenseBay → DispenseBay) (s : State) : (s.mapDisp f).port = s.port := rfl
@[simp] theorem State.mapDisp_events (f : DispenseBay → DispenseBay) (s : State) : (s.mapDisp f).events = s.events := rfl
@[simp] theorem State.mapDisp_jobs (f : DispenseBay → DispenseBay) (s : State) : (s.mapDisp f).jobs = s.jobs := rfl
@[simp] theorem State.mapDisp_cans (f : DispenseBay → DispenseBay) (s : State) : (s.mapDisp f).cans = s.cans := rfl
@[simp] theorem State.mapDisp_stir (f : DispenseBay → DispenseBay) (s : State) : (s.mapDisp f).stir = s.stir := rfl
@[simp] theorem State.mapDisp_pump (f : DispenseBay → DispenseBay) (s : State) : (s.mapDisp f).pump = s.pump := rfl
@[simp] theorem State.mapDisp_scale (f : DispenseBay → DispenseBay) (s : State) : (s.mapDisp f).scale = s.scale := rfl
@[simp] theorem State.mapDisp_disp (f : DispenseBay → DispenseBay) (s : State) : (s.mapDisp f).disp = f s.disp := rfl
@[simp] theorem State.mapDisp_carriage (f : DispenseBay → DispenseBay) (s : State) : (s.mapDisp f).carriage = s.carriage := rfl
@[simp] theorem State.mapDisp_lid (f : DispenseBay → DispenseBay) (s : State) : (s.mapDisp f).lid = s.lid := rfl
@[simp] theorem State.mapDisp_shake (f : DispenseBay → DispenseBay) (s : State) : (s.mapDisp f).shake = s.shake := rfl
@[simp] theorem State.mapDisp_line (f : DispenseBay → DispenseBay) (s : State) : (s.mapDisp f).line = s.line := rfl
@[simp] theorem State.mapDisp_roster (f : DispenseBay → DispenseBay) (s : State) : (s.mapDisp f).roster = s.roster := rfl
@[simp] theorem State.mapDisp_power (f : DispenseBay → DispenseBay) (s : State) : (s.mapDisp f).power = s.power := rfl
@[simp] theorem State.mapDisp_air (f : DispenseBay → DispenseBay) (s : State) : (s.mapDisp f).air = s.air := rfl
@[simp] theorem State.mapDisp_mon (f : DispenseBay → DispenseBay) (s : State) : (s.mapDisp f).mon = s.mon := rfl
@[simp] theorem State.mapDisp_completion (f : DispenseBay → DispenseBay) (s : State) : (s.mapDisp f).completion = s.completion := rfl
@[simp] theorem State.mapDisp_free (f : DispenseBay → DispenseBay) (s : State) : (s.mapDisp f).free = s.free := rfl
@[simp] theorem State.mapDisp_pending (f : DispenseBay → DispenseBay) (s : State) : (s.mapDisp f).pending = s.pending := rfl
@[simp] theorem State.mapCarriage_phase (f : Carriage → Carriage) (s : State) : (s.mapCarriage f).phase = s.phase := rfl
@[simp] theorem State.mapCarriage_inputs (f : Carriage → Carriage) (s : State) : (s.mapCarriage f).inputs = s.inputs := rfl
@[simp] theorem State.mapCarriage_cfg (f : Carriage → Carriage) (s : State) : (s.mapCarriage f).cfg = s.cfg := rfl
@[simp] theorem State.mapCarriage_store (f : Carriage → Carriage) (s : State) : (s.mapCarriage f).store = s.store := rfl
@[simp] theorem State.mapCarriage_port (f : Carriage → Carriage) (s : State) : (s.mapCarriage f).port = s.port := rfl
@[simp] theorem State.mapCarriage_events (f : Carriage → Carriage) (s : State) : (s.mapCarriage f).events = s.events := rfl
@[simp] theorem State.mapCarriage_jobs (f : Carriage → Carriage) (s : State) : (s.mapCarriage f).jobs = s.jobs := rfl
@[simp] theorem State.mapCarriage_cans (f : Carriage → Carriage) (s : State) : (s.mapCarriage f).cans = s.cans := rfl
@[simp] theorem State.mapCarriage_stir (f : Carriage → Carriage) (s : State) : (s.mapCarriage f).stir = s.stir := rfl
@[simp] theorem State.mapCarriage_pump (f : Carriage → Carriage) (s : State) : (s.mapCarriage f).pump = s.pump := rfl
@[simp] theorem State.mapCarriage_scale (f : Carriage → Carriage) (s : State) : (s.mapCarriage f).scale = s.scale := rfl
@[simp] theorem State.mapCarriage_disp (f : Carriage → Carriage) (s : State) : (s.mapCarriage f).disp = s.disp := rfl
@[simp] theorem State.mapCarriage_carriage (f : Carriage → Carriage) (s : State) : (s.mapCarriage f).carriage = f s.carriage := rfl
@[simp] theorem State.mapCarriage_lid (f : Carriage → Carriage) (s : State) : (s.mapCarriage f).lid = s.lid := rfl
@[simp] theorem State.mapCarriage_shake (f : Carriage → Carriage) (s : State) : (s.mapCarriage f).shake = s.shake := rfl
@[simp] theorem State.mapCarriage_line (f : Carriage → Carriage) (s : State) : (s.mapCarriage f).line = s.line := rfl
@[simp] theorem State.mapCarriage_roster (f : Carriage → Carriage) (s : State) : (s.mapCarriage f).roster = s.roster := rfl
@[simp] theorem State.mapCarriage_power (f : Carriage → Carriage) (s : State) : (s.mapCarriage f).power = s.power := rfl
@[simp] theorem State.mapCarriage_air (f : Carriage → Carriage) (s : State) : (s.mapCarriage f).air = s.air := rfl
@[simp] theorem State.mapCarriage_mon (f : Carriage → Carriage) (s : State) : (s.mapCarriage f).mon = s.mon := rfl
@[simp] theorem State.mapCarriage_completion (f : Carriage → Carriage) (s : State) : (s.mapCarriage f).completion = s.completion := rfl
@[simp] theorem State.mapCarriage_free (f : Carriage → Carriage) (s : State) : (s.mapCarriage f).free = s.free := rfl
@[simp] theorem State.mapCarriage_pending (f : Carriage → Carriage) (s : State) : (s.mapCarriage f).pending = s.pending := rfl
@[simp] theorem State.mapLid_phase (f : LidBay → LidBay) (s : State) : (s.mapLid f).phase = s.phase := rfl
@[simp] theorem State.mapLid_inputs (f : LidBay → LidBay) (s : State) : (s.mapLid f).inputs = s.inputs := rfl
@[simp] theorem State.mapLid_cfg (f : LidBay → LidBay) (s : State) : (s.mapLid f).cfg = s.cfg := rfl
@[simp] theorem State.mapLid_store (f : LidBay → LidBay) (s : State) : (s.mapLid f).store = s.store := rfl
@[simp] theorem State.mapLid_port (f : LidBay → LidBay) (s : State) : (s.mapLid f).port = s.port := rfl
@[simp] theorem State.mapLid_events (f : LidBay → LidBay) (s : State) : (s.mapLid f).events = s.events := rfl
@[simp] theorem State.mapLid_jobs (f : LidBay → LidBay) (s : State) : (s.mapLid f).jobs = s.jobs := rfl
@[simp] theorem State.mapLid_cans (f : LidBay → LidBay) (s : State) : (s.mapLid f).cans = s.cans := rfl
@[simp] theorem State.mapLid_stir (f : LidBay → LidBay) (s : State) : (s.mapLid f).stir = s.stir := rfl
@[simp] theorem State.mapLid_pump (f : LidBay → LidBay) (s : State) : (s.mapLid f).pump = s.pump := rfl
@[simp] theorem State.mapLid_scale (f : LidBay → LidBay) (s : State) : (s.mapLid f).scale = s.scale := rfl
@[simp] theorem State.mapLid_disp (f : LidBay → LidBay) (s : State) : (s.mapLid f).disp = s.disp := rfl
@[simp] theorem State.mapLid_carriage (f : LidBay → LidBay) (s : State) : (s.mapLid f).carriage = s.carriage := rfl
@[simp] theorem State.mapLid_lid (f : LidBay → LidBay) (s : State) : (s.mapLid f).lid = f s.lid := rfl
@[simp] theorem State.mapLid_shake (f : LidBay → LidBay) (s : State) : (s.mapLid f).shake = s.shake := rfl
@[simp] theorem State.mapLid_line (f : LidBay → LidBay) (s : State) : (s.mapLid f).line = s.line := rfl
@[simp] theorem State.mapLid_roster (f : LidBay → LidBay) (s : State) : (s.mapLid f).roster = s.roster := rfl
@[simp] theorem State.mapLid_power (f : LidBay → LidBay) (s : State) : (s.mapLid f).power = s.power := rfl
@[simp] theorem State.mapLid_air (f : LidBay → LidBay) (s : State) : (s.mapLid f).air = s.air := rfl
@[simp] theorem State.mapLid_mon (f : LidBay → LidBay) (s : State) : (s.mapLid f).mon = s.mon := rfl
@[simp] theorem State.mapLid_completion (f : LidBay → LidBay) (s : State) : (s.mapLid f).completion = s.completion := rfl
@[simp] theorem State.mapLid_free (f : LidBay → LidBay) (s : State) : (s.mapLid f).free = s.free := rfl
@[simp] theorem State.mapLid_pending (f : LidBay → LidBay) (s : State) : (s.mapLid f).pending = s.pending := rfl
@[simp] theorem State.mapShake_phase (f : ShakeBay → ShakeBay) (s : State) : (s.mapShake f).phase = s.phase := rfl
@[simp] theorem State.mapShake_inputs (f : ShakeBay → ShakeBay) (s : State) : (s.mapShake f).inputs = s.inputs := rfl
@[simp] theorem State.mapShake_cfg (f : ShakeBay → ShakeBay) (s : State) : (s.mapShake f).cfg = s.cfg := rfl
@[simp] theorem State.mapShake_store (f : ShakeBay → ShakeBay) (s : State) : (s.mapShake f).store = s.store := rfl
@[simp] theorem State.mapShake_port (f : ShakeBay → ShakeBay) (s : State) : (s.mapShake f).port = s.port := rfl
@[simp] theorem State.mapShake_events (f : ShakeBay → ShakeBay) (s : State) : (s.mapShake f).events = s.events := rfl
@[simp] theorem State.mapShake_jobs (f : ShakeBay → ShakeBay) (s : State) : (s.mapShake f).jobs = s.jobs := rfl
@[simp] theorem State.mapShake_cans (f : ShakeBay → ShakeBay) (s : State) : (s.mapShake f).cans = s.cans := rfl
@[simp] theorem State.mapShake_stir (f : ShakeBay → ShakeBay) (s : State) : (s.mapShake f).stir = s.stir := rfl
@[simp] theorem State.mapShake_pump (f : ShakeBay → ShakeBay) (s : State) : (s.mapShake f).pump = s.pump := rfl
@[simp] theorem State.mapShake_scale (f : ShakeBay → ShakeBay) (s : State) : (s.mapShake f).scale = s.scale := rfl
@[simp] theorem State.mapShake_disp (f : ShakeBay → ShakeBay) (s : State) : (s.mapShake f).disp = s.disp := rfl
@[simp] theorem State.mapShake_carriage (f : ShakeBay → ShakeBay) (s : State) : (s.mapShake f).carriage = s.carriage := rfl
@[simp] theorem State.mapShake_lid (f : ShakeBay → ShakeBay) (s : State) : (s.mapShake f).lid = s.lid := rfl
@[simp] theorem State.mapShake_shake (f : ShakeBay → ShakeBay) (s : State) : (s.mapShake f).shake = f s.shake := rfl
@[simp] theorem State.mapShake_line (f : ShakeBay → ShakeBay) (s : State) : (s.mapShake f).line = s.line := rfl
@[simp] theorem State.mapShake_roster (f : ShakeBay → ShakeBay) (s : State) : (s.mapShake f).roster = s.roster := rfl
@[simp] theorem State.mapShake_power (f : ShakeBay → ShakeBay) (s : State) : (s.mapShake f).power = s.power := rfl
@[simp] theorem State.mapShake_air (f : ShakeBay → ShakeBay) (s : State) : (s.mapShake f).air = s.air := rfl
@[simp] theorem State.mapShake_mon (f : ShakeBay → ShakeBay) (s : State) : (s.mapShake f).mon = s.mon := rfl
@[simp] theorem State.mapShake_completion (f : ShakeBay → ShakeBay) (s : State) : (s.mapShake f).completion = s.completion := rfl
@[simp] theorem State.mapShake_free (f : ShakeBay → ShakeBay) (s : State) : (s.mapShake f).free = s.free := rfl
@[simp] theorem State.mapShake_pending (f : ShakeBay → ShakeBay) (s : State) : (s.mapShake f).pending = s.pending := rfl
@[simp] theorem State.mapLine_phase (f : LineCtl → LineCtl) (s : State) : (s.mapLine f).phase = s.phase := rfl
@[simp] theorem State.mapLine_inputs (f : LineCtl → LineCtl) (s : State) : (s.mapLine f).inputs = s.inputs := rfl
@[simp] theorem State.mapLine_cfg (f : LineCtl → LineCtl) (s : State) : (s.mapLine f).cfg = s.cfg := rfl
@[simp] theorem State.mapLine_store (f : LineCtl → LineCtl) (s : State) : (s.mapLine f).store = s.store := rfl
@[simp] theorem State.mapLine_port (f : LineCtl → LineCtl) (s : State) : (s.mapLine f).port = s.port := rfl
@[simp] theorem State.mapLine_events (f : LineCtl → LineCtl) (s : State) : (s.mapLine f).events = s.events := rfl
@[simp] theorem State.mapLine_jobs (f : LineCtl → LineCtl) (s : State) : (s.mapLine f).jobs = s.jobs := rfl
@[simp] theorem State.mapLine_cans (f : LineCtl → LineCtl) (s : State) : (s.mapLine f).cans = s.cans := rfl
@[simp] theorem State.mapLine_stir (f : LineCtl → LineCtl) (s : State) : (s.mapLine f).stir = s.stir := rfl
@[simp] theorem State.mapLine_pump (f : LineCtl → LineCtl) (s : State) : (s.mapLine f).pump = s.pump := rfl
@[simp] theorem State.mapLine_scale (f : LineCtl → LineCtl) (s : State) : (s.mapLine f).scale = s.scale := rfl
@[simp] theorem State.mapLine_disp (f : LineCtl → LineCtl) (s : State) : (s.mapLine f).disp = s.disp := rfl
@[simp] theorem State.mapLine_carriage (f : LineCtl → LineCtl) (s : State) : (s.mapLine f).carriage = s.carriage := rfl
@[simp] theorem State.mapLine_lid (f : LineCtl → LineCtl) (s : State) : (s.mapLine f).lid = s.lid := rfl
@[simp] theorem State.mapLine_shake (f : LineCtl → LineCtl) (s : State) : (s.mapLine f).shake = s.shake := rfl
@[simp] theorem State.mapLine_line (f : LineCtl → LineCtl) (s : State) : (s.mapLine f).line = f s.line := rfl
@[simp] theorem State.mapLine_roster (f : LineCtl → LineCtl) (s : State) : (s.mapLine f).roster = s.roster := rfl
@[simp] theorem State.mapLine_power (f : LineCtl → LineCtl) (s : State) : (s.mapLine f).power = s.power := rfl
@[simp] theorem State.mapLine_air (f : LineCtl → LineCtl) (s : State) : (s.mapLine f).air = s.air := rfl
@[simp] theorem State.mapLine_mon (f : LineCtl → LineCtl) (s : State) : (s.mapLine f).mon = s.mon := rfl
@[simp] theorem State.mapLine_completion (f : LineCtl → LineCtl) (s : State) : (s.mapLine f).completion = s.completion := rfl
@[simp] theorem State.mapLine_free (f : LineCtl → LineCtl) (s : State) : (s.mapLine f).free = s.free := rfl
@[simp] theorem State.mapLine_pending (f : LineCtl → LineCtl) (s : State) : (s.mapLine f).pending = s.pending := rfl
@[simp] theorem State.mapRoster_phase (f : Vector RosterEntry 16 → Vector RosterEntry 16) (s : State) : (s.mapRoster f).phase = s.phase := rfl
@[simp] theorem State.mapRoster_inputs (f : Vector RosterEntry 16 → Vector RosterEntry 16) (s : State) : (s.mapRoster f).inputs = s.inputs := rfl
@[simp] theorem State.mapRoster_cfg (f : Vector RosterEntry 16 → Vector RosterEntry 16) (s : State) : (s.mapRoster f).cfg = s.cfg := rfl
@[simp] theorem State.mapRoster_store (f : Vector RosterEntry 16 → Vector RosterEntry 16) (s : State) : (s.mapRoster f).store = s.store := rfl
@[simp] theorem State.mapRoster_port (f : Vector RosterEntry 16 → Vector RosterEntry 16) (s : State) : (s.mapRoster f).port = s.port := rfl
@[simp] theorem State.mapRoster_events (f : Vector RosterEntry 16 → Vector RosterEntry 16) (s : State) : (s.mapRoster f).events = s.events := rfl
@[simp] theorem State.mapRoster_jobs (f : Vector RosterEntry 16 → Vector RosterEntry 16) (s : State) : (s.mapRoster f).jobs = s.jobs := rfl
@[simp] theorem State.mapRoster_cans (f : Vector RosterEntry 16 → Vector RosterEntry 16) (s : State) : (s.mapRoster f).cans = s.cans := rfl
@[simp] theorem State.mapRoster_stir (f : Vector RosterEntry 16 → Vector RosterEntry 16) (s : State) : (s.mapRoster f).stir = s.stir := rfl
@[simp] theorem State.mapRoster_pump (f : Vector RosterEntry 16 → Vector RosterEntry 16) (s : State) : (s.mapRoster f).pump = s.pump := rfl
@[simp] theorem State.mapRoster_scale (f : Vector RosterEntry 16 → Vector RosterEntry 16) (s : State) : (s.mapRoster f).scale = s.scale := rfl
@[simp] theorem State.mapRoster_disp (f : Vector RosterEntry 16 → Vector RosterEntry 16) (s : State) : (s.mapRoster f).disp = s.disp := rfl
@[simp] theorem State.mapRoster_carriage (f : Vector RosterEntry 16 → Vector RosterEntry 16) (s : State) : (s.mapRoster f).carriage = s.carriage := rfl
@[simp] theorem State.mapRoster_lid (f : Vector RosterEntry 16 → Vector RosterEntry 16) (s : State) : (s.mapRoster f).lid = s.lid := rfl
@[simp] theorem State.mapRoster_shake (f : Vector RosterEntry 16 → Vector RosterEntry 16) (s : State) : (s.mapRoster f).shake = s.shake := rfl
@[simp] theorem State.mapRoster_line (f : Vector RosterEntry 16 → Vector RosterEntry 16) (s : State) : (s.mapRoster f).line = s.line := rfl
@[simp] theorem State.mapRoster_roster (f : Vector RosterEntry 16 → Vector RosterEntry 16) (s : State) : (s.mapRoster f).roster = f s.roster := rfl
@[simp] theorem State.mapRoster_power (f : Vector RosterEntry 16 → Vector RosterEntry 16) (s : State) : (s.mapRoster f).power = s.power := rfl
@[simp] theorem State.mapRoster_air (f : Vector RosterEntry 16 → Vector RosterEntry 16) (s : State) : (s.mapRoster f).air = s.air := rfl
@[simp] theorem State.mapRoster_mon (f : Vector RosterEntry 16 → Vector RosterEntry 16) (s : State) : (s.mapRoster f).mon = s.mon := rfl
@[simp] theorem State.mapRoster_completion (f : Vector RosterEntry 16 → Vector RosterEntry 16) (s : State) : (s.mapRoster f).completion = s.completion := rfl
@[simp] theorem State.mapRoster_free (f : Vector RosterEntry 16 → Vector RosterEntry 16) (s : State) : (s.mapRoster f).free = s.free := rfl
@[simp] theorem State.mapRoster_pending (f : Vector RosterEntry 16 → Vector RosterEntry 16) (s : State) : (s.mapRoster f).pending = s.pending := rfl
@[simp] theorem State.mapPower_phase (f : Agent → Agent) (s : State) : (s.mapPower f).phase = s.phase := rfl
@[simp] theorem State.mapPower_inputs (f : Agent → Agent) (s : State) : (s.mapPower f).inputs = s.inputs := rfl
@[simp] theorem State.mapPower_cfg (f : Agent → Agent) (s : State) : (s.mapPower f).cfg = s.cfg := rfl
@[simp] theorem State.mapPower_store (f : Agent → Agent) (s : State) : (s.mapPower f).store = s.store := rfl
@[simp] theorem State.mapPower_port (f : Agent → Agent) (s : State) : (s.mapPower f).port = s.port := rfl
@[simp] theorem State.mapPower_events (f : Agent → Agent) (s : State) : (s.mapPower f).events = s.events := rfl
@[simp] theorem State.mapPower_jobs (f : Agent → Agent) (s : State) : (s.mapPower f).jobs = s.jobs := rfl
@[simp] theorem State.mapPower_cans (f : Agent → Agent) (s : State) : (s.mapPower f).cans = s.cans := rfl
@[simp] theorem State.mapPower_stir (f : Agent → Agent) (s : State) : (s.mapPower f).stir = s.stir := rfl
@[simp] theorem State.mapPower_pump (f : Agent → Agent) (s : State) : (s.mapPower f).pump = s.pump := rfl
@[simp] theorem State.mapPower_scale (f : Agent → Agent) (s : State) : (s.mapPower f).scale = s.scale := rfl
@[simp] theorem State.mapPower_disp (f : Agent → Agent) (s : State) : (s.mapPower f).disp = s.disp := rfl
@[simp] theorem State.mapPower_carriage (f : Agent → Agent) (s : State) : (s.mapPower f).carriage = s.carriage := rfl
@[simp] theorem State.mapPower_lid (f : Agent → Agent) (s : State) : (s.mapPower f).lid = s.lid := rfl
@[simp] theorem State.mapPower_shake (f : Agent → Agent) (s : State) : (s.mapPower f).shake = s.shake := rfl
@[simp] theorem State.mapPower_line (f : Agent → Agent) (s : State) : (s.mapPower f).line = s.line := rfl
@[simp] theorem State.mapPower_roster (f : Agent → Agent) (s : State) : (s.mapPower f).roster = s.roster := rfl
@[simp] theorem State.mapPower_power (f : Agent → Agent) (s : State) : (s.mapPower f).power = f s.power := rfl
@[simp] theorem State.mapPower_air (f : Agent → Agent) (s : State) : (s.mapPower f).air = s.air := rfl
@[simp] theorem State.mapPower_mon (f : Agent → Agent) (s : State) : (s.mapPower f).mon = s.mon := rfl
@[simp] theorem State.mapPower_completion (f : Agent → Agent) (s : State) : (s.mapPower f).completion = s.completion := rfl
@[simp] theorem State.mapPower_free (f : Agent → Agent) (s : State) : (s.mapPower f).free = s.free := rfl
@[simp] theorem State.mapPower_pending (f : Agent → Agent) (s : State) : (s.mapPower f).pending = s.pending := rfl
@[simp] theorem State.mapAir_phase (f : Agent → Agent) (s : State) : (s.mapAir f).phase = s.phase := rfl
@[simp] theorem State.mapAir_inputs (f : Agent → Agent) (s : State) : (s.mapAir f).inputs = s.inputs := rfl
@[simp] theorem State.mapAir_cfg (f : Agent → Agent) (s : State) : (s.mapAir f).cfg = s.cfg := rfl
@[simp] theorem State.mapAir_store (f : Agent → Agent) (s : State) : (s.mapAir f).store = s.store := rfl
@[simp] theorem State.mapAir_port (f : Agent → Agent) (s : State) : (s.mapAir f).port = s.port := rfl
@[simp] theorem State.mapAir_events (f : Agent → Agent) (s : State) : (s.mapAir f).events = s.events := rfl
@[simp] theorem State.mapAir_jobs (f : Agent → Agent) (s : State) : (s.mapAir f).jobs = s.jobs := rfl
@[simp] theorem State.mapAir_cans (f : Agent → Agent) (s : State) : (s.mapAir f).cans = s.cans := rfl
@[simp] theorem State.mapAir_stir (f : Agent → Agent) (s : State) : (s.mapAir f).stir = s.stir := rfl
@[simp] theorem State.mapAir_pump (f : Agent → Agent) (s : State) : (s.mapAir f).pump = s.pump := rfl
@[simp] theorem State.mapAir_scale (f : Agent → Agent) (s : State) : (s.mapAir f).scale = s.scale := rfl
@[simp] theorem State.mapAir_disp (f : Agent → Agent) (s : State) : (s.mapAir f).disp = s.disp := rfl
@[simp] theorem State.mapAir_carriage (f : Agent → Agent) (s : State) : (s.mapAir f).carriage = s.carriage := rfl
@[simp] theorem State.mapAir_lid (f : Agent → Agent) (s : State) : (s.mapAir f).lid = s.lid := rfl
@[simp] theorem State.mapAir_shake (f : Agent → Agent) (s : State) : (s.mapAir f).shake = s.shake := rfl
@[simp] theorem State.mapAir_line (f : Agent → Agent) (s : State) : (s.mapAir f).line = s.line := rfl
@[simp] theorem State.mapAir_roster (f : Agent → Agent) (s : State) : (s.mapAir f).roster = s.roster := rfl
@[simp] theorem State.mapAir_power (f : Agent → Agent) (s : State) : (s.mapAir f).power = s.power := rfl
@[simp] theorem State.mapAir_air (f : Agent → Agent) (s : State) : (s.mapAir f).air = f s.air := rfl
@[simp] theorem State.mapAir_mon (f : Agent → Agent) (s : State) : (s.mapAir f).mon = s.mon := rfl
@[simp] theorem State.mapAir_completion (f : Agent → Agent) (s : State) : (s.mapAir f).completion = s.completion := rfl
@[simp] theorem State.mapAir_free (f : Agent → Agent) (s : State) : (s.mapAir f).free = s.free := rfl
@[simp] theorem State.mapAir_pending (f : Agent → Agent) (s : State) : (s.mapAir f).pending = s.pending := rfl
@[simp] theorem State.mapMon_phase (f : Monitor → Monitor) (s : State) : (s.mapMon f).phase = s.phase := rfl
@[simp] theorem State.mapMon_inputs (f : Monitor → Monitor) (s : State) : (s.mapMon f).inputs = s.inputs := rfl
@[simp] theorem State.mapMon_cfg (f : Monitor → Monitor) (s : State) : (s.mapMon f).cfg = s.cfg := rfl
@[simp] theorem State.mapMon_store (f : Monitor → Monitor) (s : State) : (s.mapMon f).store = s.store := rfl
@[simp] theorem State.mapMon_port (f : Monitor → Monitor) (s : State) : (s.mapMon f).port = s.port := rfl
@[simp] theorem State.mapMon_events (f : Monitor → Monitor) (s : State) : (s.mapMon f).events = s.events := rfl
@[simp] theorem State.mapMon_jobs (f : Monitor → Monitor) (s : State) : (s.mapMon f).jobs = s.jobs := rfl
@[simp] theorem State.mapMon_cans (f : Monitor → Monitor) (s : State) : (s.mapMon f).cans = s.cans := rfl
@[simp] theorem State.mapMon_stir (f : Monitor → Monitor) (s : State) : (s.mapMon f).stir = s.stir := rfl
@[simp] theorem State.mapMon_pump (f : Monitor → Monitor) (s : State) : (s.mapMon f).pump = s.pump := rfl
@[simp] theorem State.mapMon_scale (f : Monitor → Monitor) (s : State) : (s.mapMon f).scale = s.scale := rfl
@[simp] theorem State.mapMon_disp (f : Monitor → Monitor) (s : State) : (s.mapMon f).disp = s.disp := rfl
@[simp] theorem State.mapMon_carriage (f : Monitor → Monitor) (s : State) : (s.mapMon f).carriage = s.carriage := rfl
@[simp] theorem State.mapMon_lid (f : Monitor → Monitor) (s : State) : (s.mapMon f).lid = s.lid := rfl
@[simp] theorem State.mapMon_shake (f : Monitor → Monitor) (s : State) : (s.mapMon f).shake = s.shake := rfl
@[simp] theorem State.mapMon_line (f : Monitor → Monitor) (s : State) : (s.mapMon f).line = s.line := rfl
@[simp] theorem State.mapMon_roster (f : Monitor → Monitor) (s : State) : (s.mapMon f).roster = s.roster := rfl
@[simp] theorem State.mapMon_power (f : Monitor → Monitor) (s : State) : (s.mapMon f).power = s.power := rfl
@[simp] theorem State.mapMon_air (f : Monitor → Monitor) (s : State) : (s.mapMon f).air = s.air := rfl
@[simp] theorem State.mapMon_mon (f : Monitor → Monitor) (s : State) : (s.mapMon f).mon = f s.mon := rfl
@[simp] theorem State.mapMon_completion (f : Monitor → Monitor) (s : State) : (s.mapMon f).completion = s.completion := rfl
@[simp] theorem State.mapMon_free (f : Monitor → Monitor) (s : State) : (s.mapMon f).free = s.free := rfl
@[simp] theorem State.mapMon_pending (f : Monitor → Monitor) (s : State) : (s.mapMon f).pending = s.pending := rfl
@[simp] theorem State.mapCompletion_phase (f : List TinRecord → List TinRecord) (s : State) : (s.mapCompletion f).phase = s.phase := rfl
@[simp] theorem State.mapCompletion_inputs (f : List TinRecord → List TinRecord) (s : State) : (s.mapCompletion f).inputs = s.inputs := rfl
@[simp] theorem State.mapCompletion_cfg (f : List TinRecord → List TinRecord) (s : State) : (s.mapCompletion f).cfg = s.cfg := rfl
@[simp] theorem State.mapCompletion_store (f : List TinRecord → List TinRecord) (s : State) : (s.mapCompletion f).store = s.store := rfl
@[simp] theorem State.mapCompletion_port (f : List TinRecord → List TinRecord) (s : State) : (s.mapCompletion f).port = s.port := rfl
@[simp] theorem State.mapCompletion_events (f : List TinRecord → List TinRecord) (s : State) : (s.mapCompletion f).events = s.events := rfl
@[simp] theorem State.mapCompletion_jobs (f : List TinRecord → List TinRecord) (s : State) : (s.mapCompletion f).jobs = s.jobs := rfl
@[simp] theorem State.mapCompletion_cans (f : List TinRecord → List TinRecord) (s : State) : (s.mapCompletion f).cans = s.cans := rfl
@[simp] theorem State.mapCompletion_stir (f : List TinRecord → List TinRecord) (s : State) : (s.mapCompletion f).stir = s.stir := rfl
@[simp] theorem State.mapCompletion_pump (f : List TinRecord → List TinRecord) (s : State) : (s.mapCompletion f).pump = s.pump := rfl
@[simp] theorem State.mapCompletion_scale (f : List TinRecord → List TinRecord) (s : State) : (s.mapCompletion f).scale = s.scale := rfl
@[simp] theorem State.mapCompletion_disp (f : List TinRecord → List TinRecord) (s : State) : (s.mapCompletion f).disp = s.disp := rfl
@[simp] theorem State.mapCompletion_carriage (f : List TinRecord → List TinRecord) (s : State) : (s.mapCompletion f).carriage = s.carriage := rfl
@[simp] theorem State.mapCompletion_lid (f : List TinRecord → List TinRecord) (s : State) : (s.mapCompletion f).lid = s.lid := rfl
@[simp] theorem State.mapCompletion_shake (f : List TinRecord → List TinRecord) (s : State) : (s.mapCompletion f).shake = s.shake := rfl
@[simp] theorem State.mapCompletion_line (f : List TinRecord → List TinRecord) (s : State) : (s.mapCompletion f).line = s.line := rfl
@[simp] theorem State.mapCompletion_roster (f : List TinRecord → List TinRecord) (s : State) : (s.mapCompletion f).roster = s.roster := rfl
@[simp] theorem State.mapCompletion_power (f : List TinRecord → List TinRecord) (s : State) : (s.mapCompletion f).power = s.power := rfl
@[simp] theorem State.mapCompletion_air (f : List TinRecord → List TinRecord) (s : State) : (s.mapCompletion f).air = s.air := rfl
@[simp] theorem State.mapCompletion_mon (f : List TinRecord → List TinRecord) (s : State) : (s.mapCompletion f).mon = s.mon := rfl
@[simp] theorem State.mapCompletion_completion (f : List TinRecord → List TinRecord) (s : State) : (s.mapCompletion f).completion = f s.completion := rfl
@[simp] theorem State.mapCompletion_free (f : List TinRecord → List TinRecord) (s : State) : (s.mapCompletion f).free = s.free := rfl
@[simp] theorem State.mapCompletion_pending (f : List TinRecord → List TinRecord) (s : State) : (s.mapCompletion f).pending = s.pending := rfl
@[simp] theorem State.mapFree_phase (f : Nat → Nat) (s : State) : (s.mapFree f).phase = s.phase := rfl
@[simp] theorem State.mapFree_inputs (f : Nat → Nat) (s : State) : (s.mapFree f).inputs = s.inputs := rfl
@[simp] theorem State.mapFree_cfg (f : Nat → Nat) (s : State) : (s.mapFree f).cfg = s.cfg := rfl
@[simp] theorem State.mapFree_store (f : Nat → Nat) (s : State) : (s.mapFree f).store = s.store := rfl
@[simp] theorem State.mapFree_port (f : Nat → Nat) (s : State) : (s.mapFree f).port = s.port := rfl
@[simp] theorem State.mapFree_events (f : Nat → Nat) (s : State) : (s.mapFree f).events = s.events := rfl
@[simp] theorem State.mapFree_jobs (f : Nat → Nat) (s : State) : (s.mapFree f).jobs = s.jobs := rfl
@[simp] theorem State.mapFree_cans (f : Nat → Nat) (s : State) : (s.mapFree f).cans = s.cans := rfl
@[simp] theorem State.mapFree_stir (f : Nat → Nat) (s : State) : (s.mapFree f).stir = s.stir := rfl
@[simp] theorem State.mapFree_pump (f : Nat → Nat) (s : State) : (s.mapFree f).pump = s.pump := rfl
@[simp] theorem State.mapFree_scale (f : Nat → Nat) (s : State) : (s.mapFree f).scale = s.scale := rfl
@[simp] theorem State.mapFree_disp (f : Nat → Nat) (s : State) : (s.mapFree f).disp = s.disp := rfl
@[simp] theorem State.mapFree_carriage (f : Nat → Nat) (s : State) : (s.mapFree f).carriage = s.carriage := rfl
@[simp] theorem State.mapFree_lid (f : Nat → Nat) (s : State) : (s.mapFree f).lid = s.lid := rfl
@[simp] theorem State.mapFree_shake (f : Nat → Nat) (s : State) : (s.mapFree f).shake = s.shake := rfl
@[simp] theorem State.mapFree_line (f : Nat → Nat) (s : State) : (s.mapFree f).line = s.line := rfl
@[simp] theorem State.mapFree_roster (f : Nat → Nat) (s : State) : (s.mapFree f).roster = s.roster := rfl
@[simp] theorem State.mapFree_power (f : Nat → Nat) (s : State) : (s.mapFree f).power = s.power := rfl
@[simp] theorem State.mapFree_air (f : Nat → Nat) (s : State) : (s.mapFree f).air = s.air := rfl
@[simp] theorem State.mapFree_mon (f : Nat → Nat) (s : State) : (s.mapFree f).mon = s.mon := rfl
@[simp] theorem State.mapFree_completion (f : Nat → Nat) (s : State) : (s.mapFree f).completion = s.completion := rfl
@[simp] theorem State.mapFree_free (f : Nat → Nat) (s : State) : (s.mapFree f).free = f s.free := rfl
@[simp] theorem State.mapFree_pending (f : Nat → Nat) (s : State) : (s.mapFree f).pending = s.pending := rfl

@[simp] theorem reached_none (limit : Nat) : reached limit none = false := rfl
@[simp] theorem reached_some (limit n : Nat) : reached limit (some n) = decide (limit ≤ n) := rfl

/-- A timer that has reached its limit runs. -/
theorem reached_isSome {limit : Nat} {t : Option Nat} (h : reached limit t = true) : t.isSome = true := by
  cases t <;> simp_all

end Sys2Proof.Machine
end

