-- ==== Sys2Proof/Laws/KeptBase.lean ====
section
/-! SUPPORT. One lemma per shared operation: it keeps the queue of commands and the limits of Safety.lean. Here the ground:
the updates of one block. -/

namespace Sys2Proof.Laws

open Sys2Proof Sys2Proof.Machine Sys2Proof.Safety

/-- The queue of commands is `q`, and, where limits are asked for, every block is within them. -/
def Kept (q : List Instr) (lim : Prop) (s : State) : Prop := s.pending = q ∧ (lim → WithinLimits s)

variable {q : List Instr} {lim : Prop} {s : State}

@[simp] theorem kept_mapPhase (f : Phase → Phase) : Kept q lim (s.mapPhase f) ↔ Kept q lim s := Iff.rfl
@[simp] theorem kept_mapInputs (f : Inputs → Inputs) : Kept q lim (s.mapInputs f) ↔ Kept q lim s := Iff.rfl
@[simp] theorem kept_mapCfg (f : Loaded → Loaded) : Kept q lim (s.mapCfg f) ↔ Kept q lim s := Iff.rfl
@[simp] theorem kept_mapStore (f : Store → Store) : Kept q lim (s.mapStore f) ↔ Kept q lim s := Iff.rfl
@[simp] theorem kept_mapPort (f : Port → Port) : Kept q lim (s.mapPort f) ↔ Kept q lim s := Iff.rfl
@[simp] theorem kept_mapEvents (f : Events → Events) : Kept q lim (s.mapEvents f) ↔ Kept q lim s := Iff.rfl
@[simp] theorem kept_mapPump (f : PumpDrive → PumpDrive) : Kept q lim (s.mapPump f) ↔ Kept q lim s := Iff.rfl
@[simp] theorem kept_mapDisp (f : DispenseBay → DispenseBay) : Kept q lim (s.mapDisp f) ↔ Kept q lim s := Iff.rfl
@[simp] theorem kept_mapCarriage (f : Carriage → Carriage) : Kept q lim (s.mapCarriage f) ↔ Kept q lim s := Iff.rfl
@[simp] theorem kept_mapLid (f : LidBay → LidBay) : Kept q lim (s.mapLid f) ↔ Kept q lim s := Iff.rfl
@[simp] theorem kept_mapShake (f : ShakeBay → ShakeBay) : Kept q lim (s.mapShake f) ↔ Kept q lim s := Iff.rfl
@[simp] theorem kept_mapRoster (f : Vector RosterEntry 16 → Vector RosterEntry 16) : Kept q lim (s.mapRoster f) ↔ Kept q lim s := Iff.rfl
@[simp] theorem kept_mapPower (f : Agent → Agent) : Kept q lim (s.mapPower f) ↔ Kept q lim s := Iff.rfl
@[simp] theorem kept_mapAir (f : Agent → Agent) : Kept q lim (s.mapAir f) ↔ Kept q lim s := Iff.rfl
@[simp] theorem kept_mapMon (f : Monitor → Monitor) : Kept q lim (s.mapMon f) ↔ Kept q lim s := Iff.rfl
@[simp] theorem kept_mapFree (f : Nat → Nat) : Kept q lim (s.mapFree f) ↔ Kept q lim s := Iff.rfl

theorem kept_mapJobs {f : JobQueue → JobQueue} (h : Kept q lim s) (hf : jobsFit s.jobs → jobsFit (f s.jobs)) :
    Kept q lim (s.mapJobs f) :=
  ⟨h.1, fun hl => ⟨hf (h.2 hl).1, (h.2 hl).2⟩⟩

theorem kept_mapCans {f : Vector Canister 16 → Vector Canister 16} (h : Kept q lim s)
    (hf : cansFit s.cans → cansFit (f s.cans)) : Kept q lim (s.mapCans f) :=
  ⟨h.1, fun hl => ⟨(h.2 hl).1, hf (h.2 hl).2.1, (h.2 hl).2.2⟩⟩

theorem kept_mapStir {f : StirManager → StirManager} (h : Kept q lim s) (hf : stirsFit s.stir → stirsFit (f s.stir)) :
    Kept q lim (s.mapStir f) :=
  ⟨h.1, fun hl => ⟨(h.2 hl).1, (h.2 hl).2.1, hf (h.2 hl).2.2.1, (h.2 hl).2.2.2⟩⟩

theorem kept_mapScale {f : Scale → Scale} (h : Kept q lim s) (hf : zeroFits s.scale → zeroFits (f s.scale)) :
    Kept q lim (s.mapScale f) :=
  ⟨h.1, fun hl => ⟨(h.2 hl).1, (h.2 hl).2.1, (h.2 hl).2.2.1, hf (h.2 hl).2.2.2.1, (h.2 hl).2.2.2.2⟩⟩

theorem kept_mapLine {f : LineCtl → LineCtl} (h : Kept q lim s) (hf : lineFits s.line → lineFits (f s.line)) :
    Kept q lim (s.mapLine f) :=
  ⟨h.1, fun hl =>
    ⟨(h.2 hl).1, (h.2 hl).2.1, (h.2 hl).2.2.1, (h.2 hl).2.2.2.1, hf (h.2 hl).2.2.2.2.1, (h.2 hl).2.2.2.2.2⟩⟩

theorem kept_mapCompletion {f : List TinRecord → List TinRecord} (h : Kept q lim s)
    (hf : recordsFit s.completion → recordsFit (f s.completion)) : Kept q lim (s.mapCompletion f) :=
  ⟨h.1, fun hl =>
    ⟨(h.2 hl).1, (h.2 hl).2.1, (h.2 hl).2.2.1, (h.2 hl).2.2.2.1, (h.2 hl).2.2.2.2.1, hf (h.2 hl).2.2.2.2.2⟩⟩

theorem kept_mapCan {i : Slot} {f : Canister → Canister} (h : Kept q lim s)
    (hf : canFits s.cans[i] → canFits (f s.cans[i])) : Kept q lim (s.mapCan i f) := by
  refine kept_mapCans h fun hc j => ?_
  by_cases hij : (i : Nat) = j
  · have : i = j := Fin.ext hij
    subst this
    simpa using hf (hc i)
  · have : (s.cans.set i (f s.cans[i]))[j] = s.cans[j] := by
      simp only [Fin.getElem_fin]
      exact Vector.getElem_set_ne _ _ hij
    rw [this]
    exact hc j

@[simp] theorem settleCanister_level (k : Option Nat) (c : Canister) : (settleCanister k c).level = c.level := by
  unfold settleCanister; repeat' split
  all_goals rfl

theorem settleCanister_miss (k : Option Nat) (c : Canister) : (settleCanister k c).miss ≤ c.miss := by
  unfold settleCanister; repeat' split
  all_goals first | exact Nat.le_refl _ | exact Nat.zero_le _

@[simp] theorem clearedCanister_level (c : Canister) : (clearedCanister c).level = c.level := by
  unfold clearedCanister; repeat' split
  all_goals rfl

theorem clearedCanister_miss (c : Canister) : (clearedCanister c).miss ≤ c.miss := by
  unfold clearedCanister; repeat' split
  all_goals exact Nat.zero_le _


@[simp] theorem kept_mapScale_zero {f : Scale → Scale} (h : Kept q lim s) (hf : (f s.scale).zero = s.scale.zero) :
    Kept q lim (s.mapScale f) :=
  kept_mapScale h fun hz => by unfold zeroFits at *; rw [hf]; exact hz

@[simp] theorem kept_mapStir_shorter {f : StirManager → StirManager} (h : Kept q lim s)
    (hf : (f s.stir).runs.length ≤ s.stir.runs.length) : Kept q lim (s.mapStir f) :=
  kept_mapStir h fun hr => Nat.le_trans hf hr

@[simp] theorem kept_mapLine_same {f : LineCtl → LineCtl} (h : Kept q lim s) (hd : (f s.line).drops = s.line.drops)
    (hl : (f s.line).listens = s.line.listens) (hq : (f s.line).queue = s.line.queue) : Kept q lim (s.mapLine f) :=
  kept_mapLine h fun hz => by unfold lineFits at *; rw [hd, hl, hq]; exact hz

@[simp] theorem kept_mapLine_within {f : LineCtl → LineCtl} (h : Kept q lim s)
    (hd : s.line.drops ≤ 3 → (f s.line).drops ≤ 3) (hl : s.line.listens ≤ 4 → (f s.line).listens ≤ 4)
    (hq : (s.line.queue.Pairwise fun f g => f.same g = false) → ((f s.line).queue.Pairwise fun f g => f.same g = false)) :
    Kept q lim (s.mapLine f) :=
  kept_mapLine h fun hz => ⟨hd hz.1, hl hz.2.1, hq hz.2.2⟩

@[simp] theorem kept_mapCan_same {i : Slot} {f : Canister → Canister} (h : Kept q lim s)
    (hv : (f s.cans[i]).level = s.cans[i].level) (hm : (f s.cans[i]).miss = s.cans[i].miss) : Kept q lim (s.mapCan i f) :=
  kept_mapCan h fun hz => by unfold canFits at *; rw [hv, hm]; exact hz

theorem kept_mapCan_lower {i : Slot} {f : Canister → Canister} (h : Kept q lim s)
    (hv : (f s.cans[i]).level ≤ s.cans[i].level) (hm : (f s.cans[i]).miss ≤ s.cans[i].miss) : Kept q lim (s.mapCan i f) :=
  kept_mapCan h fun hz => ⟨Nat.le_trans hv hz.1, Nat.le_trans hm hz.2⟩

theorem kept_mapCans_map {f : Canister → Canister} (h : Kept q lim s) (hv : ∀ c, (f c).level = c.level)
    (hm : ∀ c, (f c).miss = c.miss) : Kept q lim (s.mapCans fun v => v.map f) :=
  kept_mapCans h fun hc i => by
    have := hc i
    unfold canFits at *
    simpa [hv, hm] using this

@[simp] theorem kept_ite {c : Prop} [Decidable c] {a b : State} (ha : Kept q lim a) (hb : Kept q lim b) :
    Kept q lim (if c then a else b) := by split <;> assumption

theorem kept_foldl {α : Type} {f : State → α → State} (hf : ∀ t a, Kept q lim t → Kept q lim (f t a)) :
    ∀ (l : List α) {s : State}, Kept q lim s → Kept q lim (l.foldl f s)
  | [], _, h => h
  | a :: l, _, h => kept_foldl hf l (hf _ a h)

@[simp] theorem kept_mapAgent (p : Pool) (f : Agent → Agent) : Kept q lim (s.mapAgent p f) ↔ Kept q lim s := by
  cases p <;> exact Iff.rfl

/-! ## The transmit queue -/

theorem same_symm (f g : Frame) : f.same g = g.same f := by unfold Frame.same; simp [eq_comm]

theorem insertFrame_mem {f x : Frame} {l : List Frame} (h : x ∈ insertFrame f l) : x = f ∨ x ∈ l := by
  induction l with
  | nil => simpa [insertFrame] using h
  | cons g gs ih =>
    unfold insertFrame at h
    split at h
    · simpa using h
    · rcases List.mem_cons.1 h with h | h
      · simp [h]
      · rcases ih h with h | h <;> simp [h]

theorem insertFrame_distinct {f : Frame} {l : List Frame} (hl : l.Pairwise fun f g => f.same g = false)
    (hf : ∀ g ∈ l, f.same g = false) : (insertFrame f l).Pairwise fun f g => f.same g = false := by
  induction l with
  | nil => simp [insertFrame]
  | cons g gs ih =>
    unfold insertFrame
    split
    · exact List.pairwise_cons.2 ⟨hf, hl⟩
    · refine List.pairwise_cons.2 ⟨fun x hx => ?_, ih (List.pairwise_cons.1 hl).2 fun y hy => hf y (by simp [hy])⟩
      rcases insertFrame_mem hx with rfl | hx
      · rw [same_symm]; exact hf g (by simp)
      · exact (List.pairwise_cons.1 hl).1 x hx

theorem map_same_distinct {φ : Frame → Frame} (hφ : ∀ g, (φ g).kind = g.kind ∧ (φ g).pool = g.pool) {l : List Frame}
    (hl : l.Pairwise fun f g => f.same g = false) : (l.map φ).Pairwise fun f g => f.same g = false := by
  rw [List.pairwise_map]
  refine hl.imp fun {a b} hab => ?_
  have ha := hφ a
  have hb := hφ b
  unfold Frame.same at *
  rw [ha.1, ha.2, hb.1, hb.2]; exact hab

theorem putFrame_distinct {f : Frame} {l : List Frame} (hl : l.Pairwise fun f g => f.same g = false) :
    (putFrame f l).Pairwise fun f g => f.same g = false := by
  unfold putFrame
  split
  · refine map_same_distinct (fun g => ?_) hl
    split
    · rename_i h; simp [Frame.same] at h; exact h
    · exact ⟨rfl, rfl⟩
  · rename_i h
    refine insertFrame_distinct hl fun g hg => ?_
    simp at h
    exact h g hg

@[simp] theorem filter_distinct {p : Frame → Bool} {l : List Frame} (hl : l.Pairwise fun f g => f.same g = false) :
    (l.filter p).Pairwise fun f g => f.same g = false := hl.filter p

/-! ## Places of the job queue -/

theorem insertJob_length (j : Job) (l : List Job) : (insertJob j l).length = l.length + 1 := by
  induction l with
  | nil => rfl
  | cons k ks ih => unfold insertJob; split <;> simp [ih]

theorem filter_ne_length {l : List Job} {id : Nat} {j : Job} (h : j ∈ l) (hj : j.id = id) :
    (l.filter (·.id != id)).length < l.length := by
  refine List.length_filter_lt_length_iff_exists.2 ⟨j, h, ?_⟩
  simp [hj]

theorem issueTin_fits {j : Job} {w : JobQueue} (h : firstEligible w = some j) (hw : jobsFit w) :
    jobsFit (issueTin j w) := by
  have hm : j ∈ w.records := List.mem_of_find?_eq_some h
  unfold jobsFit issueTin at *
  dsimp only
  split
  · have := filter_ne_length hm rfl
    simp only [JobQueue.places, List.length_append, List.length_singleton] at *
    omega
  · simpa [JobQueue.places] using hw

theorem returnTin_fits {id : Nat} {w : JobQueue} (hw : jobsFit w) : jobsFit (returnTin id w) := by
  unfold jobsFit returnTin at *
  split
  · rename_i j h
    have hm : j ∈ w.reserved := List.mem_of_find?_eq_some h
    have hid : j.id = id := by simpa using List.find?_some h
    have := filter_ne_length hm hid
    simp only [JobQueue.places, insertJob_length] at *
    omega
  · simpa [JobQueue.places] using hw

theorem filterReserved_fits {p : Job → Bool} {w : JobQueue} (hw : jobsFit w) :
    jobsFit { w with reserved := w.reserved.filter p } := by
  have := List.length_filter_le p w.reserved
  unfold jobsFit JobQueue.places at *
  simp only
  omega

theorem removeJob_fits {id : Nat} {w : JobQueue} (hw : jobsFit w) : jobsFit (removeJob id w) := by
  have h1 := List.length_filter_le (fun j : Job => j.id != id) w.records
  have h2 := List.length_filter_le (fun j : Job => j.id != id) w.reserved
  unfold jobsFit removeJob JobQueue.places at *
  simp only
  omega

theorem reprioritise_fits {id p : Nat} {w : JobQueue} (hw : jobsFit w) : jobsFit (reprioritise id p w) := by
  unfold jobsFit reprioritise at *
  dsimp only
  split
  · rename_i j h
    have hm : j ∈ w.records := List.mem_of_find?_eq_some h
    have hid : j.id = id := by simpa using List.find?_some h
    have := filter_ne_length hm hid
    simp only [JobQueue.places, insertJob_length, List.length_map] at *
    omega
  · simpa [JobQueue.places] using hw

theorem enqueue_fits {j : Job} {w : JobQueue} (hw : ¬ Config.jobPlaces ≤ w.places) : jobsFit (enqueue j w) := by
  unfold jobsFit enqueue stepArrival renumber JobQueue.places at *
  split <;> simp only [insertJob_length, List.length_map] <;> omega

end Sys2Proof.Laws
end

