-- ==== Sys2Proof/Laws/KeptLine.lean ====
section
/-! SUPPORT. Every operation keeps the queue of commands and the limits of Safety.lean: scale, job queue, line controller and claim agents. -/

namespace Sys2Proof.Laws

open Sys2Proof Sys2Proof.Machine Sys2Proof.Safety

variable {q : List Instr} {lim : Prop} {s : State}

@[simp] theorem setFault_kept (b : BayId) (k : Option FaultKind) (h : Kept q lim s) : Kept q lim (State.setFault b k s) := by
  unfold State.setFault
  try dsimp only
  repeat' split
  all_goals first | assumption | (simp (maxDischargeDepth := 30) [*]; done) | simp (maxDischargeDepth := 30) (contextual := true) [*]

@[simp] theorem mapTin_kept (b : BayId) (f : TinRecord → TinRecord) (h : Kept q lim s) : Kept q lim (State.mapTin b f s) := by
  unfold State.mapTin
  try dsimp only
  repeat' split
  all_goals first | assumption | (simp (maxDischargeDepth := 30) [*]; done) | simp (maxDischargeDepth := 30) (contextual := true) [*]

@[simp] theorem mapCarried_kept (f : TinRecord → TinRecord) (h : Kept q lim s) : Kept q lim (State.mapCarried f s) := by
  unfold State.mapCarried
  try dsimp only
  repeat' split
  all_goals first | assumption | (simp (maxDischargeDepth := 30) [*]; done) | simp (maxDischargeDepth := 30) (contextual := true) [*]

@[simp] theorem setFlag_kept (f : EventFlag) (h : Kept q lim s) : Kept q lim (setFlag f s) := by
  unfold setFlag
  try dsimp only
  repeat' split
  all_goals first | assumption | (simp (maxDischargeDepth := 30) [*]; done) | simp (maxDischargeDepth := 30) (contextual := true) [*]

@[simp] theorem clearFlag_kept (f : EventFlag) (h : Kept q lim s) : Kept q lim (clearFlag f s) := by
  unfold clearFlag
  try dsimp only
  repeat' split
  all_goals first | assumption | (simp (maxDischargeDepth := 30) [*]; done) | simp (maxDischargeDepth := 30) (contextual := true) [*]

@[simp] theorem openRequest_kept (h : Kept q lim s) : Kept q lim (openRequest s) := by
  unfold openRequest
  try dsimp only
  repeat' split
  all_goals first | assumption | (simp (maxDischargeDepth := 30) [*]; done) | simp (maxDischargeDepth := 30) (contextual := true) [*]

@[simp] theorem closeRequest_kept (h : Kept q lim s) : Kept q lim (closeRequest s) := by
  unfold closeRequest
  try dsimp only
  repeat' split
  all_goals first | assumption | (simp (maxDischargeDepth := 30) [*]; done) | simp (maxDischargeDepth := 30) (contextual := true) [*]

@[simp] theorem blankTrigger_kept (h : Kept q lim s) : Kept q lim (blankTrigger s) := by
  unfold blankTrigger
  try dsimp only
  repeat' split
  all_goals first | assumption | (simp (maxDischargeDepth := 30) [*]; done) | simp (maxDischargeDepth := 30) (contextual := true) [*]

@[simp] theorem blankExpires_kept (h : Kept q lim s) : Kept q lim (blankExpires s) := by
  unfold blankExpires
  split <;> simp [h]

/-- A trigger's new period is not ended by the expiry of the timer it has started again (R65, R66). -/
theorem blankExpires_blankTrigger (s : State) (h : 0 < s.cfg.general.blankTime) :
    blankExpires (blankTrigger s) = blankTrigger s := by
  simp [blankExpires, blankTrigger, Nat.ne_of_gt h]

@[simp] theorem trackZero_kept (reading : Int) (h : Kept q lim s) : Kept q lim (trackZero reading s) := by
  unfold trackZero
  split
  · refine kept_mapScale h fun _ => ?_
    unfold zeroFits absorbed Config.zeroLimit
    dsimp only
    omega
  · exact h

@[simp] theorem askTin_kept (h : Kept q lim s) : Kept q lim (askTin s) := by
  unfold askTin
  split
  · split
    · exact h
    · rename_i j hj
      simp [kept_mapJobs h (fun hw => issueTin_fits hj hw)]
  · exact h

@[simp] theorem commitTin_kept (id : Nat) (h : Kept q lim s) : Kept q lim (commitTin id s) := kept_mapJobs h fun hw => filterReserved_fits hw

@[simp] theorem withdrawTin_kept (h : Kept q lim s) : Kept q lim (withdrawTin s) := by
  unfold withdrawTin
  split
  · exact h
  · dsimp only
    split
    · simp [h]
    · simp [kept_mapJobs h (fun hw => returnTin_fits hw)]

@[simp] theorem withdrawCall_kept (h : Kept q lim s) : Kept q lim (withdrawCall s) := by
  unfold withdrawCall
  try dsimp only
  repeat' split
  all_goals first | assumption | (simp (maxDischargeDepth := 30) [*]; done) | simp (maxDischargeDepth := 30) (contextual := true) [*]

@[simp] theorem withdrawStandingCall_kept (h : Kept q lim s) : Kept q lim (withdrawStandingCall s) := by
  unfold withdrawStandingCall
  try dsimp only
  repeat' split
  all_goals first | assumption | (simp (maxDischargeDepth := 30) [*]; done) | simp (maxDischargeDepth := 30) (contextual := true) [*]

@[simp] theorem placeFrame_kept (f : Frame) (h : Kept q lim s) : Kept q lim (placeFrame f s) := by
  unfold placeFrame
  split
  · refine kept_mapLine_within h (fun hd => ?_) (fun hl => ?_) (fun hq => ?_)
    · dsimp only; split <;> exact hd
    · dsimp only; split <;> exact hl
    · exact putFrame_distinct hq
  · exact h

@[simp] theorem withdrawFrame_kept (kind : NoticeKind) (pool : Pool) (h : Kept q lim s) : Kept q lim (withdrawFrame kind pool s) := by
  unfold withdrawFrame
  refine kept_mapLine_within h (fun hd => ?_) (fun hl => ?_) (fun hq => ?_)
  · dsimp only; split <;> exact hd
  · dsimp only; split <;> exact hl
  · exact filter_distinct hq

@[simp] theorem reportHeld_kept (p : Pool) (h : Kept q lim s) : Kept q lim (reportHeld p s) := by
  unfold reportHeld
  try dsimp only
  repeat' split
  all_goals first | assumption | (simp (maxDischargeDepth := 30) [*]; done) | simp (maxDischargeDepth := 30) (contextual := true) [*]

@[simp] theorem grantOwn_kept (p : Pool) (a : Nat) (h : Kept q lim s) : Kept q lim (grantOwn p a s) := by
  unfold grantOwn
  try dsimp only
  repeat' split
  all_goals first | assumption | (simp (maxDischargeDepth := 30) [*]; done) | simp (maxDischargeDepth := 30) (contextual := true) [*]

@[simp] theorem placeWait_kept (p : Pool) (h : Kept q lim s) : Kept q lim (placeWait p s) := by
  unfold placeWait
  try dsimp only
  repeat' split
  all_goals first | assumption | (simp (maxDischargeDepth := 30) [*]; done) | simp (maxDischargeDepth := 30) (contextual := true) [*]

@[simp] theorem beginWait_kept (p : Pool) (h : Kept q lim s) : Kept q lim (beginWait p s) := by
  unfold beginWait
  try dsimp only
  repeat' split
  all_goals first | assumption | (simp (maxDischargeDepth := 30) [*]; done) | simp (maxDischargeDepth := 30) (contextual := true) [*]

@[simp] theorem placeClaim_kept (p : Pool) (h : Kept q lim s) : Kept q lim (placeClaim p s) := by
  unfold placeClaim
  try dsimp only
  repeat' split
  all_goals first | assumption | (simp (maxDischargeDepth := 30) [*]; done) | simp (maxDischargeDepth := 30) (contextual := true) [*]

@[simp] theorem tryClaim_kept (p : Pool) (h : Kept q lim s) : Kept q lim (tryClaim p s) := by
  unfold tryClaim
  try dsimp only
  repeat' split
  all_goals first | assumption | (simp (maxDischargeDepth := 30) [*]; done) | simp (maxDischargeDepth := 30) (contextual := true) [*]

@[simp] theorem tryBoth_kept (h : Kept q lim s) : Kept q lim (tryBoth s) := by
  unfold tryBoth
  try dsimp only
  repeat' split
  all_goals first | assumption | (simp (maxDischargeDepth := 30) [*]; done) | simp (maxDischargeDepth := 30) (contextual := true) [*]

@[simp] theorem raiseCount_kept (p : Pool) (h : Kept q lim s) : Kept q lim (raiseCount p s) := by
  unfold raiseCount
  try dsimp only
  repeat' split
  all_goals first | assumption | (simp (maxDischargeDepth := 30) [*]; done) | simp (maxDischargeDepth := 30) (contextual := true) [*]

@[simp] theorem askClaim_kept (p : Pool) (a : Nat) (h : Kept q lim s) : Kept q lim (askClaim p a s) := by
  unfold askClaim
  try dsimp only
  repeat' split
  all_goals first | assumption | (simp (maxDischargeDepth := 30) [*]; done) | simp (maxDischargeDepth := 30) (contextual := true) [*]

@[simp] theorem lowerClaim_kept (p : Pool) (b : Nat) (h : Kept q lim s) : Kept q lim (lowerClaim p b s) := by
  unfold lowerClaim
  try dsimp only
  repeat' split
  all_goals first | assumption | (simp (maxDischargeDepth := 30) [*]; done) | simp (maxDischargeDepth := 30) (contextual := true) [*]

@[simp] theorem releaseOrder_kept (p : Pool) (h : Kept q lim s) : Kept q lim (releaseOrder p s) := by
  unfold releaseOrder
  try dsimp only
  repeat' split
  all_goals first | assumption | (simp (maxDischargeDepth := 30) [*]; done) | simp (maxDischargeDepth := 30) (contextual := true) [*]

@[simp] theorem giveUp_kept (p : Pool) (h : Kept q lim s) : Kept q lim (giveUp p s) := by
  unfold giveUp
  try dsimp only
  repeat' split
  all_goals first | assumption | (simp (maxDischargeDepth := 30) [*]; done) | simp (maxDischargeDepth := 30) (contextual := true) [*]

@[simp] theorem judgeOwn_kept (p : Pool) (h : Kept q lim s) : Kept q lim (judgeOwn p s) := by
  unfold judgeOwn
  try dsimp only
  repeat' split
  all_goals first | assumption | (simp (maxDischargeDepth := 30) [*]; done) | simp (maxDischargeDepth := 30) (contextual := true) [*]

@[simp] theorem judgeWithdrawn_kept (p : Pool) (a : Nat) (h : Kept q lim s) : Kept q lim (judgeWithdrawn p a s) := by
  unfold judgeWithdrawn
  try dsimp only
  repeat' split
  all_goals first | assumption | (simp (maxDischargeDepth := 30) [*]; done) | simp (maxDischargeDepth := 30) (contextual := true) [*]

@[simp] theorem claimLost_kept (p : Pool) (h : Kept q lim s) : Kept q lim (claimLost p s) := by
  unfold claimLost
  try dsimp only
  repeat' split
  all_goals first | assumption | (simp (maxDischargeDepth := 30) [*]; done) | simp (maxDischargeDepth := 30) (contextual := true) [*]

@[simp] theorem adjustDone_kept (p : Pool) (b : Nat) (h : Kept q lim s) : Kept q lim (adjustDone p b s) := by
  unfold adjustDone
  try dsimp only
  repeat' split
  all_goals first | assumption | (simp (maxDischargeDepth := 30) [*]; done) | simp (maxDischargeDepth := 30) (contextual := true) [*]

@[simp] theorem releaseDone_kept (p : Pool) (h : Kept q lim s) : Kept q lim (releaseDone p s) := by
  unfold releaseDone
  try dsimp only
  repeat' split
  all_goals first | assumption | (simp (maxDischargeDepth := 30) [*]; done) | simp (maxDischargeDepth := 30) (contextual := true) [*]

@[simp] theorem enterLine_kept (st : LineCtlState) (h : Kept q lim s) : Kept q lim (enterLine st s) := by
  unfold enterLine
  try dsimp only
  repeat' split
  all_goals first | assumption | (simp (maxDischargeDepth := 30) [*]; done) | simp (maxDischargeDepth := 30) (contextual := true) [*]

@[simp] theorem returnClaim_kept (p : Pool) (h : Kept q lim s) : Kept q lim (returnClaim p s) := by
  unfold returnClaim
  try dsimp only
  repeat' split
  all_goals first | assumption | (simp (maxDischargeDepth := 30) [*]; done) | simp (maxDischargeDepth := 30) (contextual := true) [*]

@[simp] theorem downOnThird_kept (h : Kept q lim s) : Kept q lim (downOnThird s) := by
  unfold downOnThird
  try dsimp only
  repeat' split
  all_goals first | assumption | (simp (maxDischargeDepth := 30) [*]; done) | simp (maxDischargeDepth := 30) (contextual := true) [*]

@[simp] theorem returnFromDown_kept (h : Kept q lim s) : Kept q lim (returnFromDown s) := by
  unfold returnFromDown
  try dsimp only
  repeat' split
  all_goals first | assumption | (simp (maxDischargeDepth := 30) [*]; done) | simp (maxDischargeDepth := 30) (contextual := true) [*]

@[simp] theorem reportSent_kept (a : Attempt) (h : Kept q lim s) : Kept q lim (reportSent a s) := by
  unfold reportSent
  try dsimp only
  repeat' split
  all_goals first | assumption | (simp (maxDischargeDepth := 30) [*]; done) | simp (maxDischargeDepth := 30) (contextual := true) [*]

@[simp] theorem reportUnsent_kept (f : Frame) (h : Kept q lim s) : Kept q lim (reportUnsent f s) := by
  unfold reportUnsent
  try dsimp only
  repeat' split
  all_goals first | assumption | (simp (maxDischargeDepth := 30) [*]; done) | simp (maxDischargeDepth := 30) (contextual := true) [*]

@[simp] theorem countDrop_kept (h : Kept q lim s) : Kept q lim (countDrop s) := downOnThird_kept (kept_mapLine_within h (fun _ => Nat.min_le_left _ _) id id)

@[simp] theorem unqueue_kept (f : Frame) (h : Kept q lim s) : Kept q lim (unqueue f s) := kept_mapLine_within h id id fun hq => filter_distinct hq

@[simp] theorem startFrame_kept (h : Kept q lim s) : Kept q lim (startFrame s) := by
  unfold startFrame
  try dsimp only
  repeat' split
  all_goals first | assumption | (simp (maxDischargeDepth := 30) [*]; done) | simp (maxDischargeDepth := 30) (contextual := true) [*]

@[simp] theorem attemptFailed_kept (counted : Bool) (a : Attempt) (h : Kept q lim s) : Kept q lim (attemptFailed counted a s) := by
  unfold attemptFailed
  repeat' split
  all_goals first
    | assumption
    | (simp (maxDischargeDepth := 30) [*]; done)
    | refine kept_mapLine_within h id id fun hq => map_same_distinct (fun g => ?_) hq
  split <;> exact ⟨rfl, rfl⟩

@[simp] theorem endAttempt_kept (idle : Nat) (h : Kept q lim s) : Kept q lim (endAttempt idle s) := by
  unfold endAttempt
  try dsimp only
  repeat' split
  all_goals first | assumption | (simp (maxDischargeDepth := 30) [*]; done) | simp (maxDischargeDepth := 30) (contextual := true) [*]

@[simp] theorem frameDone_kept (a : Attempt) (h : Kept q lim s) : Kept q lim (frameDone a s) := by
  unfold frameDone
  try dsimp only
  repeat' split
  all_goals first | assumption | (simp (maxDischargeDepth := 30) [*]; done) | simp (maxDischargeDepth := 30) (contextual := true) [*]

@[simp] theorem barLine_kept (h : Kept q lim s) : Kept q lim (barLine s) := by
  have h1 : Kept q lim (enterLine .barred (s.mapLine fun c => { c with queue := [], attempt := none, beacon := none })) := by
    simp [h]
  exact (kept_mapEvents _).2 ((kept_mapMon _).2 (kept_foldl (fun t f ht => reportUnsent_kept f ht) s.line.queue h1))

@[simp] theorem supersedeBeacon_kept (h : Kept q lim s) : Kept q lim (supersedeBeacon s) := by
  unfold supersedeBeacon
  split
  · split
    · exact unqueue_kept _ (kept_mapLine_same h rfl rfl rfl)
    · exact countDrop_kept (unqueue_kept _ h)
  · exact h

@[simp] theorem placeBeacon_kept (h : Kept q lim s) : Kept q lim (placeBeacon s) := by
  unfold placeBeacon
  try dsimp only
  repeat' split
  all_goals first | assumption | (simp (maxDischargeDepth := 30) [*]; done) | simp (maxDischargeDepth := 30) (contextual := true) [*]

@[simp] theorem countListening_kept (h : Kept q lim s) : Kept q lim (countListening s) := by
  have h1 : Kept q lim (s.mapLine fun c => { c with listens := min 4 (c.listens + 1) }) :=
    kept_mapLine_within h id (fun _ => Nat.min_le_left _ _) id
  unfold countListening
  dsimp only
  split
  · split
    · exact tryBoth_kept (enterLine_kept _ h1)
    · exact h1
  · exact h

@[simp] theorem beaconExpiry_kept (h : Kept q lim s) : Kept q lim (beaconExpiry s) := by
  unfold beaconExpiry
  try dsimp only
  repeat' split
  all_goals first | assumption | (simp (maxDischargeDepth := 30) [*]; done) | simp (maxDischargeDepth := 30) (contextual := true) [*]

@[simp] theorem startLine_kept (h : Kept q lim s) : Kept q lim (startLine s) := by
  unfold startLine
  try dsimp only
  repeat' split
  all_goals first | assumption | (simp (maxDischargeDepth := 30) [*]; done) | simp (maxDischargeDepth := 30) (contextual := true) [*]

@[simp] theorem mapEntry_kept (i : Station) (f : RosterEntry → RosterEntry) (h : Kept q lim s) : Kept q lim (State.mapEntry i f s) := by
  unfold State.mapEntry
  try dsimp only
  repeat' split
  all_goals first | assumption | (simp (maxDischargeDepth := 30) [*]; done) | simp (maxDischargeDepth := 30) (contextual := true) [*]

@[simp] theorem judgePeer_kept (src : Station) (p : Pool) (a : Nat) (h : Kept q lim s) : Kept q lim (judgePeer src p a s) := by
  unfold judgePeer
  try dsimp only
  repeat' split
  all_goals first | assumption | (simp (maxDischargeDepth := 30) [*]; done) | simp (maxDischargeDepth := 30) (contextual := true) [*]

@[simp] theorem adjustPeer_kept (src : Station) (p : Pool) (a : Nat) (h : Kept q lim s) : Kept q lim (adjustPeer src p a s) := by
  unfold adjustPeer
  try dsimp only
  repeat' split
  all_goals first | assumption | (simp (maxDischargeDepth := 30) [*]; done) | simp (maxDischargeDepth := 30) (contextual := true) [*]

@[simp] theorem takeAdjust_kept (src : Station) (p : Pool) (a : Nat) (h : Kept q lim s) : Kept q lim (takeAdjust src p a s) := by
  unfold takeAdjust
  split
  · exact tryBoth_kept (adjustPeer_kept src p a h)
  · exact adjustPeer_kept src p a h

theorem thenTell_kept {act : State → State} (ha : Kept q lim (act s)) : Kept q lim (thenTell act s) := tryBoth_kept ha

@[simp] theorem releasePeer_kept (src : Station) (p : Pool) (h : Kept q lim s) : Kept q lim (releasePeer src p s) := by
  unfold releasePeer
  try dsimp only
  repeat' split
  all_goals first | assumption | (simp (maxDischargeDepth := 30) [*]; done) | simp (maxDischargeDepth := 30) (contextual := true) [*]

@[simp] theorem waitPeer_kept (src : Station) (p : Pool) (amount count : Nat) (h : Kept q lim s) : Kept q lim (waitPeer src p amount count s) := by
  unfold waitPeer
  try dsimp only
  repeat' split
  all_goals first | assumption | (simp (maxDischargeDepth := 30) [*]; done) | simp (maxDischargeDepth := 30) (contextual := true) [*]

@[simp] theorem beaconPeer_kept (src : Station) (b : Beacon) (h : Kept q lim s) : Kept q lim (beaconPeer src b s) := by
  unfold beaconPeer
  try dsimp only
  repeat' split
  all_goals first | assumption | (simp (maxDischargeDepth := 30) [*]; done) | simp (maxDischargeDepth := 30) (contextual := true) [*]

@[simp] theorem discardFrame_kept (h : Kept q lim s) : Kept q lim (discardFrame s) := by
  unfold discardFrame
  try dsimp only
  repeat' split
  all_goals first | assumption | (simp (maxDischargeDepth := 30) [*]; done) | simp (maxDischargeDepth := 30) (contextual := true) [*]

@[simp] theorem ageOut_kept (i : Station) (h : Kept q lim s) : Kept q lim (ageOut i s) := by
  unfold ageOut
  try dsimp only
  repeat' split
  all_goals first | assumption | (simp (maxDischargeDepth := 30) [*]; done) | simp (maxDischargeDepth := 30) (contextual := true) [*]

end Sys2Proof.Laws
end

