-- ==== Sys2Proof/Laws/KeptBays.lean ====
section
/-! SUPPORT. Every operation keeps the queue of commands and the limits of Safety.lean: canisters, pump, records, calibration, dispense bay, lid bay, shake bay, carriage. -/

namespace Sys2Proof.Laws

open Sys2Proof Sys2Proof.Machine Sys2Proof.Safety

variable {q : List Instr} {lim : Prop} {s : State}

@[simp] theorem setLevel_kept (i : Slot) (level : Nat) (hl : level ≤ Config.levelLimit) (h : Kept q lim s) : Kept q lim (setLevel i level s) := by
  have h1 : Kept q lim (s.mapCan i fun c => { c with level := level }) := kept_mapCan h fun hc => ⟨hl, hc.2⟩
  unfold setLevel
  dsimp only
  split
  · exact setFlag_kept _ h1
  · exact h1

@[simp] theorem debit_kept (i : Slot) (v : Nat) (h : Kept q lim s) : Kept q lim (debit i v s) := by
  have h1 : Kept q lim (s.mapCan i fun c => { c with level := c.level - v }) :=
    kept_mapCan_lower h (Nat.sub_le _ _) (Nat.le_refl _)
  unfold debit
  dsimp only
  split
  · exact setFlag_kept _ h1
  · exact h1

@[simp] theorem credit_kept (i : Slot) (v : Nat) (h : Kept q lim s) : Kept q lim (credit i v s) := kept_mapCan h fun hc => ⟨Nat.min_le_left _ _, hc.2⟩

@[simp] theorem countMiss_kept (i : Slot) (o : Outcome27) (h : Kept q lim s) : Kept q lim (countMiss i o s) := by
  have h0 : Kept q lim (s.mapCan i fun c => { c with miss := 0 }) := kept_mapCan h fun hc => ⟨hc.1, Nat.zero_le _⟩
  have h1 : Kept q lim (s.mapCan i fun c => { c with miss := min 3 (c.miss + 1) }) :=
    kept_mapCan h fun hc => ⟨hc.1, Nat.min_le_left _ _⟩
  unfold countMiss
  repeat' split
  all_goals simp [*]

@[simp] theorem makePre_kept (i : Slot) (h : Kept q lim s) : Kept q lim (makePre i s) := by
  unfold makePre
  try dsimp only
  repeat' split
  all_goals first | assumption | (simp (maxDischargeDepth := 30) [*]; done) | simp (maxDischargeDepth := 30) (contextual := true) [*]

@[simp] theorem dropPre_kept (h : Kept q lim s) : Kept q lim (dropPre s) := by
  unfold dropPre
  try dsimp only
  repeat' split
  all_goals first | assumption | (simp (maxDischargeDepth := 30) [*]; done) | simp (maxDischargeDepth := 30) (contextual := true) [*]

@[simp] theorem grantStir_kept (i : Slot) (hf : s.stir.runs.length < Config.stirSlots) (h : Kept q lim s) : Kept q lim (grantStir i s) := by
  unfold grantStir
  refine kept_mapCan_same (kept_mapStir h fun _ => ?_) rfl rfl
  simp only [stirsFit, List.length_append, List.length_singleton]
  exact hf

@[simp] theorem grantUpTo_kept (n : Nat) (h : Kept q lim s) : Kept q lim (grantUpTo n s) := by
  induction n generalizing s with
  | zero => exact h
  | succ n ih =>
    unfold grantUpTo
    split
    · split
      · exact ih (grantStir_kept _ (by assumption) h)
      · exact h
    · exact h

@[simp] theorem grantStirs_kept (h : Kept q lim s) : Kept q lim (grantStirs s) := by
  unfold grantStirs
  try dsimp only
  repeat' split
  all_goals first | assumption | (simp (maxDischargeDepth := 30) [*]; done) | simp (maxDischargeDepth := 30) (contextual := true) [*]

@[simp] theorem mapRun_kept (i : Slot) (f : StirRun → StirRun) (h : Kept q lim s) : Kept q lim (mapRun i f s) := by
  unfold mapRun
  try dsimp only
  repeat' split
  all_goals first | assumption | (simp (maxDischargeDepth := 30) [*]; done) | simp (maxDischargeDepth := 30) (contextual := true) [*]

@[simp] theorem freeStir_kept (i : Slot) (h : Kept q lim s) : Kept q lim (freeStir i s) := by
  unfold freeStir
  refine kept_mapCan_same (kept_mapStir_shorter h (List.length_filter_le _ _)) ?_ ?_ <;> split <;> rfl

@[simp] theorem completeStir_kept (i : Slot) (h : Kept q lim s) : Kept q lim (completeStir i s) := by
  unfold completeStir
  try dsimp only
  repeat' split
  all_goals first | assumption | (simp (maxDischargeDepth := 30) [*]; done) | simp (maxDischargeDepth := 30) (contextual := true) [*]

@[simp] theorem freeAllStirs_kept (h : Kept q lim s) : Kept q lim (freeAllStirs s) := by
  unfold freeAllStirs
  refine kept_mapCans_map (kept_mapStir_shorter h (Nat.zero_le _)) (fun c => ?_) (fun c => ?_) <;> split <;> rfl

@[simp] theorem markFaulted_kept (i : Slot) (why : CanFault) (h : Kept q lim s) : Kept q lim (markFaulted i why s) := by
  unfold markFaulted
  refine (kept_mapEvents _).2 (kept_mapCan_same (freeStir_kept i (kept_mapStir_shorter h (Nat.le_refl _))) ?_ ?_) <;>
    split <;> rfl

@[simp] theorem mapOp_kept (f : PumpOp → PumpOp) (h : Kept q lim s) : Kept q lim (mapOp f s) := by
  unfold mapOp
  try dsimp only
  repeat' split
  all_goals first | assumption | (simp (maxDischargeDepth := 30) [*]; done) | simp (maxDischargeDepth := 30) (contextual := true) [*]

@[simp] theorem setActivity_kept (i : Slot) (a : Activity) (h : Kept q lim s) : Kept q lim (setActivity i a s) := by
  unfold setActivity
  try dsimp only
  repeat' split
  all_goals first | assumption | (simp (maxDischargeDepth := 30) [*]; done) | simp (maxDischargeDepth := 30) (contextual := true) [*]

@[simp] theorem forwardOrRefill_kept (o : PumpOp) (h : Kept q lim s) : Kept q lim (forwardOrRefill o s) := by
  unfold forwardOrRefill
  try dsimp only
  repeat' split
  all_goals first | assumption | (simp (maxDischargeDepth := 30) [*]; done) | simp (maxDischargeDepth := 30) (contextual := true) [*]

@[simp] theorem firstSegment_kept (o : PumpOp) (h : Kept q lim s) : Kept q lim (firstSegment o s) := by
  unfold firstSegment
  try dsimp only
  repeat' split
  all_goals first | assumption | (simp (maxDischargeDepth := 30) [*]; done) | simp (maxDischargeDepth := 30) (contextual := true) [*]

@[simp] theorem beginOp_kept (i : Slot) (kind : OpKind) (steps k : Nat) (h : Kept q lim s) : Kept q lim (beginOp i kind steps k s) := by
  unfold beginOp
  try dsimp only
  repeat' split
  all_goals first | assumption | (simp (maxDischargeDepth := 30) [*]; done) | simp (maxDischargeDepth := 30) (contextual := true) [*]

@[simp] theorem issueSteps_kept (n : Nat) (o : PumpOp) (h : Kept q lim s) : Kept q lim (issueSteps n o s) := by
  unfold issueSteps
  try dsimp only
  repeat' split
  all_goals first | assumption | (simp (maxDischargeDepth := 30) [*]; done) | simp (maxDischargeDepth := 30) (contextual := true) [*]

@[simp] theorem endOp_kept (o : PumpOp) (h : Kept q lim s) : Kept q lim (endOp o s) := by
  unfold endOp
  try dsimp only
  repeat' split
  all_goals first | assumption | (simp (maxDischargeDepth := 30) [*]; done) | simp (maxDischargeDepth := 30) (contextual := true) [*]

@[simp] theorem snuffOrEnd_kept (o : PumpOp) (h : Kept q lim s) : Kept q lim (snuffOrEnd o s) := by
  unfold snuffOrEnd
  try dsimp only
  repeat' split
  all_goals first | assumption | (simp (maxDischargeDepth := 30) [*]; done) | simp (maxDischargeDepth := 30) (contextual := true) [*]

@[simp] theorem afterMove_kept (o : PumpOp) (h : Kept q lim s) : Kept q lim (afterMove o s) := by
  unfold afterMove
  try dsimp only
  repeat' split
  all_goals first | assumption | (simp (maxDischargeDepth := 30) [*]; done) | simp (maxDischargeDepth := 30) (contextual := true) [*]

@[simp] theorem afterTurnBack_kept (o : PumpOp) (h : Kept q lim s) : Kept q lim (afterTurnBack o s) := by
  unfold afterTurnBack
  dsimp only
  split
  · exact forwardOrRefill_kept _ (kept_mapCan_same ((kept_mapPump _).2 (setActivity_kept _ _ h)) rfl rfl)
  · exact forwardOrRefill_kept _ (setActivity_kept _ _ h)

@[simp] theorem turnDone_kept (h : Kept q lim s) : Kept q lim (turnDone s) := by
  unfold turnDone
  try dsimp only
  repeat' split
  all_goals first | assumption | (simp (maxDischargeDepth := 30) [*]; done) | simp (maxDischargeDepth := 30) (contextual := true) [*]

@[simp] theorem countPulse_kept (i : Slot) (h : Kept q lim s) : Kept q lim (countPulse i s) := by
  unfold countPulse
  try dsimp only
  repeat' split
  all_goals first | assumption | (simp (maxDischargeDepth := 30) [*]; done) | simp (maxDischargeDepth := 30) (contextual := true) [*]

@[simp] theorem setPaused_kept (b : Bool) (h : Kept q lim s) : Kept q lim (setPaused b s) := by
  unfold setPaused
  try dsimp only
  repeat' split
  all_goals first | assumption | (simp (maxDischargeDepth := 30) [*]; done) | simp (maxDischargeDepth := 30) (contextual := true) [*]

@[simp] theorem interruptOp_kept (h : Kept q lim s) : Kept q lim (interruptOp s) := by
  unfold interruptOp
  try dsimp only
  repeat' split
  all_goals first | assumption | (simp (maxDischargeDepth := 30) [*]; done) | simp (maxDischargeDepth := 30) (contextual := true) [*]

@[simp] theorem joinRecord_kept (t : TinRecord) (hr : hasRoom s = true) (h : Kept q lim s) : Kept q lim (joinRecord t s) := by
  unfold joinRecord
  refine (kept_mapEvents _).2 (kept_mapCompletion h fun _ => ?_)
  have hr : s.completion.length < Config.completionPlaces := by simpa [hasRoom] using hr
  simp only [recordsFit, List.length_append, List.length_singleton]
  exact hr

@[simp] theorem afterUnclamp_kept (h : Kept q lim s) : Kept q lim (afterUnclamp s) := by
  unfold afterUnclamp
  try dsimp only
  repeat' split
  all_goals first | assumption | (simp (maxDischargeDepth := 30) [*]; done) | simp (maxDischargeDepth := 30) (contextual := true) [*]

@[simp] theorem enterUnclamp_kept (h : Kept q lim s) : Kept q lim (enterUnclamp s) := by
  unfold enterUnclamp
  try dsimp only
  repeat' split
  all_goals first | assumption | (simp (maxDischargeDepth := 30) [*]; done) | simp (maxDischargeDepth := 30) (contextual := true) [*]

@[simp] theorem shakeJoined_kept (h : Kept q lim s) : Kept q lim (shakeJoined s) := by
  unfold shakeJoined
  try dsimp only
  repeat' split
  all_goals first | assumption | (simp (maxDischargeDepth := 30) [*]; done) | simp (maxDischargeDepth := 30) (contextual := true) [*]

@[simp] theorem lidJoined_kept (h : Kept q lim s) : Kept q lim (lidJoined s) := by
  unfold lidJoined
  try dsimp only
  repeat' split
  all_goals first | assumption | (simp (maxDischargeDepth := 30) [*]; done) | simp (maxDischargeDepth := 30) (contextual := true) [*]

@[simp] theorem finishLost_kept (h : Kept q lim s) : Kept q lim (finishLost s) := by
  unfold finishLost
  try dsimp only
  repeat' split
  all_goals first | assumption | (simp (maxDischargeDepth := 30) [*]; done) | simp (maxDischargeDepth := 30) (contextual := true) [*]

@[simp] theorem dispJoined_kept (h : Kept q lim s) : Kept q lim (dispJoined s) := by
  unfold dispJoined
  try dsimp only
  repeat' split
  all_goals first | assumption | (simp (maxDischargeDepth := 30) [*]; done) | simp (maxDischargeDepth := 30) (contextual := true) [*]

@[simp] theorem drainShake_kept (h : Kept q lim s) : Kept q lim (drainShake s) := by
  unfold drainShake
  split
  · split
    · rename_i hr
      simp only [Bool.and_eq_true] at hr
      exact shakeJoined_kept (joinRecord_kept _ hr.2 h)
    · exact h
  · exact h

@[simp] theorem drainLid_kept (h : Kept q lim s) : Kept q lim (drainLid s) := by
  unfold drainLid
  split
  · split
    · rename_i hr
      simp only [Bool.and_eq_true] at hr
      exact lidJoined_kept (joinRecord_kept _ hr.2 h)
    · exact h
  · exact h

@[simp] theorem drainDisp_kept (h : Kept q lim s) : Kept q lim (drainDisp s) := by
  unfold drainDisp
  split
  · split
    · rename_i hr
      simp only [Bool.and_eq_true] at hr
      exact dispJoined_kept (joinRecord_kept _ hr.2 h)
    · exact h
  · exact h

@[simp] theorem drain_kept (h : Kept q lim s) : Kept q lim (drain s) := by
  unfold drain
  try dsimp only
  repeat' split
  all_goals first | assumption | (simp (maxDischargeDepth := 30) [*]; done) | simp (maxDischargeDepth := 30) (contextual := true) [*]

@[simp] theorem enterAwaitRoom_kept (h : Kept q lim s) : Kept q lim (enterAwaitRoom s) := by
  unfold enterAwaitRoom joinOrWait
  split <;> simp [h]

@[simp] theorem enterLidLost_kept (h : Kept q lim s) : Kept q lim (enterLidLost s) := by
  unfold enterLidLost joinOrWait
  split <;> simp [h]

@[simp] theorem closeDispRecord_kept (h : Kept q lim s) : Kept q lim (closeDispRecord s) := by
  unfold closeDispRecord joinOrWait
  split <;> simp [h]

@[simp] theorem mapCal_kept (f : CalRecord → CalRecord) (h : Kept q lim s) : Kept q lim (mapCal f s) := by
  unfold mapCal
  try dsimp only
  repeat' split
  all_goals first | assumption | (simp (maxDischargeDepth := 30) [*]; done) | simp (maxDischargeDepth := 30) (contextual := true) [*]

@[simp] theorem calEnded_kept (h : Kept q lim s) : Kept q lim (calEnded s) := by
  unfold calEnded
  try dsimp only
  repeat' split
  all_goals first | assumption | (simp (maxDischargeDepth := 30) [*]; done) | simp (maxDischargeDepth := 30) (contextual := true) [*]

@[simp] theorem calOutcome_kept (o : CalOutcome) (newK : Option Nat) (h : Kept q lim s) : Kept q lim (calOutcome o newK s) := by
  unfold calOutcome
  split
  · exact h
  · refine calEnded_kept (setFlag_kept _ (kept_mapCan_lower ((kept_mapDisp _).2 (dropPre_kept (closeRequest_kept h))) ?_ ?_))
    · simp
    · exact settleCanister_miss _ _

@[simp] theorem abortCal_kept (h : Kept q lim s) : Kept q lim (abortCal s) := by
  unfold abortCal
  try dsimp only
  repeat' split
  all_goals first | assumption | (simp (maxDischargeDepth := 30) [*]; done) | simp (maxDischargeDepth := 30) (contextual := true) [*]

@[simp] theorem calDebit_kept (before : Int) (c : CalRecord) (h : Kept q lim s) : Kept q lim (calDebit before c s) := by
  unfold calDebit
  try dsimp only
  repeat' split
  all_goals first | assumption | (simp (maxDischargeDepth := 30) [*]; done) | simp (maxDischargeDepth := 30) (contextual := true) [*]

@[simp] theorem calRecheck_kept (h : Kept q lim s) : Kept q lim (calRecheck s) := by
  unfold calRecheck
  try dsimp only
  repeat' split
  all_goals first | assumption | (simp (maxDischargeDepth := 30) [*]; done) | simp (maxDischargeDepth := 30) (contextual := true) [*]

@[simp] theorem calShot_kept (steps : Nat) (b : Option Int) (h : Kept q lim s) : Kept q lim (calShot steps b s) := by
  unfold calShot
  try dsimp only
  repeat' split
  all_goals first | assumption | (simp (maxDischargeDepth := 30) [*]; done) | simp (maxDischargeDepth := 30) (contextual := true) [*]

@[simp] theorem primeTry_kept (b : Option Int) (h : Kept q lim s) : Kept q lim (primeTry b s) := by
  unfold primeTry
  try dsimp only
  repeat' split
  all_goals first | assumption | (simp (maxDischargeDepth := 30) [*]; done) | simp (maxDischargeDepth := 30) (contextual := true) [*]

@[simp] theorem calTest_kept (t : Fin 4) (h : Kept q lim s) : Kept q lim (calTest t s) := by
  unfold calTest
  try dsimp only
  repeat' split
  all_goals first | assumption | (simp (maxDischargeDepth := 30) [*]; done) | simp (maxDischargeDepth := 30) (contextual := true) [*]

@[simp] theorem calPass_kept (h : Kept q lim s) : Kept q lim (calPass s) := by
  unfold calPass
  try dsimp only
  repeat' split
  all_goals first | assumption | (simp (maxDischargeDepth := 30) [*]; done) | simp (maxDischargeDepth := 30) (contextual := true) [*]

@[simp] theorem judgePass_kept (h : Kept q lim s) : Kept q lim (judgePass s) := by
  unfold judgePass
  try dsimp only
  repeat' split
  all_goals first | assumption | (simp (maxDischargeDepth := 30) [*]; done) | simp (maxDischargeDepth := 30) (contextual := true) [*]

@[simp] theorem judgeTest_kept (gain : Int) (h : Kept q lim s) : Kept q lim (judgeTest gain s) := by
  unfold judgeTest
  try dsimp only
  repeat' split
  all_goals first | assumption | (simp (maxDischargeDepth := 30) [*]; done) | simp (maxDischargeDepth := 30) (contextual := true) [*]

@[simp] theorem judgePrime_kept (gain : Int) (h : Kept q lim s) : Kept q lim (judgePrime gain s) := by
  unfold judgePrime
  try dsimp only
  repeat' split
  all_goals first | assumption | (simp (maxDischargeDepth := 30) [*]; done) | simp (maxDischargeDepth := 30) (contextual := true) [*]

@[simp] theorem weighCup_kept (h : Kept q lim s) : Kept q lim (weighCup s) := by
  unfold weighCup
  try dsimp only
  repeat' split
  all_goals first | assumption | (simp (maxDischargeDepth := 30) [*]; done) | simp (maxDischargeDepth := 30) (contextual := true) [*]

@[simp] theorem judgeCup_kept (r : Int) (h : Kept q lim s) : Kept q lim (judgeCup r s) := by
  unfold judgeCup
  try dsimp only
  repeat' split
  all_goals first | assumption | (simp (maxDischargeDepth := 30) [*]; done) | simp (maxDischargeDepth := 30) (contextual := true) [*]

@[simp] theorem calAnswer_kept (r : Int) (h : Kept q lim s) : Kept q lim (calAnswer r s) := by
  unfold calAnswer
  try dsimp only
  repeat' split
  all_goals first | assumption | (simp (maxDischargeDepth := 30) [*]; done) | simp (maxDischargeDepth := 30) (contextual := true) [*]

@[simp] theorem calShotDone_kept (h : Kept q lim s) : Kept q lim (calShotDone s) := by
  unfold calShotDone
  try dsimp only
  repeat' split
  all_goals first | assumption | (simp (maxDischargeDepth := 30) [*]; done) | simp (maxDischargeDepth := 30) (contextual := true) [*]

@[simp] theorem mapEntryAt_kept (i : Nat) (f : LineEntry → LineEntry) (h : Kept q lim s) : Kept q lim (mapEntryAt i f s) := by
  unfold mapEntryAt
  try dsimp only
  repeat' split
  all_goals first | assumption | (simp (maxDischargeDepth := 30) [*]; done) | simp (maxDischargeDepth := 30) (contextual := true) [*]

@[simp] theorem finishLine_kept (i : Nat) (v : LineVerdict) (h : Kept q lim s) : Kept q lim (finishLine i v s) := by
  unfold finishLine
  try dsimp only
  repeat' split
  all_goals first | assumption | (simp (maxDischargeDepth := 30) [*]; done) | simp (maxDischargeDepth := 30) (contextual := true) [*]

@[simp] theorem passLine_kept (i : Nat) (r : PassReason) (h : Kept q lim s) : Kept q lim (passLine i r s) := by
  unfold passLine
  try dsimp only
  repeat' split
  all_goals first | assumption | (simp (maxDischargeDepth := 30) [*]; done) | simp (maxDischargeDepth := 30) (contextual := true) [*]

@[simp] theorem requestFor_kept (l : LineEntry) (h : Kept q lim s) : Kept q lim (requestFor l s) := by
  unfold requestFor
  try dsimp only
  repeat' split
  all_goals first | assumption | (simp (maxDischargeDepth := 30) [*]; done) | simp (maxDischargeDepth := 30) (contextual := true) [*]

@[simp] theorem judgePassed_kept (h : Kept q lim s) : Kept q lim (judgePassed s) := by
  unfold judgePassed
  dsimp only
  split
  · exact h
  · split
    · exact kept_foldl (fun t l ht => requestFor_kept l ht) _ (mapTin_kept _ _ h)
    · exact mapTin_kept _ _ h

@[simp] theorem beginShot_kept (i : Nat) (l : LineEntry) (v : Nat) (before : Option Int) (h : Kept q lim s) : Kept q lim (beginShot i l v before s) := by
  unfold beginShot
  try dsimp only
  repeat' split
  all_goals first | assumption | (simp (maxDischargeDepth := 30) [*]; done) | simp (maxDischargeDepth := 30) (contextual := true) [*]

@[simp] theorem debitStage_kept (i : Nat) (l : LineEntry) (v : Nat) (before : Option Int) (h : Kept q lim s) : Kept q lim (debitStage i l v before s) := by
  unfold debitStage
  try dsimp only
  repeat' split
  all_goals first | assumption | (simp (maxDischargeDepth := 30) [*]; done) | simp (maxDischargeDepth := 30) (contextual := true) [*]

@[simp] theorem takeLine_kept (i : Nat) (l : LineEntry) (h : Kept q lim s) : Kept q lim (takeLine i l s) := by
  unfold takeLine
  try dsimp only
  repeat' split
  all_goals first | assumption | (simp (maxDischargeDepth := 30) [*]; done) | simp (maxDischargeDepth := 30) (contextual := true) [*]

@[simp] theorem selectFrom_kept (x : List Nat) (h : Kept q lim s) : Kept q lim (selectFrom x s) := by
  induction x generalizing s with
  | nil => exact h
  | cons i is ih =>
    unfold selectFrom
    dsimp only
    repeat' split
    all_goals first | assumption | exact ih (by assumption) | exact takeLine_kept _ _ h | exact ih (takeLine_kept _ _ h)

@[simp] theorem finishSelection_kept (h : Kept q lim s) : Kept q lim (finishSelection s) := by
  unfold finishSelection
  try dsimp only
  repeat' split
  all_goals first | assumption | (simp (maxDischargeDepth := 30) [*]; done) | simp (maxDischargeDepth := 30) (contextual := true) [*]

@[simp] theorem selectLine_kept (h : Kept q lim s) : Kept q lim (selectLine s) := by
  unfold selectLine
  try dsimp only
  repeat' split
  all_goals first | assumption | (simp (maxDischargeDepth := 30) [*]; done) | simp (maxDischargeDepth := 30) (contextual := true) [*]

@[simp] theorem retakeLine_kept (i : Nat) (l : LineEntry) (h : Kept q lim s) : Kept q lim (retakeLine i l s) := by
  unfold retakeLine
  try dsimp only
  repeat' split
  all_goals first | assumption | (simp (maxDischargeDepth := 30) [*]; done) | simp (maxDischargeDepth := 30) (contextual := true) [*]

@[simp] theorem lookAhead_kept (l : LineEntry) (h : Kept q lim s) : Kept q lim (lookAhead l s) := by
  unfold lookAhead
  try dsimp only
  repeat' split
  all_goals first | assumption | (simp (maxDischargeDepth := 30) [*]; done) | simp (maxDischargeDepth := 30) (contextual := true) [*]

@[simp] theorem acceptTin_kept (r : Int) (t : TinRecord) (h : Kept q lim s) : Kept q lim (acceptTin r t s) := by
  unfold acceptTin
  exact selectLine_kept (kept_foldl (fun t l ht => lookAhead_kept l ht) _ (clearFlag_kept _ (mapTin_kept _ _ h)))

@[simp] theorem judgeTare_kept (r : Int) (h : Kept q lim s) : Kept q lim (judgeTare r s) := by
  unfold judgeTare
  try dsimp only
  repeat' split
  all_goals first | assumption | (simp (maxDischargeDepth := 30) [*]; done) | simp (maxDischargeDepth := 30) (contextual := true) [*]

@[simp] theorem closeRun_kept (i : Nat) (g : Int) (h : Kept q lim s) : Kept q lim (closeRun i g s) := by
  unfold closeRun
  try dsimp only
  repeat' split
  all_goals first | assumption | (simp (maxDischargeDepth := 30) [*]; done) | simp (maxDischargeDepth := 30) (contextual := true) [*]

@[simp] theorem topUpNow_kept (i : Nat) (l : LineEntry) (p : LinePlan) (g : Int) (h : Kept q lim s) : Kept q lim (topUpNow i l p g s) := by
  unfold topUpNow
  try dsimp only
  repeat' split
  all_goals first | assumption | (simp (maxDischargeDepth := 30) [*]; done) | simp (maxDischargeDepth := 30) (contextual := true) [*]

@[simp] theorem endWeighed_kept (i : Nat) (l : LineEntry) (v : LineVerdict) (j : Judgement) (h : Kept q lim s) : Kept q lim (endWeighed i l v j s) := by
  unfold endWeighed
  try dsimp only
  repeat' split
  all_goals first | assumption | (simp (maxDischargeDepth := 30) [*]; done) | simp (maxDischargeDepth := 30) (contextual := true) [*]

@[simp] theorem judgeReading_kept (i : Nat) (l : LineEntry) (p : LinePlan) (r : Int) (h : Kept q lim s) : Kept q lim (judgeReading i l p r s) := by
  unfold judgeReading
  try dsimp only
  repeat' split
  all_goals first | assumption | (simp (maxDischargeDepth := 30) [*]; done) | simp (maxDischargeDepth := 30) (contextual := true) [*]

@[simp] theorem lineAnswer_kept (r : Int) (h : Kept q lim s) : Kept q lim (lineAnswer r s) := by
  unfold lineAnswer
  try dsimp only
  repeat' split
  all_goals first | assumption | (simp (maxDischargeDepth := 30) [*]; done) | simp (maxDischargeDepth := 30) (contextual := true) [*]

@[simp] theorem answerRequest_kept (r : Int) (h : Kept q lim s) : Kept q lim (answerRequest r s) := by
  unfold answerRequest
  try dsimp only
  repeat' split
  all_goals first | assumption | (simp (maxDischargeDepth := 30) [*]; done) | simp (maxDischargeDepth := 30) (contextual := true) [*]

@[simp] theorem shotDone_kept (h : Kept q lim s) : Kept q lim (shotDone s) := by
  unfold shotDone
  try dsimp only
  repeat' split
  all_goals first | assumption | (simp (maxDischargeDepth := 30) [*]; done) | simp (maxDischargeDepth := 30) (contextual := true) [*]

@[simp] theorem opCompleted_kept (h : Kept q lim s) : Kept q lim (opCompleted s) := by
  unfold opCompleted
  try dsimp only
  repeat' split
  all_goals first | assumption | (simp (maxDischargeDepth := 30) [*]; done) | simp (maxDischargeDepth := 30) (contextual := true) [*]

@[simp] theorem enterAwaitAir_kept (h : Kept q lim s) : Kept q lim (enterAwaitAir s) := by
  unfold enterAwaitAir
  try dsimp only
  repeat' split
  all_goals first | assumption | (simp (maxDischargeDepth := 30) [*]; done) | simp (maxDischargeDepth := 30) (contextual := true) [*]

@[simp] theorem enterAwaitLids_kept (h : Kept q lim s) : Kept q lim (enterAwaitLids s) := by
  unfold enterAwaitLids
  try dsimp only
  repeat' split
  all_goals first | assumption | (simp (maxDischargeDepth := 30) [*]; done) | simp (maxDischargeDepth := 30) (contextual := true) [*]

@[simp] theorem lidTest_kept (h : Kept q lim s) : Kept q lim (lidTest s) := by
  unfold lidTest
  try dsimp only
  repeat' split
  all_goals first | assumption | (simp (maxDischargeDepth := 30) [*]; done) | simp (maxDischargeDepth := 30) (contextual := true) [*]

@[simp] theorem lidRecheck_kept (h : Kept q lim s) : Kept q lim (lidRecheck s) := by
  unfold lidRecheck
  try dsimp only
  repeat' split
  all_goals first | assumption | (simp (maxDischargeDepth := 30) [*]; done) | simp (maxDischargeDepth := 30) (contextual := true) [*]

@[simp] theorem startPress_kept (h : Kept q lim s) : Kept q lim (startPress s) := by
  unfold startPress
  try dsimp only
  repeat' split
  all_goals first | assumption | (simp (maxDischargeDepth := 30) [*]; done) | simp (maxDischargeDepth := 30) (contextual := true) [*]

@[simp] theorem recordFailed_kept (k : FaultKind) (h : Kept q lim s) : Kept q lim (recordFailed k s) := by
  unfold recordFailed
  try dsimp only
  repeat' split
  all_goals first | assumption | (simp (maxDischargeDepth := 30) [*]; done) | simp (maxDischargeDepth := 30) (contextual := true) [*]

@[simp] theorem seatLid_kept (time : Nat) (h : Kept q lim s) : Kept q lim (seatLid time s) := by
  unfold seatLid
  try dsimp only
  repeat' split
  all_goals first | assumption | (simp (maxDischargeDepth := 30) [*]; done) | simp (maxDischargeDepth := 30) (contextual := true) [*]

@[simp] theorem endDwell_kept (h : Kept q lim s) : Kept q lim (endDwell s) := by
  unfold endDwell
  try dsimp only
  repeat' split
  all_goals first | assumption | (simp (maxDischargeDepth := 30) [*]; done) | simp (maxDischargeDepth := 30) (contextual := true) [*]

@[simp] theorem endStroke_kept (h : Kept q lim s) : Kept q lim (endStroke s) := by
  unfold endStroke
  try dsimp only
  repeat' split
  all_goals first | assumption | (simp (maxDischargeDepth := 30) [*]; done) | simp (maxDischargeDepth := 30) (contextual := true) [*]

@[simp] theorem lidArrive_kept (t : TinRecord) (h : Kept q lim s) : Kept q lim (lidArrive t s) := by
  unfold lidArrive
  try dsimp only
  repeat' split
  all_goals first | assumption | (simp (maxDischargeDepth := 30) [*]; done) | simp (maxDischargeDepth := 30) (contextual := true) [*]

@[simp] theorem clampConfirmed_kept (h : Kept q lim s) : Kept q lim (clampConfirmed s) := by
  unfold clampConfirmed
  try dsimp only
  repeat' split
  all_goals first | assumption | (simp (maxDischargeDepth := 30) [*]; done) | simp (maxDischargeDepth := 30) (contextual := true) [*]

@[simp] theorem enterClamp_kept (h : Kept q lim s) : Kept q lim (enterClamp s) := by
  unfold enterClamp
  try dsimp only
  repeat' split
  all_goals first | assumption | (simp (maxDischargeDepth := 30) [*]; done) | simp (maxDischargeDepth := 30) (contextual := true) [*]

@[simp] theorem shakeArrive_kept (t : TinRecord) (h : Kept q lim s) : Kept q lim (shakeArrive t s) := by
  unfold shakeArrive
  try dsimp only
  repeat' split
  all_goals first | assumption | (simp (maxDischargeDepth := 30) [*]; done) | simp (maxDischargeDepth := 30) (contextual := true) [*]

@[simp] theorem startSpin_kept (h : Kept q lim s) : Kept q lim (startSpin s) := by
  unfold startSpin
  try dsimp only
  repeat' split
  all_goals first | assumption | (simp (maxDischargeDepth := 30) [*]; done) | simp (maxDischargeDepth := 30) (contextual := true) [*]

@[simp] theorem reachSpeed_kept (h : Kept q lim s) : Kept q lim (reachSpeed s) := by
  unfold reachSpeed
  try dsimp only
  repeat' split
  all_goals first | assumption | (simp (maxDischargeDepth := 30) [*]; done) | simp (maxDischargeDepth := 30) (contextual := true) [*]

@[simp] theorem brake_kept (h : Kept q lim s) : Kept q lim (brake s) := by
  unfold brake
  try dsimp only
  repeat' split
  all_goals first | assumption | (simp (maxDischargeDepth := 30) [*]; done) | simp (maxDischargeDepth := 30) (contextual := true) [*]

@[simp] theorem comeToRest_kept (h : Kept q lim s) : Kept q lim (comeToRest s) := by
  unfold comeToRest
  try dsimp only
  repeat' split
  all_goals first | assumption | (simp (maxDischargeDepth := 30) [*]; done) | simp (maxDischargeDepth := 30) (contextual := true) [*]

@[simp] theorem endShake_kept (h : Kept q lim s) : Kept q lim (endShake s) := by
  unfold endShake
  try dsimp only
  repeat' split
  all_goals first | assumption | (simp (maxDischargeDepth := 30) [*]; done) | simp (maxDischargeDepth := 30) (contextual := true) [*]

@[simp] theorem restartShake_kept (h : Kept q lim s) : Kept q lim (restartShake s) := by
  unfold restartShake
  try dsimp only
  repeat' split
  all_goals first | assumption | (simp (maxDischargeDepth := 30) [*]; done) | simp (maxDischargeDepth := 30) (contextual := true) [*]

@[simp] theorem shakeOrphanGone_kept (h : Kept q lim s) : Kept q lim (shakeOrphanGone s) := by
  unfold shakeOrphanGone
  try dsimp only
  repeat' split
  all_goals first | assumption | (simp (maxDischargeDepth := 30) [*]; done) | simp (maxDischargeDepth := 30) (contextual := true) [*]

@[simp] theorem setOff_kept (m : Move) (t : Option TinRecord) (charge : Option BayId) (h : Kept q lim s) : Kept q lim (setOff m t charge s) := by
  unfold setOff
  try dsimp only
  repeat' split
  all_goals first | assumption | (simp (maxDischargeDepth := 30) [*]; done) | simp (maxDischargeDepth := 30) (contextual := true) [*]

@[simp] theorem commitTaken_kept (t : TinRecord) (h : Kept q lim s) : Kept q lim (commitTaken t s) := by
  unfold commitTaken
  try dsimp only
  repeat' split
  all_goals first | assumption | (simp (maxDischargeDepth := 30) [*]; done) | simp (maxDischargeDepth := 30) (contextual := true) [*]

@[simp] theorem startMove_kept (h : Kept q lim s) : Kept q lim (startMove s) := by
  unfold startMove
  try dsimp only
  repeat' split
  all_goals first | assumption | (simp (maxDischargeDepth := 30) [*]; done) | simp (maxDischargeDepth := 30) (contextual := true) [*]

@[simp] theorem startHomeRun_kept (h : Kept q lim s) : Kept q lim (startHomeRun s) := by
  unfold startHomeRun
  try dsimp only
  repeat' split
  all_goals first | assumption | (simp (maxDischargeDepth := 30) [*]; done) | simp (maxDischargeDepth := 30) (contextual := true) [*]

@[simp] theorem startCarriage_kept (h : Kept q lim s) : Kept q lim (startCarriage s) := by
  unfold startCarriage
  try dsimp only
  repeat' split
  all_goals first | assumption | (simp (maxDischargeDepth := 30) [*]; done) | simp (maxDischargeDepth := 30) (contextual := true) [*]

@[simp] theorem takeDeferred_kept (o : StartOwner) (h : Kept q lim s) : Kept q lim (takeDeferred o s) := by
  unfold takeDeferred
  try dsimp only
  repeat' split
  all_goals first | assumption | (simp (maxDischargeDepth := 30) [*]; done) | simp (maxDischargeDepth := 30) (contextual := true) [*]

@[simp] theorem takeAllDeferred_kept (h : Kept q lim s) : Kept q lim (takeAllDeferred s) :=
  takeDeferred_kept _ (takeDeferred_kept _ (takeDeferred_kept _ h))

@[simp] theorem reportCanister_kept (c : Slot) (h : Kept q lim s) : Kept q lim (reportCanister c s) := by
  unfold reportCanister
  try dsimp only
  repeat' split
  all_goals first | assumption | (simp (maxDischargeDepth := 30) [*]; done) | simp (maxDischargeDepth := 30) (contextual := true) [*]

@[simp] theorem canisterFault_kept (c : Slot) (why : CanFault) (h : Kept q lim s) : Kept q lim (canisterFault c why s) := by
  unfold canisterFault
  refine reportCanister_kept _ ?_
  split
  · split
    · exact abortCal_kept (markFaulted_kept _ _ h)
    · exact markFaulted_kept _ _ h
  · exact markFaulted_kept _ _ h

@[simp] theorem stirCompleted_kept (c : Slot) (h : Kept q lim s) : Kept q lim (stirCompleted c s) := by
  unfold stirCompleted
  try dsimp only
  repeat' split
  all_goals first | assumption | (simp (maxDischargeDepth := 30) [*]; done) | simp (maxDischargeDepth := 30) (contextual := true) [*]

@[simp] theorem keepDeferrals_kept (h : Kept q lim s) : Kept q lim (keepDeferrals s) := by
  unfold keepDeferrals
  try dsimp only
  repeat' split
  all_goals first | assumption | (simp (maxDischargeDepth := 30) [*]; done) | simp (maxDischargeDepth := 30) (contextual := true) [*]

@[simp] theorem dispPoint_kept (p : DispState) (h : Kept q lim s) : Kept q lim (dispPoint p s) := by
  unfold dispPoint
  try dsimp only
  repeat' split
  all_goals first | assumption | (simp (maxDischargeDepth := 30) [*]; done) | simp (maxDischargeDepth := 30) (contextual := true) [*]

@[simp] theorem lidPoint_kept (p : LidState) (h : Kept q lim s) : Kept q lim (lidPoint p s) := by
  unfold lidPoint
  try dsimp only
  repeat' split
  all_goals first | assumption | (simp (maxDischargeDepth := 30) [*]; done) | simp (maxDischargeDepth := 30) (contextual := true) [*]

@[simp] theorem shakePoint_kept (p : ShakeState) (h : Kept q lim s) : Kept q lim (shakePoint p s) := by
  unfold shakePoint
  try dsimp only
  repeat' split
  all_goals first | assumption | (simp (maxDischargeDepth := 30) [*]; done) | simp (maxDischargeDepth := 30) (contextual := true) [*]

@[simp] theorem standStill_kept (st : CarriageState) (h : Kept q lim s) : Kept q lim (standStill st s) := by
  unfold standStill
  try dsimp only
  repeat' split
  all_goals first | assumption | (simp (maxDischargeDepth := 30) [*]; done) | simp (maxDischargeDepth := 30) (contextual := true) [*]

@[simp] theorem handOver_kept (m : Move) (t : TinRecord) (h : Kept q lim s) : Kept q lim (handOver m t s) := by
  unfold handOver
  try dsimp only
  repeat' split
  all_goals first | assumption | (simp (maxDischargeDepth := 30) [*]; done) | simp (maxDischargeDepth := 30) (contextual := true) [*]

@[simp] theorem arrive_kept (m : Move) (h : Kept q lim s) : Kept q lim (arrive m s) := by
  unfold arrive
  try dsimp only
  repeat' split
  all_goals first | assumption | (simp (maxDischargeDepth := 30) [*]; done) | simp (maxDischargeDepth := 30) (contextual := true) [*]

@[simp] theorem handBack_kept (m : Move) (t : TinRecord) (h : Kept q lim s) : Kept q lim (handBack m t s) := by
  unfold handBack
  try dsimp only
  repeat' split
  all_goals first | assumption | (simp (maxDischargeDepth := 30) [*]; done) | simp (maxDischargeDepth := 30) (contextual := true) [*]

@[simp] theorem placeTin_kept (h : Kept q lim s) : Kept q lim (placeTin s) := by
  unfold placeTin
  try dsimp only
  repeat' split
  all_goals first | assumption | (simp (maxDischargeDepth := 30) [*]; done) | simp (maxDischargeDepth := 30) (contextual := true) [*]

@[simp] theorem resolveCarriage_kept (h : Kept q lim s) : Kept q lim (resolveCarriage s) := by
  unfold resolveCarriage
  try dsimp only
  repeat' split
  all_goals first | assumption | (simp (maxDischargeDepth := 30) [*]; done) | simp (maxDischargeDepth := 30) (contextual := true) [*]

@[simp] theorem arriveHome_kept (h : Kept q lim s) : Kept q lim (arriveHome s) := by
  unfold arriveHome
  try dsimp only
  repeat' split
  all_goals first | assumption | (simp (maxDischargeDepth := 30) [*]; done) | simp (maxDischargeDepth := 30) (contextual := true) [*]

end Sys2Proof.Laws
end

