-- ==== Sys2Proof/Laws/KeptFaults.lean ====
section
/-! SUPPORT. Every operation keeps the queue of commands and the limits of Safety.lean: faults and stops, requests, port, start, tick. -/

namespace Sys2Proof.Laws

open Sys2Proof Sys2Proof.Machine Sys2Proof.Safety

variable {q : List Instr} {lim : Prop} {s : State}

@[simp] theorem interruptShot_kept (h : Kept q lim s) : Kept q lim (interruptShot s) := by
  unfold interruptShot
  try dsimp only
  repeat' split
  all_goals first | assumption | (simp (maxDischargeDepth := 30) [*]; done) | simp (maxDischargeDepth := 30) (contextual := true) [*]

@[simp] theorem haltDisp_kept (dest : DispState) (h : Kept q lim s) : Kept q lim (haltDisp dest s) := by
  unfold haltDisp
  try dsimp only
  repeat' split
  all_goals first | assumption | (simp (maxDischargeDepth := 30) [*]; done) | simp (maxDischargeDepth := 30) (contextual := true) [*]

@[simp] theorem haltStroke_kept (estop : Bool) (h : Kept q lim s) : Kept q lim (haltStroke estop s) := by
  unfold haltStroke
  try dsimp only
  repeat' split
  all_goals first | assumption | (simp (maxDischargeDepth := 30) [*]; done) | simp (maxDischargeDepth := 30) (contextual := true) [*]

@[simp] theorem haltLid_kept (dest : LidState) (estop : Bool) (h : Kept q lim s) : Kept q lim (haltLid dest estop s) := by
  unfold haltLid
  try dsimp only
  repeat' split
  all_goals first | assumption | (simp (maxDischargeDepth := 30) [*]; done) | simp (maxDischargeDepth := 30) (contextual := true) [*]

@[simp] theorem haltShaker_kept (estop : Bool) (h : Kept q lim s) : Kept q lim (haltShaker estop s) := by
  unfold haltShaker
  try dsimp only
  repeat' split
  all_goals first | assumption | (simp (maxDischargeDepth := 30) [*]; done) | simp (maxDischargeDepth := 30) (contextual := true) [*]

@[simp] theorem haltShake_kept (dest : ShakeState) (estop : Bool) (h : Kept q lim s) : Kept q lim (haltShake dest estop s) := by
  unfold haltShake
  try dsimp only
  repeat' split
  all_goals first | assumption | (simp (maxDischargeDepth := 30) [*]; done) | simp (maxDischargeDepth := 30) (contextual := true) [*]

@[simp] theorem faultBay_kept (x : BayId) (h : Kept q lim s) : Kept q lim (faultBay x s) := by
  unfold faultBay
  try dsimp only
  repeat' split
  all_goals first | assumption | (simp (maxDischargeDepth := 30) [*]; done) | simp (maxDischargeDepth := 30) (contextual := true) [*]

@[simp] theorem stopOthers_kept (x : BayId) (h : Kept q lim s) : Kept q lim (stopOthers x s) := by
  unfold stopOthers
  try dsimp only
  repeat' split
  all_goals first | assumption | (simp (maxDischargeDepth := 30) [*]; done) | simp (maxDischargeDepth := 30) (contextual := true) [*]

@[simp] theorem latch_kept (b : BayId) (k : FaultKind) (h : Kept q lim s) : Kept q lim (latch b k s) := by
  unfold latch
  try dsimp only
  repeat' split
  all_goals first | assumption | (simp (maxDischargeDepth := 30) [*]; done) | simp (maxDischargeDepth := 30) (contextual := true) [*]

@[simp] theorem loseLine_kept (h : Kept q lim s) : Kept q lim (loseLine s) := by
  unfold loseLine
  try dsimp only
  repeat' split
  all_goals first | assumption | (simp (maxDischargeDepth := 30) [*]; done) | simp (maxDischargeDepth := 30) (contextual := true) [*]

@[simp] theorem closeLost_kept (h : Kept q lim s) : Kept q lim (closeLost s) := by
  unfold closeLost
  try dsimp only
  repeat' split
  all_goals first | assumption | (simp (maxDischargeDepth := 30) [*]; done) | simp (maxDischargeDepth := 30) (contextual := true) [*]

@[simp] theorem closeFound_kept (b : BayId) (h : Kept q lim s) : Kept q lim (closeFound b s) := by
  unfold closeFound
  try dsimp only
  repeat' split
  all_goals first | assumption | (simp (maxDischargeDepth := 30) [*]; done) | simp (maxDischargeDepth := 30) (contextual := true) [*]

@[simp] theorem loseDisp_kept (h : Kept q lim s) : Kept q lim (loseDisp s) := by
  unfold loseDisp
  try dsimp only
  repeat' split
  all_goals first | assumption | (simp (maxDischargeDepth := 30) [*]; done) | simp (maxDischargeDepth := 30) (contextual := true) [*]

@[simp] theorem loseLid_kept (h : Kept q lim s) : Kept q lim (loseLid s) := by
  unfold loseLid
  try dsimp only
  repeat' split
  all_goals first | assumption | (simp (maxDischargeDepth := 30) [*]; done) | simp (maxDischargeDepth := 30) (contextual := true) [*]

@[simp] theorem loseShake_kept (h : Kept q lim s) : Kept q lim (loseShake s) := by
  unfold loseShake
  try dsimp only
  repeat' split
  all_goals first | assumption | (simp (maxDischargeDepth := 30) [*]; done) | simp (maxDischargeDepth := 30) (contextual := true) [*]

@[simp] theorem enterTare_kept (h : Kept q lim s) : Kept q lim (enterTare s) := by
  unfold enterTare
  try dsimp only
  repeat' split
  all_goals first | assumption | (simp (maxDischargeDepth := 30) [*]; done) | simp (maxDischargeDepth := 30) (contextual := true) [*]

@[simp] theorem returnToCalled_kept (h : Kept q lim s) : Kept q lim (returnToCalled s) := by
  unfold returnToCalled
  try dsimp only
  repeat' split
  all_goals first | assumption | (simp (maxDischargeDepth := 30) [*]; done) | simp (maxDischargeDepth := 30) (contextual := true) [*]

@[simp] theorem enterCancelled_kept (h : Kept q lim s) : Kept q lim (enterCancelled s) := by
  unfold enterCancelled
  try dsimp only
  repeat' split
  all_goals first | assumption | (simp (maxDischargeDepth := 30) [*]; done) | simp (maxDischargeDepth := 30) (contextual := true) [*]

@[simp] theorem resumeLine_kept (h : Kept q lim s) : Kept q lim (resumeLine s) := by
  unfold resumeLine
  try dsimp only
  repeat' split
  all_goals first | assumption | (simp (maxDischargeDepth := 30) [*]; done) | simp (maxDischargeDepth := 30) (contextual := true) [*]

@[simp] theorem resumeDispAt_kept (r : DispState) (h : Kept q lim s) : Kept q lim (resumeDispAt r s) := by
  unfold resumeDispAt
  try dsimp only
  repeat' split
  all_goals first | assumption | (simp (maxDischargeDepth := 30) [*]; done) | simp (maxDischargeDepth := 30) (contextual := true) [*]

@[simp] theorem resumeDisp_kept (h : Kept q lim s) : Kept q lim (resumeDisp s) := by
  unfold resumeDisp
  try dsimp only
  repeat' split
  all_goals first | assumption | (simp (maxDischargeDepth := 30) [*]; done) | simp (maxDischargeDepth := 30) (contextual := true) [*]

@[simp] theorem lidGoOn_kept (h : Kept q lim s) : Kept q lim (lidGoOn s) := by
  unfold lidGoOn
  try dsimp only
  repeat' split
  all_goals first | assumption | (simp (maxDischargeDepth := 30) [*]; done) | simp (maxDischargeDepth := 30) (contextual := true) [*]

@[simp] theorem homeCheck_kept (h : Kept q lim s) : Kept q lim (homeCheck s) := by
  unfold homeCheck
  try dsimp only
  repeat' split
  all_goals first | assumption | (simp (maxDischargeDepth := 30) [*]; done) | simp (maxDischargeDepth := 30) (contextual := true) [*]

@[simp] theorem resumeLostLid_kept (h : Kept q lim s) : Kept q lim (resumeLostLid s) := by
  unfold resumeLostLid
  try dsimp only
  repeat' split
  all_goals first | assumption | (simp (maxDischargeDepth := 30) [*]; done) | simp (maxDischargeDepth := 30) (contextual := true) [*]

@[simp] theorem resumeLidAt_kept (r : LidState) (h : Kept q lim s) : Kept q lim (resumeLidAt r s) := by
  unfold resumeLidAt
  try dsimp only
  repeat' split
  all_goals first | assumption | (simp (maxDischargeDepth := 30) [*]; done) | simp (maxDischargeDepth := 30) (contextual := true) [*]

@[simp] theorem resumeLid_kept (h : Kept q lim s) : Kept q lim (resumeLid s) := by
  unfold resumeLid
  try dsimp only
  repeat' split
  all_goals first | assumption | (simp (maxDischargeDepth := 30) [*]; done) | simp (maxDischargeDepth := 30) (contextual := true) [*]

@[simp] theorem resumeShakeAt_kept (r : ShakeState) (h : Kept q lim s) : Kept q lim (resumeShakeAt r s) := by
  unfold resumeShakeAt
  try dsimp only
  repeat' split
  all_goals first | assumption | (simp (maxDischargeDepth := 30) [*]; done) | simp (maxDischargeDepth := 30) (contextual := true) [*]

@[simp] theorem resumeShake_kept (h : Kept q lim s) : Kept q lim (resumeShake s) := by
  unfold resumeShake
  try dsimp only
  repeat' split
  all_goals first | assumption | (simp (maxDischargeDepth := 30) [*]; done) | simp (maxDischargeDepth := 30) (contextual := true) [*]

@[simp] theorem resumeAll_kept (h : Kept q lim s) : Kept q lim (resumeAll s) := by
  unfold resumeAll
  try dsimp only
  repeat' split
  all_goals first | assumption | (simp (maxDischargeDepth := 30) [*]; done) | simp (maxDischargeDepth := 30) (contextual := true) [*]

@[simp] theorem clearJam_kept (b : BayId) (h : Kept q lim s) : Kept q lim (clearJam b s) := by
  unfold clearJam
  try dsimp only
  repeat' split
  all_goals first | assumption | (simp (maxDischargeDepth := 30) [*]; done) | simp (maxDischargeDepth := 30) (contextual := true) [*]

@[simp] theorem holdCleared_kept (b : BayId) (h : Kept q lim s) : Kept q lim (holdCleared b s) := by
  unfold holdCleared
  try dsimp only
  repeat' split
  all_goals first | assumption | (simp (maxDischargeDepth := 30) [*]; done) | simp (maxDischargeDepth := 30) (contextual := true) [*]

@[simp] theorem clearBay_kept (b : BayId) (h : Kept q lim s) : Kept q lim (clearBay b s) := by
  unfold clearBay
  try dsimp only
  repeat' split
  all_goals first | assumption | (simp (maxDischargeDepth := 30) [*]; done) | simp (maxDischargeDepth := 30) (contextual := true) [*]

@[simp] theorem clearStation_kept (h : Kept q lim s) : Kept q lim (clearStation s) := by
  unfold clearStation
  try dsimp only
  repeat' split
  all_goals first | assumption | (simp (maxDischargeDepth := 30) [*]; done) | simp (maxDischargeDepth := 30) (contextual := true) [*]

@[simp] theorem noteEverywhere_kept (k : FaultKind) (h : Kept q lim s) : Kept q lim (noteEverywhere k s) := by
  unfold noteEverywhere
  try dsimp only
  repeat' split
  all_goals first | assumption | (simp (maxDischargeDepth := 30) [*]; done) | simp (maxDischargeDepth := 30) (contextual := true) [*]

@[simp] theorem jamByStop_kept (h : Kept q lim s) : Kept q lim (jamByStop s) := by
  unfold jamByStop
  try dsimp only
  repeat' split
  all_goals first | assumption | (simp (maxDischargeDepth := 30) [*]; done) | simp (maxDischargeDepth := 30) (contextual := true) [*]

@[simp] theorem drivesOff_kept (h : Kept q lim s) : Kept q lim (drivesOff s) := by
  unfold drivesOff
  try dsimp only
  repeat' split
  all_goals first | assumption | (simp (maxDischargeDepth := 30) [*]; done) | simp (maxDischargeDepth := 30) (contextual := true) [*]

@[simp] theorem applyEstop_kept (h : Kept q lim s) : Kept q lim (applyEstop s) := by
  unfold applyEstop
  exact setFlag_kept _ ((kept_mapMon _).2 (releaseOrder_kept _ (drivesOff_kept (haltLid_kept _ _ (releaseOrder_kept _
    (haltShake_kept _ _ (haltDisp_kept _ (freeAllStirs_kept (dropPre_kept (jamByStop_kept (noteEverywhere_kept _
      (blankTrigger_kept h))))))))))))

@[simp] theorem settle_kept (h : Kept q lim s) : Kept q lim (settle s) := by
  unfold settle
  try dsimp only
  repeat' split
  all_goals first | assumption | (simp (maxDischargeDepth := 30) [*]; done) | simp (maxDischargeDepth := 30) (contextual := true) [*]

@[simp] theorem markCancelled_kept (h : Kept q lim s) : Kept q lim (markCancelled s) := by
  unfold markCancelled
  try dsimp only
  repeat' split
  all_goals first | assumption | (simp (maxDischargeDepth := 30) [*]; done) | simp (maxDischargeDepth := 30) (contextual := true) [*]

@[simp] theorem cancelTin_kept (h : Kept q lim s) : Kept q lim (cancelTin s) := by
  unfold cancelTin
  try dsimp only
  repeat' split
  all_goals first | assumption | (simp (maxDischargeDepth := 30) [*]; done) | simp (maxDischargeDepth := 30) (contextual := true) [*]

@[simp] theorem cancelInBay_kept (e : CancelEffect) (h : Kept q lim s) : Kept q lim (cancelInBay e s) := by
  unfold cancelInBay
  try dsimp only
  repeat' split
  all_goals first | assumption | (simp (maxDischargeDepth := 30) [*]; done) | simp (maxDischargeDepth := 30) (contextual := true) [*]

@[simp] theorem startCal_kept (i : Slot) (mask : Option Byte) (h : Kept q lim s) : Kept q lim (startCal i mask s) := by
  have h1 : Kept q lim ((s.mapDisp fun d =>
      { d with st := .calCup, resume := none, step := none, removed := false, cal := some (newCal s i mask),
               last := none }).mapCan i fun c => { c with state := .calibrating, reason := none }) :=
    kept_mapCan_same ((kept_mapDisp _).2 h) rfl rfl
  exact kept_ite (weighCup_kept (kept_ite (makePre_kept _ h1) h1)) (kept_ite (makePre_kept _ h1) h1)

theorem ownSubmit_kept (f : SubmitFields) (h : Kept q lim s) : Kept q lim (ownSubmit f s).after := by
  unfold ownSubmit
  split
  · exact h
  · split
    · exact h
    · split
      · exact h
      · split
        · exact h
        · rename_i hp
          exact kept_mapJobs h fun _ => enqueue_fits hp

theorem ownCancel_kept (job : Word16) (h : Kept q lim s) : Kept q lim (ownCancel job s).after := by
  unfold ownCancel
  dsimp only
  split
  · exact cancelInBay_kept _ (kept_mapJobs h fun hw => removeJob_fits hw)
  · exact h

theorem ownSetPrio_kept (job : Word16) (p : Byte) (h : Kept q lim s) : Kept q lim (ownSetPrio job p s).after := by
  unfold ownSetPrio
  dsimp only
  split
  · exact h
  · split
    · exact kept_mapJobs h fun hw => reprioritise_fits hw
    · exact h

theorem ownQueryJob_kept (job : Word16) (h : Kept q lim s) : Kept q lim (ownQueryJob job s).after := by
  unfold ownQueryJob
  dsimp only
  split <;> exact h

theorem ownTakeRecord_kept (h : Kept q lim s) : Kept q lim (ownTakeRecord s).after := by
  unfold ownTakeRecord
  split
  · exact h
  · rename_i r rs hc
    have h1 : Kept q lim (drain (s.mapCompletion fun _ => rs)) :=
      drain_kept (kept_mapCompletion h fun hr => by
        unfold recordsFit at *
        rw [hc, List.length_cons] at hr
        omega)
    exact kept_ite (clearFlag_kept _ h1) h1

theorem ownCanLoad_kept (f : CanLoadFields) (h : Kept q lim s) : Kept q lim (ownCanLoad f s).after := by
  unfold ownCanLoad
  split
  · exact h
  · split
    · exact h
    · split
      · exact h
      · rename_i hl _
        refine reportCanister_kept _ (setLevel_kept _ _ ?_ (kept_mapCan_same h rfl rfl))
        unfold loadInRange at hl
        simp only [Bool.not_eq_true', Bool.and_eq_false_iff, decide_eq_false_iff_not, not_or, Decidable.not_not] at hl
        exact hl.2

theorem ownCanLevel_kept (slot : Byte) (level : Word32) (h : Kept q lim s) : Kept q lim (ownCanLevel slot level s).after := by
  unfold ownCanLevel
  split
  · exact h
  · split
    · exact h
    · split
      · exact h
      · split
        · exact h
        · exact reportCanister_kept _ (setLevel_kept _ _ (by omega) h)

theorem ownCanQuery_kept (slot : Byte) (h : Kept q lim s) : Kept q lim (ownCanQuery slot s).after := by
  unfold ownCanQuery
  split <;> exact h

theorem ownCanClear_kept (slot : Byte) (h : Kept q lim s) : Kept q lim (ownCanClear slot s).after := by
  unfold ownCanClear
  split
  · exact h
  · split
    · exact h
    · split
      · exact h
      · rename_i i _ _ _
        have h1 : Kept q lim (s.mapCan i clearedCanister) :=
          kept_mapCan_lower h (Nat.le_of_eq (clearedCanister_level _)) (clearedCanister_miss _)
        exact kept_ite (reportCanister_kept _ h1) h1

theorem ownCalibrate_kept (slot : Byte) (mask : Option Byte) (h : Kept q lim s) :
    Kept q lim (ownCalibrate slot mask s).after := by
  unfold ownCalibrate
  repeat' split
  all_goals first | exact h | exact startCal_kept _ _ h

theorem ownCalAbort_kept (h : Kept q lim s) : Kept q lim (ownCalAbort s).after := by
  unfold ownCalAbort
  split
  · exact abortCal_kept (interruptOp_kept h)
  · exact h

theorem ownLids_kept (t : Byte) (h : Kept q lim s) : Kept q lim (ownLids t s).after := by
  unfold ownLids
  split
  · exact h
  · exact lidRecheck_kept ((kept_mapLid _).2 h)

theorem ownEventAck_kept (set : Word16) (h : Kept q lim s) : Kept q lim (ownEventAck set s).after := by
  unfold ownEventAck
  split
  · exact h
  · exact (kept_mapEvents _).2 h

theorem ownEventMask_kept (set : Word16) (h : Kept q lim s) : Kept q lim (ownEventMask set s).after := by
  unfold ownEventMask
  split
  · exact h
  · exact (kept_mapEvents _).2 h

theorem ownMode_kept (code : Byte) (h : Kept q lim s) : Kept q lim (ownMode code s).after := by
  unfold ownMode
  repeat' split
  all_goals first | exact h | exact withdrawStandingCall_kept ((kept_mapMon _).2 h)

theorem ownClearFault_kept (code : Byte) (h : Kept q lim s) : Kept q lim (ownClearFault code s).after := by
  unfold ownClearFault ownClearStation
  repeat' split
  all_goals first | exact h | exact clearBay_kept _ h | exact clearStation_kept h

theorem ownNvRead_kept (sector part : Byte) (h : Kept q lim s) : Kept q lim (ownNvRead sector part s).after := by
  unfold ownNvRead
  repeat' split
  all_goals exact h

theorem ownNvStore_kept (sector part : Byte) (image : List Byte) (h : Kept q lim s) :
    Kept q lim (ownNvStore sector part image s).after := by
  unfold ownNvStore
  repeat' split
  all_goals first | exact h | exact (kept_mapStore _).2 h

theorem ownPing_kept (payload : List Byte) (h : Kept q lim s) : Kept q lim (ownPing payload s).after := by
  unfold ownPing
  split <;> exact h

theorem ownerAnswer_kept (r : Request) (h : Kept q lim s) : Kept q lim (ownerAnswer r s).after := by
  cases r with
  | submit f => exact ownSubmit_kept f h
  | cancel job => exact ownCancel_kept job h
  | setPrio job p => exact ownSetPrio_kept job p h
  | queryJob job => exact ownQueryJob_kept job h
  | takeRecord => exact ownTakeRecord_kept h
  | canLoad f => exact ownCanLoad_kept f h
  | canLevel slot level => exact ownCanLevel_kept slot level h
  | canQuery slot => exact ownCanQuery_kept slot h
  | canClear slot => exact ownCanClear_kept slot h
  | calibrate slot mask => exact ownCalibrate_kept slot mask h
  | calAbort => exact ownCalAbort_kept h
  | lids t => exact ownLids_kept t h
  | eventAck set => exact ownEventAck_kept set h
  | eventMask set => exact ownEventMask_kept set h
  | mode code => exact ownMode_kept code h
  | clearFault code => exact ownClearFault_kept code h
  | resume => exact (kept_mapMon _).2 h
  | nvRead sector part => exact ownNvRead_kept sector part h
  | nvStore sector part image => exact ownNvStore_kept sector part image h
  | ping payload => exact ownPing_kept payload h
  | queryBays => exact h
  | events => exact h
  | peers => exact h
  | reset => exact h

theorem answerMessage_kept (m : Message) (h : Kept q lim s) : Kept q lim (answerMessage m s).after := by
  unfold answerMessage
  repeat' split
  all_goals first | exact h | exact ownerAnswer_kept _ h

@[simp] theorem takeMessage_kept (m : Message) (h : Kept q lim s) : Kept q lim (takeMessage m s) := (kept_mapPort _).2 (answerMessage_kept m h)

@[simp] theorem restartKeepalive_kept (h : Kept q lim s) : Kept q lim (restartKeepalive s) := by
  unfold restartKeepalive
  try dsimp only
  repeat' split
  all_goals first | assumption | (simp (maxDischargeDepth := 30) [*]; done) | simp (maxDischargeDepth := 30) (contextual := true) [*]

@[simp] theorem messageArrives_kept (m : Message) (h : Kept q lim s) : Kept q lim (messageArrives m s) := by
  unfold messageArrives
  try dsimp only
  repeat' split
  all_goals first | assumption | (simp (maxDischargeDepth := 30) [*]; done) | simp (maxDischargeDepth := 30) (contextual := true) [*]

@[simp] theorem requestArrives_kept (r : Request) (h : Kept q lim s) : Kept q lim (requestArrives r s) := by
  unfold requestArrives
  try dsimp only
  repeat' split
  all_goals first | assumption | (simp (maxDischargeDepth := 30) [*]; done) | simp (maxDischargeDepth := 30) (contextual := true) [*]

@[simp] theorem receiveByte_kept (b : Byte) (h : Kept q lim s) : Kept q lim (receiveByte b s) := by
  unfold receiveByte
  try dsimp only
  repeat' split
  all_goals first | assumption | (simp (maxDischargeDepth := 30) [*]; done) | simp (maxDischargeDepth := 30) (contextual := true) [*]

@[simp] theorem receiveBytes_kept (bytes : List Byte) (h : Kept q lim s) : Kept q lim (receiveBytes bytes s) := kept_foldl (fun _ b ht => receiveByte_kept b ht) bytes h

@[simp] theorem receiverGap_kept (h : Kept q lim s) : Kept q lim (receiverGap s) := by
  unfold receiverGap
  try dsimp only
  repeat' split
  all_goals first | assumption | (simp (maxDischargeDepth := 30) [*]; done) | simp (maxDischargeDepth := 30) (contextual := true) [*]

@[simp] theorem volatileReset_kept (h : Kept q lim s) : Kept q lim (volatileReset s) := by
  refine ⟨h.1, fun _ => ⟨Nat.zero_le _, fun i => ?_, Nat.zero_le _, ⟨show -Config.zeroLimit ≤ (0 : Int) by decide, show (0 : Int) ≤ Config.zeroLimit by decide⟩, ⟨Nat.zero_le _, Nat.zero_le _, List.Pairwise.nil⟩, Nat.zero_le _⟩⟩
  have : (volatileReset s).cans[i] = Canister.reset := by simp [volatileReset]
  rw [this]
  exact ⟨Nat.zero_le _, Nat.zero_le _⟩

@[simp] theorem scramble_kept (x : SectorId) (h : Kept q lim s) : Kept q lim (scramble x s) := by
  unfold scramble
  try dsimp only
  repeat' split
  all_goals first | assumption | (simp (maxDischargeDepth := 30) [*]; done) | simp (maxDischargeDepth := 30) (contextual := true) [*]

@[simp] theorem cutWrite_kept (h : Kept q lim s) : Kept q lim (cutWrite s) := by
  unfold cutWrite
  try dsimp only
  repeat' split
  all_goals first | assumption | (simp (maxDischargeDepth := 30) [*]; done) | simp (maxDischargeDepth := 30) (contextual := true) [*]

@[simp] theorem goDown_kept (p : Phase) (h : Kept q lim s) : Kept q lim (goDown p s) := by
  unfold goDown
  try dsimp only
  repeat' split
  all_goals first | assumption | (simp (maxDischargeDepth := 30) [*]; done) | simp (maxDischargeDepth := 30) (contextual := true) [*]

@[simp] theorem resetStart_kept (h : Kept q lim s) : Kept q lim (resetStart s) := by
  unfold resetStart
  try dsimp only
  repeat' split
  all_goals first | assumption | (simp (maxDischargeDepth := 30) [*]; done) | simp (maxDischargeDepth := 30) (contextual := true) [*]

@[simp] theorem storeWritten_kept (agrees : Bool) (w : WriteJob) (h : Kept q lim s) : Kept q lim (storeWritten agrees w s) := by
  unfold storeWritten
  try dsimp only
  repeat' split
  all_goals first | assumption | (simp (maxDischargeDepth := 30) [*]; done) | simp (maxDischargeDepth := 30) (contextual := true) [*]

@[simp] theorem endWrite_kept (agrees : Bool) (h : Kept q lim s) : Kept q lim (endWrite agrees s) := by
  unfold endWrite
  try dsimp only
  repeat' split
  all_goals first | assumption | (simp (maxDischargeDepth := 30) [*]; done) | simp (maxDischargeDepth := 30) (contextual := true) [*]

@[simp] theorem placeDisp_kept (h : Kept q lim s) : Kept q lim (placeDisp s) := by
  unfold placeDisp
  try dsimp only
  repeat' split
  all_goals first | assumption | (simp (maxDischargeDepth := 30) [*]; done) | simp (maxDischargeDepth := 30) (contextual := true) [*]

@[simp] theorem placeLid_kept (h : Kept q lim s) : Kept q lim (placeLid s) := by
  unfold placeLid
  try dsimp only
  repeat' split
  all_goals first | assumption | (simp (maxDischargeDepth := 30) [*]; done) | simp (maxDischargeDepth := 30) (contextual := true) [*]

@[simp] theorem placeShake_kept (h : Kept q lim s) : Kept q lim (placeShake s) := by
  unfold placeShake
  try dsimp only
  repeat' split
  all_goals first | assumption | (simp (maxDischargeDepth := 30) [*]; done) | simp (maxDischargeDepth := 30) (contextual := true) [*]

@[simp] theorem startOffline_kept (h : Kept q lim s) : Kept q lim (startOffline s) := by
  unfold startOffline
  try dsimp only
  repeat' split
  all_goals first | assumption | (simp (maxDischargeDepth := 30) [*]; done) | simp (maxDischargeDepth := 30) (contextual := true) [*]

@[simp] theorem startOnline_kept (h : Kept q lim s) : Kept q lim (startOnline s) := by
  have h1 : Kept q lim (placeShake (placeLid (placeDisp (startLine s)))) :=
    placeShake_kept (placeLid_kept (placeDisp_kept (startLine_kept h)))
  unfold startOnline
  exact kept_ite (applyEstop_kept h1) h1

@[simp] theorem startUp_kept (i : Inputs) (h : Kept q lim s) : Kept q lim (startUp i s) := by
  unfold startUp
  try dsimp only
  repeat' split
  all_goals first | assumption | (simp (maxDischargeDepth := 30) [*]; done) | simp (maxDischargeDepth := 30) (contextual := true) [*]

@[simp] theorem tickStir_kept (h : Kept q lim s) : Kept q lim (tickStir s) := by
  unfold tickStir
  try dsimp only
  repeat' split
  all_goals first | assumption | (simp (maxDischargeDepth := 30) [*]; done) | simp (maxDischargeDepth := 30) (contextual := true) [*]

@[simp] theorem tickPump_kept (h : Kept q lim s) : Kept q lim (tickPump s) := by
  unfold tickPump
  try dsimp only
  repeat' split
  all_goals first | assumption | (simp (maxDischargeDepth := 30) [*]; done) | simp (maxDischargeDepth := 30) (contextual := true) [*]

@[simp] theorem tickScale_kept (h : Kept q lim s) : Kept q lim (tickScale s) := by
  unfold tickScale
  try dsimp only
  repeat' split
  all_goals first | assumption | (simp (maxDischargeDepth := 30) [*]; done) | simp (maxDischargeDepth := 30) (contextual := true) [*]

@[simp] theorem tickCarriage_kept (h : Kept q lim s) : Kept q lim (tickCarriage s) := by
  unfold tickCarriage
  try dsimp only
  repeat' split
  all_goals first | assumption | (simp (maxDischargeDepth := 30) [*]; done) | simp (maxDischargeDepth := 30) (contextual := true) [*]

@[simp] theorem tickLid_kept (h : Kept q lim s) : Kept q lim (tickLid s) := by
  unfold tickLid
  try dsimp only
  repeat' split
  all_goals first | assumption | (simp (maxDischargeDepth := 30) [*]; done) | simp (maxDischargeDepth := 30) (contextual := true) [*]

@[simp] theorem tickShake_kept (h : Kept q lim s) : Kept q lim (tickShake s) := by
  unfold tickShake
  try dsimp only
  repeat' split
  all_goals first | assumption | (simp (maxDischargeDepth := 30) [*]; done) | simp (maxDischargeDepth := 30) (contextual := true) [*]

@[simp] theorem tickLine_kept (h : Kept q lim s) : Kept q lim (tickLine s) := by
  unfold tickLine
  try dsimp only
  repeat' split
  all_goals first | assumption | (simp (maxDischargeDepth := 30) [*]; done) | simp (maxDischargeDepth := 30) (contextual := true) [*]

@[simp] theorem tickMon_kept (h : Kept q lim s) : Kept q lim (tickMon s) := by
  unfold tickMon
  try dsimp only
  repeat' split
  all_goals first | assumption | (simp (maxDischargeDepth := 30) [*]; done) | simp (maxDischargeDepth := 30) (contextual := true) [*]

@[simp] theorem tick_kept (h : Kept q lim s) : Kept q lim (tick s) := by
  unfold tick
  try dsimp only
  repeat' split
  all_goals first | assumption | (simp (maxDischargeDepth := 30) [*]; done) | simp (maxDischargeDepth := 30) (contextual := true) [*]

end Sys2Proof.Laws
end

