-- ==== Sys2Proof/Laws/KeptCommands.lean ====
section
/-! SUPPORT. Every operation keeps the queue of commands and the limits of Safety.lean: the commands: each answers a next state. -/

namespace Sys2Proof.Laws

open Sys2Proof Sys2Proof.Machine Sys2Proof.Safety

variable {q : List Instr} {lim : Prop} {s : State}

@[simp] theorem endResponse_kept (h : Kept q lim s) : Kept q lim (endResponse s) := by
  unfold endResponse
  try dsimp only
  repeat' split
  all_goals first | assumption | (simp (maxDischargeDepth := 30) [*]; done) | simp (maxDischargeDepth := 30) (contextual := true) [*]

@[simp] theorem keepaliveLost_kept (h : Kept q lim s) : Kept q lim (keepaliveLost s) := by
  unfold keepaliveLost
  try dsimp only
  repeat' split
  all_goals first | assumption | (simp (maxDischargeDepth := 30) [*]; done) | simp (maxDischargeDepth := 30) (contextual := true) [*]

@[simp] theorem restartChecks_kept (h : Kept q lim s) : Kept q lim (restartChecks s) := by
  unfold restartChecks
  try dsimp only
  repeat' split
  all_goals first | assumption | (simp (maxDischargeDepth := 30) [*]; done) | simp (maxDischargeDepth := 30) (contextual := true) [*]

@[simp] theorem ageStirs_kept (h : Kept q lim s) : Kept q lim (ageStirs s) := kept_mapCans_map (kept_mapStir_shorter h (Nat.le_refl _)) (fun _ => rfl) (fun _ => rfl)

@[simp] theorem slowStir_kept (i : Slot) (h : Kept q lim s) : Kept q lim (slowStir i s) := by
  unfold slowStir
  try dsimp only
  repeat' split
  all_goals first | assumption | (simp (maxDischargeDepth := 30) [*]; done) | simp (maxDischargeDepth := 30) (contextual := true) [*]

@[simp] theorem fastStir_kept (i : Slot) (h : Kept q lim s) : Kept q lim (fastStir i s) := by
  unfold fastStir
  try dsimp only
  repeat' split
  all_goals first | assumption | (simp (maxDischargeDepth := 30) [*]; done) | simp (maxDischargeDepth := 30) (contextual := true) [*]

@[simp] theorem checkExpires_kept (i : Slot) (h : Kept q lim s) : Kept q lim (checkExpires i s) := by
  unfold checkExpires
  try dsimp only
  repeat' split
  all_goals first | assumption | (simp (maxDischargeDepth := 30) [*]; done) | simp (maxDischargeDepth := 30) (contextual := true) [*]

@[simp] theorem runExpires_kept (i : Slot) (h : Kept q lim s) : Kept q lim (runExpires i s) := by
  unfold runExpires
  try dsimp only
  repeat' split
  all_goals first | assumption | (simp (maxDischargeDepth := 30) [*]; done) | simp (maxDischargeDepth := 30) (contextual := true) [*]

@[simp] theorem pumpStalled_kept (i : Slot) (h : Kept q lim s) : Kept q lim (pumpStalled i s) := by
  unfold pumpStalled
  try dsimp only
  repeat' split
  all_goals first | assumption | (simp (maxDischargeDepth := 30) [*]; done) | simp (maxDischargeDepth := 30) (contextual := true) [*]

@[simp] theorem endSegment_kept (o : PumpOp) (h : Kept q lim s) : Kept q lim (endSegment o s) := by
  unfold endSegment
  try dsimp only
  repeat' split
  all_goals first | assumption | (simp (maxDischargeDepth := 30) [*]; done) | simp (maxDischargeDepth := 30) (contextual := true) [*]

@[simp] theorem segmentEnds_kept (h : Kept q lim s) : Kept q lim (segmentEnds s) := by
  unfold segmentEnds
  try dsimp only
  repeat' split
  all_goals first | assumption | (simp (maxDischargeDepth := 30) [*]; done) | simp (maxDischargeDepth := 30) (contextual := true) [*]

@[simp] theorem saturatedSample_kept (raw : Int) (h : Kept q lim s) : Kept q lim (saturatedSample raw s) := by
  unfold saturatedSample
  try dsimp only
  repeat' split
  all_goals first | assumption | (simp (maxDischargeDepth := 30) [*]; done) | simp (maxDischargeDepth := 30) (contextual := true) [*]

@[simp] theorem reportCrossing_kept (above : Bool) (h : Kept q lim s) : Kept q lim (reportCrossing above s) := by
  unfold reportCrossing
  try dsimp only
  repeat' split
  all_goals first | assumption | (simp (maxDischargeDepth := 30) [*]; done) | simp (maxDischargeDepth := 30) (contextual := true) [*]

@[simp] theorem testThreshold_kept (net : Int) (h : Kept q lim s) : Kept q lim (testThreshold net s) := by
  unfold testThreshold
  try dsimp only
  repeat' split
  all_goals first | assumption | (simp (maxDischargeDepth := 30) [*]; done) | simp (maxDischargeDepth := 30) (contextual := true) [*]

@[simp] theorem produceReading_kept (h : Kept q lim s) : Kept q lim (produceReading s) := by
  unfold produceReading
  try dsimp only
  repeat' split
  all_goals first | assumption | (simp (maxDischargeDepth := 30) [*]; done) | simp (maxDischargeDepth := 30) (contextual := true) [*]

@[simp] theorem offerSample_kept (net : Int) (h : Kept q lim s) : Kept q lim (offerSample net s) := by
  unfold offerSample
  try dsimp only
  repeat' split
  all_goals first | assumption | (simp (maxDischargeDepth := 30) [*]; done) | simp (maxDischargeDepth := 30) (contextual := true) [*]

@[simp] theorem takeSample_kept (raw : Int) (h : Kept q lim s) : Kept q lim (takeSample raw s) := by
  unfold takeSample
  try dsimp only
  repeat' split
  all_goals first | assumption | (simp (maxDischargeDepth := 30) [*]; done) | simp (maxDischargeDepth := 30) (contextual := true) [*]

@[simp] theorem settleExpires_kept (h : Kept q lim s) : Kept q lim (settleExpires s) := by
  unfold settleExpires
  try dsimp only
  repeat' split
  all_goals first | assumption | (simp (maxDischargeDepth := 30) [*]; done) | simp (maxDischargeDepth := 30) (contextual := true) [*]

@[simp] theorem dispTinOn_kept (h : Kept q lim s) : Kept q lim (dispTinOn s) := by
  unfold dispTinOn
  try dsimp only
  repeat' split
  all_goals first | assumption | (simp (maxDischargeDepth := 30) [*]; done) | simp (maxDischargeDepth := 30) (contextual := true) [*]

@[simp] theorem heldTinOff_kept (h : Kept q lim s) : Kept q lim (heldTinOff s) := by
  unfold heldTinOff
  try dsimp only
  repeat' split
  all_goals first | assumption | (simp (maxDischargeDepth := 30) [*]; done) | simp (maxDischargeDepth := 30) (contextual := true) [*]

@[simp] theorem cupLifted_kept (h : Kept q lim s) : Kept q lim (cupLifted s) := by
  unfold cupLifted
  try dsimp only
  repeat' split
  all_goals first | assumption | (simp (maxDischargeDepth := 30) [*]; done) | simp (maxDischargeDepth := 30) (contextual := true) [*]

@[simp] theorem dispTinOff_kept (h : Kept q lim s) : Kept q lim (dispTinOff s) := by
  unfold dispTinOff
  try dsimp only
  repeat' split
  all_goals first | assumption | (simp (maxDischargeDepth := 30) [*]; done) | simp (maxDischargeDepth := 30) (contextual := true) [*]

@[simp] theorem arrivalSensed_kept (h : Kept q lim s) : Kept q lim (arrivalSensed s) := by
  unfold arrivalSensed
  try dsimp only
  repeat' split
  all_goals first | assumption | (simp (maxDischargeDepth := 30) [*]; done) | simp (maxDischargeDepth := 30) (contextual := true) [*]

@[simp] theorem moveJams_kept (h : Kept q lim s) : Kept q lim (moveJams s) := by
  unfold moveJams
  try dsimp only
  repeat' split
  all_goals first | assumption | (simp (maxDischargeDepth := 30) [*]; done) | simp (maxDischargeDepth := 30) (contextual := true) [*]

@[simp] theorem homeSensed_kept (h : Kept q lim s) : Kept q lim (homeSensed s) := by
  unfold homeSensed
  try dsimp only
  repeat' split
  all_goals first | assumption | (simp (maxDischargeDepth := 30) [*]; done) | simp (maxDischargeDepth := 30) (contextual := true) [*]

@[simp] theorem strokeFails_kept (k : FaultKind) (h : Kept q lim s) : Kept q lim (strokeFails k s) := by
  unfold strokeFails
  try dsimp only
  repeat' split
  all_goals first | assumption | (simp (maxDischargeDepth := 30) [*]; done) | simp (maxDischargeDepth := 30) (contextual := true) [*]

@[simp] theorem seatedSensed_kept (h : Kept q lim s) : Kept q lim (seatedSensed s) := by
  unfold seatedSensed
  try dsimp only
  repeat' split
  all_goals first | assumption | (simp (maxDischargeDepth := 30) [*]; done) | simp (maxDischargeDepth := 30) (contextual := true) [*]

@[simp] theorem seatExpires_kept (h : Kept q lim s) : Kept q lim (seatExpires s) := by
  unfold seatExpires
  try dsimp only
  repeat' split
  all_goals first | assumption | (simp (maxDischargeDepth := 30) [*]; done) | simp (maxDischargeDepth := 30) (contextual := true) [*]

@[simp] theorem pressHomeSensed_kept (h : Kept q lim s) : Kept q lim (pressHomeSensed s) := by
  unfold pressHomeSensed
  try dsimp only
  repeat' split
  all_goals first | assumption | (simp (maxDischargeDepth := 30) [*]; done) | simp (maxDischargeDepth := 30) (contextual := true) [*]

@[simp] theorem homeExpires_kept (h : Kept q lim s) : Kept q lim (homeExpires s) := by
  unfold homeExpires
  try dsimp only
  repeat' split
  all_goals first | assumption | (simp (maxDischargeDepth := 30) [*]; done) | simp (maxDischargeDepth := 30) (contextual := true) [*]

@[simp] theorem guardChanged_kept (isOpen : Bool) (h : Kept q lim s) : Kept q lim (guardChanged isOpen s) := by
  unfold guardChanged
  try dsimp only
  repeat' split
  all_goals first | assumption | (simp (maxDischargeDepth := 30) [*]; done) | simp (maxDischargeDepth := 30) (contextual := true) [*]

@[simp] theorem lidTinOff_kept (h : Kept q lim s) : Kept q lim (lidTinOff s) := by
  unfold lidTinOff
  try dsimp only
  repeat' split
  all_goals first | assumption | (simp (maxDischargeDepth := 30) [*]; done) | simp (maxDischargeDepth := 30) (contextual := true) [*]

@[simp] theorem clampSensed_kept (closed : Bool) (h : Kept q lim s) : Kept q lim (clampSensed closed s) := by
  unfold clampSensed
  try dsimp only
  repeat' split
  all_goals first | assumption | (simp (maxDischargeDepth := 30) [*]; done) | simp (maxDischargeDepth := 30) (contextual := true) [*]

@[simp] theorem clampExpires_kept (h : Kept q lim s) : Kept q lim (clampExpires s) := by
  unfold clampExpires
  try dsimp only
  repeat' split
  all_goals first | assumption | (simp (maxDischargeDepth := 30) [*]; done) | simp (maxDischargeDepth := 30) (contextual := true) [*]

@[simp] theorem judgeSpeed_kept (period : Nat) (h : Kept q lim s) : Kept q lim (judgeSpeed period s) := by
  unfold judgeSpeed
  try dsimp only
  repeat' split
  all_goals first | assumption | (simp (maxDischargeDepth := 30) [*]; done) | simp (maxDischargeDepth := 30) (contextual := true) [*]

@[simp] theorem measure_kept (period : Nat) (h : Kept q lim s) : Kept q lim (Machine.measure period s) := by
  unfold Machine.measure
  try dsimp only
  repeat' split
  all_goals first | assumption | (simp (maxDischargeDepth := 30) [*]; done) | simp (maxDischargeDepth := 30) (contextual := true) [*]

@[simp] theorem saturatedSpeed_kept (h : Kept q lim s) : Kept q lim (saturatedSpeed s) := by
  unfold saturatedSpeed
  try dsimp only
  repeat' split
  all_goals first | assumption | (simp (maxDischargeDepth := 30) [*]; done) | simp (maxDischargeDepth := 30) (contextual := true) [*]

@[simp] theorem secondRun_kept (h : Kept q lim s) : Kept q lim (secondRun s) := by
  unfold secondRun
  try dsimp only
  repeat' split
  all_goals first | assumption | (simp (maxDischargeDepth := 30) [*]; done) | simp (maxDischargeDepth := 30) (contextual := true) [*]

@[simp] theorem runEnds_kept (h : Kept q lim s) : Kept q lim (runEnds s) := by
  unfold runEnds
  try dsimp only
  repeat' split
  all_goals first | assumption | (simp (maxDischargeDepth := 30) [*]; done) | simp (maxDischargeDepth := 30) (contextual := true) [*]

@[simp] theorem shakeTinOff_kept (h : Kept q lim s) : Kept q lim (shakeTinOff s) := by
  unfold shakeTinOff
  try dsimp only
  repeat' split
  all_goals first | assumption | (simp (maxDischargeDepth := 30) [*]; done) | simp (maxDischargeDepth := 30) (contextual := true) [*]

@[simp] theorem loseArbitration_kept (h : Kept q lim s) : Kept q lim (loseArbitration s) := by
  unfold loseArbitration
  try dsimp only
  repeat' split
  all_goals first | assumption | (simp (maxDischargeDepth := 30) [*]; done) | simp (maxDischargeDepth := 30) (contextual := true) [*]

@[simp] theorem transmitFails_kept (h : Kept q lim s) : Kept q lim (transmitFails s) := by
  unfold transmitFails
  try dsimp only
  repeat' split
  all_goals first | assumption | (simp (maxDischargeDepth := 30) [*]; done) | simp (maxDischargeDepth := 30) (contextual := true) [*]

@[simp] theorem frameEnds_kept (h : Kept q lim s) : Kept q lim (frameEnds s) := by
  unfold frameEnds
  try dsimp only
  repeat' split
  all_goals first | assumption | (simp (maxDischargeDepth := 30) [*]; done) | simp (maxDischargeDepth := 30) (contextual := true) [*]

@[simp] theorem waitExpires_kept (p : Pool) (h : Kept q lim s) : Kept q lim (waitExpires p s) := by
  unfold waitExpires
  try dsimp only
  repeat' split
  all_goals first | assumption | (simp (maxDischargeDepth := 30) [*]; done) | simp (maxDischargeDepth := 30) (contextual := true) [*]

/-! ## Commands -/

/-- The answer is a next state that keeps the queue and the limits. -/
def OutcomeKept (q : List Instr) (lim : Prop) (o : Host.Outcome State Fault Refusal) : Prop :=
  ∃ t, o = .next t ∧ Kept q lim t

theorem whenServing_kept {f : State → State} (hf : ∀ t, Kept q lim t → Kept q lim (f t)) (h : Kept q lim s) :
    OutcomeKept q lim (.next (whenServing f s)) :=
  ⟨_, rfl, kept_ite (settle_kept (hf _ h)) h⟩

theorem whenOnline_kept {f : State → State} (hf : ∀ t, Kept q lim t → Kept q lim (f t)) (h : Kept q lim s) :
    OutcomeKept q lim (.next (whenOnline f s)) :=
  ⟨_, rfl, kept_ite (settle_kept (hf _ h)) h⟩

theorem whenSensed_kept {l : Inputs → Inputs} {f : State → State} (hf : ∀ t, Kept q lim t → Kept q lim (f t))
    (h : Kept q lim s) : OutcomeKept q lim (.next (whenSensed (State.mapInputs l) f s)) :=
  ⟨_, rfl, kept_ite (settle_kept (hf _ ((kept_mapInputs _).2 h))) (kept_ite ((kept_mapInputs _).2 h) h)⟩

theorem request_kept (r : Request) (h : Kept q lim s) : OutcomeKept q lim (.next (whenServing (requestArrives r) s)) :=
  whenServing_kept (fun _ ht => requestArrives_kept r ht) h

theorem receive_kept {act : State → State} (src : Station) (ha : ∀ t, Kept q lim t → Kept q lim (act t))
    (h : Kept q lim s) : Kept q lim (receive src act s) := by
  unfold receive
  split
  · exact h
  · have h0 : Kept q lim (s.mapLine fun c => { c with awaitIdle := false }) := kept_mapLine_same h rfl rfl rfl
    dsimp only
    split
    · exact kept_ite h0 (barLine_kept h0)
    · exact ha _ (mapEntry_kept _ _ h0)

theorem execPowerOn_kept (h : Kept q lim s) : OutcomeKept q lim (execPowerOn s) :=
  ⟨_, rfl, by simp [h]⟩

theorem execResetLine_kept (active : Bool) (h : Kept q lim s) : OutcomeKept q lim (execResetLine active s) :=
  ⟨_, rfl, kept_ite h (kept_ite (goDown_kept _ (cutWrite_kept h)) (kept_ite ((kept_mapPhase _).2 h) h))⟩

theorem execStartUp_kept (inputs : Inputs) (h : Kept q lim s) : OutcomeKept q lim (execStartUp inputs s) :=
  ⟨_, rfl, kept_ite (settle_kept (startUp_kept _ h)) h⟩

theorem execNvWriteDone_kept (agrees : Bool) (h : Kept q lim s) : OutcomeKept q lim (execNvWriteDone agrees s) :=
  ⟨_, rfl, by simp [h]⟩

theorem execPowerLoss_kept (h : Kept q lim s) : OutcomeKept q lim (execPowerLoss s) :=
  ⟨_, rfl, by simp [h]⟩

theorem execMessageComplete_kept (bytes : List Byte) (h : Kept q lim s) : OutcomeKept q lim (execMessageComplete bytes s) :=
  whenServing_kept (fun _ ht => by simp [ht]) h

theorem execMessageGap_kept (h : Kept q lim s) : OutcomeKept q lim (execMessageGap s) :=
  whenServing_kept (fun _ ht => by simp [ht]) h

theorem execOversizeMessage_kept (length : Word16) (h : Kept q lim s) : OutcomeKept q lim (execOversizeMessage length s) :=
  whenServing_kept (fun _ ht => by simp [ht]) h

theorem execResponseSent_kept (h : Kept q lim s) : OutcomeKept q lim (execResponseSent s) :=
  whenServing_kept (fun _ ht => by simp [ht]) h

theorem execSubmit_kept (f : SubmitFields) (h : Kept q lim s) : OutcomeKept q lim (execSubmit f s) :=
  request_kept (.submit f) h

theorem execCancel_kept (job : Word16) (h : Kept q lim s) : OutcomeKept q lim (execCancel job s) :=
  request_kept (.cancel job) h

theorem execSetPrio_kept (job : Word16) (priority : Byte) (h : Kept q lim s) : OutcomeKept q lim (execSetPrio job priority s) :=
  request_kept (.setPrio job priority) h

theorem execQueryJob_kept (job : Word16) (h : Kept q lim s) : OutcomeKept q lim (execQueryJob job s) :=
  request_kept (.queryJob job) h

theorem execQueryBays_kept (h : Kept q lim s) : OutcomeKept q lim (execQueryBays s) :=
  request_kept .queryBays h

theorem execTakeRecord_kept (h : Kept q lim s) : OutcomeKept q lim (execTakeRecord s) :=
  request_kept .takeRecord h

theorem execCanLoad_kept (f : CanLoadFields) (h : Kept q lim s) : OutcomeKept q lim (execCanLoad f s) :=
  request_kept (.canLoad f) h

theorem execCanLevel_kept (slot : Byte) (level : Word32) (h : Kept q lim s) : OutcomeKept q lim (execCanLevel slot level s) :=
  request_kept (.canLevel slot level) h

theorem execCanQuery_kept (slot : Byte) (h : Kept q lim s) : OutcomeKept q lim (execCanQuery slot s) :=
  request_kept (.canQuery slot) h

theorem execCanClear_kept (slot : Byte) (h : Kept q lim s) : OutcomeKept q lim (execCanClear slot s) :=
  request_kept (.canClear slot) h

theorem execCalibrate_kept (slot : Byte) (mask : Option Byte) (h : Kept q lim s) : OutcomeKept q lim (execCalibrate slot mask s) :=
  request_kept (.calibrate slot mask) h

theorem execCalAbort_kept (h : Kept q lim s) : OutcomeKept q lim (execCalAbort s) :=
  request_kept .calAbort h

theorem execLids_kept (lidType : Byte) (h : Kept q lim s) : OutcomeKept q lim (execLids lidType s) :=
  request_kept (.lids lidType) h

theorem execEvents_kept (h : Kept q lim s) : OutcomeKept q lim (execEvents s) :=
  request_kept .events h

theorem execEventAck_kept (set : Word16) (h : Kept q lim s) : OutcomeKept q lim (execEventAck set s) :=
  request_kept (.eventAck set) h

theorem execEventMask_kept (set : Word16) (h : Kept q lim s) : OutcomeKept q lim (execEventMask set s) :=
  request_kept (.eventMask set) h

theorem execMode_kept (code : Byte) (h : Kept q lim s) : OutcomeKept q lim (execMode code s) :=
  request_kept (.mode code) h

theorem execClearFault_kept (code : Byte) (h : Kept q lim s) : OutcomeKept q lim (execClearFault code s) :=
  request_kept (.clearFault code) h

theorem execClearFaultStation_kept (h : Kept q lim s) : OutcomeKept q lim (execClearFaultStation s) :=
  request_kept (.clearFault 3) h

theorem execResume_kept (h : Kept q lim s) : OutcomeKept q lim (execResume s) :=
  request_kept .resume h

theorem execPeers_kept (h : Kept q lim s) : OutcomeKept q lim (execPeers s) :=
  request_kept .peers h

theorem execNvRead_kept (sector part : Byte) (h : Kept q lim s) : OutcomeKept q lim (execNvRead sector part s) :=
  request_kept (.nvRead sector part) h

theorem execNvStore_kept (sector part : Byte) (image : List Byte) (h : Kept q lim s) : OutcomeKept q lim (execNvStore sector part image s) :=
  request_kept (.nvStore sector part image) h

theorem execReset_kept (h : Kept q lim s) : OutcomeKept q lim (execReset s) :=
  request_kept .reset h

theorem execPing_kept (payload : List Byte) (h : Kept q lim s) : OutcomeKept q lim (execPing payload s) :=
  request_kept (.ping payload) h

theorem execKeepaliveExpiry_kept (h : Kept q lim s) : OutcomeKept q lim (execKeepaliveExpiry s) :=
  whenOnline_kept (fun _ ht => by simp [ht]) h

theorem execEmergencyStop_kept (h : Kept q lim s) : OutcomeKept q lim (execEmergencyStop s) :=
  whenSensed_kept (fun _ ht => by simp [ht]) h

theorem execEstopInputReleased_kept (h : Kept q lim s) : OutcomeKept q lim (execEstopInputReleased s) :=
  whenSensed_kept (fun _ ht => by simp [ht]) h

theorem execCabinetDoorOpen_kept (h : Kept q lim s) : OutcomeKept q lim (execCabinetDoorOpen s) :=
  whenSensed_kept (fun _ ht => by simp [ht]) h

theorem execCabinetDoorClose_kept (h : Kept q lim s) : OutcomeKept q lim (execCabinetDoorClose s) :=
  whenSensed_kept (fun _ ht => by simp [ht]) h

theorem execMinuteTimer_kept (h : Kept q lim s) : OutcomeKept q lim (execMinuteTimer s) :=
  whenOnline_kept (fun _ ht => by simp [ht]) h

theorem execStirrerRevolution_kept (slot : Slot) (period : Nat) (h : Kept q lim s) : OutcomeKept q lim (execStirrerRevolution slot period s) :=
  whenOnline_kept (fun _ ht => by simp [ht]) h

theorem execStirrerSpeedSaturated_kept (slot : Slot) (h : Kept q lim s) : OutcomeKept q lim (execStirrerSpeedSaturated slot s) :=
  whenOnline_kept (fun _ ht => by simp [ht]) h

theorem execStirSpeedTimeout_kept (slot : Slot) (h : Kept q lim s) : OutcomeKept q lim (execStirSpeedTimeout slot s) :=
  whenOnline_kept (fun _ ht => by simp [ht]) h

theorem execStirRunExpiry_kept (slot : Slot) (h : Kept q lim s) : OutcomeKept q lim (execStirRunExpiry slot s) :=
  whenOnline_kept (fun _ ht => by simp [ht]) h

theorem execValveTurnDone_kept (h : Kept q lim s) : OutcomeKept q lim (execValveTurnDone s) :=
  whenOnline_kept (fun _ ht => by simp [ht]) h

theorem execRotationPulse_kept (slot : Slot) (h : Kept q lim s) : OutcomeKept q lim (execRotationPulse slot s) :=
  whenOnline_kept (fun _ ht => by simp [ht]) h

theorem execPumpSegmentEnd_kept (h : Kept q lim s) : OutcomeKept q lim (execPumpSegmentEnd s) :=
  whenOnline_kept (fun _ ht => by simp [ht]) h

theorem execScaleSample_kept (raw : Int) (h : Kept q lim s) : OutcomeKept q lim (execScaleSample raw s) :=
  whenOnline_kept (fun _ ht => by simp [ht]) h

theorem execBlankTimerExpiry_kept (h : Kept q lim s) : OutcomeKept q lim (execBlankTimerExpiry s) :=
  whenOnline_kept (fun _ ht => by simp [ht]) h

theorem execSettleTimeout_kept (h : Kept q lim s) : OutcomeKept q lim (execSettleTimeout s) :=
  whenOnline_kept (fun _ ht => by simp [ht]) h

theorem execTinPresenceDispense_kept (on : Bool) (h : Kept q lim s) : OutcomeKept q lim (execTinPresenceDispense on s) :=
  by cases on <;> exact whenSensed_kept (fun _ ht => by simp [ht]) h

theorem execRecordJoin_kept (h : Kept q lim s) : OutcomeKept q lim (execRecordJoin s) :=
  whenOnline_kept (fun _ ht => by simp [ht]) h

theorem execCarriageMoveStart_kept (h : Kept q lim s) : OutcomeKept q lim (execCarriageMoveStart s) :=
  whenOnline_kept (fun _ ht => by simp [ht]) h

theorem execQuietDeferralExpiry_kept (owner : StartOwner) (h : Kept q lim s) : OutcomeKept q lim (execQuietDeferralExpiry owner s) :=
  whenOnline_kept (fun _ ht => by simp [ht]) h

theorem execCarriageArrival_kept (h : Kept q lim s) : OutcomeKept q lim (execCarriageArrival s) :=
  whenOnline_kept (fun _ ht => by simp [ht]) h

theorem execMoveTimeout_kept (h : Kept q lim s) : OutcomeKept q lim (execMoveTimeout s) :=
  whenOnline_kept (fun _ ht => by simp [ht]) h

theorem execHomeRunStart_kept (h : Kept q lim s) : OutcomeKept q lim (execHomeRunStart s) :=
  whenOnline_kept (fun _ ht => by simp [ht]) h

theorem execCarriageHome_kept (h : Kept q lim s) : OutcomeKept q lim (execCarriageHome s) :=
  whenOnline_kept (fun _ ht => by simp [ht]) h

theorem execMagazineSensor_kept (present : Bool) (h : Kept q lim s) : OutcomeKept q lim (execMagazineSensor present s) :=
  whenSensed_kept (fun _ ht => by simp [ht]) h

theorem execPressStart_kept (h : Kept q lim s) : OutcomeKept q lim (execPressStart s) :=
  whenOnline_kept (fun _ ht => by simp [ht]) h

theorem execLidSeated_kept (h : Kept q lim s) : OutcomeKept q lim (execLidSeated s) :=
  whenOnline_kept (fun _ ht => by simp [ht]) h

theorem execSeatLimit_kept (h : Kept q lim s) : OutcomeKept q lim (execSeatLimit s) :=
  whenOnline_kept (fun _ ht => by simp [ht]) h

theorem execDwellExpiry_kept (h : Kept q lim s) : OutcomeKept q lim (execDwellExpiry s) :=
  whenOnline_kept (fun _ ht => by simp [ht]) h

theorem execPressHomeSensor_kept (h : Kept q lim s) : OutcomeKept q lim (execPressHomeSensor s) :=
  whenSensed_kept (fun _ ht => by simp [ht]) h

theorem execHomeLimit_kept (h : Kept q lim s) : OutcomeKept q lim (execHomeLimit s) :=
  whenOnline_kept (fun _ ht => by simp [ht]) h

theorem execPressGuard_kept (isOpen : Bool) (h : Kept q lim s) : OutcomeKept q lim (execPressGuard isOpen s) :=
  whenSensed_kept (fun _ ht => by simp [ht]) h

theorem execTinPresenceLid_kept (on : Bool) (h : Kept q lim s) : OutcomeKept q lim (execTinPresenceLid on s) :=
  by cases on <;> exact whenSensed_kept (fun _ ht => by simp [ht]) h

theorem execClampSensor_kept (closed : Bool) (h : Kept q lim s) : OutcomeKept q lim (execClampSensor closed s) :=
  whenSensed_kept (fun _ ht => by simp [ht]) h

theorem execClampTimeout_kept (h : Kept q lim s) : OutcomeKept q lim (execClampTimeout s) :=
  whenOnline_kept (fun _ ht => by simp [ht]) h

theorem execSpinUpStart_kept (h : Kept q lim s) : OutcomeKept q lim (execSpinUpStart s) :=
  whenOnline_kept (fun _ ht => by simp [ht]) h

theorem execShakerRevolution_kept (period : Nat) (h : Kept q lim s) : OutcomeKept q lim (execShakerRevolution period s) :=
  whenOnline_kept (fun _ ht => by simp [ht]) h

theorem execShakerSpeedSaturated_kept (h : Kept q lim s) : OutcomeKept q lim (execShakerSpeedSaturated s) :=
  whenOnline_kept (fun _ ht => by simp [ht]) h

theorem execSpinUpTimeout_kept (h : Kept q lim s) : OutcomeKept q lim (execSpinUpTimeout s) :=
  whenOnline_kept (fun _ ht => by simp [ht]) h

theorem execShakeSecond_kept (h : Kept q lim s) : OutcomeKept q lim (execShakeSecond s) :=
  whenOnline_kept (fun _ ht => by simp [ht]) h

theorem execShakeRunExpiry_kept (h : Kept q lim s) : OutcomeKept q lim (execShakeRunExpiry s) :=
  whenOnline_kept (fun _ ht => by simp [ht]) h

theorem execTinPresenceShake_kept (on : Bool) (h : Kept q lim s) : OutcomeKept q lim (execTinPresenceShake on s) :=
  by cases on <;> exact whenSensed_kept (fun _ ht => by simp [ht]) h

theorem execFrameStart_kept (h : Kept q lim s) : OutcomeKept q lim (execFrameStart s) :=
  whenOnline_kept (fun _ ht => by simp [ht]) h

theorem execArbitrationLost_kept (h : Kept q lim s) : OutcomeKept q lim (execArbitrationLost s) :=
  whenOnline_kept (fun _ ht => by simp [ht]) h

theorem execTransmitError_kept (h : Kept q lim s) : OutcomeKept q lim (execTransmitError s) :=
  whenOnline_kept (fun _ ht => by simp [ht]) h

theorem execFrameSent_kept (h : Kept q lim s) : OutcomeKept q lim (execFrameSent s) :=
  whenOnline_kept (fun _ ht => by simp [ht]) h

theorem execFrameDiscarded_kept (cause : DiscardCause) (h : Kept q lim s) : OutcomeKept q lim (execFrameDiscarded cause s) :=
  whenOnline_kept (fun _ ht => by simp [ht]) h

theorem execClaimReceived_kept (src : Station) (pool : Pool) (amount : Byte) (h : Kept q lim s) : OutcomeKept q lim (execClaimReceived src pool amount s) :=
  whenOnline_kept (fun t ht => by
    split
    · exact discardFrame_kept ht
    · exact receive_kept _ (fun _ hu => thenTell_kept (by simp [hu])) ht) h

theorem execAdjustReceived_kept (src : Station) (pool : Pool) (amount : Byte) (h : Kept q lim s) : OutcomeKept q lim (execAdjustReceived src pool amount s) :=
  whenOnline_kept (fun t ht => by
    split
    · exact discardFrame_kept ht
    · exact receive_kept _ (fun _ hu => by simp [hu]) ht) h

theorem execReleaseReceived_kept (src : Station) (pool : Pool) (h : Kept q lim s) : OutcomeKept q lim (execReleaseReceived src pool s) :=
  whenOnline_kept (fun t ht => receive_kept _ (fun _ hu => thenTell_kept (by simp [hu])) ht) h

theorem execWaitReceived_kept (src : Station) (pool : Pool) (amount count : Byte) (h : Kept q lim s) : OutcomeKept q lim (execWaitReceived src pool amount count s) :=
  whenOnline_kept (fun t ht => by
    split
    · exact discardFrame_kept ht
    · exact receive_kept _ (fun _ hu => thenTell_kept (by simp [hu])) ht) h

theorem execBeaconReceived_kept (src : Station) (contents : Beacon) (h : Kept q lim s) : OutcomeKept q lim (execBeaconReceived src contents s) :=
  whenOnline_kept (fun t ht => by
    split
    · exact receive_kept _ (fun _ hu => thenTell_kept (by simp [hu])) ht
    · exact discardFrame_kept ht) h

theorem execBeaconTimerExpiry_kept (h : Kept q lim s) : OutcomeKept q lim (execBeaconTimerExpiry s) :=
  whenOnline_kept (fun _ ht => by simp [ht]) h

theorem execRosterAgeOut_kept (station : Station) (h : Kept q lim s) : OutcomeKept q lim (execRosterAgeOut station s) :=
  whenOnline_kept (fun _ ht => by simp [ht]) h

theorem execWaitTimerExpiry_kept (pool : Pool) (h : Kept q lim s) : OutcomeKept q lim (execWaitTimerExpiry pool s) :=
  whenOnline_kept (fun _ ht => by simp [ht]) h
end Sys2Proof.Laws
end

