-- ==== Sys2Proof/Laws/FrameLine.lean ====
section
/-! SUPPORT. For each operation the blocks it leaves unchanged: flags, scale, job queue, line controller, claim agents. -/

namespace Sys2Proof.Laws

open Sys2Proof Sys2Proof.Machine

@[simp] theorem mapTin_dispense_frame (f : TinRecord → TinRecord) (s : State) :
    (State.mapTin .dispense f s).phase = s.phase ∧ (State.mapTin .dispense f s).inputs = s.inputs ∧ (State.mapTin
    .dispense f s).cfg = s.cfg ∧ (State.mapTin .dispense f s).store = s.store ∧ (State.mapTin .dispense f s).port =
    s.port ∧ (State.mapTin .dispense f s).events = s.events ∧ (State.mapTin .dispense f s).jobs = s.jobs ∧
    (State.mapTin .dispense f s).cans = s.cans ∧ (State.mapTin .dispense f s).stir = s.stir ∧ (State.mapTin
    .dispense f s).pump = s.pump ∧ (State.mapTin .dispense f s).scale = s.scale ∧ (State.mapTin .dispense f
    s).carriage = s.carriage ∧ (State.mapTin .dispense f s).lid = s.lid ∧ (State.mapTin .dispense f s).shake =
    s.shake ∧ (State.mapTin .dispense f s).line = s.line ∧ (State.mapTin .dispense f s).roster = s.roster ∧
    (State.mapTin .dispense f s).power = s.power ∧ (State.mapTin .dispense f s).air = s.air ∧ (State.mapTin
    .dispense f s).mon = s.mon ∧ (State.mapTin .dispense f s).completion = s.completion ∧ (State.mapTin .dispense f
    s).free = s.free ∧ (State.mapTin .dispense f s).pending = s.pending := by
  simp [State.mapTin]

@[simp] theorem mapTin_lid_frame (f : TinRecord → TinRecord) (s : State) :
    (State.mapTin .lid f s).phase = s.phase ∧ (State.mapTin .lid f s).inputs = s.inputs ∧ (State.mapTin .lid f
    s).cfg = s.cfg ∧ (State.mapTin .lid f s).store = s.store ∧ (State.mapTin .lid f s).port = s.port ∧ (State.mapTin
    .lid f s).events = s.events ∧ (State.mapTin .lid f s).jobs = s.jobs ∧ (State.mapTin .lid f s).cans = s.cans ∧
    (State.mapTin .lid f s).stir = s.stir ∧ (State.mapTin .lid f s).pump = s.pump ∧ (State.mapTin .lid f s).scale =
    s.scale ∧ (State.mapTin .lid f s).disp = s.disp ∧ (State.mapTin .lid f s).carriage = s.carriage ∧ (State.mapTin
    .lid f s).shake = s.shake ∧ (State.mapTin .lid f s).line = s.line ∧ (State.mapTin .lid f s).roster = s.roster ∧
    (State.mapTin .lid f s).power = s.power ∧ (State.mapTin .lid f s).air = s.air ∧ (State.mapTin .lid f s).mon =
    s.mon ∧ (State.mapTin .lid f s).completion = s.completion ∧ (State.mapTin .lid f s).free = s.free ∧
    (State.mapTin .lid f s).pending = s.pending := by
  simp [State.mapTin]

@[simp] theorem mapTin_shake_frame (f : TinRecord → TinRecord) (s : State) :
    (State.mapTin .shake f s).phase = s.phase ∧ (State.mapTin .shake f s).inputs = s.inputs ∧ (State.mapTin .shake f
    s).cfg = s.cfg ∧ (State.mapTin .shake f s).store = s.store ∧ (State.mapTin .shake f s).port = s.port ∧
    (State.mapTin .shake f s).events = s.events ∧ (State.mapTin .shake f s).jobs = s.jobs ∧ (State.mapTin .shake f
    s).cans = s.cans ∧ (State.mapTin .shake f s).stir = s.stir ∧ (State.mapTin .shake f s).pump = s.pump ∧
    (State.mapTin .shake f s).scale = s.scale ∧ (State.mapTin .shake f s).disp = s.disp ∧ (State.mapTin .shake f
    s).carriage = s.carriage ∧ (State.mapTin .shake f s).lid = s.lid ∧ (State.mapTin .shake f s).line = s.line ∧
    (State.mapTin .shake f s).roster = s.roster ∧ (State.mapTin .shake f s).power = s.power ∧ (State.mapTin .shake f
    s).air = s.air ∧ (State.mapTin .shake f s).mon = s.mon ∧ (State.mapTin .shake f s).completion = s.completion ∧
    (State.mapTin .shake f s).free = s.free ∧ (State.mapTin .shake f s).pending = s.pending := by
  simp [State.mapTin]

@[simp] theorem mapAgent_power_frame (f : Agent → Agent) (s : State) :
    (State.mapAgent .power f s).phase = s.phase ∧ (State.mapAgent .power f s).inputs = s.inputs ∧ (State.mapAgent
    .power f s).cfg = s.cfg ∧ (State.mapAgent .power f s).store = s.store ∧ (State.mapAgent .power f s).port =
    s.port ∧ (State.mapAgent .power f s).events = s.events ∧ (State.mapAgent .power f s).jobs = s.jobs ∧
    (State.mapAgent .power f s).cans = s.cans ∧ (State.mapAgent .power f s).stir = s.stir ∧ (State.mapAgent .power f
    s).pump = s.pump ∧ (State.mapAgent .power f s).scale = s.scale ∧ (State.mapAgent .power f s).disp = s.disp ∧
    (State.mapAgent .power f s).carriage = s.carriage ∧ (State.mapAgent .power f s).lid = s.lid ∧ (State.mapAgent
    .power f s).shake = s.shake ∧ (State.mapAgent .power f s).line = s.line ∧ (State.mapAgent .power f s).roster =
    s.roster ∧ (State.mapAgent .power f s).air = s.air ∧ (State.mapAgent .power f s).mon = s.mon ∧ (State.mapAgent
    .power f s).completion = s.completion ∧ (State.mapAgent .power f s).free = s.free ∧ (State.mapAgent .power f
    s).pending = s.pending := by
  simp [State.mapAgent]

@[simp] theorem mapAgent_air_frame (f : Agent → Agent) (s : State) :
    (State.mapAgent .air f s).phase = s.phase ∧ (State.mapAgent .air f s).inputs = s.inputs ∧ (State.mapAgent .air f
    s).cfg = s.cfg ∧ (State.mapAgent .air f s).store = s.store ∧ (State.mapAgent .air f s).port = s.port ∧
    (State.mapAgent .air f s).events = s.events ∧ (State.mapAgent .air f s).jobs = s.jobs ∧ (State.mapAgent .air f
    s).cans = s.cans ∧ (State.mapAgent .air f s).stir = s.stir ∧ (State.mapAgent .air f s).pump = s.pump ∧
    (State.mapAgent .air f s).scale = s.scale ∧ (State.mapAgent .air f s).disp = s.disp ∧ (State.mapAgent .air f
    s).carriage = s.carriage ∧ (State.mapAgent .air f s).lid = s.lid ∧ (State.mapAgent .air f s).shake = s.shake ∧
    (State.mapAgent .air f s).line = s.line ∧ (State.mapAgent .air f s).roster = s.roster ∧ (State.mapAgent .air f
    s).power = s.power ∧ (State.mapAgent .air f s).mon = s.mon ∧ (State.mapAgent .air f s).completion = s.completion
    ∧ (State.mapAgent .air f s).free = s.free ∧ (State.mapAgent .air f s).pending = s.pending := by
  simp [State.mapAgent]

@[simp] theorem mapAgent_frame (p : Pool) (f : Agent → Agent) (s : State) :
    (State.mapAgent p f s).phase = s.phase ∧ (State.mapAgent p f s).inputs = s.inputs ∧ (State.mapAgent p f s).cfg =
    s.cfg ∧ (State.mapAgent p f s).store = s.store ∧ (State.mapAgent p f s).port = s.port ∧ (State.mapAgent p f
    s).events = s.events ∧ (State.mapAgent p f s).jobs = s.jobs ∧ (State.mapAgent p f s).cans = s.cans ∧
    (State.mapAgent p f s).stir = s.stir ∧ (State.mapAgent p f s).pump = s.pump ∧ (State.mapAgent p f s).scale =
    s.scale ∧ (State.mapAgent p f s).disp = s.disp ∧ (State.mapAgent p f s).carriage = s.carriage ∧ (State.mapAgent
    p f s).lid = s.lid ∧ (State.mapAgent p f s).shake = s.shake ∧ (State.mapAgent p f s).line = s.line ∧
    (State.mapAgent p f s).roster = s.roster ∧ (State.mapAgent p f s).mon = s.mon ∧ (State.mapAgent p f
    s).completion = s.completion ∧ (State.mapAgent p f s).free = s.free ∧ (State.mapAgent p f s).pending = s.pending := by
  cases p <;> simp

@[simp] theorem mapCan_frame (i : Slot) (f : Canister → Canister) (s : State) :
    (State.mapCan i f s).phase = s.phase ∧ (State.mapCan i f s).inputs = s.inputs ∧
    (State.mapCan i f s).cfg = s.cfg ∧ (State.mapCan i f s).store = s.store ∧ (State.mapCan i f s).port = s.port ∧
    (State.mapCan i f s).events = s.events ∧ (State.mapCan i f s).jobs = s.jobs ∧
    (State.mapCan i f s).stir = s.stir ∧ (State.mapCan i f s).pump = s.pump ∧ (State.mapCan i f s).scale = s.scale ∧
    (State.mapCan i f s).disp = s.disp ∧ (State.mapCan i f s).carriage = s.carriage ∧
    (State.mapCan i f s).lid = s.lid ∧ (State.mapCan i f s).shake = s.shake ∧ (State.mapCan i f s).line = s.line ∧
    (State.mapCan i f s).roster = s.roster ∧ (State.mapCan i f s).power = s.power ∧
    (State.mapCan i f s).air = s.air ∧ (State.mapCan i f s).mon = s.mon ∧
    (State.mapCan i f s).completion = s.completion ∧ (State.mapCan i f s).free = s.free ∧
    (State.mapCan i f s).pending = s.pending := by
  unfold State.mapCan
  try dsimp only
  repeat' split
  all_goals simp

@[simp] theorem setFault_frame (b : BayId) (k : Option FaultKind) (s : State) :
    (State.setFault b k s).phase = s.phase ∧ (State.setFault b k s).inputs = s.inputs ∧
    (State.setFault b k s).cfg = s.cfg ∧ (State.setFault b k s).store = s.store ∧
    (State.setFault b k s).port = s.port ∧ (State.setFault b k s).events = s.events ∧
    (State.setFault b k s).jobs = s.jobs ∧ (State.setFault b k s).cans = s.cans ∧
    (State.setFault b k s).stir = s.stir ∧ (State.setFault b k s).pump = s.pump ∧
    (State.setFault b k s).scale = s.scale ∧ (State.setFault b k s).disp = s.disp ∧
    (State.setFault b k s).carriage = s.carriage ∧ (State.setFault b k s).lid = s.lid ∧
    (State.setFault b k s).shake = s.shake ∧ (State.setFault b k s).line = s.line ∧
    (State.setFault b k s).roster = s.roster ∧ (State.setFault b k s).power = s.power ∧
    (State.setFault b k s).air = s.air ∧ (State.setFault b k s).completion = s.completion ∧
    (State.setFault b k s).free = s.free ∧ (State.setFault b k s).pending = s.pending ∧
    (State.setFault b k s).mon.estop = s.mon.estop := by
  unfold State.setFault
  try dsimp only
  repeat' split
  all_goals simp

@[simp] theorem mapTin_frame (b : BayId) (f : TinRecord → TinRecord) (s : State) :
    (State.mapTin b f s).phase = s.phase ∧ (State.mapTin b f s).inputs = s.inputs ∧
    (State.mapTin b f s).cfg = s.cfg ∧ (State.mapTin b f s).store = s.store ∧ (State.mapTin b f s).port = s.port ∧
    (State.mapTin b f s).events = s.events ∧ (State.mapTin b f s).jobs = s.jobs ∧
    (State.mapTin b f s).cans = s.cans ∧ (State.mapTin b f s).stir = s.stir ∧ (State.mapTin b f s).pump = s.pump ∧
    (State.mapTin b f s).scale = s.scale ∧ (State.mapTin b f s).carriage = s.carriage ∧
    (State.mapTin b f s).line = s.line ∧ (State.mapTin b f s).roster = s.roster ∧
    (State.mapTin b f s).power = s.power ∧ (State.mapTin b f s).air = s.air ∧ (State.mapTin b f s).mon = s.mon ∧
    (State.mapTin b f s).completion = s.completion ∧ (State.mapTin b f s).free = s.free ∧
    (State.mapTin b f s).pending = s.pending := by
  unfold State.mapTin
  try dsimp only
  repeat' split
  all_goals simp

@[simp] theorem mapCarried_frame (f : TinRecord → TinRecord) (s : State) :
    (State.mapCarried f s).phase = s.phase ∧ (State.mapCarried f s).inputs = s.inputs ∧
    (State.mapCarried f s).cfg = s.cfg ∧ (State.mapCarried f s).store = s.store ∧
    (State.mapCarried f s).port = s.port ∧ (State.mapCarried f s).events = s.events ∧
    (State.mapCarried f s).jobs = s.jobs ∧ (State.mapCarried f s).cans = s.cans ∧
    (State.mapCarried f s).stir = s.stir ∧ (State.mapCarried f s).pump = s.pump ∧
    (State.mapCarried f s).scale = s.scale ∧ (State.mapCarried f s).disp = s.disp ∧
    (State.mapCarried f s).lid = s.lid ∧ (State.mapCarried f s).shake = s.shake ∧
    (State.mapCarried f s).line = s.line ∧ (State.mapCarried f s).roster = s.roster ∧
    (State.mapCarried f s).power = s.power ∧ (State.mapCarried f s).air = s.air ∧
    (State.mapCarried f s).mon = s.mon ∧ (State.mapCarried f s).completion = s.completion ∧
    (State.mapCarried f s).free = s.free ∧ (State.mapCarried f s).pending = s.pending := by
  unfold State.mapCarried
  try dsimp only
  repeat' split
  all_goals simp

@[simp] theorem setFlag_frame (f : EventFlag) (s : State) :
    (setFlag f s).phase = s.phase ∧ (setFlag f s).inputs = s.inputs ∧ (setFlag f s).cfg = s.cfg ∧
    (setFlag f s).store = s.store ∧ (setFlag f s).port = s.port ∧ (setFlag f s).jobs = s.jobs ∧
    (setFlag f s).cans = s.cans ∧ (setFlag f s).stir = s.stir ∧ (setFlag f s).pump = s.pump ∧
    (setFlag f s).scale = s.scale ∧ (setFlag f s).disp = s.disp ∧ (setFlag f s).carriage = s.carriage ∧
    (setFlag f s).lid = s.lid ∧ (setFlag f s).shake = s.shake ∧ (setFlag f s).line = s.line ∧
    (setFlag f s).roster = s.roster ∧ (setFlag f s).power = s.power ∧ (setFlag f s).air = s.air ∧
    (setFlag f s).mon = s.mon ∧ (setFlag f s).completion = s.completion ∧ (setFlag f s).free = s.free ∧
    (setFlag f s).pending = s.pending ∧ (setFlag f s).events.enables = s.events.enables := by
  unfold setFlag
  try dsimp only
  repeat' split
  all_goals simp

@[simp] theorem clearFlag_frame (f : EventFlag) (s : State) :
    (clearFlag f s).phase = s.phase ∧ (clearFlag f s).inputs = s.inputs ∧ (clearFlag f s).cfg = s.cfg ∧
    (clearFlag f s).store = s.store ∧ (clearFlag f s).port = s.port ∧ (clearFlag f s).jobs = s.jobs ∧
    (clearFlag f s).cans = s.cans ∧ (clearFlag f s).stir = s.stir ∧ (clearFlag f s).pump = s.pump ∧
    (clearFlag f s).scale = s.scale ∧ (clearFlag f s).disp = s.disp ∧ (clearFlag f s).carriage = s.carriage ∧
    (clearFlag f s).lid = s.lid ∧ (clearFlag f s).shake = s.shake ∧ (clearFlag f s).line = s.line ∧
    (clearFlag f s).roster = s.roster ∧ (clearFlag f s).power = s.power ∧ (clearFlag f s).air = s.air ∧
    (clearFlag f s).mon = s.mon ∧ (clearFlag f s).completion = s.completion ∧ (clearFlag f s).free = s.free ∧
    (clearFlag f s).pending = s.pending ∧ (clearFlag f s).events.enables = s.events.enables := by
  unfold clearFlag
  try dsimp only
  repeat' split
  all_goals simp

@[simp] theorem openRequest_frame (s : State) :
    (openRequest s).phase = s.phase ∧ (openRequest s).inputs = s.inputs ∧ (openRequest s).cfg = s.cfg ∧
    (openRequest s).store = s.store ∧ (openRequest s).port = s.port ∧ (openRequest s).events = s.events ∧
    (openRequest s).jobs = s.jobs ∧ (openRequest s).cans = s.cans ∧ (openRequest s).stir = s.stir ∧
    (openRequest s).pump = s.pump ∧ (openRequest s).carriage = s.carriage ∧ (openRequest s).lid = s.lid ∧
    (openRequest s).shake = s.shake ∧ (openRequest s).line = s.line ∧ (openRequest s).roster = s.roster ∧
    (openRequest s).power = s.power ∧ (openRequest s).air = s.air ∧ (openRequest s).mon = s.mon ∧
    (openRequest s).completion = s.completion ∧ (openRequest s).free = s.free ∧ (openRequest s).pending = s.pending := by
  unfold openRequest
  try dsimp only
  repeat' split
  all_goals simp

@[simp] theorem closeRequest_frame (s : State) :
    (closeRequest s).phase = s.phase ∧ (closeRequest s).inputs = s.inputs ∧ (closeRequest s).cfg = s.cfg ∧
    (closeRequest s).store = s.store ∧ (closeRequest s).port = s.port ∧ (closeRequest s).events = s.events ∧
    (closeRequest s).jobs = s.jobs ∧ (closeRequest s).cans = s.cans ∧ (closeRequest s).stir = s.stir ∧
    (closeRequest s).pump = s.pump ∧ (closeRequest s).carriage = s.carriage ∧ (closeRequest s).lid = s.lid ∧
    (closeRequest s).shake = s.shake ∧ (closeRequest s).line = s.line ∧ (closeRequest s).roster = s.roster ∧
    (closeRequest s).power = s.power ∧ (closeRequest s).air = s.air ∧ (closeRequest s).mon = s.mon ∧
    (closeRequest s).completion = s.completion ∧ (closeRequest s).free = s.free ∧
    (closeRequest s).pending = s.pending := by
  unfold closeRequest
  try dsimp only
  repeat' split
  all_goals simp

@[simp] theorem blankTrigger_frame (s : State) :
    (blankTrigger s).phase = s.phase ∧ (blankTrigger s).inputs = s.inputs ∧ (blankTrigger s).cfg = s.cfg ∧
    (blankTrigger s).store = s.store ∧ (blankTrigger s).port = s.port ∧ (blankTrigger s).events = s.events ∧
    (blankTrigger s).jobs = s.jobs ∧ (blankTrigger s).cans = s.cans ∧ (blankTrigger s).stir = s.stir ∧
    (blankTrigger s).pump = s.pump ∧ (blankTrigger s).disp = s.disp ∧ (blankTrigger s).carriage = s.carriage ∧
    (blankTrigger s).lid = s.lid ∧ (blankTrigger s).shake = s.shake ∧ (blankTrigger s).line = s.line ∧
    (blankTrigger s).roster = s.roster ∧ (blankTrigger s).power = s.power ∧ (blankTrigger s).air = s.air ∧
    (blankTrigger s).mon = s.mon ∧ (blankTrigger s).completion = s.completion ∧ (blankTrigger s).free = s.free ∧
    (blankTrigger s).pending = s.pending := by
  unfold blankTrigger
  try dsimp only
  repeat' split
  all_goals simp

@[simp] theorem blankExpires_frame (s : State) :
    (blankExpires s).phase = s.phase ∧ (blankExpires s).inputs = s.inputs ∧ (blankExpires s).cfg = s.cfg ∧
    (blankExpires s).store = s.store ∧ (blankExpires s).port = s.port ∧ (blankExpires s).events = s.events ∧
    (blankExpires s).jobs = s.jobs ∧ (blankExpires s).cans = s.cans ∧ (blankExpires s).stir = s.stir ∧
    (blankExpires s).pump = s.pump ∧ (blankExpires s).disp = s.disp ∧ (blankExpires s).carriage = s.carriage ∧
    (blankExpires s).lid = s.lid ∧ (blankExpires s).shake = s.shake ∧ (blankExpires s).line = s.line ∧
    (blankExpires s).roster = s.roster ∧ (blankExpires s).power = s.power ∧ (blankExpires s).air = s.air ∧
    (blankExpires s).mon = s.mon ∧ (blankExpires s).completion = s.completion ∧ (blankExpires s).free = s.free ∧
    (blankExpires s).pending = s.pending := by
  unfold blankExpires
  split <;> simp

@[simp] theorem trackZero_frame (reading : Int) (s : State) :
    (trackZero reading s).phase = s.phase ∧ (trackZero reading s).inputs = s.inputs ∧
    (trackZero reading s).cfg = s.cfg ∧ (trackZero reading s).store = s.store ∧
    (trackZero reading s).port = s.port ∧ (trackZero reading s).events = s.events ∧
    (trackZero reading s).jobs = s.jobs ∧ (trackZero reading s).cans = s.cans ∧
    (trackZero reading s).stir = s.stir ∧ (trackZero reading s).pump = s.pump ∧
    (trackZero reading s).disp = s.disp ∧ (trackZero reading s).carriage = s.carriage ∧
    (trackZero reading s).lid = s.lid ∧ (trackZero reading s).shake = s.shake ∧
    (trackZero reading s).line = s.line ∧ (trackZero reading s).roster = s.roster ∧
    (trackZero reading s).power = s.power ∧ (trackZero reading s).air = s.air ∧ (trackZero reading s).mon = s.mon ∧
    (trackZero reading s).completion = s.completion ∧ (trackZero reading s).free = s.free ∧
    (trackZero reading s).pending = s.pending := by
  unfold trackZero
  try dsimp only
  repeat' split
  all_goals simp

@[simp] theorem askTin_frame (s : State) :
    (askTin s).phase = s.phase ∧ (askTin s).inputs = s.inputs ∧ (askTin s).cfg = s.cfg ∧
    (askTin s).store = s.store ∧ (askTin s).port = s.port ∧ (askTin s).cans = s.cans ∧ (askTin s).stir = s.stir ∧
    (askTin s).pump = s.pump ∧ (askTin s).scale = s.scale ∧ (askTin s).carriage = s.carriage ∧
    (askTin s).lid = s.lid ∧ (askTin s).shake = s.shake ∧ (askTin s).line = s.line ∧ (askTin s).roster = s.roster ∧
    (askTin s).power = s.power ∧ (askTin s).air = s.air ∧ (askTin s).mon = s.mon ∧
    (askTin s).completion = s.completion ∧ (askTin s).free = s.free ∧ (askTin s).pending = s.pending ∧
    (askTin s).events.enables = s.events.enables := by
  unfold askTin
  try dsimp only
  repeat' split
  all_goals simp

@[simp] theorem commitTin_frame (id : Nat) (s : State) :
    (commitTin id s).phase = s.phase ∧ (commitTin id s).inputs = s.inputs ∧ (commitTin id s).cfg = s.cfg ∧
    (commitTin id s).store = s.store ∧ (commitTin id s).port = s.port ∧ (commitTin id s).events = s.events ∧
    (commitTin id s).cans = s.cans ∧ (commitTin id s).stir = s.stir ∧ (commitTin id s).pump = s.pump ∧
    (commitTin id s).scale = s.scale ∧ (commitTin id s).disp = s.disp ∧ (commitTin id s).carriage = s.carriage ∧
    (commitTin id s).lid = s.lid ∧ (commitTin id s).shake = s.shake ∧ (commitTin id s).line = s.line ∧
    (commitTin id s).roster = s.roster ∧ (commitTin id s).power = s.power ∧ (commitTin id s).air = s.air ∧
    (commitTin id s).mon = s.mon ∧ (commitTin id s).completion = s.completion ∧ (commitTin id s).free = s.free ∧
    (commitTin id s).pending = s.pending := by
  unfold commitTin
  try dsimp only
  repeat' split
  all_goals simp

@[simp] theorem withdrawTin_frame (s : State) :
    (withdrawTin s).phase = s.phase ∧ (withdrawTin s).inputs = s.inputs ∧ (withdrawTin s).cfg = s.cfg ∧
    (withdrawTin s).store = s.store ∧ (withdrawTin s).port = s.port ∧ (withdrawTin s).cans = s.cans ∧
    (withdrawTin s).stir = s.stir ∧ (withdrawTin s).pump = s.pump ∧ (withdrawTin s).scale = s.scale ∧
    (withdrawTin s).carriage = s.carriage ∧ (withdrawTin s).lid = s.lid ∧ (withdrawTin s).shake = s.shake ∧
    (withdrawTin s).line = s.line ∧ (withdrawTin s).roster = s.roster ∧ (withdrawTin s).power = s.power ∧
    (withdrawTin s).air = s.air ∧ (withdrawTin s).mon = s.mon ∧ (withdrawTin s).completion = s.completion ∧
    (withdrawTin s).free = s.free ∧ (withdrawTin s).pending = s.pending ∧
    (withdrawTin s).events.enables = s.events.enables := by
  unfold withdrawTin
  try dsimp only
  repeat' split
  all_goals simp

@[simp] theorem withdrawCall_frame (s : State) :
    (withdrawCall s).phase = s.phase ∧ (withdrawCall s).inputs = s.inputs ∧ (withdrawCall s).cfg = s.cfg ∧
    (withdrawCall s).store = s.store ∧ (withdrawCall s).port = s.port ∧ (withdrawCall s).cans = s.cans ∧
    (withdrawCall s).stir = s.stir ∧ (withdrawCall s).pump = s.pump ∧ (withdrawCall s).scale = s.scale ∧
    (withdrawCall s).carriage = s.carriage ∧ (withdrawCall s).lid = s.lid ∧ (withdrawCall s).shake = s.shake ∧
    (withdrawCall s).line = s.line ∧ (withdrawCall s).roster = s.roster ∧ (withdrawCall s).power = s.power ∧
    (withdrawCall s).air = s.air ∧ (withdrawCall s).mon = s.mon ∧ (withdrawCall s).completion = s.completion ∧
    (withdrawCall s).free = s.free ∧ (withdrawCall s).pending = s.pending ∧
    (withdrawCall s).events.enables = s.events.enables := by
  unfold withdrawCall
  try dsimp only
  repeat' split
  all_goals simp

@[simp] theorem withdrawStandingCall_frame (s : State) :
    (withdrawStandingCall s).phase = s.phase ∧ (withdrawStandingCall s).inputs = s.inputs ∧
    (withdrawStandingCall s).cfg = s.cfg ∧ (withdrawStandingCall s).store = s.store ∧
    (withdrawStandingCall s).port = s.port ∧ (withdrawStandingCall s).cans = s.cans ∧
    (withdrawStandingCall s).stir = s.stir ∧ (withdrawStandingCall s).pump = s.pump ∧
    (withdrawStandingCall s).scale = s.scale ∧ (withdrawStandingCall s).carriage = s.carriage ∧
    (withdrawStandingCall s).lid = s.lid ∧ (withdrawStandingCall s).shake = s.shake ∧
    (withdrawStandingCall s).line = s.line ∧ (withdrawStandingCall s).roster = s.roster ∧
    (withdrawStandingCall s).power = s.power ∧ (withdrawStandingCall s).air = s.air ∧
    (withdrawStandingCall s).mon = s.mon ∧ (withdrawStandingCall s).completion = s.completion ∧
    (withdrawStandingCall s).free = s.free ∧ (withdrawStandingCall s).pending = s.pending ∧
    (withdrawStandingCall s).events.enables = s.events.enables := by
  unfold withdrawStandingCall
  try dsimp only
  repeat' split
  all_goals simp

@[simp] theorem placeFrame_frame (f : Frame) (s : State) :
    (placeFrame f s).phase = s.phase ∧ (placeFrame f s).inputs = s.inputs ∧ (placeFrame f s).cfg = s.cfg ∧
    (placeFrame f s).store = s.store ∧ (placeFrame f s).port = s.port ∧ (placeFrame f s).events = s.events ∧
    (placeFrame f s).jobs = s.jobs ∧ (placeFrame f s).cans = s.cans ∧ (placeFrame f s).stir = s.stir ∧
    (placeFrame f s).pump = s.pump ∧ (placeFrame f s).scale = s.scale ∧ (placeFrame f s).disp = s.disp ∧
    (placeFrame f s).carriage = s.carriage ∧ (placeFrame f s).lid = s.lid ∧ (placeFrame f s).shake = s.shake ∧
    (placeFrame f s).roster = s.roster ∧ (placeFrame f s).power = s.power ∧ (placeFrame f s).air = s.air ∧
    (placeFrame f s).mon = s.mon ∧ (placeFrame f s).completion = s.completion ∧ (placeFrame f s).free = s.free ∧
    (placeFrame f s).pending = s.pending := by
  unfold placeFrame
  try dsimp only
  repeat' split
  all_goals simp

@[simp] theorem withdrawFrame_frame (kind : NoticeKind) (pool : Pool) (s : State) :
    (withdrawFrame kind pool s).phase = s.phase ∧ (withdrawFrame kind pool s).inputs = s.inputs ∧
    (withdrawFrame kind pool s).cfg = s.cfg ∧ (withdrawFrame kind pool s).store = s.store ∧
    (withdrawFrame kind pool s).port = s.port ∧ (withdrawFrame kind pool s).events = s.events ∧
    (withdrawFrame kind pool s).jobs = s.jobs ∧ (withdrawFrame kind pool s).cans = s.cans ∧
    (withdrawFrame kind pool s).stir = s.stir ∧ (withdrawFrame kind pool s).pump = s.pump ∧
    (withdrawFrame kind pool s).scale = s.scale ∧ (withdrawFrame kind pool s).disp = s.disp ∧
    (withdrawFrame kind pool s).carriage = s.carriage ∧ (withdrawFrame kind pool s).lid = s.lid ∧
    (withdrawFrame kind pool s).shake = s.shake ∧ (withdrawFrame kind pool s).roster = s.roster ∧
    (withdrawFrame kind pool s).power = s.power ∧ (withdrawFrame kind pool s).air = s.air ∧
    (withdrawFrame kind pool s).mon = s.mon ∧ (withdrawFrame kind pool s).completion = s.completion ∧
    (withdrawFrame kind pool s).free = s.free ∧ (withdrawFrame kind pool s).pending = s.pending := by
  unfold withdrawFrame
  try dsimp only
  repeat' split
  all_goals simp

@[simp] theorem reportHeld_frame (p : Pool) (s : State) :
    (reportHeld p s).phase = s.phase ∧ (reportHeld p s).inputs = s.inputs ∧ (reportHeld p s).cfg = s.cfg ∧
    (reportHeld p s).store = s.store ∧ (reportHeld p s).port = s.port ∧ (reportHeld p s).events = s.events ∧
    (reportHeld p s).jobs = s.jobs ∧ (reportHeld p s).cans = s.cans ∧ (reportHeld p s).stir = s.stir ∧
    (reportHeld p s).pump = s.pump ∧ (reportHeld p s).scale = s.scale ∧ (reportHeld p s).disp = s.disp ∧
    (reportHeld p s).carriage = s.carriage ∧ (reportHeld p s).line = s.line ∧ (reportHeld p s).roster = s.roster ∧
    (reportHeld p s).power = s.power ∧ (reportHeld p s).air = s.air ∧ (reportHeld p s).mon = s.mon ∧
    (reportHeld p s).completion = s.completion ∧ (reportHeld p s).free = s.free ∧
    (reportHeld p s).pending = s.pending := by
  unfold reportHeld
  try dsimp only
  repeat' split
  all_goals simp

@[simp] theorem grantOwn_frame (p : Pool) (a : Nat) (s : State) :
    (grantOwn p a s).phase = s.phase ∧ (grantOwn p a s).inputs = s.inputs ∧ (grantOwn p a s).cfg = s.cfg ∧
    (grantOwn p a s).store = s.store ∧ (grantOwn p a s).port = s.port ∧ (grantOwn p a s).events = s.events ∧
    (grantOwn p a s).jobs = s.jobs ∧ (grantOwn p a s).cans = s.cans ∧ (grantOwn p a s).stir = s.stir ∧
    (grantOwn p a s).pump = s.pump ∧ (grantOwn p a s).scale = s.scale ∧ (grantOwn p a s).disp = s.disp ∧
    (grantOwn p a s).carriage = s.carriage ∧ (grantOwn p a s).line = s.line ∧ (grantOwn p a s).roster = s.roster ∧
    (grantOwn p a s).mon = s.mon ∧ (grantOwn p a s).completion = s.completion ∧ (grantOwn p a s).free = s.free ∧
    (grantOwn p a s).pending = s.pending := by
  unfold grantOwn
  try dsimp only
  repeat' split
  all_goals simp

@[simp] theorem placeWait_frame (p : Pool) (s : State) :
    (placeWait p s).phase = s.phase ∧ (placeWait p s).inputs = s.inputs ∧ (placeWait p s).cfg = s.cfg ∧
    (placeWait p s).store = s.store ∧ (placeWait p s).port = s.port ∧ (placeWait p s).events = s.events ∧
    (placeWait p s).jobs = s.jobs ∧ (placeWait p s).cans = s.cans ∧ (placeWait p s).stir = s.stir ∧
    (placeWait p s).pump = s.pump ∧ (placeWait p s).scale = s.scale ∧ (placeWait p s).disp = s.disp ∧
    (placeWait p s).carriage = s.carriage ∧ (placeWait p s).lid = s.lid ∧ (placeWait p s).shake = s.shake ∧
    (placeWait p s).roster = s.roster ∧ (placeWait p s).power = s.power ∧ (placeWait p s).air = s.air ∧
    (placeWait p s).mon = s.mon ∧ (placeWait p s).completion = s.completion ∧ (placeWait p s).free = s.free ∧
    (placeWait p s).pending = s.pending := by
  unfold placeWait
  try dsimp only
  repeat' split
  all_goals simp

@[simp] theorem beginWait_frame (p : Pool) (s : State) :
    (beginWait p s).phase = s.phase ∧ (beginWait p s).inputs = s.inputs ∧ (beginWait p s).cfg = s.cfg ∧
    (beginWait p s).store = s.store ∧ (beginWait p s).port = s.port ∧ (beginWait p s).events = s.events ∧
    (beginWait p s).jobs = s.jobs ∧ (beginWait p s).cans = s.cans ∧ (beginWait p s).stir = s.stir ∧
    (beginWait p s).pump = s.pump ∧ (beginWait p s).scale = s.scale ∧ (beginWait p s).disp = s.disp ∧
    (beginWait p s).carriage = s.carriage ∧ (beginWait p s).lid = s.lid ∧ (beginWait p s).shake = s.shake ∧
    (beginWait p s).roster = s.roster ∧ (beginWait p s).mon = s.mon ∧ (beginWait p s).completion = s.completion ∧
    (beginWait p s).free = s.free ∧ (beginWait p s).pending = s.pending := by
  unfold beginWait
  try dsimp only
  repeat' split
  all_goals simp

@[simp] theorem placeClaim_frame (p : Pool) (s : State) :
    (placeClaim p s).phase = s.phase ∧ (placeClaim p s).inputs = s.inputs ∧ (placeClaim p s).cfg = s.cfg ∧
    (placeClaim p s).store = s.store ∧ (placeClaim p s).port = s.port ∧ (placeClaim p s).events = s.events ∧
    (placeClaim p s).jobs = s.jobs ∧ (placeClaim p s).cans = s.cans ∧ (placeClaim p s).stir = s.stir ∧
    (placeClaim p s).pump = s.pump ∧ (placeClaim p s).scale = s.scale ∧ (placeClaim p s).disp = s.disp ∧
    (placeClaim p s).carriage = s.carriage ∧ (placeClaim p s).lid = s.lid ∧ (placeClaim p s).shake = s.shake ∧
    (placeClaim p s).roster = s.roster ∧ (placeClaim p s).mon = s.mon ∧ (placeClaim p s).completion = s.completion ∧
    (placeClaim p s).free = s.free ∧ (placeClaim p s).pending = s.pending := by
  unfold placeClaim
  try dsimp only
  repeat' split
  all_goals simp

@[simp] theorem tryClaim_frame (p : Pool) (s : State) :
    (tryClaim p s).phase = s.phase ∧ (tryClaim p s).inputs = s.inputs ∧ (tryClaim p s).cfg = s.cfg ∧
    (tryClaim p s).store = s.store ∧ (tryClaim p s).port = s.port ∧ (tryClaim p s).events = s.events ∧
    (tryClaim p s).jobs = s.jobs ∧ (tryClaim p s).cans = s.cans ∧ (tryClaim p s).stir = s.stir ∧
    (tryClaim p s).pump = s.pump ∧ (tryClaim p s).scale = s.scale ∧ (tryClaim p s).disp = s.disp ∧
    (tryClaim p s).carriage = s.carriage ∧ (tryClaim p s).lid = s.lid ∧ (tryClaim p s).shake = s.shake ∧
    (tryClaim p s).roster = s.roster ∧ (tryClaim p s).mon = s.mon ∧ (tryClaim p s).completion = s.completion ∧
    (tryClaim p s).free = s.free ∧ (tryClaim p s).pending = s.pending := by
  unfold tryClaim
  try dsimp only
  repeat' split
  all_goals simp

@[simp] theorem tryBoth_frame (s : State) :
    (tryBoth s).phase = s.phase ∧ (tryBoth s).inputs = s.inputs ∧ (tryBoth s).cfg = s.cfg ∧
    (tryBoth s).store = s.store ∧ (tryBoth s).port = s.port ∧ (tryBoth s).events = s.events ∧
    (tryBoth s).jobs = s.jobs ∧ (tryBoth s).cans = s.cans ∧ (tryBoth s).stir = s.stir ∧ (tryBoth s).pump = s.pump ∧
    (tryBoth s).scale = s.scale ∧ (tryBoth s).disp = s.disp ∧ (tryBoth s).carriage = s.carriage ∧
    (tryBoth s).lid = s.lid ∧ (tryBoth s).shake = s.shake ∧ (tryBoth s).roster = s.roster ∧
    (tryBoth s).mon = s.mon ∧ (tryBoth s).completion = s.completion ∧ (tryBoth s).free = s.free ∧
    (tryBoth s).pending = s.pending := by
  unfold tryBoth
  try dsimp only
  repeat' split
  all_goals simp

@[simp] theorem raiseCount_frame (p : Pool) (s : State) :
    (raiseCount p s).phase = s.phase ∧ (raiseCount p s).inputs = s.inputs ∧ (raiseCount p s).cfg = s.cfg ∧
    (raiseCount p s).store = s.store ∧ (raiseCount p s).port = s.port ∧ (raiseCount p s).events = s.events ∧
    (raiseCount p s).jobs = s.jobs ∧ (raiseCount p s).cans = s.cans ∧ (raiseCount p s).stir = s.stir ∧
    (raiseCount p s).pump = s.pump ∧ (raiseCount p s).scale = s.scale ∧ (raiseCount p s).disp = s.disp ∧
    (raiseCount p s).carriage = s.carriage ∧ (raiseCount p s).lid = s.lid ∧ (raiseCount p s).shake = s.shake ∧
    (raiseCount p s).roster = s.roster ∧ (raiseCount p s).mon = s.mon ∧ (raiseCount p s).completion = s.completion ∧
    (raiseCount p s).free = s.free ∧ (raiseCount p s).pending = s.pending := by
  unfold raiseCount
  try dsimp only
  repeat' split
  all_goals simp

@[simp] theorem askClaim_frame (p : Pool) (a : Nat) (s : State) :
    (askClaim p a s).phase = s.phase ∧ (askClaim p a s).inputs = s.inputs ∧ (askClaim p a s).cfg = s.cfg ∧
    (askClaim p a s).store = s.store ∧ (askClaim p a s).port = s.port ∧ (askClaim p a s).events = s.events ∧
    (askClaim p a s).jobs = s.jobs ∧ (askClaim p a s).cans = s.cans ∧ (askClaim p a s).stir = s.stir ∧
    (askClaim p a s).pump = s.pump ∧ (askClaim p a s).scale = s.scale ∧ (askClaim p a s).disp = s.disp ∧
    (askClaim p a s).carriage = s.carriage ∧ (askClaim p a s).roster = s.roster ∧ (askClaim p a s).mon = s.mon ∧
    (askClaim p a s).completion = s.completion ∧ (askClaim p a s).free = s.free ∧
    (askClaim p a s).pending = s.pending := by
  unfold askClaim
  try dsimp only
  repeat' split
  all_goals simp

@[simp] theorem lowerClaim_frame (p : Pool) (b : Nat) (s : State) :
    (lowerClaim p b s).phase = s.phase ∧ (lowerClaim p b s).inputs = s.inputs ∧ (lowerClaim p b s).cfg = s.cfg ∧
    (lowerClaim p b s).store = s.store ∧ (lowerClaim p b s).port = s.port ∧ (lowerClaim p b s).events = s.events ∧
    (lowerClaim p b s).jobs = s.jobs ∧ (lowerClaim p b s).cans = s.cans ∧ (lowerClaim p b s).stir = s.stir ∧
    (lowerClaim p b s).pump = s.pump ∧ (lowerClaim p b s).scale = s.scale ∧ (lowerClaim p b s).disp = s.disp ∧
    (lowerClaim p b s).carriage = s.carriage ∧ (lowerClaim p b s).lid = s.lid ∧ (lowerClaim p b s).shake = s.shake ∧
    (lowerClaim p b s).roster = s.roster ∧ (lowerClaim p b s).mon = s.mon ∧
    (lowerClaim p b s).completion = s.completion ∧ (lowerClaim p b s).free = s.free ∧
    (lowerClaim p b s).pending = s.pending := by
  unfold lowerClaim
  try dsimp only
  repeat' split
  all_goals simp

@[simp] theorem releaseOrder_frame (p : Pool) (s : State) :
    (releaseOrder p s).phase = s.phase ∧ (releaseOrder p s).inputs = s.inputs ∧ (releaseOrder p s).cfg = s.cfg ∧
    (releaseOrder p s).store = s.store ∧ (releaseOrder p s).port = s.port ∧ (releaseOrder p s).events = s.events ∧
    (releaseOrder p s).jobs = s.jobs ∧ (releaseOrder p s).cans = s.cans ∧ (releaseOrder p s).stir = s.stir ∧
    (releaseOrder p s).pump = s.pump ∧ (releaseOrder p s).scale = s.scale ∧ (releaseOrder p s).disp = s.disp ∧
    (releaseOrder p s).carriage = s.carriage ∧ (releaseOrder p s).lid = s.lid ∧ (releaseOrder p s).shake = s.shake ∧
    (releaseOrder p s).roster = s.roster ∧ (releaseOrder p s).mon = s.mon ∧
    (releaseOrder p s).completion = s.completion ∧ (releaseOrder p s).free = s.free ∧
    (releaseOrder p s).pending = s.pending := by
  unfold releaseOrder
  try dsimp only
  repeat' split
  all_goals simp

@[simp] theorem giveUp_frame (p : Pool) (s : State) :
    (giveUp p s).phase = s.phase ∧ (giveUp p s).inputs = s.inputs ∧ (giveUp p s).cfg = s.cfg ∧
    (giveUp p s).store = s.store ∧ (giveUp p s).port = s.port ∧ (giveUp p s).events = s.events ∧
    (giveUp p s).jobs = s.jobs ∧ (giveUp p s).cans = s.cans ∧ (giveUp p s).stir = s.stir ∧
    (giveUp p s).pump = s.pump ∧ (giveUp p s).scale = s.scale ∧ (giveUp p s).disp = s.disp ∧
    (giveUp p s).carriage = s.carriage ∧ (giveUp p s).lid = s.lid ∧ (giveUp p s).shake = s.shake ∧
    (giveUp p s).roster = s.roster ∧ (giveUp p s).mon = s.mon ∧ (giveUp p s).completion = s.completion ∧
    (giveUp p s).free = s.free ∧ (giveUp p s).pending = s.pending := by
  unfold giveUp
  try dsimp only
  repeat' split
  all_goals simp

@[simp] theorem judgeOwn_frame (p : Pool) (s : State) :
    (judgeOwn p s).phase = s.phase ∧ (judgeOwn p s).inputs = s.inputs ∧ (judgeOwn p s).cfg = s.cfg ∧
    (judgeOwn p s).store = s.store ∧ (judgeOwn p s).port = s.port ∧ (judgeOwn p s).events = s.events ∧
    (judgeOwn p s).jobs = s.jobs ∧ (judgeOwn p s).cans = s.cans ∧ (judgeOwn p s).stir = s.stir ∧
    (judgeOwn p s).pump = s.pump ∧ (judgeOwn p s).scale = s.scale ∧ (judgeOwn p s).disp = s.disp ∧
    (judgeOwn p s).carriage = s.carriage ∧ (judgeOwn p s).roster = s.roster ∧ (judgeOwn p s).mon = s.mon ∧
    (judgeOwn p s).completion = s.completion ∧ (judgeOwn p s).free = s.free ∧ (judgeOwn p s).pending = s.pending := by
  unfold judgeOwn
  try dsimp only
  repeat' split
  all_goals simp

@[simp] theorem judgeWithdrawn_frame (p : Pool) (a : Nat) (s : State) :
    (judgeWithdrawn p a s).phase = s.phase ∧ (judgeWithdrawn p a s).inputs = s.inputs ∧
    (judgeWithdrawn p a s).cfg = s.cfg ∧ (judgeWithdrawn p a s).store = s.store ∧
    (judgeWithdrawn p a s).port = s.port ∧ (judgeWithdrawn p a s).events = s.events ∧
    (judgeWithdrawn p a s).jobs = s.jobs ∧ (judgeWithdrawn p a s).cans = s.cans ∧
    (judgeWithdrawn p a s).stir = s.stir ∧ (judgeWithdrawn p a s).pump = s.pump ∧
    (judgeWithdrawn p a s).scale = s.scale ∧ (judgeWithdrawn p a s).disp = s.disp ∧
    (judgeWithdrawn p a s).carriage = s.carriage ∧ (judgeWithdrawn p a s).lid = s.lid ∧
    (judgeWithdrawn p a s).shake = s.shake ∧ (judgeWithdrawn p a s).line = s.line ∧
    (judgeWithdrawn p a s).roster = s.roster ∧ (judgeWithdrawn p a s).mon = s.mon ∧
    (judgeWithdrawn p a s).completion = s.completion ∧ (judgeWithdrawn p a s).free = s.free ∧
    (judgeWithdrawn p a s).pending = s.pending := by
  unfold judgeWithdrawn
  try dsimp only
  repeat' split
  all_goals simp

@[simp] theorem claimLost_frame (p : Pool) (s : State) :
    (claimLost p s).phase = s.phase ∧ (claimLost p s).inputs = s.inputs ∧ (claimLost p s).cfg = s.cfg ∧
    (claimLost p s).store = s.store ∧ (claimLost p s).port = s.port ∧ (claimLost p s).events = s.events ∧
    (claimLost p s).jobs = s.jobs ∧ (claimLost p s).cans = s.cans ∧ (claimLost p s).stir = s.stir ∧
    (claimLost p s).pump = s.pump ∧ (claimLost p s).scale = s.scale ∧ (claimLost p s).disp = s.disp ∧
    (claimLost p s).carriage = s.carriage ∧ (claimLost p s).lid = s.lid ∧ (claimLost p s).shake = s.shake ∧
    (claimLost p s).roster = s.roster ∧ (claimLost p s).mon = s.mon ∧ (claimLost p s).completion = s.completion ∧
    (claimLost p s).free = s.free ∧ (claimLost p s).pending = s.pending := by
  unfold claimLost
  try dsimp only
  repeat' split
  all_goals simp

@[simp] theorem adjustDone_frame (p : Pool) (b : Nat) (s : State) :
    (adjustDone p b s).phase = s.phase ∧ (adjustDone p b s).inputs = s.inputs ∧ (adjustDone p b s).cfg = s.cfg ∧
    (adjustDone p b s).store = s.store ∧ (adjustDone p b s).port = s.port ∧ (adjustDone p b s).events = s.events ∧
    (adjustDone p b s).jobs = s.jobs ∧ (adjustDone p b s).cans = s.cans ∧ (adjustDone p b s).stir = s.stir ∧
    (adjustDone p b s).pump = s.pump ∧ (adjustDone p b s).scale = s.scale ∧ (adjustDone p b s).disp = s.disp ∧
    (adjustDone p b s).carriage = s.carriage ∧ (adjustDone p b s).lid = s.lid ∧ (adjustDone p b s).shake = s.shake ∧
    (adjustDone p b s).line = s.line ∧ (adjustDone p b s).roster = s.roster ∧ (adjustDone p b s).mon = s.mon ∧
    (adjustDone p b s).completion = s.completion ∧ (adjustDone p b s).free = s.free ∧
    (adjustDone p b s).pending = s.pending := by
  unfold adjustDone
  try dsimp only
  repeat' split
  all_goals simp

@[simp] theorem releaseDone_frame (p : Pool) (s : State) :
    (releaseDone p s).phase = s.phase ∧ (releaseDone p s).inputs = s.inputs ∧ (releaseDone p s).cfg = s.cfg ∧
    (releaseDone p s).store = s.store ∧ (releaseDone p s).port = s.port ∧ (releaseDone p s).events = s.events ∧
    (releaseDone p s).jobs = s.jobs ∧ (releaseDone p s).cans = s.cans ∧ (releaseDone p s).stir = s.stir ∧
    (releaseDone p s).pump = s.pump ∧ (releaseDone p s).scale = s.scale ∧ (releaseDone p s).disp = s.disp ∧
    (releaseDone p s).carriage = s.carriage ∧ (releaseDone p s).lid = s.lid ∧ (releaseDone p s).shake = s.shake ∧
    (releaseDone p s).line = s.line ∧ (releaseDone p s).roster = s.roster ∧ (releaseDone p s).mon = s.mon ∧
    (releaseDone p s).completion = s.completion ∧ (releaseDone p s).free = s.free ∧
    (releaseDone p s).pending = s.pending := by
  unfold releaseDone
  try dsimp only
  repeat' split
  all_goals simp

@[simp] theorem enterLine_frame (st : LineCtlState) (s : State) :
    (enterLine st s).phase = s.phase ∧ (enterLine st s).inputs = s.inputs ∧ (enterLine st s).cfg = s.cfg ∧
    (enterLine st s).store = s.store ∧ (enterLine st s).port = s.port ∧ (enterLine st s).jobs = s.jobs ∧
    (enterLine st s).cans = s.cans ∧ (enterLine st s).stir = s.stir ∧ (enterLine st s).pump = s.pump ∧
    (enterLine st s).scale = s.scale ∧ (enterLine st s).disp = s.disp ∧ (enterLine st s).carriage = s.carriage ∧
    (enterLine st s).lid = s.lid ∧ (enterLine st s).shake = s.shake ∧ (enterLine st s).roster = s.roster ∧
    (enterLine st s).power = s.power ∧ (enterLine st s).air = s.air ∧ (enterLine st s).mon = s.mon ∧
    (enterLine st s).completion = s.completion ∧ (enterLine st s).free = s.free ∧
    (enterLine st s).pending = s.pending ∧ (enterLine st s).events.enables = s.events.enables := by
  unfold enterLine
  try dsimp only
  repeat' split
  all_goals simp

@[simp] theorem returnClaim_frame (p : Pool) (s : State) :
    (returnClaim p s).phase = s.phase ∧ (returnClaim p s).inputs = s.inputs ∧ (returnClaim p s).cfg = s.cfg ∧
    (returnClaim p s).store = s.store ∧ (returnClaim p s).port = s.port ∧ (returnClaim p s).events = s.events ∧
    (returnClaim p s).jobs = s.jobs ∧ (returnClaim p s).cans = s.cans ∧ (returnClaim p s).stir = s.stir ∧
    (returnClaim p s).pump = s.pump ∧ (returnClaim p s).scale = s.scale ∧ (returnClaim p s).disp = s.disp ∧
    (returnClaim p s).carriage = s.carriage ∧ (returnClaim p s).lid = s.lid ∧ (returnClaim p s).shake = s.shake ∧
    (returnClaim p s).roster = s.roster ∧ (returnClaim p s).mon = s.mon ∧
    (returnClaim p s).completion = s.completion ∧ (returnClaim p s).free = s.free ∧
    (returnClaim p s).pending = s.pending := by
  unfold returnClaim
  try dsimp only
  repeat' split
  all_goals simp

@[simp] theorem downOnThird_frame (s : State) :
    (downOnThird s).phase = s.phase ∧ (downOnThird s).inputs = s.inputs ∧ (downOnThird s).cfg = s.cfg ∧
    (downOnThird s).store = s.store ∧ (downOnThird s).port = s.port ∧ (downOnThird s).jobs = s.jobs ∧
    (downOnThird s).cans = s.cans ∧ (downOnThird s).stir = s.stir ∧ (downOnThird s).pump = s.pump ∧
    (downOnThird s).scale = s.scale ∧ (downOnThird s).disp = s.disp ∧ (downOnThird s).carriage = s.carriage ∧
    (downOnThird s).lid = s.lid ∧ (downOnThird s).shake = s.shake ∧ (downOnThird s).roster = s.roster ∧
    (downOnThird s).mon = s.mon ∧ (downOnThird s).completion = s.completion ∧ (downOnThird s).free = s.free ∧
    (downOnThird s).pending = s.pending ∧ (downOnThird s).events.enables = s.events.enables := by
  unfold downOnThird
  try dsimp only
  repeat' split
  all_goals simp

@[simp] theorem returnFromDown_frame (s : State) :
    (returnFromDown s).phase = s.phase ∧ (returnFromDown s).inputs = s.inputs ∧ (returnFromDown s).cfg = s.cfg ∧
    (returnFromDown s).store = s.store ∧ (returnFromDown s).port = s.port ∧ (returnFromDown s).jobs = s.jobs ∧
    (returnFromDown s).cans = s.cans ∧ (returnFromDown s).stir = s.stir ∧ (returnFromDown s).pump = s.pump ∧
    (returnFromDown s).scale = s.scale ∧ (returnFromDown s).disp = s.disp ∧
    (returnFromDown s).carriage = s.carriage ∧ (returnFromDown s).lid = s.lid ∧ (returnFromDown s).shake = s.shake ∧
    (returnFromDown s).roster = s.roster ∧ (returnFromDown s).mon = s.mon ∧
    (returnFromDown s).completion = s.completion ∧ (returnFromDown s).free = s.free ∧
    (returnFromDown s).pending = s.pending ∧ (returnFromDown s).events.enables = s.events.enables := by
  unfold returnFromDown
  try dsimp only
  repeat' split
  all_goals simp

@[simp] theorem reportSent_frame (a : Attempt) (s : State) :
    (reportSent a s).phase = s.phase ∧ (reportSent a s).inputs = s.inputs ∧ (reportSent a s).cfg = s.cfg ∧
    (reportSent a s).store = s.store ∧ (reportSent a s).port = s.port ∧ (reportSent a s).events = s.events ∧
    (reportSent a s).jobs = s.jobs ∧ (reportSent a s).cans = s.cans ∧ (reportSent a s).stir = s.stir ∧
    (reportSent a s).pump = s.pump ∧ (reportSent a s).scale = s.scale ∧ (reportSent a s).disp = s.disp ∧
    (reportSent a s).carriage = s.carriage ∧ (reportSent a s).roster = s.roster ∧ (reportSent a s).mon = s.mon ∧
    (reportSent a s).completion = s.completion ∧ (reportSent a s).free = s.free ∧
    (reportSent a s).pending = s.pending := by
  unfold reportSent
  try dsimp only
  repeat' split
  all_goals simp

@[simp] theorem reportUnsent_frame (f : Frame) (s : State) :
    (reportUnsent f s).phase = s.phase ∧ (reportUnsent f s).inputs = s.inputs ∧ (reportUnsent f s).cfg = s.cfg ∧
    (reportUnsent f s).store = s.store ∧ (reportUnsent f s).port = s.port ∧ (reportUnsent f s).events = s.events ∧
    (reportUnsent f s).jobs = s.jobs ∧ (reportUnsent f s).cans = s.cans ∧ (reportUnsent f s).stir = s.stir ∧
    (reportUnsent f s).pump = s.pump ∧ (reportUnsent f s).scale = s.scale ∧ (reportUnsent f s).disp = s.disp ∧
    (reportUnsent f s).carriage = s.carriage ∧ (reportUnsent f s).lid = s.lid ∧ (reportUnsent f s).shake = s.shake ∧
    (reportUnsent f s).roster = s.roster ∧ (reportUnsent f s).mon = s.mon ∧
    (reportUnsent f s).completion = s.completion ∧ (reportUnsent f s).free = s.free ∧
    (reportUnsent f s).pending = s.pending := by
  unfold reportUnsent
  try dsimp only
  repeat' split
  all_goals simp

@[simp] theorem countDrop_frame (s : State) :
    (countDrop s).phase = s.phase ∧ (countDrop s).inputs = s.inputs ∧ (countDrop s).cfg = s.cfg ∧
    (countDrop s).store = s.store ∧ (countDrop s).port = s.port ∧ (countDrop s).jobs = s.jobs ∧
    (countDrop s).cans = s.cans ∧ (countDrop s).stir = s.stir ∧ (countDrop s).pump = s.pump ∧
    (countDrop s).scale = s.scale ∧ (countDrop s).disp = s.disp ∧ (countDrop s).carriage = s.carriage ∧
    (countDrop s).lid = s.lid ∧ (countDrop s).shake = s.shake ∧ (countDrop s).roster = s.roster ∧
    (countDrop s).mon = s.mon ∧ (countDrop s).completion = s.completion ∧ (countDrop s).free = s.free ∧
    (countDrop s).pending = s.pending ∧ (countDrop s).events.enables = s.events.enables := by
  unfold countDrop
  try dsimp only
  repeat' split
  all_goals simp

@[simp] theorem unqueue_frame (f : Frame) (s : State) :
    (unqueue f s).phase = s.phase ∧ (unqueue f s).inputs = s.inputs ∧ (unqueue f s).cfg = s.cfg ∧
    (unqueue f s).store = s.store ∧ (unqueue f s).port = s.port ∧ (unqueue f s).events = s.events ∧
    (unqueue f s).jobs = s.jobs ∧ (unqueue f s).cans = s.cans ∧ (unqueue f s).stir = s.stir ∧
    (unqueue f s).pump = s.pump ∧ (unqueue f s).scale = s.scale ∧ (unqueue f s).disp = s.disp ∧
    (unqueue f s).carriage = s.carriage ∧ (unqueue f s).lid = s.lid ∧ (unqueue f s).shake = s.shake ∧
    (unqueue f s).roster = s.roster ∧ (unqueue f s).power = s.power ∧ (unqueue f s).air = s.air ∧
    (unqueue f s).mon = s.mon ∧ (unqueue f s).completion = s.completion ∧ (unqueue f s).free = s.free ∧
    (unqueue f s).pending = s.pending := by
  unfold unqueue
  try dsimp only
  repeat' split
  all_goals simp

@[simp] theorem startFrame_frame (s : State) :
    (startFrame s).phase = s.phase ∧ (startFrame s).inputs = s.inputs ∧ (startFrame s).cfg = s.cfg ∧
    (startFrame s).store = s.store ∧ (startFrame s).port = s.port ∧ (startFrame s).events = s.events ∧
    (startFrame s).jobs = s.jobs ∧ (startFrame s).cans = s.cans ∧ (startFrame s).stir = s.stir ∧
    (startFrame s).pump = s.pump ∧ (startFrame s).scale = s.scale ∧ (startFrame s).disp = s.disp ∧
    (startFrame s).carriage = s.carriage ∧ (startFrame s).lid = s.lid ∧ (startFrame s).shake = s.shake ∧
    (startFrame s).roster = s.roster ∧ (startFrame s).power = s.power ∧ (startFrame s).air = s.air ∧
    (startFrame s).mon = s.mon ∧ (startFrame s).completion = s.completion ∧ (startFrame s).free = s.free ∧
    (startFrame s).pending = s.pending := by
  unfold startFrame
  try dsimp only
  repeat' split
  all_goals simp

@[simp] theorem attemptFailed_frame (counted : Bool) (a : Attempt) (s : State) :
    (attemptFailed counted a s).phase = s.phase ∧ (attemptFailed counted a s).inputs = s.inputs ∧
    (attemptFailed counted a s).cfg = s.cfg ∧ (attemptFailed counted a s).store = s.store ∧
    (attemptFailed counted a s).port = s.port ∧ (attemptFailed counted a s).jobs = s.jobs ∧
    (attemptFailed counted a s).cans = s.cans ∧ (attemptFailed counted a s).stir = s.stir ∧
    (attemptFailed counted a s).pump = s.pump ∧ (attemptFailed counted a s).scale = s.scale ∧
    (attemptFailed counted a s).disp = s.disp ∧ (attemptFailed counted a s).carriage = s.carriage ∧
    (attemptFailed counted a s).lid = s.lid ∧ (attemptFailed counted a s).shake = s.shake ∧
    (attemptFailed counted a s).roster = s.roster ∧ (attemptFailed counted a s).mon = s.mon ∧
    (attemptFailed counted a s).completion = s.completion ∧ (attemptFailed counted a s).free = s.free ∧
    (attemptFailed counted a s).pending = s.pending ∧ (attemptFailed counted a s).events.enables = s.events.enables := by
  unfold attemptFailed
  try dsimp only
  repeat' split
  all_goals simp

@[simp] theorem endAttempt_frame (idle : Nat) (s : State) :
    (endAttempt idle s).phase = s.phase ∧ (endAttempt idle s).inputs = s.inputs ∧ (endAttempt idle s).cfg = s.cfg ∧
    (endAttempt idle s).store = s.store ∧ (endAttempt idle s).port = s.port ∧
    (endAttempt idle s).events = s.events ∧ (endAttempt idle s).jobs = s.jobs ∧ (endAttempt idle s).cans = s.cans ∧
    (endAttempt idle s).stir = s.stir ∧ (endAttempt idle s).pump = s.pump ∧ (endAttempt idle s).scale = s.scale ∧
    (endAttempt idle s).disp = s.disp ∧ (endAttempt idle s).carriage = s.carriage ∧
    (endAttempt idle s).lid = s.lid ∧ (endAttempt idle s).shake = s.shake ∧ (endAttempt idle s).roster = s.roster ∧
    (endAttempt idle s).power = s.power ∧ (endAttempt idle s).air = s.air ∧ (endAttempt idle s).mon = s.mon ∧
    (endAttempt idle s).completion = s.completion ∧ (endAttempt idle s).free = s.free ∧
    (endAttempt idle s).pending = s.pending := by
  unfold endAttempt
  try dsimp only
  repeat' split
  all_goals simp

@[simp] theorem frameDone_frame (a : Attempt) (s : State) :
    (frameDone a s).phase = s.phase ∧ (frameDone a s).inputs = s.inputs ∧ (frameDone a s).cfg = s.cfg ∧
    (frameDone a s).store = s.store ∧ (frameDone a s).port = s.port ∧ (frameDone a s).jobs = s.jobs ∧
    (frameDone a s).cans = s.cans ∧ (frameDone a s).stir = s.stir ∧ (frameDone a s).pump = s.pump ∧
    (frameDone a s).scale = s.scale ∧ (frameDone a s).disp = s.disp ∧ (frameDone a s).carriage = s.carriage ∧
    (frameDone a s).roster = s.roster ∧ (frameDone a s).mon = s.mon ∧ (frameDone a s).completion = s.completion ∧
    (frameDone a s).free = s.free ∧ (frameDone a s).pending = s.pending ∧
    (frameDone a s).events.enables = s.events.enables := by
  unfold frameDone
  try dsimp only
  repeat' split
  all_goals simp

@[simp] theorem barLine_frame (s : State) :
    (barLine s).phase = s.phase ∧ (barLine s).inputs = s.inputs ∧ (barLine s).cfg = s.cfg ∧
    (barLine s).store = s.store ∧ (barLine s).port = s.port ∧ (barLine s).jobs = s.jobs ∧
    (barLine s).cans = s.cans ∧ (barLine s).stir = s.stir ∧ (barLine s).pump = s.pump ∧
    (barLine s).scale = s.scale ∧ (barLine s).disp = s.disp ∧ (barLine s).carriage = s.carriage ∧
    (barLine s).lid = s.lid ∧ (barLine s).shake = s.shake ∧ (barLine s).roster = s.roster ∧
    (barLine s).completion = s.completion ∧ (barLine s).free = s.free ∧ (barLine s).pending = s.pending ∧
    (barLine s).mon.estop = s.mon.estop ∧ (barLine s).events.enables = s.events.enables := by
  have hf : ∀ (l : List Frame) (u : State), (l.foldl (fun t f => reportUnsent f t) u).phase = u.phase ∧ (l.foldl (fun t f => reportUnsent f t) u).inputs = u.inputs ∧
      (l.foldl (fun t f => reportUnsent f t) u).cfg = u.cfg ∧ (l.foldl (fun t f => reportUnsent f t) u).store = u.store ∧
      (l.foldl (fun t f => reportUnsent f t) u).port = u.port ∧ (l.foldl (fun t f => reportUnsent f t) u).events = u.events ∧
      (l.foldl (fun t f => reportUnsent f t) u).jobs = u.jobs ∧ (l.foldl (fun t f => reportUnsent f t) u).cans = u.cans ∧
      (l.foldl (fun t f => reportUnsent f t) u).stir = u.stir ∧ (l.foldl (fun t f => reportUnsent f t) u).pump = u.pump ∧
      (l.foldl (fun t f => reportUnsent f t) u).scale = u.scale ∧ (l.foldl (fun t f => reportUnsent f t) u).disp = u.disp ∧
      (l.foldl (fun t f => reportUnsent f t) u).carriage = u.carriage ∧ (l.foldl (fun t f => reportUnsent f t) u).lid = u.lid ∧
      (l.foldl (fun t f => reportUnsent f t) u).shake = u.shake ∧ (l.foldl (fun t f => reportUnsent f t) u).roster = u.roster ∧
      (l.foldl (fun t f => reportUnsent f t) u).mon = u.mon ∧ (l.foldl (fun t f => reportUnsent f t) u).completion = u.completion ∧
      (l.foldl (fun t f => reportUnsent f t) u).free = u.free ∧ (l.foldl (fun t f => reportUnsent f t) u).pending = u.pending := by
    intro l
    induction l with
    | nil => simp
    | cons a l ih => intro u; simp [ih]
  unfold barLine
  dsimp only
  simp [hf]

@[simp] theorem supersedeBeacon_frame (s : State) :
    (supersedeBeacon s).phase = s.phase ∧ (supersedeBeacon s).inputs = s.inputs ∧ (supersedeBeacon s).cfg = s.cfg ∧
    (supersedeBeacon s).store = s.store ∧ (supersedeBeacon s).port = s.port ∧ (supersedeBeacon s).jobs = s.jobs ∧
    (supersedeBeacon s).cans = s.cans ∧ (supersedeBeacon s).stir = s.stir ∧ (supersedeBeacon s).pump = s.pump ∧
    (supersedeBeacon s).scale = s.scale ∧ (supersedeBeacon s).disp = s.disp ∧
    (supersedeBeacon s).carriage = s.carriage ∧ (supersedeBeacon s).lid = s.lid ∧
    (supersedeBeacon s).shake = s.shake ∧ (supersedeBeacon s).roster = s.roster ∧ (supersedeBeacon s).mon = s.mon ∧
    (supersedeBeacon s).completion = s.completion ∧ (supersedeBeacon s).free = s.free ∧
    (supersedeBeacon s).pending = s.pending ∧ (supersedeBeacon s).events.enables = s.events.enables := by
  unfold supersedeBeacon
  try dsimp only
  repeat' split
  all_goals simp

@[simp] theorem placeBeacon_frame (s : State) :
    (placeBeacon s).phase = s.phase ∧ (placeBeacon s).inputs = s.inputs ∧ (placeBeacon s).cfg = s.cfg ∧
    (placeBeacon s).store = s.store ∧ (placeBeacon s).port = s.port ∧ (placeBeacon s).events = s.events ∧
    (placeBeacon s).jobs = s.jobs ∧ (placeBeacon s).cans = s.cans ∧ (placeBeacon s).stir = s.stir ∧
    (placeBeacon s).pump = s.pump ∧ (placeBeacon s).scale = s.scale ∧ (placeBeacon s).disp = s.disp ∧
    (placeBeacon s).carriage = s.carriage ∧ (placeBeacon s).lid = s.lid ∧ (placeBeacon s).shake = s.shake ∧
    (placeBeacon s).roster = s.roster ∧ (placeBeacon s).power = s.power ∧ (placeBeacon s).air = s.air ∧
    (placeBeacon s).mon = s.mon ∧ (placeBeacon s).completion = s.completion ∧ (placeBeacon s).free = s.free ∧
    (placeBeacon s).pending = s.pending := by
  unfold placeBeacon
  try dsimp only
  repeat' split
  all_goals simp

@[simp] theorem countListening_frame (s : State) :
    (countListening s).phase = s.phase ∧ (countListening s).inputs = s.inputs ∧ (countListening s).cfg = s.cfg ∧
    (countListening s).store = s.store ∧ (countListening s).port = s.port ∧ (countListening s).jobs = s.jobs ∧
    (countListening s).cans = s.cans ∧ (countListening s).stir = s.stir ∧ (countListening s).pump = s.pump ∧
    (countListening s).scale = s.scale ∧ (countListening s).disp = s.disp ∧
    (countListening s).carriage = s.carriage ∧ (countListening s).lid = s.lid ∧ (countListening s).shake = s.shake ∧
    (countListening s).roster = s.roster ∧ (countListening s).mon = s.mon ∧
    (countListening s).completion = s.completion ∧ (countListening s).free = s.free ∧
    (countListening s).pending = s.pending ∧ (countListening s).events.enables = s.events.enables := by
  unfold countListening
  try dsimp only
  repeat' split
  all_goals simp

@[simp] theorem beaconExpiry_frame (s : State) :
    (beaconExpiry s).phase = s.phase ∧ (beaconExpiry s).inputs = s.inputs ∧ (beaconExpiry s).cfg = s.cfg ∧
    (beaconExpiry s).store = s.store ∧ (beaconExpiry s).port = s.port ∧ (beaconExpiry s).jobs = s.jobs ∧
    (beaconExpiry s).cans = s.cans ∧ (beaconExpiry s).stir = s.stir ∧ (beaconExpiry s).pump = s.pump ∧
    (beaconExpiry s).scale = s.scale ∧ (beaconExpiry s).disp = s.disp ∧ (beaconExpiry s).carriage = s.carriage ∧
    (beaconExpiry s).lid = s.lid ∧ (beaconExpiry s).shake = s.shake ∧ (beaconExpiry s).roster = s.roster ∧
    (beaconExpiry s).mon = s.mon ∧ (beaconExpiry s).completion = s.completion ∧ (beaconExpiry s).free = s.free ∧
    (beaconExpiry s).pending = s.pending ∧ (beaconExpiry s).events.enables = s.events.enables := by
  unfold beaconExpiry
  try dsimp only
  repeat' split
  all_goals simp

@[simp] theorem startLine_frame (s : State) :
    (startLine s).phase = s.phase ∧ (startLine s).inputs = s.inputs ∧ (startLine s).cfg = s.cfg ∧
    (startLine s).store = s.store ∧ (startLine s).port = s.port ∧ (startLine s).jobs = s.jobs ∧
    (startLine s).cans = s.cans ∧ (startLine s).stir = s.stir ∧ (startLine s).pump = s.pump ∧
    (startLine s).scale = s.scale ∧ (startLine s).disp = s.disp ∧ (startLine s).carriage = s.carriage ∧
    (startLine s).lid = s.lid ∧ (startLine s).shake = s.shake ∧ (startLine s).roster = s.roster ∧
    (startLine s).power = s.power ∧ (startLine s).air = s.air ∧ (startLine s).mon = s.mon ∧
    (startLine s).completion = s.completion ∧ (startLine s).free = s.free ∧ (startLine s).pending = s.pending ∧
    (startLine s).events.enables = s.events.enables := by
  unfold startLine
  try dsimp only
  repeat' split
  all_goals simp

@[simp] theorem mapEntry_frame (i : Station) (f : RosterEntry → RosterEntry) (s : State) :
    (State.mapEntry i f s).phase = s.phase ∧ (State.mapEntry i f s).inputs = s.inputs ∧
    (State.mapEntry i f s).cfg = s.cfg ∧ (State.mapEntry i f s).store = s.store ∧
    (State.mapEntry i f s).port = s.port ∧ (State.mapEntry i f s).events = s.events ∧
    (State.mapEntry i f s).jobs = s.jobs ∧ (State.mapEntry i f s).cans = s.cans ∧
    (State.mapEntry i f s).stir = s.stir ∧ (State.mapEntry i f s).pump = s.pump ∧
    (State.mapEntry i f s).scale = s.scale ∧ (State.mapEntry i f s).disp = s.disp ∧
    (State.mapEntry i f s).carriage = s.carriage ∧ (State.mapEntry i f s).lid = s.lid ∧
    (State.mapEntry i f s).shake = s.shake ∧ (State.mapEntry i f s).line = s.line ∧
    (State.mapEntry i f s).power = s.power ∧ (State.mapEntry i f s).air = s.air ∧
    (State.mapEntry i f s).mon = s.mon ∧ (State.mapEntry i f s).completion = s.completion ∧
    (State.mapEntry i f s).free = s.free ∧ (State.mapEntry i f s).pending = s.pending := by
  unfold State.mapEntry
  try dsimp only
  repeat' split
  all_goals simp

@[simp] theorem judgePeer_frame (src : Station) (p : Pool) (a : Nat) (s : State) :
    (judgePeer src p a s).phase = s.phase ∧ (judgePeer src p a s).inputs = s.inputs ∧
    (judgePeer src p a s).cfg = s.cfg ∧ (judgePeer src p a s).store = s.store ∧
    (judgePeer src p a s).port = s.port ∧ (judgePeer src p a s).events = s.events ∧
    (judgePeer src p a s).jobs = s.jobs ∧ (judgePeer src p a s).cans = s.cans ∧
    (judgePeer src p a s).stir = s.stir ∧ (judgePeer src p a s).pump = s.pump ∧
    (judgePeer src p a s).scale = s.scale ∧ (judgePeer src p a s).disp = s.disp ∧
    (judgePeer src p a s).carriage = s.carriage ∧ (judgePeer src p a s).lid = s.lid ∧
    (judgePeer src p a s).shake = s.shake ∧ (judgePeer src p a s).line = s.line ∧
    (judgePeer src p a s).power = s.power ∧ (judgePeer src p a s).air = s.air ∧ (judgePeer src p a s).mon = s.mon ∧
    (judgePeer src p a s).completion = s.completion ∧ (judgePeer src p a s).free = s.free ∧
    (judgePeer src p a s).pending = s.pending := by
  unfold judgePeer
  try dsimp only
  repeat' split
  all_goals simp

@[simp] theorem adjustPeer_frame (src : Station) (p : Pool) (a : Nat) (s : State) :
    (adjustPeer src p a s).phase = s.phase ∧ (adjustPeer src p a s).inputs = s.inputs ∧
    (adjustPeer src p a s).cfg = s.cfg ∧ (adjustPeer src p a s).store = s.store ∧
    (adjustPeer src p a s).port = s.port ∧ (adjustPeer src p a s).jobs = s.jobs ∧
    (adjustPeer src p a s).cans = s.cans ∧ (adjustPeer src p a s).stir = s.stir ∧
    (adjustPeer src p a s).pump = s.pump ∧ (adjustPeer src p a s).scale = s.scale ∧
    (adjustPeer src p a s).disp = s.disp ∧ (adjustPeer src p a s).carriage = s.carriage ∧
    (adjustPeer src p a s).lid = s.lid ∧ (adjustPeer src p a s).shake = s.shake ∧
    (adjustPeer src p a s).line = s.line ∧ (adjustPeer src p a s).power = s.power ∧
    (adjustPeer src p a s).air = s.air ∧ (adjustPeer src p a s).mon = s.mon ∧
    (adjustPeer src p a s).completion = s.completion ∧ (adjustPeer src p a s).free = s.free ∧
    (adjustPeer src p a s).pending = s.pending ∧ (adjustPeer src p a s).events.enables = s.events.enables := by
  unfold adjustPeer
  try dsimp only
  repeat' split
  all_goals simp

@[simp] theorem releasePeer_frame (src : Station) (p : Pool) (s : State) :
    (releasePeer src p s).phase = s.phase ∧ (releasePeer src p s).inputs = s.inputs ∧
    (releasePeer src p s).cfg = s.cfg ∧ (releasePeer src p s).store = s.store ∧
    (releasePeer src p s).port = s.port ∧ (releasePeer src p s).events = s.events ∧
    (releasePeer src p s).jobs = s.jobs ∧ (releasePeer src p s).cans = s.cans ∧
    (releasePeer src p s).stir = s.stir ∧ (releasePeer src p s).pump = s.pump ∧
    (releasePeer src p s).scale = s.scale ∧ (releasePeer src p s).disp = s.disp ∧
    (releasePeer src p s).carriage = s.carriage ∧ (releasePeer src p s).lid = s.lid ∧
    (releasePeer src p s).shake = s.shake ∧ (releasePeer src p s).line = s.line ∧
    (releasePeer src p s).power = s.power ∧ (releasePeer src p s).air = s.air ∧ (releasePeer src p s).mon = s.mon ∧
    (releasePeer src p s).completion = s.completion ∧ (releasePeer src p s).free = s.free ∧
    (releasePeer src p s).pending = s.pending := by
  unfold releasePeer
  try dsimp only
  repeat' split
  all_goals simp

@[simp] theorem waitPeer_frame (src : Station) (p : Pool) (amount count : Nat) (s : State) :
    (waitPeer src p amount count s).phase = s.phase ∧ (waitPeer src p amount count s).inputs = s.inputs ∧
    (waitPeer src p amount count s).cfg = s.cfg ∧ (waitPeer src p amount count s).store = s.store ∧
    (waitPeer src p amount count s).port = s.port ∧ (waitPeer src p amount count s).events = s.events ∧
    (waitPeer src p amount count s).jobs = s.jobs ∧ (waitPeer src p amount count s).cans = s.cans ∧
    (waitPeer src p amount count s).stir = s.stir ∧ (waitPeer src p amount count s).pump = s.pump ∧
    (waitPeer src p amount count s).scale = s.scale ∧ (waitPeer src p amount count s).disp = s.disp ∧
    (waitPeer src p amount count s).carriage = s.carriage ∧ (waitPeer src p amount count s).lid = s.lid ∧
    (waitPeer src p amount count s).shake = s.shake ∧ (waitPeer src p amount count s).line = s.line ∧
    (waitPeer src p amount count s).power = s.power ∧ (waitPeer src p amount count s).air = s.air ∧
    (waitPeer src p amount count s).mon = s.mon ∧ (waitPeer src p amount count s).completion = s.completion ∧
    (waitPeer src p amount count s).free = s.free ∧ (waitPeer src p amount count s).pending = s.pending := by
  unfold waitPeer
  try dsimp only
  repeat' split
  all_goals simp

@[simp] theorem beaconPeer_frame (src : Station) (b : Beacon) (s : State) :
    (beaconPeer src b s).phase = s.phase ∧ (beaconPeer src b s).inputs = s.inputs ∧
    (beaconPeer src b s).cfg = s.cfg ∧ (beaconPeer src b s).store = s.store ∧ (beaconPeer src b s).port = s.port ∧
    (beaconPeer src b s).jobs = s.jobs ∧ (beaconPeer src b s).cans = s.cans ∧ (beaconPeer src b s).stir = s.stir ∧
    (beaconPeer src b s).pump = s.pump ∧ (beaconPeer src b s).scale = s.scale ∧ (beaconPeer src b s).disp = s.disp ∧
    (beaconPeer src b s).carriage = s.carriage ∧ (beaconPeer src b s).lid = s.lid ∧
    (beaconPeer src b s).shake = s.shake ∧ (beaconPeer src b s).line = s.line ∧
    (beaconPeer src b s).power = s.power ∧ (beaconPeer src b s).air = s.air ∧ (beaconPeer src b s).mon = s.mon ∧
    (beaconPeer src b s).completion = s.completion ∧ (beaconPeer src b s).free = s.free ∧
    (beaconPeer src b s).pending = s.pending ∧ (beaconPeer src b s).events.enables = s.events.enables := by
  unfold beaconPeer
  try dsimp only
  repeat' split
  all_goals simp

@[simp] theorem discardFrame_frame (s : State) :
    (discardFrame s).phase = s.phase ∧ (discardFrame s).inputs = s.inputs ∧ (discardFrame s).cfg = s.cfg ∧
    (discardFrame s).store = s.store ∧ (discardFrame s).port = s.port ∧ (discardFrame s).events = s.events ∧
    (discardFrame s).jobs = s.jobs ∧ (discardFrame s).cans = s.cans ∧ (discardFrame s).stir = s.stir ∧
    (discardFrame s).pump = s.pump ∧ (discardFrame s).scale = s.scale ∧ (discardFrame s).disp = s.disp ∧
    (discardFrame s).carriage = s.carriage ∧ (discardFrame s).lid = s.lid ∧ (discardFrame s).shake = s.shake ∧
    (discardFrame s).roster = s.roster ∧ (discardFrame s).power = s.power ∧ (discardFrame s).air = s.air ∧
    (discardFrame s).mon = s.mon ∧ (discardFrame s).completion = s.completion ∧ (discardFrame s).free = s.free ∧
    (discardFrame s).pending = s.pending := by
  unfold discardFrame
  try dsimp only
  repeat' split
  all_goals simp

@[simp] theorem ageOut_frame (i : Station) (s : State) :
    (ageOut i s).phase = s.phase ∧ (ageOut i s).inputs = s.inputs ∧ (ageOut i s).cfg = s.cfg ∧
    (ageOut i s).store = s.store ∧ (ageOut i s).port = s.port ∧ (ageOut i s).events = s.events ∧
    (ageOut i s).jobs = s.jobs ∧ (ageOut i s).cans = s.cans ∧ (ageOut i s).stir = s.stir ∧
    (ageOut i s).pump = s.pump ∧ (ageOut i s).scale = s.scale ∧ (ageOut i s).disp = s.disp ∧
    (ageOut i s).carriage = s.carriage ∧ (ageOut i s).lid = s.lid ∧ (ageOut i s).shake = s.shake ∧
    (ageOut i s).mon = s.mon ∧ (ageOut i s).completion = s.completion ∧ (ageOut i s).free = s.free ∧
    (ageOut i s).pending = s.pending := by
  unfold ageOut
  try dsimp only
  repeat' split
  all_goals simp

end Sys2Proof.Laws
end

