-- ==== Sys2Proof/Laws/FrameBays.lean ====
section
/-! SUPPORT. For each operation the blocks it leaves unchanged: canisters, pump, records, calibration, bays and carriage. -/

namespace Sys2Proof.Laws

open Sys2Proof Sys2Proof.Machine

@[simp] theorem setLevel_frame (i : Slot) (level : Nat) (s : State) :
    (setLevel i level s).phase = s.phase ∧ (setLevel i level s).inputs = s.inputs ∧
    (setLevel i level s).cfg = s.cfg ∧ (setLevel i level s).store = s.store ∧ (setLevel i level s).port = s.port ∧
    (setLevel i level s).jobs = s.jobs ∧ (setLevel i level s).stir = s.stir ∧ (setLevel i level s).pump = s.pump ∧
    (setLevel i level s).scale = s.scale ∧ (setLevel i level s).disp = s.disp ∧
    (setLevel i level s).carriage = s.carriage ∧ (setLevel i level s).lid = s.lid ∧
    (setLevel i level s).shake = s.shake ∧ (setLevel i level s).line = s.line ∧
    (setLevel i level s).roster = s.roster ∧ (setLevel i level s).power = s.power ∧
    (setLevel i level s).air = s.air ∧ (setLevel i level s).mon = s.mon ∧
    (setLevel i level s).completion = s.completion ∧ (setLevel i level s).free = s.free ∧
    (setLevel i level s).pending = s.pending ∧ (setLevel i level s).events.enables = s.events.enables := by
  unfold setLevel
  try dsimp only
  repeat' split
  all_goals simp

@[simp] theorem debit_frame (i : Slot) (v : Nat) (s : State) :
    (debit i v s).phase = s.phase ∧ (debit i v s).inputs = s.inputs ∧ (debit i v s).cfg = s.cfg ∧
    (debit i v s).store = s.store ∧ (debit i v s).port = s.port ∧ (debit i v s).jobs = s.jobs ∧
    (debit i v s).stir = s.stir ∧ (debit i v s).pump = s.pump ∧ (debit i v s).scale = s.scale ∧
    (debit i v s).disp = s.disp ∧ (debit i v s).carriage = s.carriage ∧ (debit i v s).lid = s.lid ∧
    (debit i v s).shake = s.shake ∧ (debit i v s).line = s.line ∧ (debit i v s).roster = s.roster ∧
    (debit i v s).power = s.power ∧ (debit i v s).air = s.air ∧ (debit i v s).mon = s.mon ∧
    (debit i v s).completion = s.completion ∧ (debit i v s).free = s.free ∧ (debit i v s).pending = s.pending ∧
    (debit i v s).events.enables = s.events.enables := by
  unfold debit
  try dsimp only
  repeat' split
  all_goals simp

@[simp] theorem credit_frame (i : Slot) (v : Nat) (s : State) :
    (credit i v s).phase = s.phase ∧ (credit i v s).inputs = s.inputs ∧ (credit i v s).cfg = s.cfg ∧
    (credit i v s).store = s.store ∧ (credit i v s).port = s.port ∧ (credit i v s).events = s.events ∧
    (credit i v s).jobs = s.jobs ∧ (credit i v s).stir = s.stir ∧ (credit i v s).pump = s.pump ∧
    (credit i v s).scale = s.scale ∧ (credit i v s).disp = s.disp ∧ (credit i v s).carriage = s.carriage ∧
    (credit i v s).lid = s.lid ∧ (credit i v s).shake = s.shake ∧ (credit i v s).line = s.line ∧
    (credit i v s).roster = s.roster ∧ (credit i v s).power = s.power ∧ (credit i v s).air = s.air ∧
    (credit i v s).mon = s.mon ∧ (credit i v s).completion = s.completion ∧ (credit i v s).free = s.free ∧
    (credit i v s).pending = s.pending := by
  unfold credit
  try dsimp only
  repeat' split
  all_goals simp

@[simp] theorem countMiss_frame (i : Slot) (o : Outcome27) (s : State) :
    (countMiss i o s).phase = s.phase ∧ (countMiss i o s).inputs = s.inputs ∧ (countMiss i o s).cfg = s.cfg ∧
    (countMiss i o s).store = s.store ∧ (countMiss i o s).port = s.port ∧ (countMiss i o s).jobs = s.jobs ∧
    (countMiss i o s).stir = s.stir ∧ (countMiss i o s).pump = s.pump ∧ (countMiss i o s).scale = s.scale ∧
    (countMiss i o s).disp = s.disp ∧ (countMiss i o s).carriage = s.carriage ∧ (countMiss i o s).lid = s.lid ∧
    (countMiss i o s).shake = s.shake ∧ (countMiss i o s).line = s.line ∧ (countMiss i o s).roster = s.roster ∧
    (countMiss i o s).power = s.power ∧ (countMiss i o s).air = s.air ∧ (countMiss i o s).mon = s.mon ∧
    (countMiss i o s).completion = s.completion ∧ (countMiss i o s).free = s.free ∧
    (countMiss i o s).pending = s.pending ∧ (countMiss i o s).events.enables = s.events.enables := by
  unfold countMiss
  try dsimp only
  repeat' split
  all_goals simp

@[simp] theorem makePre_frame (i : Slot) (s : State) :
    (makePre i s).phase = s.phase ∧ (makePre i s).inputs = s.inputs ∧ (makePre i s).cfg = s.cfg ∧
    (makePre i s).store = s.store ∧ (makePre i s).port = s.port ∧ (makePre i s).events = s.events ∧
    (makePre i s).jobs = s.jobs ∧ (makePre i s).cans = s.cans ∧ (makePre i s).pump = s.pump ∧
    (makePre i s).scale = s.scale ∧ (makePre i s).disp = s.disp ∧ (makePre i s).carriage = s.carriage ∧
    (makePre i s).lid = s.lid ∧ (makePre i s).shake = s.shake ∧ (makePre i s).line = s.line ∧
    (makePre i s).roster = s.roster ∧ (makePre i s).power = s.power ∧ (makePre i s).air = s.air ∧
    (makePre i s).mon = s.mon ∧ (makePre i s).completion = s.completion ∧ (makePre i s).free = s.free ∧
    (makePre i s).pending = s.pending := by
  unfold makePre
  try dsimp only
  repeat' split
  all_goals simp

@[simp] theorem dropPre_frame (s : State) :
    (dropPre s).phase = s.phase ∧ (dropPre s).inputs = s.inputs ∧ (dropPre s).cfg = s.cfg ∧
    (dropPre s).store = s.store ∧ (dropPre s).port = s.port ∧ (dropPre s).events = s.events ∧
    (dropPre s).jobs = s.jobs ∧ (dropPre s).cans = s.cans ∧ (dropPre s).pump = s.pump ∧
    (dropPre s).scale = s.scale ∧ (dropPre s).disp = s.disp ∧ (dropPre s).carriage = s.carriage ∧
    (dropPre s).lid = s.lid ∧ (dropPre s).shake = s.shake ∧ (dropPre s).line = s.line ∧
    (dropPre s).roster = s.roster ∧ (dropPre s).power = s.power ∧ (dropPre s).air = s.air ∧
    (dropPre s).mon = s.mon ∧ (dropPre s).completion = s.completion ∧ (dropPre s).free = s.free ∧
    (dropPre s).pending = s.pending := by
  unfold dropPre
  try dsimp only
  repeat' split
  all_goals simp

@[simp] theorem grantStir_frame (i : Slot) (s : State) :
    (grantStir i s).phase = s.phase ∧ (grantStir i s).inputs = s.inputs ∧ (grantStir i s).cfg = s.cfg ∧
    (grantStir i s).store = s.store ∧ (grantStir i s).port = s.port ∧ (grantStir i s).events = s.events ∧
    (grantStir i s).jobs = s.jobs ∧ (grantStir i s).pump = s.pump ∧ (grantStir i s).scale = s.scale ∧
    (grantStir i s).disp = s.disp ∧ (grantStir i s).carriage = s.carriage ∧ (grantStir i s).lid = s.lid ∧
    (grantStir i s).shake = s.shake ∧ (grantStir i s).line = s.line ∧ (grantStir i s).roster = s.roster ∧
    (grantStir i s).power = s.power ∧ (grantStir i s).air = s.air ∧ (grantStir i s).mon = s.mon ∧
    (grantStir i s).completion = s.completion ∧ (grantStir i s).free = s.free ∧ (grantStir i s).pending = s.pending := by
  unfold grantStir
  try dsimp only
  repeat' split
  all_goals simp

@[simp] theorem grantUpTo_frame (n : Nat) (s : State) :
    (grantUpTo n s).phase = s.phase ∧ (grantUpTo n s).inputs = s.inputs ∧ (grantUpTo n s).cfg = s.cfg ∧
    (grantUpTo n s).store = s.store ∧ (grantUpTo n s).port = s.port ∧ (grantUpTo n s).events = s.events ∧
    (grantUpTo n s).jobs = s.jobs ∧ (grantUpTo n s).pump = s.pump ∧ (grantUpTo n s).scale = s.scale ∧
    (grantUpTo n s).disp = s.disp ∧ (grantUpTo n s).carriage = s.carriage ∧ (grantUpTo n s).lid = s.lid ∧
    (grantUpTo n s).shake = s.shake ∧ (grantUpTo n s).line = s.line ∧ (grantUpTo n s).roster = s.roster ∧
    (grantUpTo n s).power = s.power ∧ (grantUpTo n s).air = s.air ∧ (grantUpTo n s).mon = s.mon ∧
    (grantUpTo n s).completion = s.completion ∧ (grantUpTo n s).free = s.free ∧ (grantUpTo n s).pending = s.pending := by
  induction n generalizing s with
  | zero => simp [grantUpTo]
  | succ n ih =>
    unfold grantUpTo
    repeat' split
    all_goals simp [ih]

@[simp] theorem grantStirs_frame (s : State) :
    (grantStirs s).phase = s.phase ∧ (grantStirs s).inputs = s.inputs ∧ (grantStirs s).cfg = s.cfg ∧
    (grantStirs s).store = s.store ∧ (grantStirs s).port = s.port ∧ (grantStirs s).events = s.events ∧
    (grantStirs s).jobs = s.jobs ∧ (grantStirs s).pump = s.pump ∧ (grantStirs s).scale = s.scale ∧
    (grantStirs s).disp = s.disp ∧ (grantStirs s).carriage = s.carriage ∧ (grantStirs s).lid = s.lid ∧
    (grantStirs s).shake = s.shake ∧ (grantStirs s).line = s.line ∧ (grantStirs s).roster = s.roster ∧
    (grantStirs s).power = s.power ∧ (grantStirs s).air = s.air ∧ (grantStirs s).mon = s.mon ∧
    (grantStirs s).completion = s.completion ∧ (grantStirs s).free = s.free ∧ (grantStirs s).pending = s.pending := by
  unfold grantStirs
  try dsimp only
  repeat' split
  all_goals simp

@[simp] theorem mapRun_frame (i : Slot) (f : StirRun → StirRun) (s : State) :
    (mapRun i f s).phase = s.phase ∧ (mapRun i f s).inputs = s.inputs ∧ (mapRun i f s).cfg = s.cfg ∧
    (mapRun i f s).store = s.store ∧ (mapRun i f s).port = s.port ∧ (mapRun i f s).events = s.events ∧
    (mapRun i f s).jobs = s.jobs ∧ (mapRun i f s).cans = s.cans ∧ (mapRun i f s).pump = s.pump ∧
    (mapRun i f s).scale = s.scale ∧ (mapRun i f s).disp = s.disp ∧ (mapRun i f s).carriage = s.carriage ∧
    (mapRun i f s).lid = s.lid ∧ (mapRun i f s).shake = s.shake ∧ (mapRun i f s).line = s.line ∧
    (mapRun i f s).roster = s.roster ∧ (mapRun i f s).power = s.power ∧ (mapRun i f s).air = s.air ∧
    (mapRun i f s).mon = s.mon ∧ (mapRun i f s).completion = s.completion ∧ (mapRun i f s).free = s.free ∧
    (mapRun i f s).pending = s.pending := by
  unfold mapRun
  try dsimp only
  repeat' split
  all_goals simp

@[simp] theorem freeStir_frame (i : Slot) (s : State) :
    (freeStir i s).phase = s.phase ∧ (freeStir i s).inputs = s.inputs ∧ (freeStir i s).cfg = s.cfg ∧
    (freeStir i s).store = s.store ∧ (freeStir i s).port = s.port ∧ (freeStir i s).events = s.events ∧
    (freeStir i s).jobs = s.jobs ∧ (freeStir i s).pump = s.pump ∧ (freeStir i s).scale = s.scale ∧
    (freeStir i s).disp = s.disp ∧ (freeStir i s).carriage = s.carriage ∧ (freeStir i s).lid = s.lid ∧
    (freeStir i s).shake = s.shake ∧ (freeStir i s).line = s.line ∧ (freeStir i s).roster = s.roster ∧
    (freeStir i s).power = s.power ∧ (freeStir i s).air = s.air ∧ (freeStir i s).mon = s.mon ∧
    (freeStir i s).completion = s.completion ∧ (freeStir i s).free = s.free ∧ (freeStir i s).pending = s.pending := by
  unfold freeStir
  try dsimp only
  repeat' split
  all_goals simp

@[simp] theorem completeStir_frame (i : Slot) (s : State) :
    (completeStir i s).phase = s.phase ∧ (completeStir i s).inputs = s.inputs ∧ (completeStir i s).cfg = s.cfg ∧
    (completeStir i s).store = s.store ∧ (completeStir i s).port = s.port ∧ (completeStir i s).events = s.events ∧
    (completeStir i s).jobs = s.jobs ∧ (completeStir i s).pump = s.pump ∧ (completeStir i s).scale = s.scale ∧
    (completeStir i s).disp = s.disp ∧ (completeStir i s).carriage = s.carriage ∧ (completeStir i s).lid = s.lid ∧
    (completeStir i s).shake = s.shake ∧ (completeStir i s).line = s.line ∧ (completeStir i s).roster = s.roster ∧
    (completeStir i s).power = s.power ∧ (completeStir i s).air = s.air ∧ (completeStir i s).mon = s.mon ∧
    (completeStir i s).completion = s.completion ∧ (completeStir i s).free = s.free ∧
    (completeStir i s).pending = s.pending := by
  unfold completeStir
  try dsimp only
  repeat' split
  all_goals simp

@[simp] theorem freeAllStirs_frame (s : State) :
    (freeAllStirs s).phase = s.phase ∧ (freeAllStirs s).inputs = s.inputs ∧ (freeAllStirs s).cfg = s.cfg ∧
    (freeAllStirs s).store = s.store ∧ (freeAllStirs s).port = s.port ∧ (freeAllStirs s).events = s.events ∧
    (freeAllStirs s).jobs = s.jobs ∧ (freeAllStirs s).pump = s.pump ∧ (freeAllStirs s).scale = s.scale ∧
    (freeAllStirs s).disp = s.disp ∧ (freeAllStirs s).carriage = s.carriage ∧ (freeAllStirs s).lid = s.lid ∧
    (freeAllStirs s).shake = s.shake ∧ (freeAllStirs s).line = s.line ∧ (freeAllStirs s).roster = s.roster ∧
    (freeAllStirs s).power = s.power ∧ (freeAllStirs s).air = s.air ∧ (freeAllStirs s).mon = s.mon ∧
    (freeAllStirs s).completion = s.completion ∧ (freeAllStirs s).free = s.free ∧
    (freeAllStirs s).pending = s.pending := by
  unfold freeAllStirs
  try dsimp only
  repeat' split
  all_goals simp

@[simp] theorem markFaulted_frame (i : Slot) (why : CanFault) (s : State) :
    (markFaulted i why s).phase = s.phase ∧ (markFaulted i why s).inputs = s.inputs ∧
    (markFaulted i why s).cfg = s.cfg ∧ (markFaulted i why s).store = s.store ∧
    (markFaulted i why s).port = s.port ∧ (markFaulted i why s).carriage = s.carriage ∧
    (markFaulted i why s).lid = s.lid ∧ (markFaulted i why s).shake = s.shake ∧
    (markFaulted i why s).line = s.line ∧ (markFaulted i why s).roster = s.roster ∧
    (markFaulted i why s).power = s.power ∧ (markFaulted i why s).air = s.air ∧ (markFaulted i why s).mon = s.mon ∧
    (markFaulted i why s).completion = s.completion ∧ (markFaulted i why s).free = s.free ∧
    (markFaulted i why s).pending = s.pending ∧ (markFaulted i why s).events.enables = s.events.enables := by
  unfold markFaulted
  try dsimp only
  repeat' split
  all_goals simp

@[simp] theorem mapOp_frame (f : PumpOp → PumpOp) (s : State) :
    (mapOp f s).phase = s.phase ∧ (mapOp f s).inputs = s.inputs ∧ (mapOp f s).cfg = s.cfg ∧
    (mapOp f s).store = s.store ∧ (mapOp f s).port = s.port ∧ (mapOp f s).events = s.events ∧
    (mapOp f s).jobs = s.jobs ∧ (mapOp f s).cans = s.cans ∧ (mapOp f s).stir = s.stir ∧
    (mapOp f s).scale = s.scale ∧ (mapOp f s).disp = s.disp ∧ (mapOp f s).carriage = s.carriage ∧
    (mapOp f s).lid = s.lid ∧ (mapOp f s).shake = s.shake ∧ (mapOp f s).line = s.line ∧
    (mapOp f s).roster = s.roster ∧ (mapOp f s).power = s.power ∧ (mapOp f s).air = s.air ∧
    (mapOp f s).mon = s.mon ∧ (mapOp f s).completion = s.completion ∧ (mapOp f s).free = s.free ∧
    (mapOp f s).pending = s.pending := by
  unfold mapOp
  try dsimp only
  repeat' split
  all_goals simp

@[simp] theorem setActivity_frame (i : Slot) (a : Activity) (s : State) :
    (setActivity i a s).phase = s.phase ∧ (setActivity i a s).inputs = s.inputs ∧ (setActivity i a s).cfg = s.cfg ∧
    (setActivity i a s).store = s.store ∧ (setActivity i a s).port = s.port ∧
    (setActivity i a s).events = s.events ∧ (setActivity i a s).jobs = s.jobs ∧ (setActivity i a s).stir = s.stir ∧
    (setActivity i a s).pump = s.pump ∧ (setActivity i a s).scale = s.scale ∧ (setActivity i a s).disp = s.disp ∧
    (setActivity i a s).carriage = s.carriage ∧ (setActivity i a s).lid = s.lid ∧
    (setActivity i a s).shake = s.shake ∧ (setActivity i a s).line = s.line ∧
    (setActivity i a s).roster = s.roster ∧ (setActivity i a s).power = s.power ∧ (setActivity i a s).air = s.air ∧
    (setActivity i a s).mon = s.mon ∧ (setActivity i a s).completion = s.completion ∧
    (setActivity i a s).free = s.free ∧ (setActivity i a s).pending = s.pending := by
  unfold setActivity
  try dsimp only
  repeat' split
  all_goals simp

@[simp] theorem forwardOrRefill_frame (o : PumpOp) (s : State) :
    (forwardOrRefill o s).phase = s.phase ∧ (forwardOrRefill o s).inputs = s.inputs ∧
    (forwardOrRefill o s).cfg = s.cfg ∧ (forwardOrRefill o s).store = s.store ∧
    (forwardOrRefill o s).port = s.port ∧ (forwardOrRefill o s).events = s.events ∧
    (forwardOrRefill o s).jobs = s.jobs ∧ (forwardOrRefill o s).stir = s.stir ∧
    (forwardOrRefill o s).scale = s.scale ∧ (forwardOrRefill o s).disp = s.disp ∧
    (forwardOrRefill o s).carriage = s.carriage ∧ (forwardOrRefill o s).lid = s.lid ∧
    (forwardOrRefill o s).shake = s.shake ∧ (forwardOrRefill o s).line = s.line ∧
    (forwardOrRefill o s).roster = s.roster ∧ (forwardOrRefill o s).power = s.power ∧
    (forwardOrRefill o s).air = s.air ∧ (forwardOrRefill o s).mon = s.mon ∧
    (forwardOrRefill o s).completion = s.completion ∧ (forwardOrRefill o s).free = s.free ∧
    (forwardOrRefill o s).pending = s.pending := by
  unfold forwardOrRefill
  try dsimp only
  repeat' split
  all_goals simp

@[simp] theorem firstSegment_frame (o : PumpOp) (s : State) :
    (firstSegment o s).phase = s.phase ∧ (firstSegment o s).inputs = s.inputs ∧ (firstSegment o s).cfg = s.cfg ∧
    (firstSegment o s).store = s.store ∧ (firstSegment o s).port = s.port ∧ (firstSegment o s).events = s.events ∧
    (firstSegment o s).jobs = s.jobs ∧ (firstSegment o s).stir = s.stir ∧ (firstSegment o s).scale = s.scale ∧
    (firstSegment o s).disp = s.disp ∧ (firstSegment o s).carriage = s.carriage ∧ (firstSegment o s).lid = s.lid ∧
    (firstSegment o s).shake = s.shake ∧ (firstSegment o s).line = s.line ∧ (firstSegment o s).roster = s.roster ∧
    (firstSegment o s).power = s.power ∧ (firstSegment o s).air = s.air ∧ (firstSegment o s).mon = s.mon ∧
    (firstSegment o s).completion = s.completion ∧ (firstSegment o s).free = s.free ∧
    (firstSegment o s).pending = s.pending := by
  unfold firstSegment
  try dsimp only
  repeat' split
  all_goals simp

@[simp] theorem beginOp_frame (i : Slot) (kind : OpKind) (steps k : Nat) (s : State) :
    (beginOp i kind steps k s).phase = s.phase ∧ (beginOp i kind steps k s).inputs = s.inputs ∧
    (beginOp i kind steps k s).cfg = s.cfg ∧ (beginOp i kind steps k s).store = s.store ∧
    (beginOp i kind steps k s).port = s.port ∧ (beginOp i kind steps k s).events = s.events ∧
    (beginOp i kind steps k s).jobs = s.jobs ∧ (beginOp i kind steps k s).stir = s.stir ∧
    (beginOp i kind steps k s).scale = s.scale ∧ (beginOp i kind steps k s).disp = s.disp ∧
    (beginOp i kind steps k s).carriage = s.carriage ∧ (beginOp i kind steps k s).lid = s.lid ∧
    (beginOp i kind steps k s).shake = s.shake ∧ (beginOp i kind steps k s).line = s.line ∧
    (beginOp i kind steps k s).roster = s.roster ∧ (beginOp i kind steps k s).power = s.power ∧
    (beginOp i kind steps k s).air = s.air ∧ (beginOp i kind steps k s).mon = s.mon ∧
    (beginOp i kind steps k s).completion = s.completion ∧ (beginOp i kind steps k s).free = s.free ∧
    (beginOp i kind steps k s).pending = s.pending := by
  unfold beginOp
  try dsimp only
  repeat' split
  all_goals simp

@[simp] theorem issueSteps_frame (n : Nat) (o : PumpOp) (s : State) :
    (issueSteps n o s).phase = s.phase ∧ (issueSteps n o s).inputs = s.inputs ∧ (issueSteps n o s).cfg = s.cfg ∧
    (issueSteps n o s).store = s.store ∧ (issueSteps n o s).port = s.port ∧ (issueSteps n o s).events = s.events ∧
    (issueSteps n o s).jobs = s.jobs ∧ (issueSteps n o s).stir = s.stir ∧ (issueSteps n o s).scale = s.scale ∧
    (issueSteps n o s).disp = s.disp ∧ (issueSteps n o s).carriage = s.carriage ∧ (issueSteps n o s).lid = s.lid ∧
    (issueSteps n o s).shake = s.shake ∧ (issueSteps n o s).line = s.line ∧ (issueSteps n o s).roster = s.roster ∧
    (issueSteps n o s).power = s.power ∧ (issueSteps n o s).air = s.air ∧ (issueSteps n o s).mon = s.mon ∧
    (issueSteps n o s).completion = s.completion ∧ (issueSteps n o s).free = s.free ∧
    (issueSteps n o s).pending = s.pending := by
  unfold issueSteps
  try dsimp only
  repeat' split
  all_goals simp

@[simp] theorem endOp_frame (o : PumpOp) (s : State) :
    (endOp o s).phase = s.phase ∧ (endOp o s).inputs = s.inputs ∧ (endOp o s).cfg = s.cfg ∧
    (endOp o s).store = s.store ∧ (endOp o s).port = s.port ∧ (endOp o s).events = s.events ∧
    (endOp o s).jobs = s.jobs ∧ (endOp o s).stir = s.stir ∧ (endOp o s).scale = s.scale ∧
    (endOp o s).disp = s.disp ∧ (endOp o s).carriage = s.carriage ∧ (endOp o s).lid = s.lid ∧
    (endOp o s).shake = s.shake ∧ (endOp o s).line = s.line ∧ (endOp o s).roster = s.roster ∧
    (endOp o s).power = s.power ∧ (endOp o s).air = s.air ∧ (endOp o s).mon = s.mon ∧
    (endOp o s).completion = s.completion ∧ (endOp o s).free = s.free ∧ (endOp o s).pending = s.pending := by
  unfold endOp
  try dsimp only
  repeat' split
  all_goals simp

@[simp] theorem snuffOrEnd_frame (o : PumpOp) (s : State) :
    (snuffOrEnd o s).phase = s.phase ∧ (snuffOrEnd o s).inputs = s.inputs ∧ (snuffOrEnd o s).cfg = s.cfg ∧
    (snuffOrEnd o s).store = s.store ∧ (snuffOrEnd o s).port = s.port ∧ (snuffOrEnd o s).events = s.events ∧
    (snuffOrEnd o s).jobs = s.jobs ∧ (snuffOrEnd o s).stir = s.stir ∧ (snuffOrEnd o s).scale = s.scale ∧
    (snuffOrEnd o s).disp = s.disp ∧ (snuffOrEnd o s).carriage = s.carriage ∧ (snuffOrEnd o s).lid = s.lid ∧
    (snuffOrEnd o s).shake = s.shake ∧ (snuffOrEnd o s).line = s.line ∧ (snuffOrEnd o s).roster = s.roster ∧
    (snuffOrEnd o s).power = s.power ∧ (snuffOrEnd o s).air = s.air ∧ (snuffOrEnd o s).mon = s.mon ∧
    (snuffOrEnd o s).completion = s.completion ∧ (snuffOrEnd o s).free = s.free ∧
    (snuffOrEnd o s).pending = s.pending := by
  unfold snuffOrEnd
  try dsimp only
  repeat' split
  all_goals simp

@[simp] theorem afterMove_frame (o : PumpOp) (s : State) :
    (afterMove o s).phase = s.phase ∧ (afterMove o s).inputs = s.inputs ∧ (afterMove o s).cfg = s.cfg ∧
    (afterMove o s).store = s.store ∧ (afterMove o s).port = s.port ∧ (afterMove o s).events = s.events ∧
    (afterMove o s).jobs = s.jobs ∧ (afterMove o s).stir = s.stir ∧ (afterMove o s).scale = s.scale ∧
    (afterMove o s).disp = s.disp ∧ (afterMove o s).carriage = s.carriage ∧ (afterMove o s).lid = s.lid ∧
    (afterMove o s).shake = s.shake ∧ (afterMove o s).line = s.line ∧ (afterMove o s).roster = s.roster ∧
    (afterMove o s).power = s.power ∧ (afterMove o s).air = s.air ∧ (afterMove o s).mon = s.mon ∧
    (afterMove o s).completion = s.completion ∧ (afterMove o s).free = s.free ∧ (afterMove o s).pending = s.pending := by
  unfold afterMove
  try dsimp only
  repeat' split
  all_goals simp

@[simp] theorem afterTurnBack_frame (o : PumpOp) (s : State) :
    (afterTurnBack o s).phase = s.phase ∧ (afterTurnBack o s).inputs = s.inputs ∧ (afterTurnBack o s).cfg = s.cfg ∧
    (afterTurnBack o s).store = s.store ∧ (afterTurnBack o s).port = s.port ∧
    (afterTurnBack o s).events = s.events ∧ (afterTurnBack o s).jobs = s.jobs ∧ (afterTurnBack o s).stir = s.stir ∧
    (afterTurnBack o s).scale = s.scale ∧ (afterTurnBack o s).disp = s.disp ∧
    (afterTurnBack o s).carriage = s.carriage ∧ (afterTurnBack o s).lid = s.lid ∧
    (afterTurnBack o s).shake = s.shake ∧ (afterTurnBack o s).line = s.line ∧
    (afterTurnBack o s).roster = s.roster ∧ (afterTurnBack o s).power = s.power ∧ (afterTurnBack o s).air = s.air ∧
    (afterTurnBack o s).mon = s.mon ∧ (afterTurnBack o s).completion = s.completion ∧
    (afterTurnBack o s).free = s.free ∧ (afterTurnBack o s).pending = s.pending := by
  unfold afterTurnBack
  try dsimp only
  repeat' split
  all_goals simp

@[simp] theorem turnDone_frame (s : State) :
    (turnDone s).phase = s.phase ∧ (turnDone s).inputs = s.inputs ∧ (turnDone s).cfg = s.cfg ∧
    (turnDone s).store = s.store ∧ (turnDone s).port = s.port ∧ (turnDone s).events = s.events ∧
    (turnDone s).jobs = s.jobs ∧ (turnDone s).stir = s.stir ∧ (turnDone s).scale = s.scale ∧
    (turnDone s).disp = s.disp ∧ (turnDone s).carriage = s.carriage ∧ (turnDone s).lid = s.lid ∧
    (turnDone s).shake = s.shake ∧ (turnDone s).line = s.line ∧ (turnDone s).roster = s.roster ∧
    (turnDone s).power = s.power ∧ (turnDone s).air = s.air ∧ (turnDone s).mon = s.mon ∧
    (turnDone s).completion = s.completion ∧ (turnDone s).free = s.free ∧ (turnDone s).pending = s.pending := by
  unfold turnDone
  try dsimp only
  repeat' split
  all_goals simp

@[simp] theorem countPulse_frame (i : Slot) (s : State) :
    (countPulse i s).phase = s.phase ∧ (countPulse i s).inputs = s.inputs ∧ (countPulse i s).cfg = s.cfg ∧
    (countPulse i s).store = s.store ∧ (countPulse i s).port = s.port ∧ (countPulse i s).events = s.events ∧
    (countPulse i s).jobs = s.jobs ∧ (countPulse i s).cans = s.cans ∧ (countPulse i s).stir = s.stir ∧
    (countPulse i s).scale = s.scale ∧ (countPulse i s).disp = s.disp ∧ (countPulse i s).carriage = s.carriage ∧
    (countPulse i s).lid = s.lid ∧ (countPulse i s).shake = s.shake ∧ (countPulse i s).line = s.line ∧
    (countPulse i s).roster = s.roster ∧ (countPulse i s).power = s.power ∧ (countPulse i s).air = s.air ∧
    (countPulse i s).mon = s.mon ∧ (countPulse i s).completion = s.completion ∧ (countPulse i s).free = s.free ∧
    (countPulse i s).pending = s.pending := by
  unfold countPulse
  try dsimp only
  repeat' split
  all_goals simp

@[simp] theorem setPaused_frame (b : Bool) (s : State) :
    (setPaused b s).phase = s.phase ∧ (setPaused b s).inputs = s.inputs ∧ (setPaused b s).cfg = s.cfg ∧
    (setPaused b s).store = s.store ∧ (setPaused b s).port = s.port ∧ (setPaused b s).events = s.events ∧
    (setPaused b s).jobs = s.jobs ∧ (setPaused b s).cans = s.cans ∧ (setPaused b s).stir = s.stir ∧
    (setPaused b s).scale = s.scale ∧ (setPaused b s).disp = s.disp ∧ (setPaused b s).carriage = s.carriage ∧
    (setPaused b s).lid = s.lid ∧ (setPaused b s).shake = s.shake ∧ (setPaused b s).line = s.line ∧
    (setPaused b s).roster = s.roster ∧ (setPaused b s).power = s.power ∧ (setPaused b s).air = s.air ∧
    (setPaused b s).mon = s.mon ∧ (setPaused b s).completion = s.completion ∧ (setPaused b s).free = s.free ∧
    (setPaused b s).pending = s.pending := by
  unfold setPaused
  try dsimp only
  repeat' split
  all_goals simp

@[simp] theorem interruptOp_frame (s : State) :
    (interruptOp s).phase = s.phase ∧ (interruptOp s).inputs = s.inputs ∧ (interruptOp s).cfg = s.cfg ∧
    (interruptOp s).store = s.store ∧ (interruptOp s).port = s.port ∧ (interruptOp s).events = s.events ∧
    (interruptOp s).jobs = s.jobs ∧ (interruptOp s).stir = s.stir ∧ (interruptOp s).scale = s.scale ∧
    (interruptOp s).disp = s.disp ∧ (interruptOp s).carriage = s.carriage ∧ (interruptOp s).lid = s.lid ∧
    (interruptOp s).shake = s.shake ∧ (interruptOp s).line = s.line ∧ (interruptOp s).roster = s.roster ∧
    (interruptOp s).power = s.power ∧ (interruptOp s).air = s.air ∧ (interruptOp s).mon = s.mon ∧
    (interruptOp s).completion = s.completion ∧ (interruptOp s).free = s.free ∧ (interruptOp s).pending = s.pending := by
  unfold interruptOp
  try dsimp only
  repeat' split
  all_goals simp

@[simp] theorem joinRecord_frame (t : TinRecord) (s : State) :
    (joinRecord t s).phase = s.phase ∧ (joinRecord t s).inputs = s.inputs ∧ (joinRecord t s).cfg = s.cfg ∧
    (joinRecord t s).store = s.store ∧ (joinRecord t s).port = s.port ∧ (joinRecord t s).jobs = s.jobs ∧
    (joinRecord t s).cans = s.cans ∧ (joinRecord t s).stir = s.stir ∧ (joinRecord t s).pump = s.pump ∧
    (joinRecord t s).scale = s.scale ∧ (joinRecord t s).disp = s.disp ∧ (joinRecord t s).carriage = s.carriage ∧
    (joinRecord t s).lid = s.lid ∧ (joinRecord t s).shake = s.shake ∧ (joinRecord t s).line = s.line ∧
    (joinRecord t s).roster = s.roster ∧ (joinRecord t s).power = s.power ∧ (joinRecord t s).air = s.air ∧
    (joinRecord t s).mon = s.mon ∧ (joinRecord t s).free = s.free ∧ (joinRecord t s).pending = s.pending ∧
    (joinRecord t s).events.enables = s.events.enables := by
  unfold joinRecord
  try dsimp only
  repeat' split
  all_goals simp

@[simp] theorem afterUnclamp_frame (s : State) :
    (afterUnclamp s).phase = s.phase ∧ (afterUnclamp s).inputs = s.inputs ∧ (afterUnclamp s).cfg = s.cfg ∧
    (afterUnclamp s).store = s.store ∧ (afterUnclamp s).port = s.port ∧ (afterUnclamp s).events = s.events ∧
    (afterUnclamp s).jobs = s.jobs ∧ (afterUnclamp s).cans = s.cans ∧ (afterUnclamp s).stir = s.stir ∧
    (afterUnclamp s).pump = s.pump ∧ (afterUnclamp s).scale = s.scale ∧ (afterUnclamp s).disp = s.disp ∧
    (afterUnclamp s).carriage = s.carriage ∧ (afterUnclamp s).lid = s.lid ∧ (afterUnclamp s).line = s.line ∧
    (afterUnclamp s).roster = s.roster ∧ (afterUnclamp s).power = s.power ∧ (afterUnclamp s).air = s.air ∧
    (afterUnclamp s).mon = s.mon ∧ (afterUnclamp s).completion = s.completion ∧ (afterUnclamp s).free = s.free ∧
    (afterUnclamp s).pending = s.pending := by
  unfold afterUnclamp
  try dsimp only
  repeat' split
  all_goals simp

@[simp] theorem enterUnclamp_frame (s : State) :
    (enterUnclamp s).phase = s.phase ∧ (enterUnclamp s).inputs = s.inputs ∧ (enterUnclamp s).cfg = s.cfg ∧
    (enterUnclamp s).store = s.store ∧ (enterUnclamp s).port = s.port ∧ (enterUnclamp s).events = s.events ∧
    (enterUnclamp s).jobs = s.jobs ∧ (enterUnclamp s).cans = s.cans ∧ (enterUnclamp s).stir = s.stir ∧
    (enterUnclamp s).pump = s.pump ∧ (enterUnclamp s).scale = s.scale ∧ (enterUnclamp s).disp = s.disp ∧
    (enterUnclamp s).carriage = s.carriage ∧ (enterUnclamp s).lid = s.lid ∧ (enterUnclamp s).line = s.line ∧
    (enterUnclamp s).roster = s.roster ∧ (enterUnclamp s).power = s.power ∧ (enterUnclamp s).air = s.air ∧
    (enterUnclamp s).mon = s.mon ∧ (enterUnclamp s).completion = s.completion ∧ (enterUnclamp s).free = s.free ∧
    (enterUnclamp s).pending = s.pending := by
  unfold enterUnclamp
  try dsimp only
  repeat' split
  all_goals simp

@[simp] theorem shakeJoined_frame (s : State) :
    (shakeJoined s).phase = s.phase ∧ (shakeJoined s).inputs = s.inputs ∧ (shakeJoined s).cfg = s.cfg ∧
    (shakeJoined s).store = s.store ∧ (shakeJoined s).port = s.port ∧ (shakeJoined s).events = s.events ∧
    (shakeJoined s).jobs = s.jobs ∧ (shakeJoined s).cans = s.cans ∧ (shakeJoined s).stir = s.stir ∧
    (shakeJoined s).pump = s.pump ∧ (shakeJoined s).scale = s.scale ∧ (shakeJoined s).disp = s.disp ∧
    (shakeJoined s).carriage = s.carriage ∧ (shakeJoined s).lid = s.lid ∧ (shakeJoined s).line = s.line ∧
    (shakeJoined s).roster = s.roster ∧ (shakeJoined s).power = s.power ∧ (shakeJoined s).air = s.air ∧
    (shakeJoined s).mon = s.mon ∧ (shakeJoined s).completion = s.completion ∧ (shakeJoined s).free = s.free ∧
    (shakeJoined s).pending = s.pending := by
  unfold shakeJoined
  try dsimp only
  repeat' split
  all_goals simp

@[simp] theorem lidJoined_frame (s : State) :
    (lidJoined s).phase = s.phase ∧ (lidJoined s).inputs = s.inputs ∧ (lidJoined s).cfg = s.cfg ∧
    (lidJoined s).store = s.store ∧ (lidJoined s).port = s.port ∧ (lidJoined s).events = s.events ∧
    (lidJoined s).jobs = s.jobs ∧ (lidJoined s).cans = s.cans ∧ (lidJoined s).stir = s.stir ∧
    (lidJoined s).pump = s.pump ∧ (lidJoined s).scale = s.scale ∧ (lidJoined s).disp = s.disp ∧
    (lidJoined s).carriage = s.carriage ∧ (lidJoined s).shake = s.shake ∧ (lidJoined s).line = s.line ∧
    (lidJoined s).roster = s.roster ∧ (lidJoined s).power = s.power ∧ (lidJoined s).air = s.air ∧
    (lidJoined s).mon = s.mon ∧ (lidJoined s).completion = s.completion ∧ (lidJoined s).free = s.free ∧
    (lidJoined s).pending = s.pending := by
  unfold lidJoined
  try dsimp only
  repeat' split
  all_goals simp

@[simp] theorem finishLost_frame (s : State) :
    (finishLost s).phase = s.phase ∧ (finishLost s).inputs = s.inputs ∧ (finishLost s).cfg = s.cfg ∧
    (finishLost s).store = s.store ∧ (finishLost s).port = s.port ∧ (finishLost s).events = s.events ∧
    (finishLost s).jobs = s.jobs ∧ (finishLost s).cans = s.cans ∧ (finishLost s).stir = s.stir ∧
    (finishLost s).pump = s.pump ∧ (finishLost s).scale = s.scale ∧ (finishLost s).carriage = s.carriage ∧
    (finishLost s).lid = s.lid ∧ (finishLost s).shake = s.shake ∧ (finishLost s).line = s.line ∧
    (finishLost s).roster = s.roster ∧ (finishLost s).power = s.power ∧ (finishLost s).air = s.air ∧
    (finishLost s).mon = s.mon ∧ (finishLost s).completion = s.completion ∧ (finishLost s).free = s.free ∧
    (finishLost s).pending = s.pending := by
  unfold finishLost
  try dsimp only
  repeat' split
  all_goals simp

@[simp] theorem dispJoined_frame (s : State) :
    (dispJoined s).phase = s.phase ∧ (dispJoined s).inputs = s.inputs ∧ (dispJoined s).cfg = s.cfg ∧
    (dispJoined s).store = s.store ∧ (dispJoined s).port = s.port ∧ (dispJoined s).events = s.events ∧
    (dispJoined s).jobs = s.jobs ∧ (dispJoined s).cans = s.cans ∧ (dispJoined s).stir = s.stir ∧
    (dispJoined s).pump = s.pump ∧ (dispJoined s).scale = s.scale ∧ (dispJoined s).carriage = s.carriage ∧
    (dispJoined s).lid = s.lid ∧ (dispJoined s).shake = s.shake ∧ (dispJoined s).line = s.line ∧
    (dispJoined s).roster = s.roster ∧ (dispJoined s).power = s.power ∧ (dispJoined s).air = s.air ∧
    (dispJoined s).mon = s.mon ∧ (dispJoined s).completion = s.completion ∧ (dispJoined s).free = s.free ∧
    (dispJoined s).pending = s.pending := by
  unfold dispJoined
  try dsimp only
  repeat' split
  all_goals simp

@[simp] theorem drainShake_frame (s : State) :
    (drainShake s).phase = s.phase ∧ (drainShake s).inputs = s.inputs ∧ (drainShake s).cfg = s.cfg ∧
    (drainShake s).store = s.store ∧ (drainShake s).port = s.port ∧ (drainShake s).jobs = s.jobs ∧
    (drainShake s).cans = s.cans ∧ (drainShake s).stir = s.stir ∧ (drainShake s).pump = s.pump ∧
    (drainShake s).scale = s.scale ∧ (drainShake s).disp = s.disp ∧ (drainShake s).carriage = s.carriage ∧
    (drainShake s).lid = s.lid ∧ (drainShake s).line = s.line ∧ (drainShake s).roster = s.roster ∧
    (drainShake s).power = s.power ∧ (drainShake s).air = s.air ∧ (drainShake s).mon = s.mon ∧
    (drainShake s).free = s.free ∧ (drainShake s).pending = s.pending ∧
    (drainShake s).events.enables = s.events.enables := by
  unfold drainShake
  try dsimp only
  repeat' split
  all_goals simp

@[simp] theorem drainLid_frame (s : State) :
    (drainLid s).phase = s.phase ∧ (drainLid s).inputs = s.inputs ∧ (drainLid s).cfg = s.cfg ∧
    (drainLid s).store = s.store ∧ (drainLid s).port = s.port ∧ (drainLid s).jobs = s.jobs ∧
    (drainLid s).cans = s.cans ∧ (drainLid s).stir = s.stir ∧ (drainLid s).pump = s.pump ∧
    (drainLid s).scale = s.scale ∧ (drainLid s).disp = s.disp ∧ (drainLid s).carriage = s.carriage ∧
    (drainLid s).shake = s.shake ∧ (drainLid s).line = s.line ∧ (drainLid s).roster = s.roster ∧
    (drainLid s).power = s.power ∧ (drainLid s).air = s.air ∧ (drainLid s).mon = s.mon ∧
    (drainLid s).free = s.free ∧ (drainLid s).pending = s.pending ∧ (drainLid s).events.enables = s.events.enables := by
  unfold drainLid
  try dsimp only
  repeat' split
  all_goals simp

@[simp] theorem drainDisp_frame (s : State) :
    (drainDisp s).phase = s.phase ∧ (drainDisp s).inputs = s.inputs ∧ (drainDisp s).cfg = s.cfg ∧
    (drainDisp s).store = s.store ∧ (drainDisp s).port = s.port ∧ (drainDisp s).jobs = s.jobs ∧
    (drainDisp s).cans = s.cans ∧ (drainDisp s).stir = s.stir ∧ (drainDisp s).pump = s.pump ∧
    (drainDisp s).scale = s.scale ∧ (drainDisp s).carriage = s.carriage ∧ (drainDisp s).lid = s.lid ∧
    (drainDisp s).shake = s.shake ∧ (drainDisp s).line = s.line ∧ (drainDisp s).roster = s.roster ∧
    (drainDisp s).power = s.power ∧ (drainDisp s).air = s.air ∧ (drainDisp s).mon = s.mon ∧
    (drainDisp s).free = s.free ∧ (drainDisp s).pending = s.pending ∧
    (drainDisp s).events.enables = s.events.enables := by
  unfold drainDisp
  try dsimp only
  repeat' split
  all_goals simp

@[simp] theorem drain_frame (s : State) :
    (drain s).phase = s.phase ∧ (drain s).inputs = s.inputs ∧ (drain s).cfg = s.cfg ∧ (drain s).store = s.store ∧
    (drain s).port = s.port ∧ (drain s).jobs = s.jobs ∧ (drain s).cans = s.cans ∧ (drain s).stir = s.stir ∧
    (drain s).pump = s.pump ∧ (drain s).scale = s.scale ∧ (drain s).carriage = s.carriage ∧
    (drain s).line = s.line ∧ (drain s).roster = s.roster ∧ (drain s).power = s.power ∧ (drain s).air = s.air ∧
    (drain s).mon = s.mon ∧ (drain s).free = s.free ∧ (drain s).pending = s.pending ∧
    (drain s).events.enables = s.events.enables := by
  unfold drain
  try dsimp only
  repeat' split
  all_goals simp

@[simp] theorem enterAwaitRoom_frame (s : State) :
    (enterAwaitRoom s).phase = s.phase ∧ (enterAwaitRoom s).inputs = s.inputs ∧ (enterAwaitRoom s).cfg = s.cfg ∧
    (enterAwaitRoom s).store = s.store ∧ (enterAwaitRoom s).port = s.port ∧ (enterAwaitRoom s).jobs = s.jobs ∧
    (enterAwaitRoom s).cans = s.cans ∧ (enterAwaitRoom s).stir = s.stir ∧ (enterAwaitRoom s).pump = s.pump ∧
    (enterAwaitRoom s).scale = s.scale ∧ (enterAwaitRoom s).disp = s.disp ∧
    (enterAwaitRoom s).carriage = s.carriage ∧ (enterAwaitRoom s).lid = s.lid ∧ (enterAwaitRoom s).line = s.line ∧
    (enterAwaitRoom s).roster = s.roster ∧ (enterAwaitRoom s).power = s.power ∧ (enterAwaitRoom s).air = s.air ∧
    (enterAwaitRoom s).mon = s.mon ∧ (enterAwaitRoom s).free = s.free ∧ (enterAwaitRoom s).pending = s.pending ∧
    (enterAwaitRoom s).events.enables = s.events.enables := by
  unfold enterAwaitRoom joinOrWait
  split <;> simp

@[simp] theorem enterLidLost_frame (s : State) :
    (enterLidLost s).phase = s.phase ∧ (enterLidLost s).inputs = s.inputs ∧ (enterLidLost s).cfg = s.cfg ∧
    (enterLidLost s).store = s.store ∧ (enterLidLost s).port = s.port ∧ (enterLidLost s).jobs = s.jobs ∧
    (enterLidLost s).cans = s.cans ∧ (enterLidLost s).stir = s.stir ∧ (enterLidLost s).pump = s.pump ∧
    (enterLidLost s).scale = s.scale ∧ (enterLidLost s).disp = s.disp ∧ (enterLidLost s).carriage = s.carriage ∧
    (enterLidLost s).shake = s.shake ∧ (enterLidLost s).line = s.line ∧ (enterLidLost s).roster = s.roster ∧
    (enterLidLost s).power = s.power ∧ (enterLidLost s).air = s.air ∧ (enterLidLost s).mon = s.mon ∧
    (enterLidLost s).free = s.free ∧ (enterLidLost s).pending = s.pending ∧
    (enterLidLost s).events.enables = s.events.enables := by
  unfold enterLidLost joinOrWait
  split <;> simp

@[simp] theorem closeDispRecord_frame (s : State) :
    (closeDispRecord s).phase = s.phase ∧ (closeDispRecord s).inputs = s.inputs ∧ (closeDispRecord s).cfg = s.cfg ∧
    (closeDispRecord s).store = s.store ∧ (closeDispRecord s).port = s.port ∧ (closeDispRecord s).jobs = s.jobs ∧
    (closeDispRecord s).cans = s.cans ∧ (closeDispRecord s).stir = s.stir ∧ (closeDispRecord s).pump = s.pump ∧
    (closeDispRecord s).scale = s.scale ∧ (closeDispRecord s).carriage = s.carriage ∧
    (closeDispRecord s).lid = s.lid ∧ (closeDispRecord s).shake = s.shake ∧ (closeDispRecord s).line = s.line ∧
    (closeDispRecord s).roster = s.roster ∧ (closeDispRecord s).power = s.power ∧ (closeDispRecord s).air = s.air ∧
    (closeDispRecord s).mon = s.mon ∧ (closeDispRecord s).free = s.free ∧ (closeDispRecord s).pending = s.pending ∧
    (closeDispRecord s).events.enables = s.events.enables := by
  unfold closeDispRecord joinOrWait
  split <;> simp

@[simp] theorem mapCal_frame (f : CalRecord → CalRecord) (s : State) :
    (mapCal f s).phase = s.phase ∧ (mapCal f s).inputs = s.inputs ∧ (mapCal f s).cfg = s.cfg ∧
    (mapCal f s).store = s.store ∧ (mapCal f s).port = s.port ∧ (mapCal f s).events = s.events ∧
    (mapCal f s).jobs = s.jobs ∧ (mapCal f s).cans = s.cans ∧ (mapCal f s).stir = s.stir ∧
    (mapCal f s).pump = s.pump ∧ (mapCal f s).scale = s.scale ∧ (mapCal f s).carriage = s.carriage ∧
    (mapCal f s).lid = s.lid ∧ (mapCal f s).shake = s.shake ∧ (mapCal f s).line = s.line ∧
    (mapCal f s).roster = s.roster ∧ (mapCal f s).power = s.power ∧ (mapCal f s).air = s.air ∧
    (mapCal f s).mon = s.mon ∧ (mapCal f s).completion = s.completion ∧ (mapCal f s).free = s.free ∧
    (mapCal f s).pending = s.pending := by
  unfold mapCal
  try dsimp only
  repeat' split
  all_goals simp

@[simp] theorem calEnded_frame (s : State) :
    (calEnded s).phase = s.phase ∧ (calEnded s).inputs = s.inputs ∧ (calEnded s).cfg = s.cfg ∧
    (calEnded s).store = s.store ∧ (calEnded s).port = s.port ∧ (calEnded s).events = s.events ∧
    (calEnded s).jobs = s.jobs ∧ (calEnded s).cans = s.cans ∧ (calEnded s).stir = s.stir ∧
    (calEnded s).pump = s.pump ∧ (calEnded s).scale = s.scale ∧ (calEnded s).carriage = s.carriage ∧
    (calEnded s).lid = s.lid ∧ (calEnded s).shake = s.shake ∧ (calEnded s).line = s.line ∧
    (calEnded s).roster = s.roster ∧ (calEnded s).power = s.power ∧ (calEnded s).air = s.air ∧
    (calEnded s).mon = s.mon ∧ (calEnded s).completion = s.completion ∧ (calEnded s).free = s.free ∧
    (calEnded s).pending = s.pending := by
  unfold calEnded
  try dsimp only
  repeat' split
  all_goals simp

@[simp] theorem calOutcome_frame (o : CalOutcome) (newK : Option Nat) (s : State) :
    (calOutcome o newK s).phase = s.phase ∧ (calOutcome o newK s).inputs = s.inputs ∧
    (calOutcome o newK s).cfg = s.cfg ∧ (calOutcome o newK s).store = s.store ∧
    (calOutcome o newK s).port = s.port ∧ (calOutcome o newK s).jobs = s.jobs ∧
    (calOutcome o newK s).pump = s.pump ∧ (calOutcome o newK s).carriage = s.carriage ∧
    (calOutcome o newK s).lid = s.lid ∧ (calOutcome o newK s).shake = s.shake ∧
    (calOutcome o newK s).line = s.line ∧ (calOutcome o newK s).roster = s.roster ∧
    (calOutcome o newK s).power = s.power ∧ (calOutcome o newK s).air = s.air ∧ (calOutcome o newK s).mon = s.mon ∧
    (calOutcome o newK s).completion = s.completion ∧ (calOutcome o newK s).free = s.free ∧
    (calOutcome o newK s).pending = s.pending ∧ (calOutcome o newK s).events.enables = s.events.enables := by
  unfold calOutcome
  try dsimp only
  repeat' split
  all_goals simp

@[simp] theorem abortCal_frame (s : State) :
    (abortCal s).phase = s.phase ∧ (abortCal s).inputs = s.inputs ∧ (abortCal s).cfg = s.cfg ∧
    (abortCal s).store = s.store ∧ (abortCal s).port = s.port ∧ (abortCal s).jobs = s.jobs ∧
    (abortCal s).pump = s.pump ∧ (abortCal s).carriage = s.carriage ∧ (abortCal s).lid = s.lid ∧
    (abortCal s).shake = s.shake ∧ (abortCal s).line = s.line ∧ (abortCal s).roster = s.roster ∧
    (abortCal s).power = s.power ∧ (abortCal s).air = s.air ∧ (abortCal s).mon = s.mon ∧
    (abortCal s).completion = s.completion ∧ (abortCal s).free = s.free ∧ (abortCal s).pending = s.pending ∧
    (abortCal s).events.enables = s.events.enables := by
  unfold abortCal
  try dsimp only
  repeat' split
  all_goals simp

@[simp] theorem calDebit_frame (before : Int) (c : CalRecord) (s : State) :
    (calDebit before c s).phase = s.phase ∧ (calDebit before c s).inputs = s.inputs ∧
    (calDebit before c s).cfg = s.cfg ∧ (calDebit before c s).store = s.store ∧
    (calDebit before c s).port = s.port ∧ (calDebit before c s).jobs = s.jobs ∧
    (calDebit before c s).stir = s.stir ∧ (calDebit before c s).scale = s.scale ∧
    (calDebit before c s).carriage = s.carriage ∧ (calDebit before c s).lid = s.lid ∧
    (calDebit before c s).shake = s.shake ∧ (calDebit before c s).line = s.line ∧
    (calDebit before c s).roster = s.roster ∧ (calDebit before c s).power = s.power ∧
    (calDebit before c s).air = s.air ∧ (calDebit before c s).mon = s.mon ∧
    (calDebit before c s).completion = s.completion ∧ (calDebit before c s).free = s.free ∧
    (calDebit before c s).pending = s.pending ∧ (calDebit before c s).events.enables = s.events.enables := by
  unfold calDebit
  try dsimp only
  repeat' split
  all_goals simp

@[simp] theorem calRecheck_frame (s : State) :
    (calRecheck s).phase = s.phase ∧ (calRecheck s).inputs = s.inputs ∧ (calRecheck s).cfg = s.cfg ∧
    (calRecheck s).store = s.store ∧ (calRecheck s).port = s.port ∧ (calRecheck s).jobs = s.jobs ∧
    (calRecheck s).carriage = s.carriage ∧ (calRecheck s).lid = s.lid ∧ (calRecheck s).shake = s.shake ∧
    (calRecheck s).line = s.line ∧ (calRecheck s).roster = s.roster ∧ (calRecheck s).power = s.power ∧
    (calRecheck s).air = s.air ∧ (calRecheck s).mon = s.mon ∧ (calRecheck s).completion = s.completion ∧
    (calRecheck s).free = s.free ∧ (calRecheck s).pending = s.pending ∧
    (calRecheck s).events.enables = s.events.enables := by
  unfold calRecheck
  try dsimp only
  repeat' split
  all_goals simp

@[simp] theorem calShot_frame (steps : Nat) (b : Option Int) (s : State) :
    (calShot steps b s).phase = s.phase ∧ (calShot steps b s).inputs = s.inputs ∧ (calShot steps b s).cfg = s.cfg ∧
    (calShot steps b s).store = s.store ∧ (calShot steps b s).port = s.port ∧ (calShot steps b s).jobs = s.jobs ∧
    (calShot steps b s).carriage = s.carriage ∧ (calShot steps b s).lid = s.lid ∧ (calShot steps b s).shake = s.shake ∧
    (calShot steps b s).line = s.line ∧ (calShot steps b s).roster = s.roster ∧ (calShot steps b s).power = s.power ∧
    (calShot steps b s).air = s.air ∧ (calShot steps b s).mon = s.mon ∧ (calShot steps b s).completion = s.completion ∧
    (calShot steps b s).free = s.free ∧ (calShot steps b s).pending = s.pending ∧
    (calShot steps b s).events.enables = s.events.enables := by
  unfold calShot
  try dsimp only
  repeat' split
  all_goals simp

@[simp] theorem primeTry_frame (b : Option Int) (s : State) :
    (primeTry b s).phase = s.phase ∧ (primeTry b s).inputs = s.inputs ∧ (primeTry b s).cfg = s.cfg ∧
    (primeTry b s).store = s.store ∧ (primeTry b s).port = s.port ∧ (primeTry b s).jobs = s.jobs ∧
    (primeTry b s).carriage = s.carriage ∧ (primeTry b s).lid = s.lid ∧ (primeTry b s).shake = s.shake ∧
    (primeTry b s).line = s.line ∧ (primeTry b s).roster = s.roster ∧ (primeTry b s).power = s.power ∧
    (primeTry b s).air = s.air ∧ (primeTry b s).mon = s.mon ∧ (primeTry b s).completion = s.completion ∧
    (primeTry b s).free = s.free ∧ (primeTry b s).pending = s.pending ∧ (primeTry b s).events.enables = s.events.enables := by
  unfold primeTry
  try dsimp only
  repeat' split
  all_goals simp

@[simp] theorem calTest_frame (t : Fin 4) (s : State) :
    (calTest t s).phase = s.phase ∧ (calTest t s).inputs = s.inputs ∧ (calTest t s).cfg = s.cfg ∧
    (calTest t s).store = s.store ∧ (calTest t s).port = s.port ∧ (calTest t s).jobs = s.jobs ∧
    (calTest t s).carriage = s.carriage ∧ (calTest t s).lid = s.lid ∧ (calTest t s).shake = s.shake ∧
    (calTest t s).line = s.line ∧ (calTest t s).roster = s.roster ∧ (calTest t s).power = s.power ∧
    (calTest t s).air = s.air ∧ (calTest t s).mon = s.mon ∧ (calTest t s).completion = s.completion ∧
    (calTest t s).free = s.free ∧ (calTest t s).pending = s.pending ∧
    (calTest t s).events.enables = s.events.enables := by
  unfold calTest
  try dsimp only
  repeat' split
  all_goals simp

@[simp] theorem calPass_frame (s : State) :
    (calPass s).phase = s.phase ∧ (calPass s).inputs = s.inputs ∧ (calPass s).cfg = s.cfg ∧
    (calPass s).store = s.store ∧ (calPass s).port = s.port ∧ (calPass s).jobs = s.jobs ∧
    (calPass s).carriage = s.carriage ∧ (calPass s).lid = s.lid ∧ (calPass s).shake = s.shake ∧
    (calPass s).line = s.line ∧ (calPass s).roster = s.roster ∧ (calPass s).power = s.power ∧
    (calPass s).air = s.air ∧ (calPass s).mon = s.mon ∧ (calPass s).completion = s.completion ∧
    (calPass s).free = s.free ∧ (calPass s).pending = s.pending ∧ (calPass s).events.enables = s.events.enables := by
  unfold calPass
  try dsimp only
  repeat' split
  all_goals simp

@[simp] theorem judgePass_frame (s : State) :
    (judgePass s).phase = s.phase ∧ (judgePass s).inputs = s.inputs ∧ (judgePass s).cfg = s.cfg ∧
    (judgePass s).store = s.store ∧ (judgePass s).port = s.port ∧ (judgePass s).jobs = s.jobs ∧
    (judgePass s).carriage = s.carriage ∧ (judgePass s).lid = s.lid ∧ (judgePass s).shake = s.shake ∧
    (judgePass s).line = s.line ∧ (judgePass s).roster = s.roster ∧ (judgePass s).power = s.power ∧
    (judgePass s).air = s.air ∧ (judgePass s).mon = s.mon ∧ (judgePass s).completion = s.completion ∧
    (judgePass s).free = s.free ∧ (judgePass s).pending = s.pending ∧
    (judgePass s).events.enables = s.events.enables := by
  unfold judgePass
  try dsimp only
  repeat' split
  all_goals simp

@[simp] theorem judgeTest_frame (gain : Int) (s : State) :
    (judgeTest gain s).phase = s.phase ∧ (judgeTest gain s).inputs = s.inputs ∧ (judgeTest gain s).cfg = s.cfg ∧
    (judgeTest gain s).store = s.store ∧ (judgeTest gain s).port = s.port ∧ (judgeTest gain s).jobs = s.jobs ∧
    (judgeTest gain s).carriage = s.carriage ∧ (judgeTest gain s).lid = s.lid ∧ (judgeTest gain s).shake = s.shake ∧
    (judgeTest gain s).line = s.line ∧ (judgeTest gain s).roster = s.roster ∧ (judgeTest gain s).power = s.power ∧
    (judgeTest gain s).air = s.air ∧ (judgeTest gain s).mon = s.mon ∧ (judgeTest gain s).completion = s.completion ∧
    (judgeTest gain s).free = s.free ∧ (judgeTest gain s).pending = s.pending ∧
    (judgeTest gain s).events.enables = s.events.enables := by
  unfold judgeTest
  try dsimp only
  repeat' split
  all_goals simp

@[simp] theorem judgePrime_frame (gain : Int) (s : State) :
    (judgePrime gain s).phase = s.phase ∧ (judgePrime gain s).inputs = s.inputs ∧ (judgePrime gain s).cfg = s.cfg ∧
    (judgePrime gain s).store = s.store ∧ (judgePrime gain s).port = s.port ∧ (judgePrime gain s).jobs = s.jobs ∧
    (judgePrime gain s).carriage = s.carriage ∧ (judgePrime gain s).lid = s.lid ∧
    (judgePrime gain s).shake = s.shake ∧ (judgePrime gain s).line = s.line ∧
    (judgePrime gain s).roster = s.roster ∧ (judgePrime gain s).power = s.power ∧ (judgePrime gain s).air = s.air ∧
    (judgePrime gain s).mon = s.mon ∧ (judgePrime gain s).completion = s.completion ∧
    (judgePrime gain s).free = s.free ∧ (judgePrime gain s).pending = s.pending ∧
    (judgePrime gain s).events.enables = s.events.enables := by
  unfold judgePrime
  try dsimp only
  repeat' split
  all_goals simp

@[simp] theorem weighCup_frame (s : State) :
    (weighCup s).phase = s.phase ∧ (weighCup s).inputs = s.inputs ∧ (weighCup s).cfg = s.cfg ∧
    (weighCup s).store = s.store ∧ (weighCup s).port = s.port ∧ (weighCup s).events = s.events ∧
    (weighCup s).jobs = s.jobs ∧ (weighCup s).cans = s.cans ∧ (weighCup s).stir = s.stir ∧
    (weighCup s).pump = s.pump ∧ (weighCup s).carriage = s.carriage ∧ (weighCup s).lid = s.lid ∧
    (weighCup s).shake = s.shake ∧ (weighCup s).line = s.line ∧ (weighCup s).roster = s.roster ∧
    (weighCup s).power = s.power ∧ (weighCup s).air = s.air ∧ (weighCup s).mon = s.mon ∧
    (weighCup s).completion = s.completion ∧ (weighCup s).free = s.free ∧ (weighCup s).pending = s.pending := by
  unfold weighCup
  try dsimp only
  repeat' split
  all_goals simp

@[simp] theorem judgeCup_frame (r : Int) (s : State) :
    (judgeCup r s).phase = s.phase ∧ (judgeCup r s).inputs = s.inputs ∧ (judgeCup r s).cfg = s.cfg ∧
    (judgeCup r s).store = s.store ∧ (judgeCup r s).port = s.port ∧ (judgeCup r s).jobs = s.jobs ∧
    (judgeCup r s).carriage = s.carriage ∧ (judgeCup r s).lid = s.lid ∧ (judgeCup r s).shake = s.shake ∧
    (judgeCup r s).line = s.line ∧ (judgeCup r s).roster = s.roster ∧ (judgeCup r s).power = s.power ∧
    (judgeCup r s).air = s.air ∧ (judgeCup r s).mon = s.mon ∧ (judgeCup r s).completion = s.completion ∧
    (judgeCup r s).free = s.free ∧ (judgeCup r s).pending = s.pending ∧
    (judgeCup r s).events.enables = s.events.enables := by
  unfold judgeCup
  try dsimp only
  repeat' split
  all_goals simp

@[simp] theorem calAnswer_frame (r : Int) (s : State) :
    (calAnswer r s).phase = s.phase ∧ (calAnswer r s).inputs = s.inputs ∧ (calAnswer r s).cfg = s.cfg ∧
    (calAnswer r s).store = s.store ∧ (calAnswer r s).port = s.port ∧ (calAnswer r s).jobs = s.jobs ∧
    (calAnswer r s).carriage = s.carriage ∧ (calAnswer r s).lid = s.lid ∧ (calAnswer r s).shake = s.shake ∧
    (calAnswer r s).line = s.line ∧ (calAnswer r s).roster = s.roster ∧ (calAnswer r s).power = s.power ∧
    (calAnswer r s).air = s.air ∧ (calAnswer r s).mon = s.mon ∧ (calAnswer r s).completion = s.completion ∧
    (calAnswer r s).free = s.free ∧ (calAnswer r s).pending = s.pending ∧
    (calAnswer r s).events.enables = s.events.enables := by
  unfold calAnswer
  try dsimp only
  repeat' split
  all_goals simp

@[simp] theorem calShotDone_frame (s : State) :
    (calShotDone s).phase = s.phase ∧ (calShotDone s).inputs = s.inputs ∧ (calShotDone s).cfg = s.cfg ∧
    (calShotDone s).store = s.store ∧ (calShotDone s).port = s.port ∧ (calShotDone s).events = s.events ∧
    (calShotDone s).jobs = s.jobs ∧ (calShotDone s).cans = s.cans ∧ (calShotDone s).stir = s.stir ∧
    (calShotDone s).pump = s.pump ∧ (calShotDone s).carriage = s.carriage ∧ (calShotDone s).lid = s.lid ∧
    (calShotDone s).shake = s.shake ∧ (calShotDone s).line = s.line ∧ (calShotDone s).roster = s.roster ∧
    (calShotDone s).power = s.power ∧ (calShotDone s).air = s.air ∧ (calShotDone s).mon = s.mon ∧
    (calShotDone s).completion = s.completion ∧ (calShotDone s).free = s.free ∧ (calShotDone s).pending = s.pending := by
  unfold calShotDone
  try dsimp only
  repeat' split
  all_goals simp

@[simp] theorem mapEntryAt_frame (i : Nat) (f : LineEntry → LineEntry) (s : State) :
    (mapEntryAt i f s).phase = s.phase ∧ (mapEntryAt i f s).inputs = s.inputs ∧ (mapEntryAt i f s).cfg = s.cfg ∧
    (mapEntryAt i f s).store = s.store ∧ (mapEntryAt i f s).port = s.port ∧ (mapEntryAt i f s).events = s.events ∧
    (mapEntryAt i f s).jobs = s.jobs ∧ (mapEntryAt i f s).cans = s.cans ∧ (mapEntryAt i f s).stir = s.stir ∧
    (mapEntryAt i f s).pump = s.pump ∧ (mapEntryAt i f s).scale = s.scale ∧
    (mapEntryAt i f s).carriage = s.carriage ∧ (mapEntryAt i f s).lid = s.lid ∧ (mapEntryAt i f s).shake = s.shake ∧
    (mapEntryAt i f s).line = s.line ∧ (mapEntryAt i f s).roster = s.roster ∧ (mapEntryAt i f s).power = s.power ∧
    (mapEntryAt i f s).air = s.air ∧ (mapEntryAt i f s).mon = s.mon ∧ (mapEntryAt i f s).completion = s.completion ∧
    (mapEntryAt i f s).free = s.free ∧ (mapEntryAt i f s).pending = s.pending := by
  unfold mapEntryAt
  try dsimp only
  repeat' split
  all_goals simp

@[simp] theorem finishLine_frame (i : Nat) (v : LineVerdict) (s : State) :
    (finishLine i v s).phase = s.phase ∧ (finishLine i v s).inputs = s.inputs ∧ (finishLine i v s).cfg = s.cfg ∧
    (finishLine i v s).store = s.store ∧ (finishLine i v s).port = s.port ∧ (finishLine i v s).events = s.events ∧
    (finishLine i v s).jobs = s.jobs ∧ (finishLine i v s).cans = s.cans ∧ (finishLine i v s).stir = s.stir ∧
    (finishLine i v s).pump = s.pump ∧ (finishLine i v s).scale = s.scale ∧
    (finishLine i v s).carriage = s.carriage ∧ (finishLine i v s).lid = s.lid ∧ (finishLine i v s).shake = s.shake ∧
    (finishLine i v s).line = s.line ∧ (finishLine i v s).roster = s.roster ∧ (finishLine i v s).power = s.power ∧
    (finishLine i v s).air = s.air ∧ (finishLine i v s).mon = s.mon ∧ (finishLine i v s).completion = s.completion ∧
    (finishLine i v s).free = s.free ∧ (finishLine i v s).pending = s.pending := by
  unfold finishLine
  try dsimp only
  repeat' split
  all_goals simp

@[simp] theorem passLine_frame (i : Nat) (r : PassReason) (s : State) :
    (passLine i r s).phase = s.phase ∧ (passLine i r s).inputs = s.inputs ∧ (passLine i r s).cfg = s.cfg ∧
    (passLine i r s).store = s.store ∧ (passLine i r s).port = s.port ∧ (passLine i r s).events = s.events ∧
    (passLine i r s).jobs = s.jobs ∧ (passLine i r s).cans = s.cans ∧ (passLine i r s).stir = s.stir ∧
    (passLine i r s).pump = s.pump ∧ (passLine i r s).scale = s.scale ∧ (passLine i r s).carriage = s.carriage ∧
    (passLine i r s).lid = s.lid ∧ (passLine i r s).shake = s.shake ∧ (passLine i r s).line = s.line ∧
    (passLine i r s).roster = s.roster ∧ (passLine i r s).power = s.power ∧ (passLine i r s).air = s.air ∧
    (passLine i r s).mon = s.mon ∧ (passLine i r s).completion = s.completion ∧ (passLine i r s).free = s.free ∧
    (passLine i r s).pending = s.pending := by
  unfold passLine
  try dsimp only
  repeat' split
  all_goals simp

@[simp] theorem requestFor_frame (l : LineEntry) (s : State) :
    (requestFor l s).phase = s.phase ∧ (requestFor l s).inputs = s.inputs ∧ (requestFor l s).cfg = s.cfg ∧
    (requestFor l s).store = s.store ∧ (requestFor l s).port = s.port ∧ (requestFor l s).events = s.events ∧
    (requestFor l s).jobs = s.jobs ∧ (requestFor l s).cans = s.cans ∧ (requestFor l s).pump = s.pump ∧
    (requestFor l s).scale = s.scale ∧ (requestFor l s).disp = s.disp ∧ (requestFor l s).carriage = s.carriage ∧
    (requestFor l s).lid = s.lid ∧ (requestFor l s).shake = s.shake ∧ (requestFor l s).line = s.line ∧
    (requestFor l s).roster = s.roster ∧ (requestFor l s).power = s.power ∧ (requestFor l s).air = s.air ∧
    (requestFor l s).mon = s.mon ∧ (requestFor l s).completion = s.completion ∧ (requestFor l s).free = s.free ∧
    (requestFor l s).pending = s.pending := by
  unfold requestFor
  try dsimp only
  repeat' split
  all_goals simp

@[simp] theorem judgePassed_frame (s : State) :
    (judgePassed s).phase = s.phase ∧ (judgePassed s).inputs = s.inputs ∧ (judgePassed s).cfg = s.cfg ∧
    (judgePassed s).store = s.store ∧ (judgePassed s).port = s.port ∧ (judgePassed s).events = s.events ∧
    (judgePassed s).jobs = s.jobs ∧ (judgePassed s).cans = s.cans ∧ (judgePassed s).pump = s.pump ∧
    (judgePassed s).scale = s.scale ∧ (judgePassed s).carriage = s.carriage ∧ (judgePassed s).lid = s.lid ∧
    (judgePassed s).shake = s.shake ∧ (judgePassed s).line = s.line ∧ (judgePassed s).roster = s.roster ∧
    (judgePassed s).power = s.power ∧ (judgePassed s).air = s.air ∧ (judgePassed s).mon = s.mon ∧
    (judgePassed s).completion = s.completion ∧ (judgePassed s).free = s.free ∧ (judgePassed s).pending = s.pending := by
  have hf : ∀ (l : List LineEntry) (u : State), (l.foldl (fun t l => requestFor l t) u).phase = u.phase ∧ (l.foldl (fun t l => requestFor l t) u).inputs = u.inputs ∧
      (l.foldl (fun t l => requestFor l t) u).cfg = u.cfg ∧ (l.foldl (fun t l => requestFor l t) u).store = u.store ∧
      (l.foldl (fun t l => requestFor l t) u).port = u.port ∧ (l.foldl (fun t l => requestFor l t) u).events = u.events ∧
      (l.foldl (fun t l => requestFor l t) u).jobs = u.jobs ∧ (l.foldl (fun t l => requestFor l t) u).cans = u.cans ∧
      (l.foldl (fun t l => requestFor l t) u).pump = u.pump ∧ (l.foldl (fun t l => requestFor l t) u).scale = u.scale ∧
      (l.foldl (fun t l => requestFor l t) u).disp = u.disp ∧ (l.foldl (fun t l => requestFor l t) u).carriage = u.carriage ∧
      (l.foldl (fun t l => requestFor l t) u).lid = u.lid ∧ (l.foldl (fun t l => requestFor l t) u).shake = u.shake ∧
      (l.foldl (fun t l => requestFor l t) u).line = u.line ∧ (l.foldl (fun t l => requestFor l t) u).roster = u.roster ∧
      (l.foldl (fun t l => requestFor l t) u).power = u.power ∧ (l.foldl (fun t l => requestFor l t) u).air = u.air ∧
      (l.foldl (fun t l => requestFor l t) u).mon = u.mon ∧ (l.foldl (fun t l => requestFor l t) u).completion = u.completion ∧
      (l.foldl (fun t l => requestFor l t) u).free = u.free ∧ (l.foldl (fun t l => requestFor l t) u).pending = u.pending := by
    intro l
    induction l with
    | nil => simp
    | cons a l ih => intro u; simp [ih]
  unfold judgePassed
  dsimp only
  repeat' split
  all_goals simp [hf]

@[simp] theorem beginShot_frame (i : Nat) (l : LineEntry) (v : Nat) (before : Option Int) (s : State) :
    (beginShot i l v before s).phase = s.phase ∧ (beginShot i l v before s).inputs = s.inputs ∧
    (beginShot i l v before s).cfg = s.cfg ∧ (beginShot i l v before s).store = s.store ∧
    (beginShot i l v before s).port = s.port ∧ (beginShot i l v before s).stir = s.stir ∧
    (beginShot i l v before s).scale = s.scale ∧ (beginShot i l v before s).carriage = s.carriage ∧
    (beginShot i l v before s).lid = s.lid ∧ (beginShot i l v before s).shake = s.shake ∧
    (beginShot i l v before s).line = s.line ∧ (beginShot i l v before s).roster = s.roster ∧
    (beginShot i l v before s).power = s.power ∧ (beginShot i l v before s).air = s.air ∧
    (beginShot i l v before s).mon = s.mon ∧ (beginShot i l v before s).completion = s.completion ∧
    (beginShot i l v before s).free = s.free ∧ (beginShot i l v before s).pending = s.pending ∧
    (beginShot i l v before s).events.enables = s.events.enables := by
  unfold beginShot
  try dsimp only
  repeat' split
  all_goals simp

@[simp] theorem debitStage_frame (i : Nat) (l : LineEntry) (v : Nat) (before : Option Int) (s : State) :
    (debitStage i l v before s).phase = s.phase ∧ (debitStage i l v before s).inputs = s.inputs ∧
    (debitStage i l v before s).cfg = s.cfg ∧ (debitStage i l v before s).store = s.store ∧
    (debitStage i l v before s).port = s.port ∧ (debitStage i l v before s).stir = s.stir ∧
    (debitStage i l v before s).scale = s.scale ∧ (debitStage i l v before s).carriage = s.carriage ∧
    (debitStage i l v before s).lid = s.lid ∧ (debitStage i l v before s).shake = s.shake ∧
    (debitStage i l v before s).line = s.line ∧ (debitStage i l v before s).roster = s.roster ∧
    (debitStage i l v before s).power = s.power ∧ (debitStage i l v before s).air = s.air ∧
    (debitStage i l v before s).mon = s.mon ∧ (debitStage i l v before s).completion = s.completion ∧
    (debitStage i l v before s).free = s.free ∧ (debitStage i l v before s).pending = s.pending ∧
    (debitStage i l v before s).events.enables = s.events.enables := by
  unfold debitStage
  try dsimp only
  repeat' split
  all_goals simp

@[simp] theorem takeLine_frame (i : Nat) (l : LineEntry) (s : State) :
    (takeLine i l s).phase = s.phase ∧ (takeLine i l s).inputs = s.inputs ∧ (takeLine i l s).cfg = s.cfg ∧
    (takeLine i l s).store = s.store ∧ (takeLine i l s).port = s.port ∧ (takeLine i l s).carriage = s.carriage ∧
    (takeLine i l s).lid = s.lid ∧ (takeLine i l s).shake = s.shake ∧ (takeLine i l s).line = s.line ∧
    (takeLine i l s).roster = s.roster ∧ (takeLine i l s).power = s.power ∧ (takeLine i l s).air = s.air ∧
    (takeLine i l s).mon = s.mon ∧ (takeLine i l s).completion = s.completion ∧ (takeLine i l s).free = s.free ∧
    (takeLine i l s).pending = s.pending ∧ (takeLine i l s).events.enables = s.events.enables := by
  unfold takeLine
  try dsimp only
  repeat' split
  all_goals simp

@[simp] theorem selectFrom_frame (x : List Nat) (s : State) :
    (selectFrom x s).phase = s.phase ∧ (selectFrom x s).inputs = s.inputs ∧ (selectFrom x s).cfg = s.cfg ∧
    (selectFrom x s).store = s.store ∧ (selectFrom x s).port = s.port ∧ (selectFrom x s).carriage = s.carriage ∧
    (selectFrom x s).lid = s.lid ∧ (selectFrom x s).shake = s.shake ∧ (selectFrom x s).line = s.line ∧
    (selectFrom x s).roster = s.roster ∧ (selectFrom x s).power = s.power ∧ (selectFrom x s).air = s.air ∧
    (selectFrom x s).mon = s.mon ∧ (selectFrom x s).completion = s.completion ∧ (selectFrom x s).free = s.free ∧
    (selectFrom x s).pending = s.pending ∧ (selectFrom x s).events.enables = s.events.enables := by
  induction x generalizing s with
  | nil => simp [selectFrom]
  | cons i is ih =>
    unfold selectFrom
    dsimp only
    repeat' split
    all_goals simp [ih]

@[simp] theorem finishSelection_frame (s : State) :
    (finishSelection s).phase = s.phase ∧ (finishSelection s).inputs = s.inputs ∧ (finishSelection s).cfg = s.cfg ∧
    (finishSelection s).store = s.store ∧ (finishSelection s).port = s.port ∧
    (finishSelection s).events = s.events ∧ (finishSelection s).jobs = s.jobs ∧ (finishSelection s).cans = s.cans ∧
    (finishSelection s).stir = s.stir ∧ (finishSelection s).pump = s.pump ∧ (finishSelection s).scale = s.scale ∧
    (finishSelection s).carriage = s.carriage ∧ (finishSelection s).lid = s.lid ∧
    (finishSelection s).shake = s.shake ∧ (finishSelection s).line = s.line ∧
    (finishSelection s).roster = s.roster ∧ (finishSelection s).power = s.power ∧ (finishSelection s).air = s.air ∧
    (finishSelection s).mon = s.mon ∧ (finishSelection s).completion = s.completion ∧
    (finishSelection s).free = s.free ∧ (finishSelection s).pending = s.pending := by
  unfold finishSelection
  try dsimp only
  repeat' split
  all_goals simp

@[simp] theorem selectLine_frame (s : State) :
    (selectLine s).phase = s.phase ∧ (selectLine s).inputs = s.inputs ∧ (selectLine s).cfg = s.cfg ∧
    (selectLine s).store = s.store ∧ (selectLine s).port = s.port ∧ (selectLine s).carriage = s.carriage ∧
    (selectLine s).lid = s.lid ∧ (selectLine s).shake = s.shake ∧ (selectLine s).line = s.line ∧
    (selectLine s).roster = s.roster ∧ (selectLine s).power = s.power ∧ (selectLine s).air = s.air ∧
    (selectLine s).mon = s.mon ∧ (selectLine s).completion = s.completion ∧ (selectLine s).free = s.free ∧
    (selectLine s).pending = s.pending ∧ (selectLine s).events.enables = s.events.enables := by
  unfold selectLine
  try dsimp only
  repeat' split
  all_goals simp

@[simp] theorem retakeLine_frame (i : Nat) (l : LineEntry) (s : State) :
    (retakeLine i l s).phase = s.phase ∧ (retakeLine i l s).inputs = s.inputs ∧ (retakeLine i l s).cfg = s.cfg ∧
    (retakeLine i l s).store = s.store ∧ (retakeLine i l s).port = s.port ∧ (retakeLine i l s).carriage = s.carriage ∧
    (retakeLine i l s).lid = s.lid ∧ (retakeLine i l s).shake = s.shake ∧ (retakeLine i l s).line = s.line ∧
    (retakeLine i l s).roster = s.roster ∧ (retakeLine i l s).power = s.power ∧ (retakeLine i l s).air = s.air ∧
    (retakeLine i l s).mon = s.mon ∧ (retakeLine i l s).completion = s.completion ∧ (retakeLine i l s).free = s.free ∧
    (retakeLine i l s).pending = s.pending ∧ (retakeLine i l s).events.enables = s.events.enables := by
  unfold retakeLine
  try dsimp only
  repeat' split
  all_goals simp

@[simp] theorem lookAhead_frame (l : LineEntry) (s : State) :
    (lookAhead l s).phase = s.phase ∧ (lookAhead l s).inputs = s.inputs ∧ (lookAhead l s).cfg = s.cfg ∧
    (lookAhead l s).store = s.store ∧ (lookAhead l s).port = s.port ∧ (lookAhead l s).events = s.events ∧
    (lookAhead l s).jobs = s.jobs ∧ (lookAhead l s).cans = s.cans ∧ (lookAhead l s).pump = s.pump ∧
    (lookAhead l s).scale = s.scale ∧ (lookAhead l s).disp = s.disp ∧ (lookAhead l s).carriage = s.carriage ∧
    (lookAhead l s).lid = s.lid ∧ (lookAhead l s).shake = s.shake ∧ (lookAhead l s).line = s.line ∧
    (lookAhead l s).roster = s.roster ∧ (lookAhead l s).power = s.power ∧ (lookAhead l s).air = s.air ∧
    (lookAhead l s).mon = s.mon ∧ (lookAhead l s).completion = s.completion ∧ (lookAhead l s).free = s.free ∧
    (lookAhead l s).pending = s.pending := by
  unfold lookAhead
  try dsimp only
  repeat' split
  all_goals simp

@[simp] theorem acceptTin_frame (r : Int) (t : TinRecord) (s : State) :
    (acceptTin r t s).phase = s.phase ∧ (acceptTin r t s).inputs = s.inputs ∧ (acceptTin r t s).cfg = s.cfg ∧
    (acceptTin r t s).store = s.store ∧ (acceptTin r t s).port = s.port ∧ (acceptTin r t s).carriage = s.carriage ∧
    (acceptTin r t s).lid = s.lid ∧ (acceptTin r t s).shake = s.shake ∧ (acceptTin r t s).line = s.line ∧
    (acceptTin r t s).roster = s.roster ∧ (acceptTin r t s).power = s.power ∧ (acceptTin r t s).air = s.air ∧
    (acceptTin r t s).mon = s.mon ∧ (acceptTin r t s).completion = s.completion ∧ (acceptTin r t s).free = s.free ∧
    (acceptTin r t s).pending = s.pending ∧ (acceptTin r t s).events.enables = s.events.enables := by
  have hf : ∀ (l : List LineEntry) (u : State), (l.foldl (fun t l => lookAhead l t) u).phase = u.phase ∧ (l.foldl (fun t l => lookAhead l t) u).inputs = u.inputs ∧
      (l.foldl (fun t l => lookAhead l t) u).cfg = u.cfg ∧ (l.foldl (fun t l => lookAhead l t) u).store = u.store ∧
      (l.foldl (fun t l => lookAhead l t) u).port = u.port ∧ (l.foldl (fun t l => lookAhead l t) u).events = u.events ∧
      (l.foldl (fun t l => lookAhead l t) u).jobs = u.jobs ∧ (l.foldl (fun t l => lookAhead l t) u).cans = u.cans ∧
      (l.foldl (fun t l => lookAhead l t) u).pump = u.pump ∧ (l.foldl (fun t l => lookAhead l t) u).scale = u.scale ∧
      (l.foldl (fun t l => lookAhead l t) u).disp = u.disp ∧ (l.foldl (fun t l => lookAhead l t) u).carriage = u.carriage ∧
      (l.foldl (fun t l => lookAhead l t) u).lid = u.lid ∧ (l.foldl (fun t l => lookAhead l t) u).shake = u.shake ∧
      (l.foldl (fun t l => lookAhead l t) u).line = u.line ∧ (l.foldl (fun t l => lookAhead l t) u).roster = u.roster ∧
      (l.foldl (fun t l => lookAhead l t) u).power = u.power ∧ (l.foldl (fun t l => lookAhead l t) u).air = u.air ∧
      (l.foldl (fun t l => lookAhead l t) u).mon = u.mon ∧ (l.foldl (fun t l => lookAhead l t) u).completion = u.completion ∧
      (l.foldl (fun t l => lookAhead l t) u).free = u.free ∧ (l.foldl (fun t l => lookAhead l t) u).pending = u.pending := by
    intro l
    induction l with
    | nil => simp
    | cons a l ih => intro u; simp [ih]
  unfold acceptTin
  dsimp only
  simp [hf]

@[simp] theorem judgeTare_frame (r : Int) (s : State) :
    (judgeTare r s).phase = s.phase ∧ (judgeTare r s).inputs = s.inputs ∧ (judgeTare r s).cfg = s.cfg ∧
    (judgeTare r s).store = s.store ∧ (judgeTare r s).port = s.port ∧ (judgeTare r s).carriage = s.carriage ∧
    (judgeTare r s).lid = s.lid ∧ (judgeTare r s).shake = s.shake ∧ (judgeTare r s).line = s.line ∧
    (judgeTare r s).roster = s.roster ∧ (judgeTare r s).power = s.power ∧ (judgeTare r s).air = s.air ∧
    (judgeTare r s).mon = s.mon ∧ (judgeTare r s).completion = s.completion ∧ (judgeTare r s).free = s.free ∧
    (judgeTare r s).pending = s.pending ∧ (judgeTare r s).events.enables = s.events.enables := by
  unfold judgeTare
  try dsimp only
  repeat' split
  all_goals simp

@[simp] theorem closeRun_frame (i : Nat) (g : Int) (s : State) :
    (closeRun i g s).phase = s.phase ∧ (closeRun i g s).inputs = s.inputs ∧ (closeRun i g s).cfg = s.cfg ∧
    (closeRun i g s).store = s.store ∧ (closeRun i g s).port = s.port ∧ (closeRun i g s).events = s.events ∧
    (closeRun i g s).jobs = s.jobs ∧ (closeRun i g s).cans = s.cans ∧ (closeRun i g s).stir = s.stir ∧
    (closeRun i g s).pump = s.pump ∧ (closeRun i g s).scale = s.scale ∧ (closeRun i g s).carriage = s.carriage ∧
    (closeRun i g s).lid = s.lid ∧ (closeRun i g s).shake = s.shake ∧ (closeRun i g s).line = s.line ∧
    (closeRun i g s).roster = s.roster ∧ (closeRun i g s).power = s.power ∧ (closeRun i g s).air = s.air ∧
    (closeRun i g s).mon = s.mon ∧ (closeRun i g s).completion = s.completion ∧ (closeRun i g s).free = s.free ∧
    (closeRun i g s).pending = s.pending := by
  unfold closeRun
  try dsimp only
  repeat' split
  all_goals simp

@[simp] theorem topUpNow_frame (i : Nat) (l : LineEntry) (p : LinePlan) (g : Int) (s : State) :
    (topUpNow i l p g s).phase = s.phase ∧ (topUpNow i l p g s).inputs = s.inputs ∧
    (topUpNow i l p g s).cfg = s.cfg ∧ (topUpNow i l p g s).store = s.store ∧ (topUpNow i l p g s).port = s.port ∧
    (topUpNow i l p g s).carriage = s.carriage ∧ (topUpNow i l p g s).lid = s.lid ∧
    (topUpNow i l p g s).shake = s.shake ∧ (topUpNow i l p g s).line = s.line ∧
    (topUpNow i l p g s).roster = s.roster ∧ (topUpNow i l p g s).power = s.power ∧
    (topUpNow i l p g s).air = s.air ∧ (topUpNow i l p g s).mon = s.mon ∧
    (topUpNow i l p g s).completion = s.completion ∧ (topUpNow i l p g s).free = s.free ∧
    (topUpNow i l p g s).pending = s.pending ∧ (topUpNow i l p g s).events.enables = s.events.enables := by
  unfold topUpNow
  try dsimp only
  repeat' split
  all_goals simp

@[simp] theorem endWeighed_frame (i : Nat) (l : LineEntry) (v : LineVerdict) (j : Judgement) (s : State) :
    (endWeighed i l v j s).phase = s.phase ∧ (endWeighed i l v j s).inputs = s.inputs ∧
    (endWeighed i l v j s).cfg = s.cfg ∧ (endWeighed i l v j s).store = s.store ∧
    (endWeighed i l v j s).port = s.port ∧ (endWeighed i l v j s).carriage = s.carriage ∧
    (endWeighed i l v j s).lid = s.lid ∧ (endWeighed i l v j s).shake = s.shake ∧
    (endWeighed i l v j s).line = s.line ∧ (endWeighed i l v j s).roster = s.roster ∧
    (endWeighed i l v j s).power = s.power ∧ (endWeighed i l v j s).air = s.air ∧
    (endWeighed i l v j s).mon = s.mon ∧ (endWeighed i l v j s).completion = s.completion ∧
    (endWeighed i l v j s).free = s.free ∧ (endWeighed i l v j s).pending = s.pending ∧
    (endWeighed i l v j s).events.enables = s.events.enables := by
  unfold endWeighed
  try dsimp only
  repeat' split
  all_goals simp

@[simp] theorem judgeReading_frame (i : Nat) (l : LineEntry) (p : LinePlan) (r : Int) (s : State) :
    (judgeReading i l p r s).phase = s.phase ∧ (judgeReading i l p r s).inputs = s.inputs ∧
    (judgeReading i l p r s).cfg = s.cfg ∧ (judgeReading i l p r s).store = s.store ∧
    (judgeReading i l p r s).port = s.port ∧ (judgeReading i l p r s).carriage = s.carriage ∧
    (judgeReading i l p r s).lid = s.lid ∧ (judgeReading i l p r s).shake = s.shake ∧
    (judgeReading i l p r s).line = s.line ∧ (judgeReading i l p r s).roster = s.roster ∧
    (judgeReading i l p r s).power = s.power ∧ (judgeReading i l p r s).air = s.air ∧
    (judgeReading i l p r s).mon = s.mon ∧ (judgeReading i l p r s).completion = s.completion ∧
    (judgeReading i l p r s).free = s.free ∧ (judgeReading i l p r s).pending = s.pending ∧
    (judgeReading i l p r s).events.enables = s.events.enables := by
  unfold judgeReading
  try dsimp only
  repeat' split
  all_goals simp

@[simp] theorem lineAnswer_frame (r : Int) (s : State) :
    (lineAnswer r s).phase = s.phase ∧ (lineAnswer r s).inputs = s.inputs ∧ (lineAnswer r s).cfg = s.cfg ∧
    (lineAnswer r s).store = s.store ∧ (lineAnswer r s).port = s.port ∧ (lineAnswer r s).carriage = s.carriage ∧
    (lineAnswer r s).lid = s.lid ∧ (lineAnswer r s).shake = s.shake ∧ (lineAnswer r s).line = s.line ∧
    (lineAnswer r s).roster = s.roster ∧ (lineAnswer r s).power = s.power ∧ (lineAnswer r s).air = s.air ∧
    (lineAnswer r s).mon = s.mon ∧ (lineAnswer r s).completion = s.completion ∧ (lineAnswer r s).free = s.free ∧
    (lineAnswer r s).pending = s.pending ∧ (lineAnswer r s).events.enables = s.events.enables := by
  unfold lineAnswer
  try dsimp only
  repeat' split
  all_goals simp

@[simp] theorem answerRequest_frame (r : Int) (s : State) :
    (answerRequest r s).phase = s.phase ∧ (answerRequest r s).inputs = s.inputs ∧ (answerRequest r s).cfg = s.cfg ∧
    (answerRequest r s).store = s.store ∧ (answerRequest r s).port = s.port ∧
    (answerRequest r s).carriage = s.carriage ∧ (answerRequest r s).lid = s.lid ∧
    (answerRequest r s).shake = s.shake ∧ (answerRequest r s).line = s.line ∧
    (answerRequest r s).roster = s.roster ∧ (answerRequest r s).power = s.power ∧ (answerRequest r s).air = s.air ∧
    (answerRequest r s).mon = s.mon ∧ (answerRequest r s).completion = s.completion ∧
    (answerRequest r s).free = s.free ∧ (answerRequest r s).pending = s.pending ∧
    (answerRequest r s).events.enables = s.events.enables := by
  unfold answerRequest
  try dsimp only
  repeat' split
  all_goals simp

@[simp] theorem shotDone_frame (s : State) :
    (shotDone s).phase = s.phase ∧ (shotDone s).inputs = s.inputs ∧ (shotDone s).cfg = s.cfg ∧
    (shotDone s).store = s.store ∧ (shotDone s).port = s.port ∧ (shotDone s).carriage = s.carriage ∧
    (shotDone s).lid = s.lid ∧ (shotDone s).shake = s.shake ∧ (shotDone s).line = s.line ∧
    (shotDone s).roster = s.roster ∧ (shotDone s).power = s.power ∧ (shotDone s).air = s.air ∧
    (shotDone s).mon = s.mon ∧ (shotDone s).completion = s.completion ∧ (shotDone s).free = s.free ∧
    (shotDone s).pending = s.pending ∧ (shotDone s).events.enables = s.events.enables := by
  unfold shotDone
  try dsimp only
  repeat' split
  all_goals simp

@[simp] theorem opCompleted_frame (s : State) :
    (opCompleted s).phase = s.phase ∧ (opCompleted s).inputs = s.inputs ∧ (opCompleted s).cfg = s.cfg ∧
    (opCompleted s).store = s.store ∧ (opCompleted s).port = s.port ∧ (opCompleted s).carriage = s.carriage ∧
    (opCompleted s).lid = s.lid ∧ (opCompleted s).shake = s.shake ∧ (opCompleted s).line = s.line ∧
    (opCompleted s).roster = s.roster ∧ (opCompleted s).power = s.power ∧ (opCompleted s).air = s.air ∧
    (opCompleted s).mon = s.mon ∧ (opCompleted s).completion = s.completion ∧ (opCompleted s).free = s.free ∧
    (opCompleted s).pending = s.pending ∧ (opCompleted s).events.enables = s.events.enables := by
  unfold opCompleted
  try dsimp only
  repeat' split
  all_goals simp

@[simp] theorem enterAwaitAir_frame (s : State) :
    (enterAwaitAir s).phase = s.phase ∧ (enterAwaitAir s).inputs = s.inputs ∧ (enterAwaitAir s).cfg = s.cfg ∧
    (enterAwaitAir s).store = s.store ∧ (enterAwaitAir s).port = s.port ∧ (enterAwaitAir s).events = s.events ∧
    (enterAwaitAir s).jobs = s.jobs ∧ (enterAwaitAir s).cans = s.cans ∧ (enterAwaitAir s).stir = s.stir ∧
    (enterAwaitAir s).pump = s.pump ∧ (enterAwaitAir s).scale = s.scale ∧ (enterAwaitAir s).disp = s.disp ∧
    (enterAwaitAir s).carriage = s.carriage ∧ (enterAwaitAir s).roster = s.roster ∧ (enterAwaitAir s).mon = s.mon ∧
    (enterAwaitAir s).completion = s.completion ∧ (enterAwaitAir s).free = s.free ∧
    (enterAwaitAir s).pending = s.pending := by
  unfold enterAwaitAir
  try dsimp only
  repeat' split
  all_goals simp

@[simp] theorem enterAwaitLids_frame (s : State) :
    (enterAwaitLids s).phase = s.phase ∧ (enterAwaitLids s).inputs = s.inputs ∧ (enterAwaitLids s).cfg = s.cfg ∧
    (enterAwaitLids s).store = s.store ∧ (enterAwaitLids s).port = s.port ∧ (enterAwaitLids s).jobs = s.jobs ∧
    (enterAwaitLids s).cans = s.cans ∧ (enterAwaitLids s).stir = s.stir ∧ (enterAwaitLids s).pump = s.pump ∧
    (enterAwaitLids s).scale = s.scale ∧ (enterAwaitLids s).disp = s.disp ∧
    (enterAwaitLids s).carriage = s.carriage ∧ (enterAwaitLids s).shake = s.shake ∧
    (enterAwaitLids s).line = s.line ∧ (enterAwaitLids s).roster = s.roster ∧ (enterAwaitLids s).power = s.power ∧
    (enterAwaitLids s).air = s.air ∧ (enterAwaitLids s).mon = s.mon ∧ (enterAwaitLids s).completion = s.completion ∧
    (enterAwaitLids s).free = s.free ∧ (enterAwaitLids s).pending = s.pending ∧
    (enterAwaitLids s).events.enables = s.events.enables := by
  unfold enterAwaitLids
  try dsimp only
  repeat' split
  all_goals simp

@[simp] theorem lidTest_frame (s : State) :
    (lidTest s).phase = s.phase ∧ (lidTest s).inputs = s.inputs ∧ (lidTest s).cfg = s.cfg ∧
    (lidTest s).store = s.store ∧ (lidTest s).port = s.port ∧ (lidTest s).jobs = s.jobs ∧
    (lidTest s).cans = s.cans ∧ (lidTest s).stir = s.stir ∧ (lidTest s).pump = s.pump ∧
    (lidTest s).scale = s.scale ∧ (lidTest s).disp = s.disp ∧ (lidTest s).carriage = s.carriage ∧
    (lidTest s).roster = s.roster ∧ (lidTest s).mon = s.mon ∧ (lidTest s).completion = s.completion ∧
    (lidTest s).free = s.free ∧ (lidTest s).pending = s.pending ∧ (lidTest s).events.enables = s.events.enables := by
  unfold lidTest
  try dsimp only
  repeat' split
  all_goals simp

@[simp] theorem lidRecheck_frame (s : State) :
    (lidRecheck s).phase = s.phase ∧ (lidRecheck s).inputs = s.inputs ∧ (lidRecheck s).cfg = s.cfg ∧
    (lidRecheck s).store = s.store ∧ (lidRecheck s).port = s.port ∧ (lidRecheck s).jobs = s.jobs ∧
    (lidRecheck s).cans = s.cans ∧ (lidRecheck s).stir = s.stir ∧ (lidRecheck s).pump = s.pump ∧
    (lidRecheck s).scale = s.scale ∧ (lidRecheck s).disp = s.disp ∧ (lidRecheck s).carriage = s.carriage ∧
    (lidRecheck s).roster = s.roster ∧ (lidRecheck s).mon = s.mon ∧ (lidRecheck s).completion = s.completion ∧
    (lidRecheck s).free = s.free ∧ (lidRecheck s).pending = s.pending ∧
    (lidRecheck s).events.enables = s.events.enables := by
  unfold lidRecheck
  try dsimp only
  repeat' split
  all_goals simp

@[simp] theorem startPress_frame (s : State) :
    (startPress s).phase = s.phase ∧ (startPress s).cfg = s.cfg ∧ (startPress s).store = s.store ∧
    (startPress s).port = s.port ∧ (startPress s).events = s.events ∧ (startPress s).jobs = s.jobs ∧
    (startPress s).cans = s.cans ∧ (startPress s).stir = s.stir ∧ (startPress s).pump = s.pump ∧
    (startPress s).disp = s.disp ∧ (startPress s).carriage = s.carriage ∧ (startPress s).shake = s.shake ∧
    (startPress s).line = s.line ∧ (startPress s).roster = s.roster ∧ (startPress s).power = s.power ∧
    (startPress s).air = s.air ∧ (startPress s).mon = s.mon ∧ (startPress s).completion = s.completion ∧
    (startPress s).free = s.free ∧ (startPress s).pending = s.pending := by
  unfold startPress
  try dsimp only
  repeat' split
  all_goals simp

@[simp] theorem recordFailed_frame (k : FaultKind) (s : State) :
    (recordFailed k s).phase = s.phase ∧ (recordFailed k s).inputs = s.inputs ∧ (recordFailed k s).cfg = s.cfg ∧
    (recordFailed k s).store = s.store ∧ (recordFailed k s).port = s.port ∧ (recordFailed k s).events = s.events ∧
    (recordFailed k s).jobs = s.jobs ∧ (recordFailed k s).cans = s.cans ∧ (recordFailed k s).stir = s.stir ∧
    (recordFailed k s).pump = s.pump ∧ (recordFailed k s).scale = s.scale ∧ (recordFailed k s).disp = s.disp ∧
    (recordFailed k s).carriage = s.carriage ∧ (recordFailed k s).shake = s.shake ∧
    (recordFailed k s).line = s.line ∧ (recordFailed k s).roster = s.roster ∧ (recordFailed k s).power = s.power ∧
    (recordFailed k s).air = s.air ∧ (recordFailed k s).mon = s.mon ∧ (recordFailed k s).completion = s.completion ∧
    (recordFailed k s).free = s.free ∧ (recordFailed k s).pending = s.pending := by
  unfold recordFailed
  try dsimp only
  repeat' split
  all_goals simp

@[simp] theorem seatLid_frame (time : Nat) (s : State) :
    (seatLid time s).phase = s.phase ∧ (seatLid time s).inputs = s.inputs ∧ (seatLid time s).cfg = s.cfg ∧
    (seatLid time s).store = s.store ∧ (seatLid time s).port = s.port ∧ (seatLid time s).events = s.events ∧
    (seatLid time s).jobs = s.jobs ∧ (seatLid time s).cans = s.cans ∧ (seatLid time s).stir = s.stir ∧
    (seatLid time s).pump = s.pump ∧ (seatLid time s).scale = s.scale ∧ (seatLid time s).disp = s.disp ∧
    (seatLid time s).carriage = s.carriage ∧ (seatLid time s).shake = s.shake ∧ (seatLid time s).line = s.line ∧
    (seatLid time s).roster = s.roster ∧ (seatLid time s).power = s.power ∧ (seatLid time s).air = s.air ∧
    (seatLid time s).mon = s.mon ∧ (seatLid time s).completion = s.completion ∧ (seatLid time s).free = s.free ∧
    (seatLid time s).pending = s.pending := by
  unfold seatLid
  try dsimp only
  repeat' split
  all_goals simp

@[simp] theorem endDwell_frame (s : State) :
    (endDwell s).phase = s.phase ∧ (endDwell s).inputs = s.inputs ∧ (endDwell s).cfg = s.cfg ∧
    (endDwell s).store = s.store ∧ (endDwell s).port = s.port ∧ (endDwell s).events = s.events ∧
    (endDwell s).jobs = s.jobs ∧ (endDwell s).cans = s.cans ∧ (endDwell s).stir = s.stir ∧
    (endDwell s).pump = s.pump ∧ (endDwell s).scale = s.scale ∧ (endDwell s).disp = s.disp ∧
    (endDwell s).carriage = s.carriage ∧ (endDwell s).shake = s.shake ∧ (endDwell s).line = s.line ∧
    (endDwell s).roster = s.roster ∧ (endDwell s).power = s.power ∧ (endDwell s).air = s.air ∧
    (endDwell s).mon = s.mon ∧ (endDwell s).completion = s.completion ∧ (endDwell s).free = s.free ∧
    (endDwell s).pending = s.pending := by
  unfold endDwell
  try dsimp only
  repeat' split
  all_goals simp

@[simp] theorem endStroke_frame (s : State) :
    (endStroke s).phase = s.phase ∧ (endStroke s).inputs = s.inputs ∧ (endStroke s).cfg = s.cfg ∧
    (endStroke s).store = s.store ∧ (endStroke s).port = s.port ∧ (endStroke s).jobs = s.jobs ∧
    (endStroke s).cans = s.cans ∧ (endStroke s).stir = s.stir ∧ (endStroke s).pump = s.pump ∧
    (endStroke s).scale = s.scale ∧ (endStroke s).disp = s.disp ∧ (endStroke s).carriage = s.carriage ∧
    (endStroke s).shake = s.shake ∧ (endStroke s).roster = s.roster ∧ (endStroke s).mon = s.mon ∧
    (endStroke s).free = s.free ∧ (endStroke s).pending = s.pending ∧
    (endStroke s).events.enables = s.events.enables := by
  unfold endStroke
  try dsimp only
  repeat' split
  all_goals simp

@[simp] theorem lidArrive_frame (t : TinRecord) (s : State) :
    (lidArrive t s).phase = s.phase ∧ (lidArrive t s).inputs = s.inputs ∧ (lidArrive t s).cfg = s.cfg ∧
    (lidArrive t s).store = s.store ∧ (lidArrive t s).port = s.port ∧ (lidArrive t s).jobs = s.jobs ∧
    (lidArrive t s).cans = s.cans ∧ (lidArrive t s).stir = s.stir ∧ (lidArrive t s).pump = s.pump ∧
    (lidArrive t s).scale = s.scale ∧ (lidArrive t s).disp = s.disp ∧ (lidArrive t s).carriage = s.carriage ∧
    (lidArrive t s).roster = s.roster ∧ (lidArrive t s).mon = s.mon ∧ (lidArrive t s).completion = s.completion ∧
    (lidArrive t s).free = s.free ∧ (lidArrive t s).pending = s.pending ∧
    (lidArrive t s).events.enables = s.events.enables := by
  unfold lidArrive
  try dsimp only
  repeat' split
  all_goals simp

@[simp] theorem clampConfirmed_frame (s : State) :
    (clampConfirmed s).phase = s.phase ∧ (clampConfirmed s).inputs = s.inputs ∧ (clampConfirmed s).cfg = s.cfg ∧
    (clampConfirmed s).store = s.store ∧ (clampConfirmed s).port = s.port ∧ (clampConfirmed s).events = s.events ∧
    (clampConfirmed s).jobs = s.jobs ∧ (clampConfirmed s).cans = s.cans ∧ (clampConfirmed s).stir = s.stir ∧
    (clampConfirmed s).pump = s.pump ∧ (clampConfirmed s).scale = s.scale ∧ (clampConfirmed s).disp = s.disp ∧
    (clampConfirmed s).carriage = s.carriage ∧ (clampConfirmed s).roster = s.roster ∧
    (clampConfirmed s).mon = s.mon ∧ (clampConfirmed s).completion = s.completion ∧
    (clampConfirmed s).free = s.free ∧ (clampConfirmed s).pending = s.pending := by
  unfold clampConfirmed
  try dsimp only
  repeat' split
  all_goals simp

@[simp] theorem enterClamp_frame (s : State) :
    (enterClamp s).phase = s.phase ∧ (enterClamp s).inputs = s.inputs ∧ (enterClamp s).cfg = s.cfg ∧
    (enterClamp s).store = s.store ∧ (enterClamp s).port = s.port ∧ (enterClamp s).events = s.events ∧
    (enterClamp s).jobs = s.jobs ∧ (enterClamp s).cans = s.cans ∧ (enterClamp s).stir = s.stir ∧
    (enterClamp s).pump = s.pump ∧ (enterClamp s).scale = s.scale ∧ (enterClamp s).disp = s.disp ∧
    (enterClamp s).carriage = s.carriage ∧ (enterClamp s).roster = s.roster ∧ (enterClamp s).mon = s.mon ∧
    (enterClamp s).completion = s.completion ∧ (enterClamp s).free = s.free ∧ (enterClamp s).pending = s.pending := by
  unfold enterClamp
  try dsimp only
  repeat' split
  all_goals simp

@[simp] theorem shakeArrive_frame (t : TinRecord) (s : State) :
    (shakeArrive t s).phase = s.phase ∧ (shakeArrive t s).inputs = s.inputs ∧ (shakeArrive t s).cfg = s.cfg ∧
    (shakeArrive t s).store = s.store ∧ (shakeArrive t s).port = s.port ∧ (shakeArrive t s).events = s.events ∧
    (shakeArrive t s).jobs = s.jobs ∧ (shakeArrive t s).cans = s.cans ∧ (shakeArrive t s).stir = s.stir ∧
    (shakeArrive t s).pump = s.pump ∧ (shakeArrive t s).scale = s.scale ∧ (shakeArrive t s).disp = s.disp ∧
    (shakeArrive t s).carriage = s.carriage ∧ (shakeArrive t s).roster = s.roster ∧ (shakeArrive t s).mon = s.mon ∧
    (shakeArrive t s).completion = s.completion ∧ (shakeArrive t s).free = s.free ∧
    (shakeArrive t s).pending = s.pending := by
  unfold shakeArrive
  try dsimp only
  repeat' split
  all_goals simp

@[simp] theorem startSpin_frame (s : State) :
    (startSpin s).phase = s.phase ∧ (startSpin s).inputs = s.inputs ∧ (startSpin s).cfg = s.cfg ∧
    (startSpin s).store = s.store ∧ (startSpin s).port = s.port ∧ (startSpin s).events = s.events ∧
    (startSpin s).jobs = s.jobs ∧ (startSpin s).cans = s.cans ∧ (startSpin s).stir = s.stir ∧
    (startSpin s).pump = s.pump ∧ (startSpin s).disp = s.disp ∧ (startSpin s).carriage = s.carriage ∧
    (startSpin s).lid = s.lid ∧ (startSpin s).line = s.line ∧ (startSpin s).roster = s.roster ∧
    (startSpin s).power = s.power ∧ (startSpin s).air = s.air ∧ (startSpin s).mon = s.mon ∧
    (startSpin s).completion = s.completion ∧ (startSpin s).free = s.free ∧ (startSpin s).pending = s.pending := by
  unfold startSpin
  try dsimp only
  repeat' split
  all_goals simp

@[simp] theorem reachSpeed_frame (s : State) :
    (reachSpeed s).phase = s.phase ∧ (reachSpeed s).inputs = s.inputs ∧ (reachSpeed s).cfg = s.cfg ∧
    (reachSpeed s).store = s.store ∧ (reachSpeed s).port = s.port ∧ (reachSpeed s).events = s.events ∧
    (reachSpeed s).jobs = s.jobs ∧ (reachSpeed s).cans = s.cans ∧ (reachSpeed s).stir = s.stir ∧
    (reachSpeed s).pump = s.pump ∧ (reachSpeed s).disp = s.disp ∧ (reachSpeed s).carriage = s.carriage ∧
    (reachSpeed s).lid = s.lid ∧ (reachSpeed s).roster = s.roster ∧ (reachSpeed s).mon = s.mon ∧
    (reachSpeed s).completion = s.completion ∧ (reachSpeed s).free = s.free ∧ (reachSpeed s).pending = s.pending := by
  unfold reachSpeed
  try dsimp only
  repeat' split
  all_goals simp

@[simp] theorem brake_frame (s : State) :
    (brake s).phase = s.phase ∧ (brake s).inputs = s.inputs ∧ (brake s).cfg = s.cfg ∧ (brake s).store = s.store ∧
    (brake s).port = s.port ∧ (brake s).events = s.events ∧ (brake s).jobs = s.jobs ∧ (brake s).cans = s.cans ∧
    (brake s).stir = s.stir ∧ (brake s).pump = s.pump ∧ (brake s).disp = s.disp ∧ (brake s).carriage = s.carriage ∧
    (brake s).lid = s.lid ∧ (brake s).line = s.line ∧ (brake s).roster = s.roster ∧ (brake s).power = s.power ∧
    (brake s).air = s.air ∧ (brake s).mon = s.mon ∧ (brake s).completion = s.completion ∧ (brake s).free = s.free ∧
    (brake s).pending = s.pending := by
  unfold brake
  try dsimp only
  repeat' split
  all_goals simp

@[simp] theorem comeToRest_frame (s : State) :
    (comeToRest s).phase = s.phase ∧ (comeToRest s).inputs = s.inputs ∧ (comeToRest s).cfg = s.cfg ∧
    (comeToRest s).store = s.store ∧ (comeToRest s).port = s.port ∧ (comeToRest s).events = s.events ∧
    (comeToRest s).jobs = s.jobs ∧ (comeToRest s).cans = s.cans ∧ (comeToRest s).stir = s.stir ∧
    (comeToRest s).pump = s.pump ∧ (comeToRest s).disp = s.disp ∧ (comeToRest s).carriage = s.carriage ∧
    (comeToRest s).lid = s.lid ∧ (comeToRest s).roster = s.roster ∧ (comeToRest s).mon = s.mon ∧
    (comeToRest s).completion = s.completion ∧ (comeToRest s).free = s.free ∧ (comeToRest s).pending = s.pending := by
  unfold comeToRest
  try dsimp only
  repeat' split
  all_goals simp

@[simp] theorem endShake_frame (s : State) :
    (endShake s).phase = s.phase ∧ (endShake s).inputs = s.inputs ∧ (endShake s).cfg = s.cfg ∧
    (endShake s).store = s.store ∧ (endShake s).port = s.port ∧ (endShake s).jobs = s.jobs ∧
    (endShake s).cans = s.cans ∧ (endShake s).stir = s.stir ∧ (endShake s).pump = s.pump ∧
    (endShake s).disp = s.disp ∧ (endShake s).carriage = s.carriage ∧ (endShake s).lid = s.lid ∧
    (endShake s).roster = s.roster ∧ (endShake s).mon = s.mon ∧ (endShake s).free = s.free ∧
    (endShake s).pending = s.pending ∧ (endShake s).events.enables = s.events.enables := by
  unfold endShake
  try dsimp only
  repeat' split
  all_goals simp

@[simp] theorem restartShake_frame (s : State) :
    (restartShake s).phase = s.phase ∧ (restartShake s).inputs = s.inputs ∧ (restartShake s).cfg = s.cfg ∧
    (restartShake s).store = s.store ∧ (restartShake s).port = s.port ∧ (restartShake s).events = s.events ∧
    (restartShake s).jobs = s.jobs ∧ (restartShake s).cans = s.cans ∧ (restartShake s).stir = s.stir ∧
    (restartShake s).pump = s.pump ∧ (restartShake s).scale = s.scale ∧ (restartShake s).disp = s.disp ∧
    (restartShake s).carriage = s.carriage ∧ (restartShake s).roster = s.roster ∧ (restartShake s).mon = s.mon ∧
    (restartShake s).completion = s.completion ∧ (restartShake s).free = s.free ∧
    (restartShake s).pending = s.pending := by
  unfold restartShake
  try dsimp only
  repeat' split
  all_goals simp

@[simp] theorem shakeOrphanGone_frame (s : State) :
    (shakeOrphanGone s).phase = s.phase ∧ (shakeOrphanGone s).inputs = s.inputs ∧ (shakeOrphanGone s).cfg = s.cfg ∧
    (shakeOrphanGone s).store = s.store ∧ (shakeOrphanGone s).port = s.port ∧
    (shakeOrphanGone s).events = s.events ∧ (shakeOrphanGone s).jobs = s.jobs ∧ (shakeOrphanGone s).cans = s.cans ∧
    (shakeOrphanGone s).stir = s.stir ∧ (shakeOrphanGone s).pump = s.pump ∧ (shakeOrphanGone s).scale = s.scale ∧
    (shakeOrphanGone s).disp = s.disp ∧ (shakeOrphanGone s).carriage = s.carriage ∧
    (shakeOrphanGone s).lid = s.lid ∧ (shakeOrphanGone s).line = s.line ∧ (shakeOrphanGone s).roster = s.roster ∧
    (shakeOrphanGone s).power = s.power ∧ (shakeOrphanGone s).air = s.air ∧ (shakeOrphanGone s).mon = s.mon ∧
    (shakeOrphanGone s).completion = s.completion ∧ (shakeOrphanGone s).free = s.free ∧
    (shakeOrphanGone s).pending = s.pending := by
  unfold shakeOrphanGone
  try dsimp only
  repeat' split
  all_goals simp

@[simp] theorem setOff_frame (m : Move) (t : Option TinRecord) (charge : Option BayId) (s : State) :
    (setOff m t charge s).phase = s.phase ∧ (setOff m t charge s).inputs = s.inputs ∧
    (setOff m t charge s).cfg = s.cfg ∧ (setOff m t charge s).store = s.store ∧
    (setOff m t charge s).port = s.port ∧ (setOff m t charge s).events = s.events ∧
    (setOff m t charge s).jobs = s.jobs ∧ (setOff m t charge s).cans = s.cans ∧
    (setOff m t charge s).stir = s.stir ∧ (setOff m t charge s).pump = s.pump ∧
    (setOff m t charge s).disp = s.disp ∧ (setOff m t charge s).lid = s.lid ∧
    (setOff m t charge s).shake = s.shake ∧ (setOff m t charge s).line = s.line ∧
    (setOff m t charge s).roster = s.roster ∧ (setOff m t charge s).power = s.power ∧
    (setOff m t charge s).air = s.air ∧ (setOff m t charge s).mon = s.mon ∧
    (setOff m t charge s).completion = s.completion ∧ (setOff m t charge s).free = s.free ∧
    (setOff m t charge s).pending = s.pending := by
  unfold setOff
  try dsimp only
  repeat' split
  all_goals simp

@[simp] theorem commitTaken_frame (t : TinRecord) (s : State) :
    (commitTaken t s).phase = s.phase ∧ (commitTaken t s).inputs = s.inputs ∧ (commitTaken t s).cfg = s.cfg ∧
    (commitTaken t s).store = s.store ∧ (commitTaken t s).port = s.port ∧ (commitTaken t s).events = s.events ∧
    (commitTaken t s).cans = s.cans ∧ (commitTaken t s).stir = s.stir ∧ (commitTaken t s).pump = s.pump ∧
    (commitTaken t s).scale = s.scale ∧ (commitTaken t s).disp = s.disp ∧ (commitTaken t s).carriage = s.carriage ∧
    (commitTaken t s).lid = s.lid ∧ (commitTaken t s).shake = s.shake ∧ (commitTaken t s).line = s.line ∧
    (commitTaken t s).roster = s.roster ∧ (commitTaken t s).power = s.power ∧ (commitTaken t s).air = s.air ∧
    (commitTaken t s).mon = s.mon ∧ (commitTaken t s).completion = s.completion ∧ (commitTaken t s).free = s.free ∧
    (commitTaken t s).pending = s.pending := by
  unfold commitTaken
  try dsimp only
  repeat' split
  all_goals simp

@[simp] theorem startMove_frame (s : State) :
    (startMove s).phase = s.phase ∧ (startMove s).inputs = s.inputs ∧ (startMove s).cfg = s.cfg ∧
    (startMove s).store = s.store ∧ (startMove s).port = s.port ∧ (startMove s).events = s.events ∧
    (startMove s).cans = s.cans ∧ (startMove s).stir = s.stir ∧ (startMove s).pump = s.pump ∧
    (startMove s).line = s.line ∧ (startMove s).roster = s.roster ∧ (startMove s).power = s.power ∧
    (startMove s).air = s.air ∧ (startMove s).mon = s.mon ∧ (startMove s).completion = s.completion ∧
    (startMove s).free = s.free ∧ (startMove s).pending = s.pending := by
  unfold startMove
  try dsimp only
  repeat' split
  all_goals simp

@[simp] theorem startHomeRun_frame (s : State) :
    (startHomeRun s).phase = s.phase ∧ (startHomeRun s).inputs = s.inputs ∧ (startHomeRun s).cfg = s.cfg ∧
    (startHomeRun s).store = s.store ∧ (startHomeRun s).port = s.port ∧ (startHomeRun s).events = s.events ∧
    (startHomeRun s).jobs = s.jobs ∧ (startHomeRun s).cans = s.cans ∧ (startHomeRun s).stir = s.stir ∧
    (startHomeRun s).pump = s.pump ∧ (startHomeRun s).disp = s.disp ∧ (startHomeRun s).lid = s.lid ∧
    (startHomeRun s).shake = s.shake ∧ (startHomeRun s).line = s.line ∧ (startHomeRun s).roster = s.roster ∧
    (startHomeRun s).power = s.power ∧ (startHomeRun s).air = s.air ∧ (startHomeRun s).mon = s.mon ∧
    (startHomeRun s).completion = s.completion ∧ (startHomeRun s).free = s.free ∧
    (startHomeRun s).pending = s.pending := by
  unfold startHomeRun
  try dsimp only
  repeat' split
  all_goals simp

@[simp] theorem startCarriage_frame (s : State) :
    (startCarriage s).phase = s.phase ∧ (startCarriage s).inputs = s.inputs ∧ (startCarriage s).cfg = s.cfg ∧
    (startCarriage s).store = s.store ∧ (startCarriage s).port = s.port ∧ (startCarriage s).events = s.events ∧
    (startCarriage s).cans = s.cans ∧ (startCarriage s).stir = s.stir ∧ (startCarriage s).pump = s.pump ∧
    (startCarriage s).line = s.line ∧ (startCarriage s).roster = s.roster ∧ (startCarriage s).power = s.power ∧
    (startCarriage s).air = s.air ∧ (startCarriage s).mon = s.mon ∧ (startCarriage s).completion = s.completion ∧
    (startCarriage s).free = s.free ∧ (startCarriage s).pending = s.pending := by
  unfold startCarriage
  try dsimp only
  repeat' split
  all_goals simp

@[simp] theorem takeDeferred_frame (o : StartOwner) (s : State) :
    (takeDeferred o s).phase = s.phase ∧ (takeDeferred o s).cfg = s.cfg ∧ (takeDeferred o s).store = s.store ∧
    (takeDeferred o s).port = s.port ∧ (takeDeferred o s).events = s.events ∧ (takeDeferred o s).cans = s.cans ∧
    (takeDeferred o s).stir = s.stir ∧ (takeDeferred o s).pump = s.pump ∧ (takeDeferred o s).line = s.line ∧
    (takeDeferred o s).roster = s.roster ∧ (takeDeferred o s).power = s.power ∧ (takeDeferred o s).air = s.air ∧
    (takeDeferred o s).mon = s.mon ∧ (takeDeferred o s).completion = s.completion ∧ (takeDeferred o s).free = s.free ∧
    (takeDeferred o s).pending = s.pending := by
  unfold takeDeferred
  try dsimp only
  repeat' split
  all_goals simp

@[simp] theorem takeAllDeferred_frame (s : State) :
    (takeAllDeferred s).phase = s.phase ∧ (takeAllDeferred s).cfg = s.cfg ∧ (takeAllDeferred s).store = s.store ∧
    (takeAllDeferred s).port = s.port ∧ (takeAllDeferred s).events = s.events ∧ (takeAllDeferred s).cans = s.cans ∧
    (takeAllDeferred s).stir = s.stir ∧ (takeAllDeferred s).pump = s.pump ∧ (takeAllDeferred s).line = s.line ∧
    (takeAllDeferred s).roster = s.roster ∧ (takeAllDeferred s).power = s.power ∧ (takeAllDeferred s).air = s.air ∧
    (takeAllDeferred s).mon = s.mon ∧ (takeAllDeferred s).completion = s.completion ∧
    (takeAllDeferred s).free = s.free ∧ (takeAllDeferred s).pending = s.pending := by
  unfold takeAllDeferred
  try dsimp only
  repeat' split
  all_goals simp

@[simp] theorem reportCanister_frame (c : Slot) (s : State) :
    (reportCanister c s).phase = s.phase ∧ (reportCanister c s).cfg = s.cfg ∧ (reportCanister c s).store = s.store ∧
    (reportCanister c s).port = s.port ∧ (reportCanister c s).line = s.line ∧ (reportCanister c s).roster = s.roster ∧
    (reportCanister c s).power = s.power ∧ (reportCanister c s).air = s.air ∧ (reportCanister c s).mon = s.mon ∧
    (reportCanister c s).completion = s.completion ∧ (reportCanister c s).free = s.free ∧
    (reportCanister c s).pending = s.pending ∧ (reportCanister c s).events.enables = s.events.enables := by
  unfold reportCanister
  try dsimp only
  repeat' split
  all_goals simp

@[simp] theorem canisterFault_frame (c : Slot) (why : CanFault) (s : State) :
    (canisterFault c why s).phase = s.phase ∧ (canisterFault c why s).cfg = s.cfg ∧
    (canisterFault c why s).store = s.store ∧ (canisterFault c why s).port = s.port ∧
    (canisterFault c why s).line = s.line ∧ (canisterFault c why s).roster = s.roster ∧
    (canisterFault c why s).power = s.power ∧ (canisterFault c why s).air = s.air ∧
    (canisterFault c why s).mon = s.mon ∧ (canisterFault c why s).completion = s.completion ∧
    (canisterFault c why s).free = s.free ∧ (canisterFault c why s).pending = s.pending ∧
    (canisterFault c why s).events.enables = s.events.enables := by
  unfold canisterFault
  try dsimp only
  repeat' split
  all_goals simp

@[simp] theorem stirCompleted_frame (c : Slot) (s : State) :
    (stirCompleted c s).phase = s.phase ∧ (stirCompleted c s).cfg = s.cfg ∧ (stirCompleted c s).store = s.store ∧
    (stirCompleted c s).port = s.port ∧ (stirCompleted c s).line = s.line ∧ (stirCompleted c s).roster = s.roster ∧
    (stirCompleted c s).power = s.power ∧ (stirCompleted c s).air = s.air ∧ (stirCompleted c s).mon = s.mon ∧
    (stirCompleted c s).completion = s.completion ∧ (stirCompleted c s).free = s.free ∧
    (stirCompleted c s).pending = s.pending ∧ (stirCompleted c s).events.enables = s.events.enables := by
  unfold stirCompleted
  try dsimp only
  repeat' split
  all_goals simp

@[simp] theorem keepDeferrals_frame (s : State) :
    (keepDeferrals s).phase = s.phase ∧ (keepDeferrals s).inputs = s.inputs ∧ (keepDeferrals s).cfg = s.cfg ∧
    (keepDeferrals s).store = s.store ∧ (keepDeferrals s).port = s.port ∧ (keepDeferrals s).events = s.events ∧
    (keepDeferrals s).jobs = s.jobs ∧ (keepDeferrals s).cans = s.cans ∧ (keepDeferrals s).stir = s.stir ∧
    (keepDeferrals s).pump = s.pump ∧ (keepDeferrals s).scale = s.scale ∧ (keepDeferrals s).disp = s.disp ∧
    (keepDeferrals s).line = s.line ∧ (keepDeferrals s).roster = s.roster ∧ (keepDeferrals s).power = s.power ∧
    (keepDeferrals s).air = s.air ∧ (keepDeferrals s).mon = s.mon ∧ (keepDeferrals s).completion = s.completion ∧
    (keepDeferrals s).free = s.free ∧ (keepDeferrals s).pending = s.pending := by
  unfold keepDeferrals
  try dsimp only
  repeat' split
  all_goals simp

@[simp] theorem dispPoint_frame (p : DispState) (s : State) :
    (dispPoint p s).phase = s.phase ∧ (dispPoint p s).inputs = s.inputs ∧ (dispPoint p s).cfg = s.cfg ∧
    (dispPoint p s).store = s.store ∧ (dispPoint p s).port = s.port ∧ (dispPoint p s).events = s.events ∧
    (dispPoint p s).jobs = s.jobs ∧ (dispPoint p s).cans = s.cans ∧ (dispPoint p s).stir = s.stir ∧
    (dispPoint p s).pump = s.pump ∧ (dispPoint p s).scale = s.scale ∧ (dispPoint p s).carriage = s.carriage ∧
    (dispPoint p s).lid = s.lid ∧ (dispPoint p s).shake = s.shake ∧ (dispPoint p s).line = s.line ∧
    (dispPoint p s).roster = s.roster ∧ (dispPoint p s).power = s.power ∧ (dispPoint p s).air = s.air ∧
    (dispPoint p s).mon = s.mon ∧ (dispPoint p s).completion = s.completion ∧ (dispPoint p s).free = s.free ∧
    (dispPoint p s).pending = s.pending := by
  unfold dispPoint
  try dsimp only
  repeat' split
  all_goals simp

@[simp] theorem lidPoint_frame (p : LidState) (s : State) :
    (lidPoint p s).phase = s.phase ∧ (lidPoint p s).inputs = s.inputs ∧ (lidPoint p s).cfg = s.cfg ∧
    (lidPoint p s).store = s.store ∧ (lidPoint p s).port = s.port ∧ (lidPoint p s).events = s.events ∧
    (lidPoint p s).jobs = s.jobs ∧ (lidPoint p s).cans = s.cans ∧ (lidPoint p s).stir = s.stir ∧
    (lidPoint p s).pump = s.pump ∧ (lidPoint p s).scale = s.scale ∧ (lidPoint p s).disp = s.disp ∧
    (lidPoint p s).carriage = s.carriage ∧ (lidPoint p s).shake = s.shake ∧ (lidPoint p s).line = s.line ∧
    (lidPoint p s).roster = s.roster ∧ (lidPoint p s).power = s.power ∧ (lidPoint p s).air = s.air ∧
    (lidPoint p s).mon = s.mon ∧ (lidPoint p s).completion = s.completion ∧ (lidPoint p s).free = s.free ∧
    (lidPoint p s).pending = s.pending := by
  unfold lidPoint
  try dsimp only
  repeat' split
  all_goals simp

@[simp] theorem shakePoint_frame (p : ShakeState) (s : State) :
    (shakePoint p s).phase = s.phase ∧ (shakePoint p s).inputs = s.inputs ∧ (shakePoint p s).cfg = s.cfg ∧
    (shakePoint p s).store = s.store ∧ (shakePoint p s).port = s.port ∧ (shakePoint p s).events = s.events ∧
    (shakePoint p s).jobs = s.jobs ∧ (shakePoint p s).cans = s.cans ∧ (shakePoint p s).stir = s.stir ∧
    (shakePoint p s).pump = s.pump ∧ (shakePoint p s).scale = s.scale ∧ (shakePoint p s).disp = s.disp ∧
    (shakePoint p s).carriage = s.carriage ∧ (shakePoint p s).lid = s.lid ∧ (shakePoint p s).line = s.line ∧
    (shakePoint p s).roster = s.roster ∧ (shakePoint p s).power = s.power ∧ (shakePoint p s).air = s.air ∧
    (shakePoint p s).mon = s.mon ∧ (shakePoint p s).completion = s.completion ∧ (shakePoint p s).free = s.free ∧
    (shakePoint p s).pending = s.pending := by
  unfold shakePoint
  try dsimp only
  repeat' split
  all_goals simp

@[simp] theorem standStill_frame (st : CarriageState) (s : State) :
    (standStill st s).phase = s.phase ∧ (standStill st s).inputs = s.inputs ∧ (standStill st s).cfg = s.cfg ∧
    (standStill st s).store = s.store ∧ (standStill st s).port = s.port ∧ (standStill st s).events = s.events ∧
    (standStill st s).jobs = s.jobs ∧ (standStill st s).cans = s.cans ∧ (standStill st s).stir = s.stir ∧
    (standStill st s).pump = s.pump ∧ (standStill st s).scale = s.scale ∧ (standStill st s).disp = s.disp ∧
    (standStill st s).lid = s.lid ∧ (standStill st s).shake = s.shake ∧ (standStill st s).line = s.line ∧
    (standStill st s).roster = s.roster ∧ (standStill st s).power = s.power ∧ (standStill st s).air = s.air ∧
    (standStill st s).mon = s.mon ∧ (standStill st s).completion = s.completion ∧ (standStill st s).free = s.free ∧
    (standStill st s).pending = s.pending := by
  unfold standStill
  try dsimp only
  repeat' split
  all_goals simp

@[simp] theorem handOver_frame (m : Move) (t : TinRecord) (s : State) :
    (handOver m t s).phase = s.phase ∧ (handOver m t s).inputs = s.inputs ∧ (handOver m t s).cfg = s.cfg ∧
    (handOver m t s).store = s.store ∧ (handOver m t s).port = s.port ∧ (handOver m t s).jobs = s.jobs ∧
    (handOver m t s).cans = s.cans ∧ (handOver m t s).stir = s.stir ∧ (handOver m t s).pump = s.pump ∧
    (handOver m t s).scale = s.scale ∧ (handOver m t s).roster = s.roster ∧ (handOver m t s).mon = s.mon ∧
    (handOver m t s).completion = s.completion ∧ (handOver m t s).free = s.free ∧
    (handOver m t s).pending = s.pending ∧ (handOver m t s).events.enables = s.events.enables := by
  unfold handOver
  try dsimp only
  repeat' split
  all_goals simp

@[simp] theorem arrive_frame (m : Move) (s : State) :
    (arrive m s).phase = s.phase ∧ (arrive m s).inputs = s.inputs ∧ (arrive m s).cfg = s.cfg ∧
    (arrive m s).store = s.store ∧ (arrive m s).port = s.port ∧ (arrive m s).jobs = s.jobs ∧
    (arrive m s).cans = s.cans ∧ (arrive m s).stir = s.stir ∧ (arrive m s).pump = s.pump ∧
    (arrive m s).roster = s.roster ∧ (arrive m s).mon = s.mon ∧ (arrive m s).completion = s.completion ∧
    (arrive m s).free = s.free ∧ (arrive m s).pending = s.pending ∧ (arrive m s).events.enables = s.events.enables := by
  unfold arrive
  try dsimp only
  repeat' split
  all_goals simp

@[simp] theorem handBack_frame (m : Move) (t : TinRecord) (s : State) :
    (handBack m t s).phase = s.phase ∧ (handBack m t s).inputs = s.inputs ∧ (handBack m t s).cfg = s.cfg ∧
    (handBack m t s).store = s.store ∧ (handBack m t s).port = s.port ∧ (handBack m t s).events = s.events ∧
    (handBack m t s).jobs = s.jobs ∧ (handBack m t s).cans = s.cans ∧ (handBack m t s).stir = s.stir ∧
    (handBack m t s).pump = s.pump ∧ (handBack m t s).scale = s.scale ∧ (handBack m t s).line = s.line ∧
    (handBack m t s).roster = s.roster ∧ (handBack m t s).power = s.power ∧ (handBack m t s).air = s.air ∧
    (handBack m t s).mon = s.mon ∧ (handBack m t s).completion = s.completion ∧ (handBack m t s).free = s.free ∧
    (handBack m t s).pending = s.pending := by
  unfold handBack
  try dsimp only
  repeat' split
  all_goals simp

@[simp] theorem placeTin_frame (s : State) :
    (placeTin s).phase = s.phase ∧ (placeTin s).inputs = s.inputs ∧ (placeTin s).cfg = s.cfg ∧
    (placeTin s).store = s.store ∧ (placeTin s).port = s.port ∧ (placeTin s).jobs = s.jobs ∧
    (placeTin s).cans = s.cans ∧ (placeTin s).stir = s.stir ∧ (placeTin s).pump = s.pump ∧
    (placeTin s).scale = s.scale ∧ (placeTin s).roster = s.roster ∧ (placeTin s).mon = s.mon ∧
    (placeTin s).completion = s.completion ∧ (placeTin s).free = s.free ∧ (placeTin s).pending = s.pending ∧
    (placeTin s).events.enables = s.events.enables := by
  unfold placeTin
  try dsimp only
  repeat' split
  all_goals simp

@[simp] theorem resolveCarriage_frame (s : State) :
    (resolveCarriage s).phase = s.phase ∧ (resolveCarriage s).inputs = s.inputs ∧ (resolveCarriage s).cfg = s.cfg ∧
    (resolveCarriage s).store = s.store ∧ (resolveCarriage s).port = s.port ∧ (resolveCarriage s).jobs = s.jobs ∧
    (resolveCarriage s).cans = s.cans ∧ (resolveCarriage s).stir = s.stir ∧ (resolveCarriage s).pump = s.pump ∧
    (resolveCarriage s).scale = s.scale ∧ (resolveCarriage s).roster = s.roster ∧ (resolveCarriage s).mon = s.mon ∧
    (resolveCarriage s).completion = s.completion ∧ (resolveCarriage s).free = s.free ∧
    (resolveCarriage s).pending = s.pending ∧ (resolveCarriage s).events.enables = s.events.enables := by
  unfold resolveCarriage
  try dsimp only
  repeat' split
  all_goals simp

@[simp] theorem arriveHome_frame (s : State) :
    (arriveHome s).phase = s.phase ∧ (arriveHome s).inputs = s.inputs ∧ (arriveHome s).cfg = s.cfg ∧
    (arriveHome s).store = s.store ∧ (arriveHome s).port = s.port ∧ (arriveHome s).events = s.events ∧
    (arriveHome s).jobs = s.jobs ∧ (arriveHome s).cans = s.cans ∧ (arriveHome s).stir = s.stir ∧
    (arriveHome s).pump = s.pump ∧ (arriveHome s).disp = s.disp ∧ (arriveHome s).lid = s.lid ∧
    (arriveHome s).shake = s.shake ∧ (arriveHome s).line = s.line ∧ (arriveHome s).roster = s.roster ∧
    (arriveHome s).power = s.power ∧ (arriveHome s).air = s.air ∧ (arriveHome s).mon = s.mon ∧
    (arriveHome s).completion = s.completion ∧ (arriveHome s).free = s.free ∧ (arriveHome s).pending = s.pending := by
  unfold arriveHome
  try dsimp only
  repeat' split
  all_goals simp

end Sys2Proof.Laws
end

