-- ==== Sys2Proof/Laws/FrameStation.lean ====
section
/-! SUPPORT. For each operation the blocks it leaves unchanged: faults, requests, start, tick and the effects of the commands. -/

namespace Sys2Proof.Laws

open Sys2Proof Sys2Proof.Machine

@[simp] theorem interruptShot_frame (s : State) :
    (interruptShot s).phase = s.phase ∧ (interruptShot s).inputs = s.inputs ∧ (interruptShot s).cfg = s.cfg ∧
    (interruptShot s).store = s.store ∧ (interruptShot s).port = s.port ∧ (interruptShot s).events = s.events ∧
    (interruptShot s).jobs = s.jobs ∧ (interruptShot s).stir = s.stir ∧ (interruptShot s).scale = s.scale ∧
    (interruptShot s).carriage = s.carriage ∧ (interruptShot s).lid = s.lid ∧ (interruptShot s).shake = s.shake ∧
    (interruptShot s).line = s.line ∧ (interruptShot s).roster = s.roster ∧ (interruptShot s).power = s.power ∧
    (interruptShot s).air = s.air ∧ (interruptShot s).mon = s.mon ∧ (interruptShot s).completion = s.completion ∧
    (interruptShot s).free = s.free ∧ (interruptShot s).pending = s.pending := by
  unfold interruptShot
  try dsimp only
  repeat' split
  all_goals simp

@[simp] theorem haltDisp_frame (dest : DispState) (s : State) :
    (haltDisp dest s).phase = s.phase ∧ (haltDisp dest s).inputs = s.inputs ∧ (haltDisp dest s).cfg = s.cfg ∧
    (haltDisp dest s).store = s.store ∧ (haltDisp dest s).port = s.port ∧ (haltDisp dest s).jobs = s.jobs ∧
    (haltDisp dest s).carriage = s.carriage ∧ (haltDisp dest s).lid = s.lid ∧ (haltDisp dest s).shake = s.shake ∧
    (haltDisp dest s).line = s.line ∧ (haltDisp dest s).roster = s.roster ∧ (haltDisp dest s).power = s.power ∧
    (haltDisp dest s).air = s.air ∧ (haltDisp dest s).mon = s.mon ∧ (haltDisp dest s).completion = s.completion ∧
    (haltDisp dest s).free = s.free ∧ (haltDisp dest s).pending = s.pending ∧
    (haltDisp dest s).events.enables = s.events.enables := by
  unfold haltDisp
  try dsimp only
  repeat' split
  all_goals simp

@[simp] theorem haltStroke_frame (estop : Bool) (s : State) :
    (haltStroke estop s).phase = s.phase ∧ (haltStroke estop s).inputs = s.inputs ∧
    (haltStroke estop s).cfg = s.cfg ∧ (haltStroke estop s).store = s.store ∧ (haltStroke estop s).port = s.port ∧
    (haltStroke estop s).jobs = s.jobs ∧ (haltStroke estop s).cans = s.cans ∧ (haltStroke estop s).stir = s.stir ∧
    (haltStroke estop s).pump = s.pump ∧ (haltStroke estop s).scale = s.scale ∧ (haltStroke estop s).disp = s.disp ∧
    (haltStroke estop s).carriage = s.carriage ∧ (haltStroke estop s).shake = s.shake ∧
    (haltStroke estop s).roster = s.roster ∧ (haltStroke estop s).mon = s.mon ∧
    (haltStroke estop s).completion = s.completion ∧ (haltStroke estop s).free = s.free ∧
    (haltStroke estop s).pending = s.pending ∧ (haltStroke estop s).events.enables = s.events.enables := by
  unfold haltStroke
  try dsimp only
  repeat' split
  all_goals simp

@[simp] theorem haltLid_frame (dest : LidState) (estop : Bool) (s : State) :
    (haltLid dest estop s).phase = s.phase ∧ (haltLid dest estop s).inputs = s.inputs ∧
    (haltLid dest estop s).cfg = s.cfg ∧ (haltLid dest estop s).store = s.store ∧ (haltLid dest estop s).port = s.port ∧
    (haltLid dest estop s).jobs = s.jobs ∧ (haltLid dest estop s).cans = s.cans ∧ (haltLid dest estop s).stir = s.stir ∧
    (haltLid dest estop s).pump = s.pump ∧ (haltLid dest estop s).scale = s.scale ∧ (haltLid dest estop s).disp = s.disp ∧
    (haltLid dest estop s).carriage = s.carriage ∧ (haltLid dest estop s).shake = s.shake ∧
    (haltLid dest estop s).roster = s.roster ∧ (haltLid dest estop s).mon = s.mon ∧
    (haltLid dest estop s).completion = s.completion ∧ (haltLid dest estop s).free = s.free ∧
    (haltLid dest estop s).pending = s.pending ∧ (haltLid dest estop s).events.enables = s.events.enables := by
  unfold haltLid
  try dsimp only
  repeat' split
  all_goals simp [dropHomeCheck]

@[simp] theorem haltShaker_frame (estop : Bool) (s : State) :
    (haltShaker estop s).phase = s.phase ∧ (haltShaker estop s).inputs = s.inputs ∧
    (haltShaker estop s).cfg = s.cfg ∧ (haltShaker estop s).store = s.store ∧ (haltShaker estop s).port = s.port ∧
    (haltShaker estop s).events = s.events ∧ (haltShaker estop s).jobs = s.jobs ∧
    (haltShaker estop s).cans = s.cans ∧ (haltShaker estop s).stir = s.stir ∧ (haltShaker estop s).pump = s.pump ∧
    (haltShaker estop s).disp = s.disp ∧ (haltShaker estop s).carriage = s.carriage ∧
    (haltShaker estop s).lid = s.lid ∧ (haltShaker estop s).roster = s.roster ∧ (haltShaker estop s).mon = s.mon ∧
    (haltShaker estop s).completion = s.completion ∧ (haltShaker estop s).free = s.free ∧
    (haltShaker estop s).pending = s.pending := by
  unfold haltShaker
  try dsimp only
  repeat' split
  all_goals simp

@[simp] theorem haltShake_frame (dest : ShakeState) (estop : Bool) (s : State) :
    (haltShake dest estop s).phase = s.phase ∧ (haltShake dest estop s).inputs = s.inputs ∧
    (haltShake dest estop s).cfg = s.cfg ∧ (haltShake dest estop s).store = s.store ∧
    (haltShake dest estop s).port = s.port ∧ (haltShake dest estop s).events = s.events ∧
    (haltShake dest estop s).jobs = s.jobs ∧ (haltShake dest estop s).cans = s.cans ∧
    (haltShake dest estop s).stir = s.stir ∧ (haltShake dest estop s).pump = s.pump ∧
    (haltShake dest estop s).disp = s.disp ∧ (haltShake dest estop s).carriage = s.carriage ∧
    (haltShake dest estop s).lid = s.lid ∧ (haltShake dest estop s).roster = s.roster ∧
    (haltShake dest estop s).mon = s.mon ∧ (haltShake dest estop s).completion = s.completion ∧
    (haltShake dest estop s).free = s.free ∧ (haltShake dest estop s).pending = s.pending := by
  unfold haltShake
  try dsimp only
  repeat' split
  all_goals simp

@[simp] theorem faultBay_frame (x : BayId) (s : State) :
    (faultBay x s).phase = s.phase ∧ (faultBay x s).inputs = s.inputs ∧ (faultBay x s).cfg = s.cfg ∧
    (faultBay x s).store = s.store ∧ (faultBay x s).port = s.port ∧ (faultBay x s).jobs = s.jobs ∧
    (faultBay x s).carriage = s.carriage ∧ (faultBay x s).roster = s.roster ∧ (faultBay x s).mon = s.mon ∧
    (faultBay x s).completion = s.completion ∧ (faultBay x s).free = s.free ∧ (faultBay x s).pending = s.pending ∧
    (faultBay x s).events.enables = s.events.enables := by
  unfold faultBay
  try dsimp only
  repeat' split
  all_goals simp

@[simp] theorem stopOthers_frame (x : BayId) (s : State) :
    (stopOthers x s).phase = s.phase ∧ (stopOthers x s).inputs = s.inputs ∧ (stopOthers x s).cfg = s.cfg ∧
    (stopOthers x s).store = s.store ∧ (stopOthers x s).port = s.port ∧ (stopOthers x s).jobs = s.jobs ∧
    (stopOthers x s).carriage = s.carriage ∧ (stopOthers x s).roster = s.roster ∧ (stopOthers x s).mon = s.mon ∧
    (stopOthers x s).completion = s.completion ∧ (stopOthers x s).free = s.free ∧
    (stopOthers x s).pending = s.pending ∧ (stopOthers x s).events.enables = s.events.enables := by
  unfold stopOthers
  try dsimp only
  repeat' split
  all_goals simp

@[simp] theorem latch_frame (b : BayId) (k : FaultKind) (s : State) :
    (latch b k s).phase = s.phase ∧ (latch b k s).inputs = s.inputs ∧ (latch b k s).cfg = s.cfg ∧
    (latch b k s).store = s.store ∧ (latch b k s).port = s.port ∧ (latch b k s).jobs = s.jobs ∧
    (latch b k s).carriage = s.carriage ∧ (latch b k s).roster = s.roster ∧
    (latch b k s).completion = s.completion ∧ (latch b k s).free = s.free ∧ (latch b k s).pending = s.pending ∧
    (latch b k s).mon.estop = s.mon.estop ∧ (latch b k s).events.enables = s.events.enables := by
  unfold latch
  try dsimp only
  repeat' split
  all_goals simp

@[simp] theorem loseLine_frame (s : State) :
    (loseLine s).phase = s.phase ∧ (loseLine s).inputs = s.inputs ∧ (loseLine s).cfg = s.cfg ∧
    (loseLine s).store = s.store ∧ (loseLine s).port = s.port ∧ (loseLine s).jobs = s.jobs ∧
    (loseLine s).stir = s.stir ∧ (loseLine s).scale = s.scale ∧ (loseLine s).carriage = s.carriage ∧
    (loseLine s).lid = s.lid ∧ (loseLine s).shake = s.shake ∧ (loseLine s).line = s.line ∧
    (loseLine s).roster = s.roster ∧ (loseLine s).power = s.power ∧ (loseLine s).air = s.air ∧
    (loseLine s).mon = s.mon ∧ (loseLine s).completion = s.completion ∧ (loseLine s).free = s.free ∧
    (loseLine s).pending = s.pending ∧ (loseLine s).events.enables = s.events.enables := by
  unfold loseLine
  try dsimp only
  repeat' split
  all_goals simp

@[simp] theorem closeLost_frame (s : State) :
    (closeLost s).phase = s.phase ∧ (closeLost s).inputs = s.inputs ∧ (closeLost s).cfg = s.cfg ∧
    (closeLost s).store = s.store ∧ (closeLost s).port = s.port ∧ (closeLost s).cans = s.cans ∧
    (closeLost s).stir = s.stir ∧ (closeLost s).pump = s.pump ∧ (closeLost s).scale = s.scale ∧
    (closeLost s).carriage = s.carriage ∧ (closeLost s).lid = s.lid ∧ (closeLost s).shake = s.shake ∧
    (closeLost s).line = s.line ∧ (closeLost s).roster = s.roster ∧ (closeLost s).power = s.power ∧
    (closeLost s).air = s.air ∧ (closeLost s).mon = s.mon ∧ (closeLost s).free = s.free ∧
    (closeLost s).pending = s.pending ∧ (closeLost s).events.enables = s.events.enables := by
  unfold closeLost
  try dsimp only
  repeat' split
  all_goals simp

@[simp] theorem closeFound_frame (b : BayId) (s : State) :
    (closeFound b s).phase = s.phase ∧ (closeFound b s).inputs = s.inputs ∧ (closeFound b s).cfg = s.cfg ∧
    (closeFound b s).store = s.store ∧ (closeFound b s).port = s.port ∧ (closeFound b s).cans = s.cans ∧
    (closeFound b s).stir = s.stir ∧ (closeFound b s).pump = s.pump ∧ (closeFound b s).scale = s.scale ∧
    (closeFound b s).carriage = s.carriage ∧ (closeFound b s).lid = s.lid ∧ (closeFound b s).shake = s.shake ∧
    (closeFound b s).line = s.line ∧ (closeFound b s).roster = s.roster ∧ (closeFound b s).power = s.power ∧
    (closeFound b s).air = s.air ∧ (closeFound b s).mon = s.mon ∧ (closeFound b s).free = s.free ∧
    (closeFound b s).pending = s.pending ∧ (closeFound b s).events.enables = s.events.enables := by
  unfold closeFound
  try dsimp only
  repeat' split
  all_goals simp

@[simp] theorem loseDisp_frame (s : State) :
    (loseDisp s).phase = s.phase ∧ (loseDisp s).inputs = s.inputs ∧ (loseDisp s).cfg = s.cfg ∧
    (loseDisp s).store = s.store ∧ (loseDisp s).port = s.port ∧ (loseDisp s).carriage = s.carriage ∧
    (loseDisp s).roster = s.roster ∧ (loseDisp s).free = s.free ∧ (loseDisp s).pending = s.pending ∧
    (loseDisp s).mon.estop = s.mon.estop ∧ (loseDisp s).events.enables = s.events.enables := by
  unfold loseDisp
  try dsimp only
  repeat' split
  all_goals simp

@[simp] theorem loseLid_frame (s : State) :
    (loseLid s).phase = s.phase ∧ (loseLid s).inputs = s.inputs ∧ (loseLid s).cfg = s.cfg ∧
    (loseLid s).store = s.store ∧ (loseLid s).port = s.port ∧ (loseLid s).jobs = s.jobs ∧
    (loseLid s).cans = s.cans ∧ (loseLid s).stir = s.stir ∧ (loseLid s).pump = s.pump ∧
    (loseLid s).scale = s.scale ∧ (loseLid s).disp = s.disp ∧ (loseLid s).carriage = s.carriage ∧
    (loseLid s).shake = s.shake ∧ (loseLid s).roster = s.roster ∧ (loseLid s).mon = s.mon ∧
    (loseLid s).free = s.free ∧ (loseLid s).pending = s.pending ∧ (loseLid s).events.enables = s.events.enables := by
  unfold loseLid
  try dsimp only
  repeat' split
  all_goals simp

@[simp] theorem loseShake_frame (s : State) :
    (loseShake s).phase = s.phase ∧ (loseShake s).inputs = s.inputs ∧ (loseShake s).cfg = s.cfg ∧
    (loseShake s).store = s.store ∧ (loseShake s).port = s.port ∧ (loseShake s).jobs = s.jobs ∧
    (loseShake s).cans = s.cans ∧ (loseShake s).stir = s.stir ∧ (loseShake s).pump = s.pump ∧
    (loseShake s).disp = s.disp ∧ (loseShake s).carriage = s.carriage ∧ (loseShake s).lid = s.lid ∧
    (loseShake s).roster = s.roster ∧ (loseShake s).mon = s.mon ∧ (loseShake s).free = s.free ∧
    (loseShake s).pending = s.pending ∧ (loseShake s).events.enables = s.events.enables := by
  unfold loseShake
  try dsimp only
  repeat' split
  all_goals simp

@[simp] theorem enterTare_frame (s : State) :
    (enterTare s).phase = s.phase ∧ (enterTare s).inputs = s.inputs ∧ (enterTare s).cfg = s.cfg ∧
    (enterTare s).store = s.store ∧ (enterTare s).port = s.port ∧ (enterTare s).events = s.events ∧
    (enterTare s).jobs = s.jobs ∧ (enterTare s).cans = s.cans ∧ (enterTare s).stir = s.stir ∧
    (enterTare s).pump = s.pump ∧ (enterTare s).carriage = s.carriage ∧ (enterTare s).lid = s.lid ∧
    (enterTare s).shake = s.shake ∧ (enterTare s).line = s.line ∧ (enterTare s).roster = s.roster ∧
    (enterTare s).power = s.power ∧ (enterTare s).air = s.air ∧ (enterTare s).mon = s.mon ∧
    (enterTare s).completion = s.completion ∧ (enterTare s).free = s.free ∧ (enterTare s).pending = s.pending := by
  unfold enterTare
  try dsimp only
  repeat' split
  all_goals simp

@[simp] theorem returnToCalled_frame (s : State) :
    (returnToCalled s).phase = s.phase ∧ (returnToCalled s).inputs = s.inputs ∧ (returnToCalled s).cfg = s.cfg ∧
    (returnToCalled s).store = s.store ∧ (returnToCalled s).port = s.port ∧ (returnToCalled s).cans = s.cans ∧
    (returnToCalled s).stir = s.stir ∧ (returnToCalled s).pump = s.pump ∧ (returnToCalled s).carriage = s.carriage ∧
    (returnToCalled s).lid = s.lid ∧ (returnToCalled s).shake = s.shake ∧ (returnToCalled s).line = s.line ∧
    (returnToCalled s).roster = s.roster ∧ (returnToCalled s).power = s.power ∧ (returnToCalled s).air = s.air ∧
    (returnToCalled s).mon = s.mon ∧ (returnToCalled s).completion = s.completion ∧
    (returnToCalled s).free = s.free ∧ (returnToCalled s).pending = s.pending ∧
    (returnToCalled s).events.enables = s.events.enables := by
  unfold returnToCalled
  try dsimp only
  repeat' split
  all_goals simp

@[simp] theorem enterCancelled_frame (s : State) :
    (enterCancelled s).phase = s.phase ∧ (enterCancelled s).inputs = s.inputs ∧ (enterCancelled s).cfg = s.cfg ∧
    (enterCancelled s).store = s.store ∧ (enterCancelled s).port = s.port ∧ (enterCancelled s).jobs = s.jobs ∧
    (enterCancelled s).cans = s.cans ∧ (enterCancelled s).pump = s.pump ∧ (enterCancelled s).carriage = s.carriage ∧
    (enterCancelled s).lid = s.lid ∧ (enterCancelled s).shake = s.shake ∧ (enterCancelled s).line = s.line ∧
    (enterCancelled s).roster = s.roster ∧ (enterCancelled s).power = s.power ∧ (enterCancelled s).air = s.air ∧
    (enterCancelled s).mon = s.mon ∧ (enterCancelled s).free = s.free ∧ (enterCancelled s).pending = s.pending ∧
    (enterCancelled s).events.enables = s.events.enables := by
  unfold enterCancelled
  try dsimp only
  repeat' split
  all_goals simp

@[simp] theorem resumeLine_frame (s : State) :
    (resumeLine s).phase = s.phase ∧ (resumeLine s).inputs = s.inputs ∧ (resumeLine s).cfg = s.cfg ∧
    (resumeLine s).store = s.store ∧ (resumeLine s).port = s.port ∧ (resumeLine s).carriage = s.carriage ∧
    (resumeLine s).lid = s.lid ∧ (resumeLine s).shake = s.shake ∧ (resumeLine s).line = s.line ∧
    (resumeLine s).roster = s.roster ∧ (resumeLine s).power = s.power ∧ (resumeLine s).air = s.air ∧
    (resumeLine s).mon = s.mon ∧ (resumeLine s).completion = s.completion ∧ (resumeLine s).free = s.free ∧
    (resumeLine s).pending = s.pending ∧ (resumeLine s).events.enables = s.events.enables := by
  unfold resumeLine
  try dsimp only
  repeat' split
  all_goals simp

@[simp] theorem resumeDispAt_frame (r : DispState) (s : State) :
    (resumeDispAt r s).phase = s.phase ∧ (resumeDispAt r s).inputs = s.inputs ∧ (resumeDispAt r s).cfg = s.cfg ∧
    (resumeDispAt r s).store = s.store ∧ (resumeDispAt r s).port = s.port ∧
    (resumeDispAt r s).carriage = s.carriage ∧ (resumeDispAt r s).roster = s.roster ∧
    (resumeDispAt r s).free = s.free ∧ (resumeDispAt r s).pending = s.pending ∧
    (resumeDispAt r s).mon.estop = s.mon.estop ∧ (resumeDispAt r s).events.enables = s.events.enables := by
  unfold resumeDispAt
  try dsimp only
  repeat' split
  all_goals simp

@[simp] theorem resumeDisp_frame (s : State) :
    (resumeDisp s).phase = s.phase ∧ (resumeDisp s).inputs = s.inputs ∧ (resumeDisp s).cfg = s.cfg ∧
    (resumeDisp s).store = s.store ∧ (resumeDisp s).port = s.port ∧ (resumeDisp s).carriage = s.carriage ∧
    (resumeDisp s).roster = s.roster ∧ (resumeDisp s).free = s.free ∧ (resumeDisp s).pending = s.pending ∧
    (resumeDisp s).mon.estop = s.mon.estop ∧ (resumeDisp s).events.enables = s.events.enables := by
  unfold resumeDisp
  try dsimp only
  repeat' split
  all_goals simp

@[simp] theorem lidGoOn_frame (s : State) :
    (lidGoOn s).phase = s.phase ∧ (lidGoOn s).inputs = s.inputs ∧ (lidGoOn s).cfg = s.cfg ∧
    (lidGoOn s).store = s.store ∧ (lidGoOn s).port = s.port ∧ (lidGoOn s).jobs = s.jobs ∧
    (lidGoOn s).cans = s.cans ∧ (lidGoOn s).stir = s.stir ∧ (lidGoOn s).pump = s.pump ∧
    (lidGoOn s).scale = s.scale ∧ (lidGoOn s).disp = s.disp ∧ (lidGoOn s).carriage = s.carriage ∧
    (lidGoOn s).roster = s.roster ∧ (lidGoOn s).mon = s.mon ∧ (lidGoOn s).free = s.free ∧
    (lidGoOn s).pending = s.pending ∧ (lidGoOn s).events.enables = s.events.enables := by
  unfold lidGoOn
  try dsimp only
  repeat' split
  all_goals simp

@[simp] theorem homeCheck_frame (s : State) :
    (homeCheck s).phase = s.phase ∧ (homeCheck s).inputs = s.inputs ∧ (homeCheck s).cfg = s.cfg ∧
    (homeCheck s).store = s.store ∧ (homeCheck s).port = s.port ∧ (homeCheck s).jobs = s.jobs ∧
    (homeCheck s).cans = s.cans ∧ (homeCheck s).stir = s.stir ∧ (homeCheck s).pump = s.pump ∧
    (homeCheck s).scale = s.scale ∧ (homeCheck s).disp = s.disp ∧ (homeCheck s).carriage = s.carriage ∧
    (homeCheck s).roster = s.roster ∧ (homeCheck s).mon = s.mon ∧ (homeCheck s).free = s.free ∧
    (homeCheck s).pending = s.pending ∧ (homeCheck s).events.enables = s.events.enables := by
  unfold homeCheck
  try dsimp only
  repeat' split
  all_goals simp

@[simp] theorem resumeLostLid_frame (s : State) :
    (resumeLostLid s).phase = s.phase ∧ (resumeLostLid s).inputs = s.inputs ∧ (resumeLostLid s).cfg = s.cfg ∧
    (resumeLostLid s).store = s.store ∧ (resumeLostLid s).port = s.port ∧ (resumeLostLid s).jobs = s.jobs ∧
    (resumeLostLid s).cans = s.cans ∧ (resumeLostLid s).stir = s.stir ∧ (resumeLostLid s).pump = s.pump ∧
    (resumeLostLid s).scale = s.scale ∧ (resumeLostLid s).disp = s.disp ∧ (resumeLostLid s).carriage = s.carriage ∧
    (resumeLostLid s).shake = s.shake ∧ (resumeLostLid s).roster = s.roster ∧ (resumeLostLid s).mon = s.mon ∧
    (resumeLostLid s).free = s.free ∧ (resumeLostLid s).pending = s.pending ∧
    (resumeLostLid s).events.enables = s.events.enables := by
  unfold resumeLostLid
  try dsimp only
  repeat' split
  all_goals simp

@[simp] theorem resumeLidAt_frame (r : LidState) (s : State) :
    (resumeLidAt r s).phase = s.phase ∧ (resumeLidAt r s).inputs = s.inputs ∧ (resumeLidAt r s).cfg = s.cfg ∧
    (resumeLidAt r s).store = s.store ∧ (resumeLidAt r s).port = s.port ∧ (resumeLidAt r s).jobs = s.jobs ∧
    (resumeLidAt r s).cans = s.cans ∧ (resumeLidAt r s).stir = s.stir ∧ (resumeLidAt r s).pump = s.pump ∧
    (resumeLidAt r s).scale = s.scale ∧ (resumeLidAt r s).disp = s.disp ∧ (resumeLidAt r s).carriage = s.carriage ∧
    (resumeLidAt r s).roster = s.roster ∧ (resumeLidAt r s).mon = s.mon ∧ (resumeLidAt r s).free = s.free ∧
    (resumeLidAt r s).pending = s.pending ∧ (resumeLidAt r s).events.enables = s.events.enables := by
  unfold resumeLidAt
  try dsimp only
  repeat' split
  all_goals simp

@[simp] theorem resumeLid_frame (s : State) :
    (resumeLid s).phase = s.phase ∧ (resumeLid s).inputs = s.inputs ∧ (resumeLid s).cfg = s.cfg ∧
    (resumeLid s).store = s.store ∧ (resumeLid s).port = s.port ∧ (resumeLid s).jobs = s.jobs ∧
    (resumeLid s).cans = s.cans ∧ (resumeLid s).stir = s.stir ∧ (resumeLid s).pump = s.pump ∧
    (resumeLid s).scale = s.scale ∧ (resumeLid s).disp = s.disp ∧ (resumeLid s).carriage = s.carriage ∧
    (resumeLid s).roster = s.roster ∧ (resumeLid s).mon = s.mon ∧ (resumeLid s).free = s.free ∧
    (resumeLid s).pending = s.pending ∧ (resumeLid s).events.enables = s.events.enables := by
  unfold resumeLid
  try dsimp only
  repeat' split
  all_goals simp

@[simp] theorem resumeShakeAt_frame (r : ShakeState) (s : State) :
    (resumeShakeAt r s).phase = s.phase ∧ (resumeShakeAt r s).inputs = s.inputs ∧ (resumeShakeAt r s).cfg = s.cfg ∧
    (resumeShakeAt r s).store = s.store ∧ (resumeShakeAt r s).port = s.port ∧ (resumeShakeAt r s).jobs = s.jobs ∧
    (resumeShakeAt r s).cans = s.cans ∧ (resumeShakeAt r s).stir = s.stir ∧ (resumeShakeAt r s).pump = s.pump ∧
    (resumeShakeAt r s).scale = s.scale ∧ (resumeShakeAt r s).disp = s.disp ∧
    (resumeShakeAt r s).carriage = s.carriage ∧ (resumeShakeAt r s).roster = s.roster ∧
    (resumeShakeAt r s).mon = s.mon ∧ (resumeShakeAt r s).free = s.free ∧ (resumeShakeAt r s).pending = s.pending ∧
    (resumeShakeAt r s).events.enables = s.events.enables := by
  unfold resumeShakeAt
  try dsimp only
  repeat' split
  all_goals simp

@[simp] theorem resumeShake_frame (s : State) :
    (resumeShake s).phase = s.phase ∧ (resumeShake s).inputs = s.inputs ∧ (resumeShake s).cfg = s.cfg ∧
    (resumeShake s).store = s.store ∧ (resumeShake s).port = s.port ∧ (resumeShake s).jobs = s.jobs ∧
    (resumeShake s).cans = s.cans ∧ (resumeShake s).stir = s.stir ∧ (resumeShake s).pump = s.pump ∧
    (resumeShake s).scale = s.scale ∧ (resumeShake s).disp = s.disp ∧ (resumeShake s).carriage = s.carriage ∧
    (resumeShake s).roster = s.roster ∧ (resumeShake s).mon = s.mon ∧ (resumeShake s).free = s.free ∧
    (resumeShake s).pending = s.pending ∧ (resumeShake s).events.enables = s.events.enables := by
  unfold resumeShake
  try dsimp only
  repeat' split
  all_goals simp

@[simp] theorem resumeAll_frame (s : State) :
    (resumeAll s).phase = s.phase ∧ (resumeAll s).inputs = s.inputs ∧ (resumeAll s).cfg = s.cfg ∧
    (resumeAll s).store = s.store ∧ (resumeAll s).port = s.port ∧ (resumeAll s).carriage = s.carriage ∧
    (resumeAll s).roster = s.roster ∧ (resumeAll s).free = s.free ∧ (resumeAll s).pending = s.pending ∧
    (resumeAll s).mon.estop = s.mon.estop ∧ (resumeAll s).events.enables = s.events.enables := by
  unfold resumeAll
  try dsimp only
  repeat' split
  all_goals simp

@[simp] theorem clearJam_frame (b : BayId) (s : State) :
    (clearJam b s).phase = s.phase ∧ (clearJam b s).inputs = s.inputs ∧ (clearJam b s).cfg = s.cfg ∧
    (clearJam b s).store = s.store ∧ (clearJam b s).port = s.port ∧ (clearJam b s).events = s.events ∧
    (clearJam b s).jobs = s.jobs ∧ (clearJam b s).cans = s.cans ∧ (clearJam b s).stir = s.stir ∧
    (clearJam b s).pump = s.pump ∧ (clearJam b s).scale = s.scale ∧ (clearJam b s).disp = s.disp ∧
    (clearJam b s).lid = s.lid ∧ (clearJam b s).shake = s.shake ∧ (clearJam b s).line = s.line ∧
    (clearJam b s).roster = s.roster ∧ (clearJam b s).power = s.power ∧ (clearJam b s).air = s.air ∧
    (clearJam b s).mon = s.mon ∧ (clearJam b s).completion = s.completion ∧ (clearJam b s).free = s.free ∧
    (clearJam b s).pending = s.pending := by
  unfold clearJam
  try dsimp only
  repeat' split
  all_goals simp

@[simp] theorem holdCleared_frame (b : BayId) (s : State) :
    (holdCleared b s).phase = s.phase ∧ (holdCleared b s).inputs = s.inputs ∧ (holdCleared b s).cfg = s.cfg ∧
    (holdCleared b s).store = s.store ∧ (holdCleared b s).port = s.port ∧ (holdCleared b s).events = s.events ∧
    (holdCleared b s).jobs = s.jobs ∧ (holdCleared b s).cans = s.cans ∧ (holdCleared b s).stir = s.stir ∧
    (holdCleared b s).pump = s.pump ∧ (holdCleared b s).scale = s.scale ∧ (holdCleared b s).carriage = s.carriage ∧
    (holdCleared b s).line = s.line ∧ (holdCleared b s).roster = s.roster ∧ (holdCleared b s).power = s.power ∧
    (holdCleared b s).air = s.air ∧ (holdCleared b s).mon = s.mon ∧ (holdCleared b s).completion = s.completion ∧
    (holdCleared b s).free = s.free ∧ (holdCleared b s).pending = s.pending := by
  unfold holdCleared
  try dsimp only
  repeat' split
  all_goals simp

@[simp] theorem clearBay_frame (b : BayId) (s : State) :
    (clearBay b s).phase = s.phase ∧ (clearBay b s).inputs = s.inputs ∧ (clearBay b s).cfg = s.cfg ∧
    (clearBay b s).store = s.store ∧ (clearBay b s).port = s.port ∧ (clearBay b s).roster = s.roster ∧
    (clearBay b s).free = s.free ∧ (clearBay b s).pending = s.pending ∧ (clearBay b s).mon.estop = s.mon.estop ∧
    (clearBay b s).events.enables = s.events.enables := by
  unfold clearBay
  try dsimp only
  repeat' split
  all_goals simp

@[simp] theorem clearStation_frame (s : State) :
    (clearStation s).phase = s.phase ∧ (clearStation s).inputs = s.inputs ∧ (clearStation s).cfg = s.cfg ∧
    (clearStation s).store = s.store ∧ (clearStation s).port = s.port ∧ (clearStation s).roster = s.roster ∧
    (clearStation s).free = s.free ∧ (clearStation s).pending = s.pending ∧
    (clearStation s).events.enables = s.events.enables := by
  unfold clearStation
  try dsimp only
  repeat' split
  all_goals simp

@[simp] theorem noteEverywhere_frame (k : FaultKind) (s : State) :
    (noteEverywhere k s).phase = s.phase ∧ (noteEverywhere k s).inputs = s.inputs ∧
    (noteEverywhere k s).cfg = s.cfg ∧ (noteEverywhere k s).store = s.store ∧ (noteEverywhere k s).port = s.port ∧
    (noteEverywhere k s).events = s.events ∧ (noteEverywhere k s).jobs = s.jobs ∧
    (noteEverywhere k s).cans = s.cans ∧ (noteEverywhere k s).stir = s.stir ∧ (noteEverywhere k s).pump = s.pump ∧
    (noteEverywhere k s).scale = s.scale ∧ (noteEverywhere k s).line = s.line ∧
    (noteEverywhere k s).roster = s.roster ∧ (noteEverywhere k s).power = s.power ∧
    (noteEverywhere k s).air = s.air ∧ (noteEverywhere k s).mon = s.mon ∧
    (noteEverywhere k s).completion = s.completion ∧ (noteEverywhere k s).free = s.free ∧
    (noteEverywhere k s).pending = s.pending := by
  unfold noteEverywhere
  try dsimp only
  repeat' split
  all_goals simp

@[simp] theorem jamByStop_frame (s : State) :
    (jamByStop s).phase = s.phase ∧ (jamByStop s).inputs = s.inputs ∧ (jamByStop s).cfg = s.cfg ∧
    (jamByStop s).store = s.store ∧ (jamByStop s).port = s.port ∧ (jamByStop s).events = s.events ∧
    (jamByStop s).jobs = s.jobs ∧ (jamByStop s).cans = s.cans ∧ (jamByStop s).stir = s.stir ∧
    (jamByStop s).pump = s.pump ∧ (jamByStop s).scale = s.scale ∧ (jamByStop s).disp = s.disp ∧
    (jamByStop s).lid = s.lid ∧ (jamByStop s).shake = s.shake ∧ (jamByStop s).line = s.line ∧
    (jamByStop s).roster = s.roster ∧ (jamByStop s).power = s.power ∧ (jamByStop s).air = s.air ∧
    (jamByStop s).mon = s.mon ∧ (jamByStop s).completion = s.completion ∧ (jamByStop s).free = s.free ∧
    (jamByStop s).pending = s.pending := by
  unfold jamByStop
  try dsimp only
  repeat' split
  all_goals simp

@[simp] theorem drivesOff_frame (s : State) :
    (drivesOff s).phase = s.phase ∧ (drivesOff s).inputs = s.inputs ∧ (drivesOff s).cfg = s.cfg ∧
    (drivesOff s).store = s.store ∧ (drivesOff s).port = s.port ∧ (drivesOff s).events = s.events ∧
    (drivesOff s).jobs = s.jobs ∧ (drivesOff s).stir = s.stir ∧ (drivesOff s).scale = s.scale ∧
    (drivesOff s).disp = s.disp ∧ (drivesOff s).line = s.line ∧ (drivesOff s).roster = s.roster ∧
    (drivesOff s).power = s.power ∧ (drivesOff s).air = s.air ∧ (drivesOff s).mon = s.mon ∧
    (drivesOff s).completion = s.completion ∧ (drivesOff s).free = s.free ∧ (drivesOff s).pending = s.pending := by
  unfold drivesOff
  try dsimp only
  repeat' split
  all_goals simp

@[simp] theorem applyEstop_frame (s : State) :
    (applyEstop s).phase = s.phase ∧ (applyEstop s).inputs = s.inputs ∧ (applyEstop s).cfg = s.cfg ∧
    (applyEstop s).store = s.store ∧ (applyEstop s).port = s.port ∧ (applyEstop s).jobs = s.jobs ∧
    (applyEstop s).roster = s.roster ∧ (applyEstop s).completion = s.completion ∧ (applyEstop s).free = s.free ∧
    (applyEstop s).pending = s.pending ∧ (applyEstop s).events.enables = s.events.enables := by
  unfold applyEstop
  try dsimp only
  repeat' split
  all_goals simp

@[simp] theorem markCancelled_frame (s : State) :
    (markCancelled s).phase = s.phase ∧ (markCancelled s).inputs = s.inputs ∧ (markCancelled s).cfg = s.cfg ∧
    (markCancelled s).store = s.store ∧ (markCancelled s).port = s.port ∧ (markCancelled s).jobs = s.jobs ∧
    (markCancelled s).cans = s.cans ∧ (markCancelled s).stir = s.stir ∧ (markCancelled s).pump = s.pump ∧
    (markCancelled s).scale = s.scale ∧ (markCancelled s).carriage = s.carriage ∧ (markCancelled s).lid = s.lid ∧
    (markCancelled s).shake = s.shake ∧ (markCancelled s).line = s.line ∧ (markCancelled s).roster = s.roster ∧
    (markCancelled s).power = s.power ∧ (markCancelled s).air = s.air ∧ (markCancelled s).mon = s.mon ∧
    (markCancelled s).completion = s.completion ∧ (markCancelled s).free = s.free ∧
    (markCancelled s).pending = s.pending ∧ (markCancelled s).events.enables = s.events.enables := by
  unfold markCancelled
  try dsimp only
  repeat' split
  all_goals simp

@[simp] theorem cancelTin_frame (s : State) :
    (cancelTin s).phase = s.phase ∧ (cancelTin s).inputs = s.inputs ∧ (cancelTin s).cfg = s.cfg ∧
    (cancelTin s).store = s.store ∧ (cancelTin s).port = s.port ∧ (cancelTin s).jobs = s.jobs ∧
    (cancelTin s).carriage = s.carriage ∧ (cancelTin s).lid = s.lid ∧ (cancelTin s).shake = s.shake ∧
    (cancelTin s).line = s.line ∧ (cancelTin s).roster = s.roster ∧ (cancelTin s).power = s.power ∧
    (cancelTin s).air = s.air ∧ (cancelTin s).mon = s.mon ∧ (cancelTin s).free = s.free ∧
    (cancelTin s).pending = s.pending ∧ (cancelTin s).events.enables = s.events.enables := by
  unfold cancelTin
  try dsimp only
  repeat' split
  all_goals simp

@[simp] theorem cancelInBay_frame (e : CancelEffect) (s : State) :
    (cancelInBay e s).phase = s.phase ∧ (cancelInBay e s).inputs = s.inputs ∧ (cancelInBay e s).cfg = s.cfg ∧
    (cancelInBay e s).store = s.store ∧ (cancelInBay e s).port = s.port ∧ (cancelInBay e s).carriage = s.carriage ∧
    (cancelInBay e s).lid = s.lid ∧ (cancelInBay e s).shake = s.shake ∧ (cancelInBay e s).line = s.line ∧
    (cancelInBay e s).roster = s.roster ∧ (cancelInBay e s).power = s.power ∧ (cancelInBay e s).air = s.air ∧
    (cancelInBay e s).mon = s.mon ∧ (cancelInBay e s).free = s.free ∧ (cancelInBay e s).pending = s.pending ∧
    (cancelInBay e s).events.enables = s.events.enables := by
  unfold cancelInBay
  try dsimp only
  repeat' split
  all_goals simp

@[simp] theorem startCal_frame (i : Slot) (mask : Option Byte) (s : State) :
    (startCal i mask s).phase = s.phase ∧ (startCal i mask s).inputs = s.inputs ∧ (startCal i mask s).cfg = s.cfg ∧
    (startCal i mask s).store = s.store ∧ (startCal i mask s).port = s.port ∧
    (startCal i mask s).events = s.events ∧ (startCal i mask s).jobs = s.jobs ∧ (startCal i mask s).pump = s.pump ∧
    (startCal i mask s).carriage = s.carriage ∧ (startCal i mask s).lid = s.lid ∧
    (startCal i mask s).shake = s.shake ∧ (startCal i mask s).line = s.line ∧
    (startCal i mask s).roster = s.roster ∧ (startCal i mask s).power = s.power ∧ (startCal i mask s).air = s.air ∧
    (startCal i mask s).mon = s.mon ∧ (startCal i mask s).completion = s.completion ∧
    (startCal i mask s).free = s.free ∧ (startCal i mask s).pending = s.pending := by
  unfold startCal
  try dsimp only
  repeat' split
  all_goals simp

@[simp] theorem restartKeepalive_frame (s : State) :
    (restartKeepalive s).phase = s.phase ∧ (restartKeepalive s).inputs = s.inputs ∧
    (restartKeepalive s).cfg = s.cfg ∧ (restartKeepalive s).store = s.store ∧ (restartKeepalive s).port = s.port ∧
    (restartKeepalive s).events = s.events ∧ (restartKeepalive s).jobs = s.jobs ∧
    (restartKeepalive s).cans = s.cans ∧ (restartKeepalive s).stir = s.stir ∧ (restartKeepalive s).pump = s.pump ∧
    (restartKeepalive s).scale = s.scale ∧ (restartKeepalive s).disp = s.disp ∧
    (restartKeepalive s).carriage = s.carriage ∧ (restartKeepalive s).lid = s.lid ∧
    (restartKeepalive s).shake = s.shake ∧ (restartKeepalive s).line = s.line ∧
    (restartKeepalive s).roster = s.roster ∧ (restartKeepalive s).power = s.power ∧
    (restartKeepalive s).air = s.air ∧ (restartKeepalive s).completion = s.completion ∧
    (restartKeepalive s).free = s.free ∧ (restartKeepalive s).pending = s.pending ∧
    (restartKeepalive s).mon.estop = s.mon.estop := by
  unfold restartKeepalive
  try dsimp only
  repeat' split
  all_goals simp

@[simp] theorem receiverGap_frame (s : State) :
    (receiverGap s).phase = s.phase ∧ (receiverGap s).inputs = s.inputs ∧ (receiverGap s).cfg = s.cfg ∧
    (receiverGap s).store = s.store ∧ (receiverGap s).events = s.events ∧ (receiverGap s).jobs = s.jobs ∧
    (receiverGap s).cans = s.cans ∧ (receiverGap s).stir = s.stir ∧ (receiverGap s).pump = s.pump ∧
    (receiverGap s).scale = s.scale ∧ (receiverGap s).disp = s.disp ∧ (receiverGap s).carriage = s.carriage ∧
    (receiverGap s).lid = s.lid ∧ (receiverGap s).shake = s.shake ∧ (receiverGap s).line = s.line ∧
    (receiverGap s).roster = s.roster ∧ (receiverGap s).power = s.power ∧ (receiverGap s).air = s.air ∧
    (receiverGap s).mon = s.mon ∧ (receiverGap s).completion = s.completion ∧ (receiverGap s).free = s.free ∧
    (receiverGap s).pending = s.pending := by
  unfold receiverGap
  try dsimp only
  repeat' split
  all_goals simp

@[simp] theorem volatileReset_frame (s : State) :
    (volatileReset s).phase = s.phase ∧ (volatileReset s).inputs = s.inputs ∧ (volatileReset s).store = s.store ∧
    (volatileReset s).free = s.free ∧ (volatileReset s).pending = s.pending := by
  exact ⟨rfl, rfl, rfl, rfl, rfl⟩

@[simp] theorem scramble_frame (x : SectorId) (s : State) :
    (scramble x s).phase = s.phase ∧ (scramble x s).inputs = s.inputs ∧ (scramble x s).cfg = s.cfg ∧
    (scramble x s).port = s.port ∧ (scramble x s).events = s.events ∧ (scramble x s).jobs = s.jobs ∧
    (scramble x s).cans = s.cans ∧ (scramble x s).stir = s.stir ∧ (scramble x s).pump = s.pump ∧
    (scramble x s).scale = s.scale ∧ (scramble x s).disp = s.disp ∧ (scramble x s).carriage = s.carriage ∧
    (scramble x s).lid = s.lid ∧ (scramble x s).shake = s.shake ∧ (scramble x s).line = s.line ∧
    (scramble x s).roster = s.roster ∧ (scramble x s).power = s.power ∧ (scramble x s).air = s.air ∧
    (scramble x s).mon = s.mon ∧ (scramble x s).completion = s.completion ∧ (scramble x s).pending = s.pending := by
  unfold scramble
  try dsimp only
  repeat' split
  all_goals simp

@[simp] theorem cutWrite_frame (s : State) :
    (cutWrite s).phase = s.phase ∧ (cutWrite s).inputs = s.inputs ∧ (cutWrite s).cfg = s.cfg ∧
    (cutWrite s).port = s.port ∧ (cutWrite s).events = s.events ∧ (cutWrite s).jobs = s.jobs ∧
    (cutWrite s).cans = s.cans ∧ (cutWrite s).stir = s.stir ∧ (cutWrite s).pump = s.pump ∧
    (cutWrite s).scale = s.scale ∧ (cutWrite s).disp = s.disp ∧ (cutWrite s).carriage = s.carriage ∧
    (cutWrite s).lid = s.lid ∧ (cutWrite s).shake = s.shake ∧ (cutWrite s).line = s.line ∧
    (cutWrite s).roster = s.roster ∧ (cutWrite s).power = s.power ∧ (cutWrite s).air = s.air ∧
    (cutWrite s).mon = s.mon ∧ (cutWrite s).completion = s.completion ∧ (cutWrite s).pending = s.pending := by
  unfold cutWrite
  try dsimp only
  repeat' split
  all_goals simp

@[simp] theorem goDown_frame (p : Phase) (s : State) :
    (goDown p s).inputs = s.inputs ∧ (goDown p s).store = s.store ∧ (goDown p s).free = s.free ∧
    (goDown p s).pending = s.pending := by
  unfold goDown
  try dsimp only
  repeat' split
  all_goals simp

@[simp] theorem resetStart_frame (s : State) :
    (resetStart s).inputs = s.inputs ∧ (resetStart s).store = s.store ∧ (resetStart s).free = s.free ∧
    (resetStart s).pending = s.pending := by
  unfold resetStart
  try dsimp only
  repeat' split
  all_goals simp

@[simp] theorem storeWritten_frame (agrees : Bool) (w : WriteJob) (s : State) :
    (storeWritten agrees w s).phase = s.phase ∧
    (storeWritten agrees w s).inputs = s.inputs ∧ (storeWritten agrees w s).cfg = s.cfg ∧ (storeWritten agrees w s).port = s.port ∧
    (storeWritten agrees w s).events = s.events ∧ (storeWritten agrees w s).jobs = s.jobs ∧ (storeWritten agrees w s).cans = s.cans ∧
    (storeWritten agrees w s).stir = s.stir ∧ (storeWritten agrees w s).pump = s.pump ∧ (storeWritten agrees w s).scale = s.scale ∧
    (storeWritten agrees w s).disp = s.disp ∧ (storeWritten agrees w s).carriage = s.carriage ∧
    (storeWritten agrees w s).lid = s.lid ∧ (storeWritten agrees w s).shake = s.shake ∧ (storeWritten agrees w s).line = s.line ∧
    (storeWritten agrees w s).roster = s.roster ∧ (storeWritten agrees w s).power = s.power ∧ (storeWritten agrees w s).air = s.air ∧
    (storeWritten agrees w s).mon = s.mon ∧ (storeWritten agrees w s).completion = s.completion ∧
    (storeWritten agrees w s).pending = s.pending := by
  unfold storeWritten
  try dsimp only
  repeat' split
  all_goals simp

@[simp] theorem endWrite_frame (agrees : Bool) (s : State) :
    (endWrite agrees s).inputs = s.inputs ∧ (endWrite agrees s).pending = s.pending := by
  unfold endWrite
  try dsimp only
  repeat' split
  all_goals simp

@[simp] theorem placeDisp_frame (s : State) :
    (placeDisp s).phase = s.phase ∧ (placeDisp s).inputs = s.inputs ∧ (placeDisp s).cfg = s.cfg ∧
    (placeDisp s).store = s.store ∧ (placeDisp s).port = s.port ∧ (placeDisp s).jobs = s.jobs ∧
    (placeDisp s).cans = s.cans ∧ (placeDisp s).stir = s.stir ∧ (placeDisp s).pump = s.pump ∧
    (placeDisp s).scale = s.scale ∧ (placeDisp s).carriage = s.carriage ∧ (placeDisp s).lid = s.lid ∧
    (placeDisp s).shake = s.shake ∧ (placeDisp s).line = s.line ∧ (placeDisp s).roster = s.roster ∧
    (placeDisp s).power = s.power ∧ (placeDisp s).air = s.air ∧ (placeDisp s).mon = s.mon ∧
    (placeDisp s).completion = s.completion ∧ (placeDisp s).free = s.free ∧ (placeDisp s).pending = s.pending ∧
    (placeDisp s).events.enables = s.events.enables := by
  unfold placeDisp
  try dsimp only
  repeat' split
  all_goals simp

@[simp] theorem placeLid_frame (s : State) :
    (placeLid s).phase = s.phase ∧ (placeLid s).inputs = s.inputs ∧ (placeLid s).cfg = s.cfg ∧
    (placeLid s).store = s.store ∧ (placeLid s).port = s.port ∧ (placeLid s).jobs = s.jobs ∧
    (placeLid s).cans = s.cans ∧ (placeLid s).stir = s.stir ∧ (placeLid s).pump = s.pump ∧
    (placeLid s).scale = s.scale ∧ (placeLid s).disp = s.disp ∧ (placeLid s).carriage = s.carriage ∧
    (placeLid s).shake = s.shake ∧ (placeLid s).line = s.line ∧ (placeLid s).roster = s.roster ∧
    (placeLid s).power = s.power ∧ (placeLid s).air = s.air ∧ (placeLid s).mon = s.mon ∧
    (placeLid s).completion = s.completion ∧ (placeLid s).free = s.free ∧ (placeLid s).pending = s.pending ∧
    (placeLid s).events.enables = s.events.enables := by
  unfold placeLid
  try dsimp only
  repeat' split
  all_goals simp

@[simp] theorem placeShake_frame (s : State) :
    (placeShake s).phase = s.phase ∧ (placeShake s).inputs = s.inputs ∧ (placeShake s).cfg = s.cfg ∧
    (placeShake s).store = s.store ∧ (placeShake s).port = s.port ∧ (placeShake s).jobs = s.jobs ∧
    (placeShake s).cans = s.cans ∧ (placeShake s).stir = s.stir ∧ (placeShake s).pump = s.pump ∧
    (placeShake s).scale = s.scale ∧ (placeShake s).disp = s.disp ∧ (placeShake s).carriage = s.carriage ∧
    (placeShake s).lid = s.lid ∧ (placeShake s).line = s.line ∧ (placeShake s).roster = s.roster ∧
    (placeShake s).power = s.power ∧ (placeShake s).air = s.air ∧ (placeShake s).mon = s.mon ∧
    (placeShake s).completion = s.completion ∧ (placeShake s).free = s.free ∧ (placeShake s).pending = s.pending ∧
    (placeShake s).events.enables = s.events.enables := by
  unfold placeShake
  try dsimp only
  repeat' split
  all_goals simp

@[simp] theorem startOffline_frame (s : State) :
    (startOffline s).phase = s.phase ∧ (startOffline s).inputs = s.inputs ∧ (startOffline s).cfg = s.cfg ∧
    (startOffline s).store = s.store ∧ (startOffline s).port = s.port ∧ (startOffline s).jobs = s.jobs ∧
    (startOffline s).cans = s.cans ∧ (startOffline s).stir = s.stir ∧ (startOffline s).pump = s.pump ∧
    (startOffline s).scale = s.scale ∧ (startOffline s).disp = s.disp ∧ (startOffline s).carriage = s.carriage ∧
    (startOffline s).lid = s.lid ∧ (startOffline s).shake = s.shake ∧ (startOffline s).line = s.line ∧
    (startOffline s).roster = s.roster ∧ (startOffline s).power = s.power ∧ (startOffline s).air = s.air ∧
    (startOffline s).completion = s.completion ∧ (startOffline s).free = s.free ∧
    (startOffline s).pending = s.pending ∧ (startOffline s).events.enables = s.events.enables := by
  unfold startOffline
  try dsimp only
  repeat' split
  all_goals simp

@[simp] theorem startOnline_frame (s : State) :
    (startOnline s).phase = s.phase ∧ (startOnline s).inputs = s.inputs ∧ (startOnline s).cfg = s.cfg ∧
    (startOnline s).store = s.store ∧ (startOnline s).port = s.port ∧ (startOnline s).jobs = s.jobs ∧
    (startOnline s).roster = s.roster ∧ (startOnline s).completion = s.completion ∧ (startOnline s).free = s.free ∧
    (startOnline s).pending = s.pending ∧ (startOnline s).events.enables = s.events.enables := by
  unfold startOnline
  try dsimp only
  repeat' split
  all_goals simp

@[simp] theorem startUp_frame (i : Inputs) (s : State) :
    (startUp i s).free = s.free ∧ (startUp i s).pending = s.pending := by
  unfold startUp
  try dsimp only
  repeat' split
  all_goals simp

@[simp] theorem tickStir_frame (s : State) :
    (tickStir s).phase = s.phase ∧ (tickStir s).inputs = s.inputs ∧ (tickStir s).cfg = s.cfg ∧
    (tickStir s).store = s.store ∧ (tickStir s).port = s.port ∧ (tickStir s).events = s.events ∧
    (tickStir s).jobs = s.jobs ∧ (tickStir s).cans = s.cans ∧ (tickStir s).pump = s.pump ∧
    (tickStir s).scale = s.scale ∧ (tickStir s).disp = s.disp ∧ (tickStir s).carriage = s.carriage ∧
    (tickStir s).lid = s.lid ∧ (tickStir s).shake = s.shake ∧ (tickStir s).line = s.line ∧
    (tickStir s).roster = s.roster ∧ (tickStir s).power = s.power ∧ (tickStir s).air = s.air ∧
    (tickStir s).mon = s.mon ∧ (tickStir s).completion = s.completion ∧ (tickStir s).free = s.free ∧
    (tickStir s).pending = s.pending := by
  unfold tickStir
  try dsimp only
  repeat' split
  all_goals simp

@[simp] theorem tickPump_frame (s : State) :
    (tickPump s).phase = s.phase ∧ (tickPump s).inputs = s.inputs ∧ (tickPump s).cfg = s.cfg ∧
    (tickPump s).store = s.store ∧ (tickPump s).port = s.port ∧ (tickPump s).events = s.events ∧
    (tickPump s).jobs = s.jobs ∧ (tickPump s).stir = s.stir ∧ (tickPump s).scale = s.scale ∧
    (tickPump s).disp = s.disp ∧ (tickPump s).carriage = s.carriage ∧ (tickPump s).lid = s.lid ∧
    (tickPump s).shake = s.shake ∧ (tickPump s).line = s.line ∧ (tickPump s).roster = s.roster ∧
    (tickPump s).power = s.power ∧ (tickPump s).air = s.air ∧ (tickPump s).mon = s.mon ∧
    (tickPump s).completion = s.completion ∧ (tickPump s).free = s.free ∧ (tickPump s).pending = s.pending := by
  unfold tickPump
  try dsimp only
  repeat' split
  all_goals simp

@[simp] theorem tickScale_frame (s : State) :
    (tickScale s).phase = s.phase ∧ (tickScale s).inputs = s.inputs ∧ (tickScale s).cfg = s.cfg ∧
    (tickScale s).store = s.store ∧ (tickScale s).port = s.port ∧ (tickScale s).events = s.events ∧
    (tickScale s).jobs = s.jobs ∧ (tickScale s).cans = s.cans ∧ (tickScale s).stir = s.stir ∧
    (tickScale s).pump = s.pump ∧ (tickScale s).disp = s.disp ∧ (tickScale s).carriage = s.carriage ∧
    (tickScale s).lid = s.lid ∧ (tickScale s).shake = s.shake ∧ (tickScale s).line = s.line ∧
    (tickScale s).roster = s.roster ∧ (tickScale s).power = s.power ∧ (tickScale s).air = s.air ∧
    (tickScale s).mon = s.mon ∧ (tickScale s).completion = s.completion ∧ (tickScale s).free = s.free ∧
    (tickScale s).pending = s.pending := by
  unfold tickScale
  try dsimp only
  repeat' split
  all_goals simp

@[simp] theorem tickCarriage_frame (s : State) :
    (tickCarriage s).phase = s.phase ∧ (tickCarriage s).inputs = s.inputs ∧ (tickCarriage s).cfg = s.cfg ∧
    (tickCarriage s).store = s.store ∧ (tickCarriage s).port = s.port ∧ (tickCarriage s).events = s.events ∧
    (tickCarriage s).jobs = s.jobs ∧ (tickCarriage s).cans = s.cans ∧ (tickCarriage s).stir = s.stir ∧
    (tickCarriage s).pump = s.pump ∧ (tickCarriage s).scale = s.scale ∧ (tickCarriage s).disp = s.disp ∧
    (tickCarriage s).lid = s.lid ∧ (tickCarriage s).shake = s.shake ∧ (tickCarriage s).line = s.line ∧
    (tickCarriage s).roster = s.roster ∧ (tickCarriage s).power = s.power ∧ (tickCarriage s).air = s.air ∧
    (tickCarriage s).mon = s.mon ∧ (tickCarriage s).completion = s.completion ∧ (tickCarriage s).free = s.free ∧
    (tickCarriage s).pending = s.pending := by
  unfold tickCarriage
  try dsimp only
  repeat' split
  all_goals simp

@[simp] theorem tickLid_frame (s : State) :
    (tickLid s).phase = s.phase ∧ (tickLid s).inputs = s.inputs ∧ (tickLid s).cfg = s.cfg ∧
    (tickLid s).store = s.store ∧ (tickLid s).port = s.port ∧ (tickLid s).events = s.events ∧
    (tickLid s).jobs = s.jobs ∧ (tickLid s).cans = s.cans ∧ (tickLid s).stir = s.stir ∧ (tickLid s).pump = s.pump ∧
    (tickLid s).scale = s.scale ∧ (tickLid s).disp = s.disp ∧ (tickLid s).carriage = s.carriage ∧
    (tickLid s).shake = s.shake ∧ (tickLid s).line = s.line ∧ (tickLid s).roster = s.roster ∧
    (tickLid s).power = s.power ∧ (tickLid s).air = s.air ∧ (tickLid s).mon = s.mon ∧
    (tickLid s).completion = s.completion ∧ (tickLid s).free = s.free ∧ (tickLid s).pending = s.pending := by
  unfold tickLid
  try dsimp only
  repeat' split
  all_goals simp

@[simp] theorem tickShake_frame (s : State) :
    (tickShake s).phase = s.phase ∧ (tickShake s).inputs = s.inputs ∧ (tickShake s).cfg = s.cfg ∧
    (tickShake s).store = s.store ∧ (tickShake s).port = s.port ∧ (tickShake s).events = s.events ∧
    (tickShake s).jobs = s.jobs ∧ (tickShake s).cans = s.cans ∧ (tickShake s).stir = s.stir ∧
    (tickShake s).pump = s.pump ∧ (tickShake s).scale = s.scale ∧ (tickShake s).disp = s.disp ∧
    (tickShake s).carriage = s.carriage ∧ (tickShake s).lid = s.lid ∧ (tickShake s).line = s.line ∧
    (tickShake s).roster = s.roster ∧ (tickShake s).power = s.power ∧ (tickShake s).air = s.air ∧
    (tickShake s).mon = s.mon ∧ (tickShake s).completion = s.completion ∧ (tickShake s).free = s.free ∧
    (tickShake s).pending = s.pending := by
  unfold tickShake
  try dsimp only
  repeat' split
  all_goals simp

@[simp] theorem tickLine_frame (s : State) :
    (tickLine s).phase = s.phase ∧ (tickLine s).inputs = s.inputs ∧ (tickLine s).cfg = s.cfg ∧
    (tickLine s).store = s.store ∧ (tickLine s).port = s.port ∧ (tickLine s).events = s.events ∧
    (tickLine s).jobs = s.jobs ∧ (tickLine s).cans = s.cans ∧ (tickLine s).stir = s.stir ∧
    (tickLine s).pump = s.pump ∧ (tickLine s).scale = s.scale ∧ (tickLine s).disp = s.disp ∧
    (tickLine s).carriage = s.carriage ∧ (tickLine s).lid = s.lid ∧ (tickLine s).shake = s.shake ∧
    (tickLine s).power = s.power ∧ (tickLine s).air = s.air ∧ (tickLine s).mon = s.mon ∧
    (tickLine s).completion = s.completion ∧ (tickLine s).free = s.free ∧ (tickLine s).pending = s.pending := by
  unfold tickLine
  try dsimp only
  repeat' split
  all_goals simp

@[simp] theorem tickMon_frame (s : State) :
    (tickMon s).phase = s.phase ∧ (tickMon s).inputs = s.inputs ∧ (tickMon s).cfg = s.cfg ∧
    (tickMon s).store = s.store ∧ (tickMon s).port = s.port ∧ (tickMon s).events = s.events ∧
    (tickMon s).jobs = s.jobs ∧ (tickMon s).cans = s.cans ∧ (tickMon s).stir = s.stir ∧ (tickMon s).pump = s.pump ∧
    (tickMon s).scale = s.scale ∧ (tickMon s).disp = s.disp ∧ (tickMon s).carriage = s.carriage ∧
    (tickMon s).lid = s.lid ∧ (tickMon s).shake = s.shake ∧ (tickMon s).line = s.line ∧
    (tickMon s).roster = s.roster ∧ (tickMon s).power = s.power ∧ (tickMon s).air = s.air ∧
    (tickMon s).completion = s.completion ∧ (tickMon s).free = s.free ∧ (tickMon s).pending = s.pending ∧
    (tickMon s).mon.estop = s.mon.estop := by
  unfold tickMon
  try dsimp only
  repeat' split
  all_goals simp

@[simp] theorem keepaliveLost_frame (s : State) :
    (keepaliveLost s).phase = s.phase ∧ (keepaliveLost s).inputs = s.inputs ∧ (keepaliveLost s).cfg = s.cfg ∧
    (keepaliveLost s).store = s.store ∧ (keepaliveLost s).port = s.port ∧ (keepaliveLost s).cans = s.cans ∧
    (keepaliveLost s).stir = s.stir ∧ (keepaliveLost s).pump = s.pump ∧ (keepaliveLost s).scale = s.scale ∧
    (keepaliveLost s).carriage = s.carriage ∧ (keepaliveLost s).lid = s.lid ∧ (keepaliveLost s).shake = s.shake ∧
    (keepaliveLost s).line = s.line ∧ (keepaliveLost s).roster = s.roster ∧ (keepaliveLost s).power = s.power ∧
    (keepaliveLost s).air = s.air ∧ (keepaliveLost s).completion = s.completion ∧ (keepaliveLost s).free = s.free ∧
    (keepaliveLost s).pending = s.pending ∧ (keepaliveLost s).mon.estop = s.mon.estop ∧
    (keepaliveLost s).events.enables = s.events.enables := by
  unfold keepaliveLost
  try dsimp only
  repeat' split
  all_goals simp

@[simp] theorem restartChecks_frame (s : State) :
    (restartChecks s).phase = s.phase ∧ (restartChecks s).inputs = s.inputs ∧ (restartChecks s).cfg = s.cfg ∧
    (restartChecks s).store = s.store ∧ (restartChecks s).port = s.port ∧ (restartChecks s).events = s.events ∧
    (restartChecks s).jobs = s.jobs ∧ (restartChecks s).cans = s.cans ∧ (restartChecks s).pump = s.pump ∧
    (restartChecks s).scale = s.scale ∧ (restartChecks s).disp = s.disp ∧ (restartChecks s).carriage = s.carriage ∧
    (restartChecks s).lid = s.lid ∧ (restartChecks s).shake = s.shake ∧ (restartChecks s).line = s.line ∧
    (restartChecks s).roster = s.roster ∧ (restartChecks s).power = s.power ∧ (restartChecks s).air = s.air ∧
    (restartChecks s).mon = s.mon ∧ (restartChecks s).completion = s.completion ∧ (restartChecks s).free = s.free ∧
    (restartChecks s).pending = s.pending := by
  unfold restartChecks
  try dsimp only
  repeat' split
  all_goals simp

@[simp] theorem ageStirs_frame (s : State) :
    (ageStirs s).phase = s.phase ∧ (ageStirs s).inputs = s.inputs ∧ (ageStirs s).cfg = s.cfg ∧
    (ageStirs s).store = s.store ∧ (ageStirs s).port = s.port ∧ (ageStirs s).events = s.events ∧
    (ageStirs s).jobs = s.jobs ∧ (ageStirs s).pump = s.pump ∧ (ageStirs s).scale = s.scale ∧
    (ageStirs s).disp = s.disp ∧ (ageStirs s).carriage = s.carriage ∧ (ageStirs s).lid = s.lid ∧
    (ageStirs s).shake = s.shake ∧ (ageStirs s).line = s.line ∧ (ageStirs s).roster = s.roster ∧
    (ageStirs s).power = s.power ∧ (ageStirs s).air = s.air ∧ (ageStirs s).mon = s.mon ∧
    (ageStirs s).completion = s.completion ∧ (ageStirs s).free = s.free ∧ (ageStirs s).pending = s.pending := by
  unfold ageStirs
  try dsimp only
  repeat' split
  all_goals simp

@[simp] theorem slowStir_frame (i : Slot) (s : State) :
    (slowStir i s).phase = s.phase ∧ (slowStir i s).cfg = s.cfg ∧ (slowStir i s).store = s.store ∧
    (slowStir i s).port = s.port ∧ (slowStir i s).line = s.line ∧ (slowStir i s).roster = s.roster ∧
    (slowStir i s).power = s.power ∧ (slowStir i s).air = s.air ∧ (slowStir i s).mon = s.mon ∧
    (slowStir i s).completion = s.completion ∧ (slowStir i s).free = s.free ∧ (slowStir i s).pending = s.pending ∧
    (slowStir i s).events.enables = s.events.enables := by
  unfold slowStir
  try dsimp only
  repeat' split
  all_goals simp

@[simp] theorem fastStir_frame (i : Slot) (s : State) :
    (fastStir i s).phase = s.phase ∧ (fastStir i s).cfg = s.cfg ∧ (fastStir i s).store = s.store ∧
    (fastStir i s).port = s.port ∧ (fastStir i s).line = s.line ∧ (fastStir i s).roster = s.roster ∧
    (fastStir i s).power = s.power ∧ (fastStir i s).air = s.air ∧ (fastStir i s).mon = s.mon ∧
    (fastStir i s).completion = s.completion ∧ (fastStir i s).free = s.free ∧ (fastStir i s).pending = s.pending ∧
    (fastStir i s).events.enables = s.events.enables := by
  unfold fastStir
  try dsimp only
  repeat' split
  all_goals simp

@[simp] theorem checkExpires_frame (i : Slot) (s : State) :
    (checkExpires i s).phase = s.phase ∧ (checkExpires i s).cfg = s.cfg ∧ (checkExpires i s).store = s.store ∧
    (checkExpires i s).port = s.port ∧ (checkExpires i s).line = s.line ∧ (checkExpires i s).roster = s.roster ∧
    (checkExpires i s).power = s.power ∧ (checkExpires i s).air = s.air ∧ (checkExpires i s).mon = s.mon ∧
    (checkExpires i s).completion = s.completion ∧ (checkExpires i s).free = s.free ∧
    (checkExpires i s).pending = s.pending ∧ (checkExpires i s).events.enables = s.events.enables := by
  unfold checkExpires
  try dsimp only
  repeat' split
  all_goals simp

@[simp] theorem runExpires_frame (i : Slot) (s : State) :
    (runExpires i s).phase = s.phase ∧ (runExpires i s).cfg = s.cfg ∧ (runExpires i s).store = s.store ∧
    (runExpires i s).port = s.port ∧ (runExpires i s).line = s.line ∧ (runExpires i s).roster = s.roster ∧
    (runExpires i s).power = s.power ∧ (runExpires i s).air = s.air ∧ (runExpires i s).mon = s.mon ∧
    (runExpires i s).completion = s.completion ∧ (runExpires i s).free = s.free ∧ (runExpires i s).pending = s.pending ∧
    (runExpires i s).events.enables = s.events.enables := by
  unfold runExpires
  try dsimp only
  repeat' split
  all_goals simp

@[simp] theorem pumpStalled_frame (i : Slot) (s : State) :
    (pumpStalled i s).phase = s.phase ∧ (pumpStalled i s).inputs = s.inputs ∧ (pumpStalled i s).cfg = s.cfg ∧
    (pumpStalled i s).store = s.store ∧ (pumpStalled i s).port = s.port ∧ (pumpStalled i s).carriage = s.carriage ∧
    (pumpStalled i s).roster = s.roster ∧ (pumpStalled i s).completion = s.completion ∧
    (pumpStalled i s).free = s.free ∧ (pumpStalled i s).pending = s.pending ∧
    (pumpStalled i s).mon.estop = s.mon.estop ∧ (pumpStalled i s).events.enables = s.events.enables := by
  unfold pumpStalled
  try dsimp only
  repeat' split
  all_goals simp

@[simp] theorem endSegment_frame (o : PumpOp) (s : State) :
    (endSegment o s).phase = s.phase ∧ (endSegment o s).inputs = s.inputs ∧ (endSegment o s).cfg = s.cfg ∧
    (endSegment o s).store = s.store ∧ (endSegment o s).port = s.port ∧ (endSegment o s).carriage = s.carriage ∧
    (endSegment o s).roster = s.roster ∧ (endSegment o s).completion = s.completion ∧
    (endSegment o s).free = s.free ∧ (endSegment o s).pending = s.pending ∧
    (endSegment o s).mon.estop = s.mon.estop ∧ (endSegment o s).events.enables = s.events.enables := by
  unfold endSegment
  try dsimp only
  repeat' split
  all_goals simp

@[simp] theorem segmentEnds_frame (s : State) :
    (segmentEnds s).phase = s.phase ∧ (segmentEnds s).inputs = s.inputs ∧ (segmentEnds s).cfg = s.cfg ∧
    (segmentEnds s).store = s.store ∧ (segmentEnds s).port = s.port ∧ (segmentEnds s).carriage = s.carriage ∧
    (segmentEnds s).roster = s.roster ∧ (segmentEnds s).completion = s.completion ∧ (segmentEnds s).free = s.free ∧
    (segmentEnds s).pending = s.pending ∧ (segmentEnds s).mon.estop = s.mon.estop ∧
    (segmentEnds s).events.enables = s.events.enables := by
  unfold segmentEnds
  try dsimp only
  repeat' split
  all_goals simp

@[simp] theorem saturatedSample_frame (raw : Int) (s : State) :
    (saturatedSample raw s).phase = s.phase ∧ (saturatedSample raw s).inputs = s.inputs ∧
    (saturatedSample raw s).cfg = s.cfg ∧ (saturatedSample raw s).store = s.store ∧
    (saturatedSample raw s).port = s.port ∧ (saturatedSample raw s).events = s.events ∧
    (saturatedSample raw s).jobs = s.jobs ∧ (saturatedSample raw s).cans = s.cans ∧
    (saturatedSample raw s).stir = s.stir ∧ (saturatedSample raw s).pump = s.pump ∧
    (saturatedSample raw s).disp = s.disp ∧ (saturatedSample raw s).carriage = s.carriage ∧
    (saturatedSample raw s).lid = s.lid ∧ (saturatedSample raw s).shake = s.shake ∧
    (saturatedSample raw s).line = s.line ∧ (saturatedSample raw s).roster = s.roster ∧
    (saturatedSample raw s).power = s.power ∧ (saturatedSample raw s).air = s.air ∧
    (saturatedSample raw s).mon = s.mon ∧ (saturatedSample raw s).completion = s.completion ∧
    (saturatedSample raw s).free = s.free ∧ (saturatedSample raw s).pending = s.pending := by
  unfold saturatedSample
  try dsimp only
  repeat' split
  all_goals simp

@[simp] theorem reportCrossing_frame (above : Bool) (s : State) :
    (reportCrossing above s).phase = s.phase ∧ (reportCrossing above s).inputs = s.inputs ∧
    (reportCrossing above s).cfg = s.cfg ∧ (reportCrossing above s).store = s.store ∧
    (reportCrossing above s).port = s.port ∧ (reportCrossing above s).carriage = s.carriage ∧
    (reportCrossing above s).roster = s.roster ∧ (reportCrossing above s).free = s.free ∧
    (reportCrossing above s).pending = s.pending ∧ (reportCrossing above s).mon.estop = s.mon.estop ∧
    (reportCrossing above s).events.enables = s.events.enables := by
  unfold reportCrossing
  try dsimp only
  repeat' split
  all_goals simp

@[simp] theorem testThreshold_frame (net : Int) (s : State) :
    (testThreshold net s).phase = s.phase ∧ (testThreshold net s).inputs = s.inputs ∧
    (testThreshold net s).cfg = s.cfg ∧ (testThreshold net s).store = s.store ∧
    (testThreshold net s).port = s.port ∧ (testThreshold net s).carriage = s.carriage ∧
    (testThreshold net s).roster = s.roster ∧ (testThreshold net s).free = s.free ∧
    (testThreshold net s).pending = s.pending ∧ (testThreshold net s).mon.estop = s.mon.estop ∧
    (testThreshold net s).events.enables = s.events.enables := by
  unfold testThreshold
  try dsimp only
  repeat' split
  all_goals simp

@[simp] theorem produceReading_frame (s : State) :
    (produceReading s).phase = s.phase ∧ (produceReading s).inputs = s.inputs ∧ (produceReading s).cfg = s.cfg ∧
    (produceReading s).store = s.store ∧ (produceReading s).port = s.port ∧
    (produceReading s).carriage = s.carriage ∧ (produceReading s).lid = s.lid ∧ (produceReading s).shake = s.shake ∧
    (produceReading s).line = s.line ∧ (produceReading s).roster = s.roster ∧ (produceReading s).power = s.power ∧
    (produceReading s).air = s.air ∧ (produceReading s).mon = s.mon ∧ (produceReading s).completion = s.completion ∧
    (produceReading s).free = s.free ∧ (produceReading s).pending = s.pending ∧
    (produceReading s).events.enables = s.events.enables := by
  unfold produceReading
  try dsimp only
  repeat' split
  all_goals simp

@[simp] theorem offerSample_frame (net : Int) (s : State) :
    (offerSample net s).phase = s.phase ∧ (offerSample net s).inputs = s.inputs ∧ (offerSample net s).cfg = s.cfg ∧
    (offerSample net s).store = s.store ∧ (offerSample net s).port = s.port ∧
    (offerSample net s).carriage = s.carriage ∧ (offerSample net s).lid = s.lid ∧
    (offerSample net s).shake = s.shake ∧ (offerSample net s).line = s.line ∧
    (offerSample net s).roster = s.roster ∧ (offerSample net s).power = s.power ∧ (offerSample net s).air = s.air ∧
    (offerSample net s).mon = s.mon ∧ (offerSample net s).completion = s.completion ∧
    (offerSample net s).free = s.free ∧ (offerSample net s).pending = s.pending ∧
    (offerSample net s).events.enables = s.events.enables := by
  unfold offerSample
  try dsimp only
  repeat' split
  all_goals simp

@[simp] theorem takeSample_frame (raw : Int) (s : State) :
    (takeSample raw s).phase = s.phase ∧ (takeSample raw s).inputs = s.inputs ∧ (takeSample raw s).cfg = s.cfg ∧
    (takeSample raw s).store = s.store ∧ (takeSample raw s).port = s.port ∧
    (takeSample raw s).carriage = s.carriage ∧ (takeSample raw s).roster = s.roster ∧
    (takeSample raw s).free = s.free ∧ (takeSample raw s).pending = s.pending ∧
    (takeSample raw s).mon.estop = s.mon.estop ∧ (takeSample raw s).events.enables = s.events.enables := by
  unfold takeSample
  try dsimp only
  repeat' split
  all_goals simp

@[simp] theorem settleExpires_frame (s : State) :
    (settleExpires s).phase = s.phase ∧ (settleExpires s).inputs = s.inputs ∧ (settleExpires s).cfg = s.cfg ∧
    (settleExpires s).store = s.store ∧ (settleExpires s).port = s.port ∧ (settleExpires s).jobs = s.jobs ∧
    (settleExpires s).carriage = s.carriage ∧ (settleExpires s).roster = s.roster ∧
    (settleExpires s).completion = s.completion ∧ (settleExpires s).free = s.free ∧
    (settleExpires s).pending = s.pending ∧ (settleExpires s).mon.estop = s.mon.estop ∧
    (settleExpires s).events.enables = s.events.enables := by
  unfold settleExpires
  try dsimp only
  repeat' split
  all_goals simp

@[simp] theorem dispTinOn_frame (s : State) :
    (dispTinOn s).phase = s.phase ∧ (dispTinOn s).inputs = s.inputs ∧ (dispTinOn s).cfg = s.cfg ∧
    (dispTinOn s).store = s.store ∧ (dispTinOn s).port = s.port ∧ (dispTinOn s).jobs = s.jobs ∧
    (dispTinOn s).cans = s.cans ∧ (dispTinOn s).stir = s.stir ∧ (dispTinOn s).pump = s.pump ∧
    (dispTinOn s).carriage = s.carriage ∧ (dispTinOn s).lid = s.lid ∧ (dispTinOn s).shake = s.shake ∧
    (dispTinOn s).line = s.line ∧ (dispTinOn s).roster = s.roster ∧ (dispTinOn s).power = s.power ∧
    (dispTinOn s).air = s.air ∧ (dispTinOn s).mon = s.mon ∧ (dispTinOn s).completion = s.completion ∧
    (dispTinOn s).free = s.free ∧ (dispTinOn s).pending = s.pending ∧
    (dispTinOn s).events.enables = s.events.enables := by
  unfold dispTinOn
  try dsimp only
  repeat' split
  all_goals simp

@[simp] theorem heldTinOff_frame (s : State) :
    (heldTinOff s).phase = s.phase ∧ (heldTinOff s).inputs = s.inputs ∧ (heldTinOff s).cfg = s.cfg ∧
    (heldTinOff s).store = s.store ∧ (heldTinOff s).port = s.port ∧ (heldTinOff s).carriage = s.carriage ∧
    (heldTinOff s).roster = s.roster ∧ (heldTinOff s).free = s.free ∧ (heldTinOff s).pending = s.pending ∧
    (heldTinOff s).mon.estop = s.mon.estop ∧ (heldTinOff s).events.enables = s.events.enables := by
  unfold heldTinOff
  try dsimp only
  repeat' split
  all_goals simp

@[simp] theorem cupLifted_frame (s : State) :
    (cupLifted s).phase = s.phase ∧ (cupLifted s).inputs = s.inputs ∧ (cupLifted s).cfg = s.cfg ∧
    (cupLifted s).store = s.store ∧ (cupLifted s).port = s.port ∧ (cupLifted s).events = s.events ∧
    (cupLifted s).jobs = s.jobs ∧ (cupLifted s).cans = s.cans ∧ (cupLifted s).stir = s.stir ∧
    (cupLifted s).pump = s.pump ∧ (cupLifted s).carriage = s.carriage ∧ (cupLifted s).lid = s.lid ∧
    (cupLifted s).shake = s.shake ∧ (cupLifted s).line = s.line ∧ (cupLifted s).roster = s.roster ∧
    (cupLifted s).power = s.power ∧ (cupLifted s).air = s.air ∧ (cupLifted s).mon = s.mon ∧
    (cupLifted s).completion = s.completion ∧ (cupLifted s).free = s.free ∧ (cupLifted s).pending = s.pending := by
  unfold cupLifted
  try dsimp only
  repeat' split
  all_goals simp

@[simp] theorem dispTinOff_frame (s : State) :
    (dispTinOff s).phase = s.phase ∧ (dispTinOff s).inputs = s.inputs ∧ (dispTinOff s).cfg = s.cfg ∧
    (dispTinOff s).store = s.store ∧ (dispTinOff s).port = s.port ∧ (dispTinOff s).carriage = s.carriage ∧
    (dispTinOff s).roster = s.roster ∧ (dispTinOff s).free = s.free ∧ (dispTinOff s).pending = s.pending ∧
    (dispTinOff s).mon.estop = s.mon.estop ∧ (dispTinOff s).events.enables = s.events.enables := by
  unfold dispTinOff
  try dsimp only
  repeat' split
  all_goals simp

@[simp] theorem arrivalSensed_frame (s : State) :
    (arrivalSensed s).phase = s.phase ∧ (arrivalSensed s).inputs = s.inputs ∧ (arrivalSensed s).cfg = s.cfg ∧
    (arrivalSensed s).store = s.store ∧ (arrivalSensed s).port = s.port ∧ (arrivalSensed s).jobs = s.jobs ∧
    (arrivalSensed s).cans = s.cans ∧ (arrivalSensed s).stir = s.stir ∧ (arrivalSensed s).pump = s.pump ∧
    (arrivalSensed s).roster = s.roster ∧ (arrivalSensed s).mon = s.mon ∧
    (arrivalSensed s).completion = s.completion ∧ (arrivalSensed s).free = s.free ∧
    (arrivalSensed s).pending = s.pending ∧ (arrivalSensed s).events.enables = s.events.enables := by
  unfold arrivalSensed
  try dsimp only
  repeat' split
  all_goals simp

@[simp] theorem moveJams_frame (s : State) :
    (moveJams s).phase = s.phase ∧ (moveJams s).inputs = s.inputs ∧ (moveJams s).cfg = s.cfg ∧
    (moveJams s).store = s.store ∧ (moveJams s).port = s.port ∧ (moveJams s).jobs = s.jobs ∧
    (moveJams s).roster = s.roster ∧ (moveJams s).completion = s.completion ∧ (moveJams s).free = s.free ∧
    (moveJams s).pending = s.pending ∧ (moveJams s).mon.estop = s.mon.estop ∧
    (moveJams s).events.enables = s.events.enables := by
  unfold moveJams
  try dsimp only
  repeat' split
  all_goals simp

@[simp] theorem homeSensed_frame (s : State) :
    (homeSensed s).phase = s.phase ∧ (homeSensed s).inputs = s.inputs ∧ (homeSensed s).cfg = s.cfg ∧
    (homeSensed s).store = s.store ∧ (homeSensed s).port = s.port ∧ (homeSensed s).events = s.events ∧
    (homeSensed s).jobs = s.jobs ∧ (homeSensed s).cans = s.cans ∧ (homeSensed s).stir = s.stir ∧
    (homeSensed s).pump = s.pump ∧ (homeSensed s).disp = s.disp ∧ (homeSensed s).lid = s.lid ∧
    (homeSensed s).shake = s.shake ∧ (homeSensed s).line = s.line ∧ (homeSensed s).roster = s.roster ∧
    (homeSensed s).power = s.power ∧ (homeSensed s).air = s.air ∧ (homeSensed s).mon = s.mon ∧
    (homeSensed s).completion = s.completion ∧ (homeSensed s).free = s.free ∧ (homeSensed s).pending = s.pending := by
  unfold homeSensed
  try dsimp only
  repeat' split
  all_goals simp

@[simp] theorem strokeFails_frame (k : FaultKind) (s : State) :
    (strokeFails k s).phase = s.phase ∧ (strokeFails k s).inputs = s.inputs ∧ (strokeFails k s).cfg = s.cfg ∧
    (strokeFails k s).store = s.store ∧ (strokeFails k s).port = s.port ∧ (strokeFails k s).jobs = s.jobs ∧
    (strokeFails k s).carriage = s.carriage ∧ (strokeFails k s).roster = s.roster ∧
    (strokeFails k s).completion = s.completion ∧ (strokeFails k s).free = s.free ∧
    (strokeFails k s).pending = s.pending ∧ (strokeFails k s).mon.estop = s.mon.estop ∧
    (strokeFails k s).events.enables = s.events.enables := by
  unfold strokeFails
  try dsimp only
  repeat' split
  all_goals simp

@[simp] theorem seatedSensed_frame (s : State) :
    (seatedSensed s).phase = s.phase ∧ (seatedSensed s).inputs = s.inputs ∧ (seatedSensed s).cfg = s.cfg ∧
    (seatedSensed s).store = s.store ∧ (seatedSensed s).port = s.port ∧ (seatedSensed s).jobs = s.jobs ∧
    (seatedSensed s).carriage = s.carriage ∧ (seatedSensed s).roster = s.roster ∧
    (seatedSensed s).completion = s.completion ∧ (seatedSensed s).free = s.free ∧
    (seatedSensed s).pending = s.pending ∧ (seatedSensed s).mon.estop = s.mon.estop ∧
    (seatedSensed s).events.enables = s.events.enables := by
  unfold seatedSensed
  try dsimp only
  repeat' split
  all_goals simp

@[simp] theorem seatExpires_frame (s : State) :
    (seatExpires s).phase = s.phase ∧ (seatExpires s).inputs = s.inputs ∧ (seatExpires s).cfg = s.cfg ∧
    (seatExpires s).store = s.store ∧ (seatExpires s).port = s.port ∧ (seatExpires s).jobs = s.jobs ∧
    (seatExpires s).carriage = s.carriage ∧ (seatExpires s).roster = s.roster ∧
    (seatExpires s).completion = s.completion ∧ (seatExpires s).free = s.free ∧
    (seatExpires s).pending = s.pending ∧ (seatExpires s).mon.estop = s.mon.estop ∧
    (seatExpires s).events.enables = s.events.enables := by
  unfold seatExpires
  try dsimp only
  repeat' split
  all_goals simp

@[simp] theorem pressHomeSensed_frame (s : State) :
    (pressHomeSensed s).phase = s.phase ∧ (pressHomeSensed s).inputs = s.inputs ∧ (pressHomeSensed s).cfg = s.cfg ∧
    (pressHomeSensed s).store = s.store ∧ (pressHomeSensed s).port = s.port ∧ (pressHomeSensed s).jobs = s.jobs ∧
    (pressHomeSensed s).cans = s.cans ∧ (pressHomeSensed s).stir = s.stir ∧ (pressHomeSensed s).pump = s.pump ∧
    (pressHomeSensed s).scale = s.scale ∧ (pressHomeSensed s).disp = s.disp ∧
    (pressHomeSensed s).carriage = s.carriage ∧ (pressHomeSensed s).roster = s.roster ∧
    (pressHomeSensed s).mon = s.mon ∧ (pressHomeSensed s).free = s.free ∧ (pressHomeSensed s).pending = s.pending ∧
    (pressHomeSensed s).events.enables = s.events.enables := by
  unfold pressHomeSensed
  try dsimp only
  repeat' split
  all_goals simp

@[simp] theorem homeExpires_frame (s : State) :
    (homeExpires s).phase = s.phase ∧ (homeExpires s).inputs = s.inputs ∧ (homeExpires s).cfg = s.cfg ∧
    (homeExpires s).store = s.store ∧ (homeExpires s).port = s.port ∧ (homeExpires s).jobs = s.jobs ∧
    (homeExpires s).carriage = s.carriage ∧ (homeExpires s).roster = s.roster ∧
    (homeExpires s).completion = s.completion ∧ (homeExpires s).free = s.free ∧
    (homeExpires s).pending = s.pending ∧ (homeExpires s).mon.estop = s.mon.estop ∧
    (homeExpires s).events.enables = s.events.enables := by
  unfold homeExpires
  try dsimp only
  repeat' split
  all_goals simp

@[simp] theorem guardChanged_frame (isOpen : Bool) (s : State) :
    (guardChanged isOpen s).phase = s.phase ∧ (guardChanged isOpen s).inputs = s.inputs ∧
    (guardChanged isOpen s).cfg = s.cfg ∧ (guardChanged isOpen s).store = s.store ∧
    (guardChanged isOpen s).port = s.port ∧ (guardChanged isOpen s).jobs = s.jobs ∧
    (guardChanged isOpen s).carriage = s.carriage ∧ (guardChanged isOpen s).roster = s.roster ∧
    (guardChanged isOpen s).completion = s.completion ∧ (guardChanged isOpen s).free = s.free ∧
    (guardChanged isOpen s).pending = s.pending ∧ (guardChanged isOpen s).mon.estop = s.mon.estop ∧
    (guardChanged isOpen s).events.enables = s.events.enables := by
  unfold guardChanged
  try dsimp only
  repeat' split
  all_goals simp

@[simp] theorem lidTinOff_frame (s : State) :
    (lidTinOff s).phase = s.phase ∧ (lidTinOff s).inputs = s.inputs ∧ (lidTinOff s).cfg = s.cfg ∧
    (lidTinOff s).store = s.store ∧ (lidTinOff s).port = s.port ∧ (lidTinOff s).jobs = s.jobs ∧
    (lidTinOff s).cans = s.cans ∧ (lidTinOff s).stir = s.stir ∧ (lidTinOff s).pump = s.pump ∧
    (lidTinOff s).scale = s.scale ∧ (lidTinOff s).disp = s.disp ∧ (lidTinOff s).carriage = s.carriage ∧
    (lidTinOff s).shake = s.shake ∧ (lidTinOff s).roster = s.roster ∧ (lidTinOff s).mon = s.mon ∧
    (lidTinOff s).free = s.free ∧ (lidTinOff s).pending = s.pending ∧
    (lidTinOff s).events.enables = s.events.enables := by
  unfold lidTinOff
  try dsimp only
  repeat' split
  all_goals simp

@[simp] theorem clampSensed_frame (closed : Bool) (s : State) :
    (clampSensed closed s).phase = s.phase ∧ (clampSensed closed s).inputs = s.inputs ∧
    (clampSensed closed s).cfg = s.cfg ∧ (clampSensed closed s).store = s.store ∧
    (clampSensed closed s).port = s.port ∧ (clampSensed closed s).events = s.events ∧
    (clampSensed closed s).jobs = s.jobs ∧ (clampSensed closed s).cans = s.cans ∧
    (clampSensed closed s).stir = s.stir ∧ (clampSensed closed s).pump = s.pump ∧
    (clampSensed closed s).scale = s.scale ∧ (clampSensed closed s).disp = s.disp ∧
    (clampSensed closed s).carriage = s.carriage ∧ (clampSensed closed s).roster = s.roster ∧
    (clampSensed closed s).mon = s.mon ∧ (clampSensed closed s).completion = s.completion ∧
    (clampSensed closed s).free = s.free ∧ (clampSensed closed s).pending = s.pending := by
  unfold clampSensed
  try dsimp only
  repeat' split
  all_goals simp

@[simp] theorem clampExpires_frame (s : State) :
    (clampExpires s).phase = s.phase ∧ (clampExpires s).inputs = s.inputs ∧ (clampExpires s).cfg = s.cfg ∧
    (clampExpires s).store = s.store ∧ (clampExpires s).port = s.port ∧ (clampExpires s).jobs = s.jobs ∧
    (clampExpires s).carriage = s.carriage ∧ (clampExpires s).roster = s.roster ∧
    (clampExpires s).completion = s.completion ∧ (clampExpires s).free = s.free ∧
    (clampExpires s).pending = s.pending ∧ (clampExpires s).mon.estop = s.mon.estop ∧
    (clampExpires s).events.enables = s.events.enables := by
  unfold clampExpires
  try dsimp only
  repeat' split
  all_goals simp

@[simp] theorem judgeSpeed_frame (period : Nat) (s : State) :
    (judgeSpeed period s).phase = s.phase ∧ (judgeSpeed period s).inputs = s.inputs ∧
    (judgeSpeed period s).cfg = s.cfg ∧ (judgeSpeed period s).store = s.store ∧
    (judgeSpeed period s).port = s.port ∧ (judgeSpeed period s).jobs = s.jobs ∧
    (judgeSpeed period s).carriage = s.carriage ∧ (judgeSpeed period s).roster = s.roster ∧
    (judgeSpeed period s).completion = s.completion ∧ (judgeSpeed period s).free = s.free ∧
    (judgeSpeed period s).pending = s.pending ∧ (judgeSpeed period s).mon.estop = s.mon.estop ∧
    (judgeSpeed period s).events.enables = s.events.enables := by
  unfold judgeSpeed
  try dsimp only
  repeat' split
  all_goals simp

@[simp] theorem measure_frame (period : Nat) (s : State) :
    (Machine.measure period s).phase = s.phase ∧ (Machine.measure period s).inputs = s.inputs ∧
    (Machine.measure period s).cfg = s.cfg ∧ (Machine.measure period s).store = s.store ∧
    (Machine.measure period s).port = s.port ∧ (Machine.measure period s).jobs = s.jobs ∧
    (Machine.measure period s).carriage = s.carriage ∧ (Machine.measure period s).roster = s.roster ∧
    (Machine.measure period s).completion = s.completion ∧ (Machine.measure period s).free = s.free ∧
    (Machine.measure period s).pending = s.pending ∧ (Machine.measure period s).mon.estop = s.mon.estop ∧
    (Machine.measure period s).events.enables = s.events.enables := by
  unfold Machine.measure
  try dsimp only
  repeat' split
  all_goals simp

@[simp] theorem saturatedSpeed_frame (s : State) :
    (saturatedSpeed s).phase = s.phase ∧ (saturatedSpeed s).inputs = s.inputs ∧ (saturatedSpeed s).cfg = s.cfg ∧
    (saturatedSpeed s).store = s.store ∧ (saturatedSpeed s).port = s.port ∧ (saturatedSpeed s).jobs = s.jobs ∧
    (saturatedSpeed s).carriage = s.carriage ∧ (saturatedSpeed s).roster = s.roster ∧
    (saturatedSpeed s).free = s.free ∧ (saturatedSpeed s).pending = s.pending ∧
    (saturatedSpeed s).mon.estop = s.mon.estop ∧ (saturatedSpeed s).events.enables = s.events.enables := by
  unfold saturatedSpeed
  try dsimp only
  repeat' split
  all_goals simp

@[simp] theorem secondRun_frame (s : State) :
    (secondRun s).phase = s.phase ∧ (secondRun s).inputs = s.inputs ∧ (secondRun s).cfg = s.cfg ∧
    (secondRun s).store = s.store ∧ (secondRun s).port = s.port ∧ (secondRun s).events = s.events ∧
    (secondRun s).jobs = s.jobs ∧ (secondRun s).cans = s.cans ∧ (secondRun s).stir = s.stir ∧
    (secondRun s).pump = s.pump ∧ (secondRun s).scale = s.scale ∧ (secondRun s).disp = s.disp ∧
    (secondRun s).carriage = s.carriage ∧ (secondRun s).lid = s.lid ∧ (secondRun s).line = s.line ∧
    (secondRun s).roster = s.roster ∧ (secondRun s).power = s.power ∧ (secondRun s).air = s.air ∧
    (secondRun s).mon = s.mon ∧ (secondRun s).completion = s.completion ∧ (secondRun s).free = s.free ∧
    (secondRun s).pending = s.pending := by
  unfold secondRun
  try dsimp only
  repeat' split
  all_goals simp

@[simp] theorem runEnds_frame (s : State) :
    (runEnds s).phase = s.phase ∧ (runEnds s).inputs = s.inputs ∧ (runEnds s).cfg = s.cfg ∧
    (runEnds s).store = s.store ∧ (runEnds s).port = s.port ∧ (runEnds s).events = s.events ∧
    (runEnds s).jobs = s.jobs ∧ (runEnds s).cans = s.cans ∧ (runEnds s).stir = s.stir ∧ (runEnds s).pump = s.pump ∧
    (runEnds s).disp = s.disp ∧ (runEnds s).carriage = s.carriage ∧ (runEnds s).lid = s.lid ∧
    (runEnds s).line = s.line ∧ (runEnds s).roster = s.roster ∧ (runEnds s).power = s.power ∧
    (runEnds s).air = s.air ∧ (runEnds s).mon = s.mon ∧ (runEnds s).completion = s.completion ∧
    (runEnds s).free = s.free ∧ (runEnds s).pending = s.pending := by
  unfold runEnds
  try dsimp only
  repeat' split
  all_goals simp

@[simp] theorem shakeTinOff_frame (s : State) :
    (shakeTinOff s).phase = s.phase ∧ (shakeTinOff s).inputs = s.inputs ∧ (shakeTinOff s).cfg = s.cfg ∧
    (shakeTinOff s).store = s.store ∧ (shakeTinOff s).port = s.port ∧ (shakeTinOff s).jobs = s.jobs ∧
    (shakeTinOff s).cans = s.cans ∧ (shakeTinOff s).stir = s.stir ∧ (shakeTinOff s).pump = s.pump ∧
    (shakeTinOff s).disp = s.disp ∧ (shakeTinOff s).carriage = s.carriage ∧ (shakeTinOff s).lid = s.lid ∧
    (shakeTinOff s).roster = s.roster ∧ (shakeTinOff s).mon = s.mon ∧ (shakeTinOff s).free = s.free ∧
    (shakeTinOff s).pending = s.pending ∧ (shakeTinOff s).events.enables = s.events.enables := by
  unfold shakeTinOff
  try dsimp only
  repeat' split
  all_goals simp

@[simp] theorem loseArbitration_frame (s : State) :
    (loseArbitration s).phase = s.phase ∧ (loseArbitration s).inputs = s.inputs ∧ (loseArbitration s).cfg = s.cfg ∧
    (loseArbitration s).store = s.store ∧ (loseArbitration s).port = s.port ∧ (loseArbitration s).jobs = s.jobs ∧
    (loseArbitration s).cans = s.cans ∧ (loseArbitration s).stir = s.stir ∧ (loseArbitration s).pump = s.pump ∧
    (loseArbitration s).scale = s.scale ∧ (loseArbitration s).disp = s.disp ∧
    (loseArbitration s).carriage = s.carriage ∧ (loseArbitration s).lid = s.lid ∧
    (loseArbitration s).shake = s.shake ∧ (loseArbitration s).roster = s.roster ∧ (loseArbitration s).mon = s.mon ∧
    (loseArbitration s).completion = s.completion ∧ (loseArbitration s).free = s.free ∧
    (loseArbitration s).pending = s.pending ∧ (loseArbitration s).events.enables = s.events.enables := by
  unfold loseArbitration
  try dsimp only
  repeat' split
  all_goals simp

@[simp] theorem transmitFails_frame (s : State) :
    (transmitFails s).phase = s.phase ∧ (transmitFails s).inputs = s.inputs ∧ (transmitFails s).cfg = s.cfg ∧
    (transmitFails s).store = s.store ∧ (transmitFails s).port = s.port ∧ (transmitFails s).jobs = s.jobs ∧
    (transmitFails s).cans = s.cans ∧ (transmitFails s).stir = s.stir ∧ (transmitFails s).pump = s.pump ∧
    (transmitFails s).scale = s.scale ∧ (transmitFails s).disp = s.disp ∧ (transmitFails s).carriage = s.carriage ∧
    (transmitFails s).lid = s.lid ∧ (transmitFails s).shake = s.shake ∧ (transmitFails s).roster = s.roster ∧
    (transmitFails s).mon = s.mon ∧ (transmitFails s).completion = s.completion ∧ (transmitFails s).free = s.free ∧
    (transmitFails s).pending = s.pending ∧ (transmitFails s).events.enables = s.events.enables := by
  unfold transmitFails
  try dsimp only
  repeat' split
  all_goals simp

@[simp] theorem frameEnds_frame (s : State) :
    (frameEnds s).phase = s.phase ∧ (frameEnds s).inputs = s.inputs ∧ (frameEnds s).cfg = s.cfg ∧
    (frameEnds s).store = s.store ∧ (frameEnds s).port = s.port ∧ (frameEnds s).jobs = s.jobs ∧
    (frameEnds s).cans = s.cans ∧ (frameEnds s).stir = s.stir ∧ (frameEnds s).pump = s.pump ∧
    (frameEnds s).scale = s.scale ∧ (frameEnds s).disp = s.disp ∧ (frameEnds s).carriage = s.carriage ∧
    (frameEnds s).roster = s.roster ∧ (frameEnds s).mon = s.mon ∧ (frameEnds s).completion = s.completion ∧
    (frameEnds s).free = s.free ∧ (frameEnds s).pending = s.pending ∧
    (frameEnds s).events.enables = s.events.enables := by
  unfold frameEnds
  try dsimp only
  repeat' split
  all_goals simp

@[simp] theorem waitExpires_frame (p : Pool) (s : State) :
    (waitExpires p s).phase = s.phase ∧ (waitExpires p s).inputs = s.inputs ∧ (waitExpires p s).cfg = s.cfg ∧
    (waitExpires p s).store = s.store ∧ (waitExpires p s).port = s.port ∧ (waitExpires p s).jobs = s.jobs ∧
    (waitExpires p s).cans = s.cans ∧ (waitExpires p s).stir = s.stir ∧ (waitExpires p s).pump = s.pump ∧
    (waitExpires p s).scale = s.scale ∧ (waitExpires p s).disp = s.disp ∧ (waitExpires p s).carriage = s.carriage ∧
    (waitExpires p s).lid = s.lid ∧ (waitExpires p s).shake = s.shake ∧ (waitExpires p s).line = s.line ∧
    (waitExpires p s).roster = s.roster ∧ (waitExpires p s).mon = s.mon ∧
    (waitExpires p s).completion = s.completion ∧ (waitExpires p s).free = s.free ∧
    (waitExpires p s).pending = s.pending ∧ (waitExpires p s).events.enables = s.events.enables := by
  unfold waitExpires
  try dsimp only
  repeat' split
  all_goals simp

end Sys2Proof.Laws
end

