-- ==== Sys2Proof/Laws/Image.lean ====
section
/-! SUPPORT. What the judgement of a stored sector finds (R198, stage 1): the check code is linear, the pattern of a flipped
bit is a power of the generator's step, and no two of a sector's patterns are equal or differ by one. -/

namespace Sys2Proof.Laws

open Sys2Proof.Machine

/-! ## The step of the code is linear -/

/-- A step of the register with no data. -/
def crcShift (d : BitVec 16) : BitVec 16 := crcBit d false

theorem crcBit_xor (r d : BitVec 16) (a b : Bool) : crcBit (r ^^^ d) (a ^^ b) = crcBit r a ^^^ crcBit d b := by
  unfold crcBit
  rw [BitVec.msb_xor, BitVec.shiftLeft_xor_distrib]
  have h (x y z : BitVec 16) : x ^^^ y ^^^ z = x ^^^ z ^^^ y := by ac_rfl
  have h' (x y z : BitVec 16) : x ^^^ z ^^^ (y ^^^ z) = x ^^^ y := by
    rw [← h, BitVec.xor_assoc, BitVec.xor_assoc, BitVec.xor_self, BitVec.xor_zero]
  cases r.msb <;> cases d.msb <;> cases a <;> cases b <;> simp [h', h, BitVec.xor_assoc]

theorem crcByte_xor (r d : BitVec 16) (a b : Byte) : crcByte (r ^^^ d) (a ^^^ b) = crcByte r a ^^^ crcByte d b := by
  simp only [crcByte, List.foldl_cons, List.foldl_nil, BitVec.getLsbD_xor, crcBit_xor]

theorem withNumeral_eq {α : Type} (r : BitVec 16) (k : BitVec 16 → α) : withNumeral r k = k r := by
  unfold withNumeral
  split
  · rename_i h; exact congrArg k (BitVec.eq_of_toNat_eq (by simpa using h.symm))
  · rename_i n h; exact congrArg k (by rw [show n + 1 = r.toNat from h.symm, BitVec.ofNat_toNat, BitVec.setWidth_eq])

theorem crcFrom_cons (b : Byte) (bs : List Byte) (r : BitVec 16) : crcFrom (b :: bs) r = crcFrom bs (crcByte r b) := by
  rw [crcFrom, withNumeral_eq]

theorem crcByte_shift (d : BitVec 16) : crcByte d 0 = crcShift^[8] d := by
  simp [crcByte, crcShift]

theorem crcFrom_xor (bs : List Byte) (r d : BitVec 16) :
    crcFrom bs (r ^^^ d) = crcFrom bs r ^^^ crcShift^[8 * bs.length] d := by
  induction bs generalizing r d with
  | nil => rfl
  | cons b bs ih =>
    rw [crcFrom_cons, crcFrom_cons]
    have h : crcByte (r ^^^ d) b = crcByte r b ^^^ crcByte d 0 := by rw [← crcByte_xor]; simp
    rw [h, ih, crcByte_shift, ← Function.iterate_add_apply, List.length_cons, Nat.mul_add_one]

theorem crcByte_bit : ∀ k < 8, crcByte 0 (BitVec.twoPow 8 k) = crcShift^[k + 16] 1 := by decide +kernel

/-- One bit flipped in byte `i` changes the code by the step's power for its distance from the end. -/
theorem crcFrom_flip (bs : List Byte) (i k : Nat) (hi : i < bs.length) (hk : k < 8) (r : BitVec 16) :
    crcFrom (bs.modify i (· ^^^ BitVec.twoPow 8 k)) r =
      crcFrom bs r ^^^ crcShift^[8 * (bs.length - 1 - i) + k + 16] 1 := by
  induction bs generalizing i r with
  | nil => simp at hi
  | cons b bs ih =>
    cases i with
    | zero =>
      simp only [List.modify_zero_cons, crcFrom_cons]
      have h : crcByte r (b ^^^ BitVec.twoPow 8 k) = crcByte r b ^^^ crcByte 0 (BitVec.twoPow 8 k) := by
        rw [← crcByte_xor]; simp
      rw [h, crcFrom_xor, crcByte_bit k hk, ← Function.iterate_add_apply]
      simp [Nat.add_assoc]
    | succ i =>
      simp only [List.modify_succ_cons, crcFrom_cons]
      rw [ih i (by simpa using hi)]
      simp only [List.length_cons]
      congr 3
      omega

/-! ## The patterns of flipped bits -/

theorem crcShift_xor (a b : BitVec 16) : crcShift (a ^^^ b) = crcShift a ^^^ crcShift b := crcBit_xor a b false false

theorem crcShift_eq_zero (d : BitVec 16) (h : crcShift d = 0) : d = 0 := by
  unfold crcShift crcBit at h
  cases hm : d.msb
  · simp only [hm, bne_self_eq_false, Bool.false_eq_true, if_false] at h
    apply BitVec.eq_of_getLsbD_eq
    intro i hi
    by_cases h15 : i = 15
    · subst h15; simpa [BitVec.msb_eq_getLsbD_last] using hm
    · have := congrArg (·.getLsbD (i + 1)) h
      simp only [BitVec.getLsbD_shiftLeft, show i + 1 < 16 by omega] at this
      simpa using this
  · simp only [hm] at h
    have := congrArg (·.getLsbD 0) h
    simp at this

theorem crcShift_injective : Function.Injective crcShift := by
  intro a b h
  have : crcShift (a ^^^ b) = 0 := by rw [crcShift_xor, h, BitVec.xor_self]; rfl
  exact BitVec.xor_eq_zero_iff.mp (crcShift_eq_zero _ this)

/-- The parity of the bits of a pattern. -/
def parity (r : BitVec 16) : Bool :=
  [0, 1, 2, 3, 4, 5, 6, 7, 8, 9, 10, 11, 12, 13, 14, 15].foldl (fun p i => p ^^ r.getLsbD i) false

theorem foldl_parity_xor (l : List Nat) (a b : BitVec 16) (p q : Bool) :
    l.foldl (fun p i => p ^^ (a ^^^ b).getLsbD i) (p ^^ q) =
      (l.foldl (fun p i => p ^^ a.getLsbD i) p ^^ l.foldl (fun p i => p ^^ b.getLsbD i) q) := by
  induction l generalizing p q with
  | nil => rfl
  | cons i l ih =>
    simp only [List.foldl_cons]
    rw [← ih]
    congr 1
    simp only [BitVec.getLsbD_xor]
    cases p <;> cases q <;> simp

theorem parity_xor (a b : BitVec 16) : parity (a ^^^ b) = (parity a ^^ parity b) := foldl_parity_xor _ a b false false

theorem parity_shift (d : BitVec 16) : parity (crcShift d) = parity d := by
  have h : parity (d <<< 1) = (parity d ^^ d.msb) := by
    simp [parity, BitVec.getLsbD_shiftLeft, BitVec.msb_eq_getLsbD_last]
  unfold crcShift crcBit
  cases hm : d.msb
  · simp [h, hm]
  · rw [if_pos (by rfl), parity_xor, h, hm, show parity 0x1021#16 = true by decide]; simp

theorem parity_power (n : Nat) : parity (crcShift^[n] 1) = true := by
  induction n with
  | zero => decide
  | succ n ih => rw [Function.iterate_succ_apply', parity_shift, ih]

theorem findFlip_none (fuel : Nat) (p s : BitVec 16) (j : Nat) :
    findFlip fuel p s j = none ↔ ∀ t < fuel, crcShift^[t] p ≠ s := by
  induction fuel generalizing p j with
  | zero => simp [findFlip]
  | succ n ih =>
    unfold findFlip
    rw [withNumeral_eq]
    by_cases h : p = s
    · simp only [h, if_true, reduceCtorEq, false_iff]
      intro hall
      exact hall 0 (by omega) rfl
    · rw [if_neg h, ih]
      constructor
      · intro hall t ht
        cases t with
        | zero => exact h
        | succ t => exact hall t (by omega)
      · intro hall t ht
        exact hall (t + 1) (by omega)

theorem findFlip_some (fuel : Nat) (p s : BitVec 16) (j t : Nat) (ht : t < fuel) (hs : crcShift^[t] p = s)
    (hf : ∀ u < t, crcShift^[u] p ≠ s) : findFlip fuel p s j = some (j + t) := by
  induction fuel generalizing p j t with
  | zero => omega
  | succ n ih =>
    unfold findFlip
    rw [withNumeral_eq]
    cases t with
    | zero => rw [if_pos (show p = s from hs)]; rfl
    | succ t =>
      rw [if_neg (show ¬ p = s from hf 0 (by omega)),
        ih (crcBit p false) (j + 1) t (by omega) hs (fun u hu => hf (u + 1) (by omega))]
      congr 1; omega

theorem powers_apart_one : ∀ d < 3200, crcShift^[d] 2 ≠ 1 :=
  (findFlip_none 3200 2 1 0).mp (by decide +kernel)

/-- The patterns of two bits of a sector differ. -/
theorem powers_apart {m n : Nat} (hmn : m < n) (hn : n ≤ 3200) : crcShift^[m] (1 : BitVec 16) ≠ crcShift^[n] 1 := by
  intro h
  obtain ⟨d, rfl⟩ : ∃ d, n = m + (d + 1) := ⟨n - m - 1, by omega⟩
  rw [Function.iterate_add_apply] at h
  have := crcShift_injective.iterate m h
  exact powers_apart_one d (by omega) this.symm

/-! ## The syndrome of a stored sector -/

/-- The exclusive or of the computed and the stored code, for contents and their two code bytes. -/
def syndrome (contents : List Byte) (h l : Byte) : BitVec 16 := crc16 contents ^^^ (h ++ l : BitVec (8 + 8))

theorem judgeCode_append (c : List Byte) (h l : Byte) : judgeCode (c ++ [h, l]) =
    if syndrome c h l = 0 then .clean c
    else
      match findFlip (8 * c.length) 0x1021#16 (syndrome c h l) 0 with
      | some j => .corrected (flipFromEnd c j)
      | none => if singleBit (syndrome c h l) then .corrected c else .uncorrectable c := by
  have hl : (c ++ [h, l]).length - 2 = c.length := by simp
  have hv : BitVec.ofNat 16 (valueOf [h, l]) = (h ++ l : BitVec (8 + 8)) := by
    apply BitVec.eq_of_toNat_eq
    have h1 : (h ++ l : BitVec (8 + 8)).toNat = h.toNat * 256 + l.toNat := by
      rw [BitVec.toNat_append, ← Nat.shiftLeft_add_eq_or_of_lt l.isLt, Nat.shiftLeft_eq]
    have h2 := h.isLt
    have h3 := l.isLt
    refine Eq.trans ?_ h1.symm
    simp only [valueOf, List.foldl_cons, List.foldl_nil, BitVec.toNat_ofNat]
    omega
  unfold judgeCode
  simp only [hl, List.take_left', List.drop_left', hv]
  rfl

/-- Bit `n` of a byte string flipped, the bits of each byte counted from its least significant one. -/
def flipBit (n : Nat) (bytes : List Byte) : List Byte := bytes.modify (n / 8) (· ^^^ BitVec.twoPow 8 (n % 8))

/-- The distance of bit `n` of a string of `len` bytes from its end. -/
def fromEnd (len n : Nat) : Nat := 8 * (len - 1 - n / 8) + n % 8

theorem code_bits : ∀ k < 8, (0#8 ++ BitVec.twoPow 8 k : BitVec (8 + 8)) = crcShift^[k] 1 ∧
    (BitVec.twoPow 8 k ++ 0#8 : BitVec (8 + 8)) = crcShift^[8 + k] 1 := by decide +kernel

theorem append_xor (a b c d : Byte) : ((a ^^^ b) ++ (c ^^^ d) : BitVec (8 + 8)) = (a ++ c) ^^^ (b ++ d) :=
  BitVec.xor_append.symm

theorem modify_append (f : Byte → Byte) (l r : List Byte) (i : Nat) :
    (l ++ r).modify i f = if i < l.length then l.modify i f ++ r else l ++ r.modify (i - l.length) f := by
  induction l generalizing i with
  | nil => simp
  | cons b l ih =>
    cases i with
    | zero => simp
    | succ i =>
      simp only [List.cons_append, List.modify_succ_cons, ih, List.length_cons, Nat.add_lt_add_iff_right,
        Nat.add_sub_add_right]
      split <;> rfl

/-- One flipped bit of a stored sector changes its syndrome by the pattern of that bit. -/
theorem flipBit_syndrome (c : List Byte) (h l : Byte) (n : Nat) (hn : n < 8 * (c.length + 2)) :
    ∃ c' h' l', flipBit n (c ++ [h, l]) = c' ++ [h', l'] ∧ c'.length = c.length ∧
      syndrome c' h' l' = syndrome c h l ^^^ crcShift^[fromEnd (c.length + 2) n] 1 ∧
      c' = if n < 8 * c.length then flipBit n c else c := by
  have hk : n % 8 < 8 := Nat.mod_lt _ (by decide)
  by_cases hc : n / 8 < c.length
  · refine ⟨flipBit n c, h, l, ?_, ?_, ?_, ?_⟩
    · unfold flipBit; rw [modify_append, if_pos hc]
    · simp [flipBit]
    · unfold syndrome crc16 flipBit
      rw [crcFrom_flip c _ _ hc hk, show fromEnd (c.length + 2) n = 8 * (c.length - 1 - n / 8) + n % 8 + 16 by
        unfold fromEnd; omega]
      ac_rfl
    · rw [if_pos (by omega)]
  · have hi : n / 8 = c.length ∨ n / 8 = c.length + 1 := by omega
    rcases hi with hi | hi
    · refine ⟨c, h ^^^ BitVec.twoPow 8 (n % 8), l, ?_, rfl, ?_, by rw [if_neg (by omega)]⟩
      · unfold flipBit; rw [modify_append, if_neg hc, hi, Nat.sub_self]; rfl
      · have := append_xor h (BitVec.twoPow 8 (n % 8)) l 0#8
        rw [BitVec.xor_zero, (code_bits _ hk).2] at this
        unfold syndrome
        rw [this, BitVec.xor_assoc, show fromEnd (c.length + 2) n = 8 + n % 8 by unfold fromEnd; omega]
    · refine ⟨c, h, l ^^^ BitVec.twoPow 8 (n % 8), ?_, rfl, ?_, by rw [if_neg (by omega)]⟩
      · unfold flipBit; rw [modify_append, if_neg hc, hi, Nat.add_sub_cancel_left]; rfl
      · have := append_xor h 0#8 l (BitVec.twoPow 8 (n % 8))
        rw [BitVec.xor_zero, (code_bits _ hk).1] at this
        unfold syndrome
        rw [this, BitVec.xor_assoc, show fromEnd (c.length + 2) n = n % 8 by unfold fromEnd; omega]

/-- A stored sector that carries its own code has no syndrome. -/
theorem syndrome_sealed (c : List Byte) : ∃ h l, bytesOf 2 (crc16 c).toNat = [h, l] ∧ syndrome c h l = 0 := by
  refine ⟨_, _, rfl, ?_⟩
  have h1 : ∀ (x : BitVec 16), (BitVec.ofNat 8 (x.toNat / 256 ^ 1) ++ BitVec.ofNat 8 (x.toNat / 256 ^ 0) : BitVec (8 + 8)) = x := by
    intro x
    apply BitVec.eq_of_toNat_eq
    rw [BitVec.toNat_append, ← Nat.shiftLeft_add_eq_or_of_lt (BitVec.isLt _), Nat.shiftLeft_eq]
    have := x.isLt
    simp only [BitVec.toNat_ofNat]
    omega
  unfold syndrome
  rw [h1]
  exact BitVec.xor_self

/-! ## What stage 1 finds -/

theorem and_pred (n : Nat) (h0 : 0 < n) (h : n &&& (n - 1) = 0) : ∃ k, n = 2 ^ k := by
  induction n using Nat.strongRecOn with
  | ind n ih =>
    rcases Nat.even_or_odd' n with ⟨m, hm | hm⟩
    · have hm0 : 0 < m := by omega
      have h1 : m &&& (m - 1) = 0 := by
        apply Nat.eq_of_testBit_eq
        intro i
        have h2 := (Nat.testBit_and n (n - 1) (i + 1)).symm.trans ((congrArg (Nat.testBit · (i + 1)) h).trans (Nat.zero_testBit _))
        rw [Nat.testBit_succ, Nat.testBit_succ, show n / 2 = m by omega, show (n - 1) / 2 = m - 1 by omega] at h2
        rw [Nat.testBit_and, h2, Nat.zero_testBit]
      obtain ⟨k, hk⟩ := ih m (by omega) hm0 h1
      exact ⟨k + 1, by rw [hm, hk, Nat.pow_succ]; ring⟩
    · have h1 : m = 0 := by
        apply Nat.eq_of_testBit_eq
        intro i
        have h2 := (Nat.testBit_and n (n - 1) (i + 1)).symm.trans ((congrArg (Nat.testBit · (i + 1)) h).trans (Nat.zero_testBit _))
        rw [Nat.testBit_succ, Nat.testBit_succ, show n / 2 = m by omega, show (n - 1) / 2 = m by omega,
          Bool.and_self] at h2
        rw [h2, Nat.zero_testBit]
      exact ⟨0, by omega⟩

theorem parity_singleBit (s : BitVec 16) (h : singleBit s = true) : parity s = true := by
  have hb : ∀ k < 16, parity (BitVec.ofNat 16 (2 ^ k)) = true := by decide +kernel
  unfold singleBit at h
  simp only [Bool.and_eq_true, bne_iff_ne, ne_eq, beq_iff_eq] at h
  have h0 : 0 < s.toNat := by
    rcases Nat.eq_zero_or_pos s.toNat with h0 | h0
    · exact absurd (BitVec.eq_of_toNat_eq (by simpa using h0)) h.1
    · exact h0
  have h1 : (s - 1).toNat = s.toNat - 1 := by
    have h2 := s.isLt
    have h3 : (s - 1).toNat = (2 ^ 16 - 1 + s.toNat) % 2 ^ 16 := BitVec.toNat_sub s 1
    omega
  obtain ⟨k, hk⟩ := and_pred s.toNat h0 (by rw [← h1, ← BitVec.toNat_and, h.2]; rfl)
  have hk16 : k < 16 := by
    by_contra hge
    have := Nat.pow_le_pow_right (show 0 < 2 by decide) (show 16 ≤ k by omega)
    have := s.isLt
    omega
  have := hb k hk16
  rwa [← hk, BitVec.ofNat_toNat, BitVec.setWidth_eq] at this

theorem flipBit_flipBit (n : Nat) (l : List Byte) : flipBit n (flipBit n l) = l := by
  unfold flipBit
  rw [List.modify_modify_eq]
  have : ((· ^^^ BitVec.twoPow 8 (n % 8)) ∘ (· ^^^ BitVec.twoPow 8 (n % 8)) : Byte → Byte) = id := by
    funext x; simp
  rw [this, List.modify_id]

theorem pattern_nonzero (m : Nat) : crcShift^[m] (1 : BitVec 16) ≠ 0 := by
  intro h; have := parity_power m; rw [h] at this; exact absurd this (by decide)

theorem pattern_single : ∀ m < 16, singleBit (crcShift^[m] 1) = true := by decide +kernel

theorem generator_pattern (t : Nat) : crcShift^[t] 0x1021#16 = crcShift^[t + 16] 1 := by
  rw [Function.iterate_add_apply, show crcShift^[16] 1 = 0x1021#16 by decide +kernel]

/-- A sector that carries its check code is clean (R198). -/
theorem judgeCode_sealed (c : List Byte) : judgeCode (c ++ bytesOf 2 (crc16 c).toNat) = .clean c := by
  obtain ⟨h, l, he, hs⟩ := syndrome_sealed c
  rw [he, judgeCode_append, if_pos hs]

/-- One flipped bit of a sector, in its contents or in its code, is corrected (R198). -/
theorem judgeCode_flip (c : List Byte) (hc : c.length ≤ 395) (n : Nat) (hn : n < 8 * (c.length + 2)) :
    judgeCode (flipBit n (c ++ bytesOf 2 (crc16 c).toNat)) = .corrected c := by
  obtain ⟨h, l, he, hs⟩ := syndrome_sealed c
  obtain ⟨c', h', l', hf, hlen, hsyn, hc'⟩ := flipBit_syndrome c h l n hn
  rw [hs, show (0 : BitVec 16) = 0#16 from rfl, BitVec.zero_xor] at hsyn
  rw [he, hf, judgeCode_append, hsyn, if_neg (pattern_nonzero _), hlen]
  by_cases hin : n < 8 * c.length
  · have h16 : fromEnd (c.length + 2) n = fromEnd c.length n + 16 := by unfold fromEnd; omega
    have hlt : fromEnd c.length n < 8 * c.length := by unfold fromEnd; omega
    rw [h16, findFlip_some (8 * c.length) 0x1021#16 _ 0 (fromEnd c.length n) hlt (generator_pattern _)
      (fun u hu => by rw [generator_pattern]; exact powers_apart (by omega) (by omega))]
    rw [if_pos hin] at hc'
    simp only [Nat.zero_add]
    congr 1
    have h1 : fromEnd c.length n / 8 = c.length - 1 - n / 8 := by unfold fromEnd; omega
    have h2 : fromEnd c.length n % 8 = n % 8 := by unfold fromEnd; omega
    unfold flipFromEnd
    rw [h1, h2, hlen, show c.length - 1 - (c.length - 1 - n / 8) = n / 8 by omega, hc']
    exact flipBit_flipBit n c
  · have hlt : fromEnd (c.length + 2) n < 16 := by unfold fromEnd; omega
    rw [(findFlip_none _ _ _ _).mpr (fun t ht => by
      rw [generator_pattern]; exact (powers_apart (by omega) (by omega)).symm)]
    rw [if_neg hin] at hc'
    simp only [pattern_single _ hlt, if_true, hc']

/-- Two flipped bits of a sector make it uncorrectable (R198). -/
theorem judgeCode_flip_flip (c : List Byte) (hc : c.length ≤ 395) (n m : Nat) (hnm : n < m)
    (hm : m < 8 * (c.length + 2)) :
    let stored := flipBit n (flipBit m (c ++ bytesOf 2 (crc16 c).toNat))
    judgeCode stored = .uncorrectable (stored.take c.length) := by
  obtain ⟨h, l, he, hs⟩ := syndrome_sealed c
  obtain ⟨c1, h1, l1, hf1, hlen1, hsyn1, -⟩ := flipBit_syndrome c h l m hm
  obtain ⟨c2, h2, l2, hf2, hlen2, hsyn2, -⟩ := flipBit_syndrome c1 h1 l1 n (by omega)
  rw [hs, show (0 : BitVec 16) = 0#16 from rfl, BitVec.zero_xor] at hsyn1
  rw [hsyn1, hlen1] at hsyn2
  have hlen : c2.length = c.length := hlen2.trans hlen1
  have hpar : parity (syndrome c2 h2 l2) = false := by rw [hsyn2, parity_xor, parity_power, parity_power]; rfl
  have hne : syndrome c2 h2 l2 ≠ 0 := by
    rw [hsyn2]
    intro h0
    have hlt : fromEnd (c.length + 2) m ≠ fromEnd (c.length + 2) n := by unfold fromEnd; omega
    have hle : ∀ x, fromEnd (c.length + 2) x ≤ 3200 := by intro x; unfold fromEnd; omega
    rcases Nat.lt_or_gt_of_ne hlt with hlt | hlt
    · exact powers_apart hlt (hle n) (BitVec.xor_eq_zero_iff.mp h0)
    · exact powers_apart hlt (hle m) (BitVec.xor_eq_zero_iff.mp h0).symm
  simp only [he, hf1, hf2]
  rw [judgeCode_append, if_neg hne, (findFlip_none _ _ _ _).mpr (fun t ht heq => by
    have := parity_power (t + 16)
    rw [← generator_pattern, heq, hpar] at this
    exact absurd this (by decide))]
  have hsb : singleBit (syndrome c2 h2 l2) = false := by
    cases hb : singleBit (syndrome c2 h2 l2)
    · rfl
    · rw [parity_singleBit _ hb] at hpar; exact absurd hpar (by decide)
  simp only [hsb, Bool.false_eq_true, if_false, ← hlen, List.take_left']

end Sys2Proof.Laws
end

