-- ==== Sys2Proof/Laws/Licence.lean ====
section
/-! SUPPORT. No operation draws on a supply without its claim: `Licensed` (Safety.lean's `DrivesLicensed`) is kept by every
operation that the commands are built from. -/

namespace Sys2Proof.Laws

open Sys2Proof Sys2Proof.Machine Sys2Proof.Safety

variable {s : State}

/-- `DrivesLicensed` under a name of its own, so that no lemma unfolds it. -/
def Licensed (s : State) : Prop := DrivesLicensed s

theorem kept_ite' {P : State → Prop} {c : Prop} [Decidable c] {a b : State} (ha : P a) (hb : P b) :
    P (if c then a else b) := by split <;> assumption

theorem lic_mapLid_off {f : LidBay → LidBay} (h : Licensed s) (hv : (f s.lid).valve = false) : Licensed (s.mapLid f) :=
  ⟨(fun hc => by rw [State.mapLid_lid, hv] at hc; exact absurd hc (by decide)), h.2⟩

theorem lic_mapShake_off {f : ShakeBay → ShakeBay} (h : Licensed s) (hd : (f s.shake).drive ≠ .driven) :
    Licensed (s.mapShake f) := ⟨h.1, fun hc => absurd hc hd⟩

theorem lic_mapAgent {p : Pool} {f : Agent → Agent} (h : Licensed s)
    (hf : (s.agent p).st = .held → (f (s.agent p)).st = .held) : Licensed (s.mapAgent p f) := by
  cases p
  · exact ⟨h.1, fun hc => ⟨(h.2 hc).1, hf (h.2 hc).2⟩⟩
  · exact ⟨fun hc => ⟨(h.1 hc).1, (h.1 hc).2.1, (h.1 hc).2.2.1, hf (h.1 hc).2.2.2⟩, h.2⟩

theorem lic_mapAgent_off {p : Pool} {f : Agent → Agent} (h : Licensed s) (hv : p = .air → s.lid.valve = false)
    (hd : p = .power → s.shake.drive ≠ .driven) : Licensed (s.mapAgent p f) := by
  cases p
  · exact ⟨h.1, fun hc => absurd hc (hd rfl)⟩
  · exact ⟨fun hc => absurd (show s.lid.valve = true from hc) (by rw [hv rfl]; decide), h.2⟩

theorem valve_off {b : LidBay} {a : Agent} (h : pressLicensed b a) (h1 : b.st ≠ .extend) (h2 : b.st ≠ .dwell) : b.valve = false := by
  cases hv : b.valve
  · rfl
  · rcases (h hv).1 with h | h <;> contradiction

theorem valve_off_home {b : LidBay} {a : Agent} (h : pressLicensed b a) (h1 : b.home.isSome ∨ b.homeCheck = true) : b.valve = false := by
  cases hv : b.valve
  · rfl
  · have := h hv; simp_all

theorem shaker_off {b : ShakeBay} {a : Agent} (h : shakerLicensed b a) (h1 : b.st ≠ .spinUp) (h2 : b.st ≠ .run) : b.drive ≠ .driven := by
  intro hv
  rcases (h hv).1 with h | h <;> contradiction

@[simp] theorem mapLine_lic' (f : LineCtl → LineCtl) : Licensed (s.mapLine f) ↔ Licensed s := Iff.rfl
@[simp] theorem mapDisp_lic' (f : DispenseBay → DispenseBay) : Licensed (s.mapDisp f) ↔ Licensed s := Iff.rfl
@[simp] theorem mapCarriage_lic' (f : Carriage → Carriage) : Licensed (s.mapCarriage f) ↔ Licensed s := Iff.rfl

@[simp] theorem mapMon_lic' (f : Monitor → Monitor) : Licensed (s.mapMon f) ↔ Licensed s := Iff.rfl
@[simp] theorem mapInputs_lic' (f : Inputs → Inputs) : Licensed (s.mapInputs f) ↔ Licensed s := Iff.rfl
@[simp] theorem mapScale_lic' (f : Scale → Scale) : Licensed (s.mapScale f) ↔ Licensed s := Iff.rfl
@[simp] theorem mapPhase_lic' (f : Phase → Phase) : Licensed (s.mapPhase f) ↔ Licensed s := Iff.rfl
@[simp] theorem mapStore_lic' (f : Store → Store) : Licensed (s.mapStore f) ↔ Licensed s := Iff.rfl
@[simp] theorem mapCfg_lic' (f : Loaded → Loaded) : Licensed (s.mapCfg f) ↔ Licensed s := Iff.rfl


@[simp] theorem mapCan_lic (i : Slot) (f : Canister → Canister) : Licensed (State.mapCan i f s) ↔ Licensed s := by simp [Licensed, DrivesLicensed]

@[simp] theorem setFault_lic (b : BayId) (k : Option FaultKind) : Licensed (State.setFault b k s) ↔ Licensed s := by simp [Licensed, DrivesLicensed]

@[simp] theorem mapTin_lic (b : BayId) (f : TinRecord → TinRecord) (h : Licensed s) : Licensed (State.mapTin b f s) := by
  unfold State.mapTin
  try dsimp only
  repeat' split
  all_goals first | assumption | (simp (maxDischargeDepth := 20) [*]; done) | (simp_all [Licensed, DrivesLicensed, pressLicensed, shakerLicensed]; done)

@[simp] theorem mapCarried_lic (f : TinRecord → TinRecord) : Licensed (State.mapCarried f s) ↔ Licensed s := by simp [Licensed, DrivesLicensed]

@[simp] theorem setFlag_lic (f : EventFlag) : Licensed (setFlag f s) ↔ Licensed s := by simp [Licensed, DrivesLicensed]

@[simp] theorem clearFlag_lic (f : EventFlag) : Licensed (clearFlag f s) ↔ Licensed s := by simp [Licensed, DrivesLicensed]

@[simp] theorem openRequest_lic : Licensed (openRequest s) ↔ Licensed s := by simp [Licensed, DrivesLicensed]

@[simp] theorem closeRequest_lic : Licensed (closeRequest s) ↔ Licensed s := by simp [Licensed, DrivesLicensed]

@[simp] theorem blankExpires_lic : Licensed (blankExpires s) ↔ Licensed s := by simp [Licensed, DrivesLicensed]
@[simp] theorem blankTrigger_lic : Licensed (blankTrigger s) ↔ Licensed s := by simp [Licensed, DrivesLicensed]

@[simp] theorem trackZero_lic (reading : Int) : Licensed (trackZero reading s) ↔ Licensed s := by simp [Licensed, DrivesLicensed]

@[simp] theorem askTin_lic : Licensed (askTin s) ↔ Licensed s := by simp [Licensed, DrivesLicensed]

@[simp] theorem commitTin_lic (id : Nat) : Licensed (commitTin id s) ↔ Licensed s := by simp [Licensed, DrivesLicensed]

@[simp] theorem withdrawTin_lic : Licensed (withdrawTin s) ↔ Licensed s := by simp [Licensed, DrivesLicensed]

@[simp] theorem withdrawCall_lic : Licensed (withdrawCall s) ↔ Licensed s := by simp [Licensed, DrivesLicensed]

@[simp] theorem withdrawStandingCall_lic : Licensed (withdrawStandingCall s) ↔ Licensed s := by simp [Licensed, DrivesLicensed]

@[simp] theorem placeFrame_lic (f : Frame) : Licensed (placeFrame f s) ↔ Licensed s := by simp [Licensed, DrivesLicensed]

@[simp] theorem withdrawFrame_lic (kind : NoticeKind) (pool : Pool) : Licensed (withdrawFrame kind pool s) ↔ Licensed s := by simp [Licensed, DrivesLicensed]

@[simp] theorem reportHeld_lic (p : Pool) (h : Licensed s) : Licensed (reportHeld p s) := by
  unfold reportHeld
  unfold Licensed DrivesLicensed pressLicensed shakerLicensed at *
  split <;> (simp only [State.mapLid_lid, State.mapLid_shake, State.mapLid_power, State.mapLid_air, State.mapShake_lid, State.mapShake_shake, State.mapShake_power, State.mapShake_air]; split <;> simp_all)

@[simp] theorem grantOwn_lic (p : Pool) (a : Nat) (h : Licensed s) : Licensed (grantOwn p a s) := reportHeld_lic p (lic_mapAgent h fun _ => rfl)

@[simp] theorem placeWait_lic (p : Pool) : Licensed (placeWait p s) ↔ Licensed s := by simp [Licensed, DrivesLicensed]

@[simp] theorem beginWait_lic (p : Pool) (hn : (s.agent p).st ≠ .held) (h : Licensed s) : Licensed (beginWait p s) := by
  unfold beginWait
  refine (placeWait_lic p).2 (lic_mapAgent h fun hh => absurd hh (by simpa using hn))

@[simp] theorem placeClaim_lic (p : Pool) (hn : (s.agent p).st ≠ .held) (h : Licensed s) : Licensed (placeClaim p s) := by
  unfold placeClaim
  exact (placeFrame_lic _).2 (lic_mapAgent h fun hh => absurd hh (by simpa using hn)) 

@[simp] theorem tryClaim_lic (p : Pool) (h : Licensed s) : Licensed (tryClaim p s) := by
  unfold tryClaim
  split
  · rename_i hc
    simp only [Bool.and_eq_true, decide_eq_true_eq] at hc
    refine placeClaim_lic p ?_ ((withdrawFrame_lic _ _).2 h)
    have e : (withdrawFrame .wait p s).agent p = s.agent p := by cases p <;> simp [State.agent]
    rw [e, hc.1]
    decide
  · exact h

@[simp] theorem tryBoth_lic (h : Licensed s) : Licensed (tryBoth s) := by
  unfold tryBoth
  try dsimp only
  repeat' split
  all_goals first | assumption | (simp (maxDischargeDepth := 20) [*]; done) | (simp_all [Licensed, DrivesLicensed, pressLicensed, shakerLicensed]; done)

@[simp] theorem raiseCount_lic (p : Pool) (h : Licensed s) : Licensed (raiseCount p s) := by
  unfold raiseCount
  split
  · exact tryClaim_lic p (lic_mapAgent h fun hh => hh)
  · exact h

@[simp] theorem askClaim_lic (p : Pool) (a : Nat) (h : Licensed s) : Licensed (askClaim p a s) := by
  have hi : (s.agent p).st = .idle → Licensed (s.mapAgent p fun g => { g with asked := some a }) ∧
      ((s.mapAgent p fun g => { g with asked := some a }).agent p).st ≠ .held := fun hi =>
    ⟨lic_mapAgent h fun hh => hh, by cases p <;> (simp only [State.agent, State.mapAgent] at *; simp [hi])⟩
  unfold askClaim
  dsimp only
  split
  · rename_i hc
    split
    · split
      · exact grantOwn_lic p a h
      · exact lic_mapAgent h fun hh => by rw [hc] at hh; cases hh
    · split
      · exact placeClaim_lic p (hi hc).2 (hi hc).1
      · exact beginWait_lic p (hi hc).2 (hi hc).1
  · exact h

@[simp] theorem lowerClaim_lic (p : Pool) (b : Nat) (h : Licensed s) : Licensed (lowerClaim p b s) := by
  unfold lowerClaim
  split
  · split
    · exact (placeFrame_lic _).2 h
    · exact lic_mapAgent h fun hh => hh
  · exact h

@[simp] theorem releaseOrder_lic (p : Pool) (hv : p = .air → s.lid.valve = false) (hd : p = .power → s.shake.drive ≠ .driven) (h : Licensed s) : Licensed (releaseOrder p s) := by
  have h1 : Licensed ((withdrawFrame .adjust p (withdrawFrame .wait p (withdrawFrame .claim p s))).mapAgent p fun g =>
      { g with st := .idle, asked := none, standing := false, count := 0, timer := none }) :=
    lic_mapAgent_off (by simpa using h) (by simpa using hv) (by simpa using hd)
  unfold releaseOrder
  dsimp only
  split
  · exact (placeFrame_lic _).2 h1
  · exact lic_mapAgent h1 fun hh => hh

@[simp] theorem giveUp_lic (p : Pool) (hv : p = .air → s.lid.valve = false) (hd : p = .power → s.shake.drive ≠ .driven) (h : Licensed s) : Licensed (giveUp p s) := by
  unfold giveUp
  split
  · exact h
  · exact releaseOrder_lic p hv hd h

@[simp] theorem judgeOwn_lic (p : Pool) (h : Licensed s) : Licensed (judgeOwn p s) := by
  unfold judgeOwn
  dsimp only
  split
  · rename_i hc
    split
    · exact grantOwn_lic p _ h
    · exact beginWait_lic p (by rw [hc]; decide) h
  · exact h

@[simp] theorem judgeWithdrawn_lic (p : Pool) (a : Nat) (h : Licensed s) : Licensed (judgeWithdrawn p a s) := by
  unfold judgeWithdrawn
  split
  · exact lic_mapAgent h fun hh => hh
  · exact h

@[simp] theorem claimLost_lic (p : Pool) (h : Licensed s) : Licensed (claimLost p s) := by
  unfold claimLost
  split
  · rename_i hc; exact beginWait_lic p (by rw [hc]; decide) h
  · exact h

@[simp] theorem adjustDone_lic (p : Pool) (b : Nat) (h : Licensed s) : Licensed (adjustDone p b s) := lic_mapAgent h fun hh => hh

@[simp] theorem releaseDone_lic (p : Pool) (h : Licensed s) : Licensed (releaseDone p s) := lic_mapAgent h fun hh => hh

@[simp] theorem enterLine_lic (st : LineCtlState) : Licensed (enterLine st s) ↔ Licensed s := by simp [Licensed, DrivesLicensed]

@[simp] theorem returnClaim_lic (p : Pool) (h : Licensed s) : Licensed (returnClaim p s) := by
  unfold returnClaim
  dsimp only
  split
  · exact claimLost_lic _ ((mapLine_lic' _).2 h)
  · exact h

@[simp] theorem downOnThird_lic (h : Licensed s) : Licensed (downOnThird s) := by
  unfold downOnThird
  split
  · exact returnClaim_lic _ (returnClaim_lic _ ((enterLine_lic _).2 ((mapLine_lic' _).2 h)))
  · exact h

@[simp] theorem returnFromDown_lic (h : Licensed s) : Licensed (returnFromDown s) := by
  unfold returnFromDown
  try dsimp only
  repeat' split
  all_goals first | assumption | (simp (maxDischargeDepth := 20) [*]; done) | (simp_all [Licensed, DrivesLicensed, pressLicensed, shakerLicensed]; done)

@[simp] theorem reportSent_lic (a : Attempt) (h : Licensed s) : Licensed (reportSent a s) := by
  unfold reportSent
  try dsimp only
  repeat' split
  all_goals first | assumption | (simp (maxDischargeDepth := 20) [*]; done) | (simp_all [Licensed, DrivesLicensed, pressLicensed, shakerLicensed]; done)

@[simp] theorem reportUnsent_lic (f : Frame) (h : Licensed s) : Licensed (reportUnsent f s) := by
  unfold reportUnsent
  try dsimp only
  repeat' split
  all_goals first | assumption | (simp (maxDischargeDepth := 20) [*]; done) | (simp_all [Licensed, DrivesLicensed, pressLicensed, shakerLicensed]; done)

@[simp] theorem countDrop_lic (h : Licensed s) : Licensed (countDrop s) := downOnThird_lic ((mapLine_lic' _).2 h)

@[simp] theorem unqueue_lic (f : Frame) : Licensed (unqueue f s) ↔ Licensed s := by simp [Licensed, DrivesLicensed]

@[simp] theorem startFrame_lic : Licensed (startFrame s) ↔ Licensed s := by simp [Licensed, DrivesLicensed]

@[simp] theorem attemptFailed_lic (counted : Bool) (a : Attempt) (h : Licensed s) : Licensed (attemptFailed counted a s) := by
  unfold attemptFailed
  try dsimp only
  repeat' split
  all_goals first | assumption | (simp (maxDischargeDepth := 20) [*]; done) | (simp_all [Licensed, DrivesLicensed, pressLicensed, shakerLicensed]; done)

@[simp] theorem endAttempt_lic (idle : Nat) : Licensed (endAttempt idle s) ↔ Licensed s := by simp [Licensed, DrivesLicensed]

@[simp] theorem frameDone_lic (a : Attempt) (h : Licensed s) : Licensed (frameDone a s) := by
  unfold frameDone
  refine returnFromDown_lic (reportSent_lic a ?_)
  split
  · exact (unqueue_lic _).2 ((mapLine_lic' _).2 ((endAttempt_lic _).2 h))
  · exact (mapLine_lic' _).2 ((endAttempt_lic _).2 h)

@[simp] theorem barLine_lic (h : Licensed s) : Licensed (barLine s) := by
  have hf : ∀ (l : List Frame) (u : State), Licensed u → Licensed (l.foldl (fun t f => reportUnsent f t) u) := by
    intro l
    induction l with
    | nil => exact fun _ hu => hu
    | cons a l ih => exact fun u hu => ih _ (reportUnsent_lic a hu)
  unfold barLine
  have h1 : Licensed (enterLine .barred (s.mapLine fun c => { c with queue := [], attempt := none, beacon := none })) :=
    (enterLine_lic _).2 ((mapLine_lic' _).2 h)
  exact (setFlag_lic _).2 ((mapMon_lic' _).2 (hf _ _ h1))

@[simp] theorem supersedeBeacon_lic (h : Licensed s) : Licensed (supersedeBeacon s) := by
  unfold supersedeBeacon
  try dsimp only
  repeat' split
  all_goals first | assumption | (simp (maxDischargeDepth := 20) [*]; done) | (simp_all [Licensed, DrivesLicensed, pressLicensed, shakerLicensed]; done)

@[simp] theorem placeBeacon_lic : Licensed (placeBeacon s) ↔ Licensed s := by simp [Licensed, DrivesLicensed]

@[simp] theorem countListening_lic (h : Licensed s) : Licensed (countListening s) := by
  have h1 : Licensed (s.mapLine fun c => { c with listens := min 4 (c.listens + 1) }) := (mapLine_lic' _).2 h
  unfold countListening
  dsimp only
  split
  · split
    · exact tryBoth_lic ((enterLine_lic _).2 h1)
    · exact h1
  · exact h

@[simp] theorem beaconExpiry_lic (h : Licensed s) : Licensed (beaconExpiry s) := by
  unfold beaconExpiry
  try dsimp only
  repeat' split
  all_goals first | assumption | (simp (maxDischargeDepth := 20) [*]; done) | (simp_all [Licensed, DrivesLicensed, pressLicensed, shakerLicensed]; done)

@[simp] theorem startLine_lic : Licensed (startLine s) ↔ Licensed s := by simp [Licensed, DrivesLicensed]

@[simp] theorem mapEntry_lic (i : Station) (f : RosterEntry → RosterEntry) : Licensed (State.mapEntry i f s) ↔ Licensed s := by simp [Licensed, DrivesLicensed]

@[simp] theorem judgePeer_lic (src : Station) (p : Pool) (a : Nat) : Licensed (judgePeer src p a s) ↔ Licensed s := by simp [Licensed, DrivesLicensed]

@[simp] theorem adjustPeer_lic (src : Station) (p : Pool) (a : Nat) : Licensed (adjustPeer src p a s) ↔ Licensed s := by simp [Licensed, DrivesLicensed]

@[simp] theorem releasePeer_lic (src : Station) (p : Pool) : Licensed (releasePeer src p s) ↔ Licensed s := by simp [Licensed, DrivesLicensed]

@[simp] theorem waitPeer_lic (src : Station) (p : Pool) (amount count : Nat) : Licensed (waitPeer src p amount count s) ↔ Licensed s := by simp [Licensed, DrivesLicensed]

@[simp] theorem beaconPeer_lic (src : Station) (b : Beacon) : Licensed (beaconPeer src b s) ↔ Licensed s := by simp [Licensed, DrivesLicensed]

@[simp] theorem discardFrame_lic : Licensed (discardFrame s) ↔ Licensed s := by simp [Licensed, DrivesLicensed]

@[simp] theorem ageOut_lic (i : Station) (h : Licensed s) : Licensed (ageOut i s) := by
  unfold ageOut
  try dsimp only
  repeat' split
  all_goals first | assumption | (simp (maxDischargeDepth := 20) [*]; done) | (simp_all [Licensed, DrivesLicensed, pressLicensed, shakerLicensed]; done)

@[simp] theorem setLevel_lic (i : Slot) (level : Nat) : Licensed (setLevel i level s) ↔ Licensed s := by simp [Licensed, DrivesLicensed]

@[simp] theorem debit_lic (i : Slot) (v : Nat) : Licensed (debit i v s) ↔ Licensed s := by simp [Licensed, DrivesLicensed]

@[simp] theorem credit_lic (i : Slot) (v : Nat) : Licensed (credit i v s) ↔ Licensed s := by simp [Licensed, DrivesLicensed]

@[simp] theorem countMiss_lic (i : Slot) (o : Outcome27) : Licensed (countMiss i o s) ↔ Licensed s := by simp [Licensed, DrivesLicensed]

@[simp] theorem makePre_lic (i : Slot) : Licensed (makePre i s) ↔ Licensed s := by simp [Licensed, DrivesLicensed]

@[simp] theorem dropPre_lic : Licensed (dropPre s) ↔ Licensed s := by simp [Licensed, DrivesLicensed]

@[simp] theorem grantStir_lic (i : Slot) : Licensed (grantStir i s) ↔ Licensed s := by simp [Licensed, DrivesLicensed]

@[simp] theorem grantUpTo_lic (n : Nat) : Licensed (grantUpTo n s) ↔ Licensed s := by simp [Licensed, DrivesLicensed]

@[simp] theorem grantStirs_lic : Licensed (grantStirs s) ↔ Licensed s := by simp [Licensed, DrivesLicensed]

@[simp] theorem mapRun_lic (i : Slot) (f : StirRun → StirRun) : Licensed (mapRun i f s) ↔ Licensed s := by simp [Licensed, DrivesLicensed]

@[simp] theorem freeStir_lic (i : Slot) : Licensed (freeStir i s) ↔ Licensed s := by simp [Licensed, DrivesLicensed]

@[simp] theorem completeStir_lic (i : Slot) : Licensed (completeStir i s) ↔ Licensed s := by simp [Licensed, DrivesLicensed]

@[simp] theorem freeAllStirs_lic : Licensed (freeAllStirs s) ↔ Licensed s := by simp [Licensed, DrivesLicensed]

@[simp] theorem markFaulted_lic (i : Slot) (why : CanFault) : Licensed (markFaulted i why s) ↔ Licensed s := by simp [Licensed, DrivesLicensed]

@[simp] theorem mapOp_lic (f : PumpOp → PumpOp) : Licensed (mapOp f s) ↔ Licensed s := by simp [Licensed, DrivesLicensed]

@[simp] theorem setActivity_lic (i : Slot) (a : Activity) : Licensed (setActivity i a s) ↔ Licensed s := by simp [Licensed, DrivesLicensed]

@[simp] theorem forwardOrRefill_lic (o : PumpOp) : Licensed (forwardOrRefill o s) ↔ Licensed s := by simp [Licensed, DrivesLicensed]

@[simp] theorem firstSegment_lic (o : PumpOp) : Licensed (firstSegment o s) ↔ Licensed s := by simp [Licensed, DrivesLicensed]

@[simp] theorem beginOp_lic (i : Slot) (kind : OpKind) (steps k : Nat) : Licensed (beginOp i kind steps k s) ↔ Licensed s := by simp [Licensed, DrivesLicensed]

@[simp] theorem issueSteps_lic (n : Nat) (o : PumpOp) : Licensed (issueSteps n o s) ↔ Licensed s := by simp [Licensed, DrivesLicensed]

@[simp] theorem endOp_lic (o : PumpOp) : Licensed (endOp o s) ↔ Licensed s := by simp [Licensed, DrivesLicensed]

@[simp] theorem snuffOrEnd_lic (o : PumpOp) : Licensed (snuffOrEnd o s) ↔ Licensed s := by simp [Licensed, DrivesLicensed]

@[simp] theorem afterMove_lic (o : PumpOp) : Licensed (afterMove o s) ↔ Licensed s := by simp [Licensed, DrivesLicensed]

@[simp] theorem afterTurnBack_lic (o : PumpOp) : Licensed (afterTurnBack o s) ↔ Licensed s := by simp [Licensed, DrivesLicensed]

@[simp] theorem turnDone_lic : Licensed (turnDone s) ↔ Licensed s := by simp [Licensed, DrivesLicensed]

@[simp] theorem countPulse_lic (i : Slot) : Licensed (countPulse i s) ↔ Licensed s := by simp [Licensed, DrivesLicensed]

@[simp] theorem setPaused_lic (b : Bool) : Licensed (setPaused b s) ↔ Licensed s := by simp [Licensed, DrivesLicensed]

@[simp] theorem interruptOp_lic : Licensed (interruptOp s) ↔ Licensed s := by simp [Licensed, DrivesLicensed]

@[simp] theorem joinRecord_lic (t : TinRecord) : Licensed (joinRecord t s) ↔ Licensed s := by simp [Licensed, DrivesLicensed]

@[simp] theorem afterUnclamp_lic (hd : s.shake.drive ≠ .driven) (h : Licensed s) : Licensed (afterUnclamp s) := lic_mapShake_off h hd

@[simp] theorem enterUnclamp_lic (hd : s.shake.drive ≠ .driven) (h : Licensed s) : Licensed (enterUnclamp s) := by
  unfold enterUnclamp
  split
  · exact lic_mapShake_off h hd
  · exact afterUnclamp_lic hd h

@[simp] theorem shakeJoined_lic (hd : s.shake.drive ≠ .driven) (h : Licensed s) : Licensed (shakeJoined s) := enterUnclamp_lic hd (lic_mapShake_off h hd)

@[simp] theorem lidJoined_lic (hv : s.lid.valve = false) (h : Licensed s) : Licensed (lidJoined s) := lic_mapLid_off h hv

@[simp] theorem finishLost_lic : Licensed (finishLost s) ↔ Licensed s := by simp [Licensed, DrivesLicensed]

@[simp] theorem dispJoined_lic : Licensed (dispJoined s) ↔ Licensed s := by simp [Licensed, DrivesLicensed]

@[simp] theorem drainShake_lic (h : Licensed s) : Licensed (drainShake s) := by
  unfold drainShake
  split
  · split
    · rename_i hc
      have hs : s.shake.st = .awaitRoom := by simp at hc; exact hc.1
      exact shakeJoined_lic (by simpa using shaker_off h.2 (by rw [hs]; decide) (by rw [hs]; decide)) ((joinRecord_lic _).2 h)
    · exact h
  · exact h

@[simp] theorem drainLid_lic (h : Licensed s) : Licensed (drainLid s) := by
  unfold drainLid
  split
  · split
    · rename_i hc
      have hs : s.lid.st = .done := by simp at hc; exact hc.1.1
      exact lidJoined_lic (by simpa using valve_off h.1 (by rw [hs]; decide) (by rw [hs]; decide)) ((joinRecord_lic _).2 h)
    · exact h
  · exact h

@[simp] theorem drainDisp_lic : Licensed (drainDisp s) ↔ Licensed s := by simp [Licensed, DrivesLicensed]

@[simp] theorem drain_lic (h : Licensed s) : Licensed (drain s) := by
  unfold drain
  try dsimp only
  repeat' split
  all_goals first | assumption | (simp (maxDischargeDepth := 20) [*]; done) | (simp_all [Licensed, DrivesLicensed, pressLicensed, shakerLicensed]; done)

@[simp] theorem enterAwaitRoom_lic (hd : s.shake.drive ≠ .driven) (h : Licensed s) : Licensed (enterAwaitRoom s) := by
  unfold enterAwaitRoom joinOrWait
  have h1 := lic_mapShake_off (f := fun b => { b with st := .awaitRoom, resume := none }) h hd
  split
  · exact drainShake_lic h1
  · exact (setFlag_lic _).2 h1

@[simp] theorem enterLidLost_lic (hv : s.lid.valve = false) (h : Licensed s) : Licensed (enterLidLost s) := by
  unfold enterLidLost joinOrWait
  have h1 := lic_mapLid_off (f := fun b => { b with st := .done, resume := none }) h hv
  split
  · exact drainLid_lic h1
  · exact (setFlag_lic _).2 h1

@[simp] theorem closeDispRecord_lic : Licensed (closeDispRecord s) ↔ Licensed s := by simp [Licensed, DrivesLicensed]

@[simp] theorem mapCal_lic (f : CalRecord → CalRecord) : Licensed (mapCal f s) ↔ Licensed s := by simp [Licensed, DrivesLicensed]

@[simp] theorem calEnded_lic : Licensed (calEnded s) ↔ Licensed s := by simp [Licensed, DrivesLicensed]

@[simp] theorem calOutcome_lic (o : CalOutcome) (newK : Option Nat) : Licensed (calOutcome o newK s) ↔ Licensed s := by simp [Licensed, DrivesLicensed]

@[simp] theorem abortCal_lic : Licensed (abortCal s) ↔ Licensed s := by simp [Licensed, DrivesLicensed]

@[simp] theorem calDebit_lic (before : Int) (c : CalRecord) : Licensed (calDebit before c s) ↔ Licensed s := by simp [Licensed, DrivesLicensed]

@[simp] theorem calRecheck_lic : Licensed (calRecheck s) ↔ Licensed s := by simp [Licensed, DrivesLicensed]

@[simp] theorem calShot_lic (steps : Nat) (b : Option Int) : Licensed (calShot steps b s) ↔ Licensed s := by simp [Licensed, DrivesLicensed]

@[simp] theorem primeTry_lic (b : Option Int) : Licensed (primeTry b s) ↔ Licensed s := by simp [Licensed, DrivesLicensed]

@[simp] theorem calTest_lic (t : Fin 4) : Licensed (calTest t s) ↔ Licensed s := by simp [Licensed, DrivesLicensed]

@[simp] theorem calPass_lic : Licensed (calPass s) ↔ Licensed s := by simp [Licensed, DrivesLicensed]

@[simp] theorem judgePass_lic : Licensed (judgePass s) ↔ Licensed s := by simp [Licensed, DrivesLicensed]

@[simp] theorem judgeTest_lic (gain : Int) : Licensed (judgeTest gain s) ↔ Licensed s := by simp [Licensed, DrivesLicensed]

@[simp] theorem judgePrime_lic (gain : Int) : Licensed (judgePrime gain s) ↔ Licensed s := by simp [Licensed, DrivesLicensed]

@[simp] theorem weighCup_lic : Licensed (weighCup s) ↔ Licensed s := by simp [Licensed, DrivesLicensed]

@[simp] theorem judgeCup_lic (r : Int) : Licensed (judgeCup r s) ↔ Licensed s := by simp [Licensed, DrivesLicensed]

@[simp] theorem calAnswer_lic (r : Int) : Licensed (calAnswer r s) ↔ Licensed s := by simp [Licensed, DrivesLicensed]

@[simp] theorem calShotDone_lic : Licensed (calShotDone s) ↔ Licensed s := by simp [Licensed, DrivesLicensed]

@[simp] theorem mapEntryAt_lic (i : Nat) (f : LineEntry → LineEntry) : Licensed (mapEntryAt i f s) ↔ Licensed s := by simp [Licensed, DrivesLicensed]

@[simp] theorem finishLine_lic (i : Nat) (v : LineVerdict) : Licensed (finishLine i v s) ↔ Licensed s := by simp [Licensed, DrivesLicensed]

@[simp] theorem passLine_lic (i : Nat) (r : PassReason) : Licensed (passLine i r s) ↔ Licensed s := by simp [Licensed, DrivesLicensed]

@[simp] theorem requestFor_lic (l : LineEntry) : Licensed (requestFor l s) ↔ Licensed s := by simp [Licensed, DrivesLicensed]

@[simp] theorem judgePassed_lic : Licensed (judgePassed s) ↔ Licensed s := by simp [Licensed, DrivesLicensed]

@[simp] theorem beginShot_lic (i : Nat) (l : LineEntry) (v : Nat) (before : Option Int) : Licensed (beginShot i l v before s) ↔ Licensed s := by simp [Licensed, DrivesLicensed]

@[simp] theorem debitStage_lic (i : Nat) (l : LineEntry) (v : Nat) (before : Option Int) : Licensed (debitStage i l v before s) ↔ Licensed s := by simp [Licensed, DrivesLicensed]

@[simp] theorem takeLine_lic (i : Nat) (l : LineEntry) : Licensed (takeLine i l s) ↔ Licensed s := by simp [Licensed, DrivesLicensed]

@[simp] theorem selectFrom_lic (x : List Nat) : Licensed (selectFrom x s) ↔ Licensed s := by simp [Licensed, DrivesLicensed]

@[simp] theorem finishSelection_lic : Licensed (finishSelection s) ↔ Licensed s := by simp [Licensed, DrivesLicensed]

@[simp] theorem selectLine_lic : Licensed (selectLine s) ↔ Licensed s := by simp [Licensed, DrivesLicensed]

@[simp] theorem retakeLine_lic (i : Nat) (l : LineEntry) : Licensed (retakeLine i l s) ↔ Licensed s := by simp [Licensed, DrivesLicensed]

@[simp] theorem lookAhead_lic (l : LineEntry) : Licensed (lookAhead l s) ↔ Licensed s := by simp [Licensed, DrivesLicensed]

@[simp] theorem acceptTin_lic (r : Int) (t : TinRecord) : Licensed (acceptTin r t s) ↔ Licensed s := by simp [Licensed, DrivesLicensed]

@[simp] theorem judgeTare_lic (r : Int) : Licensed (judgeTare r s) ↔ Licensed s := by simp [Licensed, DrivesLicensed]

@[simp] theorem closeRun_lic (i : Nat) (g : Int) : Licensed (closeRun i g s) ↔ Licensed s := by simp [Licensed, DrivesLicensed]

@[simp] theorem topUpNow_lic (i : Nat) (l : LineEntry) (p : LinePlan) (g : Int) : Licensed (topUpNow i l p g s) ↔ Licensed s := by simp [Licensed, DrivesLicensed]

@[simp] theorem endWeighed_lic (i : Nat) (l : LineEntry) (v : LineVerdict) (j : Judgement) : Licensed (endWeighed i l v j s) ↔ Licensed s := by simp [Licensed, DrivesLicensed]

@[simp] theorem judgeReading_lic (i : Nat) (l : LineEntry) (p : LinePlan) (r : Int) : Licensed (judgeReading i l p r s) ↔ Licensed s := by simp [Licensed, DrivesLicensed]

@[simp] theorem lineAnswer_lic (r : Int) : Licensed (lineAnswer r s) ↔ Licensed s := by simp [Licensed, DrivesLicensed]

@[simp] theorem answerRequest_lic (r : Int) : Licensed (answerRequest r s) ↔ Licensed s := by simp [Licensed, DrivesLicensed]

@[simp] theorem shotDone_lic : Licensed (shotDone s) ↔ Licensed s := by simp [Licensed, DrivesLicensed]

@[simp] theorem opCompleted_lic : Licensed (opCompleted s) ↔ Licensed s := by simp [Licensed, DrivesLicensed]

@[simp] theorem enterAwaitAir_lic (hv : s.lid.valve = false) (h : Licensed s) : Licensed (enterAwaitAir s) := askClaim_lic _ _ (lic_mapLid_off h hv)

@[simp] theorem enterAwaitLids_lic (hv : s.lid.valve = false) (h : Licensed s) : Licensed (enterAwaitLids s) := (setFlag_lic _).2 (lic_mapLid_off h hv)

@[simp] theorem lidTest_lic (hv : s.lid.valve = false) (h : Licensed s) : Licensed (lidTest s) := by
  unfold lidTest
  split
  · exact h
  · split
    · exact enterAwaitAir_lic hv h
    · exact enterAwaitLids_lic hv h

@[simp] theorem lidRecheck_lic (h : Licensed s) : Licensed (lidRecheck s) := by
  unfold lidRecheck
  split
  · exact h
  · split
    · rename_i hs
      have hv := valve_off h.1 (by rw [hs]; decide) (by rw [hs]; decide)
      split
      · exact enterAwaitAir_lic (by simpa using hv) ((clearFlag_lic _).2 h)
      · exact h
    · rename_i hs
      have hv := valve_off h.1 (by rw [hs]; decide) (by rw [hs]; decide)
      split
      · exact h
      · exact enterAwaitLids_lic (by simpa using hv) (giveUp_lic _ (fun _ => hv) (fun hp => by cases hp) h)
    · rename_i hs
      have hv := valve_off h.1 (by rw [hs]; decide) (by rw [hs]; decide)
      split
      · exact h
      · exact enterAwaitLids_lic (by simpa using hv) (giveUp_lic _ (fun _ => hv) (fun hp => by cases hp) h)
    · exact h

@[simp] theorem startPress_lic (hp : pressDue s = true) (h : Licensed s) : Licensed (startPress s) := by
  unfold startPress
  unfold pressDue at hp
  simp at hp
  exact (blankTrigger_lic).2 ⟨fun _ => ⟨Or.inl rfl, rfl, rfl, hp.1.2⟩, h.2⟩

@[simp] theorem recordFailed_lic (k : FaultKind) (h : Licensed s) : Licensed (recordFailed k s) := by
  unfold recordFailed
  try dsimp only
  repeat' split
  all_goals first | assumption | (simp (maxDischargeDepth := 20) [*]; done) | (simp_all [Licensed, DrivesLicensed, pressLicensed, shakerLicensed]; done)

@[simp] theorem seatLid_lic (time : Nat) (h : Licensed s) : Licensed (seatLid time s) := by
  unfold seatLid
  try dsimp only
  repeat' split
  all_goals first | assumption | (simp (maxDischargeDepth := 20) [*]; done) | (simp_all [Licensed, DrivesLicensed, pressLicensed, shakerLicensed]; done)

@[simp] theorem endDwell_lic (h : Licensed s) : Licensed (endDwell s) := lic_mapLid_off h rfl

@[simp] theorem endStroke_lic (hs : s.lid.st = .retract) (h : Licensed s) : Licensed (endStroke s) := by
  have hv := valve_off h.1 (by rw [hs]; decide) (by rw [hs]; decide)
  have h1 : Licensed (giveUp .air (s.mapLid fun b => { b with home := none })) :=
    giveUp_lic _ (fun _ => hv) (fun hp => by cases hp) (lic_mapLid_off h hv)
  unfold endStroke
  dsimp only
  split
  · exact h1
  · split
    · exact enterLidLost_lic (by simpa using hv) h1
    · exact lic_mapLid_off (mapTin_lic _ _ h1) (by simpa [State.mapTin] using hv)

@[simp] theorem lidArrive_lic (t : TinRecord) (h : Licensed s) : Licensed (lidArrive t s) := by
  unfold lidArrive
  dsimp only
  have h1 : Licensed (s.mapLid fun b => { b with tin := some t }) := ⟨h.1, h.2⟩
  split
  · rename_i hs
    exact lidTest_lic (by simpa using valve_off h.1 (by rw [hs]; decide) (by rw [hs]; decide)) h1
  · exact h1

@[simp] theorem clampConfirmed_lic (hd : s.shake.drive ≠ .driven) (h : Licensed s) : Licensed (clampConfirmed s) := askClaim_lic _ _ (lic_mapShake_off h hd)

@[simp] theorem enterClamp_lic (hd : s.shake.drive ≠ .driven) (h : Licensed s) : Licensed (enterClamp s) := by
  have h1 : Licensed (s.mapShake fun b => { b with st := .clamp, resume := none, clampDrive := .closing, clamp := some 0 }) := lic_mapShake_off h hd
  unfold enterClamp
  dsimp only
  split
  · exact clampConfirmed_lic hd h1
  · exact h1

@[simp] theorem shakeArrive_lic (t : TinRecord) (h : Licensed s) : Licensed (shakeArrive t s) := by
  unfold shakeArrive
  dsimp only
  have h1 : Licensed (s.mapShake fun b => { b with tin := some t }) := ⟨h.1, h.2⟩
  split
  · rename_i hs
    exact enterClamp_lic (by simpa using shaker_off h.2 (by rw [hs]; decide) (by rw [hs]; decide)) h1
  · exact h1

@[simp] theorem startSpin_lic (hp : spinDue s = true) (h : Licensed s) : Licensed (startSpin s) := by
  unfold startSpin
  unfold spinDue at hp
  simp at hp
  exact (blankTrigger_lic).2 ⟨h.1, fun _ => ⟨Or.inl rfl, hp.2⟩⟩

@[simp] theorem reachSpeed_lic (h : Licensed s) : Licensed (reachSpeed s) := lowerClaim_lic _ _ ((blankTrigger_lic).2 ⟨h.1, fun hc => ⟨Or.inr rfl, (h.2 hc).2⟩⟩)

@[simp] theorem brake_lic (h : Licensed s) : Licensed (brake s) := (blankTrigger_lic).2 (lic_mapShake_off h (by simp))

@[simp] theorem comeToRest_lic (h : Licensed s) : Licensed (comeToRest s) := giveUp_lic _ (fun hp => by cases hp) (fun _ => by simp) ((blankTrigger_lic).2 (lic_mapShake_off h (by simp)))

@[simp] theorem endShake_lic (h : Licensed s) : Licensed (endShake s) := enterAwaitRoom_lic (by simp [State.mapTin, comeToRest]) (mapTin_lic _ _ (comeToRest_lic h))

@[simp] theorem restartShake_lic (hd : s.shake.drive ≠ .driven) (h : Licensed s) : Licensed (restartShake s) := enterClamp_lic (by simpa [State.mapTin] using hd) (mapTin_lic _ _ h)

@[simp] theorem shakeOrphanGone_lic (hd : s.shake.drive ≠ .driven) (h : Licensed s) : Licensed (shakeOrphanGone s) := by
  unfold shakeOrphanGone
  split
  · exact enterUnclamp_lic hd h
  · exact lic_mapShake_off h hd

@[simp] theorem setOff_lic (m : Move) (t : Option TinRecord) (charge : Option BayId) : Licensed (setOff m t charge s) ↔ Licensed s := by simp [Licensed, DrivesLicensed]

@[simp] theorem commitTaken_lic (t : TinRecord) : Licensed (commitTaken t s) ↔ Licensed s := by simp [Licensed, DrivesLicensed]

@[simp] theorem startMove_lic (hm : moveDue s = true) (h : Licensed s) : Licensed (startMove s) := by
  unfold startMove
  split
  · rename_i hl
    unfold lidMoveEligible at hl
    simp only [Bool.and_eq_true, decide_eq_true_eq] at hl
    refine (setOff_lic _ _ _).2 (lic_mapShake_off (lic_mapLid_off h ?_) ?_)
    · show s.lid.valve = false
      exact valve_off h.1 (by rw [hl.1.1]; decide) (by rw [hl.1.1]; decide)
    · show s.shake.drive ≠ .driven
      exact shaker_off h.2 (by rw [hl.1.2]; decide) (by rw [hl.1.2]; decide)
  · split
    · exact h
    · rename_i hl _ t _
      unfold moveDue at hm
      simp only [Bool.and_eq_true, Bool.or_eq_true, hl, Bool.false_eq_true, false_or, decide_eq_true_eq] at hm
      have he := hm.1.2
      unfold dispMoveEligible at he
      simp only [Bool.and_eq_true, decide_eq_true_eq] at he
      refine (setOff_lic _ _ _).2 (lic_mapLid_off ((mapDisp_lic' _).2 ((commitTaken_lic _).2 h)) ?_)
      simpa using valve_off h.1 (by rw [he.1.2]; decide) (by rw [he.1.2]; decide)

@[simp] theorem startHomeRun_lic : Licensed (startHomeRun s) ↔ Licensed s := by simp [Licensed, DrivesLicensed]

@[simp] theorem startCarriage_lic (h : Licensed s) : Licensed (startCarriage s) := by
  unfold startCarriage
  split
  · exact startMove_lic (by assumption) h
  · split
    · exact (startHomeRun_lic).2 h
    · exact h

@[simp] theorem takeDeferred_lic (o : StartOwner) (h : Licensed s) : Licensed (takeDeferred o s) := by
  unfold takeDeferred
  split
  · exact kept_ite' (startCarriage_lic h) h
  · split
    · rename_i hc; simp only [Bool.and_eq_true] at hc; exact startPress_lic hc.2 h
    · exact h
  · split
    · rename_i hc; simp only [Bool.and_eq_true] at hc; exact startSpin_lic hc.2 h
    · exact h

@[simp] theorem takeAllDeferred_lic (h : Licensed s) : Licensed (takeAllDeferred s) :=
  takeDeferred_lic _ (takeDeferred_lic _ (takeDeferred_lic _ h))

@[simp] theorem reportCanister_lic (c : Slot) (h : Licensed s) : Licensed (reportCanister c s) := by
  unfold reportCanister
  try dsimp only
  repeat' split
  all_goals first | exact (judgePassed_lic).2 h | (simp (maxDischargeDepth := 20) [h]; done)

@[simp] theorem canisterFault_lic (c : Slot) (why : CanFault) (h : Licensed s) : Licensed (canisterFault c why s) := by
  unfold canisterFault
  refine reportCanister_lic c ?_
  try dsimp only
  repeat' split
  all_goals simp (maxDischargeDepth := 20) [h]

@[simp] theorem stirCompleted_lic (c : Slot) (h : Licensed s) : Licensed (stirCompleted c s) := by
  unfold stirCompleted
  exact reportCanister_lic c (by simpa using h)

@[simp] theorem keepDeferrals_lic (h : Licensed s) : Licensed (keepDeferrals s) := by
  unfold keepDeferrals
  try dsimp only
  repeat' split
  all_goals first | assumption | (simp (maxDischargeDepth := 20) [*]; done) | (simp_all [Licensed, DrivesLicensed, pressLicensed, shakerLicensed]; done)

@[simp] theorem dispPoint_lic (p : DispState) : Licensed (dispPoint p s) ↔ Licensed s := by simp [Licensed, DrivesLicensed]

@[simp] theorem lidPoint_lic (p : LidState) (h : Licensed s) : Licensed (lidPoint p s) := by
  unfold lidPoint
  unfold Licensed DrivesLicensed pressLicensed shakerLicensed at *
  simp only [State.mapLid_lid, State.mapLid_shake, State.mapLid_power, State.mapLid_air]
  repeat' split
  all_goals simp_all
  rcases ‹_ ∨ _› with h1 | h1 <;> simp_all

@[simp] theorem shakePoint_lic (p : ShakeState) (h : Licensed s) : Licensed (shakePoint p s) := by
  unfold shakePoint
  unfold Licensed DrivesLicensed pressLicensed shakerLicensed at *
  simp only [State.mapShake_lid, State.mapShake_shake, State.mapShake_power, State.mapShake_air]
  repeat' split
  all_goals simp_all

@[simp] theorem standStill_lic (st : CarriageState) : Licensed (standStill st s) ↔ Licensed s := by simp [Licensed, DrivesLicensed]

@[simp] theorem handOver_lic (m : Move) (t : TinRecord) (h : Licensed s) : Licensed (handOver m t s) := by
  unfold handOver
  dsimp only
  split
  · exact lidArrive_lic _ ((dispPoint_lic _).2 ((mapCarriage_lic' _).2 h))
  · exact shakeArrive_lic _ (lidPoint_lic _ ((mapCarriage_lic' _).2 h))
  · exact (mapCarriage_lic' _).2 h

@[simp] theorem arrive_lic (m : Move) (h : Licensed s) : Licensed (arrive m s) := by
  have h1 : Licensed (blankTrigger ((standStill .idle s).mapCarriage fun c => { c with move := none, charge := none })) :=
    (blankTrigger_lic).2 ((mapCarriage_lic' _).2 ((standStill_lic _).2 h))
  unfold arrive
  dsimp only
  split
  · exact handOver_lic _ _ h1
  · exact h1

@[simp] theorem handBack_lic (m : Move) (t : TinRecord) (h : Licensed s) : Licensed (handBack m t s) := by
  unfold handBack
  dsimp only
  split
  · exact lidPoint_lic _ ((mapDisp_lic' _).2 ((dispPoint_lic _).2 ((mapCarriage_lic' _).2 h)))
  · have h1 := lidPoint_lic .done ((mapCarriage_lic' (s := s) fun c => { c with tin := none }).2 h)
    exact shakePoint_lic _ ⟨h1.1, h1.2⟩
  · exact (mapCarriage_lic' _).2 h

@[simp] theorem placeTin_lic (h : Licensed s) : Licensed (placeTin s) := by
  unfold placeTin
  try dsimp only
  repeat' split
  all_goals first | assumption | (simp (maxDischargeDepth := 20) [*]; done) | (simp_all [Licensed, DrivesLicensed, pressLicensed, shakerLicensed]; done)

@[simp] theorem resolveCarriage_lic (h : Licensed s) : Licensed (resolveCarriage s) := by
  unfold resolveCarriage
  split
  · exact (mapCarriage_lic' _).2 (placeTin_lic h)
  · exact h

@[simp] theorem arriveHome_lic : Licensed (arriveHome s) ↔ Licensed s := by simp [Licensed, DrivesLicensed]

@[simp] theorem interruptShot_lic : Licensed (interruptShot s) ↔ Licensed s := by simp [Licensed, DrivesLicensed]

@[simp] theorem haltDisp_lic (dest : DispState) : Licensed (haltDisp dest s) ↔ Licensed s := by simp [Licensed, DrivesLicensed]

@[simp] theorem haltStroke_lic (estop : Bool) (h : Licensed s) : Licensed (haltStroke estop s) := by
  have off : s.lid.st ≠ .extend → s.lid.st ≠ .dwell → s.lid.valve = false := valve_off h.1
  unfold haltStroke
  split
  · exact (clearFlag_lic _).2 h
  · rename_i hs; exact giveUp_lic _ (fun _ => off (by rw [hs]; decide) (by rw [hs]; decide)) (fun hp => by cases hp) h
  · rename_i hs; exact giveUp_lic _ (fun _ => off (by rw [hs]; decide) (by rw [hs]; decide)) (fun hp => by cases hp) h
  · exact lic_mapLid_off h rfl
  · exact lic_mapLid_off h rfl
  · rename_i hs
    split
    · exact lic_mapLid_off h (off (by rw [hs]; decide) (by rw [hs]; decide))
    · exact h
  · exact h

@[simp] theorem haltLid_lic (dest : LidState) (estop : Bool) (h : Licensed s) : Licensed (haltLid dest estop s) := by
  unfold haltLid
  split
  · rename_i hs
    have hv : s.lid.valve = false := by
      refine valve_off h.1 ?_ ?_ <;> simp_all [lidStandsStopped] <;> rcases hs.2 with hs | hs <;> simp_all
    exact lic_mapLid_off h hv
  split
  · exact h
  · refine lic_mapLid_off (haltStroke_lic _ h) ?_
    have off : s.lid.st ≠ .extend → s.lid.st ≠ .dwell → s.lid.valve = false := valve_off h.1
    show (haltStroke estop s).lid.valve = false
    unfold haltStroke
    split <;> rename_i hs
    all_goals first
      | rfl
      | (simpa using off (by rw [hs]; decide) (by rw [hs]; decide))
      | (split <;> first | rfl | exact off (by rw [hs]; decide) (by rw [hs]; decide))
      | (refine off ?_ ?_ <;> simp_all)

@[simp] theorem haltShaker_lic (estop : Bool) (h : Licensed s) : Licensed (haltShaker estop s) := by
  have off : s.shake.st ≠ .spinUp → s.shake.st ≠ .run → s.shake.drive ≠ .driven := shaker_off h.2
  have h1 : Licensed (s.mapShake fun b => { b with clampDrive := .off, clamp := none }) := ⟨h.1, h.2⟩
  unfold haltShaker
  dsimp only
  split
  · rename_i hs; exact giveUp_lic _ (fun hp => by cases hp) (fun _ => off (by rw [hs]; decide) (by rw [hs]; decide)) h1
  · rename_i hs; exact giveUp_lic _ (fun hp => by cases hp) (fun _ => off (by rw [hs]; decide) (by rw [hs]; decide)) h1
  · split
    · exact lic_mapShake_off h1 (by simp)
    · exact lic_mapShake_off (brake_lic h1) (by simp [brake])
  · split
    · exact lic_mapShake_off h1 (by simp)
    · exact lic_mapShake_off (brake_lic h1) (by simp [brake])
  · rename_i hs
    refine lic_mapShake_off h1 ?_
    dsimp only
    split
    · decide
    · exact off (by rw [hs]; decide) (by rw [hs]; decide)
  · exact h1

@[simp] theorem haltShake_lic (dest : ShakeState) (estop : Bool) (h : Licensed s) : Licensed (haltShake dest estop s) := by
  have off : s.shake.st ≠ .spinUp → s.shake.st ≠ .run → s.shake.drive ≠ .driven := shaker_off h.2
  unfold haltShake
  split
  · exact h
  · refine lic_mapShake_off (haltShaker_lic _ h) ?_
    show (haltShaker estop s).shake.drive ≠ .driven
    unfold haltShaker
    dsimp only
    split <;> rename_i hs
    · simpa using off (by rw [hs]; decide) (by rw [hs]; decide)
    · simpa using off (by rw [hs]; decide) (by rw [hs]; decide)
    · split <;> simp [brake]
    · split <;> simp [brake]
    · simp only [State.mapShake_shake]
      split
      · decide
      · exact off (by rw [hs]; decide) (by rw [hs]; decide)
    · refine off ?_ ?_ <;> simp_all

@[simp] theorem faultBay_lic (x : BayId) (h : Licensed s) : Licensed (faultBay x s) := by
  unfold faultBay
  split
  · exact (haltDisp_lic _).2 h
  · have h1 := haltLid_lic .fault false h
    exact ⟨fun hc => ⟨(h1.1 hc).1, (h1.1 hc).2.1, rfl, (h1.1 hc).2.2.2⟩, h1.2⟩
  · exact haltShake_lic _ _ h

@[simp] theorem stopOthers_lic (x : BayId) (h : Licensed s) : Licensed (stopOthers x s) := by
  unfold stopOthers
  try dsimp only
  repeat' split
  all_goals first | assumption | (simp (maxDischargeDepth := 20) [*]; done) | (simp_all [Licensed, DrivesLicensed, pressLicensed, shakerLicensed]; done)

@[simp] theorem latch_lic (b : BayId) (k : FaultKind) (h : Licensed s) : Licensed (latch b k s) := by
  unfold latch
  try dsimp only
  repeat' split
  all_goals first | assumption | (simp (maxDischargeDepth := 20) [*]; done) | (simp_all [Licensed, DrivesLicensed, pressLicensed, shakerLicensed]; done)

@[simp] theorem loseLine_lic : Licensed (loseLine s) ↔ Licensed s := by simp [Licensed, DrivesLicensed]

@[simp] theorem closeLost_lic : Licensed (closeLost s) ↔ Licensed s := by simp [Licensed, DrivesLicensed]

@[simp] theorem closeFound_lic (b : BayId) : Licensed (closeFound b s) ↔ Licensed s := by simp [Licensed, DrivesLicensed]

@[simp] theorem loseDisp_lic (h : Licensed s) : Licensed (loseDisp s) := by
  have h2 : Licensed (latch .dispense .tinLost (((dropPre (loseLine (closeRequest s))).mapDisp fun d =>
      { d with lost := true }).mapTin .dispense fun t => { t with lost := true })) :=
    latch_lic _ _ (mapTin_lic _ _ ((mapDisp_lic' _).2 ((dropPre_lic).2 ((loseLine_lic).2 ((closeRequest_lic).2 h)))))
  unfold loseDisp
  dsimp only
  split
  · split
    · exact (closeLost_lic).2 h2
    · exact h2
  · exact h

@[simp] theorem loseLid_lic (h : Licensed s) : Licensed (loseLid s) := by
  have off : s.lid.st ≠ .extend → s.lid.st ≠ .dwell → s.lid.valve = false := valve_off h.1
  unfold loseLid
  dsimp only
  split
  · exact h
  · split
    · exact h
    · have h1 : Licensed (s.mapTin .lid fun t => (t.note .tinLost) |> fun t => { t with lost := true }) := mapTin_lic _ _ h
      have e : (s.mapTin .lid fun t => (t.note .tinLost) |> fun t => { t with lost := true }).lid.valve = s.lid.valve := rfl
      split <;> rename_i hs
      · exact enterLidLost_lic (by simpa [e] using off (by rw [hs]; decide) (by rw [hs]; decide)) ((clearFlag_lic _).2 h1)
      · have hv := off (by rw [hs]; decide) (by rw [hs]; decide)
        exact enterLidLost_lic (by simpa [e] using hv) (giveUp_lic _ (fun _ => hv) (fun hp => by cases hp) h1)
      · have hv := off (by rw [hs]; decide) (by rw [hs]; decide)
        exact enterLidLost_lic (by simpa [e] using hv) (giveUp_lic _ (fun _ => hv) (fun hp => by cases hp) h1)
      · exact lic_mapLid_off h1 rfl
      · exact lic_mapLid_off h1 rfl
      · exact enterLidLost_lic (by simpa [e] using off (by rw [hs]; decide) (by rw [hs]; decide)) h1
      · exact h1

@[simp] theorem loseShake_lic (h : Licensed s) : Licensed (loseShake s) := by
  have off : s.shake.st ≠ .spinUp → s.shake.st ≠ .run → s.shake.drive ≠ .driven := shaker_off h.2
  unfold loseShake
  dsimp only
  split
  · exact h
  · split
    · exact h
    · have h1 : Licensed (s.mapTin .shake fun t => (t.note .tinLost) |> fun t => { t with lost := true }) := mapTin_lic _ _ h
      split <;> rename_i hs
      · have hd := off (by rw [hs]; decide) (by rw [hs]; decide)
        exact enterAwaitRoom_lic hd (lic_mapShake_off h1 hd)
      · have hd := off (by rw [hs]; decide) (by rw [hs]; decide)
        exact enterAwaitRoom_lic (by simpa [State.mapTin] using hd) (giveUp_lic _ (fun hp => by cases hp) (fun _ => hd) h1)
      · have hd := off (by rw [hs]; decide) (by rw [hs]; decide)
        exact enterAwaitRoom_lic (by simpa [State.mapTin] using hd) (giveUp_lic _ (fun hp => by cases hp) (fun _ => hd) h1)
      · exact lic_mapShake_off (brake_lic h1) (by simp [brake])
      · exact lic_mapShake_off (brake_lic h1) (by simp [brake])
      · exact h1

@[simp] theorem enterTare_lic : Licensed (enterTare s) ↔ Licensed s := by simp [Licensed, DrivesLicensed]

@[simp] theorem returnToCalled_lic : Licensed (returnToCalled s) ↔ Licensed s := by simp [Licensed, DrivesLicensed]

@[simp] theorem enterCancelled_lic : Licensed (enterCancelled s) ↔ Licensed s := by simp [Licensed, DrivesLicensed]

@[simp] theorem resumeLine_lic : Licensed (resumeLine s) ↔ Licensed s := by simp [Licensed, DrivesLicensed]

@[simp] theorem resumeDispAt_lic (r : DispState) (h : Licensed s) : Licensed (resumeDispAt r s) := by
  unfold resumeDispAt
  try dsimp only
  repeat' split
  all_goals first | assumption | (simp (maxDischargeDepth := 20) [*]; done) | (simp_all [Licensed, DrivesLicensed, pressLicensed, shakerLicensed]; done)

@[simp] theorem resumeDisp_lic (h : Licensed s) : Licensed (resumeDisp s) := by
  unfold resumeDisp
  try dsimp only
  repeat' split
  all_goals first | assumption | (simp (maxDischargeDepth := 20) [*]; done) | (simp_all [Licensed, DrivesLicensed, pressLicensed, shakerLicensed]; done)

@[simp] theorem lidGoOn_lic (hv : s.lid.valve = false) (h : Licensed s) : Licensed (lidGoOn s) := by
  unfold lidGoOn
  split
  · exact h
  · split
    · exact enterLidLost_lic hv h
    · exact lidTest_lic hv h

@[simp] theorem homeCheck_lic (hv : s.lid.valve = false) (h : Licensed s) : Licensed (homeCheck s) := by
  unfold homeCheck
  split
  · exact lidGoOn_lic (by simpa using hv) (giveUp_lic _ (fun _ => hv) (fun hp => by cases hp) (lic_mapLid_off h hv))
  · exact lic_mapLid_off h hv

@[simp] theorem resumeLostLid_lic (hv : s.lid.valve = false) (h : Licensed s) : Licensed (resumeLostLid s) := by
  unfold resumeLostLid
  split
  · exact lic_mapLid_off h rfl
  · exact enterLidLost_lic (by simpa using hv) (giveUp_lic _ (fun _ => hv) (fun hp => by cases hp) h)

@[simp] theorem resumeLidAt_lic (r : LidState) (hv : s.lid.valve = false) (h : Licensed s) : Licensed (resumeLidAt r s) := by
  have hb : Licensed (s.mapLid fun b => { b with st := r, resume := none, removed := false }) := lic_mapLid_off h hv
  unfold resumeLidAt
  dsimp only
  split
  all_goals first
    | exact homeCheck_lic hv h
    | exact lidTest_lic hv hb
    | exact kept_ite' (lidTest_lic hv hb) hb
    | exact kept_ite' hb (loseLid_lic hb)
    | exact kept_ite' (lic_mapLid_off h hv) hb
    | exact hb

@[simp] theorem resumeLid_lic (h : Licensed s) : Licensed (resumeLid s) := by
  unfold resumeLid
  split
  · rename_i hm
    have hv : s.lid.valve = false := by
      unfold lidMayResume at hm
      simp only [Bool.and_eq_true, Bool.or_eq_true, decide_eq_true_eq] at hm
      refine valve_off h.1 ?_ ?_ <;> rcases hm.1.1 with hs | hs <;> simp_all
    split
    · exact kept_ite' (resumeLostLid_lic hv h) (resumeLidAt_lic _ hv h)
    · exact resumeLidAt_lic _ hv h
  · exact h

@[simp] theorem resumeShakeAt_lic (r : ShakeState) (hd : s.shake.drive ≠ .driven) (h : Licensed s) : Licensed (resumeShakeAt r s) := by
  have hb : Licensed (s.mapShake fun b => { b with st := r, resume := none, removed := false }) := lic_mapShake_off h hd
  unfold resumeShakeAt
  dsimp only
  split
  all_goals first
    | exact restartShake_lic hd hb
    | exact kept_ite' (enterClamp_lic hd hb) hb
    | exact enterAwaitRoom_lic hd hb
    | exact enterUnclamp_lic hd h
    | exact kept_ite' (enterUnclamp_lic hd hb) hb
    | exact kept_ite' (lic_mapShake_off hb hd) hb
    | exact kept_ite' (shakeOrphanGone_lic hd hb) hb
    | exact hb

@[simp] theorem resumeShake_lic (h : Licensed s) : Licensed (resumeShake s) := by
  unfold resumeShake
  split
  · rename_i hm
    have hd : s.shake.drive ≠ .driven := by
      unfold shakeMayResume at hm
      simp only [Bool.and_eq_true, Bool.or_eq_true, decide_eq_true_eq] at hm
      refine shaker_off h.2 ?_ ?_ <;> rcases hm.1.1 with hs | hs <;> simp_all
    split
    · exact kept_ite' (enterAwaitRoom_lic hd h) (resumeShakeAt_lic _ hd h)
    · exact resumeShakeAt_lic _ hd h
  · exact h

@[simp] theorem resumeAll_lic (h : Licensed s) : Licensed (resumeAll s) := by
  unfold resumeAll
  try dsimp only
  repeat' split
  all_goals first | assumption | (simp (maxDischargeDepth := 20) [*]; done) | (simp_all [Licensed, DrivesLicensed, pressLicensed, shakerLicensed]; done)

@[simp] theorem clearJam_lic (b : BayId) : Licensed (clearJam b s) ↔ Licensed s := by simp [Licensed, DrivesLicensed]

@[simp] theorem holdCleared_lic (b : BayId) (h : Licensed s) : Licensed (holdCleared b s) := by
  unfold holdCleared
  split
  · split
    · exact (mapDisp_lic' _).2 h
    · unfold Licensed DrivesLicensed pressLicensed shakerLicensed at *
      simp only [State.mapLid_lid, State.mapLid_shake, State.mapLid_power, State.mapLid_air]
      split <;> simp_all
    · unfold Licensed DrivesLicensed pressLicensed shakerLicensed at *
      simp only [State.mapShake_lid, State.mapShake_shake, State.mapShake_power, State.mapShake_air]
      split <;> simp_all
  · exact h

@[simp] theorem clearBay_lic (b : BayId) (h : Licensed s) : Licensed (clearBay b s) := by
  unfold clearBay
  try dsimp only
  repeat' split
  all_goals first | assumption | (simp (maxDischargeDepth := 20) [*]; done) | (simp_all [Licensed, DrivesLicensed, pressLicensed, shakerLicensed]; done)

@[simp] theorem clearStation_lic (h : Licensed s) : Licensed (clearStation s) := by
  unfold clearStation
  split
  · exact finishLost_lic.2 (resumeAll_lic (resolveCarriage_lic ((mapCarriage_lic' _).2 ((mapMon_lic' _).2 h))))
  · exact h

@[simp] theorem noteEverywhere_lic (k : FaultKind) (h : Licensed s) : Licensed (noteEverywhere k s) := by
  unfold noteEverywhere
  try dsimp only
  repeat' split
  all_goals first | assumption | (simp (maxDischargeDepth := 20) [*]; done) | (simp_all [Licensed, DrivesLicensed, pressLicensed, shakerLicensed]; done)

@[simp] theorem jamByStop_lic : Licensed (jamByStop s) ↔ Licensed s := by simp [Licensed, DrivesLicensed]

@[simp] theorem drivesOff_lic (h : Licensed s) : Licensed (drivesOff s) := by
  unfold drivesOff
  try dsimp only
  repeat' split
  all_goals first | assumption | (simp (maxDischargeDepth := 20) [*]; done) | (simp_all [Licensed, DrivesLicensed, pressLicensed, shakerLicensed]; done)

/-- The emergency stop leaves no shaker driven, whatever state it finds the bay in. -/
theorem haltShake_estop_undriven (h : Licensed s) : (haltShake .stopped true s).shake.drive ≠ .driven := by
  intro hd
  cases hst : s.shake.st <;> simp_all [haltShake, haltShaker, Licensed, DrivesLicensed, shakerLicensed]

@[simp] theorem applyEstop_lic (h : Licensed s) : Licensed (applyEstop s) := by
  unfold applyEstop
  have h0 : Licensed (haltDisp .stopped (freeAllStirs (dropPre (jamByStop (noteEverywhere .estop (blankTrigger s)))))) :=
    (haltDisp_lic _).2 ((freeAllStirs_lic).2 ((dropPre_lic).2 ((jamByStop_lic).2 (noteEverywhere_lic _
      ((blankTrigger_lic).2 h)))))
  have h1 := releaseOrder_lic .power (fun hp => by cases hp) (fun _ => haltShake_estop_undriven h0)
    (haltShake_lic .stopped true h0)
  refine (setFlag_lic _).2 ((mapMon_lic' _).2 (releaseOrder_lic _ (fun _ => by simp [drivesOff])
    (fun hp => by cases hp) (lic_mapShake_off (lic_mapLid_off ((mapCarriage_lic' _).2 ((interruptOp_lic).2
      (haltLid_lic .stopped true h1))) rfl) (by simp))))

@[simp] theorem markCancelled_lic : Licensed (markCancelled s) ↔ Licensed s := by simp [Licensed, DrivesLicensed]

@[simp] theorem cancelTin_lic : Licensed (cancelTin s) ↔ Licensed s := by simp [Licensed, DrivesLicensed]

@[simp] theorem cancelInBay_lic (e : CancelEffect) : Licensed (cancelInBay e s) ↔ Licensed s := by simp [Licensed, DrivesLicensed]

@[simp] theorem startCal_lic (i : Slot) (mask : Option Byte) : Licensed (startCal i mask s) ↔ Licensed s := by simp [Licensed, DrivesLicensed]

@[simp] theorem restartKeepalive_lic : Licensed (restartKeepalive s) ↔ Licensed s := by simp [Licensed, DrivesLicensed]

@[simp] theorem receiverGap_lic : Licensed (receiverGap s) ↔ Licensed s := by simp [Licensed, DrivesLicensed]

@[simp] theorem volatileReset_lic (h : Licensed s) : Licensed (volatileReset s) := ⟨fun hc => absurd (show false = true from hc) (by decide), fun hc => absurd (show ShakerDrive.off = .driven from hc) (by decide)⟩

@[simp] theorem scramble_lic (x : SectorId) : Licensed (scramble x s) ↔ Licensed s := by simp [Licensed, DrivesLicensed]

@[simp] theorem cutWrite_lic : Licensed (cutWrite s) ↔ Licensed s := by simp [Licensed, DrivesLicensed]

@[simp] theorem goDown_lic (p : Phase) (h : Licensed s) : Licensed (goDown p s) := (mapPhase_lic' _).2 (volatileReset_lic h)

@[simp] theorem resetStart_lic (h : Licensed s) : Licensed (resetStart s) := by
  unfold resetStart
  try dsimp only
  repeat' split
  all_goals first | assumption | (simp (maxDischargeDepth := 20) [*]; done) | (simp_all [Licensed, DrivesLicensed, pressLicensed, shakerLicensed]; done)

@[simp] theorem storeWritten_lic (agrees : Bool) (w : WriteJob) : Licensed (storeWritten agrees w s) ↔ Licensed s := by simp [Licensed, DrivesLicensed]

@[simp] theorem endWrite_lic (agrees : Bool) (h : Licensed s) : Licensed (endWrite agrees s) := by
  unfold endWrite
  split
  · exact h
  · split
    · exact goDown_lic _ ((storeWritten_lic _ _).2 h)
    · exact (storeWritten_lic _ _).2 h

@[simp] theorem placeDisp_lic : Licensed (placeDisp s) ↔ Licensed s := by simp [Licensed, DrivesLicensed]

@[simp] theorem placeLid_lic (hv : s.lid.valve = false) (h : Licensed s) : Licensed (placeLid s) := kept_ite' ((setFlag_lic _).2 (lic_mapLid_off h hv)) h

@[simp] theorem placeShake_lic (hd : s.shake.drive ≠ .driven) (h : Licensed s) : Licensed (placeShake s) := kept_ite' ((setFlag_lic _).2 (lic_mapShake_off h hd)) (kept_ite' (enterUnclamp_lic hd h) h)

@[simp] theorem startOffline_lic : Licensed (startOffline s) ↔ Licensed s := by simp [Licensed, DrivesLicensed]

@[simp] theorem startOnline_lic (hv : s.lid.valve = false) (hd : s.shake.drive ≠ .driven) (h : Licensed s) : Licensed (startOnline s) := by
  have h1 : Licensed (placeShake (placeLid (placeDisp (startLine s)))) :=
    placeShake_lic (by unfold placeLid; split <;> simpa using hd) (placeLid_lic (by simpa using hv) ((placeDisp_lic).2 ((startLine_lic).2 h)))
  unfold startOnline
  exact kept_ite' (applyEstop_lic h1) h1

@[simp] theorem startUp_lic (i : Inputs) (h : Licensed s) : Licensed (startUp i s) := by
  have h1 : Licensed ((((volatileReset s).mapPhase fun _ => .running).mapInputs fun _ => i).mapStore
      (judgedStore (loadSectors s.store.identBytes s.store.stationBytes) i.strap)) :=
    (mapStore_lic' _).2 ((mapInputs_lic' _).2 ((mapPhase_lic' _).2 (volatileReset_lic h)))
  have h2 : ∀ t : State, t.lid.valve = false → t.shake.drive ≠ .driven → Licensed t := fun t hv hd =>
    ⟨fun hc => absurd hc (by rw [hv]; decide), fun hc => absurd hc hd⟩
  unfold startUp
  dsimp only
  split <;> split
  · exact (startOffline_lic).2 ((setFlag_lic _).2 h1)
  · exact (startOffline_lic).2 h1
  · exact startOnline_lic rfl (show ShakerDrive.off ≠ .driven by decide) ((mapCfg_lic' _).2 ((setFlag_lic _).2 h1))
  · exact startOnline_lic rfl (show ShakerDrive.off ≠ .driven by decide) ((mapCfg_lic' _).2 h1)

@[simp] theorem tickStir_lic : Licensed (tickStir s) ↔ Licensed s := by simp [Licensed, DrivesLicensed]

@[simp] theorem tickPump_lic : Licensed (tickPump s) ↔ Licensed s := by simp [Licensed, DrivesLicensed]

@[simp] theorem tickScale_lic : Licensed (tickScale s) ↔ Licensed s := by simp [Licensed, DrivesLicensed]

@[simp] theorem tickCarriage_lic : Licensed (tickCarriage s) ↔ Licensed s := by simp [Licensed, DrivesLicensed]

@[simp] theorem tickLid_lic (h : Licensed s) : Licensed (tickLid s) := by
  unfold Licensed DrivesLicensed pressLicensed shakerLicensed at *
  simp only [tickLid, State.mapLid_lid, State.mapLid_shake, State.mapLid_power, State.mapLid_air]
  refine ⟨fun hc => ?_, h.2⟩
  obtain ⟨a, b, c, d⟩ := h.1 hc
  exact ⟨a, by simp [b, elapse], c, d⟩

@[simp] theorem tickShake_lic (h : Licensed s) : Licensed (tickShake s) := by
  unfold tickShake
  try dsimp only
  repeat' split
  all_goals first | assumption | (simp (maxDischargeDepth := 20) [*]; done) | (simp_all [Licensed, DrivesLicensed, pressLicensed, shakerLicensed]; done)

@[simp] theorem tickLine_lic : Licensed (tickLine s) ↔ Licensed s := by simp [Licensed, DrivesLicensed]

@[simp] theorem tickMon_lic : Licensed (tickMon s) ↔ Licensed s := by simp [Licensed, DrivesLicensed]

@[simp] theorem keepaliveLost_lic : Licensed (keepaliveLost s) ↔ Licensed s := by simp [Licensed, DrivesLicensed]

@[simp] theorem restartChecks_lic : Licensed (restartChecks s) ↔ Licensed s := by simp [Licensed, DrivesLicensed]

@[simp] theorem ageStirs_lic : Licensed (ageStirs s) ↔ Licensed s := by simp [Licensed, DrivesLicensed]

@[simp] theorem slowStir_lic (i : Slot) (h : Licensed s) : Licensed (slowStir i s) := by
  unfold slowStir
  try dsimp only
  repeat' split
  all_goals first | exact h | (simp (maxDischargeDepth := 20) [h]; done) | simpa [Licensed, DrivesLicensed] using h

@[simp] theorem fastStir_lic (i : Slot) (h : Licensed s) : Licensed (fastStir i s) := by
  unfold fastStir
  try dsimp only
  repeat' split
  all_goals first | exact h | (simp (maxDischargeDepth := 20) [h]; done) | simpa [Licensed, DrivesLicensed] using h

@[simp] theorem checkExpires_lic (i : Slot) (h : Licensed s) : Licensed (checkExpires i s) := by
  unfold checkExpires
  try dsimp only
  repeat' split
  all_goals first | exact h | (simp (maxDischargeDepth := 20) [h]; done) | simpa [Licensed, DrivesLicensed] using h

@[simp] theorem runExpires_lic (i : Slot) (h : Licensed s) : Licensed (runExpires i s) := by
  unfold runExpires
  try dsimp only
  repeat' split
  all_goals first | exact h | (simp (maxDischargeDepth := 20) [h]; done) | simpa [Licensed, DrivesLicensed] using h

@[simp] theorem pumpStalled_lic (i : Slot) (h : Licensed s) : Licensed (pumpStalled i s) := by
  unfold pumpStalled
  try dsimp only
  repeat' split
  all_goals first | assumption | (simp (maxDischargeDepth := 20) [*]; done) | (simp_all [Licensed, DrivesLicensed, pressLicensed, shakerLicensed]; done)

@[simp] theorem endSegment_lic (o : PumpOp) (h : Licensed s) : Licensed (endSegment o s) := by
  unfold endSegment
  try dsimp only
  repeat' split
  all_goals first | assumption | (simp (maxDischargeDepth := 20) [*]; done) | (simp_all [Licensed, DrivesLicensed, pressLicensed, shakerLicensed]; done)

@[simp] theorem segmentEnds_lic (h : Licensed s) : Licensed (segmentEnds s) := by
  unfold segmentEnds
  try dsimp only
  repeat' split
  all_goals first | assumption | (simp (maxDischargeDepth := 20) [*]; done) | (simp_all [Licensed, DrivesLicensed, pressLicensed, shakerLicensed]; done)

@[simp] theorem saturatedSample_lic (raw : Int) : Licensed (saturatedSample raw s) ↔ Licensed s := by simp [Licensed, DrivesLicensed]

@[simp] theorem reportCrossing_lic (above : Bool) (h : Licensed s) : Licensed (reportCrossing above s) := by
  unfold reportCrossing
  try dsimp only
  repeat' split
  all_goals first | assumption | (simp (maxDischargeDepth := 20) [*]; done) | (simp_all [Licensed, DrivesLicensed, pressLicensed, shakerLicensed]; done)

@[simp] theorem testThreshold_lic (net : Int) (h : Licensed s) : Licensed (testThreshold net s) := by
  unfold testThreshold
  dsimp only
  split
  · exact h
  · exact reportCrossing_lic _ ((mapScale_lic' _).2 h)

@[simp] theorem produceReading_lic : Licensed (produceReading s) ↔ Licensed s := by simp [Licensed, DrivesLicensed]

@[simp] theorem offerSample_lic (net : Int) : Licensed (offerSample net s) ↔ Licensed s := by simp [Licensed, DrivesLicensed]

@[simp] theorem takeSample_lic (raw : Int) (h : Licensed s) : Licensed (takeSample raw s) := by
  unfold takeSample
  dsimp only
  split
  · exact (saturatedSample_lic _).2 h
  · exact (offerSample_lic _).2 (testThreshold_lic _ ((mapScale_lic' _).2 h))

@[simp] theorem settleExpires_lic (h : Licensed s) : Licensed (settleExpires s) := by
  unfold settleExpires
  try dsimp only
  repeat' split
  all_goals first | assumption | (simp (maxDischargeDepth := 20) [*]; done) | (simp_all [Licensed, DrivesLicensed, pressLicensed, shakerLicensed]; done)

@[simp] theorem dispTinOn_lic : Licensed (dispTinOn s) ↔ Licensed s := by simp [Licensed, DrivesLicensed]

@[simp] theorem heldTinOff_lic (h : Licensed s) : Licensed (heldTinOff s) := by
  unfold heldTinOff
  try dsimp only
  repeat' split
  all_goals first | assumption | (simp (maxDischargeDepth := 20) [*]; done) | (simp_all [Licensed, DrivesLicensed, pressLicensed, shakerLicensed]; done)

@[simp] theorem cupLifted_lic : Licensed (cupLifted s) ↔ Licensed s := by simp [Licensed, DrivesLicensed]

@[simp] theorem dispTinOff_lic (h : Licensed s) : Licensed (dispTinOff s) := by
  unfold dispTinOff
  try dsimp only
  repeat' split
  all_goals first | assumption | (simp (maxDischargeDepth := 20) [*]; done) | (simp_all [Licensed, DrivesLicensed, pressLicensed, shakerLicensed]; done)

@[simp] theorem arrivalSensed_lic (h : Licensed s) : Licensed (arrivalSensed s) := by
  unfold arrivalSensed
  try dsimp only
  repeat' split
  all_goals first | assumption | (simp (maxDischargeDepth := 20) [*]; done) | (simp_all [Licensed, DrivesLicensed, pressLicensed, shakerLicensed]; done)

@[simp] theorem moveJams_lic (h : Licensed s) : Licensed (moveJams s) := by
  unfold moveJams
  try dsimp only
  repeat' split
  all_goals first | assumption | (simp (maxDischargeDepth := 20) [*]; done) | (simp_all [Licensed, DrivesLicensed, pressLicensed, shakerLicensed]; done)

@[simp] theorem homeSensed_lic : Licensed (homeSensed s) ↔ Licensed s := by simp [Licensed, DrivesLicensed]

@[simp] theorem strokeFails_lic (k : FaultKind) (h : Licensed s) : Licensed (strokeFails k s) := by
  unfold strokeFails
  try dsimp only
  repeat' split
  all_goals first | assumption | (simp (maxDischargeDepth := 20) [*]; done) | (simp_all [Licensed, DrivesLicensed, pressLicensed, shakerLicensed]; done)

@[simp] theorem seatedSensed_lic (h : Licensed s) : Licensed (seatedSensed s) := by
  unfold seatedSensed
  try dsimp only
  repeat' split
  all_goals first | assumption | (simp (maxDischargeDepth := 20) [*]; done) | (simp_all [Licensed, DrivesLicensed, pressLicensed, shakerLicensed]; done)

@[simp] theorem seatExpires_lic (h : Licensed s) : Licensed (seatExpires s) := kept_ite' (strokeFails_lic _ ⟨h.1, h.2⟩) h

@[simp] theorem pressHomeSensed_lic (h : Licensed s) : Licensed (pressHomeSensed s) := by
  unfold pressHomeSensed
  dsimp only
  split
  · rename_i hs; exact endStroke_lic hs h
  · split
    · rename_i hc
      have hv := valve_off_home h.1 (Or.inr hc)
      have h1 : Licensed (giveUp .air (s.mapLid fun b => { b with home := none, homeCheck := false })) :=
        giveUp_lic _ (fun _ => hv) (fun hp => by cases hp) (lic_mapLid_off h hv)
      exact kept_ite' h1 (lidGoOn_lic (by simpa using hv) h1)
    · split
      · rename_i hh
        have hv := valve_off_home h.1 (Or.inl hh)
        exact giveUp_lic _ (fun _ => hv) (fun hp => by cases hp) (lic_mapLid_off h hv)
      · exact h

@[simp] theorem homeExpires_lic (h : Licensed s) : Licensed (homeExpires s) := by
  unfold homeExpires
  dsimp only
  split
  · rename_i hh
    have hv := valve_off_home h.1 (Or.inl (reached_isSome hh))
    have h1 : Licensed (giveUp .air (s.mapLid fun b => { b with home := none })) :=
      giveUp_lic _ (fun _ => hv) (fun hp => by cases hp) (lic_mapLid_off h hv)
    repeat' split
    all_goals first | exact latch_lic _ _ h1 | exact strokeFails_lic _ h1 | exact h1
  · exact h

@[simp] theorem guardChanged_lic (isOpen : Bool) (h : Licensed s) : Licensed (guardChanged isOpen s) := by
  unfold guardChanged
  try dsimp only
  repeat' split
  all_goals first | assumption | (simp (maxDischargeDepth := 20) [*]; done) | (simp_all [Licensed, DrivesLicensed, pressLicensed, shakerLicensed]; done)

@[simp] theorem lidTinOff_lic (h : Licensed s) : Licensed (lidTinOff s) := by
  unfold lidTinOff
  try dsimp only
  repeat' split
  all_goals first | assumption | (simp (maxDischargeDepth := 20) [*]; done) | (simp_all [Licensed, DrivesLicensed, pressLicensed, shakerLicensed]; done)

@[simp] theorem clampSensed_lic (closed : Bool) (h : Licensed s) : Licensed (clampSensed closed s) := by
  have off : s.shake.st ≠ .spinUp → s.shake.st ≠ .run → s.shake.drive ≠ .driven := shaker_off h.2
  unfold clampSensed
  split
  · split
    · rename_i hs; exact clampConfirmed_lic (off (by rw [hs]; decide) (by rw [hs]; decide)) h
    · exact h
  · split
    · rename_i hs; exact afterUnclamp_lic (off (by rw [hs]; decide) (by rw [hs]; decide)) h
    · exact h

@[simp] theorem clampExpires_lic (h : Licensed s) : Licensed (clampExpires s) := by
  unfold clampExpires
  split
  · exact latch_lic _ _ ⟨h.1, h.2⟩
  · exact h

@[simp] theorem judgeSpeed_lic (period : Nat) (h : Licensed s) : Licensed (judgeSpeed period s) := by
  unfold judgeSpeed
  repeat' split
  all_goals first | exact latch_lic _ _ ⟨h.1, h.2⟩ | exact ⟨h.1, h.2⟩

@[simp] theorem measure_lic (period : Nat) (h : Licensed s) : Licensed (Machine.measure period s) := by
  have h1 : Licensed (s.mapShake fun b => { b with lastSpeed := some period }) := ⟨h.1, h.2⟩
  unfold Machine.measure
  dsimp only
  split
  · exact kept_ite' (reachSpeed_lic h1) h1
  · exact judgeSpeed_lic _ h1
  · exact h1

@[simp] theorem saturatedSpeed_lic (h : Licensed s) : Licensed (saturatedSpeed s) := by
  have h1 : Licensed (s.mapShake fun b => { b with lastSpeed := some Config.speedSaturation }) := ⟨h.1, h.2⟩
  unfold saturatedSpeed
  dsimp only
  split
  · exact endShake_lic h1
  · exact judgeSpeed_lic _ h1
  · exact kept_ite' (resumeShake_lic (comeToRest_lic h1)) h1

@[simp] theorem secondRun_lic (h : Licensed s) : Licensed (secondRun s) := by
  unfold secondRun
  try dsimp only
  repeat' split
  all_goals first | assumption | (simp (maxDischargeDepth := 20) [*]; done) | (simp_all [Licensed, DrivesLicensed, pressLicensed, shakerLicensed]; done)

@[simp] theorem runEnds_lic (h : Licensed s) : Licensed (runEnds s) := kept_ite' (lic_mapShake_off (brake_lic h) (by simp [brake])) h

@[simp] theorem shakeTinOff_lic (h : Licensed s) : Licensed (shakeTinOff s) := by
  have off : s.shake.st ≠ .spinUp → s.shake.st ≠ .run → s.shake.drive ≠ .driven := shaker_off h.2
  have hr : Licensed (s.mapShake fun b => { b with removed := true }) := ⟨h.1, h.2⟩
  unfold shakeTinOff
  split <;> rename_i hs
  · exact shakeOrphanGone_lic (off (by rw [hs]; decide) (by rw [hs]; decide)) h
  · exact lic_mapShake_off h (off (by rw [hs]; decide) (by rw [hs]; decide))
  · exact hr
  · exact kept_ite' hr (loseShake_lic h)
  · exact kept_ite' hr (loseShake_lic h)
  · exact loseShake_lic h

@[simp] theorem loseArbitration_lic (h : Licensed s) : Licensed (loseArbitration s) := by
  unfold loseArbitration
  try dsimp only
  repeat' split
  all_goals first | assumption | (simp (maxDischargeDepth := 20) [*]; done) | (simp_all [Licensed, DrivesLicensed, pressLicensed, shakerLicensed]; done)

@[simp] theorem transmitFails_lic (h : Licensed s) : Licensed (transmitFails s) := by
  unfold transmitFails
  try dsimp only
  repeat' split
  all_goals first | assumption | (simp (maxDischargeDepth := 20) [*]; done) | (simp_all [Licensed, DrivesLicensed, pressLicensed, shakerLicensed]; done)

@[simp] theorem frameEnds_lic (h : Licensed s) : Licensed (frameEnds s) := by
  unfold frameEnds
  try dsimp only
  repeat' split
  all_goals first | assumption | (simp (maxDischargeDepth := 20) [*]; done) | (simp_all [Licensed, DrivesLicensed, pressLicensed, shakerLicensed]; done)

@[simp] theorem waitExpires_lic (p : Pool) (h : Licensed s) : Licensed (waitExpires p s) := by
  unfold waitExpires
  split
  · exact (setFlag_lic _).2 (lic_mapAgent h fun hh => hh)
  · exact h

end Sys2Proof.Laws
end

