-- ==== Sys2Proof/Laws/PerInstr.lean ====
section
/-! SUPPORT. For every command: the payload of the request that a well-formed one brings fits a message (R183, R206). -/

namespace Sys2Proof.Laws.Fits

open Sys2Proof Sys2Proof.Machine Sys2Proof.Safety

/-- A well-formed command that is a request has a payload that a message can carry. -/
def Statement (i : Instr) : Prop :=
  i.wellFormed = true → ∀ r, requestOfCommand i = some r → (requestPayload r).length ≤ maxPayload

theorem bytesOf_length (w v : Nat) : (bytesOf w v).length = w := by
  induction w generalizing v with
  | zero => rfl
  | succ w ih => simp [bytesOf, ih]

theorem lines_length (l : List (Byte × Word16)) :
    (l.map fun x => x.1 :: bytesOf 2 x.2.toNat).flatten.length = 3 * l.length := by
  induction l with
  | nil => rfl
  | cons x xs ih =>
    simp only [List.map_cons, List.flatten_cons, List.length_append, List.length_cons, bytesOf_length, ih]
    omega

/-- A command that is no request asks nothing of the length. -/
theorem of_none {i : Instr} (h : requestOfCommand i = none) : Statement i := fun _ r hr => by
  rw [h] at hr; cases hr

/-- A request of a bounded payload. -/
theorem of_short {i : Instr} {r : Request} (h : requestOfCommand i = some r)
    (hl : i.wellFormed = true → (requestPayload r).length ≤ maxPayload) : Statement i := fun hw q hq => by
  rw [h] at hq; cases hq; exact hl hw

theorem powerOn : Statement .powerOn := of_none rfl

theorem resetLine (active : Bool) : Statement (.resetLine active) := of_none rfl

theorem startUp (inputs : Inputs) : Statement (.startUp inputs) := of_none rfl

theorem nvWriteDone (agrees : Bool) : Statement (.nvWriteDone agrees) := of_none rfl

theorem messageComplete (bytes : List Byte) : Statement (.messageComplete bytes) := of_none rfl

theorem messageGap : Statement .messageGap := of_none rfl

theorem oversizeMessage (length : Word16) : Statement (.oversizeMessage length) := of_none rfl

theorem responseSent : Statement .responseSent := of_none rfl

theorem submit (f : SubmitFields) : Statement (.submit f) := of_short rfl fun h => by
  have h1 : 11 + 3 * f.lines.length ≤ maxPayload := of_decide_eq_true h
  simp only [requestPayload, List.length_append, List.length_cons, List.length_nil, bytesOf_length, lines_length]
  omega

theorem cancel (job : Word16) : Statement (.cancel job) :=
  of_short rfl fun _ => by simp [requestPayload, bytesOf_length, maxPayload]

theorem setPrio (job : Word16) (priority : Byte) : Statement (.setPrio job priority) :=
  of_short rfl fun _ => by simp [requestPayload, bytesOf_length, maxPayload]

theorem queryJob (job : Word16) : Statement (.queryJob job) :=
  of_short rfl fun _ => by simp [requestPayload, bytesOf_length, maxPayload]

theorem queryBays : Statement .queryBays :=
  of_short rfl fun _ => by simp [requestPayload, bytesOf_length, maxPayload]

theorem takeRecord : Statement .takeRecord :=
  of_short rfl fun _ => by simp [requestPayload, bytesOf_length, maxPayload]

theorem canLoad (f : CanLoadFields) : Statement (.canLoad f) :=
  of_short rfl fun _ => by simp [requestPayload, bytesOf_length, maxPayload]

theorem canLevel (slot : Byte) (level : Word32) : Statement (.canLevel slot level) :=
  of_short rfl fun _ => by simp [requestPayload, bytesOf_length, maxPayload]

theorem canQuery (slot : Byte) : Statement (.canQuery slot) :=
  of_short rfl fun _ => by simp [requestPayload, bytesOf_length, maxPayload]

theorem canClear (slot : Byte) : Statement (.canClear slot) :=
  of_short rfl fun _ => by simp [requestPayload, bytesOf_length, maxPayload]

theorem calibrate (slot : Byte) (mask : Option Byte) : Statement (.calibrate slot mask) :=
  of_short rfl fun _ => by cases mask <;> simp [requestPayload, maxPayload]

theorem calAbort : Statement .calAbort :=
  of_short rfl fun _ => by simp [requestPayload, bytesOf_length, maxPayload]

theorem lids (lidType : Byte) : Statement (.lids lidType) :=
  of_short rfl fun _ => by simp [requestPayload, bytesOf_length, maxPayload]

theorem events : Statement .events :=
  of_short rfl fun _ => by simp [requestPayload, bytesOf_length, maxPayload]

theorem eventAck (set : Word16) : Statement (.eventAck set) :=
  of_short rfl fun _ => by simp [requestPayload, bytesOf_length, maxPayload]

theorem eventMask (set : Word16) : Statement (.eventMask set) :=
  of_short rfl fun _ => by simp [requestPayload, bytesOf_length, maxPayload]

theorem mode (code : Byte) : Statement (.mode code) :=
  of_short rfl fun _ => by simp [requestPayload, bytesOf_length, maxPayload]

theorem clearFault (code : Byte) : Statement (.clearFault code) :=
  of_short rfl fun _ => by simp [requestPayload, bytesOf_length, maxPayload]

theorem clearFaultStation : Statement .clearFaultStation :=
  of_short rfl fun _ => by simp [requestPayload, bytesOf_length, maxPayload]

theorem resume : Statement .resume :=
  of_short rfl fun _ => by simp [requestPayload, bytesOf_length, maxPayload]

theorem peers : Statement .peers :=
  of_short rfl fun _ => by simp [requestPayload, bytesOf_length, maxPayload]

theorem nvRead (sector part : Byte) : Statement (.nvRead sector part) :=
  of_short rfl fun _ => by simp [requestPayload, bytesOf_length, maxPayload]

theorem nvStore (sector part : Byte) (image : List Byte) : Statement (.nvStore sector part image) := of_short rfl fun h => by
  have h1 : 2 + image.length ≤ maxPayload := of_decide_eq_true h
  simp only [requestPayload, List.length_cons]
  omega

theorem reset : Statement .reset :=
  of_short rfl fun _ => by simp [requestPayload, bytesOf_length, maxPayload]

theorem ping (payload : List Byte) : Statement (.ping payload) := of_short rfl fun h => of_decide_eq_true h

theorem keepaliveExpiry : Statement .keepaliveExpiry := of_none rfl

theorem emergencyStop : Statement .emergencyStop := of_none rfl

theorem estopInputReleased : Statement .estopInputReleased := of_none rfl

theorem cabinetDoorOpen : Statement .cabinetDoorOpen := of_none rfl

theorem cabinetDoorClose : Statement .cabinetDoorClose := of_none rfl

theorem minuteTimer : Statement .minuteTimer := of_none rfl

theorem stirrerRevolution (slot : Slot) (period : Nat) : Statement (.stirrerRevolution slot period) :=
  of_none rfl

theorem stirrerSpeedSaturated (slot : Slot) : Statement (.stirrerSpeedSaturated slot) := of_none rfl

theorem stirSpeedTimeout (slot : Slot) : Statement (.stirSpeedTimeout slot) := of_none rfl

theorem stirRunExpiry (slot : Slot) : Statement (.stirRunExpiry slot) := of_none rfl

theorem valveTurnDone : Statement .valveTurnDone := of_none rfl

theorem rotationPulse (slot : Slot) : Statement (.rotationPulse slot) := of_none rfl

theorem pumpSegmentEnd : Statement .pumpSegmentEnd := of_none rfl

theorem scaleSample (raw : Int) : Statement (.scaleSample raw) := of_none rfl

theorem blankTimerExpiry : Statement .blankTimerExpiry := of_none rfl

theorem settleTimeout : Statement .settleTimeout := of_none rfl

theorem tinPresenceDispense (on : Bool) : Statement (.tinPresenceDispense on) := of_none rfl

theorem recordJoin : Statement .recordJoin := of_none rfl

theorem carriageMoveStart : Statement .carriageMoveStart := of_none rfl

theorem quietDeferralExpiry (owner : StartOwner) : Statement (.quietDeferralExpiry owner) := of_none rfl

theorem carriageArrival : Statement .carriageArrival := of_none rfl

theorem moveTimeout : Statement .moveTimeout := of_none rfl

theorem homeRunStart : Statement .homeRunStart := of_none rfl

theorem carriageHome : Statement .carriageHome := of_none rfl

theorem magazineSensor (present : Bool) : Statement (.magazineSensor present) := of_none rfl

theorem pressStart : Statement .pressStart := of_none rfl

theorem lidSeated : Statement .lidSeated := of_none rfl

theorem seatLimit : Statement .seatLimit := of_none rfl

theorem dwellExpiry : Statement .dwellExpiry := of_none rfl

theorem pressHomeSensor : Statement .pressHomeSensor := of_none rfl

theorem homeLimit : Statement .homeLimit := of_none rfl

theorem pressGuard (isOpen : Bool) : Statement (.pressGuard isOpen) := of_none rfl

theorem tinPresenceLid (on : Bool) : Statement (.tinPresenceLid on) := of_none rfl

theorem clampSensor (closed : Bool) : Statement (.clampSensor closed) := of_none rfl

theorem clampTimeout : Statement .clampTimeout := of_none rfl

theorem spinUpStart : Statement .spinUpStart := of_none rfl

theorem shakerRevolution (period : Nat) : Statement (.shakerRevolution period) := of_none rfl

theorem shakerSpeedSaturated : Statement .shakerSpeedSaturated := of_none rfl

theorem spinUpTimeout : Statement .spinUpTimeout := of_none rfl

theorem shakeSecond : Statement .shakeSecond := of_none rfl

theorem shakeRunExpiry : Statement .shakeRunExpiry := of_none rfl

theorem tinPresenceShake (on : Bool) : Statement (.tinPresenceShake on) := of_none rfl

theorem frameStart : Statement .frameStart := of_none rfl

theorem arbitrationLost : Statement .arbitrationLost := of_none rfl

theorem transmitError : Statement .transmitError := of_none rfl

theorem frameSent : Statement .frameSent := of_none rfl

theorem frameDiscarded (cause : DiscardCause) : Statement (.frameDiscarded cause) := of_none rfl

theorem claimReceived (src : Station) (pool : Pool) (amount : Byte) : Statement (.claimReceived src pool amount) :=
  of_none rfl

theorem adjustReceived (src : Station) (pool : Pool) (amount : Byte) : Statement (.adjustReceived src pool amount) :=
  of_none rfl

theorem releaseReceived (src : Station) (pool : Pool) : Statement (.releaseReceived src pool) := of_none rfl

theorem waitReceived (src : Station) (pool : Pool) (amount count : Byte) : Statement (.waitReceived src pool amount count) :=
  of_none rfl

theorem beaconReceived (src : Station) (contents : Beacon) : Statement (.beaconReceived src contents) :=
  of_none rfl

theorem beaconTimerExpiry : Statement .beaconTimerExpiry := of_none rfl

theorem rosterAgeOut (station : Station) : Statement (.rosterAgeOut station) := of_none rfl

theorem waitTimerExpiry (pool : Pool) : Statement (.waitTimerExpiry pool) := of_none rfl

theorem powerLoss : Statement .powerLoss := of_none rfl

end Sys2Proof.Laws.Fits
end

