-- ==== Sys2Proof/Tests/Slice0.lean ====
section
/-! SUPPORT. Tests: the checks of WellFormed.lean refuse, figures of the spec's worked cases, a few single commands, and for
every statement that has hypotheses a concrete state that meets them, clause by clause. -/

namespace Sys2Proof.Tests

open Sys2Proof Sys2Proof.Machine Sys2Proof.Safety

-- One test at a time: a kernel evaluation waits for every earlier one, and each that waits holds a thread's whole stack.
set_option Elab.async false

/-! ## WellFormed refuses an ill-formed command of each check -/

theorem test_refuses_long_submit : Instr.wellFormed (.submit
    { orderRef := 1, size := 0, count := 1, priority := 1, shakeTime := 0, shakeClass := 0, lineCount := 95
      lines := List.replicate 95 (1, 1) }) = false := by decide
theorem test_refuses_long_image : Instr.wellFormed (.nvStore 0 0 (List.replicate 293 0)) = false := by decide +kernel
theorem test_refuses_long_ping : Instr.wellFormed (.ping (List.replicate 295 0)) = false := by decide +kernel
theorem test_refuses_no_bytes : Instr.wellFormed (.messageComplete []) = false := by decide
theorem test_refuses_fitting_message_as_oversize : Instr.wellFormed (.oversizeMessage 294) = false := by decide
theorem test_refuses_saturated_stirrer : Instr.wellFormed (.stirrerRevolution 0 2000000) = false := by decide
theorem test_refuses_saturated_shaker : Instr.wellFormed (.shakerRevolution 2000000) = false := by decide
theorem test_refuses_empty_claim : Instr.wellFormed (.claimReceived 1 .power 0) = false := by decide
theorem test_refuses_empty_adjust : Instr.wellFormed (.adjustReceived 1 .power 0) = false := by decide
theorem test_refuses_empty_wait : Instr.wellFormed (.waitReceived 1 .power 0 1) = false := by decide

def beacon (mode interval jobs bays : Byte) : Beacon :=
  { mode := mode, interval := interval, powerHeld := 0, airHeld := 0, powerWait := 0, powerCount := 0, airWait := 0
    airCount := 0, jobs := jobs, bays := bays }

theorem test_refuses_beacon_ranges :
    Instr.wellFormed (.beaconReceived 1 (beacon 3 0 0 0)) = false ∧
    Instr.wellFormed (.beaconReceived 1 (beacon 0 19 0 0)) = false ∧
    Instr.wellFormed (.beaconReceived 1 (beacon 0 0 25 0)) = false ∧
    Instr.wellFormed (.beaconReceived 1 (beacon 0 0 0 8)) = false ∧
    Instr.wellFormed (.beaconReceived 1 (beacon 2 18 24 7)) = true := by decide

/-! ## Figures of the worked cases -/

/-- Section 3.2's small shots: 6, 4 and 3 cml per litre in a 750 ml tin on a minimum shot of 5 cml. -/
theorem test_small_shots :
    plannedVolume 6 750 = 5 ∧ finalVolume 5 5 = 5 ∧ plannedVolume 4 750 = 3 ∧ finalVolume 3 5 = 5 ∧
    plannedVolume 3 750 = 2 ∧ finalVolume 2 5 = 0 ∧ stepCount 5 640 = 32 ∧ expectedGain 5 1320 = 66 := by decide

/-- Section 3.5's large shot. -/
theorem test_large_shot :
    plannedVolume 1875 5000 = 9375 ∧ stepCount 9375 640 = 60000 ∧ expectedGain 9375 1320 = 123750 ∧
    tolerance General.default 123750 = 2475 := by decide

/-- The settled reading of chapter 4: ten samples about 40,112 counts. -/
theorem test_settled_reading :
    settledMean [40112, 40113, 40111, 40112, 40114, 40112, 40113, 40112, 40111, 40113] = 40112 := by decide

/-- Section 6.9's calibration: factors, the prime debits and the judgement of both passes. -/
theorem test_calibration :
    testFactor 320 1320 640 = 660 ∧ testFactor 1280 1320 2610 = 647 ∧ testFactor 3200 1320 6590 = 641 ∧
    nominalVolume 400 640 = 63 ∧ nominalVolume 800 640 = 125 ∧
    (let r (k : Nat) : CalResult := { steps := 0, gain := 0, ki := k }
     passK [r 660, r 647, r 641] = 649 ∧ passSucceeds 15 [r 660, r 647, r 641] = false ∧
     passK [r 650, r 647, r 646] = 648 ∧ passSucceeds 15 [r 650, r 647, r 646] = true) := by decide

/-- The speed limits of the shaker: 600 rpm reached at 5 percent over its period, slow at 15 percent over. -/
theorem test_shaker_limits : reachLimit 100000 = 105000 ∧ slowLimit 100000 = 115000 := by decide

/-! ## Small states -/

def at_ (m : Mode) : State := { State.reset with mon := { Monitor.reset with mode := m } }
def on : State := at_ .run
def off : State := at_ .offline
def maint : State := at_ .maint

def tin : TinRecord :=
  { jobId := 1, orderRef := 1, index := 1, batch := 2, size := 0, shakeTime := 60, shakeClass := .normal, tare := none
    lid := none, shake := none, verdict := none, notes := [], lost := false, cancelled := false, committed := false
    lines := [] }

def job (id count issued priority : Nat) : Job :=
  { id := id, orderRef := 1, arrival := id, size := 0, count := count, issued := issued, priority := priority
    shakeTime := none, shakeClass := .normal, lines := [] }

def inDisp (d : DispState) (t : Option TinRecord) : State := { on with disp := { on.disp with st := d, tin := t } }
def inLid (l : LidState) (t : Option TinRecord) : State := { on with lid := { on.lid with st := l, tin := t } }
def inShake (h : ShakeState) (t : Option TinRecord) : State := { on with shake := { on.shake with st := h, tin := t } }
def inMove (m : Move) (t : Option TinRecord) : State :=
  { on with carriage := { on.carriage with st := .moving, move := some m, tin := t, charge := some .dispense } }

def canister (st : CanState) (a : Activity) : Canister :=
  { Canister.reset with state := st, activity := a, density := 1000, k := 640, level := 100000, age := 0 }

def withCan (c : Canister) (s : State) : State := { s with cans := s.cans.set 0 c }

def stirred (check : Option Nat) (slow : Nat) (expired : Bool) : State :=
  { withCan (canister .ready .stirring) on with
    stir := { on.stir with
      runs := [{ slot := 0, left := 10, check := check, slow := slow, expired := expired }] } }

def op (segment : Segment) (stage : SegStage) (toRun run pulses : Nat) (paused : Bool) : PumpOp :=
  { slot := 0, kind := .lineShot, total := toRun, k := 640, counted := run, segment := segment, stage := stage
    toRun := toRun, run := run, pulses := pulses, turn := 0, frac := 0, paused := paused }

def pumping (o : PumpOp) : State := { withCan (canister .ready .pumping) on with pump := { on.pump with op := some o } }

def inLine (l : LineCtlState) : State :=
  { on with
    cfg := { on.cfg with ident := { on.cfg.ident with lineMode := .peer } }
    line := { on.line with st := l, beacon := some 5 } }

def frame (k : NoticeKind) (attempts : Nat) : Frame :=
  { kind := k, pool := .power, amount := 5, count := 0, attempts := attempts }

def sending (l : LineCtlState) (f : Frame) : State :=
  { inLine l with line := { (inLine l).line with
    queue := [f], attempt := some { frame := f, fate := .queued, bytes := [] } } }

def asking (p : Pool) (a : AgentState) (s : State) : State := s.mapAgent p fun g => { g with st := a, asked := some 5 }

/-! ## Single commands -/

/-- A PING from reset is answered with its payload. -/
theorem test_ping :
    (match step { State.reset with pending := [.ping [1, 2]] } with
     | .next t => t.port.answering.map (·.payload)
     | _ => none) = some [1, 2] := by decide

/-- MODE takes the station from PAUSE to RUN. -/
theorem test_mode :
    (match exec (.mode 1) State.reset with
     | .next t => some t.mon.mode
     | _ => none) = some .run := by decide

/-- The emergency stop holds the three bays. -/
theorem test_emergency_stop :
    (match exec .emergencyStop on with
     | .next t => some (t.disp.st, t.lid.st, t.shake.st)
     | _ => none) = some (.stopped, .stopped, .stopped) := by decide +kernel

/-- The CRC of R205 over the digits 1 to 9. -/
theorem test_crc : crc16 [0x31, 0x32, 0x33, 0x34, 0x35, 0x36, 0x37, 0x38, 0x39] = 0x29B1 := by decide +kernel

/-! ## States that meet the statements' hypotheses -/

/-- A part that serves requests: in RUN and in MAINT; the port is free in OFFLINE too. -/
theorem test_serving : serving on ∧ serving maint ∧ portFree off ∧ off.mon.mode = .offline :=
  ⟨⟨⟨rfl, rfl, rfl⟩, by decide⟩, ⟨⟨rfl, rfl, rfl⟩, by decide⟩, ⟨rfl, rfl, rfl⟩, rfl⟩

/-- What a request leaves before its owner answers: the keepalive timer only. -/
def u : State := restartKeepalive on

theorem test_reaches_steps :
    ({ on with pending := [.ping []] } : State).pending = [.ping []] ∧
    (off.pending = [] ∧ off.online = false) ∧ (on.pending = [] ∧ on.online = true ∧ on.pump.op = none) ∧
    (∀ o ∈ [op .forward .turnOut 640 0 0 false, op .home .turnBack 640 0 0 false, op .forward .moving 640 0 0 true,
      op .forward .moving 640 0 0 false],
      (pumping o).pending = [] ∧ (pumping o).online = true ∧ (pumping o).pump.op = some o) := by decide

def queued (l : List Job) (s : State) : State := { s with jobs := { s.jobs with records := l, nextId := 9, nextArrival := 9 } }

theorem test_reaches_call :
    (let s := queued [job 1 1 0 3, job 2 1 0 1] on
     s.online = true ∧ s.disp.st = .empty ∧ s.mon.mode = .run ∧ s.mon.safe = false ∧ s.inputs.presDispense = false ∧
     s.stopStands = false ∧ (s.jobs.records.find? fun k => decide (k.priority ≤ 2)) = some (job 2 1 0 1)) ∧
    (let s := queued [job 1 3 1 0] on
     (s.jobs.records.find? fun k => decide (k.priority ≤ 2)) = some (job 1 3 1 0) ∧ s.stopStands = false) ∧
    (∀ k ∈ (queued [job 1 1 0 3] on).jobs.records, 2 < k.priority) ∧ maint.mon.mode ≠ .run := by decide

def hungry : State := withCan { canister .ready .idle with age := 300 } on

theorem test_reaches_grants :
    on.online = true ∧ (settle on).stir.runs.length < 4 ∧ on.stir.runs.length ≤ 4 ∧
    (∃ r ∈ (settle hungry).stir.runs, r ∉ hungry.stir.runs) ∧
    ({ on with inputs := { on.inputs with doorOpen := true } } : State).inputs.doorOpen = true ∧
    ({ on with mon := { on.mon with estop := true } } : State).mon.estop = true := by decide +kernel

/-- Canisters 1 and 2 with periodic requests, 2 the more overdue or both alike, and a list with a pre-dispense request. -/
theorem test_reaches_stir_requests :
    (∀ age ∈ [300, 301],
      let s := { hungry with cans := hungry.cans.set 1 { canister .ready .idle with age := age } }
      s.stir.runs.length < 4 ∧ s.stir.pre.find? (stirEligible s) = none ∧ stirEligible s 0 = true ∧
      periodic s 0 = true ∧ periodic s 1 = true ∧ nextGrant s = some (if age = 300 then 0 else 1)) ∧
    (let s : State := { hungry with stir := { hungry.stir with pre := [3, 0, 1] } }
     s.stir.pre.find? (stirEligible s) = some 3 ∧ nextGrant on = none ∧
     -- the conditions of a new pre-dispense request
     (s.cans[(0 : Slot)]).state = .ready ∧ (0 : Slot) ∈ s.stir.pre ∧ (0 : Slot) ∉ hungry.stir.pre ∧
     (on.cans[(0 : Slot)]).state = .absent ∧ (canister .faulted .idle).state = .faulted) ∧
    (let r : StirRun := { slot := 0, left := 1, check := none, slow := 0, expired := false }
     4 ≤ ({ on with stir := { on.stir with runs := List.replicate 4 r } } : State).stir.runs.length) := by
  decide +kernel

theorem test_reaches_power :
    on.store.write = none ∧ on.phase ≠ .off ∧ on.phase ≠ .held ∧ on.phase ≠ .offHeld ∧
    (∀ p ∈ [Phase.held, .off, .offHeld, .awaitWrite], ({ on with phase := p } : State).phase = p) ∧
    ({ on with store := { on.store with write := some { part := .general, contents := [] } } } : State).store.write =
      some { part := .general, contents := [] } := by decide

def starting (ident station : List Byte) : State :=
  { State.reset with phase := .starting, store := { Store.factory with identBytes := ident, stationBytes := station } }

def peerIdent : List Byte := sealed (identityContents { Identity.default with lineMode := .peer })

theorem test_reaches_start :
    (let s := starting Store.factory.identBytes Store.factory.stationBytes
     mayStart s = true ∧ (loadSectors s.store.identBytes s.store.stationBytes).loaded = some Loaded.default) ∧
    (let s := starting peerIdent Store.factory.stationBytes
     mayStart s = true ∧ ((loadSectors s.store.identBytes s.store.stationBytes).loaded.map (·.ident.lineMode)) =
       some .peer) ∧
    (let s := starting [1] Store.factory.stationBytes
     mayStart s = true ∧ (loadSectors s.store.identBytes s.store.stationBytes).loaded = none) ∧
    Loaded.default.ident.lineMode = .solo ∧ Inputs.quiet.presDispense = false ∧ Inputs.quiet.presLid = false ∧
    Inputs.quiet.presShake = false ∧ Inputs.quiet.clampClosed = false ∧ Inputs.quiet.estop = false ∧
    ({ Inputs.quiet with estop := true } : Inputs).estop = true := by decide +kernel

/-- Sectors that are clean, corrected and uncorrectable, a parameter out of its range in each, and draws that do not fit. -/
theorem test_reaches_judgement :
    (identityContents Identity.default).length = 5 ∧ (stationContents Loaded.default).length = 395 ∧
    (let good := identityContents Identity.default
     let stored := sealed good
     judgeCode stored = .clean good ∧ 8 * stored.length = 56 ∧
     (∀ n ∈ [0, 39, 40, 55], judgeCode (stored.modify (n / 8) (· ^^^ BitVec.twoPow 8 (n % 8))) = .corrected good) ∧
     judgeSector .identity ((stored.set 0 0xFF).set 1 0xFF) = .uncorrectable) ∧
    judgeSector .identity (sealed [16, 1, 8, 40, 20]) = .range 0 1 ∧
    judgeSector .station (sealed ((stationContents Loaded.default).set 275 0)) = .range 3 1 ∧
    (let r := loadSectors (sealed [0, 1, 8, 1, 20]) Store.factory.stationBytes
     r.identReport = .clean ∧ r.stationReport = .draw ∧ r.loaded = none) := by decide +kernel

def image : List Byte := partBytes .general (stationContents Loaded.default)

theorem test_reaches_sector_write :
    PartId.ofBytes 1 0 = some .general ∧ image.length = PartId.general.size ∧
    (restartKeepalive maint).mon.mode = .maint ∧ (restartKeepalive maint).store.write = none ∧
    firstWrong .general image = none := by decide +kernel

/-- NV_STOREs refused: no such part, a wrong length, mode, strap, a write under way, a wrong parameter; and parts wrong in
each of the three ways. -/
theorem test_reaches_store_refusals :
    PartId.ofBytes 2 0 = none ∧ PartId.ofBytes 1 4 = none ∧ PartId.ofBytes 0 0 = some .identity ∧
    (image ++ [0]).length ≠ PartId.general.size ∧ u.mon.mode ≠ .maint ∧ u.mon.mode ≠ .offline ∧
    maint.store.strapMark = false ∧
    ({ maint.store with write := some { part := .general, contents := [] } } : Store).write.isSome = true ∧
    firstWrong .general (image.set 0 2) = some 1 ∧
    (let sizes := partBytes .sizes (stationContents Loaded.default)
     let cans := partBytes .cansLow (stationContents Loaded.default)
     firstWrong .sizes sizes = none ∧ firstWrong .sizes ((sizes.set 3 0x20).set 6 0x10) = some 4 ∧
     firstWrong .cansLow cans = none ∧ firstWrong .cansHigh ((cans.set 0 0).set 1 0) = some 1) := by decide +kernel

theorem test_reaches_receiver :
    on.phase = .running ∧ on.port.receiver = .hunting ∧ 300 < (295 : Word16).toNat + 6 ∧
    ({ on with port := { on.port with receiver := .ignoring } } : State).port.receiver = .ignoring ∧
    crcBytes ([0x7E] ++ bytesOf 2 0 ++ [0x13]) ≠ bytesOf 2 (0 : Word16).toNat ∧ 0x18 < (0x19 : Byte).toNat ∧
    requestOf 0x13 [1] = none ∧ 1 ≤ (0x13 : Byte).toNat ∧ (0x13 : Byte).toNat ≤ 0x18 ∧
    (requestPayload (.ping [1])).length ≤ maxPayload ∧ requestOfCommand (.ping [1]) = some (.ping [1]) := by
  decide +kernel

theorem test_fits : requestFits (.ping [1]) ∧ requestFits (.submit
    { orderRef := 1, size := 0, count := 1, priority := 1, shakeTime := 0, shakeClass := 0, lineCount := 1
      lines := [(1, 5)] }) ∧ requestFits (.nvStore 1 0 image) :=
  ⟨by simp [requestFits], by simp [requestFits], .general, by decide +kernel, by decide +kernel⟩

def answering (kind : Byte) (held : Option Message) : State :=
  { on with port := { on.port with
    answering := some { kind := kind, status := .ok, overrun := false, payload := [] }, held := held } }

theorem test_reaches_busy_port :
    requestOfCommand .resume = some .resume ∧ (answering 0x13 none).phase = .running ∧
    (answering 0x13 none).port.answering.isSome = true ∧ (answering 0x13 none).port.held = none ∧
    (answering 0x13 (some (.badFrame 0))).port.held = some (.badFrame 0) ∧
    ¬ ((0x13 : Byte) = 0x17 ∧ Status.ok = .ok) ∧
    (answering 0x17 none).port.answering.map (fun a => (a.kind, a.status)) = some (0x17, .ok) ∧
    (answering 0x17 none).store.write = none ∧
    ({ answering 0x17 none with store := { on.store with write := some { part := .general, contents := [] } } } :
      State).store.write.isSome = true ∧
    ({ on with phase := .awaitWrite } : State).phase = .awaitWrite := by decide

theorem test_reaches_owner :
    0 < on.cfg.general.keepalive ∧ off.mon.mode = .offline ∧
    requestKind .resume ∉ ([0x0E, 0x0F, 0x10, 0x15, 0x16, 0x17, 0x18] : List Byte) := by decide

theorem test_reaches_queries :
    (1 : Byte).toNat = (0 : Slot).val + 1 ∧ jobKnown (restartKeepalive (queued [job 1 1 0 1] on)) 1 = true ∧
    jobKnown u 1 = false ∧ PartId.ofBytes 1 0 = some .general ∧ u.store.writingSector .station = false ∧
    ({ on with store := { on.store with write := some { part := .general, contents := [] } } } : State).store.writingSector
      .station = true := by decide +kernel

theorem test_reaches_events :
    (0x7FFF : Word16).toNat < 32768 ∧ 32768 ≤ (0x8000 : Word16).toNat ∧
    (setFlag .calDone { on with events := { flags := 0, enables := 0x7FFF } }).events.enables.getLsbD
      (EventFlag.bit .calDone) = true ∧ ([0] : List Byte).length ≤ 16 ∧ 16 < (List.replicate 17 (0 : Byte)).length := by
  decide

def asked (count : Byte) (slot : Byte) (amount : Word16) : SubmitFields :=
  { orderRef := 1, size := 0, count := count, priority := 1, shakeTime := 0, shakeClass := 0, lineCount := 1
    lines := [(slot, amount)] }

theorem test_reaches_submit :
    submitJob u (asked 0 1 5) = none ∧
    (∃ j, submitJob u (asked 1 1 5) = some j ∧ missingCanister u j = true) ∧
    (let v := withCan (canister .ready .idle) u
     (∃ j, submitJob v (asked 1 1 60000) = some j ∧ missingCanister v j = false ∧ overfills v j = true) ∧
     (∃ j, submitJob v (asked 1 1 5) = some j ∧ missingCanister v j = false ∧ overfills v j = false ∧
       v.jobs.places < 24 ∧ v.jobs.nextArrival < 4294967295) ∧
     (let w := queued (List.replicate 24 (job 1 1 0 1)) v
      ∃ j, submitJob w (asked 1 1 5) = some j ∧ missingCanister w j = false ∧ overfills w j = false ∧
        24 ≤ w.jobs.places)) ∧
    (let w := withCan (canister .ready .idle) { u with jobs := { u.jobs with
       records := [job 1 1 0 1], reserved := [job 2 1 1 1], nextArrival := 4294967295 } }
     ∃ j, submitJob w (asked 1 1 5) = some j ∧ missingCanister w j = false ∧ overfills w j = false ∧
       w.jobs.places < 24 ∧ 4294967295 ≤ w.jobs.nextArrival) := by
  refine ⟨by decide +kernel, ⟨(submitJob u (asked 1 1 5)).getD (job 0 0 0 0), by decide +kernel⟩,
    ⟨⟨(submitJob u (asked 1 1 60000)).getD (job 0 0 0 0), by decide +kernel⟩,
    ⟨(submitJob u (asked 1 1 5)).getD (job 0 0 0 0), by decide +kernel⟩,
    ⟨(submitJob u (asked 1 1 5)).getD (job 0 0 0 0), by decide +kernel⟩⟩,
    ⟨(submitJob u (asked 1 1 5)).getD (job 0 0 0 0), by decide +kernel⟩⟩

/-- A short canister, and ids given at the counter's end and past one that is present. -/
theorem test_reaches_short_and_ids :
    (let v := withCan { canister .ready .idle with level := 0 } u
     let j : Job := { job 1 2 0 1 with lines := [{ slot := 0, amount := 60000 }] }
     (j.lines.map (·.slot)).Nodup ∧ (shortSet v j).testBit 0 = true ∧ shortSet (withCan (canister .ready .idle) u)
       { j with lines := [{ slot := 0, amount := 5 }] } = 0) ∧
    u.jobs.places ≤ 24 ∧ u.completion.length ≤ 16 ∧ freeId u 64 65535 = 65535 ∧
    freeId (queued [job 65535 1 0 1] u) 64 65535 = 1 := by decide +kernel

theorem test_reaches_cancel :
    (let q := queued [job 1 2 1 1] on
     jobKnown q 1 = true ∧ (holdsJob 1 q.carriage.tin || holdsJob 1 q.lid.tin || holdsJob 1 q.shake.tin) = false ∧
     holdsJob 1 q.disp.tin = false ∧ jobKnown q 2 = false) ∧
    (let c := inDisp .called (some tin)
     (holdsJob 1 c.carriage.tin || holdsJob 1 c.lid.tin || holdsJob 1 c.shake.tin) = false ∧
     holdsJob 1 c.disp.tin = true ∧ c.disp.st = .called) ∧
    -- the tin in the bay, in every state of R14, without a shot and with one
    (∀ d ∈ [DispState.called, .wrongTin, .tare, .dispensing, .waiting, .done, .stopped, .fault, .outbound, .cancelled],
      let s : State := { inDisp d (some tin) with inputs := { Inputs.quiet with presDispense := true } }
      s.disp.tin = some tin ∧ tin.jobId = 1 ∧ s.disp.st = d ∧ s.inputs.presDispense = true ∧ s.disp.removed = false ∧
      s.disp.recWait = false ∧ s.pump.op = none ∧ activeLine s = none ∧ s.disp.resume ≠ some .outbound) ∧
    tin.shotGiven = false ∧ tin.cancelled = false ∧
    (let l : LineEntry :=
       { slot := 0, amount := 1000, plannedV := 1000, raised := false, plan := none, delivered := 0, gain := none
         topUps := 0, st := .active, verdict := none, base := none, carried := 0 }
     let s := inDisp .dispensing (some { tin with lines := [l] })
     activeLine { s with disp := { s.disp with step := some .beforeReading } } = some (0, l) ∧
     let p : LinePlan := { code := 1, steps := 6400, mExp := 10000, tol := none, density := 1000, k := 640 }
     ({ tin with lines := [l] } : TinRecord).shotGiven = false ∧
     ({ tin with lines := [{ l with plan := some p }] } : TinRecord).shotGiven = true) := by decide

theorem test_reaches_setprio :
    3 < (4 : Byte).toNat ∧ (3 : Byte).toNat ≤ 3 ∧
    (let q := queued [job 1 2 1 1] on
     q.jobs.records.find? (·.id == 1) = some (job 1 2 1 1) ∧ (∀ k ∈ q.jobs.reserved, k.id ≠ 1) ∧
     (∀ j ∈ q.jobs.records, j.id ≠ 2) ∧ (∀ j ∈ q.jobs.reserved, j.id ≠ 2)) ∧
    (let r : State := { on with jobs := { on.jobs with reserved := [job 1 1 1 1] } }
     (∀ j ∈ r.jobs.records, j.id ≠ 1) ∧ ∃ j ∈ r.jobs.reserved, j.id = 1) := by decide

theorem test_reaches_records :
    u.completion = [] ∧ ({ u with completion := [tin] } : State).completion = tin :: [] ∧
    (on.completion.length < 16 ∧ (inShake .awaitRoom (some tin)).shake.tin = some tin) ∧
    (inLid .done (some { tin with lost := true })).lid.tin = some { tin with lost := true } ∧
    (let s := { inDisp .cancelled (some tin) with disp := { (inDisp .cancelled (some tin)).disp with recWait := true } }
     s.disp.st = .cancelled ∧ s.disp.tin = some tin ∧ s.disp.recWait = true) ∧
    (∀ d ∈ [DispState.stopped, .fault],
      let s := { inDisp d (some tin) with disp := { (inDisp d (some tin)).disp with recWait := true } }
      s.disp.st = d ∧ s.disp.tin = some tin ∧ s.disp.recWait = true ∧ s.disp.lost = false) ∧
    16 ≤ ({ on with completion := List.replicate 16 tin } : State).completion.length := by decide

/-- Records of each verdict. -/
theorem test_reaches_verdicts :
    (let t : TinRecord := { tin with lid := some { fault := none, seatTime := 200 } }
     verdictOf t = .good ∧ verdictOf { t with cancelled := true, lost := true } = .cancelled ∧
     verdictOf { t with lost := true } = .hold ∧ verdictOf tin = .hold ∧
     verdictOf { t with lid := some { fault := some .lidJam, seatTime := 3000 } } = .hold) := by decide

theorem test_reaches_canisters :
    (1 : Byte).toNat = (0 : Slot).val + 1 ∧ (500000 : Word32).toNat ≤ 500000 ∧ 800 ≤ (800 : Word16).toNat ∧
    (2500 : Word16).toNat ≤ 2500 ∧ 100 ≤ (100 : Word16).toNat ∧ (6400 : Word16).toNat ≤ 6400 ∧
    (∀ c ∈ [canister .absent .idle, canister .ready .pumping, canister .ready .refilling, canister .calibrating .idle,
      canister .faulted .idle, canister .uncalibrated .idle], (withCan c on).cans[(0 : Slot)] = c) := by decide

def calibrating (stage : CalStage) : CalRecord :=
  { slot := 0, tests := [0, 1, 2], kp := 640, density := 1000, primeTry := 0, pass := 0, test := none, before := none
    results := [], stage := stage, steps := 0 }

theorem test_reaches_calibration :
    (let v := restartKeepalive (withCan (canister .uncalibrated .idle) maint)
     maskFits (some 15) = true ∧ maskFits none = true ∧ v.mon.mode = .maint ∧ v.disp.st = .empty ∧
     (v.cans[(0 : Slot)]).state ≠ .absent ∧ v.inputs.presDispense = false ∧ hasSettled v 0 = false) ∧
    (restartKeepalive (inDisp .tare none)).disp.st ≠ .empty ∧
    (let v : State := { withCan (canister .calibrating .idle) maint with
       inputs := { Inputs.quiet with presDispense := true }
       disp := { maint.disp with st := .calCup, cal := some (calibrating .cupReading) } }
     v.disp.st = .calCup ∧ v.disp.cal = some (calibrating .cupReading) ∧ (calibrating .cupReading).stage ≠ .over ∧
     v.pump.op = none ∧ v.inputs.presDispense = true ∧
     (v.cans[(0 : Slot)]).state = .calibrating) ∧
    -- the fields out of range, the ABSENT canister, the settled one, and a shot in flight
    ((0 : Byte).toNat = 0 ∧ 16 < (17 : Byte).toNat ∧ 15 < (16 : Byte).toNat ∧ (maint.cans[(0 : Slot)]).state = .absent) ∧
    hasSettled (withCan { canister .ready .idle with age := 61 } maint) 0 = true ∧
    (∀ d ∈ [DispState.calPrime, .calRate],
      let v : State := { withCan (canister .calibrating .pumping) maint with
        pump := { maint.pump with op := some { op .forward .moving 640 320 10 false with kind := .testShot } }
        disp := { maint.disp with st := d, cal := some (calibrating .shot) } }
      v.disp.st = d ∧ v.disp.cal = some (calibrating .shot) ∧ (v.cans[(0 : Slot)]).state = .calibrating ∧
      v.pump.op = some { op .forward .moving 640 320 10 false with kind := .testShot } ∧ v.inputs.presDispense = false) ∧
    u.disp.st ≠ .calCup ∧ u.disp.st ≠ .calPrime ∧ u.disp.st ≠ .calRate := by decide +kernel

theorem test_reaches_stirs :
    (∀ s ∈ [stirred (some 5) 0 false, stirred none 0 true, stirred none 1 false, stirred none 2 false],
      s.online = true ∧ s.inputs.doorOpen = false ∧ (s.stirRun? 0).isSome = true ∧
      (s.cans[(0 : Slot)]).activity = .stirring ∧ (s.cans[(0 : Slot)]).state = .ready) ∧
    500000 ≤ on.cfg.general.stirMinPeriod ∧ on.cfg.general.stirMinPeriod < 500001 ∧ on.stirRun? 0 = none ∧
    -- a calibration of the canister, and of none
    ({ on with disp := { on.disp with cal := some (calibrating .shot) } } : State).disp.cal = some (calibrating .shot) ∧
    (calibrating .shot).slot = 0 ∧ (calibrating .shot).slot ≠ 1 ∧ on.disp.cal = none := by decide

theorem test_reaches_pump :
    (∀ o ∈ [op .forward .turnOut 640 0 0 false, op .home .turnBack 640 640 20 false, op .refill .turnBack 640 640 20 false,
      op .forward .moving 640 640 20 false, op .forward .moving 640 640 17 false, op .forward .moving 640 640 22 false,
      { op .forward .moving 640 640 20 false with total := 900 }, op .forward .moving 640 0 0 true],
      (pumping o).online = true ∧ (pumping o).pump.op = some o) ∧
    (let o := op .forward .moving 640 640 22 false
     let expected := o.toRun / 32
     o.pulses ≤ expected + 2 ∧ expected ≤ o.pulses + 2 ∧ o.total ≤ o.counted ∧ 0 < o.run ∧
     0 < (on.cfg.cans[o.slot]).snuffBack ∧
     (on.cfg.cans[o.slot]).snuffBack ≤ ((pumping o).cans[o.slot]).piston + 120) ∧
    (op .forward .moving 640 640 17 false).pulses + 2 < 640 / 32 ∧
    (∀ pulses ∈ [1, 5], let o := op .snuffBack .moving 120 119 pulses false
      (pumping o).pump.op = some o ∧ (pumping o).online = true ∧ o.pulses ≤ o.toRun / 32 + 2 ∧
      o.toRun / 32 ≤ o.pulses + 2) ∧
    (let s : State := { on with cfg := { on.cfg with
       cans := on.cfg.cans.set 0 { CanStatic.default with snuffBack := 0 } } }
     (s.cfg.cans[(0 : Slot)]).snuffBack = 0) ∧ (1 : Slot) ≠ (op .forward .moving 1 1 1 false).slot ∧
    -- what the next segment is chosen by: homing, a pending snuff-back, the travel left
    (let o := op .forward .moving 640 0 0 false
     let at' (homed : Bool) (piston snuff : Nat) : State := { pumping o with
       pump := { (pumping o).pump with homed := on.pump.homed.set 0 homed }
       cans := on.cans.set 0 { canister .ready .pumping with piston := piston, snuff := snuff } }
     let travel := (on.cfg.cans[o.slot]).travel
     (at' false 0 0).pump.homed[o.slot] = false ∧ (at' true 0 120).pump.homed[o.slot] = true ∧
     0 < ((at' true 0 120).cans[o.slot]).snuff ∧ ((at' true 0 0).cans[o.slot]).snuff = 0 ∧ o.counted < o.total ∧
     ((at' true (travel - 1) 0).cans[o.slot]).piston < travel ∧ travel ≤ ((at' true travel 0).cans[o.slot]).piston ∧
     -- a piston below the snuff-back's steps
     0 + 1 < (on.cfg.cans[o.slot]).snuffBack) ∧
    (∀ g ∈ [Segment.home, .restore, .refill], let o := op g .moving 640 640 20 false
      (pumping o).pump.op = some o ∧ (pumping o).online = true ∧ o.stage = .moving ∧ o.segment = g ∧ o.paused = false ∧
      o.pulses ≤ o.toRun / 32 + 2 ∧ o.toRun / 32 ≤ o.pulses + 2) := by decide

def scaled (blank : Option Nat) (window : List Int) (request : Option Nat) (zero : Int) (s : State) : State :=
  { s with scale := { s.scale with blank := blank, window := window, request := request, zero := zero } }

/-- A state whose last net sample stood above the tin-present threshold. -/
def below : State := { on with scale := { on.scale with above := true } }

def entry (st : LineState) (plan : Option LinePlan) : LineEntry :=
  { slot := 0, amount := 1000, plannedV := 1000, raised := false, plan := plan, delivered := 0, gain := none, topUps := 0
    st := st, verdict := none, base := none, carried := 0 }

def plan (tol : Option Nat) : LinePlan := { code := 1, steps := 6400, mExp := 10000, tol := tol, density := 1000, k := 640 }

/-- A tin whose one line stands so. -/
def tinOf (l : LineEntry) : TinRecord := { tin with lines := [l] }

def shotTin : TinRecord := tinOf (entry .active (some (plan (some 200))))

theorem test_reaches_scale :
    (4000000 : Int) ≤ 4000000 ∧ (3999999 : Int) < 4000000 ∧
    (scaled none [] none 0 on).scale.above = decide ((10000 : Int) ≤ 9999 - 0) ∧
    (∀ n ∈ [0, 1], (scaled (some n) [] none 0 on).scale.blank = some n) ∧ (scaled none [] none 0 on).scale.window = [] ∧
    1 < on.cfg.general.windowLen ∧ (scaled none [5, 6] none 0 on).scale.window = 5 :: [6] ∧
    ((7 : Int) - 5).natAbs ≤ on.cfg.general.band ∧ on.cfg.general.band < ((8 : Int) - 5).natAbs ∧
    ([6] : List Int).length + 2 < on.cfg.general.windowLen ∧
    -- crossings: up and down, blanked, or a first sample that does not fill its window
    (scaled none [] none 0 on).scale.above ≠ decide ((10000 : Int) ≤ 10000 - 0) ∧ below.scale.above ≠ decide ((10000 : Int) ≤ 9999 - 0) ∧
    (offerToWindow 2 9999 []).length < on.cfg.general.windowLen ∧
    (∀ d ∈ [DispState.calCup, .calPrime, .calRate, .calEnd, .empty, .called, .wrongTin, .cancelled, .outbound, .orphan],
      (inDisp d none).disp.st = d) ∧
    -- the fall below with a tin in work, without a shot and with one, the completion queue with room and full
    (∀ d ∈ [DispState.tare, .dispensing, .waiting, .done],
      (inDisp d (some tin)).disp.st = d ∧ (inDisp d (some tin)).disp.tin = some tin ∧
      (inDisp d (some tin)).disp.lost = false ∧ (inDisp d (some tin)).disp.recWait = false ∧
      (inDisp d (some tin)).mon.faultD = none) ∧
    -- held out of such a state, with no fault of the bay's own or behind one, and held out of another
    (∀ d ∈ [DispState.stopped, .fault], ∀ r ∈ [some DispState.tare, some .empty], ∀ k ∈ [none, some FaultKind.scaleUnsettled],
      let s : State := { inDisp d (some tin) with
        mon := { on.mon with faultD := k }, disp := { (inDisp d (some tin)).disp with resume := r } }
      s.online = true ∧ s.disp.st = d ∧ s.disp.resume = r ∧ s.disp.tin = some tin ∧ s.disp.lost = false ∧
      s.disp.recWait = false ∧ s.mon.faultD = k) ∧
    tin.cancelled = false ∧ tin.shotGiven = false ∧ shotTin.cancelled = false ∧ shotTin.shotGiven = true ∧
    on.completion.length < 16 ∧ 16 ≤ ({ on with completion := List.replicate 16 tin } : State).completion.length := by
  decide +kernel

/-- A bay in a state with a tin of one line, at a step, its scale request open and nine samples taken. -/
def weighing (d : DispState) (l : LineEntry) (step : Option LineStep) : State :=
  let s := scaled none (List.replicate 9 40) (some 0) 0 (inDisp d (some (tinOf l)))
  { s with
    inputs := { Inputs.quiet with presDispense := true }
    cans := on.cans.set 0 (canister .ready .idle)
    disp := { s.disp with step := step, quiet := true } }

/-- A calibration in a state and stage, its scale request open. -/
def calWeighing (d : DispState) (stage : CalStage) (before : Option Int) : State :=
  let s := weighing d (entry .pending none) none
  { s with disp := { s.disp with tin := none, cal := some { calibrating stage with before := before } } }

theorem test_reaches_readings :
    -- the tenth sample, with no request open
    (let s := scaled none (List.replicate 9 40) none 99960 on
     s.online = true ∧ s.scale.request = none ∧ s.disp.st = .empty ∧ s.inputs.presDispense = false ∧ s.scale.blank = none ∧
     s.scale.above = decide ((10000 : Int) ≤ 100000 - s.scale.zero) ∧
     s.cfg.general.windowLen ≤ (offerToWindow s.cfg.general.band (100000 - s.scale.zero) s.scale.window).length ∧
     (settledMean (offerToWindow s.cfg.general.band (100000 - s.scale.zero) s.scale.window)).natAbs ≤ 50) ∧
    (settledMean (List.replicate 10 50)).natAbs ≤ 50 ∧ ¬ (settledMean (List.replicate 10 51)).natAbs ≤ 50 ∧
    ¬ ((inDisp .done none).disp.st = .empty ∧ (inDisp .done none).inputs.presDispense = false) ∧
    -- a request at its settle timeout and one a millisecond before it
    on.cfg.general.settleTimeout * 1000 ≤ 20000 ∧ 19999 < on.cfg.general.settleTimeout * 1000 ∧
    (scaled none [] (some 20000) 0 on).scale.request = some 20000 ∧ (scaled none [] (some 19999) 0 on).scale.request = some 19999 ∧
    -- and with one open: the tare, a before-reading and a verification
    (let s := weighing .tare (entry .pending none) none
     s.online = true ∧ s.scale.blank = none ∧ s.scale.above = decide ((10000 : Int) ≤ 40 - s.scale.zero) ∧
     s.cfg.general.windowLen ≤ (offerToWindow s.cfg.general.band (40 - s.scale.zero) s.scale.window).length ∧
     s.scale.request.isSome = true ∧ s.inputs.presDispense = true ∧ s.disp.st = .tare) ∧
    (let s := weighing .dispensing (entry .active none) (some .beforeReading)
     s.disp.st = .dispensing ∧ activeLine s = some (0, entry .active none) ∧ s.disp.step = some .beforeReading) ∧
    (let l := entry .active (some (plan (some 200)))
     let s := weighing .dispensing l (some .verify)
     activeLine s = some (0, l) ∧ s.disp.step = some .verify ∧ l.plan = some (plan (some 200))) ∧
    -- a calibration's cup, before- and after-readings
    (let s := calWeighing .calCup .cupReading none
     s.disp.cal = some (calibrating .cupReading) ∧ s.disp.st = .calCup ∧ s.scale.request.isSome = true) ∧
    (∀ d ∈ [DispState.calPrime, .calRate],
      (calWeighing d .beforeReading none).disp.cal = some (calibrating .beforeReading) ∧
      (calWeighing d .beforeReading none).disp.st = d ∧
      (calWeighing d .afterReading (some 7)).disp.cal = some { calibrating .afterReading with before := some 7 } ∧
      (calWeighing d .afterReading (some 7)).disp.st = d) := by decide +kernel

theorem test_reaches_modes :
    2 < (3 : Byte).toNat ∧ modeOf 0 = some .pause ∧ modeOf 1 = some .run ∧ modeOf 2 = some .maint ∧
    ({ u with mon := { u.mon with safe := true } } : State).mon.safe = true ∧ u.mon.mode ≠ .maint ∧
    (inDisp .tare (some tin)).disp.st ≠ .empty ∧ (inDisp .tare (some tin)).disp.st ≠ .called ∧ u.mon.mode = .run ∧
    ¬ (Mode.maint = .run ∧ u.mon.safe = true) ∧ u.mon.mode ≠ .maint ∧ u.disp.st = .empty ∧
    (inDisp .called (some tin)).disp.st = .called := by decide

/-- Calls that go back to a queued job, to a reserved place, and to no job; and a bay without a tin. -/
theorem test_reaches_withdrawal :
    (inDisp .called (some tin)).disp.tin = some tin ∧ tin.committed = false ∧ on.disp.tin = none ∧
    (let q := (queued [job 1 2 1 1] on).jobs
     (∀ j ∈ q.reserved, j.id ≠ 1) ∧ (returnTin 1 q).records = [job 1 2 0 1] ∧ returnTin 2 q = q) ∧
    (let q : JobQueue := { (queued [job 2 2 0 1] on).jobs with reserved := [job 1 1 1 1] }
     q.reserved.find? (·.id == 1) = some (job 1 1 1 1) ∧
     (returnTin 1 q).records = [job 1 1 0 1, job 2 2 0 1] ∧ (returnTin 1 q).reserved = []) := by decide

def faulted (k : FaultKind) (estop : Bool) : State :=
  { on with
    mon := { on.mon with faultD := some k, faultL := some k, faultS := some k, estop := estop }
    disp := { on.disp with st := .fault, resume := some .empty }
    lid := { on.lid with st := .fault, resume := some .empty }
    shake := { on.shake with st := .fault, resume := some .empty } }

theorem test_reaches_faults :
    (0 : Byte).toNat = 0 ∧ u.fault .dispense = none ∧ ((faulted .pumpStall false).fault .dispense).isSome = true ∧
    (let s := faulted .clamp true
     s.mon.estop = true ∧ s.carriage.cause ≠ some .transfer ∧ s.mon.faultD.isSome = true ∧ s.disp.st = .fault ∧
     s.disp.lost = false ∧
     s.mon.faultL.isSome = true ∧ s.lid.st = .fault ∧ s.mon.faultS.isSome = true ∧ s.shake.st = .fault ∧
     s.inputs.estop = false) ∧
    ({ faulted .clamp true with inputs := { Inputs.quiet with estop := true } } : State).inputs.estop = true ∧
    -- a fault of another bay under scope STATION, and a jam to clear
    (let s := faulted .clamp false
     s.mon.estop = false ∧ s.cfg.general.scope = .station ∧ s.carriage.st ≠ .jammed ∧ s.carriage.cause = none ∧
     s.mon.faultD.isSome = true ∧ s.mon.faultL.isSome = true ∧ s.mon.faultS.isSome = true ∧ s.disp.st = .fault ∧
     s.disp.lost = false ∧ s.lid.st = .fault ∧ s.shake.st = .fault) ∧
    (let c : Carriage := { on.carriage with charge := some .lid, cause := some .transfer }
     c.charge = some .lid ∧ c.cause = some .transfer) ∧
    (let s : State := { u with disp := { u.disp with st := .fault, lost := true, tin := some tin } }
     s.disp.lost = true ∧ s.disp.recWait = false ∧ s.disp.tin = some tin) ∧ tin.shotGiven = false ∧
    shotTin.shotGiven = true ∧ (inDisp .fault (some shotTin)).disp.tin = some shotTin ∧
    u.mon.estop = false ∧ 3 < (4 : Byte).toNat ∧ on.anyFault = false ∧ on.cfg.general.scope = .station ∧
    ({ on.cfg.general with scope := .bay } : General).scope = .bay ∧ BayId.lid ≠ .dispense := by decide

/-- A lost tin's bay held in FAULT by ESTOP, its fault cleared, while another bay's fault stops the station: it is EMPTY
once ESTOP is cleared. -/
theorem test_lost_tin_finishes_at_station_clearing :
    let s : State := { faulted .clamp true with
      mon := { (faulted .clamp true).mon with faultD := none }
      disp := { on.disp with st := .fault, resume := some .tare, lost := true } }
    (s.mon.estop = true ∧ s.inputs.estop = false ∧ s.cfg.general.scope = .station ∧ s.mon.faultL.isSome = true ∧
      s.carriage.st ≠ .jammed ∧ s.carriage.cause = none ∧ s.disp.tin = none ∧ s.inputs.presDispense = false) ∧
    (match exec .clearFaultStation s with
     | .next t => some (t.disp.st, t.lid.st, t.mon.estop)
     | _ => none) = some (.empty, .fault, false) := by decide +kernel

/-- Bays that a station stop finds at work, STOPPED, in FAULT, at a home check or in a calibration. -/
theorem test_reaches_station_stop :
    BayId.lid ≠ .dispense ∧ BayId.shake ≠ .lid ∧ BayId.dispense ≠ .shake ∧ on.cfg.general.scope = .station ∧ (faulted .clamp false).anyFault = true ∧
    (∀ d ∈ [DispState.fault, .stopped, .tare], (inDisp d none).disp.st = d ∧ (inDisp d none).anyFault = false ∧
      calRunning (inDisp d none) = false) ∧
    (∀ l ∈ [LidState.fault, .stopped, .extend], ∀ c ∈ [true, false],
      let s : State := { inLid l none with lid := { (inLid l none).lid with homeCheck := c } }
      s.lid.st = l ∧ s.lid.homeCheck = c ∧ s.anyFault = false) ∧
    (∀ h ∈ [ShakeState.fault, .stopped, .run], (inShake h none).shake.st = h ∧ (inShake h none).anyFault = false) := by
  decide

/-- A bay in FAULT or STOPPED with a resume state, no fault latched. -/
def heldDisp (d r : DispState) (t : Option TinRecord) (step : Option LineStep) : State :=
  { inDisp d t with disp := { (inDisp d t).disp with resume := some r, step := step } }
def heldLid (d r : LidState) (t : Option TinRecord) : State :=
  { inLid d t with lid := { (inLid d t).lid with resume := some r } }
def heldShake (d r : ShakeState) (t : Option TinRecord) : State :=
  { inShake d t with shake := { (inShake d t).shake with resume := some r } }

/-- The state with an object in every bay, the clamp closed and the press out. -/
def sensed (s : State) : State :=
  { s with inputs := { Inputs.quiet with
    presDispense := true, presLid := true, presShake := true, clampClosed := true, pressHome := false } }

theorem test_reaches_dispense_resumption :
    (∀ d ∈ [DispState.stopped, .fault], dispMayResume (heldDisp d .tare (some tin) none) = true) ∧
    dispMayResume (faulted .pumpStall false) = false ∧
    (∀ r ∈ [DispState.tare, .dispensing, .waiting, .done, .outbound, .called, .wrongTin, .orphan, .empty, .calEnd],
      ∀ s ∈ [heldDisp .stopped r (some tin) none, sensed (heldDisp .stopped r (some tin) none)],
        dispMayResume s = true ∧ s.disp.lost = false ∧ dispCancelled s = false ∧ s.disp.resume = some r ∧
        s.disp.removed = false ∧ s.disp.placed = false ∧ activeLine s = none ∧ s.mon.mode = .run ∧ s.mon.safe = false) ∧
    on.inputs.presDispense = false ∧ (sensed on).inputs.presDispense = true ∧
    (heldDisp .stopped .called none none).disp.tin = none ∧ maint.mon.mode ≠ .run ∧
    ({ DispenseBay.reset with removed := true, placed := true } : DispenseBay).placed = true ∧
    -- an ACTIVE line at each of its steps, weighed and volumetric
    (∀ p ∈ [LineStep.interrupted, .verify, .selection], ∀ tol ∈ [some 200, none],
      let l := entry .active (some (plan tol))
      let s := heldDisp .stopped .dispensing (some (tinOf l)) (some p)
      dispMayResume s = true ∧ activeLine s = some (0, l) ∧ s.disp.step = some p ∧ l.plan.bind (·.tol) = tol) ∧
    -- a cancelled tin, its record waiting or not; a lost one, its record joined or waiting
    (let s := heldDisp .stopped .tare (some { tin with cancelled := true }) none
     dispMayResume s = true ∧ s.disp.tin = some { tin with cancelled := true } ∧ s.pump.op = none ∧ activeLine s = none ∧
     s.disp.recWait = false ∧ ({ s.disp with recWait := true } : DispenseBay).recWait = true) ∧
    (∀ t ∈ [none, some tin],
      let s : State := { heldDisp .fault .tare t none with
        disp := { (heldDisp .fault .tare t none).disp with lost := true, recWait := t.isSome } }
      dispMayResume s = true ∧ s.disp.lost = true ∧ s.disp.tin = t ∧ s.disp.recWait = t.isSome ∧ s.mon.faultD = none) ∧
    (16 ≤ ({ on with completion := List.replicate 16 tin } : State).completion.length ∧ on.completion.length < 16) := by
  decide +kernel

theorem test_reaches_lid_and_shake_resumption :
    (∀ d ∈ [LidState.stopped, .fault],
      ∀ r ∈ [LidState.outbound, .empty, .inbound, .awaitLids, .awaitAir, .awaitQuiet, .extend, .dwell, .retract, .done,
        .orphan],
      ∀ s ∈ [heldLid d r (some tin), heldLid d r none, sensed (heldLid d r (some tin))],
        lidMayResume s = true ∧ s.lid.resume = some r ∧ s.lid.tin.any (·.lost) = false ∧ s.lid.removed = false ∧
        s.lid.home = none) ∧
    (lidMayResume on = false ∧ shakeMayResume on = false) ∧ on.inputs.pressHome = true ∧
    (sensed on).inputs.pressHome = false ∧ on.inputs.presLid = false ∧ (sensed on).inputs.presLid = true ∧
    -- a lost tin, the press out or not, and the home check under way
    (let lost := { tin with lost := true }
     lidMayResume (sensed (heldLid .stopped .extend (some lost))) = true ∧ lost.lost = true ∧
     lidMayResume (heldLid .stopped .awaitLids (some lost)) = true ∧ shakeMayResume (heldShake .stopped .run (some lost)) = true ∧
     ∀ t ∈ [tin, lost],
      let s : State := { heldLid .stopped .extend (some t) with
        lid := { (heldLid .stopped .extend (some t)).lid with homeCheck := true, home := some 3000 } }
      s.online = true ∧ s.lid.homeCheck = true ∧ s.lid.st ≠ .retract ∧ s.lid.tin = some t ∧ s.lid.home = some 3000 ∧
      ¬ (s.stationStop = true ∨ s.mon.estop = true)) ∧
    (faulted .clamp true).mon.estop = true ∧
    (∀ d ∈ [ShakeState.stopped, .fault],
      ∀ r ∈ [ShakeState.clamp, .awaitPower, .awaitQuiet, .spinUp, .run, .spinDown, .inbound, .awaitRoom, .unclamp,
        .awaitRemoval, .orphan, .empty],
      ∀ s ∈ [heldShake d r (some tin), heldShake d r none, sensed (heldShake d r (some tin))],
        shakeMayResume s = true ∧ s.shake.resume = some r ∧ s.shake.tin.any (·.lost) = false ∧
        s.shake.removed = false) ∧
    on.inputs.clampClosed = false ∧ (sensed on).inputs.clampClosed = true ∧
    (let s : State := { heldShake .fault .run (some tin) with
       shake := { (heldShake .fault .run (some tin)).shake with turning := true } }
     s.online = true ∧ s.shake.st = .fault ∧ s.shake.turning = true ∧ shakeMayResume s = false) := by decide +kernel

/-- A shot in flight. -/
def shooting (plan : Option LinePlan) : State :=
  { weighing .dispensing (entry .active plan) (some .shot) with
    pump := { on.pump with op := some (op .forward .moving 640 320 10 false) } }

theorem test_reaches_interruptions :
    100 ≤ 100 ∧ (∀ p ∈ [none, some (plan none), some (plan (some 200))],
      let s := shooting p
      s.disp.tin = some (tinOf (entry .active p)) ∧ activeLine s = some (0, entry .active p) ∧
      s.pump.op = some (op .forward .moving 640 320 10 false) ∧ s.disp.st = .dispensing ∧ s.disp.cal = none ∧
      s.mon.faultD = none ∧ s.cfg.general.scope = .station ∧ s.anyFault = false ∧ s.online = true ∧ s.mon.estop = false ∧
      (tinOf (entry .active p)).cancelled = false ∧ s.disp.lost = false ∧ s.disp.recWait = false ∧
      s.completion.length < 16) ∧ BayId.lid ≠ .dispense := by decide +kernel

theorem test_reaches_monitor :
    ({ on with mon := { on.mon with keepalive := some 0 } } : State).mon.keepalive = some 0 ∧ on.online = true ∧
    (∀ k ∈ [none, some 1], ({ on with mon := { on.mon with keepalive := k } } : State).mon.keepalive ≠ some 0) ∧
    on.mon.estop = false ∧ (faulted .clamp true).online = true ∧ (off.phase = .running ∧ off.mon.mode = .offline) ∧
    -- stops on a move and on a line that takes frames; notes with room and full
    (inMove .dispenseToLid (some tin)).carriage.st = .moving ∧ (inLine .active).mon.estop = false ∧
    (inLine .active).lineTakes = true ∧ on.lineTakes = false ∧ FaultKind.estop ∉ tin.notes ∧
    4 ≤ ({ tin with notes := [.scaleUnsettled, .lidJam, .clamp, .tinLost] } : TinRecord).notes.length := by
  decide

theorem test_reaches_dispense_sensor :
    (∀ d ∈ [DispState.empty, .called, .tare, .wrongTin, .orphan, .calEnd, .cancelled, .dispensing, .waiting, .done,
      .stopped, .fault],
      (inDisp d (some tin)).online = true ∧ (inDisp d (some tin)).disp.st = d ∧
      (inDisp d (some tin)).disp.tin = some tin ∧ (inDisp d (some tin)).mon.mode = .run ∧
      (inDisp d (some tin)).mon.safe = false ∧ (inDisp d (some tin)).disp.recWait = false ∧
      (inDisp d (some tin)).disp.lost = false ∧ (inDisp d (some tin)).mon.faultD = none ∧
      (inDisp d (some tin)).pump.op = none) ∧ tin.cancelled = false ∧ tin.shotGiven = false := by decide

/-- Cups in their stages, and removals from a held bay: a tin in work, another, none, and a lost one. -/
theorem test_reaches_cup_and_held_removals :
    (∀ c ∈ [CalStage.cupWait, .cupReading], ∀ q ∈ [some 0, none],
      let s := { calWeighing .calCup c none with scale := { on.scale with request := q } }
      s.online = true ∧ s.disp.st = .calCup ∧ s.disp.cal = some (calibrating c) ∧ s.scale.request = q) ∧
    (∀ d ∈ [DispState.calPrime, .calRate],
      let s := calWeighing d .shot none
      s.disp.st = d ∧ calRunning s = true ∧ s.mon.faultD = none) ∧
    (let s : State := { inDisp .wrongTin (some tin) with mon := { on.mon with safe := true } }
     s.disp.tin.isSome = true ∧ s.mon.safe = true ∧ (inDisp .wrongTin none).disp.tin = none) ∧
    ({ inDisp .cancelled (some tin) with disp := { on.disp with recWait := true } } : State).disp.recWait = true ∧
    (∀ d ∈ [DispState.stopped, .fault], ∀ r ∈ [DispState.tare, .dispensing, .waiting, .done, .orphan],
      ∀ v ∈ [some tin, some { tin with cancelled := true }, none], ∀ l ∈ [true, false], ∀ k ∈ [some .tinLost, none],
        let h := heldDisp d r v none
        let s : State := { h with mon := { on.mon with faultD := k }, disp := { h.disp with lost := l } }
        s.online = true ∧ s.disp.st = d ∧ s.disp.resume = some r ∧ s.disp.tin = v ∧ s.disp.lost = l ∧
        s.disp.recWait = false ∧ s.mon.faultD = k ∧ s.mon.estop = false) := by decide

theorem test_reaches_tin_lines :
    -- the tare judged, and the edges of the gross band
    (inDisp .tare (some tin)).disp.tin = some tin ∧
    (let z := on.cfg.sizes[tin.size]
     ¬ ((z.grossLow : Int) ≤ z.grossLow - 1) ∧ (z.grossLow : Int) ≤ z.grossHigh ∧ ¬ ((z.grossHigh + 1 : Int) ≤ z.grossHigh)) ∧
    -- the four treatments of a planned volume, at the minimum shot of 5
    (plannedVolume 0 1000 = 0 ∧ 5 ≤ plannedVolume 5 1000 ∧ plannedVolume 3 1000 < 5 ∧ 5 ≤ 2 * plannedVolume 3 1000 ∧
      2 * plannedVolume 2 1000 < 5) ∧
    -- an ACTIVE line; all DONE; none selectable; the first selectable line taken
    (∃ l ∈ (tinOf (entry .active none)).lines, l.st = .active) ∧ (∀ l ∈ (tinOf (entry .done none)).lines, l.st = .done) ∧
    (let s := inDisp .waiting (some (tinOf (entry (.passed .awaitCanister) none)))
     (∀ l ∈ dispLines s, l.st ≠ .active ∧ selectable s l = false) ∧ ∃ l ∈ dispLines s, l.st ≠ .done) ∧
    (let s := { weighing .waiting (entry .pending none) none with scale := on.scale }
     let l := entry .pending none
     s.disp.tin.map (·.lines) = some [l] ∧ selectable s l = true ∧
     (activeLine (takeLine 0 l { s with disp := { s.disp with st := .dispensing } })).isSome = true ∧
     -- taken and passed
     (let v : State := { s with cans := on.cans }
      selectable v l = true ∧ activeLine (takeLine 0 l { v with disp := { v.disp with st := .dispensing } }) = none)) := by
  decide +kernel

/-- PASSED lines whose canister is not READY, is to be stirred, or is as it should be, its level covering the line or not; a
tin lost or cancelled; reports to a bay that waits or works. -/
theorem test_reaches_passed_lines :
    (∀ why ∈ [PassReason.awaitCanister, .preStir, .awaitRefill], ∀ d ∈ [DispState.waiting, .dispensing, .done],
      let l := entry (.passed why) none
      let s := weighing d l none
      let empty : State := { s with cans := on.cans.set 0 { canister .ready .idle with level := 0 } }
      l.st = .passed why ∧ s.disp.tin = some (tinOf l) ∧ (judgePassed s).disp.st = d ∧ s.disp.lost = false ∧
      passReason s l.slot = none ∧ (s.cfg.cans[l.slot]).reserve + nextVolume s l ≤ (s.cans[l.slot]).level ∧
      (empty.cans[l.slot]).level < (empty.cfg.cans[l.slot]).reserve + nextVolume empty l ∧
      selectable (judgePassed s) l = true ∧ activeLine (judgePassed s) = none) ∧
    (let s := { weighing .waiting (entry (.passed .awaitCanister) none) none with cans := on.cans }
     (∀ l ∈ dispLines (judgePassed s), selectable (judgePassed s) l = false) ∧ passReason s 0 = some .awaitCanister) ∧
    passReason (withCan { canister .ready .idle with age := 61 } on) 0 = some .preStir ∧ tin.cancelled = false ∧
    ({ tin with cancelled := true } : TinRecord).cancelled = true ∧
    (∀ why : PassReason, (entry .pending none).st ≠ .passed why) := by
  refine ⟨by decide +kernel, by decide +kernel, by decide +kernel, by decide, by decide, fun _ => by simp [entry]⟩

theorem test_reaches_line_taking :
    (let s := weighing .dispensing (entry .pending none) none
     let l := entry .pending none
     -- a READY canister, stirred or not, settled or not
     s.disp.tin = some (tinOf l) ∧ (s.cans[l.slot]).state = .ready ∧ (s.cans[l.slot]).activity ≠ .stirring ∧
     l.slot ∉ s.stir.pre ∧ hasSettled s l.slot = false ∧
     hasSettled { s with cans := on.cans.set 0 { canister .ready .idle with age := 61 } } l.slot = true ∧
     (on.cans[l.slot]).state ≠ .ready ∧ (canister .ready .stirring).activity = .stirring ∧
     -- weighed, with and without a fresh reading, or volumetric
     s.cfg.general.verifyFloor ≤ roundDiv (l.plannedV * (s.cans[l.slot]).density) 100 ∧ s.disp.fresh = false ∧
     (let v : State := { s with disp := { s.disp with fresh := true }, scale := { s.scale with latest := some 3 } }
      v.disp.fresh = true ∧ v.scale.latest = some 3) ∧
     (let m := { l with plannedV := 9 }
      ¬ (m.plan.isSome = true ∨ s.cfg.general.verifyFloor ≤ roundDiv (m.plannedV * (s.cans[m.slot]).density) 100)) ∧
     -- the debit granted to the last cml and refused
     (s.cfg.cans[l.slot]).reserve + 80000 ≤ (s.cans[l.slot]).level ∧
     (s.cans[l.slot]).level < (s.cfg.cans[l.slot]).reserve + 80001) ∧
    (entry .pending none).plan = none ∧ (entry .pending (some (plan none))).plan.isSome = true := by decide +kernel

theorem test_reaches_judgements :
    (let l := entry .active (some (plan (some 200)))
     let s := weighing .dispensing l (some .shot)
     s.disp.st = .dispensing ∧ s.disp.tin = some (tinOf l) ∧ activeLine s = some (0, l) ∧
     (l.plan.bind (·.tol)).isSome = true ∧ passReason s l.slot = none) ∧
    (let l := entry .active (some (plan none))
     activeLine (weighing .dispensing l (some .shot)) = some (0, l) ∧ l.plan.bind (·.tol) = none) ∧
    -- gains of each case of R87 for M_exp 10,000 and E 200, at the case's edge
    (let gain (r : Int) : Int := 0 + 10 * (r - 0)
     gain (-21) < -(200 : Int) ∧ -(200 : Int) ≤ gain (-20) ∧
     ((10000 : Int) - gain 980).natAbs ≤ 200 ∧ ((10000 : Int) - gain 1020).natAbs ≤ 200 ∧
     (10000 : Int) - gain 1021 < -(200 : Int) ∧ (200 : Int) < 10000 - gain 979 ∧
     (5000 : Int) < 10000 - gain 499 ∧ (10000 : Int) - gain 500 ≤ 5000) ∧
    -- top-ups left and none left; the top-up's volume there and not there; the two reasons to pass
    (entry .active none).topUps < on.cfg.general.maxTopUps ∧ on.cfg.general.maxTopUps ≤ 2 ∧
    (let s := weighing .dispensing (entry .active none) none
     (s.cfg.cans[(0 : Slot)]).reserve + 500 ≤ (s.cans[(0 : Slot)]).level ∧
     (canister .absent .idle).level < (s.cfg.cans[(0 : Slot)]).reserve + 80001 ∧
     passReason { s with cans := on.cans } 0 = some .awaitCanister ∧
     passReason { s with cans := on.cans.set 0 (canister .ready .stirring) } 0 = some .preStir) ∧
    (∀ n ∈ [0, 1, 2, 3], ({ canister .ready .idle with miss := n } : Canister).miss = n) := by decide +kernel

theorem test_reaches_calibration_course :
    (let s := calWeighing .calCup .cupReading none
     let c := calibrating .cupReading
     s.disp.cal = some c ∧ (20000 : Int) ≤ s.cfg.general.cupMax ∧ (s.cfg.general.cupMax : Int) < 20001 ∧
     400 * (c.primeTry + 1) ≤ (s.cfg.cans[c.slot]).travel ∧ (s.cfg.cans[c.slot]).travel < 400 * (40 + 1) ∧
     c.tests = 0 :: [1, 2] ∧ c.primeTry < 6 ∧ c.pass < 5) ∧
    -- test factors at and beyond 6,400, a next test and none
    (roundDiv (640 * 1000) (100 : Int).toNat ≤ 6400 ∧ 6400 < roundDiv (641 * 1000) (100 : Int).toNat) ∧
    (let c := calibrating .afterReading
     (c.tests.find? fun t => decide (({ c with test := some 0 } : CalRecord).test.getD 0 < t)) = some 1 ∧
     (c.tests.find? fun t => decide (({ c with test := some 2 } : CalRecord).test.getD 0 < t)) = none) ∧
    -- a shot waiting for its stir, with and without a fresh reading
    (∀ d ∈ [DispState.calPrime, .calRate],
      let s := calWeighing d .stirWait none
      s.disp.cal = some (calibrating .stirWait) ∧ s.disp.st = d ∧ (s.cans[(0 : Slot)]).activity ≠ .stirring ∧
      (0 : Slot) ∉ s.stir.pre ∧ hasSettled s 0 = false ∧ s.disp.fresh = false ∧
      (let v : State := { s with disp := { s.disp with fresh := true }, scale := { s.scale with latest := some 3 } }
       v.disp.fresh = true ∧ v.scale.latest = some 3)) ∧
    -- one that waits for a stir under way or requested, or asks for one; one whose canister is stirred at its reading
    (∀ c ∈ [{ canister .calibrating .idle with age := 61 }, canister .calibrating .stirring],
      let s := { calWeighing .calRate .stirWait none with cans := on.cans.set 0 c }
      s.disp.cal = some (calibrating .stirWait) ∧ (s.cans[(0 : Slot)]) = c ∧ (0 : Slot) ∉ s.stir.pre ∧
      hasSettled s 0 = decide (c.activity = .idle)) ∧
    (calibrating .beforeReading).stage ≠ .stirWait ∧
    -- the outcome, the cup still standing
    (let s := { calWeighing .calRate .afterReading (some 7) with cans := on.cans.set 0 (canister .calibrating .idle) }
     s.disp.st ≠ .fault ∧ s.disp.st ≠ .stopped ∧ s.inputs.presDispense = true ∧
     (s.cans[(0 : Slot)]).state = .calibrating) := by decide +kernel

def readyMove : State := { inDisp .done (some tin) with inputs := { Inputs.quiet with presDispense := true } }
def readyPress : State := { inLid .awaitQuiet (some tin) with air := { Agent.reset with st := .held } }
def readySpin : State := { inShake .awaitQuiet (some tin) with power := { Agent.reset with st := .held } }
def homing : State := { on with carriage := { on.carriage with st := .jammed, homeDue := true } }

theorem test_reaches_starts :
    moveDue readyMove = true ∧ quietAllows readyMove = true ∧ pressDue readyPress = true ∧ spinDue readySpin = true ∧
    homeRunDue homing = true ∧ moveDue homing = false ∧ lidMoveEligible readyMove = false ∧
    lidMoveEligible { inLid .done (some tin) with inputs := { Inputs.quiet with presLid := true } } = true ∧
    ({ readyMove with carriage := { readyMove.carriage with deferral := some 0 } } : State).carriage.deferral.isSome = true ∧
    ({ readyPress with lid := { readyPress.lid with deferral := some 0 } } : State).lid.deferral.isSome = true ∧
    ({ readySpin with shake := { readySpin.shake with deferral := some 0 } } : State).shake.deferral.isSome = true ∧
    ({ on.disp with quiet := true } : DispenseBay).quiet = true ∧
    (moveDue on && quietAllows on) = false ∧ (homeRunDue on && quietAllows on) = false ∧
    (pressDue on && quietAllows on) = false ∧ (spinDue on && quietAllows on) = false ∧
    -- a quiet limit without a deferral, or with one whose start is due no longer
    on.carriage.deferral = none ∧ on.lid.deferral = none ∧ on.shake.deferral = none ∧ moveDue on = false ∧
    homeRunDue on = false ∧ pressDue on = false ∧ spinDue on = false := by decide

/-- A before-reading whose canister the table reports on. -/
theorem test_reaches_report :
    let s := weighing .dispensing (entry .active none) (some .beforeReading)
    (judgePassed s).disp.st = .dispensing ∧ activeLine (judgePassed s) = some (0, entry .active none) ∧
    (entry .active none).slot = 0 ∧ (judgePassed s).disp.step = some .beforeReading := by decide +kernel

/-- A press start deferred by that before-reading is taken as the reading is withdrawn, and the reading is opened again (log 68). -/
theorem test_report_takes_deferred_start :
    let s := weighing .dispensing (entry .active none) (some .beforeReading)
    let t := reportCanister 0 { s with
      lid := { (inLid .awaitQuiet (some tin)).lid with deferral := some 7 }
      air := { Agent.reset with st := .held } }
    t.lid.st = .extend ∧ t.lid.deferral = none ∧ t.scale.blank = some on.cfg.general.blankTime ∧ t.disp.quiet = true ∧
    t.scale.request = some 0 := by decide +kernel

/-- The same before-reading withdrawn by CAN_LEVEL at its settle timeout: the request opened in its place is not the one that
timed out, and SETTLE_TIMEOUT leaves it alone; taken first, it closes the request and latches SCALE_UNSETTLED (R68, R69). -/
theorem test_withdrawal_before_settle_timeout :
    let s := weighing .dispensing (entry .active none) (some .beforeReading)
    let v : State := { s with scale := { s.scale with request := some 20000 } }
    let t := reportCanister 0 v
    t.scale.request = some 0 ∧ settleExpires t = t ∧
    (settleExpires v).scale.request = none ∧ (settleExpires v).mon.faultD = some .scaleUnsettled := by decide +kernel

/-- A trigger and the expiry of the blank timer at one instant: taken after the trigger, the expiry leaves the new period
alone; taken first, it ends blanking (R65, R66). -/
theorem test_trigger_before_blank_expiry :
    let s := scaled (some 0) [] none 0 on
    blankExpires (blankTrigger s) = blankTrigger s ∧ (blankTrigger s).scale.blank = some 1500 ∧
    (blankExpires s).scale.blank = none := by decide +kernel

/-- A tin lifted while its call is held, then cancelled, with an object set down since: the bay waits for that object's
lift at the resumption; with none there the record is closed at once (R14, R96; log 83). -/
theorem test_cancel_forgets_a_removal :
    ∀ present ∈ [true, false],
      let s := heldDisp .stopped .called (some tin) none
      let t := markCancelled { s with
        inputs := { Inputs.quiet with presDispense := present }, disp := { s.disp with removed := true } }
      (resumeDisp t).disp.st = (if present then .cancelled else .empty) ∧
      (resumeDisp t).completion.length = (if present then 0 else 1) := by decide +kernel

/-- A resumption starts the home timer of a held bay again for its home check, and a carriage its move timer for the next
move: the expiry of the timer as it ran before reaches neither (R116, R125). -/
theorem test_restarted_timers_do_not_expire :
    (let s := sensed (heldLid .stopped .retract (some tin))
     let t := resumeLid { s with lid := { s.lid with home := some 3000 } }
     t.lid.home = some 0 ∧ homeExpires t = t) ∧
    (let s := inMove .dispenseToLid (some tin)
     moveJams { s with carriage := { s.carriage with timer := some 0 } } =
       { s with carriage := { s.carriage with timer := some 0 } }) := by decide +kernel

theorem test_reaches_arrivals :
    (let s : State := { inMove .dispenseToLid (some tin) with
       disp := { on.disp with st := .outbound }, lid := { on.lid with st := .inbound } }
     s.online = true ∧ s.carriage.st = .moving ∧ s.carriage.move = some .dispenseToLid ∧ s.carriage.tin = some tin ∧
     s.disp.st = .outbound ∧ s.lid.st = .inbound) ∧
    (let s : State := { inMove .lidToShake (some tin) with
       lid := { on.lid with st := .outbound }, shake := { on.shake with st := .inbound } }
     s.carriage.move = some .lidToShake ∧ s.lid.st = .outbound ∧ s.shake.st = .inbound ∧
     s.inputs.clampClosed = false) ∧
    ((inMove .homeRun none).carriage.move = some .homeRun ∧ (inMove .homeRun none).carriage.tin = none) ∧
    -- jams to resolve, the target's sensor on and off, the bays waiting for the carriage or held
    (∀ m ∈ [Move.dispenseToLid, .lidToShake], ∀ t ∈ [none, some tin],
      let s : State := { inMove m t with
        carriage := { (inMove m t).carriage with st := .jammed }, lid := { on.lid with st := .inbound }
        shake := { on.shake with st := .inbound } }
      s.carriage.st = .jammed ∧ s.carriage.cause = none ∧ s.carriage.homeDue = false ∧ s.mon.estop = false ∧
      s.carriage.move = some m ∧ s.carriage.tin = t ∧ s.lid.st = .inbound ∧ s.shake.st = .inbound ∧
      s.inputs.clampClosed = false) ∧
    ((inLid .stopped none).lid.st ≠ .inbound ∧ (inShake .stopped none).shake.st ≠ .inbound) ∧
    (Inputs.quiet.presLid = false ∧ ({ Inputs.quiet with presLid := true, presShake := true } : Inputs).presLid = true) ∧
    on.carriage.st ≠ .moving ∧ on.carriage.timer = none ∧
    (∀ n ∈ [7999, 8000], ({ (inMove .homeRun none).carriage with timer := some n } : Carriage).timer = some n) ∧
    -- arrivals at a held bay, from a held bay, and with the clamp closed
    (∀ m ∈ [Move.dispenseToLid, .lidToShake], ∀ l ∈ [LidState.stopped, .fault, .inbound],
      ∀ h ∈ [ShakeState.stopped, .fault, .inbound],
      let s := sensed { inMove m (some tin) with lid := { on.lid with st := l }, shake := { on.shake with st := h } }
      s.online = true ∧ s.carriage.st = .moving ∧ s.carriage.move = some m ∧ s.carriage.tin = some tin ∧ s.lid.st = l ∧
      s.shake.st = h ∧ s.inputs.clampClosed = true ∧ s.inputs.presShake = true) := by decide

theorem test_reaches_lid :
    15 < (16 : Byte).toNat ∧ (15 : Byte).toNat ≤ 15 ∧
    (∀ l ∈ [LidState.awaitLids, .awaitAir, .awaitQuiet, .extend, .dwell, .retract, .orphan, .done],
      (inLid l (some tin)).online = true ∧ (inLid l (some tin)).lid.st = l ∧ (inLid l (some tin)).lid.tin = some tin ∧
      (inLid l (some tin)).lid.home = none ∧ (inLid l (some tin)).lid.homeCheck = false) ∧ tin.lost = false ∧
    (let s : State := { inLid .awaitLids (some tin) with
       inputs := { Inputs.quiet with magazine := true }, lid := { (inLid .awaitLids (some tin)).lid with declared := some 0 } }
     s.lid.declared = some (s.cfg.sizes[tin.size]).lidType ∧ s.inputs.magazine = true) ∧
    ¬ ((inLid .awaitLids (some tin)).lid.declared = some (on.cfg.sizes[tin.size]).lidType ∧
      (inLid .awaitLids (some tin)).inputs.magazine = true) ∧
    (∀ n ∈ [149, 150], ({ (inLid .extend (some tin)).lid with seat := some n } : LidBay).seat = some n) ∧
    (∀ n ∈ [2999, 3000], ({ (inLid .retract (some tin)).lid with home := some n } : LidBay).home = some n) ∧
    -- losses: with a tin not yet lost, one lost already, and none
    (∀ l ∈ [LidState.awaitLids, .awaitAir, .awaitQuiet, .extend, .dwell, .done, .retract, .fault, .stopped],
      ∀ t ∈ [some tin, some { tin with lost := true }, none],
        (inLid l t).online = true ∧ (inLid l t).lid.st = l ∧ (inLid l t).lid.tin = t ∧
        (inLid l t).lid.homeCheck = false) ∧
    (inLid .empty none).lid.st ≠ .orphan ∧ ({ tin with lost := true } : TinRecord).lost = true ∧
    (faulted .lidJam false).mon.faultL.isSome = true ∧ (faulted .lidJam false).lid.st = .fault := by decide

theorem test_reaches_shake :
    (∀ h ∈ [ShakeState.clamp, .spinUp, .run, .spinDown, .unclamp, .awaitRemoval],
      (inShake h (some tin)).online = true ∧ (inShake h (some tin)).shake.st = h ∧
      (inShake h (some tin)).shake.tin = some tin ∧ (inShake h (some tin)).shake.clamp = none ∧
      (inShake h (some tin)).shake.slow < 2) ∧ tin.lost = false ∧
    105000 ≤ shakeTarget (inShake .spinUp (some tin)) + shakeTarget (inShake .spinUp (some tin)) / 20 ∧
    shakeTarget (inShake .spinUp (some tin)) + shakeTarget (inShake .spinUp (some tin)) / 20 < 105001 ∧
    115000 ≤ slowLimit (shakeTarget (inShake .run (some tin))) ∧
    slowLimit (shakeTarget (inShake .run (some tin))) < 115001 ∧
    2 ≤ ({ (inShake .run (some tin)).shake with slow := 2 } : ShakeBay).slow ∧
    ({ (inShake .clamp (some tin)).shake with clamp := some 0 } : ShakeBay).clamp.isSome = true ∧
    -- losses: with a tin not yet lost, one lost already, and none
    (∀ h ∈ [ShakeState.inbound, .clamp, .awaitPower, .awaitQuiet, .spinUp, .run, .spinDown, .awaitRoom, .fault, .stopped,
      .unclamp, .orphan], ∀ t ∈ [some tin, some { tin with lost := true }, none],
        (inShake h t).online = true ∧ (inShake h t).shake.st = h ∧ (inShake h t).shake.tin = t) ∧
    on.inputs.clampClosed = false ∧ (sensed on).inputs.clampClosed = true ∧
    -- sensors and measurements that are recorded only; a saturated one in RUN
    (∀ c ∈ [true, false], ∀ h ∈ [ShakeState.awaitPower, .spinUp, .empty],
      (inShake h (some tin)).shake.st ≠ (if c then .clamp else .unclamp) ∧ (inShake h (some tin)).shake.turning = false) ∧
    (inShake .unclamp none).shake.st ≠ .clamp ∧ (inShake .clamp none).shake.st ≠ .unclamp ∧
    slowLimit (shakeTarget (inShake .run (some tin))) < 2000000 := by decide

/-- The clamp opens on a tin that stands there after a removal was noted: with its record joined the bay is EMPTY, at a
start, with no record, it waits for the removal (R134, R203). -/
theorem test_unclamp_at_a_start :
    ∀ joined ∈ [true, false],
      let s : State := { inShake .unclamp none with
        shake := { (inShake .unclamp none).shake with joined := joined, removed := true }
        inputs := { Inputs.quiet with presShake := true, clampClosed := true } }
      (match exec (.clampSensor false) s with
       | .next t => some t.shake.st
       | _ => none) = some (if joined then .empty else .awaitRemoval) := by decide +kernel

theorem test_reaches_frames :
    (let s : State := { inLine .active with line := { (inLine .active).line with queue := [frame .claim 0] } }
     s.online = true ∧ s.line.attempt = none ∧ s.line.next = some (frame .claim 0)) ∧ on.line.next = none ∧
    (∀ n ∈ [6, 7], (sending .active (frame .claim n)).line.attempt =
      some { frame := frame .claim n, fate := .queued, bytes := [] }) ∧
    ¬ ((sending .active (frame .claim 6)).line.st = .down ∧ (frame .claim 6).kind = .claim) ∧
    ((sending .down (frame .claim 0)).line.st = .down ∧ (frame .claim 0).kind = .claim ∧
      (sending .down (frame .claim 0)).line.attempt = some { frame := frame .claim 0, fate := .queued, bytes := [] }) ∧
    (frame .claim 6).attempts < 7 ∧ 7 ≤ (frame .claim 7).attempts ∧
    -- attempts of a superseded and of a withdrawn frame; what each line state may start
    (∀ x ∈ [Fate.superseded, .withdrawn], ∀ k ∈ [NoticeKind.beacon, .claim],
      ∃ a : Attempt, (sending .active (frame k 0)).line.setFate x =
        { (sending .active (frame k 0)).line with attempt := some a } ∧ a.fate = x ∧ a.fate ≠ .queued ∧
        a.frame.kind = k) ∧
    (∀ l ∈ [LineCtlState.active, .listening, .down],
      ({ (inLine l).line with queue := [frame .claim 0, frame .beacon 0] } : LineCtl).next =
        some (if l = .active then frame .claim 0 else frame .beacon 0)) ∧
    (∀ l ∈ [LineCtlState.silent, .barred],
      ({ (inLine l).line with queue := [frame .claim 0, frame .beacon 0] } : LineCtl).next = none) := by
  refine ⟨by decide, by decide, by decide, by decide, by decide, by decide, by decide, fun x hx k hk =>
    ⟨{ frame := frame k 0, fate := x, bytes := [] }, rfl, rfl, ?_, rfl⟩, by decide, by decide⟩
  have hx : x = .superseded ∨ x = .withdrawn := by simpa using hx
  rcases hx with rfl | rfl <;> simp

theorem test_reaches_sent_frames :
    (∀ k ∈ [NoticeKind.wait, .beacon, .release, .adjust, .claim],
      (sending .active (frame k 0)).line.st ≠ .down ∧ (frame k 0).kind = k) ∧
    (let s := asking .power .asking (sending .active (frame .claim 0))
     (s.agent .power).st = .asking ∧ (s.agent .power).asked.getD 0 ≤ ownRoom s .power) ∧
    (let s := asking .power .asking { sending .active (frame .claim 0) with
       cfg := { on.cfg with ident := { on.cfg.ident with powerBudget := 4 } } }
     ownRoom s .power < (s.agent .power).asked.getD 0) ∧
    ((sending .active (frame .claim 0)).agent .power).st ≠ .asking ∧
    (∀ d ∈ [0, 1], ({ (inLine .active).line with drops := d } : LineCtl).drops < 2) ∧
    2 ≤ ({ (inLine .active).line with drops := 2 } : LineCtl).drops ∧ (inLine .listening).line.st = .listening ∧
    (∀ k ∈ [NoticeKind.beacon, .claim], (sending .down (frame k 0)).line.st = .down ∧ (sending .down (frame k 0)).online = true ∧
      (sending .down (frame k 0)).line.attempt = some { frame := frame k 0, fate := .queued, bytes := [] }) ∧
    ({ (inLine .down).line with ret := .listening } : LineCtl).ret = .listening ∧
    (inLine .down).line.ret ≠ .listening ∧
    -- a third drop in another state; a CLAIM queued, its owner ASKING or not, in progress or not, and none queued
    (inLine .down).line.st ≠ .listening ∧ (inLine .down).line.st ≠ .active ∧
    (∀ a ∈ [AgentState.asking, .held],
      let s := asking .power a { inLine .active with line := { (inLine .active).line with queue := [frame .claim 0] } }
      (∃ f ∈ s.line.queue, f.kind = .claim ∧ f.pool = .power) ∧ s.line.attempt = none ∧ (s.agent .power).st = a) ∧
    (sending .active (frame .claim 0)).line.attempt =
      some { frame := frame .claim 0, fate := .queued, bytes := [] } ∧ (frame .claim 0).pool = .power ∧
    (inLine .active).line.queue = [] ∧
    -- a CLAIM withdrawn, within the room and above it
    (5 ≤ ownRoom (inLine .active) .power ∧ ownRoom (inLine .active) .power < 41) := by decide +kernel

/-- Rooms: with nothing held, and with a peer, or this station, holding the budget. -/
theorem test_reaches_rooms :
    let e : RosterEntry := { RosterEntry.reset with present := true, heldPower := 40, heldAir := 24 }
    let s : State := { inLine .active with roster := on.roster.set 2 e }
    ownRoom (inLine .active) .power = 40 ∧ peerRoom (inLine .active) .air 1 = 24 ∧ ownRoom s .power = 0 ∧
    ownRoom s .air = 0 ∧ peerRoom s .power 1 = 0 ∧ peerRoom s .power 2 = 40 ∧
    peerRoom { s with power := { s.power with announced := 15 } } .power 2 = 25 := by decide +kernel

theorem test_reaches_received :
    (inLine .active).online = true ∧ (inLine .active).line.st ≠ .silent ∧ (1 : Station) ≠ on.cfg.ident.number ∧
    (5 : Byte) ≠ 0 ∧ (40 : Byte).toNat ≤ peerRoom (inLine .active) .power 1 ∧
    peerRoom (inLine .active) .power 1 < (41 : Byte).toNat ∧
    (let e : RosterEntry := { (inLine .active).roster[(1 : Station)] with heldPower := 5 }
     (5 : Byte).toNat ≤ e.held .power ∧ e.held .power < (6 : Byte).toNat) ∧
    (beacon 2 18 24 7).inRange = true ∧ on.line.st = .silent ∧ (inLine .active).line.st ≠ .barred ∧
    (0 : Station) = on.cfg.ident.number ∧ (inLine .barred).line.st = .barred ∧
    -- frames queued when the line is barred, their agent ASKING or not, and none
    (∀ k ∈ [NoticeKind.claim, .release, .adjust], ∀ a ∈ [AgentState.asking, .idle],
      let s := asking .power a { inLine .active with line := { (inLine .active).line with queue := [frame k 0] } }
      (∃ f ∈ s.line.queue, f.kind = k ∧ f.pool = .power) ∧ (s.agent .power).st = a ∧
      (s.agent .power).standing = false) ∧ (inLine .active).line.queue = [] := by decide +kernel

theorem test_reaches_agents :
    (on.agent .power).st = .idle ∧ on.cfg.ident.lineMode = .solo ∧ 40 ≤ on.budget .power ∧
    (inLine .active).cfg.ident.lineMode = .peer ∧ courtesy (inLine .active) .power 40 = true ∧
    courtesy (inLine .active) .power 41 = false ∧ ((inLine .active).agent .power).standing = false ∧
    (let s := asking .power .waiting (inLine .active)
     (s.agent .power).st = .waiting ∧ (s.agent .power).asked = some 5 ∧ courtesy s .power 5 = true ∧
     ∀ x : Attempt, s.line.attempt = some x → x.frame.pool = .power → x.fate ≠ .queued) ∧
    (let s := asking .power .waiting (sending .active (frame .wait 0))
     (s.agent .power).st = .waiting ∧ courtesy s .power 5 = true ∧ s.line.attempt.isSome = true) ∧
    (let s := asking .power .waiting (inLine .listening)
     (s.agent .power).st = .waiting ∧ courtesy s .power 5 = false) ∧
    (inLine .active).lineTakes = true ∧ on.lineTakes = false ∧ on.budget .power < 41 ∧
    -- waits that begin and that stand, orders to lower, to give up, and reports of unsent frames
    (∀ n ∈ [true, false], let s := asking .power .waiting (inLine .active)
      let v := s.mapAgent .power fun g => { g with standing := n }
      (v.agent .power).standing = n ∧ (v.agent .power).asked = some 5 ∧ (v.agent .power).st ≠ .idle) ∧
    (let s := (asking .power .held (inLine .active)).mapAgent .power fun g => { g with announced := 5 }
     (s.agent .power).st = .held ∧ 4 < (s.agent .power).announced ∧ (s.agent .power).announced ≤ 5) ∧
    ((asking .power .asking (inLine .active)).agent .power).st = .asking ∧
    (∀ k ∈ [NoticeKind.claim, .adjust, .release, .wait, .beacon], (frame k 0).kind = k) ∧
    -- a frame replaced in the queue, and one placed between an urgent and a less urgent one
    [frame .wait 0].any (frame .wait 1).same = true ∧ (frame .wait 0).same (frame .claim 0) = false ∧
    NoticeKind.urgency .claim ≤ NoticeKind.urgency .wait ∧ NoticeKind.urgency .wait < NoticeKind.urgency .beacon := by
  decide +kernel

theorem test_reaches_line_timers :
    (∀ l ∈ [LineCtlState.active, .listening], (inLine l).line.beacon.isSome = true ∧ (inLine l).lineTakes = true ∧
      (inLine l).line.queue.any (newFrame .beacon .power 0 0).same = false ∧
      (inLine l).line.sending (newFrame .beacon .power 0 0) = false ∧ (inLine l).power.standing = false ∧
      (inLine l).air.standing = false ∧ (inLine l).power.st ≠ .waiting ∧ (inLine l).air.st ≠ .waiting) ∧
    (∀ n ∈ [0, 2], ({ (inLine .listening).line with listens := n } : LineCtl).listens < 3) ∧
    ({ (inLine .listening).line with listens := 3 } : LineCtl).listens = 3 ∧ on.line.beacon = none ∧
    ({ (inLine .active).roster[(1 : Station)] with present := true } : RosterEntry).present = true ∧
    (on.roster[(1 : Station)]).present = false ∧ 4 * on.cfg.ident.beaconInterval ≤ (on.roster[(1 : Station)]).age ∧
    ({ on.roster[(1 : Station)] with present := true, age := 0 } : RosterEntry).age < 4 * on.cfg.ident.beaconInterval ∧
    ({ on.power with timer := some 0 } : Agent).timer.isSome = true ∧ (on.agent .power).timer = none ∧
    -- an earlier BEACON in progress, or only queued; a standing wait
    (let s := sending .active (frame .beacon 0)
     s.line.queue.any (newFrame .beacon .power 0 0).same = true ∧
     s.line.attempt = some { frame := frame .beacon 0, fate := .queued, bytes := [] } ∧ (frame .beacon 0).kind = .beacon ∧
     (frame .beacon 0).pool = .power ∧
     (let v : State := { s with line := { s.line with attempt := none } }
      v.line.queue.any (newFrame .beacon .power 0 0).same = true ∧ v.line.sending (newFrame .beacon .power 0 0) = false)) ∧
    ({ on.power with standing := true } : Agent).standing = true ∧ (inLine .active).line.st ≠ .listening := by decide

/-- States of the invariants: reset, a press and a shaker driven on their supplies, a standing stop, an ordered queue and an
open request. -/
theorem test_reaches_invariants :
    jobsFit State.reset.jobs ∧ stirsFit State.reset.stir ∧ recordsFit State.reset.completion ∧
    pressLicensed { LidBay.reset with st := .extend, valve := true } { Agent.reset with st := .held } ∧
    shakerLicensed { ShakeBay.reset with st := .run, drive := .driven } { Agent.reset with st := .held } ∧
    StopHolds (faulted .clamp true) ∧ QuietFits (weighing .tare (entry .pending none) none) ∧
    JobsOrdered { on with jobs := { on.jobs with
      records := [job 2 1 0 1, job 1 1 0 2, job 3 1 0 2], reserved := [job 4 1 1 0] } } :=
  ⟨Nat.zero_le _, Nat.zero_le _, Nat.zero_le _, fun _ => ⟨.inl rfl, rfl, rfl, rfl⟩, fun _ => ⟨.inr rfl, rfl⟩,
    ⟨fun h => absurd h (by decide),
      fun _ => ⟨⟨.inr rfl, .inr rfl, .inr rfl⟩, ⟨rfl, rfl, rfl, rfl, rfl, rfl⟩, by decide⟩⟩,
    ⟨by decide +kernel, by decide +kernel⟩, ⟨(by decide : (4 : Nat) ≤ 24), Nat.zero_le _, by decide, by decide⟩⟩

end Sys2Proof.Tests
end

