-- ==== Sys2Proof/Proofs/ReceivedNotices.lean ====
section
/-! PROOF. What a received CLAIM, ADJUST, RELEASE or WAIT of a peer makes of its roster entry (R157, R164, R165), and the
room its claim is judged against (R154). -/

namespace Sys2Proof.Proofs

open Sys2Proof Sys2Proof.Machine

variable {s : State} {src : Station} {pool : Pool}

/-! ## The state that a peer's valid notice is met in (R137, R147) -/

/-- `s` with the wait for idle ended and `src`'s entry `e`: what is changed before and by a peer's notice. -/
def withPeer (src : Station) (e : RosterEntry) (s : State) : State :=
  { s with line := { s.line with awaitIdle := false }, roster := s.roster.set src e }

/-- The entry of a station just heard: PRESENT with age 0, the rest as it stands. -/
def heardEntry (src : Station) (s : State) : RosterEntry := { s.roster[src] with present := true, age := 0 }

theorem withPeer_entry (e : RosterEntry) : (withPeer src e s).roster[src] = e := by simp [withPeer]

theorem withPeer_entry_ne {i : Station} (e : RosterEntry) (hi : i ≠ src) :
    (withPeer src e s).roster[i] = s.roster[i] := by
  have hv : (src : Nat) ≠ i := fun h => hi (Fin.ext h.symm)
  simp [withPeer, Vector.getElem_set_ne, hv]

theorem mapEntry_withPeer (e : RosterEntry) (f : RosterEntry → RosterEntry) :
    (withPeer src e s).mapEntry src f = withPeer src (f e) s := by
  simp [State.mapEntry, State.mapRoster, withPeer]

/-- A peer's notice acts on the state in which its sender has been heard, BARRED or not. -/
theorem receive_of_peer (act : State → State) (hl : s.line.st ≠ .silent) (hn : src ≠ s.cfg.ident.number) :
    receive src act s = act (withPeer src (heardEntry src s) s) := by
  unfold receive
  rw [if_neg hl]
  exact if_neg hn

/-! ## The room for a peer's claim (R154) -/

/-- The claimant's own entry is left out of its room. -/
theorem peerRoom_withPeer (e : RosterEntry) : peerRoom (withPeer src e s) pool src = peerRoom s pool src := by
  have hcounted : ∀ i ∈ stations.filter (· ≠ src), counted (withPeer src e s) pool i = counted s pool i := by
    intro i hi
    have hne : i ≠ src := by simpa using List.of_mem_filter hi
    unfold counted
    rw [withPeer_entry_ne e hne]
    rfl
  unfold peerRoom
  rw [List.map_congr_left hcounted]
  cases pool <;> rfl

/-- Leaving the claimant out of the stations counts as counting it for 0. -/
theorem sum_counted_others (s : State) (p : Pool) (src : Station) :
    ((stations.filter (· ≠ src)).map (counted s p)).sum = (stations.map fun i =>
      if s.roster[i].present = true ∧ i ≠ s.cfg.ident.number ∧ i ≠ src then s.roster[i].held p else 0).sum := by
  induction stations with
  | nil => rfl
  | cons i is ih =>
    rw [List.map_cons, List.sum_cons, ← ih]
    by_cases hi : i = src
    · simp [hi]
    · simp [hi, counted]

/-- `Nat` subtraction read as the room that holdings leave of a budget. -/
theorem sub_leaves (budget holdings : Nat) :
    (budget ≤ holdings → budget - holdings = 0) ∧ (holdings < budget → budget - holdings + holdings = budget) :=
  ⟨Nat.sub_eq_zero_of_le, fun h => Nat.sub_add_cancel h.le⟩

/-! ## What each notice makes of the entry (R157, R164, R165) -/

theorem judgePeer_granted {a : Nat} (e : RosterEntry) (ha : a ≤ peerRoom s pool src) :
    judgePeer src pool a (withPeer src e s) = withPeer src ((e.setHeld pool a).setWait pool none) s := by
  unfold judgePeer
  rw [peerRoom_withPeer, if_pos ha, mapEntry_withPeer]

theorem judgePeer_void {a : Nat} (e : RosterEntry) (ha : peerRoom s pool src < a) :
    judgePeer src pool a (withPeer src e s) = withPeer src (e.setHeld pool 0) s := by
  unfold judgePeer
  rw [peerRoom_withPeer, if_neg ha.not_ge, mapEntry_withPeer]

theorem takeAdjust_lowers {a : Nat} (e : RosterEntry) (ha : a ≤ e.held pool) :
    takeAdjust src pool a (withPeer src e s) = tryBoth (withPeer src (e.setHeld pool a) s) := by
  unfold takeAdjust adjustPeer
  rw [withPeer_entry, if_pos ha, if_pos ha, mapEntry_withPeer]

theorem takeAdjust_ignored {a : Nat} (e : RosterEntry) (ha : e.held pool < a) :
    takeAdjust src pool a (withPeer src e s) = setFlag .lineChange (withPeer src e s) := by
  unfold takeAdjust adjustPeer
  rw [withPeer_entry, if_neg ha.not_ge, if_neg ha.not_ge]

theorem releasePeer_withPeer (e : RosterEntry) :
    releasePeer src pool (withPeer src e s) = withPeer src ((e.setHeld pool 0).setWait pool none) s :=
  mapEntry_withPeer e _

theorem waitPeer_withPeer (amount count : Nat) (e : RosterEntry) :
    waitPeer src pool amount count (withPeer src e s) =
      withPeer src ((e.setHeld pool 0).setWait pool (some { amount := amount, count := count })) s :=
  mapEntry_withPeer e _

/-! ## The commands, received from a peer -/

theorem whenOnline_of_online (f : State → State) (ho : s.online = true) : whenOnline f s = settle (f s) := if_pos ho

section FromPeer

variable (ho : s.online = true) (hl : s.line.st ≠ .silent) (hn : src ≠ s.cfg.ident.number) {amount : Byte}
include ho hl hn

theorem exec_claimReceived (h0 : amount ≠ 0) : exec (.claimReceived src pool amount) s =
    .next (settle (tryBoth (judgePeer src pool amount.toNat (withPeer src (heardEntry src s) s)))) := by
  change execClaimReceived src pool amount s = _
  rw [execClaimReceived, if_neg h0, whenOnline_of_online _ ho, receive_of_peer _ hl hn]
  rfl

theorem exec_adjustReceived (h0 : amount ≠ 0) : exec (.adjustReceived src pool amount) s =
    .next (settle (takeAdjust src pool amount.toNat (withPeer src (heardEntry src s) s))) := by
  change execAdjustReceived src pool amount s = _
  rw [execAdjustReceived, if_neg h0, whenOnline_of_online _ ho, receive_of_peer _ hl hn]

theorem exec_waitReceived (h0 : amount ≠ 0) (count : Byte) : exec (.waitReceived src pool amount count) s =
    .next (settle (tryBoth (waitPeer src pool amount.toNat count.toNat (withPeer src (heardEntry src s) s)))) := by
  change execWaitReceived src pool amount count s = _
  rw [execWaitReceived, if_neg h0, whenOnline_of_online _ ho, receive_of_peer _ hl hn]
  rfl

theorem exec_releaseReceived : exec (.releaseReceived src pool) s =
    .next (settle (tryBoth (releasePeer src pool (withPeer src (heardEntry src s) s)))) := by
  change execReleaseReceived src pool s = _
  rw [execReleaseReceived, whenOnline_of_online _ ho, receive_of_peer _ hl hn]
  rfl

end FromPeer

/-- Settles O51: each notice is met in the state in which its sender has been heard, where the room for its claim is the
room before, and changes the sender's entry alone. -/
theorem receivedNoticesChangeTheRoster : Obligations.ReceivedNoticesChangeTheRoster := by
  unfold Obligations.ReceivedNoticesChangeTheRoster
  intro s src pool ho hl hn heard t
  refine ⟨fun amount h0 => ⟨fun ha => ?granted, fun ha => ?void, fun ha => ?lowered, fun ha => ?ignored,
    fun count => ?wait⟩, ?release, ?room⟩
  case granted =>
    rw [exec_claimReceived ho hl hn h0, judgePeer_granted _ ha]
    rfl
  case void =>
    rw [exec_claimReceived ho hl hn h0, judgePeer_void _ ha]
    rfl
  case lowered =>
    rw [exec_adjustReceived ho hl hn h0, takeAdjust_lowers (heardEntry src s) ha]
    rfl
  case ignored =>
    rw [exec_adjustReceived ho hl hn h0, takeAdjust_ignored (heardEntry src s) ha]
    rfl
  case wait =>
    rw [exec_waitReceived ho hl hn h0, waitPeer_withPeer]
    rfl
  case release =>
    rw [exec_releaseReceived ho hl hn, releasePeer_withPeer]
    rfl
  case room =>
    intro others leaves
    constructor <;> (rw [peerRoom, sum_counted_others]; exact sub_leaves _ _)

end Sys2Proof.Proofs
end

