-- ==== Sys2Proof/Proofs/Attention.lean ====
section
/-! PROOF. The attention output as a function of the event flags and their enables (R191). -/

namespace Sys2Proof.Proofs

open Sys2Proof Sys2Proof.Machine

variable {s t : State}

/-! ## The flags and their bits (R190, R207) -/

/-- The fifteen flags in the order of R190's table. -/
def flagTable : List EventFlag :=
  [.completionReady, .completionFull, .tinWanted, .tinWrong, .lidsWanted, .canisterLow, .canisterFault, .bayFault,
    .calDone, .recalAdvised, .keepaliveLost, .lineChange, .budgetWait, .configCorrected, .orphanTin]

theorem flagTable_bits : flagTable.map EventFlag.bit = List.range 15 := rfl

theorem mem_flagTable (f : EventFlag) : f ∈ flagTable := by cases f <;> decide

theorem flag_bit_lt (f : EventFlag) : f.bit < 15 := by
  have hf : f.bit ∈ flagTable.map EventFlag.bit := List.mem_map_of_mem (mem_flagTable f)
  rwa [flagTable_bits, List.mem_range] at hf

/-- No bit of the flag register is without its flag. -/
theorem exists_flag_of_bit_lt {n : Nat} (hn : n < 15) : ∃ f : EventFlag, f.bit = n := by
  rw [← List.mem_range, ← flagTable_bits] at hn
  obtain ⟨f, -, hf⟩ := List.mem_map.mp hn
  exact ⟨f, hf⟩

theorem flag_setFlag (f g : EventFlag) (s : State) :
    (setFlag f s).flag g = (s.flag g || decide (g.bit = f.bit)) := by
  simp [State.flag, setFlag, flag_bit_lt]

theorem flag_setFlag_self (f : EventFlag) (s : State) : (setFlag f s).flag f = true := by simp [flag_setFlag]

/-! ## The attention output (R191) -/

theorem attention_congr (h : s.events = t.events) : attention s = attention t := by rw [attention, attention, h]

theorem attention_iff : attention s = true ↔ s.events.flags &&& s.events.enables ≠ 0#15 := bne_iff_ne

theorem attention_of_flag {f : EventFlag} (hset : s.flag f = true) (hon : s.events.enables.getLsbD f.bit = true) :
    attention s = true := by
  have hbit : (s.events.flags &&& s.events.enables).getLsbD f.bit = true := by
    rw [BitVec.getLsbD_and, hon, Bool.and_true]
    exact hset
  rw [attention_iff]
  intro hzero
  simp [hzero] at hbit

theorem exists_flag_of_attention (h : attention s = true) :
    ∃ f : EventFlag, s.flag f = true ∧ s.events.enables.getLsbD f.bit = true := by
  by_contra hnone
  refine attention_iff.mp h (BitVec.eq_of_getLsbD_eq fun n hn => ?_)
  obtain ⟨f, rfl⟩ := exists_flag_of_bit_lt hn
  rw [BitVec.getLsbD_and, BitVec.getLsbD_zero, Bool.and_eq_false_imp]
  exact fun hset => Bool.eq_false_of_not_eq_true fun hon => hnone ⟨f, hset, hon⟩

theorem attention_setFlag {f : EventFlag} (hon : s.events.enables.getLsbD f.bit = true) :
    attention (setFlag f s) = true := by
  have hkept : (setFlag f s).events.enables = s.events.enables := by simp
  exact attention_of_flag (flag_setFlag_self f s) (hkept ▸ hon)

theorem attention_of_enables_off (h : s.events.enables = 0) : attention s = false := by simp [attention, h]

/-- Settles O17: the flags are the bits of the register, so a common bit of flags and enables is an enabled set flag. -/
theorem attentionFollowsTheFlags : Obligations.AttentionFollowsTheFlags := by
  unfold Obligations.AttentionFollowsTheFlags
  refine ⟨fun s => ⟨exists_flag_of_attention, ?active⟩, fun s t => attention_congr, fun s f => flag_setFlag_self f s,
    fun s f => attention_setFlag, ?reset⟩
  case active =>
    rintro ⟨f, hset, hon⟩
    exact attention_of_flag hset hon
  case reset =>
    have henables : State.reset.events.enables = 0 := rfl
    exact attention_of_enables_off henables

end Sys2Proof.Proofs
end

