-- ==== Sys2Proof/Proofs/Steps.lean ====
section
/-! PROOF. What a step can do: every command is an effect on the blocks inside one of the frames of Settle.lean, an
event of the port, or an event of power, start and store. A property that all of these keep is kept by every step. -/

namespace Sys2Proof.Proofs

open Sys2Proof Sys2Proof.Machine

variable {s t : State} {P : State → Prop}

/-! ## The commands by the way they act -/

/-- What the commands beside the port's and the power's do to a part that is online. -/
inductive Effect : (State → State) → Prop where
  | nothing : Effect id
  | keepaliveLost : Effect keepaliveLost
  | emergencyStop : Effect fun t => if t.mon.estop then t else applyEstop t
  | doorOpens : Effect (setPaused true)
  | doorCloses : Effect fun t => restartChecks (setPaused false t)
  | ageStirs : Effect ageStirs
  | stirrerRevolution (i : Slot) (period : Nat) :
      Effect fun t => if period ≤ t.cfg.general.stirMinPeriod then fastStir i t else slowStir i t
  | slowStir (i : Slot) : Effect (slowStir i)
  | checkExpires (i : Slot) : Effect (checkExpires i)
  | runExpires (i : Slot) : Effect (runExpires i)
  | turnDone : Effect turnDone
  | countPulse (i : Slot) : Effect (countPulse i)
  | segmentEnds : Effect segmentEnds
  | takeSample (raw : Int) : Effect (takeSample raw)
  | blankExpires : Effect blankExpires
  | settleExpires : Effect settleExpires
  | dispTinOn : Effect dispTinOn
  | dispTinOff : Effect dispTinOff
  | drain : Effect drain
  | moveStart : Effect fun t => if moveDue t && quietAllows t then startMove t else t
  | takeDeferred (o : StartOwner) : Effect (takeDeferred o)
  | arrivalSensed : Effect arrivalSensed
  | moveJams : Effect moveJams
  | homeRunStart : Effect fun t => if homeRunDue t && quietAllows t then startHomeRun t else t
  | homeSensed : Effect homeSensed
  | lidRecheck : Effect lidRecheck
  | pressStart : Effect fun t => if pressDue t && quietAllows t then startPress t else t
  | seatedSensed : Effect seatedSensed
  | seatExpires : Effect seatExpires
  | dwellExpiry : Effect fun t => if t.lid.st = .dwell then endDwell t else t
  | pressHomeSensed : Effect pressHomeSensed
  | homeExpires : Effect homeExpires
  | guardChanged (isOpen : Bool) : Effect (guardChanged isOpen)
  | lidTinOff : Effect lidTinOff
  | clampSensed (closed : Bool) : Effect (clampSensed closed)
  | clampExpires : Effect clampExpires
  | spinUpStart : Effect fun t => if spinDue t && quietAllows t then startSpin t else t
  | measure (period : Nat) : Effect (measure period)
  | saturatedSpeed : Effect saturatedSpeed
  | spinUpTimeout : Effect fun t => if t.shake.st = .spinUp then latch .shake .shakeSpeed t else t
  | secondRun : Effect secondRun
  | runEnds : Effect runEnds
  | shakeTinOff : Effect shakeTinOff
  | startFrame : Effect startFrame
  | loseArbitration : Effect loseArbitration
  | transmitFails : Effect transmitFails
  | frameEnds : Effect frameEnds
  | discardFrame : Effect discardFrame
  | claimReceived (src : Station) (p : Pool) (a : Nat) : Effect (receive src (thenTell (judgePeer src p a)))
  | adjustReceived (src : Station) (p : Pool) (a : Nat) : Effect (receive src (takeAdjust src p a))
  | releaseReceived (src : Station) (p : Pool) : Effect (receive src (thenTell (releasePeer src p)))
  | waitReceived (src : Station) (p : Pool) (a n : Nat) : Effect (receive src (thenTell (waitPeer src p a n)))
  | beaconReceived (src : Station) (b : Beacon) : Effect (receive src (thenTell (beaconPeer src b)))
  | beaconExpiry : Effect beaconExpiry
  | ageOut (i : Station) : Effect (ageOut i)
  | waitExpires (p : Pool) : Effect (waitExpires p)

theorem effect_ite {c : Prop} [Decidable c] {f g : State → State} (hf : Effect f) (hg : Effect g) :
    Effect (if c then f else g) := by split <;> assumption

theorem keeps_ite {c : Prop} [Decidable c] {a b : State} (ha : c → P a) (hb : ¬c → P b) : P (if c then a else b) := by
  split
  · exact ha ‹_›
  · exact hb ‹_›

/-- What the commands on the station port do to a part that serves. -/
inductive PortEvent : (State → State) → Prop where
  | bytes (bytes : List Byte) : PortEvent (receiveBytes bytes)
  | gap : PortEvent receiverGap
  | sent : PortEvent endResponse
  | request (r : Request) : PortEvent (requestArrives r)

/-- What a command on state `s` leaves. -/
inductive Result (s : State) : State → Prop where
  | online {f : State → State} (hf : Effect f) : Result s (whenOnline f s)
  | sensed {l : Inputs → Inputs} {f : State → State} (hf : Effect f) : Result s (whenSensed (State.mapInputs l) f s)
  | port {f : State → State} (hf : PortEvent f) : Result s (whenServing f s)
  | down (p : Phase) : Result s (goDown p (cutWrite s))
  | phase (p : Phase) : Result s (s.mapPhase fun _ => p)
  | started (i : Inputs) : Result s (settle (startUp i s))
  | written (agrees : Bool) : Result s (endWrite agrees s)
  | same : Result s s

theorem resetLine_result (active : Bool) : ∃ t, execResetLine active s = .next t ∧ Result s t := by
  refine ⟨_, rfl, ?_⟩
  split
  · exact .phase _
  · split
    · exact .down _
    · split
      · exact .phase _
      · exact .same

theorem startUp_result (i : Inputs) : ∃ t, execStartUp i s = .next t ∧ Result s t := by
  refine ⟨_, rfl, ?_⟩
  split
  · exact .started i
  · exact .same

/-- The inversion of `exec`: every command answers a next state, which is one of `Result`'s. -/
theorem exec_result (i : Instr) (s : State) : ∃ t, exec i s = .next t ∧ Result s t :=
  match i with
  | .powerOn => ⟨_, rfl, .down _⟩
  | .resetLine active => resetLine_result active
  | .startUp inputs => startUp_result inputs
  | .nvWriteDone agrees => ⟨_, rfl, .written agrees⟩
  | .powerLoss => ⟨_, rfl, .down _⟩
  | .messageComplete bytes => ⟨_, rfl, .port (.bytes bytes)⟩
  | .messageGap => ⟨_, rfl, .port .gap⟩
  | .oversizeMessage _ => ⟨_, rfl, .port (.bytes _)⟩
  | .responseSent => ⟨_, rfl, .port .sent⟩
  | .submit _ => ⟨_, rfl, .port (.request _)⟩
  | .cancel _ => ⟨_, rfl, .port (.request _)⟩
  | .setPrio _ _ => ⟨_, rfl, .port (.request _)⟩
  | .queryJob _ => ⟨_, rfl, .port (.request _)⟩
  | .queryBays => ⟨_, rfl, .port (.request _)⟩
  | .takeRecord => ⟨_, rfl, .port (.request _)⟩
  | .canLoad _ => ⟨_, rfl, .port (.request _)⟩
  | .canLevel _ _ => ⟨_, rfl, .port (.request _)⟩
  | .canQuery _ => ⟨_, rfl, .port (.request _)⟩
  | .canClear _ => ⟨_, rfl, .port (.request _)⟩
  | .calibrate _ _ => ⟨_, rfl, .port (.request _)⟩
  | .calAbort => ⟨_, rfl, .port (.request _)⟩
  | .lids _ => ⟨_, rfl, .port (.request _)⟩
  | .events => ⟨_, rfl, .port (.request _)⟩
  | .eventAck _ => ⟨_, rfl, .port (.request _)⟩
  | .eventMask _ => ⟨_, rfl, .port (.request _)⟩
  | .mode _ => ⟨_, rfl, .port (.request _)⟩
  | .clearFault _ => ⟨_, rfl, .port (.request _)⟩
  | .clearFaultStation => ⟨_, rfl, .port (.request _)⟩
  | .resume => ⟨_, rfl, .port (.request _)⟩
  | .peers => ⟨_, rfl, .port (.request _)⟩
  | .nvRead _ _ => ⟨_, rfl, .port (.request _)⟩
  | .nvStore _ _ _ => ⟨_, rfl, .port (.request _)⟩
  | .reset => ⟨_, rfl, .port (.request _)⟩
  | .ping _ => ⟨_, rfl, .port (.request _)⟩
  | .keepaliveExpiry => ⟨_, rfl, .online .keepaliveLost⟩
  | .emergencyStop => ⟨_, rfl, .sensed .emergencyStop⟩
  | .estopInputReleased => ⟨_, rfl, .sensed .nothing⟩
  | .cabinetDoorOpen => ⟨_, rfl, .sensed .doorOpens⟩
  | .cabinetDoorClose => ⟨_, rfl, .sensed .doorCloses⟩
  | .minuteTimer => ⟨_, rfl, .online .ageStirs⟩
  | .stirrerRevolution slot period => ⟨_, rfl, .online (.stirrerRevolution slot period)⟩
  | .stirrerSpeedSaturated slot => ⟨_, rfl, .online (.slowStir slot)⟩
  | .stirSpeedTimeout slot => ⟨_, rfl, .online (.checkExpires slot)⟩
  | .stirRunExpiry slot => ⟨_, rfl, .online (.runExpires slot)⟩
  | .valveTurnDone => ⟨_, rfl, .online .turnDone⟩
  | .rotationPulse slot => ⟨_, rfl, .online (.countPulse slot)⟩
  | .pumpSegmentEnd => ⟨_, rfl, .online .segmentEnds⟩
  | .scaleSample raw => ⟨_, rfl, .online (.takeSample raw)⟩
  | .blankTimerExpiry => ⟨_, rfl, .online .blankExpires⟩
  | .settleTimeout => ⟨_, rfl, .online .settleExpires⟩
  | .tinPresenceDispense _ => ⟨_, rfl, .sensed (effect_ite .dispTinOn .dispTinOff)⟩
  | .recordJoin => ⟨_, rfl, .online .drain⟩
  | .carriageMoveStart => ⟨_, rfl, .online .moveStart⟩
  | .quietDeferralExpiry owner => ⟨_, rfl, .online (.takeDeferred owner)⟩
  | .carriageArrival => ⟨_, rfl, .online .arrivalSensed⟩
  | .moveTimeout => ⟨_, rfl, .online .moveJams⟩
  | .homeRunStart => ⟨_, rfl, .online .homeRunStart⟩
  | .carriageHome => ⟨_, rfl, .online .homeSensed⟩
  | .magazineSensor _ => ⟨_, rfl, .sensed .lidRecheck⟩
  | .pressStart => ⟨_, rfl, .online .pressStart⟩
  | .lidSeated => ⟨_, rfl, .online .seatedSensed⟩
  | .seatLimit => ⟨_, rfl, .online .seatExpires⟩
  | .dwellExpiry => ⟨_, rfl, .online .dwellExpiry⟩
  | .pressHomeSensor => ⟨_, rfl, .sensed .pressHomeSensed⟩
  | .homeLimit => ⟨_, rfl, .online .homeExpires⟩
  | .pressGuard isOpen => ⟨_, rfl, .sensed (.guardChanged isOpen)⟩
  | .tinPresenceLid _ => ⟨_, rfl, .sensed (effect_ite .nothing .lidTinOff)⟩
  | .clampSensor closed => ⟨_, rfl, .sensed (.clampSensed closed)⟩
  | .clampTimeout => ⟨_, rfl, .online .clampExpires⟩
  | .spinUpStart => ⟨_, rfl, .online .spinUpStart⟩
  | .shakerRevolution period => ⟨_, rfl, .online (.measure period)⟩
  | .shakerSpeedSaturated => ⟨_, rfl, .online .saturatedSpeed⟩
  | .spinUpTimeout => ⟨_, rfl, .online .spinUpTimeout⟩
  | .shakeSecond => ⟨_, rfl, .online .secondRun⟩
  | .shakeRunExpiry => ⟨_, rfl, .online .runEnds⟩
  | .tinPresenceShake _ => ⟨_, rfl, .sensed (effect_ite .nothing .shakeTinOff)⟩
  | .frameStart => ⟨_, rfl, .online .startFrame⟩
  | .arbitrationLost => ⟨_, rfl, .online .loseArbitration⟩
  | .transmitError => ⟨_, rfl, .online .transmitFails⟩
  | .frameSent => ⟨_, rfl, .online .frameEnds⟩
  | .frameDiscarded _ => ⟨_, rfl, .online .discardFrame⟩
  | .claimReceived src pool _ => ⟨_, rfl, .online (effect_ite .discardFrame (.claimReceived src pool _))⟩
  | .adjustReceived src pool _ => ⟨_, rfl, .online (effect_ite .discardFrame (.adjustReceived src pool _))⟩
  | .releaseReceived src pool => ⟨_, rfl, .online (.releaseReceived src pool)⟩
  | .waitReceived src pool _ _ => ⟨_, rfl, .online (effect_ite .discardFrame (.waitReceived src pool _ _))⟩
  | .beaconReceived src b => ⟨_, rfl, .online (effect_ite (.beaconReceived src b) .discardFrame)⟩
  | .beaconTimerExpiry => ⟨_, rfl, .online .beaconExpiry⟩
  | .rosterAgeOut station => ⟨_, rfl, .online (.ageOut station)⟩
  | .waitTimerExpiry pool => ⟨_, rfl, .online (.waitExpires pool)⟩

/-! ## The answers of the owners -/

/-- What the owner's answer to a request leaves (R186): nothing done, or the one operation of an accepted request. -/
inductive Answered (s : State) : State → Prop where
  | same : Answered s s
  | submitted (j : Job) (hroom : ¬ Config.jobPlaces ≤ s.jobs.places) : Answered s (s.mapJobs (enqueue (identified s j)))
  | cancelled (id : Nat) (e : CancelEffect) : Answered s (cancelInBay e (s.mapJobs (removeJob id)))
  | reprioritised (id p : Nat) : Answered s (s.mapJobs (reprioritise id p))
  | taken (r : TinRecord) (rs : List TinRecord) (hold : s.completion = r :: rs) :
      Answered s (drain (s.mapCompletion fun _ => rs))
  | takenLast (r : TinRecord) (rs : List TinRecord) (hold : s.completion = r :: rs) :
      Answered s (clearFlag .completionReady (drain (s.mapCompletion fun _ => rs)))
  | loaded (i : Slot) {level : Nat} (hlevel : level ≤ Config.levelLimit) {f : Canister → Canister}
      (hf : ∀ c, (f c).level = c.level ∧ (f c).miss = c.miss) :
      Answered s (reportCanister i (setLevel i level (s.mapCan i f)))
  | levelled (i : Slot) {level : Nat} (hlevel : level ≤ Config.levelLimit) : Answered s (reportCanister i (setLevel i level s))
  | faultCleared (i : Slot) : Answered s (reportCanister i (s.mapCan i clearedCanister))
  | missCleared (i : Slot) : Answered s (s.mapCan i clearedCanister)
  | calStarted (i : Slot) (mask : Option Byte) (hempty : s.disp.st = .empty) : Answered s (startCal i mask s)
  | calAborted (hcal : s.disp.st = .calCup ∨ s.disp.st = .calPrime ∨ s.disp.st = .calRate) :
      Answered s (abortCal (interruptOp s))
  | declared (n : Nat) : Answered s (lidRecheck (s.mapLid fun b => { b with declared := some n }))
  | events (f : Events → Events) : Answered s (s.mapEvents f)
  | modeSet (m : Mode) : Answered s (withdrawStandingCall (s.mapMon fun q => { q with mode := m }))
  | bayCleared (b : BayId) : Answered s (clearBay b s)
  | stationCleared : Answered s (clearStation s)
  | resumed : Answered s (s.mapMon fun m => { m with safe := false })
  | stored (f : Store → Store) : Answered s (s.mapStore f)

theorem ownSubmit_answered (f : SubmitFields) : Answered s (ownSubmit f s).after := by
  unfold ownSubmit
  split
  · exact .same
  · split
    · exact .same
    · split
      · exact .same
      · split
        · exact .same
        · exact .submitted _ ‹_›

theorem ownCancel_answered (job : Word16) : Answered s (ownCancel job s).after := by
  unfold ownCancel
  dsimp only
  split
  · exact .cancelled _ _
  · exact .same

theorem ownSetPrio_answered (job : Word16) (p : Byte) : Answered s (ownSetPrio job p s).after := by
  unfold ownSetPrio
  dsimp only
  split
  · exact .same
  · split
    · exact .reprioritised _ _
    · exact .same

theorem ownTakeRecord_answered : Answered s (ownTakeRecord s).after := by
  unfold ownTakeRecord
  split
  · exact .same
  · next r rs hold =>
    simp only [accept]
    split
    · exact .takenLast r rs hold
    · exact .taken r rs hold

theorem ownCanLoad_answered (f : CanLoadFields) : Answered s (ownCanLoad f s).after := by
  unfold ownCanLoad
  split
  · exact .same
  · split
    · exact .same
    · split
      · exact .same
      · next hrange _ =>
        simp only [loadInRange, Bool.not_eq_true', Bool.and_eq_false_iff, decide_eq_false_iff_not, not_or,
          Decidable.not_not] at hrange
        exact .loaded _ hrange.2 fun _ => ⟨rfl, rfl⟩

theorem ownCanLevel_answered (slot : Byte) (level : Word32) : Answered s (ownCanLevel slot level s).after := by
  unfold ownCanLevel
  split
  · exact .same
  · split
    · exact .same
    · split
      · exact .same
      · split
        · exact .same
        · exact .levelled _ (by omega)

theorem ownCanClear_answered (slot : Byte) : Answered s (ownCanClear slot s).after := by
  unfold ownCanClear
  split
  · exact .same
  · split
    · exact .same
    · split
      · exact .same
      · simp only [accept]
        split
        · exact .faultCleared _
        · exact .missCleared _

theorem ownCalibrate_answered (slot : Byte) (mask : Option Byte) : Answered s (ownCalibrate slot mask s).after := by
  unfold ownCalibrate
  split
  · exact .same
  · split
    · exact .same
    · split
      · exact .same
      · split
        · exact .same
        · next hempty =>
          split
          · exact .same
          · exact .calStarted _ _ (not_not.mp hempty)

theorem ownCalAbort_answered : Answered s (ownCalAbort s).after := by
  unfold ownCalAbort
  split
  · next hcal => exact .calAborted (by simpa [or_assoc] using hcal)
  · exact .same

theorem ownMode_answered (code : Byte) : Answered s (ownMode code s).after := by
  unfold ownMode
  split
  · exact .same
  · split
    · exact .same
    · split
      · exact .same
      · split
        · exact .same
        · exact .modeSet _

theorem ownClearStation_answered : Answered s (ownClearStation s).after := by
  unfold ownClearStation
  split
  · exact .same
  · exact .stationCleared

theorem ownClearFault_answered (code : Byte) : Answered s (ownClearFault code s).after := by
  unfold ownClearFault
  split
  · exact .bayCleared _
  · split
    · exact .bayCleared _
    · split
      · exact .bayCleared _
      · split
        · exact ownClearStation_answered
        · exact .same

theorem ownNvRead_after (sector part : Byte) : (ownNvRead sector part s).after = s := by
  unfold ownNvRead
  split
  · rfl
  · split <;> rfl

theorem ownNvStore_answered (sector part : Byte) (image : List Byte) :
    Answered s (ownNvStore sector part image s).after := by
  unfold ownNvStore
  split
  · exact .same
  · next p hp =>
    repeat' split
    all_goals first
      | exact .same
      | exact .stored fun c => { c with write := some ⟨p, replacePart p (writeBase s p.sector) image⟩ }

/-- The inversion of `ownerAnswer`. -/
theorem ownerAnswer_answered (r : Request) (s : State) : Answered s (ownerAnswer r s).after :=
  match r with
  | .submit f => ownSubmit_answered f
  | .cancel job => ownCancel_answered job
  | .setPrio job p => ownSetPrio_answered job p
  | .queryJob job => by
    unfold ownerAnswer ownQueryJob
    dsimp only
    split <;> exact .same
  | .queryBays => .same
  | .takeRecord => ownTakeRecord_answered
  | .canLoad f => ownCanLoad_answered f
  | .canLevel slot level => ownCanLevel_answered slot level
  | .canQuery slot => by
    unfold ownerAnswer ownCanQuery
    dsimp only
    split <;> exact .same
  | .canClear slot => ownCanClear_answered slot
  | .calibrate slot mask => ownCalibrate_answered slot mask
  | .calAbort => ownCalAbort_answered
  | .lids t => by
    unfold ownerAnswer ownLids
    dsimp only
    split
    · exact .same
    · exact .declared _
  | .events => .same
  | .eventAck set => by
    unfold ownerAnswer ownEventAck
    dsimp only
    split
    · exact .same
    · exact .events fun e => { e with flags := e.flags &&& ~~~(set.setWidth 15) }
  | .eventMask set => by
    unfold ownerAnswer ownEventMask
    dsimp only
    split
    · exact .same
    · exact .events fun e => { e with enables := set.setWidth 15 }
  | .mode code => ownMode_answered code
  | .clearFault code => ownClearFault_answered code
  | .resume => .resumed
  | .peers => .same
  | .nvRead sector part => (ownNvRead_after (s := s) sector part).symm ▸ .same
  | .nvStore sector part image => ownNvStore_answered sector part image
  | .reset => .same
  | .ping payload => by
    unfold ownerAnswer ownPing
    dsimp only
    split <;> exact .same

/-! ## What every effect keeps, every command keeps -/

/-- `P` is kept by all that the commands are made of, the queue of commands left aside. -/
structure ClosedUnder (P : State → Prop) : Prop where
  effect {f : State → State} {s : State} : Effect f → P s → P (f s)
  answered {s t : State} : Answered s t → P s → P t
  settle {s : State} : P s → P (settle s)
  reset {s : State} : P s → P (volatileReset s)
  startUp (i : Inputs) {s : State} : P s → P (startUp i s)
  phase (f : Phase → Phase) {s : State} : P s → P (s.mapPhase f)
  inputs (f : Inputs → Inputs) {s : State} : P s → P (s.mapInputs f)
  store (f : Store → Store) {s : State} : P s → P (s.mapStore f)
  port (f : Port → Port) {s : State} : P s → P (s.mapPort f)
  free (f : Nat → Nat) {s : State} : P s → P (s.mapFree f)
  keepalive {s : State} : P s → P (restartKeepalive s)

namespace ClosedUnder

variable (c : ClosedUnder P)
include c

theorem scramble (x : SectorId) (h : P s) : P (scramble x s) := c.free _ (c.store _ h)

theorem cutWrite (h : P s) : P (cutWrite s) := by
  unfold Machine.cutWrite
  split
  · exact h
  · exact c.store _ (c.scramble _ h)

theorem goDown (p : Phase) (h : P s) : P (goDown p s) := c.phase _ (c.reset h)

theorem storeWritten (agrees : Bool) (w : WriteJob) (h : P s) : P (storeWritten agrees w s) := by
  unfold Machine.storeWritten
  dsimp only
  split
  · exact c.store _ (c.store _ h)
  · exact c.store _ (c.scramble _ h)

theorem endWrite (agrees : Bool) (h : P s) : P (endWrite agrees s) := by
  unfold Machine.endWrite
  split
  · exact h
  · split
    · exact c.goDown _ (c.storeWritten _ _ h)
    · exact c.storeWritten _ _ h

theorem answer (m : Message) (h : P s) : P (answerMessage m s).after := by
  cases m with
  | badFrame k => exact h
  | badKind k => exact h
  | misfit k =>
    rw [answerMessage.eq_3]
    split <;> exact h
  | request r =>
    rw [answerMessage.eq_4]
    split
    · exact h
    · exact c.answered (ownerAnswer_answered r s) h

theorem takeMessage (m : Message) (h : P s) : P (takeMessage m s) := by
  unfold Machine.takeMessage
  exact c.port _ (c.answer m h)

theorem messageArrives (m : Message) (h : P s) : P (messageArrives m s) := by
  have hjudged : P (if m.valid then restartKeepalive s else s) := by
    split
    · exact c.keepalive h
    · exact h
  unfold Machine.messageArrives
  split
  · exact c.port _ h
  · dsimp only
    split
    · exact c.port _ hjudged
    · exact c.takeMessage m hjudged

theorem receiveByte (b : Byte) (h : P s) : P (receiveByte b s) := by
  unfold Machine.receiveByte
  split
  · exact h
  · split
    · exact c.port _ h
    · exact h
  · dsimp only
    split
    · exact c.port _ h
    · split
      · exact c.messageArrives _ (c.port _ h)
      · exact c.port _ h

theorem receiveBytes (bytes : List Byte) (h : P s) : P (receiveBytes bytes s) := by
  unfold Machine.receiveBytes
  induction bytes generalizing s with
  | nil => exact h
  | cons b bytes ih => exact ih (c.receiveByte b h)

theorem endResponse (h : P s) : P (endResponse s) := by
  unfold Machine.endResponse resetStart
  split
  · exact h
  · split
    · split
      · exact c.phase _ (c.port _ h)
      · exact c.goDown _ h
    · split
      · exact c.port _ h
      · exact c.takeMessage _ (c.port _ h)

theorem portEvent {f : State → State} (hf : PortEvent f) (h : P s) : P (f s) := by
  cases hf with
  | bytes bytes => exact c.receiveBytes bytes h
  | gap => exact c.port _ h
  | sent => exact c.endResponse h
  | request r => exact c.messageArrives _ h

theorem result (hr : Result s t) (h : P s) : P t := by
  cases hr with
  | online hf =>
    unfold whenOnline
    split
    · exact c.settle (c.effect hf h)
    · exact h
  | sensed hf =>
    unfold whenSensed
    split
    · exact c.settle (c.effect hf (c.inputs _ h))
    · split
      · exact c.inputs _ h
      · exact h
  | port hf =>
    unfold whenServing
    split
    · exact c.settle (c.portEvent hf h)
    · exact h
  | down p => exact c.goDown p (c.cutWrite h)
  | phase p => exact c.phase _ h
  | started i => exact c.settle (c.startUp i h)
  | written agrees => exact c.endWrite agrees h
  | same => exact h

theorem exec_next (i : Instr) (h : P s) : ∃ t, exec i s = .next t ∧ P t := by
  obtain ⟨t, hexec, hr⟩ := exec_result i s
  exact ⟨t, hexec, c.result hr h⟩

/-- A property of the blocks alone that a millisecond keeps too is kept by every step. -/
theorem step (hpending : ∀ {s : State} (q : List Instr), P s → P { s with pending := q })
    (htick : ∀ {s : State}, P s → P (tick s)) (hstep : step s = .next t) (h : P s) : P t := by
  unfold Machine.step at hstep
  split at hstep
  · cases hstep
    exact htick h
  · next i q _ =>
    obtain ⟨t', hexec, ht⟩ := c.exec_next i (hpending q h)
    cases hexec.symm.trans hstep
    exact ht

end ClosedUnder

/-- Settles O1: the front command is the one that `step`'s own case on the queue runs. -/
theorem stepTakesFrontCommand : Obligations.StepTakesFrontCommand := by
  unfold Obligations.StepTakesFrontCommand
  intro c cs s hqueue
  unfold step
  rw [hqueue]

end Sys2Proof.Proofs
end

