-- ==== Sys2Proof/Proofs/KeptAndLicensed.lean ====
section
/-! PROOF. Every step keeps the queue of commands, the limits of the blocks and the licences of the drives. -/

namespace Sys2Proof.Proofs

open Sys2Proof Sys2Proof.Machine Sys2Proof.Safety Sys2Proof.Laws

variable {q : List Instr} {lim : Prop} {s : State} {f : State → State}

/-! ## The queue of commands and the limits -/

theorem effect_kept (hf : Effect f) (h : Kept q lim s) : Kept q lim (f s) := by
  have told {act : State → State} (ha : ∀ t, Kept q lim t → Kept q lim (act t)) (src : Station) :
      Kept q lim (receive src (thenTell act) s) := receive_kept src (fun t ht => thenTell_kept (ha t ht)) h
  cases hf with
  | claimReceived src p a => exact told (fun _ => judgePeer_kept src p a) src
  | adjustReceived src p a => exact receive_kept src (fun _ => takeAdjust_kept src p a) h
  | releaseReceived src p => exact told (fun _ => releasePeer_kept src p) src
  | waitReceived src p a n => exact told (fun _ => waitPeer_kept src p a n) src
  | beaconReceived src b => exact told (fun _ => beaconPeer_kept src b) src
  | _ => simp [h]

theorem taken_kept {r : TinRecord} {rs : List TinRecord} (hold : s.completion = r :: rs) (h : Kept q lim s) :
    Kept q lim (drain (s.mapCompletion fun _ => rs)) :=
  drain_kept (kept_mapCompletion h fun hfit => by
    unfold recordsFit at *
    rw [hold, List.length_cons] at hfit
    omega)

theorem cleared_kept (i : Slot) (h : Kept q lim s) : Kept q lim (s.mapCan i clearedCanister) :=
  kept_mapCan_lower h (clearedCanister_level _).le (clearedCanister_miss _)

theorem answered_kept {t : State} (ha : Answered s t) (h : Kept q lim s) : Kept q lim t := by
  cases ha with
  | submitted j hroom => exact kept_mapJobs h fun _ => enqueue_fits hroom
  | cancelled id e => exact cancelInBay_kept e (kept_mapJobs h removeJob_fits)
  | reprioritised id p => exact kept_mapJobs h reprioritise_fits
  | taken r rs hold => exact taken_kept hold h
  | takenLast r rs hold => exact clearFlag_kept _ (taken_kept hold h)
  | loaded i hlevel hf =>
    exact reportCanister_kept _ (setLevel_kept _ _ hlevel (kept_mapCan_same h (hf _).1 (hf _).2))
  | levelled i hlevel => exact reportCanister_kept _ (setLevel_kept _ _ hlevel h)
  | faultCleared i => exact reportCanister_kept _ (cleared_kept i h)
  | missCleared i => exact cleared_kept i h
  | _ => simp [h]

theorem closedUnder_kept : ClosedUnder (Kept q lim) where
  effect := effect_kept
  answered := answered_kept
  settle := settle_kept
  reset := volatileReset_kept
  startUp i _ := startUp_kept i
  phase f := (kept_mapPhase f).2
  inputs f := (kept_mapInputs f).2
  store f := (kept_mapStore f).2
  port f := (kept_mapPort f).2
  free f := (kept_mapFree f).2
  keepalive := restartKeepalive_kept

/-- Settles O3: the inversion of `exec` gives the next state, and every effect keeps the queue. -/
theorem everyCommandAnswersNext : Obligations.EveryCommandAnswersNext := by
  unfold Obligations.EveryCommandAnswersNext
  intro c s
  obtain ⟨t, hexec, hqueue, -⟩ := (closedUnder_kept (lim := False)).exec_next c ⟨rfl, False.elim⟩
  exact ⟨t, hexec, hqueue⟩

/-- Settles O56: the limits are kept by every command behind the front one, and by a millisecond. -/
theorem everyStepKeepsTheLimits : Obligations.EveryStepKeepsTheLimits := by
  unfold Obligations.EveryStepKeepsTheLimits
  intro s t hstep hlim
  unfold step at hstep
  split at hstep
  · cases hstep
    have hkept : Kept s.pending True s := ⟨rfl, fun _ => hlim⟩
    exact (tick_kept hkept).2 trivial
  · next i cs hqueue =>
    have hkept : Kept cs True { s with pending := cs } := ⟨rfl, fun _ => hlim⟩
    obtain ⟨u, hexec, hu⟩ := closedUnder_kept.exec_next i hkept
    cases hexec.symm.trans hstep
    exact hu.2 trivial

/-! ## The licences of the drives -/

theorem receive_lic {act : State → State} (src : Station) (ha : ∀ t, Licensed t → Licensed (act t)) (h : Licensed s) :
    Licensed (receive src act s) := by
  unfold receive
  split
  · exact h
  · dsimp only
    split
    · split
      · exact h
      · exact barLine_lic h
    · exact ha _ h

theorem takeAdjust_lic (src : Station) (p : Pool) (a : Nat) (h : Licensed s) : Licensed (takeAdjust src p a s) := by
  unfold takeAdjust
  split <;> simp [h]

theorem effect_lic (hf : Effect f) (h : Licensed s) : Licensed (f s) := by
  have told {act : State → State} (ha : ∀ t, Licensed t → Licensed (act t)) (src : Station) :
      Licensed (receive src (thenTell act) s) := receive_lic src (fun t ht => tryBoth_lic (ha t ht)) h
  cases hf with
  | claimReceived src p a => exact told (fun _ => (judgePeer_lic src p a).2) src
  | adjustReceived src p a => exact receive_lic src (fun _ => takeAdjust_lic src p a) h
  | releaseReceived src p => exact told (fun _ => (releasePeer_lic src p).2) src
  | waitReceived src p a n => exact told (fun _ => (waitPeer_lic src p a n).2) src
  | beaconReceived src b => exact told (fun _ => (beaconPeer_lic src b).2) src
  | emergencyStop => exact keeps_ite (fun _ => h) fun _ => applyEstop_lic h
  | stirrerRevolution i period => exact keeps_ite (fun _ => fastStir_lic i h) fun _ => slowStir_lic i h
  | moveStart => exact keeps_ite (fun hc => startMove_lic (by simp_all) h) fun _ => h
  | homeRunStart => exact keeps_ite (fun _ => startHomeRun_lic.2 h) fun _ => h
  | pressStart => exact keeps_ite (fun hc => startPress_lic (by simp_all) h) fun _ => h
  | dwellExpiry => exact keeps_ite (fun _ => endDwell_lic h) fun _ => h
  | spinUpStart => exact keeps_ite (fun hc => startSpin_lic (by simp_all) h) fun _ => h
  | spinUpTimeout => exact keeps_ite (fun _ => latch_lic _ _ h) fun _ => h
  | _ => simp [h]

theorem answered_lic {t : State} (ha : Answered s t) (h : Licensed s) : Licensed t := by
  cases ha with
  | submitted j hroom => exact h
  | cancelled id e => exact (cancelInBay_lic e).2 h
  | reprioritised id p => exact h
  | taken r rs hold => exact drain_lic h
  | takenLast r rs hold => exact (clearFlag_lic _).2 (drain_lic h)
  | declared n => exact lidRecheck_lic ⟨h.1, h.2⟩
  | events f => exact h
  | _ => simp [h]

theorem settle_lic (h : Licensed s) : Licensed (settle s) := by
  unfold settle
  split <;> simp [h]

/-- A wait timer's millisecond leaves what an agent holds. -/
theorem tickAgents_lic (h : Licensed s) : Licensed ((s.mapPower tickAgent).mapAir tickAgent) := ⟨h.1, h.2⟩

theorem tick_lic (h : Licensed s) : Licensed (tick s) := by
  unfold tick
  split
  · exact settle_lic (tickMon_lic.2 (tickAgents_lic (tickLine_lic.2 (tickShake_lic (tickLid_lic (tickCarriage_lic.2
      (tickScale_lic.2 (tickPump_lic.2 (tickStir_lic.2 h)))))))))
  · exact h

theorem closedUnder_licensed : ClosedUnder Licensed where
  effect := effect_lic
  answered := answered_lic
  settle := settle_lic
  reset := volatileReset_lic
  startUp i _ := startUp_lic i
  phase f := (mapPhase_lic' f).2
  inputs f := (mapInputs_lic' f).2
  store f := (mapStore_lic' f).2
  port _ _ h := h
  free _ _ h := h
  keepalive := restartKeepalive_lic.2

/-- Settles O59: no effect draws on a supply without its claim. -/
theorem everyStepKeepsTheLicences : Obligations.EveryStepKeepsTheLicences := by
  unfold Obligations.EveryStepKeepsTheLicences
  intro s t hstep hlic
  exact closedUnder_licensed.step (fun _ h => h) tick_lic hstep hlic

end Sys2Proof.Proofs
end

