-- ==== Sys2Proof/Proofs/QuietRequest.lean ====
section
/-! PROOF. The quiet request and the open scale request: every operation keeps them together, and opens a request only
in a bay that works (R69, R90). -/

namespace Sys2Proof.Proofs

open Sys2Proof Sys2Proof.Machine Sys2Proof.Safety Sys2Proof.Laws

variable {s t : State} {f : State → State}

/-- `QuietFits` under a name of its own, so that no lemma unfolds it. -/
def Quiet (s : State) : Prop := QuietFits s

/-- No request is open and the quiet request is lowered. -/
def Unasked (s : State) : Prop := s.disp.quiet = false ∧ s.scale.request = none

/-- The bay is neither STOPPED nor in FAULT. -/
def Works (s : State) : Prop := s.disp.st ≠ .stopped ∧ s.disp.st ≠ .fault

/-! ## Updates of the two blocks -/

theorem quiet_congr (hd : t.disp = s.disp) (hc : t.scale = s.scale) : Quiet t ↔ Quiet s := by
  unfold Quiet QuietFits
  rw [hd, hc]

theorem quiet_of_unasked (h : Unasked s) : Quiet s := by
  obtain ⟨hq, hr⟩ := h
  simp [Quiet, QuietFits, hq, hr]

/-- A held bay has no request open. -/
theorem unasked_of_held (h : Quiet s) (hst : s.disp.st = .stopped ∨ s.disp.st = .fault) : Unasked s := by
  obtain ⟨hboth, hheld⟩ := h
  have hr : s.scale.request.isSome = false := by
    refine Bool.eq_false_of_not_eq_true fun hopen => ?_
    obtain ⟨hs, hf⟩ := hheld hopen
    exact hst.elim hs hf
  exact ⟨by simpa [hr] using hboth, by simpa using hr⟩

theorem quiet_mapDisp_same {g : DispenseBay → DispenseBay} (hq : (g s.disp).quiet = s.disp.quiet)
    (hst : (g s.disp).st = s.disp.st) (h : Quiet s) : Quiet (s.mapDisp g) := by
  obtain ⟨hboth, hheld⟩ := h
  simp only [Quiet, QuietFits, State.mapDisp_disp, State.mapDisp_scale, hq, hst]
  exact ⟨hboth, hheld⟩

/-- A bay that works may go to any state of work with its request as it stands. -/
theorem quiet_mapDisp_works {g : DispenseBay → DispenseBay} (hq : (g s.disp).quiet = s.disp.quiet)
    (hs : (g s.disp).st ≠ .stopped) (hf : (g s.disp).st ≠ .fault) (h : Quiet s) : Quiet (s.mapDisp g) := by
  simp only [Quiet, QuietFits, State.mapDisp_disp, State.mapDisp_scale, hq]
  exact ⟨h.1, fun _ => ⟨hs, hf⟩⟩

theorem unasked_mapDisp {g : DispenseBay → DispenseBay} (hq : (g s.disp).quiet = s.disp.quiet) (h : Unasked s) :
    Unasked (s.mapDisp g) := ⟨hq.trans h.1, h.2⟩

theorem unasked_congr (hd : t.disp.quiet = s.disp.quiet) (hc : t.scale.request = s.scale.request) :
    Unasked t ↔ Unasked s := by
  unfold Unasked
  rw [hd, hc]

theorem quiet_mapScale {g : Scale → Scale} (hr : (g s.scale).request.isSome = s.scale.request.isSome) (h : Quiet s) :
    Quiet (s.mapScale g) := by
  simp only [Quiet, QuietFits, State.mapScale_disp, State.mapScale_scale, hr]
  exact h

/-! ## Operations that touch neither block -/

@[simp] theorem mapPhase_quiet (g : Phase → Phase) : Quiet (s.mapPhase g) ↔ Quiet s := Iff.rfl
@[simp] theorem mapInputs_quiet (g : Inputs → Inputs) : Quiet (s.mapInputs g) ↔ Quiet s := Iff.rfl
@[simp] theorem mapCfg_quiet (g : Loaded → Loaded) : Quiet (s.mapCfg g) ↔ Quiet s := Iff.rfl
@[simp] theorem mapStore_quiet (g : Store → Store) : Quiet (s.mapStore g) ↔ Quiet s := Iff.rfl
@[simp] theorem mapEvents_quiet (g : Events → Events) : Quiet (s.mapEvents g) ↔ Quiet s := Iff.rfl
@[simp] theorem mapJobs_quiet (g : JobQueue → JobQueue) : Quiet (s.mapJobs g) ↔ Quiet s := Iff.rfl
@[simp] theorem mapStir_quiet (g : StirManager → StirManager) : Quiet (s.mapStir g) ↔ Quiet s := Iff.rfl
@[simp] theorem mapCans_quiet (g : Vector Canister 16 → Vector Canister 16) : Quiet (s.mapCans g) ↔ Quiet s := Iff.rfl
@[simp] theorem mapCan_quiet (i : Slot) (g : Canister → Canister) : Quiet (s.mapCan i g) ↔ Quiet s := Iff.rfl
@[simp] theorem mapCarriage_quiet (g : Carriage → Carriage) : Quiet (s.mapCarriage g) ↔ Quiet s := Iff.rfl
@[simp] theorem mapLid_quiet (g : LidBay → LidBay) : Quiet (s.mapLid g) ↔ Quiet s := Iff.rfl
@[simp] theorem mapShake_quiet (g : ShakeBay → ShakeBay) : Quiet (s.mapShake g) ↔ Quiet s := Iff.rfl
@[simp] theorem mapMon_quiet (g : Monitor → Monitor) : Quiet (s.mapMon g) ↔ Quiet s := Iff.rfl
@[simp] theorem mapCompletion_quiet (g : List TinRecord → List TinRecord) : Quiet (s.mapCompletion g) ↔ Quiet s := Iff.rfl
@[simp] theorem setFlag_quiet (e : EventFlag) : Quiet (setFlag e s) ↔ Quiet s := Iff.rfl
@[simp] theorem clearFlag_quiet (e : EventFlag) : Quiet (clearFlag e s) ↔ Quiet s := Iff.rfl
@[simp] theorem joinRecord_quiet (r : TinRecord) : Quiet (joinRecord r s) ↔ Quiet s := Iff.rfl
@[simp] theorem dropPre_quiet : Quiet (dropPre s) ↔ Quiet s := Iff.rfl
@[simp] theorem setFault_quiet (b : BayId) (k : Option FaultKind) : Quiet (s.setFault b k) ↔ Quiet s := quiet_congr (by simp) (by simp)
@[simp] theorem makePre_quiet (i : Slot) : Quiet (makePre i s) ↔ Quiet s := quiet_congr (by simp) (by simp)
@[simp] theorem debit_quiet (i : Slot) (v : Nat) : Quiet (debit i v s) ↔ Quiet s := quiet_congr (by simp) (by simp)
@[simp] theorem setLevel_quiet (i : Slot) (v : Nat) : Quiet (setLevel i v s) ↔ Quiet s := quiet_congr (by simp) (by simp)
@[simp] theorem countMiss_quiet (i : Slot) (o : Outcome27) : Quiet (countMiss i o s) ↔ Quiet s := quiet_congr (by simp) (by simp)
@[simp] theorem markFaulted_quiet (i : Slot) (why : CanFault) : Quiet (markFaulted i why s) ↔ Quiet s := Iff.rfl
@[simp] theorem completeStir_quiet (i : Slot) : Quiet (completeStir i s) ↔ Quiet s := quiet_congr (by simp) (by simp)
@[simp] theorem freeAllStirs_quiet : Quiet (freeAllStirs s) ↔ Quiet s := quiet_congr (by simp) (by simp)
@[simp] theorem grantStirs_quiet : Quiet (grantStirs s) ↔ Quiet s := quiet_congr (by simp) (by simp)
@[simp] theorem keepDeferrals_quiet : Quiet (keepDeferrals s) ↔ Quiet s := quiet_congr (by simp) (by simp)
@[simp] theorem mapRun_quiet (i : Slot) (g : StirRun → StirRun) : Quiet (mapRun i g s) ↔ Quiet s := quiet_congr (by simp) (by simp)
@[simp] theorem beginOp_quiet (i : Slot) (k : OpKind) (n m : Nat) : Quiet (beginOp i k n m s) ↔ Quiet s := quiet_congr (by simp) (by simp)
@[simp] theorem interruptOp_quiet : Quiet (interruptOp s) ↔ Quiet s := quiet_congr (by simp) (by simp)
@[simp] theorem issueSteps_quiet (n : Nat) (o : PumpOp) : Quiet (issueSteps n o s) ↔ Quiet s := quiet_congr (by simp) (by simp)
@[simp] theorem afterMove_quiet (o : PumpOp) : Quiet (afterMove o s) ↔ Quiet s := quiet_congr (by simp) (by simp)
@[simp] theorem turnDone_quiet : Quiet (turnDone s) ↔ Quiet s := quiet_congr (by simp) (by simp)
@[simp] theorem countPulse_quiet (i : Slot) : Quiet (countPulse i s) ↔ Quiet s := quiet_congr (by simp) (by simp)
@[simp] theorem setPaused_quiet (b : Bool) : Quiet (setPaused b s) ↔ Quiet s := quiet_congr (by simp) (by simp)
@[simp] theorem commitTin_quiet (id : Nat) : Quiet (commitTin id s) ↔ Quiet s := Iff.rfl
@[simp] theorem commitTaken_quiet (r : TinRecord) : Quiet (commitTaken r s) ↔ Quiet s := by
  unfold commitTaken
  split <;> simp
@[simp] theorem drainShake_quiet : Quiet (drainShake s) ↔ Quiet s := quiet_congr (by simp) (by simp)
@[simp] theorem drainLid_quiet : Quiet (drainLid s) ↔ Quiet s := quiet_congr (by simp) (by simp)
@[simp] theorem haltLid_quiet (d : LidState) (e : Bool) : Quiet (haltLid d e s) ↔ Quiet s := quiet_congr (by simp) (by simp)
@[simp] theorem giveUp_quiet (p : Pool) : Quiet (giveUp p s) ↔ Quiet s := quiet_congr (by simp) (by simp)
@[simp] theorem releaseOrder_quiet (p : Pool) : Quiet (releaseOrder p s) ↔ Quiet s := quiet_congr (by simp) (by simp)
@[simp] theorem lidArrive_quiet (r : TinRecord) : Quiet (lidArrive r s) ↔ Quiet s := quiet_congr (by simp) (by simp)
@[simp] theorem shakeArrive_quiet (r : TinRecord) : Quiet (shakeArrive r s) ↔ Quiet s := quiet_congr (by simp) (by simp)
@[simp] theorem resumeShake_quiet : Quiet (resumeShake s) ↔ Quiet s := quiet_congr (by simp) (by simp)
@[simp] theorem lidPoint_quiet (p : LidState) : Quiet (lidPoint p s) ↔ Quiet s := quiet_congr (by simp) (by simp)
@[simp] theorem shakePoint_quiet (p : ShakeState) : Quiet (shakePoint p s) ↔ Quiet s := quiet_congr (by simp) (by simp)
@[simp] theorem standStill_quiet (c : CarriageState) : Quiet (standStill c s) ↔ Quiet s := Iff.rfl
@[simp] theorem startLine_quiet : Quiet (startLine s) ↔ Quiet s := quiet_congr (by simp) (by simp)
@[simp] theorem placeLid_quiet : Quiet (placeLid s) ↔ Quiet s := quiet_congr (by simp) (by simp)
@[simp] theorem placeShake_quiet : Quiet (placeShake s) ↔ Quiet s := quiet_congr (by simp) (by simp)
@[simp] theorem resumeLid_quiet : Quiet (resumeLid s) ↔ Quiet s := quiet_congr (by simp) (by simp)
@[simp] theorem clearJam_quiet (b : BayId) : Quiet (clearJam b s) ↔ Quiet s := Iff.rfl
@[simp] theorem jamByStop_quiet : Quiet (jamByStop s) ↔ Quiet s := quiet_congr (by simp) (by simp)
@[simp] theorem drivesOff_quiet : Quiet (drivesOff s) ↔ Quiet s := quiet_congr (by simp) (by simp)
@[simp] theorem lidRecheck_quiet : Quiet (lidRecheck s) ↔ Quiet s := quiet_congr (by simp) (by simp)
@[simp] theorem recordFailed_quiet (k : FaultKind) : Quiet (recordFailed k s) ↔ Quiet s := quiet_congr (by simp) (by simp)

@[simp] theorem blankTrigger_quiet : Quiet (blankTrigger s) ↔ Quiet s := Iff.rfl

/-! ## The request itself -/

theorem closeRequest_unasked : Unasked (closeRequest s) := ⟨rfl, rfl⟩

@[simp] theorem closeRequest_quiet : Quiet (closeRequest s) := quiet_of_unasked closeRequest_unasked

theorem openRequest_quiet (hw : Works s) : Quiet (openRequest s) := ⟨by simp [openRequest], fun _ => hw⟩

/-! ## The tin, its lines and its record -/

@[simp] theorem mapTin_quiet (b : BayId) (g : TinRecord → TinRecord) : Quiet (s.mapTin b g) ↔ Quiet s := by
  cases b <;> exact Iff.rfl

@[simp] theorem mapCarried_quiet (g : TinRecord → TinRecord) : Quiet (s.mapCarried g) ↔ Quiet s := Iff.rfl
@[simp] theorem noteEverywhere_quiet (k : FaultKind) : Quiet (noteEverywhere k s) ↔ Quiet s := Iff.rfl
@[simp] theorem mapCal_quiet (g : CalRecord → CalRecord) : Quiet (mapCal g s) ↔ Quiet s := Iff.rfl
@[simp] theorem mapEntryAt_quiet (i : Nat) (g : LineEntry → LineEntry) : Quiet (mapEntryAt i g s) ↔ Quiet s := Iff.rfl
@[simp] theorem finishLine_quiet (i : Nat) (v : LineVerdict) : Quiet (finishLine i v s) ↔ Quiet s := Iff.rfl
@[simp] theorem passLine_quiet (i : Nat) (r : PassReason) : Quiet (passLine i r s) ↔ Quiet s := Iff.rfl
@[simp] theorem closeRun_quiet (i : Nat) (g : Int) : Quiet (closeRun i g s) ↔ Quiet s := Iff.rfl

@[simp] theorem withdrawTin_quiet : Quiet (withdrawTin s) ↔ Quiet s := by
  unfold withdrawTin
  split
  · exact Iff.rfl
  · dsimp only
    split <;> exact Iff.rfl

@[simp] theorem withdrawCall_quiet (h : Quiet s) : Quiet (withdrawCall s) :=
  quiet_mapDisp_works rfl (by simp) (by simp) (withdrawTin_quiet.2 h)

@[simp] theorem withdrawStandingCall_quiet (h : Quiet s) : Quiet (withdrawStandingCall s) := by
  unfold withdrawStandingCall
  split <;> simp [h]

@[simp] theorem askTin_quiet (h : Quiet s) : Quiet (askTin s) := by
  unfold askTin
  split
  · split
    · exact h
    · next j _ =>
      have hissued : Quiet (s.mapJobs (issueTin j)) := h
      rw [setFlag_quiet]
      exact quiet_mapDisp_works rfl (by simp) (by simp) hissued
  · exact h

@[simp] theorem finishLost_quiet (h : Quiet s) : Quiet (finishLost s) := by
  unfold finishLost
  split
  · exact quiet_mapDisp_works rfl (by simp) (by simp) h
  · exact h

@[simp] theorem dispJoined_quiet (h : Quiet s) : Quiet (dispJoined s) := by
  have hjoined : Quiet (s.mapDisp fun b => { b with tin := none, recWait := false }) := quiet_mapDisp_same rfl rfl h
  unfold dispJoined
  dsimp only
  split
  · exact quiet_mapDisp_works rfl (by simp) (by simp) hjoined
  · split
    · exact finishLost_quiet hjoined
    · exact quiet_mapDisp_same rfl rfl hjoined

@[simp] theorem drainDisp_quiet (h : Quiet s) : Quiet (drainDisp s) := by
  unfold drainDisp
  split
  · split
    · exact dispJoined_quiet ((joinRecord_quiet _).2 h)
    · exact h
  · exact h

@[simp] theorem drain_quiet (h : Quiet s) : Quiet (drain s) := drainDisp_quiet (by simp [h])

@[simp] theorem closeDispRecord_quiet (h : Quiet s) : Quiet (closeDispRecord s) := by
  have hwaits : Quiet (s.mapDisp fun b => { b with recWait := true }) := quiet_mapDisp_same rfl rfl h
  unfold closeDispRecord joinOrWait
  split <;> simp [hwaits]

@[simp] theorem closeLost_quiet (h : Quiet s) : Quiet (closeLost s) := by
  unfold closeLost
  split
  · exact h
  · split <;> simp [h]

/-! ## The carriage's moves -/

@[simp] theorem startMove_quiet (h : Quiet s) : Quiet (startMove s) := by
  unfold startMove setOff
  split
  · exact h
  · split
    · exact h
    · next r _ =>
      have hcommitted : Quiet (commitTaken r s) := (commitTaken_quiet r).2 h
      rw [blankTrigger_quiet, mapCarriage_quiet, mapLid_quiet]
      exact quiet_mapDisp_works rfl (by simp) (by simp) hcommitted

@[simp] theorem startHomeRun_quiet : Quiet (startHomeRun s) ↔ Quiet s := Iff.rfl
@[simp] theorem startPress_quiet : Quiet (startPress s) ↔ Quiet s := Iff.rfl
@[simp] theorem startSpin_quiet : Quiet (startSpin s) ↔ Quiet s := Iff.rfl

@[simp] theorem takeDeferred_quiet (o : StartOwner) (h : Quiet s) : Quiet (takeDeferred o s) := by
  unfold takeDeferred startCarriage
  repeat' split
  all_goals simp [h]

@[simp] theorem takeAllDeferred_quiet (h : Quiet s) : Quiet (takeAllDeferred s) :=
  takeDeferred_quiet _ (takeDeferred_quiet _ (takeDeferred_quiet _ h))

@[simp] theorem dispPoint_quiet (p : DispState) (hs : p ≠ .stopped) (hf : p ≠ .fault) (h : Quiet s) :
    Quiet (dispPoint p s) := by
  by_cases hheld : s.disp.st = .fault ∨ s.disp.st = .stopped
  · exact quiet_mapDisp_same (by simp [hheld]) (by simp [hheld]) h
  · by_cases hout : s.disp.st = .outbound
    · exact quiet_mapDisp_works (by simp [hout]) (by simp [hout, hs]) (by simp [hout, hf]) h
    · exact quiet_mapDisp_same (by simp [hheld, hout]) (by simp [hheld, hout]) h

@[simp] theorem handOver_quiet (m : Move) (r : TinRecord) (h : Quiet s) : Quiet (handOver m r s) := by
  unfold handOver
  cases m <;> simp [h]

@[simp] theorem arrive_quiet (m : Move) (h : Quiet s) : Quiet (arrive m s) := by
  unfold arrive
  split <;> simp [h]

@[simp] theorem handBack_quiet (m : Move) (r : TinRecord) (h : Quiet s) : Quiet (handBack m r s) := by
  unfold handBack
  cases m with
  | dispenseToLid =>
    exact (lidPoint_quiet _).2 (quiet_mapDisp_same rfl rfl (dispPoint_quiet .done (by simp) (by simp) h))
  | lidToShake => simp [h]
  | homeRun => exact h

@[simp] theorem placeTin_quiet (h : Quiet s) : Quiet (placeTin s) := by
  unfold placeTin
  split
  · split <;> simp [h]
  · exact h

@[simp] theorem resolveCarriage_quiet (h : Quiet s) : Quiet (resolveCarriage s) := by
  unfold resolveCarriage
  split <;> simp [h]

/-! ## Calibration -/

@[simp] theorem calEnded_quiet (h : Quiet s) : Quiet (calEnded s) := by
  unfold calEnded
  split
  · exact quiet_mapDisp_works rfl (by simp) (by simp) h
  · exact h

/-- An outcome closes the request, whatever it finds. -/
@[simp] theorem calOutcome_quiet (o : CalOutcome) (k : Option Nat) (h : Quiet s) : Quiet (calOutcome o k s) := by
  unfold calOutcome
  split
  · exact h
  · exact calEnded_quiet ((setFlag_quiet _).2 ((mapCan_quiet _ _).2 (quiet_of_unasked ⟨rfl, rfl⟩)))

@[simp] theorem abortCal_quiet (h : Quiet s) : Quiet (abortCal s) := by
  unfold abortCal
  split <;> simp [h]

@[simp] theorem calDebit_quiet (r : Int) (c : CalRecord) (h : Quiet s) : Quiet (calDebit r c s) := by
  unfold calDebit
  split
  · simp [h]
  · exact (beginOp_quiet _ _ _ _).2 (quiet_mapDisp_same rfl rfl (by simp [h]))

@[simp] theorem calRecheck_quiet (h : Quiet s) : Quiet (calRecheck s) := by
  unfold calRecheck
  split
  · exact h
  · split
    · next hc =>
      have hw : Works s := by
        simp only [Bool.and_eq_true, Bool.or_eq_true, decide_eq_true_eq] at hc
        rcases hc.2 with hst | hst <;> simp [Works, hst]
      split
      · exact h
      · split
        · simp [h]
        · split
          · simp [h]
          · exact openRequest_quiet hw
    · exact h

@[simp] theorem calShot_quiet (n : Nat) (r : Option Int) (h : Quiet s) : Quiet (calShot n r s) := by simp [calShot, h]

@[simp] theorem primeTry_quiet (r : Option Int) (h : Quiet s) : Quiet (primeTry r s) := by
  unfold primeTry
  split
  · exact h
  · dsimp only
    split <;> simp [h]

@[simp] theorem calTest_quiet (i : Fin 4) (h : Quiet s) : Quiet (calTest i s) := by
  unfold calTest
  split <;> simp [h]

@[simp] theorem calPass_quiet (h : Quiet s) : Quiet (calPass s) := by
  unfold calPass
  dsimp only
  repeat' split
  all_goals simp [h]

@[simp] theorem judgePass_quiet (h : Quiet s) : Quiet (judgePass s) := by
  unfold judgePass
  repeat' split
  all_goals simp [h]

@[simp] theorem judgeTest_quiet (g : Int) (h : Quiet s) : Quiet (judgeTest g s) := by
  unfold judgeTest
  dsimp only
  repeat' split
  all_goals simp [h]

@[simp] theorem judgePrime_quiet (g : Int) (h : Quiet s) : Quiet (judgePrime g s) := by
  unfold judgePrime
  repeat' split
  · exact h
  · exact calPass_quiet (quiet_mapDisp_works rfl (by simp) (by simp) h)
  · simp [h]
  · simp [h]

@[simp] theorem judgeCup_quiet (r : Int) (h : Quiet s) : Quiet (judgeCup r s) := by
  unfold judgeCup
  split
  · exact primeTry_quiet _ (quiet_mapDisp_works rfl (by simp) (by simp) h)
  · simp [h]

@[simp] theorem calAnswer_quiet (r : Int) (h : Quiet s) : Quiet (calAnswer r s) := by
  unfold calAnswer
  repeat' split
  all_goals simp [h]

theorem weighCup_quiet (hw : Works s) : Quiet (weighCup s) := openRequest_quiet hw
theorem calShotDone_quiet (hw : Works s) : Quiet (calShotDone s) := openRequest_quiet hw

/-! ## The lines of a tin -/

theorem requestFor_quiet (l : LineEntry) : Quiet (requestFor l s) ↔ Quiet s := quiet_congr (by simp) (by simp)
theorem lookAhead_quiet (l : LineEntry) : Quiet (lookAhead l s) ↔ Quiet s := quiet_congr (by simp) (by simp)

theorem quiet_foldl {α : Type} {g : State → α → State} (hg : ∀ s a, Quiet (g s a) ↔ Quiet s) (l : List α) :
    ∀ s, Quiet (l.foldl g s) ↔ Quiet s := by
  induction l with
  | nil => exact fun _ => Iff.rfl
  | cons a l ih => exact fun s => (ih _).trans (hg s a)

@[simp] theorem judgePassed_quiet : Quiet (judgePassed s) ↔ Quiet s := by
  unfold judgePassed
  split
  · exact Iff.rfl
  · dsimp only
    split
    · rw [quiet_foldl fun _ l => requestFor_quiet l]
      exact Iff.rfl
    · exact Iff.rfl

@[simp] theorem beginShot_quiet (i : Nat) (l : LineEntry) (v : Nat) (r : Option Int) (h : Quiet s) :
    Quiet (beginShot i l v r s) := by
  have hdisp : Quiet ((mapEntryAt i (fun l' => { l' with
      st := .active, plan := some (l.plan.getD (planFor s l)), delivered := l'.delivered + v,
      topUps := if l.plan.isNone then l'.topUps else l'.topUps + 1, base := r.orElse fun _ => l'.base })
      (debit l.slot v s)).mapDisp fun d => { d with st := .dispensing, step := some .shot, fresh := false }) :=
    quiet_mapDisp_works rfl (by simp) (by simp) (by simp [h])
  unfold beginShot
  dsimp only
  rw [beginOp_quiet]
  split
  · exact hdisp
  · exact hdisp

@[simp] theorem debitStage_quiet (i : Nat) (l : LineEntry) (v : Nat) (r : Option Int) (h : Quiet s) :
    Quiet (debitStage i l v r s) := by
  unfold debitStage
  repeat' split
  all_goals simp [h]

@[simp] theorem takeLine_quiet (i : Nat) (l : LineEntry) (h : Quiet s) : Quiet (takeLine i l s) := by
  unfold takeLine
  split
  · simp [h]
  · simp [h]
  · split
    · split
      · simp [h]
      · exact openRequest_quiet ⟨by simp, by simp⟩
    · simp [h]

@[simp] theorem selectFrom_quiet (is : List Nat) (h : Quiet s) : Quiet (selectFrom is s) := by
  induction is generalizing s with
  | nil => exact h
  | cons i is ih =>
    unfold selectFrom
    dsimp only
    repeat' split
    all_goals simp [h, ih]

@[simp] theorem finishSelection_quiet (h : Quiet s) : Quiet (finishSelection s) := by
  unfold finishSelection
  split
  · exact h
  · split <;> exact quiet_mapDisp_works rfl (by simp) (by simp) h

@[simp] theorem selectLine_quiet (h : Quiet s) : Quiet (selectLine s) := by
  unfold selectLine
  split
  · exact h
  · exact finishSelection_quiet (selectFrom_quiet _ (quiet_mapDisp_works rfl (by simp) (by simp) h))

@[simp] theorem retakeLine_quiet (i : Nat) (l : LineEntry) (h : Quiet s) : Quiet (retakeLine i l s) := by
  unfold retakeLine
  dsimp only
  split <;> simp [h]

@[simp] theorem acceptTin_quiet (r : Int) (x : TinRecord) (h : Quiet s) : Quiet (acceptTin r x s) := by
  unfold acceptTin
  dsimp only
  refine selectLine_quiet ?_
  rw [quiet_foldl fun _ l => lookAhead_quiet l]
  simp [h]

@[simp] theorem judgeTare_quiet (r : Int) (h : Quiet s) : Quiet (judgeTare r s) := by
  unfold judgeTare
  split
  · exact h
  · dsimp only
    split
    · simp [h]
    · exact (setFlag_quiet _).2 (quiet_mapDisp_works rfl (by simp) (by simp) h)

@[simp] theorem topUpNow_quiet (i : Nat) (l : LineEntry) (p : LinePlan) (g : Int) (h : Quiet s) :
    Quiet (topUpNow i l p g s) := by
  unfold topUpNow
  dsimp only
  repeat' split
  all_goals simp [h]

@[simp] theorem endWeighed_quiet (i : Nat) (l : LineEntry) (v : LineVerdict) (j : Judgement) (h : Quiet s) :
    Quiet (endWeighed i l v j s) := by
  unfold endWeighed
  dsimp only
  split <;> simp [h]

@[simp] theorem judgeReading_quiet (i : Nat) (l : LineEntry) (p : LinePlan) (r : Int) (h : Quiet s) :
    Quiet (judgeReading i l p r s) := by
  unfold judgeReading
  dsimp only
  split <;> simp [h]

@[simp] theorem lineAnswer_quiet (r : Int) (h : Quiet s) : Quiet (lineAnswer r s) := by
  unfold lineAnswer
  dsimp only
  repeat' split
  all_goals simp [h]

@[simp] theorem answerRequest_quiet (r : Int) : Quiet (answerRequest r s) := by
  have hclosed : Quiet ((closeRequest s).mapDisp fun d => { d with fresh := true }) := quiet_of_unasked ⟨rfl, rfl⟩
  unfold answerRequest
  dsimp only
  split <;> simp [hclosed]

theorem shotDone_quiet (hw : Works s) (h : Quiet s) : Quiet (shotDone s) := by
  unfold shotDone
  repeat' split
  · exact h
  · simp [h]
  · simp [h]
  · exact openRequest_quiet hw

@[simp] theorem opCompleted_quiet (h : Quiet s) : Quiet (opCompleted s) := by
  unfold opCompleted
  split
  · next hst => exact shotDone_quiet (by simp [Works, hst]) h
  · next hst => exact calShotDone_quiet (by simp [Works, hst])
  · next hst => exact calShotDone_quiet (by simp [Works, hst])
  · exact h

@[simp] theorem reportCanister_quiet (c : Slot) (h : Quiet s) : Quiet (reportCanister c s) := by
  unfold reportCanister
  dsimp only
  repeat' split
  all_goals simp [h]

@[simp] theorem canisterFault_quiet (c : Slot) (why : CanFault) (h : Quiet s) : Quiet (canisterFault c why s) := by
  unfold canisterFault
  dsimp only
  refine reportCanister_quiet c ?_
  repeat' split
  all_goals simp [h]

@[simp] theorem stirCompleted_quiet (c : Slot) (h : Quiet s) : Quiet (stirCompleted c s) := by simp [stirCompleted, h]

/-! ## Halting a bay, latching a fault -/

@[simp] theorem brake_quiet : Quiet (brake s) ↔ Quiet s := Iff.rfl

@[simp] theorem haltShake_quiet (d : ShakeState) (e : Bool) : Quiet (haltShake d e s) ↔ Quiet s := by
  unfold haltShake haltShaker
  dsimp only
  repeat' split
  all_goals simp

@[simp] theorem interruptShot_quiet : Quiet (interruptShot s) ↔ Quiet s := by
  unfold interruptShot
  split
  · exact Iff.rfl
  · exact interruptOp_quiet
  · exact interruptOp_quiet

/-- A halt closes the request before the bay is held. -/
@[simp] theorem haltDisp_quiet (d : DispState) (h : Quiet s) : Quiet (haltDisp d s) := by
  unfold haltDisp
  split
  · exact h
  · have hheld : Quiet ((dropPre (closeRequest (interruptShot s))).mapDisp fun b =>
        { b with
          st := d, resume := if b.st = .stopped then b.resume else some b.st, step := haltedStep b.step, fresh := false
          removed := if b.st = .stopped then b.removed else false
          placed := if b.st = .stopped then b.placed else false }) := quiet_of_unasked ⟨rfl, rfl⟩
    dsimp only
    split
    · exact judgePassed_quiet.2 (abortCal_quiet hheld)
    · exact abortCal_quiet hheld

@[simp] theorem faultBay_quiet (b : BayId) (h : Quiet s) : Quiet (faultBay b s) := by
  cases b <;> simp [faultBay, h]

@[simp] theorem stopOthers_quiet (b : BayId) (h : Quiet s) : Quiet (stopOthers b s) := by
  cases b <;> simp [stopOthers, h]

@[simp] theorem latch_quiet (b : BayId) (k : FaultKind) (h : Quiet s) : Quiet (latch b k s) := by
  unfold latch
  dsimp only
  repeat' split
  all_goals simp [h]

/-! ## The loss of a tin -/

@[simp] theorem loseLine_quiet (h : Quiet s) : Quiet (loseLine s) := by
  unfold loseLine
  repeat' split
  all_goals simp [h]

@[simp] theorem loseDisp_quiet (h : Quiet s) : Quiet (loseDisp s) := by
  unfold loseDisp
  split
  · have hlost : Quiet ((dropPre (loseLine (closeRequest s))).mapDisp fun d => { d with lost := true }) :=
      quiet_mapDisp_same rfl rfl (by simp)
    dsimp only
    split <;> simp [hlost]
  · exact h

@[simp] theorem loseLid_quiet : Quiet (loseLid s) ↔ Quiet s := quiet_congr (by simp) (by simp)

@[simp] theorem loseShake_quiet : Quiet (loseShake s) ↔ Quiet s := by
  unfold loseShake enterAwaitRoom joinOrWait
  dsimp only
  repeat' split
  all_goals simp

/-! ## Resuming and clearing -/

theorem enterTare_quiet : Quiet (enterTare s) := openRequest_quiet ⟨by simp, by simp⟩

@[simp] theorem returnToCalled_quiet (h : Quiet s) : Quiet (returnToCalled s) := by
  unfold returnToCalled
  repeat' split
  · exact quiet_mapDisp_works rfl (by simp) (by simp) h
  · exact withdrawCall_quiet (quiet_mapDisp_same rfl rfl h)
  · exact enterTare_quiet
  · exact quiet_mapDisp_works rfl (by simp) (by simp) h

@[simp] theorem enterCancelled_quiet : Quiet (enterCancelled s) := by
  have hcancelled : Quiet ((dropPre (closeRequest s)).mapDisp fun d =>
      { d with st := .cancelled, resume := none, step := none, removed := false }) := quiet_of_unasked ⟨rfl, rfl⟩
  unfold enterCancelled
  dsimp only
  repeat' split
  all_goals simp [hcancelled]

theorem resumeLine_quiet (hw : Works s) (h : Quiet s) : Quiet (resumeLine s) := by
  unfold resumeLine
  repeat' split
  · simp [h]
  · exact openRequest_quiet hw
  · simp [h]
  · exact openRequest_quiet hw
  · exact selectLine_quiet ((mapEntryAt_quiet _ _).2 (quiet_mapDisp_same rfl rfl h))

/-- A held bay has no request open, so that it may resume into any state. -/
theorem resumeDispAt_quiet (r : DispState) (hheld : s.disp.st = .stopped ∨ s.disp.st = .fault) (h : Quiet s) :
    Quiet (resumeDispAt r s) := by
  have hu : Unasked s := unasked_of_held h hheld
  have hback (r : DispState) : Quiet (s.mapDisp fun d => { d with st := r, resume := none, removed := false }) :=
    quiet_of_unasked (unasked_mapDisp rfl hu)
  unfold resumeDispAt
  dsimp only
  split
  · exact openRequest_quiet ⟨by simp, by simp⟩
  · exact resumeLine_quiet ⟨by simp, by simp⟩ (hback _)
  · exact selectLine_quiet (hback _)
  · split
    · exact hback _
    · exact loseDisp_quiet (hback _)
  · exact returnToCalled_quiet h
  · split
    · exact returnToCalled_quiet h
    · exact hback _
  · split
    · exact (setFlag_quiet _).2 (hback _)
    · exact hback _
  · exact enterCancelled_quiet
  · split <;> exact hback _
  · exact calEnded_quiet (hback _)
  · exact hback _

theorem held_of_dispMayResume (hm : dispMayResume s = true) : s.disp.st = .stopped ∨ s.disp.st = .fault := by
  simp only [dispMayResume, Bool.and_eq_true, Bool.or_eq_true, decide_eq_true_eq] at hm
  exact hm.1.imp id And.left

@[simp] theorem resumeDisp_quiet (h : Quiet s) : Quiet (resumeDisp s) := by
  unfold resumeDisp
  split
  · next hm =>
    have hheld := held_of_dispMayResume hm
    split
    · exact finishLost_quiet (drainDisp_quiet (quiet_of_unasked (unasked_mapDisp rfl (unasked_of_held h hheld))))
    · split
      · exact enterCancelled_quiet
      · exact resumeDispAt_quiet _ hheld h
  · exact h

@[simp] theorem resumeAll_quiet (h : Quiet s) : Quiet (resumeAll s) := by simp [resumeAll, h]

@[simp] theorem holdCleared_quiet (b : BayId) (h : Quiet s) : Quiet (holdCleared b s) := by
  unfold holdCleared
  split
  · cases b with
    | dispense =>
      by_cases hf : s.disp.st = .fault
      · exact quiet_of_unasked (unasked_mapDisp (by simp [hf]) (unasked_of_held h (.inr hf)))
      · exact quiet_mapDisp_same (by simp [hf]) (by simp [hf]) h
    | lid => exact h
    | shake => exact h
  · exact h

@[simp] theorem closeFound_quiet (b : BayId) (h : Quiet s) : Quiet (closeFound b s) := by
  unfold closeFound
  split <;> simp [h]

@[simp] theorem clearBay_quiet (b : BayId) (h : Quiet s) : Quiet (clearBay b s) := by
  unfold clearBay
  split
  · exact h
  · have hresolved : Quiet (resolveCarriage (holdCleared b (clearJam b (s.setFault b none)))) :=
      resolveCarriage_quiet (holdCleared_quiet b (by simp [h]))
    exact resumeDisp_quiet (closeFound_quiet b (by simp [hresolved]))

@[simp] theorem clearStation_quiet (h : Quiet s) : Quiet (clearStation s) := by
  unfold clearStation
  split
  · exact finishLost_quiet (resumeAll_quiet (resolveCarriage_quiet ((mapCarriage_quiet _).2 ((mapMon_quiet _).2 h))))
  · exact h

@[simp] theorem applyEstop_quiet (h : Quiet s) : Quiet (applyEstop s) := by simp [applyEstop, h]

/-! ## Requests -/

@[simp] theorem cancelInBay_quiet (e : CancelEffect) (h : Quiet s) : Quiet (cancelInBay e s) := by
  cases e with
  | none => exact h
  | callWithdrawn =>
    unfold cancelInBay
    dsimp only
    split <;> simp [h]
  | tinCancelled =>
    unfold cancelInBay cancelTin markCancelled
    dsimp only
    split
    · exact (clearFlag_quiet _).2 (quiet_mapDisp_same rfl rfl h)
    · simp

/-- An accepted CALIBRATE's last step: a cup already on the scale is weighed. -/
theorem weighIfPresent_quiet (hw : Works s) (h : Quiet s) : Quiet (if s.inputs.presDispense then weighCup s else s) := by
  split
  · exact weighCup_quiet hw
  · exact h

theorem works_congr (hd : t.disp.st = s.disp.st) : Works t ↔ Works s := by
  unfold Works
  rw [hd]

theorem startCal_quiet (i : Slot) (mask : Option Byte) (h : Quiet s) : Quiet (startCal i mask s) := by
  have hcup : Quiet (((s.mapDisp fun d =>
      { d with st := .calCup, resume := none, step := none, removed := false, cal := some (newCal s i mask),
               last := none }).mapCan i fun c => { c with state := .calibrating, reason := none })) :=
    (mapCan_quiet _ _).2 (quiet_mapDisp_works rfl (by simp) (by simp) h)
  unfold startCal
  refine weighIfPresent_quiet ?_ ?_
  · split <;> simp [Works]
  · split
    · exact (makePre_quiet _).2 hcup
    · exact hcup

theorem answered_quiet (ha : Answered s t) (h : Quiet s) : Quiet t := by
  cases ha with
  | calStarted i mask hempty => exact startCal_quiet i mask h
  | _ => simp [h]

/-! ## Commands -/

@[simp] theorem pumpStalled_quiet (i : Slot) (h : Quiet s) : Quiet (pumpStalled i s) := by simp [pumpStalled, h]

@[simp] theorem segmentEnds_quiet (h : Quiet s) : Quiet (segmentEnds s) := by
  unfold segmentEnds endSegment
  dsimp only
  repeat' split
  all_goals simp [h]

@[simp] theorem trackZero_quiet (r : Int) (h : Quiet s) : Quiet (trackZero r s) := by
  unfold trackZero
  split
  · exact quiet_mapScale rfl h
  · exact h

@[simp] theorem produceReading_quiet (h : Quiet s) : Quiet (produceReading s) := by
  unfold produceReading
  dsimp only
  refine trackZero_quiet _ ?_
  split
  · exact answerRequest_quiet _
  · exact quiet_mapScale rfl h

@[simp] theorem offerSample_quiet (n : Int) (h : Quiet s) : Quiet (offerSample n s) := by
  unfold offerSample
  dsimp only
  repeat' split
  · exact h
  · exact produceReading_quiet (quiet_mapScale rfl h)
  · exact quiet_mapScale rfl h

@[simp] theorem reportCrossing_quiet (above : Bool) (h : Quiet s) : Quiet (reportCrossing above s) := by
  have hstale : Quiet (s.mapDisp fun d => { d with fresh := false }) := quiet_mapDisp_same rfl rfl h
  unfold reportCrossing
  dsimp only
  repeat' split
  all_goals simp [h, hstale]

@[simp] theorem testThreshold_quiet (n : Int) (h : Quiet s) : Quiet (testThreshold n s) := by
  unfold testThreshold
  dsimp only
  split
  · exact h
  · exact reportCrossing_quiet _ (quiet_mapScale rfl h)

@[simp] theorem takeSample_quiet (raw : Int) (h : Quiet s) : Quiet (takeSample raw s) := by
  unfold takeSample
  dsimp only
  split
  · exact quiet_mapScale rfl h
  · exact offerSample_quiet _ (testThreshold_quiet _ (quiet_mapScale rfl h))

@[simp] theorem blankExpires_quiet (h : Quiet s) : Quiet (blankExpires s) := by
  unfold blankExpires
  split
  · exact quiet_mapScale rfl h
  · exact h

theorem dispTinOn_quiet (h : Quiet s) : Quiet (dispTinOn s) := by
  unfold dispTinOn
  split
  · exact h
  · exact enterTare_quiet
  · next hst =>
    split
    · split
      · exact weighCup_quiet (by simp [Works, hst])
      · exact h
    · exact h
  · exact quiet_mapDisp_same rfl rfl h
  · exact quiet_mapDisp_same rfl rfl h
  · exact h

theorem heldTinOff_quiet (h : Quiet s) : Quiet (heldTinOff s) := by
  have hlifted : Quiet (s.mapDisp fun d => { d with placed := false }) := quiet_mapDisp_same rfl rfl h
  unfold heldTinOff
  dsimp only
  repeat' split
  · exact loseDisp_quiet hlifted
  · exact finishLost_quiet hlifted
  · exact quiet_mapDisp_same rfl rfl hlifted

theorem cupLifted_quiet (h : Quiet s) : Quiet (cupLifted s) := by
  unfold cupLifted
  split <;> simp [h]

theorem dispTinOff_quiet (h : Quiet s) : Quiet (dispTinOff s) := by
  unfold dispTinOff
  split
  case h_6 => split <;> simp [h]
  case h_7 => exact quiet_mapDisp_works rfl (by simp) (by simp) h
  all_goals simp [h, cupLifted_quiet, heldTinOff_quiet]

theorem keepaliveLost_quiet (h : Quiet s) : Quiet (keepaliveLost s) := by
  unfold keepaliveLost
  split
  · exact withdrawStandingCall_quiet h
  · exact h

theorem fastStir_quiet (i : Slot) (h : Quiet s) : Quiet (fastStir i s) := by
  unfold fastStir
  repeat' split
  all_goals simp [h]

theorem slowStir_quiet (i : Slot) (h : Quiet s) : Quiet (slowStir i s) := by
  unfold slowStir
  repeat' split
  all_goals simp [h]

theorem checkExpires_quiet (i : Slot) (h : Quiet s) : Quiet (checkExpires i s) := by
  unfold checkExpires
  repeat' split
  all_goals simp [h]

theorem runExpires_quiet (i : Slot) (h : Quiet s) : Quiet (runExpires i s) := by
  unfold runExpires
  repeat' split
  all_goals simp [h]

theorem settleExpires_quiet (h : Quiet s) : Quiet (settleExpires s) := by
  unfold settleExpires
  split <;> simp [h]

theorem arrivalSensed_quiet (h : Quiet s) : Quiet (arrivalSensed s) := by
  unfold arrivalSensed
  split <;> simp [h]

theorem moveJams_quiet (h : Quiet s) : Quiet (moveJams s) := by
  unfold moveJams
  split
  · exact latch_quiet _ _ h
  · exact h

theorem homeSensed_quiet : Quiet (homeSensed s) ↔ Quiet s := by
  unfold homeSensed
  split <;> exact Iff.rfl

theorem strokeFails_quiet (k : FaultKind) (h : Quiet s) : Quiet (strokeFails k s) := by simp [strokeFails, h]

theorem seatedSensed_quiet (h : Quiet s) : Quiet (seatedSensed s) := by
  unfold seatedSensed
  repeat' split
  · exact strokeFails_quiet _ h
  · exact h
  · exact h

theorem seatExpires_quiet (h : Quiet s) : Quiet (seatExpires s) := by
  unfold seatExpires
  split
  · exact strokeFails_quiet _ h
  · exact h

theorem homeExpires_quiet (h : Quiet s) : Quiet (homeExpires s) := by
  unfold homeExpires
  dsimp only
  repeat' split
  all_goals simp [h, strokeFails_quiet]

theorem guardChanged_quiet (isOpen : Bool) (h : Quiet s) : Quiet (guardChanged isOpen s) := by
  unfold guardChanged
  split
  · exact strokeFails_quiet _ h
  · exact h

theorem clampExpires_quiet (h : Quiet s) : Quiet (clampExpires s) := by
  unfold clampExpires
  split
  · exact latch_quiet _ _ h
  · exact h

theorem judgeSpeed_quiet (period : Nat) (h : Quiet s) : Quiet (judgeSpeed period s) := by
  unfold judgeSpeed
  repeat' split
  all_goals simp [h]

theorem lowerClaim_quiet (p : Pool) (n : Nat) : Quiet (lowerClaim p n s) ↔ Quiet s := quiet_congr (by simp) (by simp)

theorem reachSpeed_quiet : Quiet (reachSpeed s) ↔ Quiet s := lowerClaim_quiet _ _

theorem comeToRest_quiet : Quiet (comeToRest s) ↔ Quiet s := by simp [comeToRest]

theorem measure_quiet (period : Nat) (h : Quiet s) : Quiet (Machine.measure period s) := by
  unfold Machine.measure
  dsimp only
  repeat' split
  · exact reachSpeed_quiet.2 h
  · exact h
  · exact judgeSpeed_quiet _ h
  · exact h

theorem enterAwaitRoom_quiet : Quiet (enterAwaitRoom s) ↔ Quiet s := quiet_congr (by simp) (by simp)

theorem saturatedSpeed_quiet (h : Quiet s) : Quiet (saturatedSpeed s) := by
  unfold saturatedSpeed
  dsimp only
  repeat' split
  · exact enterAwaitRoom_quiet.2 ((mapTin_quiet _ _).2 (comeToRest_quiet.2 h))
  · exact judgeSpeed_quiet _ h
  · exact resumeShake_quiet.2 (comeToRest_quiet.2 h)
  · exact h

theorem shakeTinOff_quiet : Quiet (shakeTinOff s) ↔ Quiet s := by
  unfold shakeTinOff
  split
  · exact quiet_congr (by simp) (by simp)
  · exact Iff.rfl
  · exact Iff.rfl
  · split
    · exact Iff.rfl
    · exact loseShake_quiet
  · split
    · exact Iff.rfl
    · exact loseShake_quiet
  · exact loseShake_quiet

theorem receive_quiet {act : State → State} (src : Station) (hact : ∀ t, Quiet (act t) ↔ Quiet t) :
    Quiet (receive src act s) ↔ Quiet s := by
  unfold receive
  dsimp only
  repeat' split
  · exact Iff.rfl
  · exact Iff.rfl
  · exact quiet_congr (by simp) (by simp)
  · exact hact _

theorem tryBoth_quiet : Quiet (tryBoth s) ↔ Quiet s := quiet_congr (by simp) (by simp)

theorem takeAdjust_quiet (src : Station) (p : Pool) (a : Nat) : Quiet (takeAdjust src p a s) ↔ Quiet s := by
  unfold takeAdjust
  split
  · exact quiet_congr (by simp) (by simp)
  · exact quiet_congr (by simp) (by simp)

theorem effect_quiet (hf : Effect f) (h : Quiet s) : Quiet (f s) := by
  have told {act : State → State} (hact : ∀ t, Quiet (act t) ↔ Quiet t) (src : Station) :
      Quiet (receive src (thenTell act) s) := (receive_quiet src fun t => tryBoth_quiet.trans (hact t)).2 h
  have unmoved {t : State} (hd : t.disp = s.disp) (hc : t.scale = s.scale) : Quiet t := (quiet_congr hd hc).2 h
  cases hf with
  | claimReceived src p a => exact told (fun _ => quiet_congr (by simp) (by simp)) src
  | adjustReceived src p a => exact (receive_quiet src fun _ => takeAdjust_quiet src p a).2 h
  | releaseReceived src p => exact told (fun _ => quiet_congr (by simp) (by simp)) src
  | waitReceived src p a n => exact told (fun _ => quiet_congr (by simp) (by simp)) src
  | beaconReceived src b => exact told (fun _ => quiet_congr (by simp) (by simp)) src
  | dispTinOn => exact dispTinOn_quiet h
  | dispTinOff => exact dispTinOff_quiet h
  | nothing => exact h
  | keepaliveLost => exact keepaliveLost_quiet h
  | emergencyStop => exact keeps_ite (fun _ => h) fun _ => applyEstop_quiet h
  | doorCloses => exact unmoved (by simp) (by simp)
  | ageStirs => exact h
  | stirrerRevolution i period => exact keeps_ite (fun _ => fastStir_quiet i h) fun _ => slowStir_quiet i h
  | slowStir i => exact slowStir_quiet i h
  | checkExpires i => exact checkExpires_quiet i h
  | runExpires i => exact runExpires_quiet i h
  | settleExpires => exact settleExpires_quiet h
  | moveStart => exact keeps_ite (fun _ => startMove_quiet h) fun _ => h
  | arrivalSensed => exact arrivalSensed_quiet h
  | moveJams => exact moveJams_quiet h
  | homeRunStart => exact keeps_ite (fun _ => h) fun _ => h
  | homeSensed => exact homeSensed_quiet.2 h
  | pressStart => exact keeps_ite (fun _ => h) fun _ => h
  | seatedSensed => exact seatedSensed_quiet h
  | seatExpires => exact seatExpires_quiet h
  | dwellExpiry => exact keeps_ite (fun _ => h) fun _ => h
  | homeExpires => exact homeExpires_quiet h
  | guardChanged o => exact guardChanged_quiet o h
  | clampExpires => exact clampExpires_quiet h
  | spinUpStart => exact keeps_ite (fun _ => h) fun _ => h
  | measure n => exact measure_quiet n h
  | saturatedSpeed => exact saturatedSpeed_quiet h
  | spinUpTimeout => exact keeps_ite (fun _ => latch_quiet _ _ h) fun _ => h
  | pressHomeSensed => exact unmoved (by simp) (by simp)
  | lidTinOff => exact unmoved (by simp) (by simp)
  | clampSensed c => exact unmoved (by simp) (by simp)
  | secondRun => exact unmoved (by simp) (by simp)
  | runEnds => exact keeps_ite (fun _ => h) fun _ => h
  | shakeTinOff => exact shakeTinOff_quiet.2 h
  | startFrame => exact unmoved (by simp) (by simp)
  | loseArbitration => exact unmoved (by simp) (by simp)
  | transmitFails => exact unmoved (by simp) (by simp)
  | frameEnds => exact unmoved (by simp) (by simp)
  | discardFrame => exact unmoved (by simp) (by simp)
  | beaconExpiry => exact unmoved (by simp) (by simp)
  | ageOut i => exact unmoved (by simp) (by simp)
  | waitExpires p => exact unmoved (by simp) (by simp)
  | _ => simp [h]

theorem settle_quiet (h : Quiet s) : Quiet (settle s) := by
  unfold settle
  split
  · exact keepDeferrals_quiet.2 (askTin_quiet (grantStirs_quiet.2 h))
  · exact h

theorem placeDisp_quiet (h : Quiet s) : Quiet (placeDisp s) := by
  unfold placeDisp
  split
  · exact (setFlag_quiet _).2 (quiet_mapDisp_works rfl (by simp) (by simp) h)
  · exact h

theorem startOnline_quiet (h : Quiet s) : Quiet (startOnline s) := by
  have hplaced : Quiet (placeShake (placeLid (placeDisp (startLine s)))) := by simp [placeDisp_quiet, h]
  unfold startOnline
  dsimp only
  split
  · exact applyEstop_quiet hplaced
  · exact hplaced

theorem startUp_quiet (i : Inputs) : Quiet (startUp i s) := by
  have hreset : Quiet (volatileReset s) := quiet_of_unasked ⟨rfl, rfl⟩
  unfold startUp
  dsimp only
  split
  · split <;> exact hreset
  · refine startOnline_quiet ((mapCfg_quiet _).2 ?_)
    split <;> exact hreset

theorem tick_quiet (h : Quiet s) : Quiet (tick s) := by
  unfold tick
  split
  · have hscale : Quiet (tickScale (tickPump (tickStir s))) :=
      quiet_mapScale (by simp [elapse]) ((quiet_congr (by simp) (by simp)).2 h)
    exact settle_quiet ((quiet_congr (by simp) (by simp)).2 hscale)
  · exact h

theorem closedUnder_quiet : ClosedUnder Quiet where
  effect := effect_quiet
  answered := answered_quiet
  settle := settle_quiet
  reset _ := quiet_of_unasked ⟨rfl, rfl⟩
  startUp i _ _ := startUp_quiet i
  phase g _ := (mapPhase_quiet g).2
  inputs g _ := (mapInputs_quiet g).2
  store g _ := (mapStore_quiet g).2
  port _ _ h := h
  free _ _ h := h
  keepalive := (quiet_congr (by simp) (by simp)).2

/-- Settles O58: every operation that opens or closes a request raises or lowers the quiet request with it, and every
halt closes it. -/
theorem everyStepKeepsTheQuietRequest : Obligations.EveryStepKeepsTheQuietRequest := by
  unfold Obligations.EveryStepKeepsTheQuietRequest
  intro s t hstep hquiet
  exact closedUnder_quiet.step (fun _ h => h) tick_quiet hstep hquiet

end Sys2Proof.Proofs
end

