-- ==== Sys2Proof/Proofs/EmergencyStop.lean ====
section
/-! PROOF. While ESTOP stands every operation leaves the bays held and the drives off, and the carriage's drive runs only
while it is MOVING (R175, R176). -/

namespace Sys2Proof.Proofs

open Sys2Proof Sys2Proof.Machine Sys2Proof.Safety Sys2Proof.Laws

variable {s t : State} {f : State → State}

/-- The carriage's drive runs only while it is MOVING. -/
def CarriageFits (s : State) : Prop := s.carriage.drive = true → s.carriage.st = .moving

/-- The bays are held and every drive is off. -/
def Still (s : State) : Prop := baysHeld s ∧ allOff s ∧ s.carriage.st ≠ .moving

/-- ESTOP stands and holds everything. -/
def Halted (s : State) : Prop := s.mon.estop = true ∧ Still s

/-- What an operation must keep for the emergency stop to be kept. -/
theorem stopHolds_of (hc : CarriageFits s → CarriageFits t) (he : t.mon.estop = s.mon.estop) (hh : Halted s → Halted t)
    (h : StopHolds s) : StopHolds t := by
  obtain ⟨hcar, hstop⟩ := h
  refine ⟨hc hcar, fun hestop => ?_⟩
  have hs : s.mon.estop = true := he ▸ hestop
  exact (hh ⟨hs, hstop hs⟩).2

/-! ## Updates of one block -/

theorem still_congr (hd : t.disp.st = s.disp.st) (hl : t.lid = s.lid) (hs : t.shake = s.shake) (hp : t.pump = s.pump)
    (hr : t.stir.runs = s.stir.runs) (hc : t.carriage = s.carriage) : Still t ↔ Still s := by
  unfold Still baysHeld allOff
  rw [hd, hl, hs, hp, hr, hc]

theorem halted_congr (hm : t.mon.estop = s.mon.estop) (hd : t.disp.st = s.disp.st) (hl : t.lid = s.lid)
    (hs : t.shake = s.shake) (hp : t.pump = s.pump) (hr : t.stir.runs = s.stir.runs) (hc : t.carriage = s.carriage) :
    Halted t ↔ Halted s := by
  unfold Halted
  rw [hm, still_congr hd hl hs hp hr hc]

namespace Halted

/-- The frame of an operation that touches none of the blocks a stop holds. -/
theorem of_unmoved (h : Halted s) (hm : t.mon.estop = s.mon.estop := by simp) (hd : t.disp.st = s.disp.st := by simp)
    (hl : t.lid = s.lid := by simp) (hs : t.shake = s.shake := by simp) (hp : t.pump = s.pump := by simp)
    (hr : t.stir.runs = s.stir.runs := by simp) (hc : t.carriage = s.carriage := by simp) : Halted t :=
  (halted_congr hm hd hl hs hp hr hc).2 h

theorem estop (h : Halted s) : s.mon.estop = true := h.1
theorem disp (h : Halted s) : s.disp.st = .stopped ∨ s.disp.st = .fault := h.2.1.1
theorem lid (h : Halted s) : s.lid.st = .stopped ∨ s.lid.st = .fault := h.2.1.2.1
theorem shake (h : Halted s) : s.shake.st = .stopped ∨ s.shake.st = .fault := h.2.1.2.2
theorem pump (h : Halted s) : s.pump.op = none := h.2.2.1.1
theorem stir (h : Halted s) : s.stir.runs = [] := h.2.2.1.2.1
theorem carriage (h : Halted s) : s.carriage.st ≠ .moving := h.2.2.2

theorem stopStands (h : Halted s) : s.stopStands = true := by simp [State.stopStands, h.estop]

theorem mapDisp {g : DispenseBay → DispenseBay} (h : Halted s) (hg : (g s.disp).st = .stopped ∨ (g s.disp).st = .fault) :
    Halted (s.mapDisp g) := ⟨h.1, ⟨hg, h.2.1.2⟩, h.2.2⟩

theorem mapDisp_same {g : DispenseBay → DispenseBay} (h : Halted s) (hg : (g s.disp).st = s.disp.st) :
    Halted (s.mapDisp g) := h.mapDisp (by rw [hg]; exact h.disp)

theorem mapLid {g : LidBay → LidBay} (h : Halted s) (hg : (g s.lid).st = .stopped ∨ (g s.lid).st = .fault)
    (hv : (g s.lid).valve = s.lid.valve) : Halted (s.mapLid g) := by
  obtain ⟨he, ⟨hd, -, hs⟩, ⟨hp, hr, hc, hvalve, hrest⟩, hcar⟩ := h
  exact ⟨he, ⟨hd, hg, hs⟩, ⟨hp, hr, hc, hv.trans hvalve, hrest⟩, hcar⟩

theorem mapShake {g : ShakeBay → ShakeBay} (h : Halted s) (hg : (g s.shake).st = .stopped ∨ (g s.shake).st = .fault)
    (hd : (g s.shake).drive = .off) (hcl : (g s.shake).clampDrive = .off) : Halted (s.mapShake g) := by
  obtain ⟨he, ⟨hdisp, hl, -⟩, ⟨hp, hr, hc, hv, -, -⟩, hcar⟩ := h
  exact ⟨he, ⟨hdisp, hl, hg⟩, ⟨hp, hr, hc, hv, hd, hcl⟩, hcar⟩

theorem mapShake_same {g : ShakeBay → ShakeBay} (h : Halted s) (hg : (g s.shake).st = s.shake.st)
    (hd : (g s.shake).drive = s.shake.drive ∨ (g s.shake).drive = .off)
    (hcl : (g s.shake).clampDrive = s.shake.clampDrive ∨ (g s.shake).clampDrive = .off) : Halted (s.mapShake g) := by
  obtain ⟨-, -, ⟨-, -, -, -, hoff, hclamp⟩, -⟩ := id h
  exact h.mapShake (by rw [hg]; exact h.shake) (hd.elim (·.trans hoff) id) (hcl.elim (·.trans hclamp) id)

theorem mapCarriage {g : Carriage → Carriage} (h : Halted s) (hst : (g s.carriage).st = s.carriage.st)
    (hd : (g s.carriage).drive = s.carriage.drive) : Halted (s.mapCarriage g) := by
  obtain ⟨he, hb, ⟨hp, hr, hc, hrest⟩, hcar⟩ := h
  exact ⟨he, hb, ⟨hp, hr, hd.trans hc, hrest⟩, hst.trans_ne hcar⟩

end Halted

/-! ## What a held dispense bay's operations leave -/

@[simp] theorem closeRequest_disp : (closeRequest s).disp = { s.disp with quiet := false } := rfl
@[simp] theorem closeRequest_scale : (closeRequest s).scale = { s.scale with request := none } := rfl
@[simp] theorem openRequest_disp : (openRequest s).disp = { s.disp with quiet := true, fresh := false } := rfl
@[simp] theorem dropPre_stir : (dropPre s).stir = { s.stir with pre := [] } := rfl
@[simp] theorem mapEntryAt_st (i : Nat) (g : LineEntry → LineEntry) : (mapEntryAt i g s).disp.st = s.disp.st := rfl

@[simp] theorem makePre_runs (i : Slot) : (makePre i s).stir.runs = s.stir.runs := by
  unfold makePre
  split <;> rfl

@[simp] theorem requestFor_runs (l : LineEntry) : (requestFor l s).stir.runs = s.stir.runs := by
  unfold requestFor
  repeat' split
  all_goals simp

theorem foldl_requestFor_keeps (ls : List LineEntry) :
    ∀ s, (ls.foldl (fun t l => requestFor l t) s).disp = s.disp ∧
      (ls.foldl (fun t l => requestFor l t) s).stir.runs = s.stir.runs := by
  induction ls with
  | nil => exact fun _ => ⟨rfl, rfl⟩
  | cons l ls ih => exact fun s => ⟨by simp [ih], by simp [ih]⟩

@[simp] theorem judgePassed_st : (judgePassed s).disp.st = s.disp.st := by
  unfold judgePassed
  dsimp only
  repeat' split
  · rfl
  · rw [(foldl_requestFor_keeps _ _).1]
    rfl
  · rfl

@[simp] theorem judgePassed_runs : (judgePassed s).stir.runs = s.stir.runs := by
  unfold judgePassed
  dsimp only
  repeat' split
  · rfl
  · rw [(foldl_requestFor_keeps _ _).2]
    rfl
  · rfl

@[simp] theorem calEnded_runs : (calEnded s).stir = s.stir := by
  unfold calEnded
  split <;> rfl

@[simp] theorem calOutcome_runs (o : CalOutcome) (k : Option Nat) : (calOutcome o k s).stir.runs = s.stir.runs := by
  unfold calOutcome
  split
  · rfl
  · simp

@[simp] theorem abortCal_runs : (abortCal s).stir.runs = s.stir.runs := by
  unfold abortCal
  split <;> simp

theorem calEnded_eq (hst : s.disp.st ≠ .calEnd) : calEnded s = s := by simp [calEnded, hst]

/-- A calibration that a hold ends leaves its bay held. -/
theorem abortCal_st (hheld : s.disp.st = .stopped ∨ s.disp.st = .fault) : (abortCal s).disp.st = s.disp.st := by
  have hcond : (decide (s.disp.st = .fault) || decide (s.disp.st = .stopped)) = true := by
    rcases hheld with h | h <;> simp [h]
  unfold abortCal calOutcome
  split
  · split
    · rfl
    · dsimp only
      rw [calEnded_eq]
      · simp [hcond]
      · rcases hheld with h | h <;> simp [h]
  · rfl

@[simp] theorem interruptShot_st : (interruptShot s).disp.st = s.disp.st := by
  unfold interruptShot
  split <;> simp

/-- A halt leaves FAULT alone and takes any other state to where it sends the bay. -/
theorem haltDisp_st {d : DispState} (hd : d = .stopped ∨ d = .fault) :
    (haltDisp d s).disp.st = if s.disp.st = .fault then .fault else d := by
  unfold haltDisp
  split
  · next hc =>
    simp only [Bool.or_eq_true, decide_eq_true_eq] at hc
    rcases hc with h | h <;> simp [h]
  · next hc =>
    simp only [Bool.or_eq_true, decide_eq_true_eq, not_or] at hc
    rw [if_neg hc.1]
    dsimp only
    split
    · rw [judgePassed_st, abortCal_st (by simpa using hd)]
      simp
    · rw [abortCal_st (by simpa using hd)]
      simp

theorem haltDisp_held {d : DispState} (hd : d = .stopped ∨ d = .fault) :
    (haltDisp d s).disp.st = .stopped ∨ (haltDisp d s).disp.st = .fault := by
  rw [haltDisp_st hd]
  split
  · exact .inr rfl
  · exact hd

theorem interruptShot_runs : (interruptShot s).stir.runs = s.stir.runs := by simp

theorem haltDisp_runs (d : DispState) : (haltDisp d s).stir.runs = s.stir.runs := by
  unfold haltDisp
  dsimp only
  repeat' split
  all_goals simp

theorem interruptShot_idle (hp : s.pump.op = none) : interruptShot s = s := by simp [interruptShot, hp]

theorem haltDisp_pump (d : DispState) (hp : s.pump.op = none) : (haltDisp d s).pump = s.pump := by
  unfold haltDisp
  rw [interruptShot_idle hp]
  dsimp only
  repeat' split
  all_goals simp

namespace Halted

theorem haltDisp {d : DispState} (hd : d = .stopped ∨ d = .fault) (h : Halted s) : Halted (Machine.haltDisp d s) := by
  obtain ⟨he, ⟨-, hl, hs⟩, ⟨hp, hr, hrest⟩, hcar⟩ := id h
  refine ⟨by simpa using he, ⟨haltDisp_held hd, by simpa using hl, by simpa using hs⟩, ⟨?_, ?_, by simpa using hrest⟩,
    by simpa using hcar⟩
  · rw [haltDisp_pump d hp, hp]
  · rw [haltDisp_runs, hr]

theorem mapTin (b : BayId) (g : TinRecord → TinRecord) (h : Halted s) : Halted (s.mapTin b g) := by
  cases b
  · exact h.mapDisp_same rfl
  · exact h.mapLid h.lid rfl
  · exact h.mapShake_same rfl (.inl rfl) (.inl rfl)

theorem giveUp (p : Pool) (h : Halted s) : Halted (Machine.giveUp p s) :=
  h.of_unmoved

/-- A held lid bay has no stroke to halt. -/
theorem haltStroke_eq (e : Bool) (h : Halted s) : haltStroke e s = s := by
  rcases h.lid with hl | hl <;> simp [haltStroke, hl]

theorem haltLid {d : LidState} (hd : d = .stopped ∨ d = .fault) (e : Bool) (h : Halted s) :
    Halted (Machine.haltLid d e s) := by
  unfold Machine.haltLid
  split
  · exact h.mapLid (.inl rfl) rfl
  · split
    · exact h
    · rw [h.haltStroke_eq]
      exact h.mapLid hd rfl

theorem haltShake {d : ShakeState} (hd : d = .stopped ∨ d = .fault) (e : Bool) (h : Halted s) :
    Halted (Machine.haltShake d e s) := by
  obtain ⟨-, -, ⟨-, -, -, -, hoff, -⟩, -⟩ := id h
  unfold Machine.haltShake
  split
  · exact h
  · have hshaker : haltShaker e s = s.mapShake fun b => { b with clampDrive := .off, clamp := none } := by
      rcases h.shake with hs | hs <;> simp [haltShaker, hs]
    rw [hshaker]
    exact (h.mapShake_same rfl (.inl rfl) (.inr rfl)).mapShake hd hoff rfl

theorem faultBay (b : BayId) (h : Halted s) : Halted (Machine.faultBay b s) := by
  cases b
  · exact h.haltDisp (.inr rfl)
  · have hf := h.haltLid (.inr rfl) false
    exact hf.mapLid hf.lid rfl
  · exact h.haltShake (.inr rfl) false

theorem stopOthers (b : BayId) (h : Halted s) : Halted (Machine.stopOthers b s) := by
  cases b
  · exact (h.haltShake (.inl rfl) false).haltLid (.inl rfl) false
  · exact (h.haltDisp (.inl rfl)).haltShake (.inl rfl) false
  · exact (h.haltDisp (.inl rfl)).haltLid (.inl rfl) false

theorem setFault (b : BayId) (k : Option FaultKind) (h : Halted s) : Halted (s.setFault b k) :=
  h.of_unmoved

theorem setFlag (e : EventFlag) (h : Halted s) : Halted (Machine.setFlag e s) := h

theorem clearFlag (e : EventFlag) (h : Halted s) : Halted (Machine.clearFlag e s) := h

theorem latch (b : BayId) (k : FaultKind) (h : Halted s) : Halted (Machine.latch b k s) := by
  have hnoted : Halted (Machine.setFlag .bayFault (s.mapTin b (TinRecord.note k))) := h.mapTin b _
  have hfault := (hnoted.setFault b (some k)).faultBay b
  unfold Machine.latch
  dsimp only
  split
  · split
    · exact hfault.stopOthers b
    · exact hfault
  · exact hnoted

/-! ### Records and tins -/

theorem finishLost_eq (h : Halted s) : finishLost s = s := by simp [finishLost, h.estop]

theorem dispJoined (h : Halted s) : Halted (Machine.dispJoined s) := by
  have hjoined : Halted (s.mapDisp fun b => { b with tin := none, recWait := false }) := h.mapDisp_same rfl
  have hst : s.disp.st ≠ .cancelled := by rcases h.disp with hd | hd <;> simp [hd]
  unfold Machine.dispJoined
  rw [if_neg hst]
  split
  · rw [hjoined.finishLost_eq]
    exact hjoined
  · exact hjoined.mapDisp_same rfl

theorem drainDisp (h : Halted s) : Halted (Machine.drainDisp s) := by
  unfold Machine.drainDisp
  split
  · split
    · exact dispJoined h
    · exact h
  · exact h

theorem drainShake_eq (h : Halted s) : drainShake s = s := by
  unfold drainShake
  split
  · rcases h.shake with hs | hs <;> simp [hs]
  · rfl

theorem drainLid_eq (h : Halted s) : drainLid s = s := by
  unfold drainLid
  split
  · rcases h.lid with hl | hl <;> simp [hl]
  · rfl

theorem drain (h : Halted s) : Halted (Machine.drain s) := by
  unfold Machine.drain
  rw [h.drainShake_eq, h.drainLid_eq]
  exact h.drainDisp

theorem closeDispRecord (h : Halted s) : Halted (Machine.closeDispRecord s) := by
  have hwaits : Halted (s.mapDisp fun b => { b with recWait := true }) := h.mapDisp_same rfl
  unfold Machine.closeDispRecord joinOrWait
  split
  · exact hwaits.drainDisp
  · exact hwaits

theorem withdrawTin (h : Halted s) : Halted (Machine.withdrawTin s) := by
  unfold Machine.withdrawTin
  split
  · exact h
  · dsimp only
    split
    · exact clearFlag _ (h.mapDisp_same rfl)
    · exact clearFlag _ (mapDisp_same (s := s.mapJobs _) h rfl)

theorem closeLost (h : Halted s) : Halted (Machine.closeLost s) := by
  unfold Machine.closeLost
  split
  · exact h
  · split
    · exact h.closeDispRecord
    · exact h.withdrawTin

theorem closeRequest (h : Halted s) : Halted (Machine.closeRequest s) :=
  (halted_congr rfl rfl rfl rfl rfl rfl rfl).2 h

theorem loseLine (h : Halted s) : Halted (Machine.loseLine s) := by
  unfold Machine.loseLine
  split
  · exact h
  · rw [if_neg (by simp [h.pump])]
    split
    · exact h.mapDisp_same rfl
    · exact h

theorem loseDisp (h : Halted s) : Halted (Machine.loseDisp s) := by
  have hlost : Halted ((dropPre (Machine.loseLine (Machine.closeRequest s))).mapDisp fun d => { d with lost := true }) :=
    mapDisp_same (s := dropPre (Machine.loseLine (Machine.closeRequest s))) h.closeRequest.loseLine rfl
  have hlatched := (hlost.mapTin .dispense fun t => { t with lost := true }).latch .dispense .tinLost
  unfold Machine.loseDisp
  dsimp only
  split
  · split
    · exact hlatched.closeLost
    · exact hlatched
  · exact h

theorem heldTinOff (h : Halted s) : Halted (Machine.heldTinOff s) := by
  have hlifted : Halted (s.mapDisp fun d => { d with placed := false }) := h.mapDisp_same rfl
  unfold Machine.heldTinOff
  dsimp only
  split
  · exact hlifted.loseDisp
  · split
    · rw [hlifted.finishLost_eq]
      exact hlifted
    · exact hlifted.mapDisp_same rfl

theorem dispTinOn (h : Halted s) : Halted (Machine.dispTinOn s) := by
  unfold Machine.dispTinOn
  rcases h.disp with hd | hd <;> simp only [hd] <;> exact h.mapDisp_same rfl

theorem dispTinOff (h : Halted s) : Halted (Machine.dispTinOff s) := by
  unfold Machine.dispTinOff
  rcases h.disp with hd | hd <;> simp only [hd] <;> exact h.heldTinOff

theorem loseLid (h : Halted s) : Halted (Machine.loseLid s) := by
  unfold Machine.loseLid
  split
  · exact h
  · split
    · exact h
    · rcases h.lid with hl | hl <;> simp only [hl] <;> exact h.mapTin .lid _

theorem loseShake (h : Halted s) : Halted (Machine.loseShake s) := by
  unfold Machine.loseShake
  split
  · exact h
  · split
    · exact h
    · rcases h.shake with hs | hs <;> simp only [hs] <;> exact h.mapTin .shake _

theorem lidTinOff (h : Halted s) : Halted (Machine.lidTinOff s) := by
  have horphan : s.lid.st ≠ .orphan := by rcases h.lid with hl | hl <;> simp [hl]
  unfold Machine.lidTinOff
  rw [if_neg horphan]
  split
  · exact h.mapLid h.lid rfl
  · exact h.loseLid

theorem shakeTinOff (h : Halted s) : Halted (Machine.shakeTinOff s) := by
  unfold Machine.shakeTinOff
  rcases h.shake with hs | hs <;> simp only [hs] <;> split
  · exact h.mapShake_same rfl (.inl rfl) (.inl rfl)
  · exact h.loseShake
  · exact h.mapShake_same rfl (.inl rfl) (.inl rfl)
  · exact h.loseShake

/-! ### Nothing resumes, is taken or is granted -/

theorem resumeDisp_eq (h : Halted s) : resumeDisp s = s := by simp [resumeDisp, dispMayResume, h.stopStands]
theorem resumeLid_eq (h : Halted s) : resumeLid s = s := by simp [resumeLid, lidMayResume, h.stopStands]
theorem resumeShake_eq (h : Halted s) : resumeShake s = s := by simp [resumeShake, shakeMayResume, h.stopStands]
theorem resolveCarriage_eq (h : Halted s) : resolveCarriage s = s := by simp [resolveCarriage, h.estop]
theorem moveDue_eq (h : Halted s) : moveDue s = false := by simp [moveDue, h.stopStands]
theorem homeRunDue_eq (h : Halted s) : homeRunDue s = false := by simp [homeRunDue, h.stopStands]
theorem pressDue_eq (h : Halted s) : pressDue s = false := by rcases h.lid with hl | hl <;> simp [pressDue, hl]
theorem spinDue_eq (h : Halted s) : spinDue s = false := by rcases h.shake with hs | hs <;> simp [spinDue, hs]

theorem takeDeferred_eq (o : StartOwner) (h : Halted s) : takeDeferred o s = s := by
  cases o <;> simp [takeDeferred, startCarriage, h.moveDue_eq, h.homeRunDue_eq, h.pressDue_eq, h.spinDue_eq]

theorem runningStir_eq (i : Slot) (h : Halted s) : runningStir s i = none := by
  simp [runningStir, State.stirRun?, h.stir]

theorem reportCanister_eq (c : Slot) (h : Halted s) : reportCanister c s = judgePassed s := by
  have hst : (judgePassed s).disp.st = .stopped ∨ (judgePassed s).disp.st = .fault := by simpa using h.disp
  unfold reportCanister
  rcases hst with hd | hd <;> simp only [hd]

theorem judgePassed (h : Halted s) : Halted (Machine.judgePassed s) :=
  h.of_unmoved

theorem reportCanister (c : Slot) (h : Halted s) : Halted (Machine.reportCanister c s) := by
  rw [h.reportCanister_eq]
  exact h.judgePassed

theorem holdCleared (b : BayId) (h : Halted s) : Halted (Machine.holdCleared b s) := by
  unfold Machine.holdCleared
  rw [if_pos h.stopStands]
  cases b
  · refine h.mapDisp ?_
    rcases h.disp with hd | hd <;> simp [hd]
  · refine h.mapLid ?_ ?_ <;> rcases h.lid with hl | hl <;> simp [hl]
  · obtain ⟨-, -, ⟨-, -, -, -, hoff, hclamp⟩, -⟩ := id h
    refine h.mapShake ?_ ?_ ?_ <;> rcases h.shake with hs | hs <;> simp [hs, hoff, hclamp]

theorem closeFound (b : BayId) (h : Halted s) : Halted (Machine.closeFound b s) := by
  unfold Machine.closeFound
  split
  · exact h.closeLost
  · exact h

theorem clearBay (b : BayId) (h : Halted s) : Halted (Machine.clearBay b s) := by
  unfold Machine.clearBay
  split
  · exact h
  · have hjam : Halted (clearJam b (s.setFault b none)) :=
      (h.setFault b none).mapCarriage (by split <;> rfl) (by split <;> rfl)
    have hheld := hjam.holdCleared b
    dsimp only
    rw [hheld.resolveCarriage_eq, hheld.resumeShake_eq, hheld.resumeLid_eq, (hheld.closeFound b).resumeDisp_eq]
    exact hheld.closeFound b

theorem nextGrant_eq (h : s.mon.estop = true) : nextGrant s = none := by
  have hnone (i : Slot) : stirEligible s i = false := by simp [stirEligible, h]
  have hpre : s.stir.pre.find? (stirEligible s) = none := List.find?_eq_none.2 fun i _ => by simp [hnone]
  unfold nextGrant
  rw [hpre]
  simp [hnone, mostOverdue]

theorem grantStirs_eq (h : s.mon.estop = true) : grantStirs s = s := by
  unfold grantStirs Config.stirSlots grantUpTo
  rw [nextGrant_eq h]
  simp

/-! ### The port, the scale, the press and the shaker -/

theorem askTin_eq (h : Halted s) : askTin s = s := by
  rcases h.disp with hd | hd <;> simp [askTin, mayCall, hd]

theorem withdrawStandingCall_eq (h : Halted s) : withdrawStandingCall s = s := by
  rcases h.disp with hd | hd <;> simp [withdrawStandingCall, hd]

theorem cancelInBay (e : CancelEffect) (h : Halted s) : Halted (Machine.cancelInBay e s) := by
  cases e with
  | none => exact h
  | callWithdrawn =>
    have hst : s.disp.st ≠ .called := by rcases h.disp with hd | hd <;> simp [hd]
    unfold Machine.cancelInBay
    dsimp only
    rw [if_neg hst]
    exact h.withdrawTin
  | tinCancelled =>
    have hst : (decide (s.disp.st = .fault) || decide (s.disp.st = .stopped)) = true := by
      rcases h.disp with hd | hd <;> simp [hd]
    unfold Machine.cancelInBay cancelTin markCancelled
    dsimp only
    rw [if_pos hst]
    exact clearFlag _ ((h.mapTin .dispense _).mapDisp_same rfl)

theorem lidRecheck_eq (h : Halted s) : lidRecheck s = s := by
  unfold lidRecheck
  split
  · rfl
  · rcases h.lid with hl | hl <;> simp only [hl]

theorem answerRequest (r : Int) (h : Halted s) : Halted (Machine.answerRequest r s) := by
  have hclosed : Halted ((Machine.closeRequest s).mapDisp fun d => { d with fresh := true }) :=
    h.closeRequest.mapDisp_same rfl
  unfold Machine.answerRequest
  rcases h.disp with hd | hd <;> simp only [hd] <;> exact hclosed

theorem produceReading (h : Halted s) : Halted (Machine.produceReading s) := by
  unfold Machine.produceReading trackZero
  rw [if_neg (by rcases h.disp with hd | hd <;> split <;> simp [hd, Machine.answerRequest])]
  split
  · exact answerRequest _ h
  · exact h

theorem offerSample (n : Int) (h : Halted s) : Halted (Machine.offerSample n s) := by
  unfold Machine.offerSample
  dsimp only
  repeat' split
  · exact h
  · exact produceReading h
  · exact h

theorem reportCrossing (above : Bool) (h : Halted s) : Halted (Machine.reportCrossing above s) := by
  have hstale : Halted (s.mapDisp fun d => { d with fresh := false }) := h.mapDisp_same rfl
  unfold Machine.reportCrossing
  dsimp only
  repeat' split
  · exact h
  · exact hstale
  · exact hstale.loseDisp

theorem takeSample (raw : Int) (h : Halted s) : Halted (Machine.takeSample raw s) := by
  unfold Machine.takeSample testThreshold
  dsimp only
  split
  · exact h
  · refine offerSample _ ?_
    split
    · exact h
    · exact reportCrossing _ h

theorem strokeFails (k : FaultKind) (h : Halted s) : Halted (Machine.strokeFails k s) := (h.mapTin .lid _).latch .lid k

theorem homeExpires (h : Halted s) : Halted (Machine.homeExpires s) := by
  have hgiven : Halted (Machine.giveUp .air (s.mapLid fun b => { b with home := none })) :=
    (h.mapLid h.lid rfl).giveUp .air
  unfold Machine.homeExpires
  dsimp only
  split
  · split
    · split
      · split
        · exact hgiven.latch _ _
        · exact hgiven.strokeFails _
      · exact hgiven.latch _ _
    · split
      · exact hgiven.latch _ _
      · split
        · exact hgiven.latch _ _
        · exact hgiven
  · exact h

theorem pressHomeSensed (h : Halted s) : Halted (Machine.pressHomeSensed s) := by
  have hst : s.lid.st ≠ .retract := by rcases h.lid with hl | hl <;> simp [hl]
  have hchecked : Halted (Machine.giveUp .air (s.mapLid fun b => { b with home := none, homeCheck := false })) :=
    (h.mapLid h.lid rfl).giveUp .air
  unfold Machine.pressHomeSensed
  rw [if_neg hst]
  dsimp only
  rw [if_pos hchecked.stopStands]
  split
  · exact hchecked
  · split
    · exact (h.mapLid h.lid rfl).giveUp .air
    · exact h

theorem clampExpires (h : Halted s) : Halted (Machine.clampExpires s) := by
  unfold Machine.clampExpires
  split
  · exact (h.mapShake_same rfl (.inl rfl) (.inr rfl)).latch _ _
  · exact h

theorem clampSensed_eq (closed : Bool) (h : Halted s) : clampSensed closed s = s := by
  unfold clampSensed
  rcases h.shake with hs | hs <;> simp [hs]

theorem measure (period : Nat) (h : Halted s) : Halted (Machine.measure period s) := by
  have hread : Halted (s.mapShake fun b => { b with lastSpeed := some period }) :=
    h.mapShake_same rfl (.inl rfl) (.inl rfl)
  unfold Machine.measure
  rcases h.shake with hs | hs <;> simp only [hs] <;> exact hread

theorem comeToRest (h : Halted s) : Halted (Machine.comeToRest s) := by
  have hoff : Halted (s.mapShake fun b => { b with drive := .off, turning := false }) :=
    h.mapShake_same rfl (.inr rfl) (.inl rfl)
  exact giveUp .power (s := blankTrigger _) hoff

theorem saturatedSpeed (h : Halted s) : Halted (Machine.saturatedSpeed s) := by
  have hread : Halted (s.mapShake fun b => { b with lastSpeed := some Config.speedSaturation }) :=
    h.mapShake_same rfl (.inl rfl) (.inl rfl)
  unfold Machine.saturatedSpeed
  rcases h.shake with hs | hs <;> simp only [hs] <;> rw [hread.comeToRest.resumeShake_eq] <;> split
  · exact hread.comeToRest
  · exact hread
  · exact hread.comeToRest
  · exact hread

/-! ### The peer line -/

theorem reportHeld_eq (p : Pool) (h : Halted s) : reportHeld p s = s := by
  cases p
  · rcases h.shake with hs | hs <;> simp [reportHeld, State.mapShake, hs]
  · rcases h.lid with hl | hl <;> simp [reportHeld, State.mapLid, hl]

theorem mapAgent (p : Pool) (g : Agent → Agent) (h : Halted s) : Halted (s.mapAgent p g) := by
  cases p <;> exact h

theorem grantOwn (p : Pool) (n : Nat) (h : Halted s) : Halted (Machine.grantOwn p n s) := by
  have hagent := h.mapAgent p fun g =>
    { g with st := .held, asked := some n, announced := n, standing := false, count := 0, timer := none }
  unfold Machine.grantOwn
  rw [hagent.reportHeld_eq]
  exact hagent

theorem judgeOwn (p : Pool) (h : Halted s) : Halted (Machine.judgeOwn p s) := by
  unfold Machine.judgeOwn
  dsimp only
  split
  · split
    · exact h.grantOwn p _
    · exact h.of_unmoved
  · exact h

theorem frameEnds (h : Halted s) : Halted (Machine.frameEnds s) := by
  unfold Machine.frameEnds
  split
  · exact h
  · next a _ =>
    have hended : Halted (if a.fate = .queued then unqueue a.frame
        ((endAttempt Config.idleBits s).mapLine fun c => { c with drops := 0 })
        else (endAttempt Config.idleBits s).mapLine fun c => { c with drops := 0 }) := by
      split <;> exact h
    have hreported : Halted (reportSent a (if a.fate = .queued then unqueue a.frame
        ((endAttempt Config.idleBits s).mapLine fun c => { c with drops := 0 })
        else (endAttempt Config.idleBits s).mapLine fun c => { c with drops := 0 })) := by
      unfold reportSent
      split
      · split
        · exact hended.of_unmoved
        · exact hended.judgeOwn _
      · exact hended.mapAgent _ _
      · exact hended.mapAgent _ _
      · exact hended
      · exact hended
    exact (halted_congr (by simp [frameDone]) (by simp [frameDone]) (by simp [frameDone]) (by simp [frameDone])
      (by simp [frameDone]) (by simp [frameDone]) (by simp [frameDone])).2 hreported

theorem tryBoth (h : Halted s) : Halted (Machine.tryBoth s) := h.of_unmoved

theorem receive {act : State → State} (src : Station) (hact : ∀ t, Halted t → Halted (act t)) (h : Halted s) :
    Halted (Machine.receive src act s) := by
  unfold Machine.receive
  split
  · exact h
  · dsimp only
    split
    · split
      · exact h
      · exact h.of_unmoved
    · exact hact _ h

theorem takeAdjust (src : Station) (p : Pool) (a : Nat) (h : Halted s) : Halted (Machine.takeAdjust src p a s) := by
  unfold Machine.takeAdjust
  split <;> exact h.of_unmoved

/-- The pump's commands find no operation in flight. -/
theorem pump_effects (h : Halted s) : turnDone s = s ∧ segmentEnds s = s ∧ ∀ i, countPulse i s = s := by
  simp [turnDone, segmentEnds, countPulse, h.pump]

/-- The stirrers' commands find no stir granted. -/
theorem stir_effects (i : Slot) (h : Halted s) :
    fastStir i s = s ∧ slowStir i s = s ∧ checkExpires i s = s ∧ runExpires i s = s := by
  simp [fastStir, slowStir, checkExpires, runExpires, h.runningStir_eq]

theorem setPaused (b : Bool) (h : Halted s) : Halted (Machine.setPaused b s) := by
  obtain ⟨he, hb, ⟨hp, hrest⟩, hc⟩ := h
  exact ⟨he, hb, ⟨by simp [Machine.setPaused, mapOp, hp], hrest⟩, hc⟩

theorem restartChecks (h : Halted s) : Halted (Machine.restartChecks s) := by
  obtain ⟨he, hb, ⟨hp, hr, hrest⟩, hc⟩ := h
  exact ⟨he, hb, ⟨hp, by simp [Machine.restartChecks, hr], hrest⟩, hc⟩

theorem keepaliveLost (h : Halted s) : Halted (Machine.keepaliveLost s) := by
  have hsafe : Halted (Machine.setFlag .keepaliveLost (s.mapMon fun m => { m with keepalive := none, safe := true })) := h
  unfold Machine.keepaliveLost
  rw [hsafe.withdrawStandingCall_eq]
  split
  · exact hsafe
  · exact h

/-- The carriage's commands find it standing. -/
theorem carriage_effects (h : Halted s) : arrivalSensed s = s ∧ homeSensed s = s ∧ moveJams s = s := by
  refine ⟨?_, ?_, ?_⟩
  · unfold arrivalSensed
    split
    · next hst _ => exact absurd hst h.carriage
    · next hst _ => exact absurd hst h.carriage
    · rfl
  · unfold homeSensed
    split
    · next hst _ => exact absurd hst h.carriage
    · rfl
  · simp [moveJams, h.carriage]

/-- The stroke's commands find no stroke, and the shaker's none driven. -/
theorem stroke_effects (h : Halted s) : seatedSensed s = s ∧ seatExpires s = s ∧ (∀ o, guardChanged o s = s) ∧
    s.lid.st ≠ .dwell ∧ s.shake.st ≠ .spinUp ∧ secondRun s = s ∧ runEnds s = s := by
  rcases h.lid with hl | hl <;> rcases h.shake with hs | hs <;>
    simp [seatedSensed, seatExpires, guardChanged, secondRun, runEnds, hl, hs]

theorem effect (hf : Effect f) (h : Halted s) : Halted (f s) := by
  obtain ⟨hturn, hsegment, hpulse⟩ := h.pump_effects
  obtain ⟨harrival, hhome, hjam⟩ := h.carriage_effects
  obtain ⟨hseated, hseat, hguard, hdwell, hspin, hsecond, hrun⟩ := h.stroke_effects
  have told {act : State → State} (hact : ∀ t, Halted t → Halted (act t)) (src : Station) :
      Halted (Machine.receive src (thenTell act) s) := h.receive src fun t ht => (hact t ht).tryBoth
  cases hf with
  | nothing => exact h
  | keepaliveLost => exact h.keepaliveLost
  | emergencyStop => exact keeps_ite (fun _ => h) fun hc => absurd h.estop hc
  | doorOpens => exact h.setPaused true
  | doorCloses => exact (h.setPaused false).restartChecks
  | ageStirs => exact h
  | stirrerRevolution i period =>
    obtain ⟨hfast, hslow, -, -⟩ := h.stir_effects i
    exact keeps_ite (fun _ => hfast.symm ▸ h) fun _ => hslow.symm ▸ h
  | slowStir i => rwa [(h.stir_effects i).2.1]
  | checkExpires i => rwa [(h.stir_effects i).2.2.1]
  | runExpires i => rwa [(h.stir_effects i).2.2.2]
  | turnDone => rwa [hturn]
  | countPulse i => rwa [hpulse i]
  | segmentEnds => rwa [hsegment]
  | takeSample raw => exact h.takeSample raw
  | blankExpires => exact h.of_unmoved
  | settleExpires => exact keeps_ite (fun _ => h.closeRequest.latch _ _) fun _ => h
  | dispTinOn => exact h.dispTinOn
  | dispTinOff => exact h.dispTinOff
  | drain => exact h.drain
  | moveStart => simpa [h.moveDue_eq] using h
  | takeDeferred o => rwa [h.takeDeferred_eq o]
  | arrivalSensed => rwa [harrival]
  | moveJams => rwa [hjam]
  | homeRunStart => simpa [h.homeRunDue_eq] using h
  | homeSensed => rwa [hhome]
  | lidRecheck => rwa [h.lidRecheck_eq]
  | pressStart => simpa [h.pressDue_eq] using h
  | seatedSensed => rwa [hseated]
  | seatExpires => rwa [hseat]
  | dwellExpiry => simpa [hdwell] using h
  | pressHomeSensed => exact h.pressHomeSensed
  | homeExpires => exact h.homeExpires
  | guardChanged o => rwa [hguard o]
  | lidTinOff => exact h.lidTinOff
  | clampSensed c => rwa [h.clampSensed_eq c]
  | clampExpires => exact h.clampExpires
  | spinUpStart => simpa [h.spinDue_eq] using h
  | measure period => exact h.measure period
  | saturatedSpeed => exact h.saturatedSpeed
  | spinUpTimeout => simpa [hspin] using h
  | secondRun => rwa [hsecond]
  | runEnds => rwa [hrun]
  | shakeTinOff => exact h.shakeTinOff
  | frameEnds => exact h.frameEnds
  | claimReceived src p a => exact told (fun _ ht => ht.of_unmoved) src
  | adjustReceived src p a => exact h.receive src fun _ => takeAdjust src p a
  | releaseReceived src p => exact told (fun _ ht => ht.of_unmoved) src
  | waitReceived src p a n => exact told (fun _ ht => ht.of_unmoved) src
  | beaconReceived src b => exact told (fun _ ht => ht.of_unmoved) src
  | startFrame | loseArbitration | transmitFails | discardFrame | beaconExpiry | ageOut | waitExpires => exact h.of_unmoved

/-- Every owner but the station's CLEAR_FAULT leaves a stop as it stands. -/
theorem answered (ha : Answered s t) (h : Halted s) (hstation : t ≠ clearStation s) : Halted t := by
  cases ha with
  | same => exact h
  | submitted j hroom => exact h
  | cancelled id e => exact cancelInBay (s := s.mapJobs _) e h
  | reprioritised id p => exact h
  | taken r rs hold => exact drain (s := s.mapCompletion _) h
  | takenLast r rs hold => exact clearFlag _ (drain (s := s.mapCompletion _) h)
  | loaded i hlevel hf => exact reportCanister i h.of_unmoved
  | levelled i hlevel => exact reportCanister i h.of_unmoved
  | faultCleared i => exact reportCanister (s := s.mapCan _ _) i h
  | missCleared i => exact h
  | calStarted i mask hempty => rcases h.disp with hd | hd <;> simp [hd] at hempty
  | calAborted hcal => rcases h.disp with hd | hd <;> simp [hd] at hcal
  | declared n =>
    have hdeclared : Halted (s.mapLid fun b => { b with declared := some n }) := h.mapLid h.lid rfl
    rwa [hdeclared.lidRecheck_eq]
  | events f => exact h
  | modeSet m =>
    have hmode : Halted (s.mapMon fun q => { q with mode := m }) := h
    rwa [hmode.withdrawStandingCall_eq]
  | bayCleared b => exact h.clearBay b
  | stationCleared => exact absurd rfl hstation
  | resumed => exact h
  | stored f => exact h

theorem keepDeferrals (h : Halted s) : Halted (Machine.keepDeferrals s) :=
  ((h.mapCarriage rfl rfl).mapLid h.lid rfl).mapShake_same rfl (.inl rfl) (.inl rfl)

theorem settle (h : Halted s) : Halted (Machine.settle s) := by
  unfold Machine.settle
  rw [grantStirs_eq h.estop, h.askTin_eq]
  split
  · exact h.keepDeferrals
  · exact h

theorem tick (h : Halted s) : Halted (Machine.tick s) := by
  have hstir : Halted (tickStir s) := by
    obtain ⟨he, hb, ⟨hp, hr, hrest⟩, hc⟩ := h
    exact ⟨he, hb, ⟨hp, by simp [tickStir, hr], hrest⟩, hc⟩
  have hpump : Halted (tickPump (tickStir s)) := by
    have hidle : tickPump (tickStir s) = tickStir s := by
      unfold tickPump
      rw [hstir.pump]
    rwa [hidle]
  have hcarriage : Halted (tickCarriage (tickScale (tickPump (tickStir s)))) :=
    mapCarriage (s := tickScale (tickPump (tickStir s))) hpump rfl rfl
  have hlid : Halted (tickLid (tickCarriage (tickScale (tickPump (tickStir s))))) := hcarriage.mapLid hcarriage.lid rfl
  have hshake : Halted (tickShake (tickLid (tickCarriage (tickScale (tickPump (tickStir s)))))) :=
    hlid.mapShake_same rfl (.inl rfl) (.inl rfl)
  unfold Machine.tick
  split
  · exact settle (of_unmoved hshake)
  · exact h

end Halted

/-! ## The stop applied -/

theorem haltLid_held (e : Bool) : (haltLid .stopped e s).lid.st = .stopped ∨ (haltLid .stopped e s).lid.st = .fault := by
  unfold haltLid
  split
  · exact .inl rfl
  · split
    · next hf => exact .inr hf
    · exact .inl rfl

theorem haltShake_held (e : Bool) :
    (haltShake .stopped e s).shake.st = .stopped ∨ (haltShake .stopped e s).shake.st = .fault := by
  unfold haltShake
  split
  · next hc => simpa [or_comm] using hc
  · exact .inl rfl

theorem interruptOp_op : (interruptOp s).pump.op = none := by
  unfold interruptOp
  split
  · assumption
  · rfl

theorem freeAllStirs_runs : (freeAllStirs s).stir.runs = [] := rfl

theorem jamByStop_still : (jamByStop s).carriage.st ≠ .moving := by
  unfold jamByStop
  split
  · simp [standStill]
  · assumption

theorem applyEstop_estop : (applyEstop s).mon.estop = true := rfl

/-- Held bays, freed stirrers and a standing carriage are all that the switched-off drives leave to be asked for. -/
theorem drivesOff_still (hdisp : s.disp.st = .stopped ∨ s.disp.st = .fault) (hlid : s.lid.st = .stopped ∨ s.lid.st = .fault)
    (hshake : s.shake.st = .stopped ∨ s.shake.st = .fault) (hruns : s.stir.runs = [])
    (hcarriage : s.carriage.st ≠ .moving) : Still (drivesOff s) :=
  ⟨⟨by simpa [drivesOff] using hdisp, by simpa [drivesOff] using hlid, by simpa [drivesOff] using hshake⟩,
    ⟨interruptOp_op, by simpa [drivesOff] using hruns, rfl, rfl, rfl, rfl⟩, by simpa [drivesOff] using hcarriage⟩

theorem releaseOrder_still (p : Pool) (h : Still s) : Still (releaseOrder p s) :=
  (still_congr (by simp) (by simp) (by simp) (by simp) (by simp) (by simp)).2 h

theorem flagEstop_halted (h : Still s) : Halted (setFlag .bayFault (s.mapMon fun m => { m with estop := true })) :=
  ⟨rfl, h⟩

/-- The stop brings everything to a stand, whatever it finds (R175). -/
theorem applyEstop_halted (s : State) : Halted (applyEstop s) := by
  unfold applyEstop
  refine flagEstop_halted (releaseOrder_still .air
    (drivesOff_still ?disp (haltLid_held true) ?shake ?runs ?carriage))
  case disp => simpa using haltDisp_held (.inl rfl)
  case shake => simpa using haltShake_held true
  case runs => simp [haltDisp_runs, freeAllStirs_runs]
  case carriage => simpa using jamByStop_still

/-! ## The carriage's drive -/

theorem carriageFits_congr (hc : t.carriage = s.carriage) : CarriageFits t ↔ CarriageFits s := by
  unfold CarriageFits
  rw [hc]

/-- A drive switched off fits any state of the carriage. -/
theorem carriageFits_of_off (h : s.carriage.drive = false) : CarriageFits s := fun hon => by simp [h] at hon

theorem carriageFits_mapCarriage {g : Carriage → Carriage} (hd : (g s.carriage).drive = s.carriage.drive)
    (hst : (g s.carriage).st = s.carriage.st) (h : CarriageFits s) : CarriageFits (s.mapCarriage g) := fun hon =>
  hst.trans (h (hd.symm.trans hon))

theorem carriageFits_ite {c : Prop} [Decidable c] {a b : State} (ha : CarriageFits a) (hb : CarriageFits b) :
    CarriageFits (if c then a else b) := by split <;> assumption

theorem setOff_carriageFits (m : Move) (r : Option TinRecord) (b : Option BayId) : CarriageFits (setOff m r b s) :=
  fun _ => rfl

theorem startMove_carriageFits (h : CarriageFits s) : CarriageFits (startMove s) := by
  unfold startMove
  split
  · exact setOff_carriageFits _ _ _
  · split
    · exact h
    · exact setOff_carriageFits _ _ _

theorem takeDeferred_carriageFits (o : StartOwner) (h : CarriageFits s) : CarriageFits (takeDeferred o s) := by
  unfold takeDeferred startCarriage
  cases o with
  | carriage =>
    exact carriageFits_ite (carriageFits_ite (startMove_carriageFits h)
      (carriageFits_ite (setOff_carriageFits _ _ _) h)) h
  | lid => exact carriageFits_ite h h
  | shake => exact carriageFits_ite h h

theorem takeAllDeferred_carriageFits (h : CarriageFits s) : CarriageFits (takeAllDeferred s) :=
  takeDeferred_carriageFits _ (takeDeferred_carriageFits _ (takeDeferred_carriageFits _ h))

theorem reportCanister_carriageFits (c : Slot) (h : CarriageFits s) : CarriageFits (reportCanister c s) := by
  have hjudged : CarriageFits (judgePassed s) := (carriageFits_congr (by simp)).2 h
  unfold reportCanister
  dsimp only
  split
  · split
    · refine carriageFits_ite ?_ hjudged
      refine (carriageFits_congr (by simp)).2 (takeAllDeferred_carriageFits (s := closeRequest (judgePassed s)) ?_)
      exact (carriageFits_congr (by simp)).2 h
    · exact hjudged
  · exact carriageFits_ite ((carriageFits_congr (by simp)).2 hjudged) hjudged
  · exact (carriageFits_congr (by simp)).2 hjudged
  · exact (carriageFits_congr (by simp)).2 hjudged
  · exact hjudged

theorem canisterFault_carriageFits (c : Slot) (why : CanFault) (h : CarriageFits s) :
    CarriageFits (canisterFault c why s) := by
  unfold canisterFault
  refine reportCanister_carriageFits c ?_
  repeat' split
  all_goals exact (carriageFits_congr (by simp)).2 h

theorem stirCompleted_carriageFits (c : Slot) (h : CarriageFits s) : CarriageFits (stirCompleted c s) :=
  reportCanister_carriageFits c ((carriageFits_congr (by simp)).2 h)

theorem standStill_off (x : CarriageState) : (standStill x s).carriage.drive = false := rfl

theorem handOver_off (m : Move) (r : TinRecord) (h : s.carriage.drive = false) :
    (handOver m r s).carriage.drive = false := by
  cases m <;> simpa [handOver] using h

theorem arrive_off (m : Move) : (arrive m s).carriage.drive = false := by
  unfold arrive
  dsimp only
  split
  · exact handOver_off _ _ rfl
  · rfl

theorem placeTin_carriage : (placeTin s).carriage.drive = s.carriage.drive ∧ (placeTin s).carriage.st = s.carriage.st := by
  unfold placeTin
  split
  · next m r _ _ => split <;> cases m <;> simp [handOver, handBack]
  · exact ⟨rfl, rfl⟩

theorem resolveCarriage_carriageFits (h : CarriageFits s) : CarriageFits (resolveCarriage s) := by
  obtain ⟨hdrive, hst⟩ := placeTin_carriage (s := s)
  unfold resolveCarriage
  split
  · exact carriageFits_mapCarriage rfl rfl fun hon => hst.trans (h (hdrive.symm.trans hon))
  · exact h

theorem slowStir_carriageFits (i : Slot) (h : CarriageFits s) : CarriageFits (slowStir i s) := by
  unfold slowStir
  split
  · exact h
  · exact carriageFits_ite h (carriageFits_ite (canisterFault_carriageFits _ _ h) h)

theorem fastStir_carriageFits (i : Slot) (h : CarriageFits s) : CarriageFits (fastStir i s) := by
  unfold fastStir
  split
  · exact h
  · exact carriageFits_ite (stirCompleted_carriageFits _ h) h

theorem checkExpires_carriageFits (i : Slot) (h : CarriageFits s) : CarriageFits (checkExpires i s) := by
  unfold checkExpires
  split
  · exact h
  · exact carriageFits_ite (canisterFault_carriageFits _ _ h) h

theorem runExpires_carriageFits (i : Slot) (h : CarriageFits s) : CarriageFits (runExpires i s) := by
  unfold runExpires
  split
  · exact h
  · exact carriageFits_ite h (stirCompleted_carriageFits _ h)

theorem receive_carriageFits {act : State → State} (src : Station) (hact : ∀ t, (act t).carriage = t.carriage)
    (h : CarriageFits s) : CarriageFits (receive src act s) := by
  refine (carriageFits_congr ?_).2 h
  unfold receive
  dsimp only
  repeat' split
  · rfl
  · rfl
  · simp
  · exact hact _

theorem effect_carriageFits (hf : Effect f) (h : CarriageFits s) : CarriageFits (f s) := by
  cases hf with
  | emergencyStop => exact carriageFits_ite h (carriageFits_of_off (applyEstop_halted s).2.2.1.2.2.1)
  | stirrerRevolution i period => exact carriageFits_ite (fastStir_carriageFits i h) (slowStir_carriageFits i h)
  | slowStir i => exact slowStir_carriageFits i h
  | checkExpires i => exact checkExpires_carriageFits i h
  | runExpires i => exact runExpires_carriageFits i h
  | moveStart => exact carriageFits_ite (startMove_carriageFits h) h
  | takeDeferred o => exact takeDeferred_carriageFits o h
  | arrivalSensed =>
    unfold arrivalSensed
    split
    · exact carriageFits_of_off (arrive_off _)
    · exact carriageFits_of_off (arrive_off _)
    · exact h
  | moveJams =>
    unfold moveJams
    dsimp only
    split
    · exact (carriageFits_congr (by simp)).2 (carriageFits_of_off (s := (((standStill .jammed s).mapCarriage fun c =>
        { c with cause := some .transfer, homeDue := false }).mapCarried (TinRecord.note .transferJam))) rfl)
    · exact h
  | homeRunStart => exact carriageFits_ite (setOff_carriageFits _ _ _) h
  | homeSensed =>
    unfold homeSensed
    split
    · exact carriageFits_of_off rfl
    · exact h
  | pressStart => exact carriageFits_ite h h
  | dwellExpiry => exact carriageFits_ite h h
  | spinUpStart => exact carriageFits_ite h h
  | spinUpTimeout => exact carriageFits_ite ((carriageFits_congr (by simp)).2 h) h
  | claimReceived src p a => exact receive_carriageFits src (fun t => by simp [thenTell]) h
  | adjustReceived src p a => exact receive_carriageFits src (fun t => by unfold takeAdjust; split <;> simp) h
  | releaseReceived src p => exact receive_carriageFits src (fun t => by simp [thenTell]) h
  | waitReceived src p a n => exact receive_carriageFits src (fun t => by simp [thenTell]) h
  | beaconReceived src b => exact receive_carriageFits src (fun t => by simp [thenTell]) h
  | _ => exact (carriageFits_congr (by simp)).2 h

/-- A cleared cause leaves the drive and the state of the carriage. -/
theorem clearJam_carriageFits (b : BayId) (h : CarriageFits s) : CarriageFits (clearJam b s) :=
  carriageFits_mapCarriage (by split <;> rfl) (by split <;> rfl) h

theorem clearBay_carriageFits (b : BayId) (h : CarriageFits s) : CarriageFits (clearBay b s) := by
  unfold clearBay
  split
  · exact h
  · have hjam : CarriageFits (clearJam b (s.setFault b none)) :=
      clearJam_carriageFits b ((carriageFits_congr (s := s) (by simp)).2 h)
    have hheld : CarriageFits (holdCleared b (clearJam b (s.setFault b none))) := (carriageFits_congr (by simp)).2 hjam
    exact (carriageFits_congr (by simp)).2 (resolveCarriage_carriageFits hheld)

theorem clearStation_carriageFits (h : CarriageFits s) : CarriageFits (clearStation s) := by
  unfold clearStation
  split
  · have hcause : CarriageFits ((s.mapMon fun m => { m with estop := false }).mapCarriage fun c =>
        if c.cause = some .estop then { c with cause := none } else c) :=
      carriageFits_mapCarriage (by split <;> rfl) (by split <;> rfl) h
    exact (carriageFits_congr (by simp)).2 (resolveCarriage_carriageFits hcause)
  · exact h

theorem answered_carriageFits (ha : Answered s t) (h : CarriageFits s) : CarriageFits t := by
  cases ha with
  | loaded i hlevel hf => exact reportCanister_carriageFits i ((carriageFits_congr (by simp)).2 h)
  | levelled i hlevel => exact reportCanister_carriageFits i ((carriageFits_congr (by simp)).2 h)
  | faultCleared i => exact reportCanister_carriageFits i ((carriageFits_congr (by simp)).2 h)
  | bayCleared b => exact clearBay_carriageFits b h
  | stationCleared => exact clearStation_carriageFits h
  | _ => exact (carriageFits_congr (by simp)).2 h

/-! ## The stop itself -/

theorem clearStation_estop : (clearStation s).mon.estop = false := by
  unfold clearStation
  split
  · simp
  · next h => simpa using h

theorem answered_estop (ha : Answered s t) (ht : t ≠ clearStation s) : t.mon.estop = s.mon.estop := by
  cases ha with
  | stationCleared => exact absurd rfl ht
  | _ => simp

theorem answered_stopHolds (ha : Answered s t) (h : StopHolds s) : StopHolds t := by
  by_cases ht : t = clearStation s
  · subst ht
    exact ⟨clearStation_carriageFits h.1, fun hon => by simp [clearStation_estop] at hon⟩
  · exact stopHolds_of (answered_carriageFits ha) (answered_estop ha ht) (fun hh => hh.answered ha ht) h

/-- A notice leaves ESTOP if what it makes of the roster does. -/
theorem receive_estop {act : State → State} (src : Station) (hact : ∀ t, (act t).mon.estop = t.mon.estop) :
    (receive src act s).mon.estop = s.mon.estop := by
  unfold receive
  dsimp only
  repeat' split
  · rfl
  · rfl
  · simp
  · exact hact _

/-- No effect but the emergency stop itself touches ESTOP. -/
theorem effect_estop (hf : Effect f) (hne : f ≠ fun t => if t.mon.estop then t else applyEstop t) :
    (f s).mon.estop = s.mon.estop := by
  cases hf with
  | emergencyStop => exact absurd rfl hne
  | stirrerRevolution | moveStart | homeRunStart | pressStart | dwellExpiry | spinUpStart | spinUpTimeout =>
    dsimp only
    split <;> simp
  | claimReceived src p a => exact receive_estop src fun t => by simp [thenTell]
  | adjustReceived src p a => exact receive_estop src fun t => by unfold takeAdjust; split <;> simp
  | releaseReceived src p => exact receive_estop src fun t => by simp [thenTell]
  | waitReceived src p a n => exact receive_estop src fun t => by simp [thenTell]
  | beaconReceived src b => exact receive_estop src fun t => by simp [thenTell]
  | _ => simp

theorem stopHolds_of_halted (h : Halted s) : StopHolds s :=
  ⟨fun hon => absurd (h.2.2.1.2.2.1.symm.trans hon) (by simp), fun _ => h.2⟩

theorem effect_stopHolds (hf : Effect f) (h : StopHolds s) : StopHolds (f s) := by
  by_cases hstop : f = fun t => if t.mon.estop then t else applyEstop t
  · subst hstop
    exact keeps_ite (fun _ => h) fun _ => stopHolds_of_halted (applyEstop_halted s)
  · exact stopHolds_of (effect_carriageFits hf) (effect_estop hf hstop) (fun hh => hh.effect hf) h

theorem keepDeferrals_carriageFits (h : CarriageFits s) : CarriageFits (keepDeferrals s) := fun hon => h hon

theorem settle_carriageFits (h : CarriageFits s) : CarriageFits (settle s) := by
  unfold settle
  split
  · exact keepDeferrals_carriageFits ((carriageFits_congr (by simp)).2 h)
  · exact h

theorem settle_estop : (settle s).mon.estop = s.mon.estop := by
  unfold settle
  split <;> simp

theorem tick_estop : (tick s).mon.estop = s.mon.estop := by
  unfold tick
  split
  · rw [settle_estop]
    simp
  · rfl

theorem settle_stopHolds (h : StopHolds s) : StopHolds (settle s) :=
  stopHolds_of settle_carriageFits settle_estop Halted.settle h

theorem tick_carriageFits (h : CarriageFits s) : CarriageFits (tick s) := by
  have hmoved : CarriageFits (tickCarriage (tickScale (tickPump (tickStir s)))) :=
    carriageFits_mapCarriage (s := tickScale (tickPump (tickStir s))) rfl rfl ((carriageFits_congr (by simp)).2 h)
  unfold tick
  split
  · exact settle_carriageFits ((carriageFits_congr (by simp)).2 hmoved)
  · exact h

theorem tick_stopHolds (h : StopHolds s) : StopHolds (tick s) :=
  stopHolds_of tick_carriageFits tick_estop Halted.tick h

/-- No drive and no stop: a part just reset. -/
theorem stopHolds_of_rest (hd : s.carriage.drive = false) (he : s.mon.estop = false) : StopHolds s :=
  ⟨fun hon => absurd (hd.symm.trans hon) (by simp), fun hon => absurd (he.symm.trans hon) (by simp)⟩

theorem startOnline_stopHolds (hd : s.carriage.drive = false) (he : s.mon.estop = false) :
    StopHolds (startOnline s) := by
  unfold startOnline
  dsimp only
  split
  · exact stopHolds_of_halted (applyEstop_halted _)
  · exact stopHolds_of_rest (by simpa using hd) (by simpa using he)

theorem startUp_stopHolds (i : Inputs) : StopHolds (startUp i s) := by
  unfold startUp
  dsimp only
  split
  · exact stopHolds_of_rest (by split <;> rfl) (by split <;> rfl)
  · exact startOnline_stopHolds (by split <;> rfl) (by split <;> rfl)

theorem closedUnder_stop : ClosedUnder StopHolds where
  effect := effect_stopHolds
  answered := answered_stopHolds
  settle := settle_stopHolds
  reset _ := stopHolds_of_rest rfl rfl
  startUp i _ _ := startUp_stopHolds i
  phase _ _ h := h
  inputs _ _ h := h
  store _ _ h := h
  port _ _ h := h
  free _ _ h := h
  keepalive h := stopHolds_of (carriageFits_congr (by simp)).2 (by simp) (fun hh => hh.of_unmoved) h

/-- Settles O60: what is held stays held under every operation, and the stop holds whatever it finds. -/
theorem everyStepKeepsTheStop : Obligations.EveryStepKeepsTheStop := by
  unfold Obligations.EveryStepKeepsTheStop
  intro s t hstep hstop
  exact closedUnder_stop.step (fun _ h => h) tick_stopHolds hstep hstop

end Sys2Proof.Proofs
end

