-- ==== Sys2Proof/Proofs/JobQueue.lean ====
section
/-! PROOF. The operations on the job queue keep its order, the ids apart and the places within their number (R5 to R11),
and among 64 candidates one is free for a new job (R6). -/

namespace Sys2Proof.Proofs

open Sys2Proof Sys2Proof.Machine Sys2Proof.Safety Sys2Proof.Laws

variable {s : State} {q : JobQueue} {j : Job} {l : List Job} {id : Nat}

/-- Jobs in the order of R8. -/
def InOrder (l : List Job) : Prop := l.Pairwise fun a b => b.before a = false

/-- The ids of the records and of the reserved places. -/
def ids (q : JobQueue) : List Nat := (q.records ++ q.reserved).map (·.id)

/-- What `JobsOrdered` asks of the job queue. -/
structure QueueOrdered (q : JobQueue) : Prop where
  fits : jobsFit q
  order : InOrder q.records
  distinct : (ids q).Nodup

theorem jobsOrdered_iff : JobsOrdered s ↔ QueueOrdered s.jobs ∧ recordsFit s.completion := by
  have hids : (ids s.jobs).Nodup ↔ (s.jobs.records ++ s.jobs.reserved).Pairwise fun a b => a.id ≠ b.id :=
    List.pairwise_map
  constructor
  · rintro ⟨hfit, hrec, horder, hdist⟩
    exact ⟨⟨hfit, horder, hids.2 hdist⟩, hrec⟩
  · rintro ⟨⟨hfit, horder, hdist⟩, hrec⟩
    exact ⟨hfit, hrec, horder, hids.1 hdist⟩

/-! ## The order of R8 -/

theorem before_iff (a b : Job) :
    a.before b = true ↔ a.priority < b.priority ∨ a.priority = b.priority ∧ a.arrival < b.arrival := by
  simp [Job.before]

theorem not_before_iff (a b : Job) :
    a.before b = false ↔ ¬ (a.priority < b.priority ∨ a.priority = b.priority ∧ a.arrival < b.arrival) := by
  rw [← before_iff, Bool.not_eq_true]

theorem not_before_of_before {a b : Job} (h : a.before b = true) : b.before a = false := by
  rw [before_iff] at h
  rw [not_before_iff]
  omega

theorem not_before_trans {a b c : Job} (hab : b.before a = false) (hbc : c.before b = false) : c.before a = false := by
  rw [not_before_iff] at *
  omega

theorem insertJob_perm (j : Job) (l : List Job) : (insertJob j l).Perm (j :: l) := by
  induction l with
  | nil => exact .refl _
  | cons k ks ih =>
    unfold insertJob
    split
    · exact .refl _
    · exact (ih.cons k).trans (.swap j k ks)

theorem insertJob_inOrder (h : InOrder l) : InOrder (insertJob j l) := by
  induction l with
  | nil => exact List.pairwise_singleton _ _
  | cons k ks ih =>
    obtain ⟨hk, hks⟩ := List.pairwise_cons.1 h
    unfold insertJob
    split
    · next hjk =>
      refine List.pairwise_cons.2 ⟨fun b hb => ?_, h⟩
      rcases List.mem_cons.1 hb with rfl | hb
      · exact not_before_of_before hjk
      · exact not_before_trans (not_before_of_before hjk) (hk b hb)
    · next hjk =>
      refine List.pairwise_cons.2 ⟨fun b hb => ?_, ih hks⟩
      rcases List.mem_cons.1 ((insertJob_perm j ks).mem_iff.1 hb) with rfl | hb
      · simpa using hjk
      · exact hk b hb

/-- A change that leaves the order between any two jobs of the list leaves the list in order. -/
theorem map_inOrder {g : Job → Job} (h : InOrder l)
    (hg : ∀ a ∈ l, ∀ b ∈ l, b.before a = false → (g b).before (g a) = false) : InOrder (l.map g) := by
  unfold InOrder
  rw [List.pairwise_map]
  exact h.imp_of_mem fun {a b} ha hb hab => hg a ha b hb hab

theorem before_congr {a a' b b' : Job} (hap : a'.priority = a.priority) (haa : a'.arrival = a.arrival)
    (hbp : b'.priority = b.priority) (hba : b'.arrival = b.arrival) : b'.before a' = b.before a := by
  simp [Job.before, hap, haa, hbp, hba]

/-! ## Ids -/

theorem nodup_sublist {l' : List Job} (h : (l.map (·.id)).Nodup) (hs : l'.Sublist l) : (l'.map (·.id)).Nodup :=
  h.sublist (hs.map _)

theorem nodup_perm {l' : List Job} (h : (l.map (·.id)).Nodup) (hp : l'.Perm l) : (l'.map (·.id)).Nodup :=
  (hp.map _).nodup_iff.2 h

theorem map_ids {g : Job → Job} (hg : ∀ k, (g k).id = k.id) : (l.map g).map (·.id) = l.map (·.id) := by
  simp [Function.comp_def, hg]

/-- Two jobs of one queue with one id are one job. -/
theorem eq_of_id {a b : Job} (h : (l.map (·.id)).Nodup) (ha : a ∈ l) (hb : b ∈ l) (hid : a.id = b.id) : a = b :=
  List.inj_on_of_nodup_map h ha hb hid

/-- A job taken out of a list by its id leaves the others, none of its id among them. -/
theorem cons_filter_nodup (hl : (l.map (·.id)).Nodup) (hj : j.id = id) :
    ((j :: l.filter (·.id != id)).map (·.id)).Nodup := by
  refine List.nodup_cons.2 ⟨fun hmem => ?_, nodup_sublist hl List.filter_sublist⟩
  obtain ⟨k, hk, hkid⟩ := List.mem_map.1 hmem
  have hne := (List.mem_filter.1 hk).2
  simp [hkid, hj] at hne

/-! ## The queue's operations -/

/-- A queue within its places whose records and reserved places are part of an ordered one's. -/
theorem QueueOrdered.of_sublist {q' : JobQueue} (h : QueueOrdered q) (hrec : q'.records.Sublist q.records)
    (hres : q'.reserved.Sublist q.reserved) : QueueOrdered q' := by
  obtain ⟨hfit, horder, hdist⟩ := h
  refine ⟨?_, horder.sublist hrec, nodup_sublist hdist (hrec.append hres)⟩
  have hlrec := hrec.length_le
  have hlres := hres.length_le
  unfold jobsFit JobQueue.places at *
  omega

theorem releaseReserved_ordered (p : Job → Bool) (h : QueueOrdered q) :
    QueueOrdered { q with reserved := q.reserved.filter p } :=
  h.of_sublist (.refl _) List.filter_sublist

theorem removeJob_ordered (id : Nat) (h : QueueOrdered q) : QueueOrdered (removeJob id q) :=
  h.of_sublist List.filter_sublist List.filter_sublist

theorem issueTin_ordered (hj : firstEligible q = some j) (h : QueueOrdered q) : QueueOrdered (issueTin j q) := by
  have hmem : j ∈ q.records := List.mem_of_find?_eq_some hj
  obtain ⟨hfit, horder, hdist⟩ := h
  have hrecords : (q.records.map (·.id)).Nodup := nodup_sublist hdist (List.sublist_append_left _ _)
  refine ⟨issueTin_fits hj hfit, ?order, ?distinct⟩
  case order =>
    unfold issueTin
    dsimp only
    split
    · exact horder.filter _
    · refine map_inOrder horder fun a ha b hb hab => ?_
      have hkeep : ∀ k ∈ q.records, (if k.id == j.id then { j with issued := j.issued + 1 } else k).priority = k.priority ∧
          (if k.id == j.id then { j with issued := j.issued + 1 } else k).arrival = k.arrival := by
        intro k hk
        split
        · next hid =>
          cases eq_of_id hrecords hk hmem (by simpa using hid)
          exact ⟨rfl, rfl⟩
        · exact ⟨rfl, rfl⟩
      rw [before_congr (hkeep a ha).1 (hkeep a ha).2 (hkeep b hb).1 (hkeep b hb).2]
      exact hab
  case distinct =>
    unfold issueTin
    dsimp only
    split
    · have hout : ((j :: (q.records ++ q.reserved).filter (·.id != j.id)).map (·.id)).Nodup :=
        cons_filter_nodup hdist rfl
      have hres : q.reserved.filter (·.id != j.id) = q.reserved := by
        refine List.filter_eq_self.2 fun k hk => ?_
        have hne : j.id ≠ k.id := by
          have happ := List.nodup_append.1 (by simpa [ids] using hdist)
          exact happ.2.2 _ (List.mem_map_of_mem hmem) _ (List.mem_map_of_mem hk)
        simpa using hne.symm
      rw [List.filter_append, hres] at hout
      refine (List.Perm.nodup_iff ?_).2 hout
      unfold ids
      simp only [List.map_append, List.map_cons, List.map_nil, ← List.append_assoc]
      exact List.perm_append_singleton _ _
    · unfold ids
      rw [List.map_append, map_ids, ← List.map_append]
      · exact hdist
      · intro k
        split
        · next hid => simpa using (by simpa using hid : k.id = j.id).symm
        · rfl

theorem reserved?_spec (h : q.reserved? id = some j) : j ∈ q.reserved ∧ j.id = id :=
  ⟨List.mem_of_find?_eq_some h, by simpa using List.find?_some h⟩

theorem record?_spec (h : q.record? id = some j) : j ∈ q.records ∧ j.id = id :=
  ⟨List.mem_of_find?_eq_some h, by simpa using List.find?_some h⟩

theorem returnTin_ordered (id : Nat) (h : QueueOrdered q) : QueueOrdered (returnTin id q) := by
  obtain ⟨hfit, horder, hdist⟩ := h
  refine ⟨returnTin_fits hfit, ?order, ?distinct⟩
  case order =>
    unfold returnTin
    split
    · exact insertJob_inOrder horder
    · exact map_inOrder horder fun a _ b _ hab =>
        (before_congr (by split <;> rfl) (by split <;> rfl) (by split <;> rfl) (by split <;> rfl)).trans hab
  case distinct =>
    unfold returnTin
    split
    · next j hj =>
      obtain ⟨hmem, hid⟩ := reserved?_spec hj
      have hout : ((j :: (q.records ++ q.reserved).filter (·.id != id)).map (·.id)).Nodup := cons_filter_nodup hdist hid
      have hrec : q.records.filter (·.id != id) = q.records := by
        refine List.filter_eq_self.2 fun k hk => ?_
        have happ := List.nodup_append.1 (by simpa [ids] using hdist)
        simpa [← hid] using happ.2.2 _ (List.mem_map_of_mem hk) _ (List.mem_map_of_mem hmem)
      rw [List.filter_append, hrec] at hout
      refine (List.Perm.nodup_iff ?_).2 hout
      exact ((insertJob_perm _ _).append_right _).map (·.id)
    · unfold ids
      rw [List.map_append, map_ids, ← List.map_append]
      · exact hdist
      · intro k
        split <;> rfl

theorem reprioritise_ordered (id p : Nat) (h : QueueOrdered q) : QueueOrdered (reprioritise id p q) := by
  obtain ⟨hfit, horder, hdist⟩ := h
  have hres : (q.reserved.map fun k => if k.id == id then { k with priority := p } else k).map (·.id) =
      q.reserved.map (·.id) := map_ids fun k => by split <;> rfl
  refine ⟨reprioritise_fits hfit, ?order, ?distinct⟩
  case order =>
    unfold reprioritise
    dsimp only
    split
    · exact insertJob_inOrder (horder.filter _)
    · exact horder
  case distinct =>
    unfold reprioritise ids
    dsimp only
    split
    · next j hj =>
      obtain ⟨hmem, hid⟩ := record?_spec hj
      have hout : ((j :: (q.records ++ q.reserved).filter (·.id != id)).map (·.id)).Nodup := cons_filter_nodup hdist hid
      have hkeep : q.reserved.filter (·.id != id) = q.reserved := by
        refine List.filter_eq_self.2 fun k hk => ?_
        have happ := List.nodup_append.1 (by simpa [ids] using hdist)
        simpa [← hid] using (happ.2.2 _ (List.mem_map_of_mem hmem) _ (List.mem_map_of_mem hk)).symm
      rw [List.filter_append, hkeep] at hout
      refine (List.Perm.nodup_iff ?_).2 hout
      rw [List.map_append, hres, ← List.map_append]
      exact ((insertJob_perm _ _).append_right _).map (·.id)
    · rw [List.map_append, hres, ← List.map_append]
      exact hdist

/-! ## A new job -/

theorem arrivalRank_mono {a b : Job} (all : List Job) (h : a.arrival ≤ b.arrival) :
    arrivalRank all a ≤ arrivalRank all b := by
  unfold arrivalRank
  refine (List.monotone_filter_right all fun k hk => ?_).length_le
  simp only [decide_eq_true_eq] at *
  omega

theorem renumber_ordered (h : QueueOrdered q) : QueueOrdered (renumber q) := by
  obtain ⟨hfit, horder, hdist⟩ := h
  refine ⟨?fits, ?order, ?distinct⟩
  case fits => simpa [renumber, jobsFit, JobQueue.places] using hfit
  case order =>
    refine map_inOrder horder fun a _ b _ hab => ?_
    have hmono := arrivalRank_mono (a := a) (b := b) (q.records ++ q.reserved)
    rw [not_before_iff] at *
    dsimp only
    omega
  case distinct => simpa [renumber, ids, Function.comp_def] using hdist

theorem stepArrival_ordered (h : QueueOrdered q) : QueueOrdered (stepArrival q) := by
  unfold stepArrival
  split
  · exact renumber_ordered h
  · exact ⟨h.fits, h.order, h.distinct⟩

theorem enqueue_ordered (hroom : ¬ Config.jobPlaces ≤ q.places) (hfresh : j.id ∉ ids q) (h : QueueOrdered q) :
    QueueOrdered (enqueue j q) := by
  obtain ⟨-, horder, hdist⟩ := h
  refine stepArrival_ordered ⟨?fits, insertJob_inOrder horder, ?distinct⟩
  case fits =>
    unfold jobsFit JobQueue.places at *
    dsimp only
    rw [insertJob_length]
    omega
  case distinct =>
    have hcons : ((j :: q.records ++ q.reserved).map (·.id)).Nodup := List.nodup_cons.2 ⟨hfresh, hdist⟩
    exact nodup_perm hcons ((insertJob_perm _ _).append_right _)

/-! ## A free id (R6) -/

/-- The ids of the tins on the station. -/
def tinIds (s : State) : List Nat :=
  [s.disp.tin, s.carriage.tin, s.lid.tin, s.shake.tin].filterMap fun t => t.map (·.jobId)

/-- All that a new id must differ from: 0, the jobs, the tins and the records waiting. -/
def takenIds (s : State) : List Nat := 0 :: (ids s.jobs ++ tinIds s ++ s.completion.map (·.jobId))

theorem holdsJob_iff {t : Option TinRecord} : holdsJob id t = true ↔ ∃ r, t = some r ∧ r.jobId = id := by
  cases t <;> simp [holdsJob]

theorem taken_iff : (id = 0 ∨ idPresent s id = true) ↔ id ∈ takenIds s := by
  simp only [idPresent, takenIds, ids, tinIds, Bool.or_eq_true, holdsJob_iff, List.mem_cons, List.mem_append,
    List.mem_map, List.any_eq_true, List.mem_filterMap, Option.map_eq_some_iff, beq_iff_eq, List.not_mem_nil, or_false]
  grind

theorem takenIds_length (hjobs : jobsFit s.jobs) (hrec : recordsFit s.completion) : (takenIds s).length ≤ 45 := by
  have htins : (tinIds s).length ≤ 4 := List.length_filterMap_le _ _
  have hfew : s.jobs.records.length + s.jobs.reserved.length ≤ 24 := hjobs
  have hwait : s.completion.length ≤ 16 := hrec
  simp only [takenIds, ids, List.length_cons, List.length_append, List.length_map]
  omega

theorem freeId_eq (n c : Nat) (s : State) :
    freeId s (n + 1) c = if c ∈ takenIds s then freeId s n (nextCandidate c) else c := by
  rw [freeId]
  simp [← taken_iff]

/-- The search ends at an id that is free, or it has passed over every candidate. -/
theorem freeId_free_or_taken (n : Nat) :
    ∀ c, freeId s n c ∉ takenIds s ∨ ∀ k < n, nextCandidate^[k] c ∈ takenIds s := by
  induction n with
  | zero => exact fun c => .inr fun k hk => absurd hk (by omega)
  | succ n ih =>
    intro c
    rw [freeId_eq]
    split
    · next hc =>
      rcases ih (nextCandidate c) with hfree | htaken
      · exact .inl hfree
      · refine .inr fun k hk => ?_
        cases k with
        | zero => exact hc
        | succ k => exact htaken k (by omega)
    · next hc => exact .inl hc

/-- The candidates after the first go round from 1 to 65535. -/
theorem nextCandidate_iterate (c k : Nat) :
    nextCandidate^[k + 1] c = ((if 65535 ≤ c then 0 else c) + k) % 65535 + 1 := by
  induction k with
  | zero =>
    change nextCandidate c = _
    unfold nextCandidate
    split <;> omega
  | succ k ih =>
    rw [Function.iterate_succ_apply', ih]
    generalize (if 65535 ≤ c then 0 else c) = b
    unfold nextCandidate
    split <;> omega

theorem nextCandidate_ne (c : Nat) {k : Nat} (hk : k < 64) : nextCandidate^[k + 1] c ≠ c := by
  rw [nextCandidate_iterate]
  split <;> omega

/-- 64 candidates in a row are different. -/
theorem nextCandidate_injective {c i j : Nat} (hi : i < 64) (hj : j < 64)
    (h : nextCandidate^[i] c = nextCandidate^[j] c) : i = j := by
  cases i with
  | zero =>
    cases j with
    | zero => rfl
    | succ j => exact absurd h.symm (nextCandidate_ne c (by omega))
  | succ i =>
    cases j with
    | zero => exact absurd h (nextCandidate_ne c (by omega))
    | succ j =>
      rw [nextCandidate_iterate, nextCandidate_iterate] at h
      split at h <;> omega

/-- Among 64 candidates one is free while the queues are within their lengths. -/
theorem freeId_free (hjobs : jobsFit s.jobs) (hrec : recordsFit s.completion) (c : Nat) :
    freeId s 64 c ∉ takenIds s := by
  rcases freeId_free_or_taken (s := s) 64 c with hfree | htaken
  · exact hfree
  · have hsub : (Finset.range 64).image (fun k => nextCandidate^[k] c) ⊆ (takenIds s).toFinset := by
      intro x hx
      obtain ⟨k, hk, rfl⟩ := Finset.mem_image.1 hx
      exact List.mem_toFinset.2 (htaken k (Finset.mem_range.1 hk))
    have hcard : ((Finset.range 64).image fun k => nextCandidate^[k] c).card = 64 := by
      rw [Finset.card_image_of_injOn, Finset.card_range]
      exact fun i hi j hj hij => nextCandidate_injective (Finset.mem_range.1 hi) (Finset.mem_range.1 hj) hij
    have hlen := (List.toFinset_card_le (takenIds s)).trans (takenIds_length hjobs hrec)
    have hle := Finset.card_le_card hsub
    omega

theorem identified_fresh (hjobs : jobsFit s.jobs) (hrec : recordsFit s.completion) (j : Job) :
    (identified s j).id ∉ ids s.jobs := fun hmem =>
  freeId_free hjobs hrec s.jobs.nextId (by simp [takenIds, show freeId s 64 s.jobs.nextId ∈ ids s.jobs from hmem])

end Sys2Proof.Proofs
end

