-- ==== Sys2Proof/Proofs/JobOrder.lean ====
section
/-! PROOF. Every operation leaves the job queue in order and the waiting records within their places. -/

namespace Sys2Proof.Proofs

open Sys2Proof Sys2Proof.Machine Sys2Proof.Safety Sys2Proof.Laws

variable {s t : State} {f : State → State}

/-! ## The job queue -/

@[simp] theorem askTin_queue (h : QueueOrdered s.jobs) : QueueOrdered (askTin s).jobs := by
  unfold askTin
  split
  · split
    · exact h
    · next j hj => exact issueTin_ordered hj h
  · exact h

@[simp] theorem commitTin_queue (id : Nat) (h : QueueOrdered s.jobs) : QueueOrdered (commitTin id s).jobs :=
  releaseReserved_ordered _ h

@[simp] theorem withdrawTin_queue (h : QueueOrdered s.jobs) : QueueOrdered (withdrawTin s).jobs := by
  unfold withdrawTin
  split
  · exact h
  · dsimp only
    split
    · exact h
    · exact returnTin_ordered _ h

/-- A canister's fault leaves the queue. -/
@[simp] theorem markFaulted_jobs (i : Slot) (why : CanFault) (s : State) : (markFaulted i why s).jobs = s.jobs := by
  simp [markFaulted]

@[simp] theorem withdrawCall_queue (h : QueueOrdered s.jobs) : QueueOrdered (withdrawCall s).jobs :=
  withdrawTin_queue h

@[simp] theorem withdrawStandingCall_queue (h : QueueOrdered s.jobs) : QueueOrdered (withdrawStandingCall s).jobs := by
  unfold withdrawStandingCall
  repeat' split
  all_goals simp (maxDischargeDepth := 30) [h]

@[simp] theorem beginShot_queue (i : Nat) (l : LineEntry) (v : Nat) (before : Option Int) (h : QueueOrdered s.jobs) : QueueOrdered (beginShot i l v before s).jobs := by
  unfold beginShot
  repeat' split
  all_goals simp (maxDischargeDepth := 30) [h]

@[simp] theorem debitStage_queue (i : Nat) (l : LineEntry) (v : Nat) (before : Option Int) (h : QueueOrdered s.jobs) : QueueOrdered (debitStage i l v before s).jobs := by
  unfold debitStage
  repeat' split
  all_goals simp (maxDischargeDepth := 30) [h]

@[simp] theorem takeLine_queue (i : Nat) (l : LineEntry) (h : QueueOrdered s.jobs) : QueueOrdered (takeLine i l s).jobs := by
  unfold takeLine
  repeat' split
  all_goals simp (maxDischargeDepth := 30) [h]

@[simp] theorem selectFrom_queue (is : List Nat) (h : QueueOrdered s.jobs) : QueueOrdered (selectFrom is s).jobs := by
  induction is generalizing s with
  | nil => exact h
  | cons i is ih =>
    unfold selectFrom
    dsimp only
    repeat' split
    · exact ih h
    · exact takeLine_queue _ _ h
    · exact ih (takeLine_queue _ _ h)
    · exact ih h

@[simp] theorem selectLine_queue (h : QueueOrdered s.jobs) : QueueOrdered (selectLine s).jobs := by
  unfold selectLine
  split
  · exact h
  · simpa using selectFrom_queue _ (s := s.mapDisp _) h

@[simp] theorem retakeLine_queue (i : Nat) (l : LineEntry) (h : QueueOrdered s.jobs) : QueueOrdered (retakeLine i l s).jobs := by
  unfold retakeLine
  dsimp only
  repeat' split
  all_goals simp (maxDischargeDepth := 30) [h]

@[simp] theorem acceptTin_queue (r : Int) (t : TinRecord) (h : QueueOrdered s.jobs) : QueueOrdered (acceptTin r t s).jobs := by
  have hlooked (ls : List LineEntry) : ∀ u : State, (ls.foldl (fun v l => lookAhead l v) u).jobs = u.jobs := by
    induction ls with
    | nil => exact fun _ => rfl
    | cons l ls ih => exact fun u => (ih _).trans (by simp)
  refine selectLine_queue ?_
  rw [hlooked]
  simpa using h

@[simp] theorem judgeTare_queue (r : Int) (h : QueueOrdered s.jobs) : QueueOrdered (judgeTare r s).jobs := by
  unfold judgeTare
  dsimp only
  repeat' split
  all_goals simp (maxDischargeDepth := 30) [h]

@[simp] theorem topUpNow_queue (i : Nat) (l : LineEntry) (p : LinePlan) (g : Int) (h : QueueOrdered s.jobs) : QueueOrdered (topUpNow i l p g s).jobs := by
  unfold topUpNow
  dsimp only
  repeat' split
  all_goals simp (maxDischargeDepth := 30) [h]

@[simp] theorem endWeighed_queue (i : Nat) (l : LineEntry) (v : LineVerdict) (j : Judgement) (h : QueueOrdered s.jobs) : QueueOrdered (endWeighed i l v j s).jobs := by
  unfold endWeighed
  repeat' split
  all_goals simp (maxDischargeDepth := 30) [h]

@[simp] theorem judgeReading_queue (i : Nat) (l : LineEntry) (p : LinePlan) (r : Int) (h : QueueOrdered s.jobs) : QueueOrdered (judgeReading i l p r s).jobs := by
  unfold judgeReading
  dsimp only
  repeat' split
  all_goals simp (maxDischargeDepth := 30) [h]

@[simp] theorem lineAnswer_queue (r : Int) (h : QueueOrdered s.jobs) : QueueOrdered (lineAnswer r s).jobs := by
  unfold lineAnswer
  dsimp only
  repeat' split
  all_goals simp (maxDischargeDepth := 30) [h]

@[simp] theorem answerRequest_queue (r : Int) (h : QueueOrdered s.jobs) : QueueOrdered (answerRequest r s).jobs := by
  unfold answerRequest
  repeat' split
  all_goals simp (maxDischargeDepth := 30) [h]

@[simp] theorem shotDone_queue (h : QueueOrdered s.jobs) : QueueOrdered (shotDone s).jobs := by
  unfold shotDone
  repeat' split
  all_goals simp (maxDischargeDepth := 30) [h]

@[simp] theorem opCompleted_queue (h : QueueOrdered s.jobs) : QueueOrdered (opCompleted s).jobs := by
  unfold opCompleted
  repeat' split
  all_goals simp (maxDischargeDepth := 30) [h]

@[simp] theorem commitTaken_queue (t : TinRecord) (h : QueueOrdered s.jobs) : QueueOrdered (commitTaken t s).jobs := by
  unfold commitTaken
  repeat' split
  all_goals simp (maxDischargeDepth := 30) [h]

@[simp] theorem startMove_queue (h : QueueOrdered s.jobs) : QueueOrdered (startMove s).jobs := by
  unfold startMove
  repeat' split
  all_goals simp (maxDischargeDepth := 30) [h]

@[simp] theorem startCarriage_queue (h : QueueOrdered s.jobs) : QueueOrdered (startCarriage s).jobs := by
  unfold startCarriage
  repeat' split
  all_goals simp (maxDischargeDepth := 30) [h]

@[simp] theorem takeDeferred_queue (o : StartOwner) (h : QueueOrdered s.jobs) : QueueOrdered (takeDeferred o s).jobs := by
  unfold takeDeferred
  repeat' split
  all_goals simp (maxDischargeDepth := 30) [h]

@[simp] theorem takeAllDeferred_queue (h : QueueOrdered s.jobs) : QueueOrdered (takeAllDeferred s).jobs :=
  takeDeferred_queue _ (takeDeferred_queue _ (takeDeferred_queue _ h))

@[simp] theorem reportCanister_queue (c : Slot) (h : QueueOrdered s.jobs) : QueueOrdered (reportCanister c s).jobs := by
  unfold reportCanister
  dsimp only
  repeat' split
  all_goals simp (maxDischargeDepth := 30) [h]

@[simp] theorem canisterFault_queue (c : Slot) (why : CanFault) (h : QueueOrdered s.jobs) : QueueOrdered (canisterFault c why s).jobs := by
  unfold canisterFault
  dsimp only
  repeat' split
  all_goals simp (maxDischargeDepth := 30) [h]

@[simp] theorem stirCompleted_queue (c : Slot) (h : QueueOrdered s.jobs) : QueueOrdered (stirCompleted c s).jobs :=
  reportCanister_queue c (by simpa using h)

@[simp] theorem closeLost_queue (h : QueueOrdered s.jobs) : QueueOrdered (closeLost s).jobs := by
  unfold closeLost
  repeat' split
  all_goals simp (maxDischargeDepth := 30) [h]

@[simp] theorem closeFound_queue (b : BayId) (h : QueueOrdered s.jobs) : QueueOrdered (closeFound b s).jobs := by
  unfold closeFound
  repeat' split
  all_goals simp (maxDischargeDepth := 30) [h]

@[simp] theorem loseDisp_queue (h : QueueOrdered s.jobs) : QueueOrdered (loseDisp s).jobs := by
  unfold loseDisp
  repeat' split
  all_goals simp (maxDischargeDepth := 30) [h]

@[simp] theorem returnToCalled_queue (h : QueueOrdered s.jobs) : QueueOrdered (returnToCalled s).jobs := by
  unfold returnToCalled
  split
  · exact h
  · split
    · exact withdrawCall_queue h
    · split
      · simpa using h
      · exact h

@[simp] theorem resumeLine_queue (h : QueueOrdered s.jobs) : QueueOrdered (resumeLine s).jobs := by
  unfold resumeLine
  repeat' split
  all_goals simp (maxDischargeDepth := 30) [h]

@[simp] theorem resumeDispAt_queue (r : DispState) (h : QueueOrdered s.jobs) : QueueOrdered (resumeDispAt r s).jobs := by
  unfold resumeDispAt
  dsimp only
  split
  case h_1 => simpa using h
  case h_2 => exact resumeLine_queue h
  case h_3 => exact selectLine_queue h
  case h_4 => exact keeps_ite (P := fun t => QueueOrdered t.jobs) (fun _ => h) fun _ => loseDisp_queue h
  case h_5 => exact returnToCalled_queue h
  case h_6 => exact keeps_ite (P := fun t => QueueOrdered t.jobs) (fun _ => returnToCalled_queue h) fun _ => h
  case h_7 => split <;> exact h
  case h_8 => simpa using h
  case h_9 => split <;> exact h
  case h_10 => simpa using h
  case h_11 => exact h

@[simp] theorem resumeDisp_queue (h : QueueOrdered s.jobs) : QueueOrdered (resumeDisp s).jobs := by
  unfold resumeDisp
  repeat' split
  all_goals simp (maxDischargeDepth := 30) [h]

@[simp] theorem resumeAll_queue (h : QueueOrdered s.jobs) : QueueOrdered (resumeAll s).jobs :=
  resumeDisp_queue (by simpa using h)

@[simp] theorem clearBay_queue (b : BayId) (h : QueueOrdered s.jobs) : QueueOrdered (clearBay b s).jobs := by
  unfold clearBay
  repeat' split
  all_goals simp (maxDischargeDepth := 30) [h]

@[simp] theorem clearStation_queue (h : QueueOrdered s.jobs) : QueueOrdered (clearStation s).jobs := by
  unfold clearStation
  repeat' split
  all_goals simp (maxDischargeDepth := 30) [h]

@[simp] theorem cancelInBay_queue (e : CancelEffect) (h : QueueOrdered s.jobs) : QueueOrdered (cancelInBay e s).jobs := by
  unfold cancelInBay
  repeat' split
  all_goals simp (maxDischargeDepth := 30) [h]

@[simp] theorem keepaliveLost_queue (h : QueueOrdered s.jobs) : QueueOrdered (keepaliveLost s).jobs := by
  unfold keepaliveLost
  repeat' split
  all_goals simp (maxDischargeDepth := 30) [h]

@[simp] theorem slowStir_queue (i : Slot) (h : QueueOrdered s.jobs) : QueueOrdered (slowStir i s).jobs := by
  unfold slowStir
  repeat' split
  all_goals simp (maxDischargeDepth := 30) [h]

@[simp] theorem fastStir_queue (i : Slot) (h : QueueOrdered s.jobs) : QueueOrdered (fastStir i s).jobs := by
  unfold fastStir
  repeat' split
  all_goals simp (maxDischargeDepth := 30) [h]

@[simp] theorem checkExpires_queue (i : Slot) (h : QueueOrdered s.jobs) : QueueOrdered (checkExpires i s).jobs := by
  unfold checkExpires
  repeat' split
  all_goals simp (maxDischargeDepth := 30) [h]

@[simp] theorem runExpires_queue (i : Slot) (h : QueueOrdered s.jobs) : QueueOrdered (runExpires i s).jobs := by
  unfold runExpires
  repeat' split
  all_goals simp (maxDischargeDepth := 30) [h]

@[simp] theorem pumpStalled_queue (i : Slot) (h : QueueOrdered s.jobs) : QueueOrdered (pumpStalled i s).jobs :=
  by simpa [pumpStalled] using h

@[simp] theorem endSegment_queue (o : PumpOp) (h : QueueOrdered s.jobs) : QueueOrdered (endSegment o s).jobs := by
  unfold endSegment
  dsimp only
  repeat' split
  all_goals simp (maxDischargeDepth := 30) [h]

@[simp] theorem segmentEnds_queue (h : QueueOrdered s.jobs) : QueueOrdered (segmentEnds s).jobs := by
  unfold segmentEnds
  repeat' split
  all_goals simp (maxDischargeDepth := 30) [h]

@[simp] theorem reportCrossing_queue (above : Bool) (h : QueueOrdered s.jobs) : QueueOrdered (reportCrossing above s).jobs := by
  unfold reportCrossing
  dsimp only
  repeat' split
  · exact h
  · exact h
  · exact loseDisp_queue h

@[simp] theorem testThreshold_queue (net : Int) (h : QueueOrdered s.jobs) : QueueOrdered (testThreshold net s).jobs := by
  unfold testThreshold
  dsimp only
  split
  · exact h
  · exact reportCrossing_queue _ h

@[simp] theorem produceReading_queue (h : QueueOrdered s.jobs) : QueueOrdered (produceReading s).jobs := by
  unfold produceReading
  dsimp only
  split
  · simpa using answerRequest_queue _ (s := s.mapScale _) h
  · simpa using h

@[simp] theorem offerSample_queue (net : Int) (h : QueueOrdered s.jobs) : QueueOrdered (offerSample net s).jobs := by
  unfold offerSample
  dsimp only
  repeat' split
  · exact h
  · exact produceReading_queue h
  · exact h

@[simp] theorem takeSample_queue (raw : Int) (h : QueueOrdered s.jobs) : QueueOrdered (takeSample raw s).jobs := by
  unfold takeSample
  dsimp only
  split
  · simpa using h
  · exact offerSample_queue _ (testThreshold_queue _ h)

@[simp] theorem heldTinOff_queue (h : QueueOrdered s.jobs) : QueueOrdered (heldTinOff s).jobs := by
  unfold heldTinOff
  dsimp only
  repeat' split
  · exact loseDisp_queue h
  · simpa using h
  · exact h

@[simp] theorem dispTinOff_queue (h : QueueOrdered s.jobs) : QueueOrdered (dispTinOff s).jobs := by
  unfold dispTinOff
  repeat' split
  all_goals simp (maxDischargeDepth := 30) [h]

/-! ## The records waiting to be taken -/

theorem joinRecord_waiting (t : TinRecord) (hroom : hasRoom s = true) : recordsFit (joinRecord t s).completion := by
  have hlt : s.completion.length < Config.completionPlaces := by simpa [hasRoom] using hroom
  simpa [joinRecord, recordsFit] using hlt

@[simp] theorem drainShake_waiting (h : recordsFit s.completion) : recordsFit (drainShake s).completion := by
  unfold drainShake
  split
  · split
    · next hc =>
      simp only [Bool.and_eq_true] at hc
      simpa using joinRecord_waiting _ hc.2
    · exact h
  · exact h

@[simp] theorem drainLid_waiting (h : recordsFit s.completion) : recordsFit (drainLid s).completion := by
  unfold drainLid
  split
  · split
    · next hc =>
      simp only [Bool.and_eq_true] at hc
      simpa using joinRecord_waiting _ hc.2
    · exact h
  · exact h

@[simp] theorem drainDisp_waiting (h : recordsFit s.completion) : recordsFit (drainDisp s).completion := by
  unfold drainDisp
  split
  · split
    · next hc =>
      simp only [Bool.and_eq_true] at hc
      simpa using joinRecord_waiting _ hc.2
    · exact h
  · exact h

@[simp] theorem drain_waiting (h : recordsFit s.completion) : recordsFit (drain s).completion :=
  drainDisp_waiting (drainLid_waiting (drainShake_waiting h))

@[simp] theorem enterAwaitRoom_waiting (h : recordsFit s.completion) : recordsFit (enterAwaitRoom s).completion := by
  unfold enterAwaitRoom joinOrWait
  split
  · exact drainShake_waiting h
  · exact h

@[simp] theorem enterLidLost_waiting (h : recordsFit s.completion) : recordsFit (enterLidLost s).completion := by
  unfold enterLidLost joinOrWait
  split
  · exact drainLid_waiting h
  · exact h

@[simp] theorem closeDispRecord_waiting (h : recordsFit s.completion) : recordsFit (closeDispRecord s).completion := by
  unfold closeDispRecord joinOrWait
  split
  · exact drainDisp_waiting h
  · exact h

@[simp] theorem endStroke_waiting (h : recordsFit s.completion) : recordsFit (endStroke s).completion := by
  unfold endStroke
  dsimp only
  repeat' split
  all_goals simp (maxDischargeDepth := 30) [h]

@[simp] theorem endShake_waiting (h : recordsFit s.completion) : recordsFit (endShake s).completion :=
  enterAwaitRoom_waiting (by simpa using h)

@[simp] theorem closeLost_waiting (h : recordsFit s.completion) : recordsFit (closeLost s).completion := by
  unfold closeLost
  repeat' split
  all_goals simp (maxDischargeDepth := 30) [h]

@[simp] theorem closeFound_waiting (b : BayId) (h : recordsFit s.completion) : recordsFit (closeFound b s).completion := by
  unfold closeFound
  repeat' split
  all_goals simp (maxDischargeDepth := 30) [h]

@[simp] theorem loseDisp_waiting (h : recordsFit s.completion) : recordsFit (loseDisp s).completion := by
  unfold loseDisp
  repeat' split
  all_goals simp (maxDischargeDepth := 30) [h]

@[simp] theorem loseLid_waiting (h : recordsFit s.completion) : recordsFit (loseLid s).completion := by
  unfold loseLid
  repeat' split
  all_goals simp (maxDischargeDepth := 30) [h]

@[simp] theorem loseShake_waiting (h : recordsFit s.completion) : recordsFit (loseShake s).completion := by
  unfold loseShake
  repeat' split
  all_goals simp (maxDischargeDepth := 30) [h]

@[simp] theorem enterCancelled_waiting (h : recordsFit s.completion) : recordsFit (enterCancelled s).completion := by
  unfold enterCancelled
  dsimp only
  repeat' split
  all_goals simp (maxDischargeDepth := 30) [h]

@[simp] theorem resumeDispAt_waiting (r : DispState) (h : recordsFit s.completion) : recordsFit (resumeDispAt r s).completion := by
  unfold resumeDispAt
  dsimp only
  split
  case h_1 => simpa using h
  case h_2 => simpa using h
  case h_3 => simpa using h
  case h_4 => exact keeps_ite (P := fun t => recordsFit t.completion) (fun _ => h) fun _ => loseDisp_waiting h
  case h_5 => simpa using h
  case h_6 => exact keeps_ite (P := fun t => recordsFit t.completion) (fun _ => by simpa using h) fun _ => h
  case h_7 => split <;> exact h
  case h_8 => exact enterCancelled_waiting h
  case h_9 => split <;> exact h
  case h_10 => simpa using h
  case h_11 => exact h

@[simp] theorem resumeDisp_waiting (h : recordsFit s.completion) : recordsFit (resumeDisp s).completion := by
  unfold resumeDisp
  dsimp only
  repeat' split
  · simpa using drainDisp_waiting (s := s.mapDisp _) h
  · exact enterCancelled_waiting (by simpa using h)
  · exact resumeDispAt_waiting _ h
  · exact h

@[simp] theorem lidGoOn_waiting (h : recordsFit s.completion) : recordsFit (lidGoOn s).completion := by
  unfold lidGoOn
  repeat' split
  all_goals simp (maxDischargeDepth := 30) [h]

@[simp] theorem homeCheck_waiting (h : recordsFit s.completion) : recordsFit (homeCheck s).completion := by
  unfold homeCheck
  repeat' split
  all_goals simp (maxDischargeDepth := 30) [h]

@[simp] theorem resumeLostLid_waiting (h : recordsFit s.completion) : recordsFit (resumeLostLid s).completion := by
  unfold resumeLostLid
  repeat' split
  all_goals simp (maxDischargeDepth := 30) [h]

@[simp] theorem resumeLidAt_waiting (r : LidState) (h : recordsFit s.completion) : recordsFit (resumeLidAt r s).completion := by
  unfold resumeLidAt
  dsimp only
  split
  case h_1 => exact keeps_ite (P := fun t => recordsFit t.completion) (fun _ => by simpa using h) fun _ => h
  case h_2 => simpa using h
  case h_3 => simpa using h
  case h_4 => simpa using h
  case h_5 => exact homeCheck_waiting h
  case h_6 => exact homeCheck_waiting h
  case h_7 => exact homeCheck_waiting h
  case h_8 => exact keeps_ite (P := fun t => recordsFit t.completion) (fun _ => h) fun _ => loseLid_waiting h
  case h_9 => split <;> exact h
  case h_10 => exact h

@[simp] theorem resumeLid_waiting (h : recordsFit s.completion) : recordsFit (resumeLid s).completion := by
  unfold resumeLid
  repeat' split
  all_goals simp (maxDischargeDepth := 30) [h]

@[simp] theorem resumeShakeAt_waiting (r : ShakeState) (h : recordsFit s.completion) : recordsFit (resumeShakeAt r s).completion := by
  unfold resumeShakeAt
  dsimp only
  split
  case h_1 => split <;> simpa using h
  case h_2 => split <;> simpa using h
  case h_9 => exact enterAwaitRoom_waiting h
  case h_11 => split <;> simpa using h
  case h_12 => split <;> simpa using h
  case h_13 => exact h
  all_goals simpa using h

@[simp] theorem resumeShake_waiting (h : recordsFit s.completion) : recordsFit (resumeShake s).completion := by
  unfold resumeShake
  repeat' split
  all_goals simp (maxDischargeDepth := 30) [h]

@[simp] theorem resumeAll_waiting (h : recordsFit s.completion) : recordsFit (resumeAll s).completion :=
  resumeDisp_waiting (resumeLid_waiting (resumeShake_waiting h))

@[simp] theorem clearBay_waiting (b : BayId) (h : recordsFit s.completion) : recordsFit (clearBay b s).completion := by
  unfold clearBay
  repeat' split
  all_goals simp (maxDischargeDepth := 30) [h]

@[simp] theorem clearStation_waiting (h : recordsFit s.completion) : recordsFit (clearStation s).completion := by
  unfold clearStation
  repeat' split
  all_goals simp (maxDischargeDepth := 30) [h]

@[simp] theorem cancelTin_waiting (h : recordsFit s.completion) : recordsFit (cancelTin s).completion := by
  unfold cancelTin
  repeat' split
  all_goals simp (maxDischargeDepth := 30) [h]

@[simp] theorem cancelInBay_waiting (e : CancelEffect) (h : recordsFit s.completion) : recordsFit (cancelInBay e s).completion := by
  unfold cancelInBay
  repeat' split
  all_goals simp (maxDischargeDepth := 30) [h]

@[simp] theorem reportCrossing_waiting (above : Bool) (h : recordsFit s.completion) : recordsFit (reportCrossing above s).completion := by
  unfold reportCrossing
  dsimp only
  repeat' split
  · exact h
  · exact h
  · exact loseDisp_waiting h

@[simp] theorem testThreshold_waiting (net : Int) (h : recordsFit s.completion) : recordsFit (testThreshold net s).completion := by
  unfold testThreshold
  dsimp only
  split
  · exact h
  · exact reportCrossing_waiting _ h

@[simp] theorem takeSample_waiting (raw : Int) (h : recordsFit s.completion) : recordsFit (takeSample raw s).completion := by
  unfold takeSample
  dsimp only
  split
  · simpa using h
  · simpa using testThreshold_waiting _ (s := s.mapScale _) h

@[simp] theorem heldTinOff_waiting (h : recordsFit s.completion) : recordsFit (heldTinOff s).completion := by
  unfold heldTinOff
  dsimp only
  repeat' split
  · exact loseDisp_waiting h
  · simpa using h
  · exact h

@[simp] theorem dispTinOff_waiting (h : recordsFit s.completion) : recordsFit (dispTinOff s).completion := by
  unfold dispTinOff
  repeat' split
  all_goals simp (maxDischargeDepth := 30) [h]

@[simp] theorem pressHomeSensed_waiting (h : recordsFit s.completion) : recordsFit (pressHomeSensed s).completion := by
  unfold pressHomeSensed
  dsimp only
  repeat' split
  all_goals simp (maxDischargeDepth := 30) [h]

@[simp] theorem lidTinOff_waiting (h : recordsFit s.completion) : recordsFit (lidTinOff s).completion := by
  unfold lidTinOff
  repeat' split
  all_goals simp (maxDischargeDepth := 30) [h]

@[simp] theorem saturatedSpeed_waiting (h : recordsFit s.completion) : recordsFit (saturatedSpeed s).completion := by
  unfold saturatedSpeed
  dsimp only
  split
  · exact endShake_waiting h
  · simpa using h
  · split
    · exact resumeShake_waiting (by simpa using h)
    · exact h

@[simp] theorem shakeTinOff_waiting (h : recordsFit s.completion) : recordsFit (shakeTinOff s).completion := by
  unfold shakeTinOff
  repeat' split
  all_goals simp (maxDischargeDepth := 30) [h]

/-! ## The steps -/

/-- What `JobsOrdered` says, block by block. -/
def Queues (s : State) : Prop := QueueOrdered s.jobs ∧ recordsFit s.completion

theorem Queues.of_unmoved (h : Queues s) (hj : t.jobs = s.jobs := by simp) (hc : t.completion = s.completion := by simp) :
    Queues t := by
  unfold Queues
  rw [hj, hc]
  exact h

theorem receive_queues {act : State → State} (src : Station)
    (hact : ∀ u, (act u).jobs = u.jobs ∧ (act u).completion = u.completion) (h : Queues s) : Queues (receive src act s) := by
  unfold receive
  dsimp only
  repeat' split
  · exact h
  · exact h
  · exact h.of_unmoved
  · exact Queues.of_unmoved h (hact _).1 (hact _).2

theorem effect_queues (hf : Effect f) (h : Queues s) : Queues (f s) := by
  obtain ⟨hjobs, hrec⟩ := id h
  cases hf with
  | claimReceived src p a => exact receive_queues src (fun u => by simp [thenTell]) h
  | adjustReceived src p a => exact receive_queues src (fun u => by unfold takeAdjust; split <;> simp) h
  | releaseReceived src p => exact receive_queues src (fun u => by simp [thenTell]) h
  | waitReceived src p a n => exact receive_queues src (fun u => by simp [thenTell]) h
  | beaconReceived src b => exact receive_queues src (fun u => by simp [thenTell]) h
  | stirrerRevolution i period =>
    exact keeps_ite (fun _ => ⟨fastStir_queue i hjobs, by simpa using hrec⟩)
      fun _ => ⟨slowStir_queue i hjobs, by simpa using hrec⟩
  | emergencyStop => exact keeps_ite (fun _ => h) fun _ => h.of_unmoved
  | moveStart => exact keeps_ite (fun _ => ⟨startMove_queue hjobs, by simpa using hrec⟩) fun _ => h
  | spinUpTimeout => exact keeps_ite (fun _ => h.of_unmoved) fun _ => h
  | homeRunStart => exact keeps_ite (fun _ => h.of_unmoved) fun _ => h
  | pressStart => exact keeps_ite (fun _ => h.of_unmoved) fun _ => h
  | dwellExpiry => exact keeps_ite (fun _ => h.of_unmoved) fun _ => h
  | spinUpStart => exact keeps_ite (fun _ => h.of_unmoved) fun _ => h
  | _ => exact ⟨by simp [hjobs], by simp [hrec]⟩

theorem taken_waiting {r : TinRecord} {rs : List TinRecord} (hold : s.completion = r :: rs)
    (h : recordsFit s.completion) : recordsFit (drain (s.mapCompletion fun _ => rs)).completion := by
  refine drain_waiting ?_
  unfold recordsFit at *
  rw [hold, List.length_cons] at h
  change rs.length ≤ _
  omega

theorem answered_queues (ha : Answered s t) (h : Queues s) : Queues t := by
  obtain ⟨hjobs, hrec⟩ := id h
  cases ha with
  | submitted j hroom => exact ⟨enqueue_ordered hroom (identified_fresh hjobs.fits hrec j) hjobs, hrec⟩
  | cancelled id e =>
    exact ⟨cancelInBay_queue e (removeJob_ordered id hjobs), cancelInBay_waiting (s := s.mapJobs _) e hrec⟩
  | reprioritised id p => exact ⟨reprioritise_ordered id p hjobs, hrec⟩
  | taken r rs hold => exact ⟨by simpa using hjobs, taken_waiting hold hrec⟩
  | takenLast r rs hold => exact ⟨by simpa using hjobs, by simpa using taken_waiting hold hrec⟩
  | loaded i hlevel hf => exact ⟨reportCanister_queue i (by simpa using hjobs), by simpa using hrec⟩
  | levelled i hlevel => exact ⟨reportCanister_queue i (by simpa using hjobs), by simpa using hrec⟩
  | faultCleared i => exact ⟨reportCanister_queue i (by simpa using hjobs), by simpa using hrec⟩
  | modeSet m => exact ⟨withdrawStandingCall_queue (s := s.mapMon _) hjobs, by simpa using hrec⟩
  | _ => exact ⟨by simp [hjobs], by simp [hrec]⟩

theorem settle_queues (h : Queues s) : Queues (settle s) := by
  obtain ⟨hjobs, hrec⟩ := id h
  unfold settle
  split
  · exact ⟨by simpa using askTin_queue (s := grantStirs s) (by simpa using hjobs), by simpa using hrec⟩
  · exact h

theorem volatileReset_queues (s : State) : Queues (volatileReset s) :=
  ⟨⟨Nat.zero_le _, .nil, .nil⟩, Nat.zero_le _⟩

theorem startOnline_queues (h : Queues s) : Queues (startOnline s) := by
  unfold startOnline
  dsimp only
  split <;> exact h.of_unmoved

theorem startUp_queues (i : Inputs) (s : State) : Queues (startUp i s) := by
  have hreset : Queues (volatileReset s) := volatileReset_queues s
  unfold startUp
  dsimp only
  split
  · split <;> exact hreset
  · refine startOnline_queues ?_
    split <;> exact hreset

theorem tick_queues (h : Queues s) : Queues (tick s) := by
  unfold tick
  split
  · exact settle_queues h.of_unmoved
  · exact h

theorem closedUnder_queues : ClosedUnder Queues where
  effect := effect_queues
  answered := answered_queues
  settle := settle_queues
  reset {s} _ := volatileReset_queues s
  startUp i s _ := startUp_queues i s
  phase _ _ h := h
  inputs _ _ h := h
  store _ _ h := h
  port _ _ h := h
  free _ _ h := h
  keepalive h := h.of_unmoved

/-- Settles O57: the queue's own operations keep its order, and no other touches it. -/
theorem everyStepKeepsTheJobOrder : Obligations.EveryStepKeepsTheJobOrder := by
  unfold Obligations.EveryStepKeepsTheJobOrder
  intro s t hstep hordered
  exact jobsOrdered_iff.2 (closedUnder_queues.step (fun _ h => h) tick_queues hstep (jobsOrdered_iff.1 hordered))

end Sys2Proof.Proofs
end

