-- ==== Sys2Proof/Proofs/StepAndSettle.lean ====
section
/-! PROOF. The millisecond of an idle step, what follows every command, and the state after reset (R7, R35, R78, R114). -/

namespace Sys2Proof.Proofs

open Sys2Proof Sys2Proof.Machine Sys2Proof.Safety Sys2Proof.Laws

variable {s : State}

/-! ## One millisecond -/

theorem step_idle (hqueue : s.pending = []) : step s = .next (tick s) := by
  unfold step
  rw [hqueue]

/-- The timers that run after the stirrers and the pump. -/
def tickRest (s : State) : State :=
  tickMon (((tickLine (tickShake (tickLid (tickCarriage (tickScale s))))).mapPower tickAgent).mapAir tickAgent)

/-- The state with a pump drive and canisters of its own. -/
def withPump (pump : PumpDrive) (cans : Vector Canister 16) (s : State) : State := { s with pump := pump, cans := cans }

theorem tick_online (hon : s.online = true) : tick s = settle (tickRest (tickPump (tickStir s))) := by
  unfold tick
  rw [if_pos hon]
  rfl

theorem tickLine_eq (s : State) : tickLine s = { s with
    line := { s.line with beacon := s.line.beacon.map (· - 1) }
    roster := if s.line.st = .silent then s.roster else s.roster.map (tickEntry (ageOutAge s)) } := by
  unfold tickLine
  dsimp only
  split <;> rfl

theorem tickPump_idle (hop : s.pump.op = none) : tickPump s = withPump s.pump s.cans s := by
  unfold tickPump
  rw [hop]
  rfl

theorem mapOp_some {o : PumpOp} (hop : s.pump.op = some o) (g : PumpOp → PumpOp) :
    mapOp g s = withPump { s.pump with op := some (g o) } s.cans s := by
  simp [mapOp, State.mapPump, withPump, hop]

theorem tickPump_turning {o : PumpOp} (hop : s.pump.op = some o) (hstage : o.stage ≠ .moving) :
    tickPump s = withPump { s.pump with op := some { o with turn := min 150 (o.turn + 1) } } s.cans s := by
  have hturned : tickPump s = mapOp (fun o => { o with turn := min Config.valveTurnMs (o.turn + 1) }) s := by
    unfold tickPump
    cases hs : o.stage with
    | moving => exact absurd hs hstage
    | _ => simp only [hop, hs]
  rw [hturned, mapOp_some hop]
  rfl

theorem tickPump_paused {o : PumpOp} (hop : s.pump.op = some o) (hstage : o.stage = .moving) (hpaused : o.paused = true) :
    tickPump s = withPump s.pump s.cans s := by
  unfold tickPump
  simp only [hop, hstage, hpaused, if_true]
  rfl

/-- What `n` issued steps leave, segment by segment. -/
theorem issueSteps_eq {o p : PumpOp} (hop : s.pump.op = some p) (n : Nat) :
    issueSteps n o s = withPump
      { s.pump with op := some { p with
        run := p.run + n, counted := if o.segment = .forward then p.counted + n else p.counted } }
      (match o.segment with
        | .home => s.cans
        | .restore => s.cans.set o.slot { s.cans[o.slot] with piston := (s.cans[o.slot]).piston + n }
        | .forward => s.cans.set o.slot { s.cans[o.slot] with piston := (s.cans[o.slot]).piston + n }
        | .refill => s.cans.set o.slot { s.cans[o.slot] with piston := (s.cans[o.slot]).piston - n }
        | .snuffBack => s.cans.set o.slot { s.cans[o.slot] with piston := (s.cans[o.slot]).piston - n }) s := by
  unfold issueSteps
  rw [mapOp_some hop]
  cases o.segment <;> rfl

theorem tickPump_moving {o : PumpOp} (hop : s.pump.op = some o) (hstage : o.stage = .moving)
    (hpaused : o.paused = false) :
    let steps := o.frac + (s.cfg.cans[o.slot]).stepRate
    let n := min (steps / 1000) (o.toRun - 1 - o.run)
    let c := s.cans[o.slot]
    tickPump s = withPump
      { s.pump with op := some { o with
        run := o.run + n, frac := steps % 1000, counted := if o.segment = .forward then o.counted + n else o.counted } }
      (match o.segment with
        | .home => s.cans
        | .restore => s.cans.set o.slot { c with piston := c.piston + n }
        | .forward => s.cans.set o.slot { c with piston := c.piston + n }
        | .refill => s.cans.set o.slot { c with piston := c.piston - n }
        | .snuffBack => s.cans.set o.slot { c with piston := c.piston - n }) s := by
  intro steps n c
  have hissued : tickPump s = issueSteps n o (mapOp (fun o => { o with frac := steps % 1000 }) s) := by
    unfold tickPump
    simp only [hop, hstage, hpaused]
    rfl
  rw [hissued, mapOp_some hop, issueSteps_eq (p := { o with frac := steps % 1000 }) rfl]
  rfl

/-- Settles O2: a millisecond timer by timer. -/
theorem idleMillisecondAdvancesTimers : Obligations.IdleMillisecondAdvancesTimers := by
  unfold Obligations.IdleMillisecondAdvancesTimers
  refine ⟨fun s hqueue hoff => ?_, fun s hqueue hon => ?_⟩
  · rw [step_idle hqueue]
    simp [tick, hoff]
  · intro ticked
    have hrest (pump : PumpDrive) (cans : Vector Canister 16) :
        tickRest (withPump pump cans (tickStir s)) = ticked pump cans := by
      simp only [tickRest, tickLine_eq, tickMon, tickShake, tickLid, tickCarriage, tickScale, tickStir, withPump,
        State.mapStir, State.mapScale, State.mapCarriage, State.mapLid, State.mapShake, State.mapPower, State.mapAir,
        State.mapMon, ageOutAge, ticked, runLimit]
      rfl
    have hstep {pump : PumpDrive} {cans : Vector Canister 16}
        (hp : tickPump (tickStir s) = withPump pump cans (tickStir s)) : step s = .next (settle (ticked pump cans)) := by
      rw [step_idle hqueue, tick_online hon, hp, hrest]
    refine ⟨fun hop => hstep (tickPump_idle hop), fun o hop => ⟨fun hstage => hstep (tickPump_turning hop hstage),
      fun hstage hpaused => hstep (tickPump_paused hop hstage hpaused),
      fun hstage hpaused => hstep (tickPump_moving hop hstage hpaused)⟩⟩

/-! ## The reset values -/

/-- Settles O6: the reset state is written out, and its limits are those of empty blocks. -/
theorem resetHoldsTheResetValues : Obligations.ResetHoldsTheResetValues := by
  unfold Obligations.ResetHoldsTheResetValues
  have hqueues : Queues State.reset := ⟨⟨Nat.zero_le _, .nil, .nil⟩, Nat.zero_le _⟩
  refine ⟨?values, ?limits, ?licences, stopHolds_of_rest rfl rfl, jobsOrdered_iff.2 hqueues, ?quiet⟩
  case values =>
    refine ⟨rfl, rfl, rfl, rfl, rfl, rfl, fun i => ?_, rfl, rfl, rfl, rfl, rfl, rfl, rfl, rfl, rfl, rfl, rfl,
      by decide, fun n => ?_, rfl, rfl, rfl, rfl, rfl, rfl, rfl, rfl, rfl⟩
    · have hcan : State.reset.cans[i] = Canister.reset := Vector.getElem_replicate _
      rw [hcan]
      exact ⟨rfl, rfl, rfl, rfl⟩
    · have hentry : State.reset.roster[n] = RosterEntry.reset := Vector.getElem_replicate _
      rw [hentry]
      exact ⟨rfl, rfl⟩
  case limits =>
    refine ⟨Nat.zero_le _, fun i => ?_, Nat.zero_le _, ⟨by decide, by decide⟩, ⟨by decide, by decide, .nil⟩, Nat.zero_le _⟩
    have hcan : State.reset.cans[i] = Canister.reset := Vector.getElem_replicate _
    rw [hcan]
    exact ⟨by decide, by decide⟩
  case licences => exact ⟨(nomatch ·), (nomatch ·)⟩
  case quiet => exact ⟨by decide, by decide⟩

/-! ## The stirrer grants (R33 to R35) -/

theorem cans_mapCan (i j : Slot) (f : Canister → Canister) :
    (s.mapCan i f).cans[j] = if i = j then f s.cans[j] else s.cans[j] := by
  by_cases hij : i = j
  · subst hij
    simp [State.mapCan]
  · have hne : (i : Nat) ≠ j := fun h => hij (Fin.ext h)
    simp [State.mapCan, hij, Vector.getElem_set_ne _ _ hne]

theorem grantStir_cans (i j : Slot) :
    (grantStir i s).cans[j] = if i = j then { s.cans[j] with activity := .stirring } else s.cans[j] :=
  cans_mapCan i j _

theorem stirEligible_iff (i : Slot) : stirEligible s i = true ↔
    (s.cans[i]).activity = .idle ∧ s.inputs.doorOpen = false ∧ s.mon.estop = false := by
  simp only [stirEligible, Bool.and_eq_true, decide_eq_true_eq, Bool.not_eq_true', and_assoc]
  rfl

theorem periodic_iff (i : Slot) : periodic s i = true ↔
    (s.cfg.cans[i]).stirInterval ≠ 0 ∧ (s.cfg.cans[i]).stirInterval ≤ (s.cans[i]).age ∧
    ((s.cans[i]).state = .uncalibrated ∨ (s.cans[i]).state = .ready ∨ (s.cans[i]).state = .calibrating) ∧
    (s.cans[i]).activity ≠ .stirring ∧ i ∉ s.stir.pre := by
  simp only [periodic, State.stirring, State.preRequested, Bool.and_eq_true, Bool.or_eq_true, Bool.not_eq_true',
    decide_eq_true_eq, decide_eq_false_iff_not, and_assoc, or_assoc, List.contains_eq_mem]
  rfl

/-! ## The next grant (R35) -/

theorem mostOverdue_mem {l : List Slot} {i : Slot} (h : mostOverdue s l = some i) : i ∈ l := by
  induction l generalizing i with
  | nil => simp [mostOverdue] at h
  | cons k ks ih =>
    unfold mostOverdue at h
    split at h
    · simp_all
    · next j hj =>
      split at h <;> cases h
      · exact List.mem_cons_of_mem _ (ih hj)
      · exact List.mem_cons_self

theorem mostOverdue_eq_none {l : List Slot} : mostOverdue s l = none ↔ l = [] := by
  cases l with
  | nil => simp [mostOverdue]
  | cons k ks =>
    unfold mostOverdue
    split
    · simp
    · split <;> simp

/-- The most overdue of an ascending list, the lower slot among equals. -/
theorem mostOverdue_eq {l : List Slot} {i : Slot} (hsorted : l.Pairwise (· < ·)) (hi : i ∈ l)
    (hmost : ∀ j ∈ l, overdue s j < overdue s i ∨ (overdue s j = overdue s i ∧ i ≤ j)) : mostOverdue s l = some i := by
  induction l with
  | nil => simp at hi
  | cons k ks ih =>
    obtain ⟨hk, hks⟩ := List.pairwise_cons.1 hsorted
    unfold mostOverdue
    rcases List.mem_cons.1 hi with rfl | hi
    · split
      · rfl
      · next j hj =>
        have hless := hmost j (List.mem_cons_of_mem _ (mostOverdue_mem hj))
        exact if_neg (by omega)
    · rw [ih hks hi fun j hj => hmost j (List.mem_cons_of_mem _ hj)]
      rcases hmost k List.mem_cons_self with hless | ⟨-, hle⟩
      · exact if_pos hless
      · exact absurd (hk i hi) (not_lt.2 hle)

/-- The periodic requests that may be granted, slot by slot. -/
theorem mem_periodics {i : Slot} :
    i ∈ slots.filter (fun i => periodic s i && stirEligible s i) ↔ periodic s i = true ∧ stirEligible s i = true := by
  simp [slots]

theorem nextGrant_of_pre {i : Slot} (h : s.stir.pre.find? (stirEligible s) = some i) : nextGrant s = some i := by
  simp [nextGrant, h]

theorem nextGrant_of_none (h : s.stir.pre.find? (stirEligible s) = none) :
    nextGrant s = mostOverdue s (slots.filter fun i => periodic s i && stirEligible s i) := by
  simp [nextGrant, h]

theorem nextGrant_eligible {i : Slot} (h : nextGrant s = some i) : stirEligible s i = true := by
  cases hfirst : s.stir.pre.find? (stirEligible s) with
  | some j =>
    rw [nextGrant_of_pre hfirst] at h
    cases h
    exact List.find?_some hfirst
  | none =>
    rw [nextGrant_of_none hfirst] at h
    exact (mem_periodics.1 (mostOverdue_mem h)).2

theorem nextGrant_eq_none : nextGrant s = none ↔
    ∀ i : Slot, stirEligible s i = true → i ∉ s.stir.pre ∧ periodic s i = false := by
  cases hfirst : s.stir.pre.find? (stirEligible s) with
  | some j =>
    rw [nextGrant_of_pre hfirst]
    refine ⟨fun h => by simp at h, fun h => ?_⟩
    exact absurd (List.mem_of_find?_eq_some hfirst) (h j (List.find?_some hfirst)).1
  | none =>
    rw [nextGrant_of_none hfirst, mostOverdue_eq_none, List.filter_eq_nil_iff]
    rw [List.find?_eq_none] at hfirst
    constructor
    · intro hnone i hi
      refine ⟨fun hmem => hfirst i hmem hi, ?_⟩
      simpa [hi] using hnone i (by simp [slots])
    · intro hnone i _
      cases hi : stirEligible s i with
      | false => simp
      | true => simp [(hnone i hi).2]

/-! ## Grant after grant (R35) -/

/-- `grantUpTo` as one grant and the rest. -/
theorem grantUpTo_succ {i : Slot} (n : Nat) (hfree : s.stir.runs.length < 4) (hnext : nextGrant s = some i) :
    grantUpTo (n + 1) s = grantUpTo n (grantStir i s) := by
  rw [grantUpTo, if_pos (show _ < Config.stirSlots from hfree), hnext]

theorem grantUpTo_done (n : Nat) (h : 4 ≤ s.stir.runs.length ∨ nextGrant s = none) : grantUpTo n s = s := by
  cases n with
  | zero => rfl
  | succ n =>
    rcases h with h | h
    · rw [grantUpTo, if_neg (by simpa [Config.stirSlots] using h)]
    · rw [grantUpTo, h]
      split <;> rfl

/-- What holds of a state and is kept by each grant holds of all that the arbiter grants. -/
theorem grantUpTo_induction {P : State → Prop} (hgrant : ∀ (t : State) (i : Slot), t.stir.runs.length < 4 →
    nextGrant t = some i → P t → P (grantStir i t)) (n : Nat) (h : P s) : P (grantUpTo n s) := by
  induction n generalizing s with
  | zero => exact h
  | succ n ih =>
    by_cases hfree : s.stir.runs.length < 4
    · cases hnext : nextGrant s with
      | none => rwa [grantUpTo_done _ (.inr hnext)]
      | some i =>
        rw [grantUpTo_succ n hfree hnext]
        exact ih (hgrant s i hfree hnext h)
    · rwa [grantUpTo_done _ (.inl (by omega))]

theorem grantStir_length (i : Slot) : (grantStir i s).stir.runs.length = s.stir.runs.length + 1 := by
  simp [grantStir]

/-- Four grants leave no free slot beside an eligible request. -/
theorem grantUpTo_none (n : Nat) (h : 4 ≤ s.stir.runs.length + n) (hfree : (grantUpTo n s).stir.runs.length < 4) :
    nextGrant (grantUpTo n s) = none := by
  induction n generalizing s with
  | zero => exact absurd hfree (by simpa [grantUpTo] using h)
  | succ n ih =>
    by_cases hroom : s.stir.runs.length < 4
    · cases hnext : nextGrant s with
      | none => rwa [grantUpTo_done _ (.inr hnext)]
      | some i =>
        rw [grantUpTo_succ n hroom hnext] at hfree ⊢
        exact ih (by rw [grantStir_length]; omega) hfree
    · rw [grantUpTo_done _ (.inl (by omega))] at hfree
      exact absurd hfree hroom

/-- More grants than there are free slots change nothing. -/
theorem grantUpTo_enough (n : Nat) (h : 4 ≤ s.stir.runs.length + n) : grantUpTo (n + 1) s = grantUpTo n s := by
  induction n generalizing s with
  | zero => exact grantUpTo_done _ (.inl h)
  | succ n ih =>
    by_cases hroom : s.stir.runs.length < 4
    · cases hnext : nextGrant s with
      | none => rw [grantUpTo_done _ (.inr hnext), grantUpTo_done _ (.inr hnext)]
      | some i =>
        rw [grantUpTo_succ _ hroom hnext, grantUpTo_succ _ hroom hnext]
        exact ih (by rw [grantStir_length]; omega)
    · rw [grantUpTo_done _ (.inl (by omega)), grantUpTo_done _ (.inl (by omega))]

theorem grantStirs_grant {i : Slot} (hfree : s.stir.runs.length < 4) (hnext : nextGrant s = some i) :
    grantStirs s = grantStirs (grantStir i s) := by
  have hall : grantUpTo (3 + 1) (grantStir i s) = grantUpTo 3 (grantStir i s) :=
    grantUpTo_enough 3 (by rw [grantStir_length]; omega)
  exact (grantUpTo_succ 3 hfree hnext).trans hall.symm

theorem grantStirs_length (h : s.stir.runs.length ≤ 4) : (grantStirs s).stir.runs.length ≤ 4 :=
  grantUpTo_induction (P := fun t => t.stir.runs.length ≤ 4)
    (fun t i hfree _ _ => by rw [grantStir_length]; exact hfree) 4 h

/-- A grant touches the activity of a canister alone. -/
theorem grantStirs_can (i : Slot) :
    (grantStirs s).cans[i] = { s.cans[i] with activity := ((grantStirs s).cans[i]).activity } := by
  refine grantUpTo_induction (P := fun t => t.cans[i] = { s.cans[i] with activity := (t.cans[i]).activity })
    (fun t j _ _ ht => ?_) 4 rfl
  rw [grantStir_cans]
  split
  · rw [ht]
  · exact ht

theorem grantStirs_minute : (grantStirs s).stir.minute = s.stir.minute :=
  grantUpTo_induction (P := fun t => t.stir.minute = s.stir.minute) (fun _ _ _ _ ht => ht) 4 rfl

/-- Every run that the grants add is a fresh one, on a canister that was IDLE and is stirred now. -/
def FreshRuns (s t : State) : Prop :=
  ∀ r ∈ t.stir.runs, r ∉ s.stir.runs → (s.cans[r.slot]).activity = .idle ∧ (t.cans[r.slot]).activity = .stirring ∧
    r.left = s.cfg.general.stirRun * 1000 ∧ r.check = some 3000

theorem grantStirs_fresh : FreshRuns s (grantStirs s) := by
  have hkept : FreshRuns s (grantStirs s) ∧ (grantStirs s).cfg = s.cfg ∧
      ∀ i : Slot, ((grantStirs s).cans[i]).activity = .idle → (s.cans[i]).activity = .idle := by
    refine grantUpTo_induction (P := fun t => FreshRuns s t ∧ t.cfg = s.cfg ∧
      ∀ i : Slot, (t.cans[i]).activity = .idle → (s.cans[i]).activity = .idle) (fun t i hfree hnext ht => ?_) 4
      ⟨fun r hr hnew => absurd hr hnew, rfl, fun _ hi => hi⟩
    obtain ⟨hfresh, hcfg, hidle⟩ := ht
    refine ⟨fun r hr hnew => ?_, by simpa using hcfg, fun j hj => ?_⟩
    · rw [grantStir_cans]
      rcases List.mem_append.1 (show r ∈ t.stir.runs ++ _ from hr) with hr | hr
      · obtain ⟨hwas, hnow, hleft, hcheck⟩ := hfresh r hr hnew
        refine ⟨hwas, ?_, hleft, hcheck⟩
        split
        · rfl
        · exact hnow
      · cases List.mem_singleton.1 hr
        exact ⟨hidle i ((stirEligible_iff i).1 (nextGrant_eligible hnext)).1, by simp, by rw [hcfg], rfl⟩
    · rw [grantStir_cans] at hj
      split at hj
      · simp at hj
      · exact hidle j hj
  exact hkept.1

/-! ## The call of a tin (R10, R78) -/

theorem settle_online (hon : s.online = true) : settle s = keepDeferrals (askTin (grantStirs s)) := if_pos hon

theorem settle_offline (hoff : s.online = false) : settle s = s := by simp [settle, hoff]

theorem mayCall_iff : mayCall s = true ↔ s.disp.st = .empty ∧ s.mon.mode = .run ∧ s.mon.safe = false ∧
    s.inputs.presDispense = false ∧ s.stopStands = false := by
  simp [mayCall, and_assoc]

theorem mayCall_grantStirs : mayCall (grantStirs s) = mayCall s := by
  simp [mayCall, State.stopStands, State.stationStop, State.anyFault]

/-- A bay that may call takes a tin of the first eligible job. -/
theorem askTin_called {j : Job} (hcall : mayCall s = true) (hj : firstEligible s.jobs = some j) :
    askTin s = { s with
      events := { s.events with flags := s.events.flags ||| BitVec.twoPow 15 2 }
      jobs := issueTin j s.jobs
      disp := { s.disp with
        st := .called, resume := none, step := none, removed := false
        tin := some (openRecord s { j with issued := j.issued + 1 }) } } := by
  rw [askTin, if_pos hcall, hj]
  rfl

theorem askTin_uncalled (h : mayCall s = false ∨ firstEligible s.jobs = none) : askTin s = s := by
  unfold askTin
  rcases h with h | h
  · simp [h]
  · rw [h]
    split <;> rfl

theorem openRecord_congr {t : State} (h : t.cfg = s.cfg) (j : Job) : openRecord t j = openRecord s j := by
  simp [openRecord, h]

/-- Settles O4: the frames of the grants, of the call and of the deferral timers together. -/
theorem settleTouchesOnlyItsBlocks : Obligations.SettleTouchesOnlyItsBlocks := by
  unfold Obligations.SettleTouchesOnlyItsBlocks
  intro s t
  cases hon : s.online with
  | false =>
    have ht : t = s := settle_offline hon
    rw [ht]
    simp
  | true =>
    have ht : t = keepDeferrals (askTin (grantStirs s)) := settle_online hon
    have hcan (i : Slot) : t.cans[i] = { s.cans[i] with activity := (t.cans[i]).activity } := by
      have hcans : t.cans = (grantStirs s).cans := by simp [ht]
      rw [hcans]
      exact grantStirs_can i
    have hcall : t.disp = s.disp ∧ t.jobs = s.jobs ∧ t.events = s.events ∨ s.disp.st = .empty ∧ t.disp.st = .called ∧
        t.events = { s.events with flags := s.events.flags ||| BitVec.twoPow 15 2 } := by
      cases hmay : mayCall (grantStirs s) with
      | false =>
        rw [askTin_uncalled (.inl hmay)] at ht
        exact .inl (by simp [ht])
      | true =>
        cases hj : firstEligible (grantStirs s).jobs with
        | none =>
          rw [askTin_uncalled (.inr hj)] at ht
          exact .inl (by simp [ht])
        | some j =>
          rw [askTin_called hmay hj] at ht
          rw [mayCall_grantStirs] at hmay
          exact .inr ⟨(mayCall_iff.1 hmay).1, by simp [ht], by simp [ht]⟩
    have hdeferral (u : State) : (keepDeferrals u).carriage =
          { u.carriage with deferral := (keepDeferrals u).carriage.deferral } ∧
        (keepDeferrals u).lid = { u.lid with deferral := (keepDeferrals u).lid.deferral } ∧
        (keepDeferrals u).shake = { u.shake with deferral := (keepDeferrals u).shake.deferral } := ⟨rfl, rfl, rfl⟩
    obtain ⟨hcarriage, hlid, hshake⟩ := hdeferral (askTin (grantStirs s))
    rw [← ht] at hcarriage hlid hshake
    simp only [askTin_frame, grantStirs_frame] at hcarriage hlid hshake
    have hminute : t.stir.minute = s.stir.minute := by simp [ht, grantStirs_minute]
    refine ⟨?_, ?_, ?_, ?_, ?_, ?_, ?_, ?_, ?_, ?_, ?_, ?_, ?_, ?_, ?_, hcarriage, hlid, hshake, hcan, hminute, hcall,
      fun hoff => absurd hoff (by simp)⟩ <;> simp [ht]

/-! ## The deferral timers (R114) -/

theorem carriageDue_congr {t : State} (hc : t.carriage.st = s.carriage.st ∧ t.carriage.homeDue = s.carriage.homeDue)
    (hl : lidMoveEligible t = lidMoveEligible s) (hd : dispMoveEligible t = dispMoveEligible s)
    (hstop : t.stopStands = s.stopStands) : carriageDue t = carriageDue s := by
  simp [carriageDue, moveDue, homeRunDue, hc, hl, hd, hstop]

/-- The call of a tin makes no move due: the bay it leaves is CALLED. -/
theorem askTin_carriageDue : carriageDue (askTin s) = carriageDue s := by
  refine carriageDue_congr (by simp) (by simp [lidMoveEligible]) ?_
    (by simp [State.stopStands, State.stationStop, State.anyFault])
  cases hmay : mayCall s with
  | false => rw [askTin_uncalled (.inl hmay)]
  | true =>
    cases hj : firstEligible s.jobs with
    | none => rw [askTin_uncalled (.inr hj)]
    | some j =>
      rw [askTin_called hmay hj]
      simp [dispMoveEligible, (mayCall_iff.1 hmay).1]

theorem grantStirs_carriageDue : carriageDue (grantStirs s) = carriageDue s :=
  carriageDue_congr (by simp) (by simp [lidMoveEligible]) (by simp [dispMoveEligible])
    (by simp [State.stopStands, State.stationStop, State.anyFault])

theorem quietAllows_iff : quietAllows s = !(s.disp.quiet && s.cfg.general.quietLimit != 0) := by
  by_cases h : s.cfg.general.quietLimit = 0 <;> simp [quietAllows, h]

/-- The call of a tin leaves the quiet request. -/
theorem askTin_quietMark : (askTin s).disp.quiet = s.disp.quiet := by
  unfold askTin
  repeat' split
  all_goals rfl

theorem deferralOf_eq (due quiet : Bool) (t : Option Nat) :
    deferralOf due quiet t = if (due && quiet) = true then some (t.getD 0) else none := rfl

/-- The deferral timers as `settle` leaves them. -/
theorem settle_deferrals (hon : s.online = true) :
    let waits := s.disp.quiet && s.cfg.general.quietLimit != 0
    (settle s).carriage.deferral = (if (carriageDue s && waits) = true then some (s.carriage.deferral.getD 0) else none) ∧
    (settle s).lid.deferral = (if (pressDue s && waits) = true then some (s.lid.deferral.getD 0) else none) ∧
    (settle s).shake.deferral = (if (spinDue s && waits) = true then some (s.shake.deferral.getD 0) else none) := by
  intro waits
  have hquiet : (!quietAllows (askTin (grantStirs s))) = waits := by
    rw [quietAllows_iff, Bool.not_not, askTin_quietMark]
    simp [waits]
  have hcar : carriageDue (askTin (grantStirs s)) = carriageDue s := askTin_carriageDue.trans grantStirs_carriageDue
  have hpress : pressDue (askTin (grantStirs s)) = pressDue s := by simp [pressDue]
  have hspin : spinDue (askTin (grantStirs s)) = spinDue s := by simp [spinDue]
  rw [settle_online hon]
  simp [keepDeferrals, hquiet, hcar, hpress, hspin, deferralOf_eq]

/-! ## The stirrers as `settle` leaves them -/

theorem settle_grants (hon : s.online = true) :
    (settle s).stir = (grantStirs s).stir ∧ (settle s).cans = (grantStirs s).cans := by
  simp [settle_online hon]

theorem nextGrant_congr {t : State} (hst : t.stir = s.stir) (hc : t.cans = s.cans) (hcfg : t.cfg = s.cfg)
    (hi : t.inputs = s.inputs) (hm : t.mon = s.mon) : nextGrant t = nextGrant s := by
  have helig : stirEligible t = stirEligible s := funext fun i =>
    Bool.eq_iff_iff.2 (by rw [stirEligible_iff, stirEligible_iff, hc, hi, hm])
  have hper : periodic t = periodic s := funext fun i =>
    Bool.eq_iff_iff.2 (by rw [periodic_iff, periodic_iff, hc, hcfg, hst])
  have hoverdue : overdue t = overdue s := funext fun i => by
    unfold overdue State.can State.canStatic
    rw [hc, hcfg]
  have hmost (l : List Slot) : mostOverdue t l = mostOverdue s l := by
    induction l with
    | nil => rfl
    | cons k ks ih => simp only [mostOverdue, ih, hoverdue]
  simp [nextGrant, helig, hper, hmost, hst]

theorem settle_nextGrant (hon : s.online = true) (hfree : (settle s).stir.runs.length < 4) :
    nextGrant (settle s) = none := by
  obtain ⟨hstir, hcans⟩ := settle_grants hon
  rw [hstir] at hfree
  have hsame : nextGrant (settle s) = nextGrant (grantStirs s) := by
    refine nextGrant_congr hstir hcans ?_ ?_ ?_ <;> simp [settle_online hon]
  rw [hsame]
  exact grantUpTo_none 4 (by omega) hfree

theorem settle_fresh : FreshRuns s (settle s) := by
  cases hon : s.online with
  | false =>
    rw [settle_offline hon]
    exact fun r hr hnew => absurd hr hnew
  | true =>
    obtain ⟨hstir, hcans⟩ := settle_grants hon
    intro r hr hnew
    rw [hstir] at hr
    rw [hcans]
    exact grantStirs_fresh r hr hnew

theorem settle_runs_length (h : s.stir.runs.length ≤ 4) : (settle s).stir.runs.length ≤ 4 := by
  cases hon : s.online with
  | false => rwa [settle_offline hon]
  | true =>
    rw [(settle_grants hon).1]
    exact grantStirs_length h

/-- With the door open or under ESTOP no canister is eligible. -/
theorem settle_ungranted (h : s.inputs.doorOpen = true ∨ s.mon.estop = true) :
    (settle s).stir = s.stir ∧ (settle s).cans = s.cans := by
  have hnone : nextGrant s = none := nextGrant_eq_none.2 fun i hi => by
    obtain ⟨-, hdoor, hestop⟩ := (stirEligible_iff i).1 hi
    rcases h with h | h <;> simp_all
  cases hon : s.online with
  | false => simp [settle_offline hon]
  | true =>
    have hsame : grantStirs s = s := grantUpTo_done 4 (.inr hnone)
    obtain ⟨hstir, hcans⟩ := settle_grants hon
    rw [hsame] at hstir hcans
    exact ⟨hstir, hcans⟩

/-! ## Requests (R33, R34) -/

theorem hasSettled_iff (i : Slot) : hasSettled s i = true ↔
    (s.cfg.cans[i]).settleLimit ≠ 0 ∧ (s.cfg.cans[i]).settleLimit < (s.cans[i]).age := by
  simp only [hasSettled, Bool.and_eq_true, decide_eq_true_eq]
  rfl

theorem makePre_refused_iff (i : Slot) :
    ((s.can i).state = .faulted || (s.can i).state = .absent || s.stirring i || s.preRequested i) = true ↔
    (s.cans[i]).state = .faulted ∨ (s.cans[i]).state = .absent ∨ (s.cans[i]).activity = .stirring ∨ i ∈ s.stir.pre := by
  simp only [State.stirring, State.preRequested, Bool.or_eq_true, decide_eq_true_eq, or_assoc, List.contains_eq_mem]
  rfl

theorem makePre_refused {i : Slot} (h : (s.cans[i]).state = .faulted ∨ (s.cans[i]).state = .absent ∨
    (s.cans[i]).activity = .stirring ∨ i ∈ s.stir.pre) : makePre i s = s :=
  if_pos ((makePre_refused_iff i).2 h)

theorem makePre_joins {i : Slot} (h : ¬ ((s.cans[i]).state = .faulted ∨ (s.cans[i]).state = .absent ∨
    (s.cans[i]).activity = .stirring ∨ i ∈ s.stir.pre)) :
    makePre i s = { s with stir := { s.stir with pre := s.stir.pre ++ [i] } } :=
  if_neg (mt (makePre_refused_iff i).1 h)

theorem firstEligible_none (h : ∀ k ∈ s.jobs.records, 2 < k.priority) : firstEligible s.jobs = none := by
  refine List.find?_eq_none.2 fun k hk => ?_
  simp [Job.eligible, h k hk]

/-- Settles O5: the call, the grants and the deferral timers, each from its own part of `settle`. -/
theorem settleCallsGrantsAndDefers : Obligations.SettleCallsGrantsAndDefers := by
  unfold Obligations.SettleCallsGrantsAndDefers
  refine ⟨⟨?called, ?uncalled⟩, ⟨fun s hon => settle_nextGrant hon, fun s => settle_runs_length,
    fun s r => settle_fresh r, fun s => settle_ungranted, fun s => settle_grants, ?grant, ?next, ?requests⟩,
    fun s => settle_deferrals⟩
  case called =>
    intro s j hon hst hmode hsafe hpres hstop hj j' t
    have hmay : mayCall (grantStirs s) = true :=
      mayCall_grantStirs.trans (mayCall_iff.2 ⟨hst, hmode, hsafe, hpres, hstop⟩)
    have hfirst : firstEligible (grantStirs s).jobs = some j :=
      (congrArg firstEligible (by simp : (grantStirs s).jobs = s.jobs)).trans hj
    have ht : t = keepDeferrals (askTin (grantStirs s)) := settle_online hon
    rw [askTin_called hmay hfirst] at ht
    refine ⟨?_, by simp [ht], ?_⟩
    · simp [ht, j', openRecord_congr (s := s) (t := grantStirs s) (by simp)]
    · simp [ht, issueTin, j']
  case uncalled =>
    intro s hwhy
    cases hon : s.online with
    | false => simp [settle_offline hon]
    | true =>
      have hask : askTin (grantStirs s) = grantStirs s := by
        refine askTin_uncalled ?_
        rcases hwhy with h | h | h | h | h | h
        case inr.inr.inr.inr.inr => exact .inr (firstEligible_none (by simpa using h))
        all_goals
          left
          rw [mayCall_grantStirs, Bool.eq_false_iff, Ne, mayCall_iff]
          simp [h]
      rw [settle_online hon, hask]
      simp
  case grant =>
    exact fun s => ⟨fun h => grantUpTo_done 4 h, fun i hfree hnext => grantStirs_grant hfree hnext⟩
  case next =>
    intro s overdueBy first
    refine ⟨nextGrant_eq_none, fun i hi => nextGrant_of_pre hi, fun i hfirst hper helig hmost => ?_⟩
    rw [nextGrant_of_none hfirst]
    refine mostOverdue_eq ((List.pairwise_lt_finRange 16).filter _) (mem_periodics.2 ⟨hper, helig⟩) fun j hj => ?_
    obtain ⟨hjper, hjelig⟩ := mem_periodics.1 hj
    exact hmost j hjper hjelig
  case requests =>
    refine fun s i => ⟨stirEligible_iff i, periodic_iff i, hasSettled_iff i, fun h => makePre_refused h,
      fun hf ha hs hp => makePre_joins ?_⟩
    rintro (h | h | h | h)
    · exact hf h
    · exact ha h
    · exact hs h
    · exact hp h

end Sys2Proof.Proofs
end

