-- ==== Sys2Proof/Proofs/PowerAndReset.lean ====
section
/-! PROOF. Power, the reset line and the end of a sector write: what is forgotten and what is kept (R200, R201). -/

namespace Sys2Proof.Proofs

open Sys2Proof Sys2Proof.Machine Sys2Proof.Safety Sys2Proof.Laws

variable {s : State}

/-! ## Going down -/

/-- The state with all that is volatile at its reset value. -/
def forgotten (p : Phase) (store : Store) (free : Nat) (s : State) : State :=
  { State.reset with phase := p, inputs := s.inputs, store := store, free := free, pending := s.pending }

theorem goDown_eq (p : Phase) (s : State) : goDown p s = forgotten p s.store s.free s := rfl

/-- The bytes a draw leaves of a sector. -/
def drawnBytes (x : SectorId) (s : State) : List Byte :=
  (List.range (s.store.sector x).length).map (Config.freeByte s.free)

theorem drawnBytes_length (x : SectorId) : (drawnBytes x s).length = (s.store.sector x).length := by simp [drawnBytes]

theorem scramble_eq (x : SectorId) (s : State) :
    scramble x s = { s with store := s.store.setSector x (drawnBytes x s), free := s.free + 1 } := rfl

theorem cutWrite_idle (h : s.store.write = none) : cutWrite s = s := by
  unfold cutWrite
  rw [h]

theorem cutWrite_busy {w : WriteJob} (h : s.store.write = some w) : cutWrite s = { s with
    store := { s.store.setSector w.part.sector (drawnBytes w.part.sector s) with write := none }, free := s.free + 1 } := by
  unfold cutWrite
  rw [h]
  rfl

theorem cutWrite_phase : (cutWrite s).phase = s.phase := by
  unfold cutWrite
  split <;> rfl

theorem lineHeld_iff (p : Phase) : p.lineHeld = true ↔ p = .held ∨ p = .offHeld := by
  cases p <;> simp [Phase.lineHeld]

/-- Where a part goes on a loss of power and on a power-on. -/
theorem lineHeld_ite (a b : Phase) :
    (if s.phase.lineHeld then a else b) = if s.phase = .held ∨ s.phase = .offHeld then a else b :=
  if_congr (lineHeld_iff s.phase) rfl rfl

theorem exec_powerLoss : exec .powerLoss s =
    .next (goDown (if s.phase = .held ∨ s.phase = .offHeld then .offHeld else .off) (cutWrite s)) := by
  rw [← lineHeld_ite]
  rfl

theorem exec_powerOn : exec .powerOn s =
    .next (goDown (if s.phase = .held ∨ s.phase = .offHeld then .held else .starting) (cutWrite s)) := by
  rw [← lineHeld_ite]
  rfl

theorem exec_resetLine (active : Bool) : exec (.resetLine active) s = .next
    (if s.phase = .off || s.phase = .offHeld then s.mapPhase fun _ => if active then .offHeld else .off
     else if active then goDown .held (cutWrite s)
     else if s.phase = .held then s.mapPhase fun _ => .starting
     else s) := rfl

theorem exec_resetLine_acting (hoff : s.phase ≠ .off) (hheld : s.phase ≠ .offHeld) :
    exec (.resetLine true) s = .next (goDown .held (cutWrite s)) := by
  rw [exec_resetLine]
  simp [hoff, hheld]

/-- Settles O7: all three cut a write short, and what they leave is the reset state with the sectors in it. -/
theorem powerAndResetLineForget : Obligations.PowerAndResetLineForget := by
  unfold Obligations.PowerAndResetLineForget
  intro down lost on
  refine ⟨fun s hidle => ?idle, fun s w hwrite => ?busy, fun s hheld => ?released, fun s active hoff => ?unpowered,
    fun s hheld hoff => ?ignored⟩
  case idle =>
    rw [exec_powerLoss, exec_powerOn, cutWrite_idle hidle]
    refine ⟨rfl, rfl, fun hoff hheld => ?_⟩
    rw [exec_resetLine_acting hoff hheld, cutWrite_idle hidle]
    rfl
  case busy =>
    refine ⟨drawnBytes w.part.sector s, drawnBytes_length _, ?_⟩
    intro t
    rw [exec_powerLoss, exec_powerOn, cutWrite_busy hwrite]
    refine ⟨rfl, rfl, fun hoff hheld => ?_⟩
    rw [exec_resetLine_acting hoff hheld, cutWrite_busy hwrite]
    rfl
  case released =>
    rw [exec_resetLine]
    simp [hheld, State.mapPhase]
  case unpowered =>
    rw [exec_resetLine]
    rcases hoff with h | h <;> simp [h, State.mapPhase]
  case ignored =>
    rw [exec_resetLine]
    by_cases hoffp : s.phase = .off
    · have hsame : s.mapPhase (fun _ => .off) = s := by
        unfold State.mapPhase
        rw [← hoffp]
      simp [hoffp, hsame]
    · simp [hoffp, hheld, hoff]

end Sys2Proof.Proofs
end

