-- ==== Sys2Proof/Proofs/StationPort.lean ====
section
/-! PROOF. The station port: what a request's command does, the receiver, and the reading of payloads (R183 to R189,
R206 to R208). -/

namespace Sys2Proof.Proofs

open Sys2Proof Sys2Proof.Machine Sys2Proof.Safety Sys2Proof.Laws Sys2Proof.Laws.Fits

variable {s u : State} {c : Instr} {r : Request}

/-! ## The frames of a command -/

theorem whenServing_running (f : State → State) (h : s.phase = .running) : whenServing f s = settle (f s) := by
  simp [whenServing, State.serves, h]

theorem whenServing_idle (f : State → State) (h : s.phase ≠ .running) : whenServing f s = s := by
  simp [whenServing, State.serves, h]

/-- A request's command has its request arrive. -/
theorem exec_request (hc : requestOfCommand c = some r) : exec c s = .next (whenServing (requestArrives r) s) := by
  cases c <;> cases hc <;> rfl

/-! ## Taking a request (R184 to R187) -/

@[simp] theorem restartKeepalive_port : (restartKeepalive s).port = s.port := by simp

theorem restartKeepalive_mode : (restartKeepalive s).mon.mode = s.mon.mode := by
  unfold restartKeepalive
  split <;> rfl

theorem restartKeepalive_offline (h : s.mon.mode = .offline) : restartKeepalive s = s := by
  simp [restartKeepalive, h]

theorem restartKeepalive_running (h : 0 < s.cfg.general.keepalive) (hm : s.mon.mode ≠ .offline) : restartKeepalive s =
    { s with mon := { s.mon with keepalive := some (s.cfg.general.keepalive * 1000) } } := by
  unfold restartKeepalive
  rw [if_neg (by simp [hm, h.ne'])]
  rfl

theorem takeMessage_eq (m : Message) : takeMessage m s =
    withResponse m.kind (answerMessage m s).status (answerMessage m s).payload s.port.overrun (answerMessage m s).after := rfl

/-- A message that a free port is given is taken at once; a valid one restarts the keepalive timer. -/
theorem messageArrives_free (m : Message) (h : portFree s) :
    messageArrives m s = takeMessage m (if m.valid then restartKeepalive s else s) := by
  obtain ⟨-, hanswering, hheld⟩ := h
  unfold messageArrives
  rw [hheld]
  dsimp only
  rw [hanswering]
  rfl

theorem exec_request_free (hc : requestOfCommand c = some r) (h : portFree s) :
    exec c s = .next (settle (takeMessage (.request r) (restartKeepalive s))) := by
  rw [exec_request hc, whenServing_running _ h.1]
  exact congrArg (fun t => Host.Outcome.next (settle t)) (messageArrives_free _ h)

/-- The owner's answer, begun as the response to its request. -/
def answered (r : Request) (overrun : Bool) (u : State) : State :=
  withResponse (requestKind r) (ownerAnswer r u).status (ownerAnswer r u).payload overrun (ownerAnswer r u).after

theorem takeMessage_served (h : offlineRefused (requestKind r) u = false) :
    takeMessage (.request r) u = answered r u.port.overrun u := by
  have ha : answerMessage (.request r) u = ownerAnswer r u := by
    rw [answerMessage.eq_4, h]
    rfl
  rw [takeMessage_eq, ha]
  rfl

/-- A request that a free port takes is answered by its owner, unless its kind is refused in OFFLINE. -/
theorem exec_answered (hc : requestOfCommand c = some r) (h : portFree s)
    (hs : s.mon.mode ≠ .offline ∨ servedOffline (requestKind r) = true) :
    exec c s = .next (settle (answered r s.port.overrun (restartKeepalive s))) := by
  have hserved : offlineRefused (requestKind r) (restartKeepalive s) = false := by
    rcases hs with hs | hs
    · simp [offlineRefused, restartKeepalive_mode, hs]
    · simp [offlineRefused, hs]
  rw [exec_request_free hc h, takeMessage_served hserved, restartKeepalive_port]

theorem exec_serving (hc : requestOfCommand c = some r) (h : serving s) :
    exec c s = .next (settle (answered r s.port.overrun (restartKeepalive s))) := exec_answered hc h.1 (.inl h.2)

/-- A request of which the owner makes this. -/
theorem exec_done {st : Status} {payload : List Byte} {t : State} (hc : requestOfCommand c = some r) (h : portFree s)
    (hs : s.mon.mode ≠ .offline ∨ servedOffline (requestKind r) = true)
    (ha : ownerAnswer r (restartKeepalive s) = { status := st, payload := payload, after := t }) :
    exec c s = .next (settle (withResponse (requestKind r) st payload s.port.overrun t)) := by
  rw [exec_answered hc h hs]
  unfold answered
  rw [ha]

theorem servedOffline_iff (k : Byte) :
    servedOffline k = true ↔ k ∈ ([0x0E, 0x0F, 0x10, 0x15, 0x16, 0x17, 0x18] : List Byte) := by
  simp [servedOffline, or_assoc]

/-- Settles O14: the owner's answer is the response; the rest of the keepalive and of OFFLINE is the common checks'. -/
theorem requestsAreAnsweredByTheirOwner : Obligations.RequestsAreAnsweredByTheirOwner := by
  unfold Obligations.RequestsAreAnsweredByTheirOwner
  refine ⟨fun c r s hc hs => exec_serving hc hs, fun s hs hkeep => restartKeepalive_running hkeep hs.2,
    fun c r s hc hfree hoff hkind => ?_⟩
  have hrefused : offlineRefused (requestKind r) s = true := by
    have hnot : servedOffline (requestKind r) = false := Bool.eq_false_iff.2 (mt (servedOffline_iff _).1 hkind)
    simp [offlineRefused, hoff, hnot]
  have ha : answerMessage (.request r) s = refuse .notPermitted s := by rw [answerMessage.eq_4, if_pos hrefused]
  rw [exec_request_free hc hfree, restartKeepalive_offline hoff, takeMessage_eq, ha]
  exact congrArg Host.Outcome.next (settle_offline (by simp [State.online, withResponse, refuse, hoff]))

/-! ## Holding and the end of a response (R185, R189) -/

theorem exec_responseSent (h : s.phase = .running) : exec .responseSent s = .next (settle (endResponse s)) :=
  congrArg Host.Outcome.next (whenServing_running _ h)

theorem endResponse_free {a : Response} (ha : s.port.answering = some a) (hr : ¬ (a.kind = 0x17 ∧ a.status = .ok))
    (hheld : s.port.held = none) : endResponse s = s.mapPort fun p => { p with answering := none } := by
  unfold endResponse
  rw [ha]
  dsimp only
  rw [if_neg (by simpa using hr), hheld]

theorem endResponse_held {a : Response} {m : Message} (ha : s.port.answering = some a)
    (hr : ¬ (a.kind = 0x17 ∧ a.status = .ok)) (hheld : s.port.held = some m) :
    endResponse s = takeMessage m (s.mapPort fun p => { p with answering := none, held := none }) := by
  unfold endResponse
  rw [ha]
  dsimp only
  rw [if_neg (by simpa using hr), hheld]

/-- Settles O13: one request is held behind the one being answered, and is taken at the end of its response. -/
theorem portAnswersOneAtATime : Obligations.PortAnswersOneAtATime := by
  unfold Obligations.PortAnswersOneAtATime
  refine ⟨fun c r s hc hrun hbusy => ⟨fun hheld => ?held, fun hheld => ?overrun⟩,
    fun s a hrun ha hr => ⟨fun hheld => ?free, fun m hheld => ?taken⟩⟩
  case held =>
    intro t
    have harrives : requestArrives r s = t.mapPort fun p => { p with held := some (.request r) } := by
      unfold requestArrives messageArrives
      rw [hheld, hbusy]
      rfl
    rw [exec_request hc, whenServing_running _ hrun, harrives]
    rfl
  case overrun =>
    rw [exec_request hc, whenServing_running _ hrun]
    unfold requestArrives messageArrives
    rw [if_pos hheld]
    rfl
  case free =>
    rw [exec_responseSent hrun, endResponse_free ha hr hheld]
    rfl
  case taken =>
    rw [exec_responseSent hrun, endResponse_held ha hr hheld]
    rfl

/-- Settles O16: PING and RESET pass every mode, and the start follows the response or waits for a write. -/
theorem pingAndReset : Obligations.PingAndReset := by
  unfold Obligations.PingAndReset
  refine ⟨?requests, ?starts, fun c r s hc hwait => ?silent⟩
  case requests =>
    rintro s u hfree rfl
    exact ⟨fun payload hshort => exec_done (r := .ping payload) rfl hfree (.inr rfl) (if_neg (by omega)),
      fun payload hlong => exec_done (r := .ping payload) rfl hfree (.inr rfl) (if_pos hlong),
      exec_done (r := .reset) rfl hfree (.inr rfl) rfl⟩
  case starts =>
    intro s a hrun ha hkind hstatus
    have hreset : endResponse s = resetStart s := by
      unfold endResponse
      rw [ha]
      simp [hkind, hstatus]
    rw [exec_responseSent hrun, hreset]
    refine ⟨fun hidle => ?_, fun hbusy => ?_⟩
    · have hdown : resetStart s = goDown .starting s := by simp [resetStart, hidle]
      rw [hdown]
      rfl
    · rw [resetStart, if_pos hbusy]
      rfl
  case silent =>
    rw [exec_request hc, whenServing_idle _ (by simp [hwait])]

/-! ## Queries and events (R188, R192, R193, R199) -/

theorem slotOf_eq {slot : Byte} {i : Slot} (h : slot.toNat = i.val + 1) : slotOf slot = some i := by
  have hi := i.isLt
  unfold slotOf
  rw [dif_pos (by omega)]
  exact congrArg some (Fin.ext (by simp [h]))

theorem slotOf_none {slot : Byte} (h : slot = 0 ∨ 16 < slot.toNat) : slotOf slot = none := by
  refine dif_neg fun hr => ?_
  rcases h with rfl | h
  · simp at hr
  · omega

/-- Settles O15: the owner of a query leaves the state it is asked in. -/
theorem queriesChangeNothing : Obligations.QueriesChangeNothing := by
  unfold Obligations.QueriesChangeNothing
  rintro s u ⟨hfree, hon⟩ rfl
  have hs {r : Request} : s.mon.mode ≠ .offline ∨ servedOffline (requestKind r) = true := .inl hon
  refine ⟨exec_done (r := .queryBays) rfl hfree hs rfl, exec_done (r := .peers) rfl hfree hs rfl,
    fun slot i hslot => exec_done (r := .canQuery slot) rfl hfree hs ?_,
    fun job hknown => exec_done (r := .queryJob job) rfl hfree hs (if_pos hknown),
    fun job hunknown => exec_done (r := .queryJob job) rfl hfree hs (if_neg (by simp [hunknown])),
    fun sector part p hp hidle => exec_done (r := .nvRead sector part) rfl hfree hs ?_,
    fun sector part p hp hbusy => exec_done (r := .nvRead sector part) rfl hfree hs ?_⟩
  · change ownCanQuery slot _ = _
    rw [ownCanQuery, slotOf_eq hslot]
    rfl
  · change ownNvRead sector part _ = _
    rw [ownNvRead, hp]
    dsimp only
    rw [hidle]
    rfl
  · change ownNvRead sector part _ = _
    rw [ownNvRead, hp]
    dsimp only
    rw [if_pos hbusy]
    rfl

/-- Bit 15 is the one beyond the flags. -/
theorem beyondFlags_iff (set : Word16) : beyondFlags set = true ↔ 32768 ≤ set.toNat := by
  have hmsb := BitVec.msb_eq_decide set
  rw [BitVec.msb_eq_getLsbD_last] at hmsb
  rw [beyondFlags, hmsb, decide_eq_true_iff]

theorem setWidth_flags {set : Word16} (h : set.toNat < 32768) : (set.setWidth 15).toNat = set.toNat := by
  rw [BitVec.toNat_setWidth]
  omega

/-- The flags and the enables are not the keepalive's. -/
theorem restartKeepalive_events : (restartKeepalive s).events = s.events := by simp

theorem beyondFlags_small {set : Word16} (h : set.toNat < 32768) : beyondFlags set = false :=
  Bool.eq_false_iff.2 fun hb => absurd ((beyondFlags_iff set).1 hb) (by omega)

theorem ownEventMask_small {set : Word16} (h : set.toNat < 32768) : ownEventMask set u =
    accept (bytesOf 2 u.events.flags.toNat ++ bytesOf 2 set.toNat)
      { u with events := { flags := u.events.flags, enables := set.setWidth 15 } } := by
  unfold ownEventMask
  rw [beyondFlags_small h, ← setWidth_flags h]
  rfl

theorem ownEventAck_small {set : Word16} (h : set.toNat < 32768) : ownEventAck set u =
    accept (bytesOf 2 (u.events.flags &&& ~~~(set.setWidth 15)).toNat)
      { u with events := { flags := u.events.flags &&& ~~~(set.setWidth 15), enables := u.events.enables } } := by
  unfold ownEventAck
  rw [beyondFlags_small h]
  rfl

theorem eventsBytes_eq : eventsBytes u = bytesOf 2 u.events.flags.toNat ++ bytesOf 2 u.events.enables.toNat ++
    [if attention u then 0 else 1] := by
  unfold eventsBytes firstNamed choiceByte
  cases attention u <;> rfl

/-- Settles O18: the event requests are served in every mode and read the flags as they stand. -/
theorem eventsAndEventMask : Obligations.EventsAndEventMask := by
  unfold Obligations.EventsAndEventMask
  rintro s u hfree rfl
  rw [← restartKeepalive_events (s := s), attention_congr (restartKeepalive_events (s := s)).symm]
  refine ⟨exec_done (r := .events) rfl hfree (.inr rfl) ?_, fun set hset => exec_done (r := .eventMask set) rfl hfree
    (.inr rfl) (ownEventMask_small hset), fun set hset => exec_done (r := .eventMask set) rfl hfree (.inr rfl)
    (if_pos ((beyondFlags_iff set).2 hset))⟩
  rw [← eventsBytes_eq]
  rfl

/-- Settles O19: an acknowledged flag's bit is masked out of the register, and no other. -/
theorem eventAckClearsWhatItNames : Obligations.EventAckClearsWhatItNames := by
  unfold Obligations.EventAckClearsWhatItNames
  refine ⟨?requests, fun s f set hset => ?flags⟩
  case requests =>
    rintro s u hfree rfl
    rw [← restartKeepalive_events (s := s)]
    exact ⟨fun set hset => exec_done (r := .eventAck set) rfl hfree (.inr rfl) (ownEventAck_small hset),
      fun set hset => exec_done (r := .eventAck set) rfl hfree (.inr rfl) (if_pos ((beyondFlags_iff set).2 hset))⟩
  case flags =>
    intro acked
    have hacked (t : State) : (acked t).flag f = (t.flag f && !set.getLsbD f.bit) := by
      have hbit := flag_bit_lt f
      simp only [acked, ownEventAck_small hset, accept, State.flag]
      rw [BitVec.getLsbD_and, BitVec.getLsbD_not, BitVec.getLsbD_setWidth]
      simp [hbit]
    refine ⟨hacked s, fun hnamed => ?_, flag_setFlag_self f _⟩
    rw [hacked, hnamed, Bool.not_true, Bool.and_false]

end Sys2Proof.Proofs
end

