-- ==== Sys2Proof/Proofs/Messages.lean ====
section
/-! PROOF. The receiver takes a whole message byte by byte and judges it, and a request's payload reads back as the request
(R183, R184, R206 to R208). -/

namespace Sys2Proof.Proofs

open Sys2Proof Sys2Proof.Machine Sys2Proof.Safety Sys2Proof.Laws Sys2Proof.Laws.Fits

variable {s : State}

/-! ## The receiver, byte by byte (R183) -/

theorem receiveBytes_cons (b : Byte) (bs : List Byte) : receiveBytes (b :: bs) s = receiveBytes bs (receiveByte b s) := rfl

theorem receiveBytes_ignoring (bytes : List Byte) (h : s.port.receiver = .ignoring) : receiveBytes bytes s = s := by
  induction bytes with
  | nil => rfl
  | cons b bs ih =>
    have hsame : receiveByte b s = s := by
      unfold receiveByte
      rw [h]
    rw [receiveBytes_cons, hsame, ih]

/-- The receiver in a state of its own. -/
def withReceiver (r : Receiver) (s : State) : State := s.mapPort fun p => { p with receiver := r }

theorem withReceiver_twice (r r' : Receiver) : withReceiver r (withReceiver r' s) = withReceiver r s := rfl

theorem withReceiver_same {r : Receiver} (h : s.port.receiver = r) : withReceiver r s = s := by
  subst h
  rfl

theorem receiveByte_start (h : s.port.receiver = .hunting) : receiveByte 0x7E s = withReceiver (.assembling [0x7E]) s := by
  unfold receiveByte
  rw [h]
  rfl

theorem receiveByte_assembling {got : List Byte} (b : Byte) (h : s.port.receiver = .assembling got) :
    receiveByte b s =
      if (got ++ [b]).length = 3 && 300 < announcedSize (got ++ [b]) then withReceiver .ignoring s
      else if 6 ≤ (got ++ [b]).length && (got ++ [b]).length = announcedSize (got ++ [b]) then
        messageArrives (judgeBytes (got ++ [b])) (withReceiver .hunting s)
      else withReceiver (.assembling (got ++ [b])) s := by
  unfold receiveByte
  rw [h]
  rfl

/-- The length field stands in the first three bytes. -/
theorem announcedSize_append {got : List Byte} (rest : List Byte) (h : 3 ≤ got.length) :
    announcedSize (got ++ rest) = announcedSize got := by
  unfold announcedSize wordAt
  rw [List.drop_append_of_le_length (by omega), List.take_append_of_le_length (by simp; omega)]

/-- Behind its length field a message is taken as long as it announces, and then judged. -/
theorem receiveBytes_assembling {got : List Byte} (rest : List Byte) (hlong : 3 ≤ got.length)
    (hsize : announcedSize got = got.length + rest.length) (hsix : 6 ≤ got.length + rest.length) (hrest : rest ≠ []) :
    receiveBytes rest (withReceiver (.assembling got) s) =
      messageArrives (judgeBytes (got ++ rest)) (withReceiver .hunting s) := by
  induction rest generalizing got with
  | nil => exact absurd rfl hrest
  | cons b bs ih =>
    have hall : (got ++ [b]).length = got.length + 1 := by simp
    have hannounced : announcedSize (got ++ [b]) = got.length + (bs.length + 1) := by
      rw [announcedSize_append _ hlong, hsize, List.length_cons]
    rw [receiveBytes_cons, receiveByte_assembling (got := got) b rfl, hall, hannounced]
    cases bs with
    | nil =>
      have hsix' : 6 ≤ got.length + 1 := by simpa using hsix
      rw [if_neg (by simp; omega), if_pos (by simp; omega)]
      rfl
    | cons b' bs =>
      rw [if_neg (by simp; omega), if_neg (by simp)]
      have hgot : got ++ b :: b' :: bs = got ++ [b] ++ (b' :: bs) := by simp
      rw [hgot, ← ih (by rw [hall]; omega) (by rw [hannounced, hall]; simp; omega) (by rw [hall]; simp at hsix ⊢; omega)
        (by simp), withReceiver_twice]

/-! ## A whole message (R206) -/

theorem word_of_bytes (w : Word16) : BitVec.ofNat 16 (valueOf (bytesOf 2 w.toNat)) = w := by
  have hw := w.isLt
  refine BitVec.eq_of_toNat_eq ?_
  simp only [bytesOf, valueOf, List.foldl_cons, List.foldl_nil, BitVec.toNat_ofNat]
  omega

theorem long_of_bytes (w : Word32) : BitVec.ofNat 32 (valueOf (bytesOf 4 w.toNat)) = w := by
  have hw := w.isLt
  refine BitVec.eq_of_toNat_eq ?_
  simp only [bytesOf, valueOf, List.foldl_cons, List.foldl_nil, BitVec.toNat_ofNat]
  omega

/-- A length below 65,536 is read back from its two bytes. -/
theorem valueOf_bytesOf_two {n : Nat} (h : n < 65536) : valueOf (bytesOf 2 n) = n := by
  simp only [bytesOf, valueOf, List.foldl_cons, List.foldl_nil, BitVec.toNat_ofNat]
  omega

theorem announcedSize_start {n : Nat} (h : n < 65536) : announcedSize (0x7E :: bytesOf 2 n) = n + 6 := by
  have hfield : ((0x7E :: bytesOf 2 n : List Byte).drop 1).take 2 = bytesOf 2 n := rfl
  unfold announcedSize wordAt
  rw [hfield, valueOf_bytesOf_two h, BitVec.toNat_ofNat]
  omega

theorem two_bytes (n : Nat) : ∃ h l : Byte, bytesOf 2 n = [h, l] := ⟨_, _, rfl⟩

/-- The first three bytes of a message that fits the receiver. -/
theorem receiveBytes_start {n : Nat} (hr : s.port.receiver = .hunting) (h : n + 6 ≤ 300) :
    receiveBytes (0x7E :: bytesOf 2 n) s = withReceiver (.assembling (0x7E :: bytesOf 2 n)) s := by
  have hannounced : announcedSize (0x7E :: bytesOf 2 n) = n + 6 := announcedSize_start (by omega)
  obtain ⟨hi, lo, hbytes⟩ := two_bytes n
  rw [hbytes] at hannounced ⊢
  have hall : announcedSize ([0x7E, hi] ++ [lo]) = n + 6 := hannounced
  rw [receiveBytes_cons, receiveByte_start hr, receiveBytes_cons, receiveByte_assembling (got := [0x7E]) hi rfl,
    if_neg (by simp), if_neg (by simp), receiveBytes_cons, receiveByte_assembling (got := [0x7E, hi]) lo rfl,
    hall, if_neg (by simp; omega), if_neg (by simp)]
  rfl

theorem receiveBytes_tooLong {n : Nat} (hr : s.port.receiver = .hunting) (hn : n < 65536) (h : 300 < n + 6) :
    receiveBytes (0x7E :: bytesOf 2 n) s = withReceiver .ignoring s := by
  have hannounced : announcedSize (0x7E :: bytesOf 2 n) = n + 6 := announcedSize_start hn
  obtain ⟨hi, lo, hbytes⟩ := two_bytes n
  rw [hbytes] at hannounced ⊢
  have hall : announcedSize ([0x7E, hi] ++ [lo]) = n + 6 := hannounced
  rw [receiveBytes_cons, receiveByte_start hr, receiveBytes_cons, receiveByte_assembling (got := [0x7E]) hi rfl,
    if_neg (by simp), if_neg (by simp), receiveBytes_cons, receiveByte_assembling (got := [0x7E, hi]) lo rfl,
    hall, if_pos (by simp; omega)]
  rfl

theorem receiveBytes_append (a b : List Byte) : receiveBytes (a ++ b) s = receiveBytes b (receiveBytes a s) :=
  List.foldl_append

/-- The envelope of R206 round a kind and a payload, without its CRC. -/
def envelope (kind : Byte) (payload : List Byte) : List Byte := [0x7E] ++ bytesOf 2 payload.length ++ [kind] ++ payload

theorem envelope_length (kind : Byte) (payload : List Byte) : (envelope kind payload).length = payload.length + 4 := by
  simp [envelope, bytesOf_length]
  omega

/-- A hunting receiver that takes a whole message judges it and hunts on. -/
theorem receiveBytes_message {kind : Byte} {payload crc : List Byte} (hr : s.port.receiver = .hunting)
    (hfits : payload.length ≤ maxPayload) (hcrc : crc.length = 2) :
    receiveBytes (envelope kind payload ++ crc) s = messageArrives (judgeBytes (envelope kind payload ++ crc)) s := by
  have hmax : payload.length ≤ 294 := hfits
  have hparts : envelope kind payload ++ crc = (0x7E :: bytesOf 2 payload.length) ++ (kind :: (payload ++ crc)) := by
    simp [envelope]
  have hannounced : announcedSize (0x7E :: bytesOf 2 payload.length) = payload.length + 6 :=
    announcedSize_start (by omega)
  have hstart : (0x7E :: bytesOf 2 payload.length : List Byte).length = 3 := by simp [bytesOf_length]
  rw [hparts, receiveBytes_append, receiveBytes_start hr (by omega),
    receiveBytes_assembling _ (by rw [hstart]) (by rw [hannounced, hstart]; simp [hcrc]; omega)
      (by rw [hstart]; simp [hcrc]; omega) (by simp), withReceiver_same hr]

/-! ## The judgement of a message (R184, R187) -/

theorem judgeBytes_eq {kind : Byte} {payload crc : List Byte} (hcrc : crc.length = 2) :
    judgeBytes (envelope kind payload ++ crc) =
      if crcBytes (envelope kind payload) ≠ crc then .badFrame kind
      else if !knownKind kind then .badKind kind
      else
        match requestOf kind payload with
        | some r => .request r
        | none => .misfit kind := by
  have hlen : (envelope kind payload ++ crc).length - 2 = (envelope kind payload).length := by simp [hcrc]
  have hkind : byteAt (envelope kind payload ++ crc) 3 = kind := by simp [byteAt, envelope, bytesOf]
  have hpayload : (envelope kind payload).drop 4 = payload := by simp [envelope, bytesOf]
  unfold judgeBytes
  simp only [hlen, hkind, List.take_left', List.drop_left', hpayload] <;> rfl

theorem exec_messageComplete {kind : Byte} {payload crc : List Byte} (hrun : s.phase = .running)
    (hr : s.port.receiver = .hunting) (hfits : payload.length ≤ maxPayload) (hcrc : crc.length = 2) :
    exec (.messageComplete (envelope kind payload ++ crc)) s =
      .next (settle (messageArrives (judgeBytes (envelope kind payload ++ crc)) s)) := by
  rw [← receiveBytes_message hr hfits hcrc]
  exact congrArg Host.Outcome.next (whenServing_running _ hrun)

theorem messageBytes_eq (kind : Byte) (payload : List Byte) :
    messageBytes kind payload = envelope kind payload ++ crcBytes (envelope kind payload) := rfl

theorem crcBytes_length (bytes : List Byte) : (crcBytes bytes).length = 2 := bytesOf_length 2 _

/-- Settles O10: what the receiver discards it discards at the second length byte, and what it takes is judged whole. -/
theorem receiverDiscardsAndJudges : Obligations.ReceiverDiscardsAndJudges := by
  unfold Obligations.ReceiverDiscardsAndJudges
  refine ⟨fun s hrun => ⟨?gap, fun length hr hlong => ?tooLong, fun bytes hr => ?ignored⟩,
    fun s kind payload crc hfree hr hfits => ?badFrame, fun s kind payload hfree hr hfits hkind => ?badKind,
    fun s kind payload hs hr hfits hlow hhigh hnone => ?misfit⟩
  case gap => exact congrArg Host.Outcome.next (whenServing_running _ hrun)
  case tooLong =>
    refine congrArg Host.Outcome.next ((whenServing_running _ hrun).trans (congrArg settle ?_))
    exact receiveBytes_tooLong hr length.isLt hlong
  case ignored =>
    refine congrArg Host.Outcome.next ((whenServing_running _ hrun).trans (congrArg settle ?_))
    exact receiveBytes_ignoring bytes hr
  case badFrame =>
    intro body hdiffers
    have hjudged : judgeBytes (envelope kind payload ++ bytesOf 2 crc.toNat) = .badFrame kind := by
      rw [judgeBytes_eq (bytesOf_length 2 _), if_pos (show crcBytes (envelope kind payload) ≠ _ from hdiffers)]
    change exec (.messageComplete (envelope kind payload ++ bytesOf 2 crc.toNat)) s = _
    rw [exec_messageComplete hfree.1 hr hfits (bytesOf_length 2 _), hjudged, messageArrives_free _ hfree]
    rfl
  case badKind =>
    have hunknown : knownKind kind = false := by
      rcases hkind with rfl | hkind
      · rfl
      · simp [knownKind]
        omega
    have hjudged : judgeBytes (messageBytes kind payload) = .badKind kind := by
      rw [messageBytes_eq, judgeBytes_eq (crcBytes_length _), if_neg (by simp), hunknown]
      rfl
    rw [messageBytes_eq] at hjudged ⊢
    rw [exec_messageComplete hfree.1 hr hfits (crcBytes_length _), hjudged, messageArrives_free _ hfree]
    rfl
  case misfit =>
    have hknown : knownKind kind = true := by simp [knownKind, hlow, hhigh]
    have hjudged : judgeBytes (messageBytes kind payload) = .misfit kind := by
      rw [messageBytes_eq, judgeBytes_eq (crcBytes_length _), if_neg (by simp), hknown, hnone]
      rfl
    have hserved : offlineRefused kind (restartKeepalive s) = false := by
      simp [offlineRefused, restartKeepalive_mode, hs.2]
    have ha : answerMessage (.misfit kind) (restartKeepalive s) = refuse .badField (restartKeepalive s) := by
      rw [answerMessage.eq_3, hserved]
      rfl
    rw [messageBytes_eq] at hjudged ⊢
    rw [exec_messageComplete hs.1.1 hr hfits (crcBytes_length _), hjudged, messageArrives_free _ hs.1]
    change Host.Outcome.next (settle (takeMessage (.misfit kind) (restartKeepalive s))) = _
    rw [takeMessage_eq, ha, restartKeepalive_port]
    rfl

/-! ## Payloads (R207, R208) -/

theorem wordAt_bytesOf (pre post : List Byte) (w : Word16) :
    wordAt (pre ++ bytesOf 2 w.toNat ++ post) pre.length = w := by
  unfold wordAt
  rw [List.append_assoc, List.drop_left, List.take_left' (bytesOf_length 2 _), word_of_bytes]

theorem longAt_bytesOf (pre post : List Byte) (w : Word32) :
    longAt (pre ++ bytesOf 4 w.toNat ++ post) pre.length = w := by
  unfold longAt
  rw [List.append_assoc, List.drop_left, List.take_left' (bytesOf_length 4 _), long_of_bytes]

/-- The lines of a SUBMIT read back one after another. -/
theorem submitLines_flatten (lines : List (Byte × Word16)) :
    submitLines lines.length (lines.map fun l => l.1 :: bytesOf 2 l.2.toNat).flatten = lines := by
  induction lines with
  | nil => rfl
  | cons l ls ih =>
    have hword := wordAt_bytesOf [l.1] (ls.map fun l => l.1 :: bytesOf 2 l.2.toNat).flatten l.2
    have hrest : (((l :: ls).map fun l => l.1 :: bytesOf 2 l.2.toNat).flatten).drop 3 =
        (ls.map fun l => l.1 :: bytesOf 2 l.2.toNat).flatten := by simp [bytesOf]
    rw [List.length_cons, submitLines, hrest, ih]
    exact congrArg (· :: ls) (Prod.ext rfl hword)

/-- The payload of a SUBMIT in front of its lines. -/
def submitHead (f : SubmitFields) : List Byte :=
  bytesOf 4 f.orderRef.toNat ++ [f.size, f.count, f.priority] ++ bytesOf 2 f.shakeTime.toNat ++ [f.shakeClass, f.lineCount]

theorem submitHead_length (f : SubmitFields) : (submitHead f).length = 11 := by simp [submitHead, bytesOf_length]

theorem submit_reads_back (f : SubmitFields) (h : f.lineCount.toNat = f.lines.length) :
    requestOf 0x01 (requestPayload (.submit f)) = some (.submit f) := by
  have hpayload : requestPayload (.submit f) = submitHead f ++ (f.lines.map fun l => l.1 :: bytesOf 2 l.2.toNat).flatten := rfl
  have hlen : (requestPayload (.submit f)).length = 11 + 3 * f.lines.length := by
    rw [hpayload, List.length_append, submitHead_length, lines_length]
  have hcount : byteAt (requestPayload (.submit f)) 10 = f.lineCount := rfl
  have hread : submitOf (requestPayload (.submit f)) = f := by
    have horder := longAt_bytesOf [] ((requestPayload (.submit f)).drop 4) f.orderRef
    have htime := wordAt_bytesOf ((requestPayload (.submit f)).take 7) ((requestPayload (.submit f)).drop 9) f.shakeTime
    have hlines : submitLines (((requestPayload (.submit f)).length - 11) / 3) ((requestPayload (.submit f)).drop 11) =
        f.lines := by
      rw [hlen, hpayload, List.drop_left' (submitHead_length f), Nat.add_sub_cancel_left,
        Nat.mul_div_cancel_left _ (by omega), submitLines_flatten]
    unfold submitOf
    rw [hlines]
    exact congrArg₂ (fun o t => ({ f with orderRef := o, shakeTime := t } : SubmitFields)) horder htime
  change fitting (_ && _) _ = _
  rw [hread, hcount, hlen, h]
  simp [fitting]

/-- Settles O11: every kind's payload reads back field by field. -/
theorem requestPayloadsReadBack : Obligations.RequestPayloadsReadBack := by
  unfold Obligations.RequestPayloadsReadBack
  intro r hfits
  cases r with
  | submit f => exact submit_reads_back f hfits
  | cancel job => exact congrArg (some ∘ Request.cancel) (word_of_bytes job)
  | setPrio job priority => exact congrArg (fun w => some (Request.setPrio w priority)) (word_of_bytes job)
  | queryJob job => exact congrArg (some ∘ Request.queryJob) (word_of_bytes job)
  | canLoad f =>
    have hcode := word_of_bytes f.code
    have hdensity := word_of_bytes f.density
    have hk := word_of_bytes f.k
    have hlevel := long_of_bytes f.level
    change some (Request.canLoad ⟨f.slot, BitVec.ofNat 16 (valueOf (bytesOf 2 f.code.toNat)),
      BitVec.ofNat 16 (valueOf (bytesOf 2 f.density.toNat)), BitVec.ofNat 16 (valueOf (bytesOf 2 f.k.toNat)),
      BitVec.ofNat 32 (valueOf (bytesOf 4 f.level.toNat))⟩) = _
    rw [hcode, hdensity, hk, hlevel]
  | canLevel slot level => exact congrArg (fun w => some (Request.canLevel slot w)) (long_of_bytes level)
  | calibrate slot mask => cases mask <;> rfl
  | eventAck set => exact congrArg (some ∘ Request.eventAck) (word_of_bytes set)
  | eventMask set => exact congrArg (some ∘ Request.eventMask) (word_of_bytes set)
  | nvStore sector part image =>
    obtain ⟨p, hp, hsize⟩ := hfits
    change (match PartId.ofBytes sector part with
      | some p => fitting _ _
      | none => none) = _
    rw [hp]
    have hlen : (requestPayload (.nvStore sector part image)).length = 2 + p.size := by
      simp only [requestPayload, List.length_cons, hsize]
      omega
    exact if_pos (by simpa using hlen)
  | ping payload => exact if_pos (decide_eq_true (show payload.length ≤ 16 from hfits))
  | _ => rfl

/-- Settles O12: the receiver judges the bytes to be the request that the command brings. -/
theorem messageBytesAreTheirRequest : Obligations.MessageBytesAreTheirRequest := by
  unfold Obligations.MessageBytesAreTheirRequest
  intro c r s hc hfits hlen hrun hr
  have hknown : knownKind (requestKind r) = true := by cases r <;> rfl
  have hjudged : judgeBytes (messageBytes (requestKind r) (requestPayload r)) = .request r := by
    rw [messageBytes_eq, judgeBytes_eq (crcBytes_length _), if_neg (by simp), hknown, requestPayloadsReadBack r hfits]
    rfl
  rw [messageBytes_eq] at hjudged ⊢
  rw [exec_messageComplete hrun hr hlen (crcBytes_length _), hjudged, exec_request hc, whenServing_running _ hrun]
  rfl

end Sys2Proof.Proofs
end

