-- ==== Sys2Proof/Proofs/SectorStore.lean ====
section
/-! PROOF. The stored sectors: the parameters of a part, the requests and the write that replace one, and the end of the
write (R197 to R200). -/

namespace Sys2Proof.Proofs

open Sys2Proof Sys2Proof.Machine Sys2Proof.Safety Sys2Proof.Laws

variable {s u : State}

/-! ## Parts (R197) -/

theorem byte_eq_iff (b : Byte) (n : Nat) (h : n < 256) : b = BitVec.ofNat 8 n ↔ b.toNat = n := by
  rw [← BitVec.toNat_inj, BitVec.toNat_ofNat, Nat.mod_eq_of_lt h]

theorem ofBytes_iff (sector part : Byte) (p : PartId) : PartId.ofBytes sector part = some p ↔
    sector.toNat = (match p.sector with | .identity => 0 | .station => 1) ∧ part.toNat = p.number := by
  have hsector (n : Nat) (h : n < 256 := by omega) : sector = BitVec.ofNat 8 n ↔ sector.toNat = n := byte_eq_iff _ n h
  have hpart (n : Nat) (h : n < 256 := by omega) : part = BitVec.ofNat 8 n ↔ part.toNat = n := byte_eq_iff _ n h
  have h0 := hsector 0
  have h1 := hsector 1
  have k0 := hpart 0
  have k1 := hpart 1
  have k2 := hpart 2
  have k3 := hpart 3
  unfold PartId.ofBytes
  cases p <;> simp only [PartId.sector, PartId.number] <;> grind

/-! ## The parameters of a part (R198, stage 2) -/

/-- Where field `i` begins. -/
def fieldStart (fs : List FieldSpec) (i : Nat) : Nat := ((fs.take i).map FieldSpec.width).sum

/-- The value of field `i` of an image. -/
def fieldValue (fs : List FieldSpec) (image : List Byte) (i : Nat) : Nat :=
  valueOf ((image.drop (fieldStart fs i)).take (fieldStart fs (i + 1) - fieldStart fs i))

theorem fieldStart_succ (f : FieldSpec) (fs : List FieldSpec) (i : Nat) :
    fieldStart (f :: fs) (i + 1) = f.width + fieldStart fs i := by simp [fieldStart]

theorem readFields_getD {fs : List FieldSpec} {i : Nat} (image : List Byte) (hi : i < fs.length) :
    (readFields fs image).getD i 0 = fieldValue fs image i := by
  induction fs generalizing image i with
  | nil => simp at hi
  | cons f fs ih =>
    cases i with
    | zero => simp [readFields, fieldValue, fieldStart]
    | succ i =>
      have hrest := ih (image.drop f.width) (by simpa using hi)
      rw [readFields, List.getD_cons_succ, hrest]
      unfold fieldValue
      rw [fieldStart_succ, fieldStart_succ, List.drop_drop, Nat.add_sub_add_left]

/-- The parameter at a position of a part is in its range and fits its neighbour. -/
def Right (p : PartId) (image : List Byte) (i : Nat) (f : FieldSpec) : Prop :=
  f.low ≤ fieldValue p.fields image i ∧ fieldValue p.fields image i ≤ f.high ∧
  (p = .sizes → i % 7 = 3 → fieldValue p.fields image (i - 1) ≤ fieldValue p.fields image i) ∧
  (p = .cansLow ∨ p = .cansHigh → i % 8 = 1 → fieldValue p.fields image i < fieldValue p.fields image (i - 1))

theorem wrongAt_iff {p : PartId} {image : List Byte} {i : Nat} {f : FieldSpec} (hf : p.fields[i]? = some f) :
    wrongAt p (readFields p.fields image) i f = true ↔ ¬ Right p image i f := by
  obtain ⟨hi, -⟩ := List.getElem?_eq_some_iff.1 hf
  unfold wrongAt Right
  rw [readFields_getD image hi, readFields_getD image (show i - 1 < _ by omega)]
  cases p <;> simp <;> omega

theorem firstWrongFrom_none {p : PartId} {vs : List Nat} (fs : List FieldSpec) (i : Nat) :
    firstWrongFrom p vs i fs = none ↔ ∀ (k : Nat) (f : FieldSpec), fs[k]? = some f → wrongAt p vs (i + k) f = false := by
  induction fs generalizing i with
  | nil => simp [firstWrongFrom]
  | cons g fs ih =>
    rw [firstWrongFrom]
    cases hg : wrongAt p vs i g with
    | true =>
      refine ⟨fun h => by simp at h, fun h => ?_⟩
      have hright : wrongAt p vs i g = false := h 0 g rfl
      simp [hg] at hright
    | false =>
      refine (ih (i + 1)).trans ⟨fun h k f hk => ?_, fun h k f hk => ?_⟩
      · cases k with
        | zero =>
          cases hk
          exact hg
        | succ k =>
          rw [← Nat.succ_add_eq_add_succ]
          exact h k f hk
      · rw [Nat.succ_add_eq_add_succ]
        exact h (k + 1) f hk

theorem firstWrongFrom_some {p : PartId} {vs : List Nat} (fs : List FieldSpec) (i m : Nat) :
    firstWrongFrom p vs i fs = some m ↔ ∃ (k : Nat) (f : FieldSpec), m = i + k + 1 ∧ fs[k]? = some f ∧
      wrongAt p vs (i + k) f = true ∧ ∀ (k' : Nat) (f' : FieldSpec), k' < k → fs[k']? = some f' →
        wrongAt p vs (i + k') f' = false := by
  induction fs generalizing i with
  | nil => simp [firstWrongFrom]
  | cons g fs ih =>
    rw [firstWrongFrom]
    cases hg : wrongAt p vs i g with
    | true =>
      constructor
      · rintro h
        cases h
        exact ⟨0, g, rfl, rfl, hg, fun k' f' hk' => absurd hk' (Nat.not_lt_zero _)⟩
      · rintro ⟨k, f, rfl, hf, hwrong, hfirst⟩
        cases k with
        | zero => rfl
        | succ k =>
          have hright : wrongAt p vs i g = false := hfirst 0 g (Nat.succ_pos _) rfl
          simp [hg] at hright
    | false =>
      refine (ih (i + 1)).trans ⟨?_, ?_⟩
      · rintro ⟨k, f, rfl, hf, hwrong, hfirst⟩
        refine ⟨k + 1, f, by omega, hf, by rwa [← Nat.succ_add_eq_add_succ], fun k' f' hk' hf' => ?_⟩
        cases k' with
        | zero =>
          cases hf'
          exact hg
        | succ k' =>
          rw [← Nat.succ_add_eq_add_succ]
          exact hfirst k' f' (by omega) hf'
      · rintro ⟨k, f, rfl, hf, hwrong, hfirst⟩
        cases k with
        | zero =>
          cases hf
          exact absurd (hg.symm.trans hwrong) (by simp)
        | succ k =>
          refine ⟨k, f, by omega, hf, by rwa [Nat.succ_add_eq_add_succ], fun k' f' hk' hf' => ?_⟩
          rw [Nat.succ_add_eq_add_succ]
          exact hfirst (k' + 1) f' (by omega) hf'

/-- The parameter at a position is found right. -/
theorem right_of_false {p : PartId} {image : List Byte} {i : Nat} {f : FieldSpec} (hf : p.fields[i]? = some f) :
    wrongAt p (readFields p.fields image) i f = false ↔ Right p image i f := by
  rw [Bool.eq_false_iff, Ne, wrongAt_iff hf, not_not]

theorem firstWrong_none (p : PartId) (image : List Byte) : firstWrong p image = none ↔
    ∀ (i : Nat) (f : FieldSpec), p.fields[i]? = some f → Right p image i f := by
  refine (firstWrongFrom_none p.fields 0).trans ⟨fun h i f hf => ?_, fun h i f hf => ?_⟩
  · exact (right_of_false hf).1 (Nat.zero_add i ▸ h i f hf)
  · rw [Nat.zero_add]
    exact (right_of_false hf).2 (h i f hf)

theorem firstWrong_some (p : PartId) (image : List Byte) (n : Nat) : firstWrong p image = some (n + 1) ↔
    (∃ f, p.fields[n]? = some f ∧ ¬ Right p image n f) ∧
    ∀ (i : Nat) (f : FieldSpec), i < n → p.fields[i]? = some f → Right p image i f := by
  refine (firstWrongFrom_some p.fields 0 (n + 1)).trans ⟨?_, ?_⟩
  · rintro ⟨k, f, hk, hf, hwrong, hfirst⟩
    obtain rfl : n = k := by omega
    rw [Nat.zero_add] at hwrong
    refine ⟨⟨f, hf, (wrongAt_iff hf).1 hwrong⟩, fun i g hi hg => ?_⟩
    have hright := hfirst i g hi hg
    rw [Nat.zero_add] at hright
    exact (right_of_false hg).1 hright
  · rintro ⟨⟨f, hf, hwrong⟩, hfirst⟩
    refine ⟨n, f, by omega, hf, by rw [Nat.zero_add]; exact (wrongAt_iff hf).2 hwrong, fun i g hi hg => ?_⟩
    rw [Nat.zero_add]
    exact (right_of_false hg).2 (hfirst i g hi hg)

theorem firstWrong_ne_zero (p : PartId) (image : List Byte) : firstWrong p image ≠ some 0 := fun h => by
  obtain ⟨k, f, hk, -⟩ := (firstWrongFrom_some p.fields 0 0).1 h
  omega

/-! ## NV_STORE and the end of its write (R200) -/

theorem ownNvStore_none {sector part : Byte} (image : List Byte) (h : PartId.ofBytes sector part = none) :
    ownNvStore sector part image u = refuse .badField u := by
  unfold ownNvStore
  rw [h]

/-- NV_STORE of a part, check by check. -/
theorem ownNvStore_some {sector part : Byte} {p : PartId} (image : List Byte) (h : PartId.ofBytes sector part = some p) :
    ownNvStore sector part image u =
      if image.length ≠ p.size then refuse .badField u
      else if u.mon.mode ≠ .maint && u.mon.mode ≠ .offline then refuse .notPermitted u
      else if p = .identity && !u.store.strapMark then refuse .notPermitted u
      else if u.store.write.isSome then refuse .busy u
      else if (firstWrong p image).isSome then refuse .badField u
      else accept [] { u with store := { u.store with
        write := some { part := p, contents := replacePart p (writeBase u p.sector) image } } } := by
  unfold ownNvStore
  rw [h]
  rfl

theorem exec_nvWriteDone (agrees : Bool) : exec (.nvWriteDone agrees) s = .next (endWrite agrees s) := rfl

theorem endWrite_busy {w : WriteJob} (agrees : Bool) (h : s.store.write = some w) : endWrite agrees s =
    if s.phase = .awaitWrite then goDown .starting (storeWritten agrees w s) else storeWritten agrees w s := by
  unfold endWrite
  rw [h]

/-- Settles O9: the checks in their order, the parameters field by field, and the two ends of a write. -/
theorem sectorWriteBeginsAndEnds : Obligations.SectorWriteBeginsAndEnds := by
  unfold Obligations.SectorWriteBeginsAndEnds
  refine ⟨?store, ⟨ofBytes_iff, fun p => by cases p <;> rfl, fun p image => ?params, fun p contents image => ⟨rfl, rfl⟩,
    fun s x contents => ?base⟩, fun s w hw => ?ended, fun s agrees hidle => ?idle⟩
  case store =>
    rintro s u sector part image hfree rfl refused
    have hrefused {st : Status} (h : ownNvStore sector part image (restartKeepalive s) = refuse st (restartKeepalive s)) :
        refused st := exec_done (r := .nvStore sector part image) rfl hfree (.inr rfl) h
    refine ⟨fun hp => hrefused (ownNvStore_none image hp), fun p hp => ?_⟩
    rw [ownNvStore_some image hp] at hrefused
    intro allowed strapped
    have hmode (ha : allowed) :
        ¬ ((restartKeepalive s).mon.mode ≠ .maint && (restartKeepalive s).mon.mode ≠ .offline) = true := by
      rcases ha with ha | ha <;> simp [ha]
    have hstrap (hs : strapped) : ¬ (p = .identity && !(restartKeepalive s).store.strapMark) = true := by
      rw [Bool.and_eq_true, decide_eq_true_eq, Bool.not_eq_true']
      exact fun ⟨hp, hoff⟩ => absurd ((hs hp).symm.trans hoff) (by simp)
    refine ⟨fun hlen => hrefused (if_pos hlen), fun hlen hnot => hrefused ?_, fun hlen ha hnot => hrefused ?_,
      fun hlen ha hs hbusy => hrefused ?_, fun hlen ha hs hidle hwrong => hrefused ?_,
      fun hlen ha hs hidle hright => exec_done (r := .nvStore sector part image) rfl hfree (.inr rfl) ?_⟩
    · rw [if_neg (not_not.2 hlen), if_pos (by simpa [allowed, not_or] using hnot)]
    · rw [if_neg (not_not.2 hlen), if_neg (hmode ha), if_pos (by simpa [strapped] using hnot)]
    · rw [if_neg (not_not.2 hlen), if_neg (hmode ha), if_neg (hstrap hs), if_pos hbusy]
    · rw [if_neg (not_not.2 hlen), if_neg (hmode ha), if_neg (hstrap hs), if_neg (by rw [hidle]; simp), if_pos hwrong]
    · change ownNvStore sector part image _ = _
      rw [ownNvStore_some image hp, if_neg (not_not.2 hlen), if_neg (hmode ha), if_neg (hstrap hs),
        if_neg (by rw [hidle]; simp), if_neg (by simp [hright])]
      rfl
  case params =>
    exact ⟨firstWrong_none p image, firstWrong_some p image, firstWrong_ne_zero p image⟩
  case base =>
    intro stored
    have hstored : s.store.sector x = stored := by cases x <;> rfl
    refine ⟨fun h => ?_, fun h => ?_⟩
    · unfold writeBase
      rw [hstored]
      rcases h with h | h <;> rw [h]
    · unfold writeBase
      rw [hstored, h]
  case ended =>
    intro ended
    refine ⟨?_, drawnBytes w.part.sector s, drawnBytes_length _, ?_⟩
    all_goals
      rw [exec_nvWriteDone, endWrite_busy _ hw]
      refine congrArg Host.Outcome.next ?_
      simp only [ended]
      split <;> rfl
  case idle =>
    rw [exec_nvWriteDone, endWrite, hidle]

end Sys2Proof.Proofs
end

