-- ==== Sys2Proof/Proofs/StartUp.lean ====
section
/-! PROOF. A start: the judgement of the sectors, and the station as a passed or failed load leaves it (R142, R176, R198,
R201 to R203). -/

namespace Sys2Proof.Proofs

open Sys2Proof Sys2Proof.Machine Sys2Proof.Safety Sys2Proof.Laws

variable {s : State}

/-! ## The judgement of the sectors (R198) -/

theorem corrects_iff (stored : List Byte) : corrects stored = true ↔ ∃ c, judgeCode stored = .corrected c := by
  unfold corrects
  cases judgeCode stored <;> simp

/-- Nothing wrong in any part. -/
theorem firstWrongPart_none {contents : List Byte} {ps : List PartId}
    (h : ∀ p ∈ ps, firstWrong p (partBytes p contents) = none) : firstWrongPart contents ps = none := by
  induction ps with
  | nil => rfl
  | cons p ps ih =>
    rw [firstWrongPart, h p List.mem_cons_self]
    exact ih fun q hq => h q (List.mem_cons_of_mem _ hq)

/-- The first part with something wrong counts. -/
theorem firstWrongPart_append {contents : List Byte} {p : PartId} {n : Nat} (before after : List PartId)
    (hbefore : ∀ q ∈ before, firstWrong q (partBytes q contents) = none)
    (hwrong : firstWrong p (partBytes p contents) = some n) :
    firstWrongPart contents (before ++ p :: after) = some (p.number, n) := by
  induction before with
  | nil => simp [firstWrongPart, hwrong]
  | cons q qs ih =>
    rw [List.cons_append, firstWrongPart, hbefore q List.mem_cons_self]
    exact ih fun r hr => hbefore r (List.mem_cons_of_mem _ hr)

theorem mem_sectorParts (x : SectorId) (p : PartId) : p ∈ sectorParts x ↔ p.sector = x := by
  cases x <;> cases p <;> decide

/-- The parts of a sector stand in the order of their numbers. -/
theorem sectorParts_split (p : PartId) : ∃ before after, sectorParts p.sector = before ++ p :: after ∧
    ∀ q ∈ before, q.sector = p.sector ∧ q.number < p.number :=
  match p with
  | .identity => ⟨[], [], rfl, by simp⟩
  | .general => ⟨[], [.sizes, .cansLow, .cansHigh], rfl, by simp⟩
  | .sizes => ⟨[.general], [.cansLow, .cansHigh], rfl, by simp [PartId.sector, PartId.number]⟩
  | .cansLow => ⟨[.general, .sizes], [.cansHigh], rfl, by simp [PartId.sector, PartId.number]⟩
  | .cansHigh => ⟨[.general, .sizes, .cansLow], [], rfl, by simp [PartId.sector, PartId.number]⟩

/-- Stage 2 of R198, on contents that stage 1 has found. -/
theorem judgeSector_found {stored contents : List Byte} (x : SectorId)
    (h : judgeCode stored = .clean contents ∨ judgeCode stored = .corrected contents) :
    judgeSector x stored = match firstWrongPart contents (sectorParts x) with
      | some (p, i) => .range p i
      | none => if corrects stored then .corrected else .clean := by
  unfold judgeSector corrects
  rcases h with h | h <;> rw [h] <;> dsimp only <;> cases firstWrongPart contents (sectorParts x) <;> rfl

/-! ### The draws (R198, stage 3) -/

theorem valueOf_take_one (bytes : List Byte) (k : Nat) :
    valueOf ((bytes.drop k).take 1) = (bytes.getD k 0).toNat := by
  induction k generalizing bytes with
  | zero => cases bytes <;> simp [valueOf]
  | succ k ih =>
    cases bytes with
    | nil => simp [valueOf]
    | cons b bs => simpa using ih bs

theorem getD_take {bytes : List Byte} {k n : Nat} (h : k < n) : (bytes.take n).getD k 0 = bytes.getD k 0 := by
  rw [List.getD_eq_getElem?_getD, List.getD_eq_getElem?_getD, List.getElem?_take_of_lt h]

theorem ident_draw {bytes : List Byte} {k : Nat} (h : k = 3 ∨ k = 4) :
    (readFields identityFields bytes).getD k 0 = (bytes.getD k 0).toNat := by
  rcases h with rfl | rfl
  · exact (readFields_getD bytes (by decide)).trans (valueOf_take_one bytes 3)
  · exact (readFields_getD bytes (by decide)).trans (valueOf_take_one bytes 4)

theorem general_draw {bytes : List Byte} {k : Nat} (h : k = 2 ∨ k = 3 ∨ k = 4) :
    (readFields generalFields (partBytes .general bytes)).getD k 0 = (bytes.getD k 0).toNat := by
  have hpart : partBytes .general bytes = bytes.take 43 := rfl
  rcases h with rfl | rfl | rfl
  · exact (readFields_getD _ (by decide)).trans ((valueOf_take_one _ 2).trans (congrArg BitVec.toNat (getD_take (by decide))))
  · exact (readFields_getD _ (by decide)).trans ((valueOf_take_one _ 3).trans (congrArg BitVec.toNat (getD_take (by decide))))
  · exact (readFields_getD _ (by decide)).trans ((valueOf_take_one _ 4).trans (congrArg BitVec.toNat (getD_take (by decide))))

/-- Byte `n` of a sector's contents, 0 beyond its end. -/
def drawAt (bytes : List Byte) (n : Nat) : Nat := (bytes.getD n 0).toNat

theorem drawsFit_iff (iv sv : List Byte) : drawsFit (loadedOf iv sv) = true ↔
    drawAt sv 3 ≤ drawAt sv 2 ∧ drawAt sv 2 ≤ drawAt iv 3 ∧ drawAt sv 4 ≤ drawAt iv 4 := by
  have hspin : (loadedOf iv sv).general.spinDraw = drawAt sv 2 := general_draw (.inl rfl)
  have hrun : (loadedOf iv sv).general.runDraw = drawAt sv 3 := general_draw (.inr (.inl rfl))
  have hpress : (loadedOf iv sv).general.pressDraw = drawAt sv 4 := general_draw (.inr (.inr rfl))
  have hpower : (loadedOf iv sv).ident.powerBudget = drawAt iv 3 := ident_draw (.inl rfl)
  have hair : (loadedOf iv sv).ident.airBudget = drawAt iv 4 := ident_draw (.inr rfl)
  simp only [drawsFit, Bool.and_eq_true, decide_eq_true_eq, hspin, hrun, hpress, hpower, hair]
  omega

theorem failed_iff (r : LoadReport) : r.failed = false ↔ r = .clean ∨ r = .corrected := by
  cases r <;> simp [LoadReport.failed]

theorem loadSectors_failed {ident station : List Byte}
    (h : (judgeSector .identity ident).failed = true ∨ (judgeSector .station station).failed = true) :
    loadSectors ident station = { identReport := judgeSector .identity ident,
                                  stationReport := judgeSector .station station, loaded := none } := by
  unfold loadSectors
  dsimp only
  rw [if_pos (by simpa using h)]

theorem loadSectors_passed {ident station : List Byte} (hi : (judgeSector .identity ident).failed = false)
    (hs : (judgeSector .station station).failed = false) :
    loadSectors ident station =
      if drawsFit (loadedOf (judgeCode ident).contents (judgeCode station).contents) then
        { identReport := judgeSector .identity ident, stationReport := judgeSector .station station,
          loaded := some (loadedOf (judgeCode ident).contents (judgeCode station).contents) }
      else { identReport := judgeSector .identity ident, stationReport := .draw, loaded := none } := by
  unfold loadSectors
  dsimp only
  rw [hi, hs]
  rfl

/-! ## What a start leaves (R201) -/

theorem exec_startUp (i : Inputs) (h : mayStart s = true) : exec (.startUp i) s = .next (settle (startUp i s)) :=
  congrArg Host.Outcome.next (if_pos h)

/-- The reset state with the inputs sensed, the sectors judged and a configuration. -/
def judged (i : Inputs) (c : Loaded) (s : State) : State :=
  let r := loadSectors s.store.identBytes s.store.stationBytes
  { State.reset with
    inputs := i
    cfg := c
    store := judgedStore r i.strap s.store
    events := { flags := if corrects s.store.identBytes || corrects s.store.stationBytes then BitVec.twoPow 15 13 else 0,
                enables := 0 }
    free := s.free
    pending := s.pending }

theorem judged_base (i : Inputs) (s : State) :
    (if corrects s.store.identBytes || corrects s.store.stationBytes then
      setFlag .configCorrected ((((volatileReset s).mapPhase fun _ => .running).mapInputs fun _ => i).mapStore
        (judgedStore (loadSectors s.store.identBytes s.store.stationBytes) i.strap))
    else (((volatileReset s).mapPhase fun _ => .running).mapInputs fun _ => i).mapStore
        (judgedStore (loadSectors s.store.identBytes s.store.stationBytes) i.strap)) = judged i Loaded.default s := by
  have hflag : BitVec.twoPow 15 13 = 0 ||| BitVec.twoPow 15 13 := by decide
  unfold judged
  split
  · rw [hflag]
    rfl
  · rfl

theorem startUp_loaded {i : Inputs} {c : Loaded} (h : (loadSectors s.store.identBytes s.store.stationBytes).loaded = some c) :
    startUp i s = startOnline (judged i c s) := by
  unfold startUp
  dsimp only
  rw [judged_base, h]
  rfl

theorem startUp_failed {i : Inputs} (h : (loadSectors s.store.identBytes s.store.stationBytes).loaded = none) :
    startUp i s = startOffline (judged i Loaded.default s) := by
  unfold startUp
  dsimp only
  rw [judged_base, h]

theorem startLine_solo (h : s.cfg.ident.lineMode = .solo) : startLine s = s := by
  simp [startLine, h]

theorem startLine_judged {i : Inputs} {c : Loaded} (h : c.ident.lineMode = .peer) :
    startLine (judged i c s) = { judged i c s with
      events := { flags := (judged i c s).events.flags ||| BitVec.twoPow 15 11, enables := 0 }
      line := { LineCtl.reset with
        st := .listening
        queue := [{ kind := .beacon, pool := .power, amount := 0, count := 0, attempts := 0 }]
        beacon := some c.ident.beaconInterval } } := by
  unfold startLine
  rw [if_pos (show (judged i c s).cfg.ident.lineMode = .peer from h)]
  rfl

theorem startOnline_clear {u : State} (hd : u.inputs.presDispense = false) (hl : u.inputs.presLid = false)
    (hs : u.inputs.presShake = false) (hc : u.inputs.clampClosed = false) (he : u.inputs.estop = false)
    (hline : (startLine u).inputs = u.inputs) : startOnline u = startLine u := by
  have hplaced : placeShake (placeLid (placeDisp (startLine u))) = startLine u := by
    simp only [placeDisp, placeLid, placeShake, hline, hd, hl, hs, hc, he, Bool.false_eq_true, if_false, Bool.false_and]
  unfold startOnline
  dsimp only
  rw [hplaced, hline, he]
  rfl

/-! ## The stop applied to a station at rest (R175; log 73) -/

/-- A station in which a start has found or not found an object in each bay, and nothing else has begun. -/
structure AtRest (s : State) : Prop where
  pump : s.pump.op = none
  cal : s.disp.cal = none
  disp : s.disp.st = .empty ∨ s.disp.st = .orphan
  lid : s.lid.st = .empty ∨ s.lid.st = .orphan
  shake : s.shake.st = .empty ∨ s.shake.st = .orphan

theorem abortCal_none (h : s.disp.cal = none) : abortCal s = s := by simp [abortCal, calRunning, h]

/-- A note in a tin's record leaves its bay. -/
@[simp] theorem mapTin_bays (b : BayId) (f : TinRecord → TinRecord) (s : State) :
    (s.mapTin b f).disp.st = s.disp.st ∧ (s.mapTin b f).disp.cal = s.disp.cal ∧ (s.mapTin b f).lid.st = s.lid.st ∧
    (s.mapTin b f).shake.st = s.shake.st := by
  cases b <;> exact ⟨rfl, rfl, rfl, rfl⟩

theorem haltDisp_rest (hop : s.pump.op = none) (hcal : s.disp.cal = none) (hst : s.disp.st = .empty ∨ s.disp.st = .orphan) :
    haltDisp .stopped s = (dropPre (closeRequest s)).mapDisp fun d =>
      { d with st := .stopped, resume := some d.st, step := haltedStep d.step, fresh := false, removed := false,
               placed := false } := by
  have hshot : interruptShot s = s := interruptShot_idle hop
  have hne : ¬ (s.disp.st = .fault || s.disp.st = .stopped) = true := by rcases hst with h | h <;> simp [h]
  have hcredit : ¬ 0 < opCredit s := by simp [opCredit, hop]
  unfold haltDisp
  rw [if_neg hne, if_neg hcredit, hshot]
  have hwas : s.disp.st ≠ .stopped := by rcases hst with h | h <;> simp [h]
  refine (abortCal_none ?_).trans ?_
  · exact hcal
  · simp [State.mapDisp, hwas]

theorem haltShake_rest (hst : s.shake.st = .empty ∨ s.shake.st = .orphan) :
    haltShake .stopped true s = s.mapShake fun b =>
      { b with clampDrive := .off, clamp := none, st := .stopped, resume := some b.st, deferral := none, removed := false } := by
  rcases hst with h | h <;> simp [haltShake, haltShaker, h, State.mapShake]

theorem haltLid_rest (hst : s.lid.st = .empty ∨ s.lid.st = .orphan) :
    haltLid .stopped true s = s.mapLid fun b =>
      { b with st := .stopped, resume := some b.st, deferral := none, homeCheck := false, removed := false } := by
  rcases hst with h | h <;> simp [haltLid, haltStroke, lidStandsStopped, h, State.mapLid]

/-- The station at rest once every output is off and nothing but the agents is left to be told. -/
theorem applyEstop_rest (h : AtRest s) :
    (applyEstop s).disp.st = .stopped ∧ (applyEstop s).disp.resume = some s.disp.st ∧
    (applyEstop s).lid.st = .stopped ∧ (applyEstop s).lid.resume = some s.lid.st ∧
    (applyEstop s).shake.st = .stopped ∧ (applyEstop s).shake.resume = some s.shake.st ∧
    (applyEstop s).shake.clampDrive = .off ∧ (applyEstop s).scale.blank = some s.cfg.general.blankTime ∧
    (applyEstop s).events = { s.events with flags := s.events.flags ||| BitVec.twoPow 15 7 } := by
  obtain ⟨hop, hcal, hd, hl, hs⟩ := h
  have hoff (t : State) (ht : t.pump.op = none) : interruptOp t = t := by simp [interruptOp, ht]
  unfold applyEstop
  dsimp only
  rw [haltDisp_rest (by simpa using hop) (by simpa [noteEverywhere] using hcal) (by simpa [noteEverywhere] using hd),
    haltShake_rest (by simpa [noteEverywhere] using hs), haltLid_rest (by simpa [noteEverywhere] using hl)]
  unfold drivesOff
  rw [hoff _ (by simpa using hop)]
  simp [noteEverywhere, blankTrigger, setFlag, EventFlag.bit]

theorem applyEstop_mode : (applyEstop s).mon.mode = s.mon.mode := by simp [applyEstop]

/-! ### The RELEASE of each pool (R163) -/

/-- A RELEASE of the pool waits in the queue. -/
def Releases (p : Pool) (s : State) : Prop := ∃ f ∈ s.line.queue, f.kind = .release ∧ f.pool = p

theorem insertFrame_perm (f : Frame) (q : List Frame) : (insertFrame f q).Perm (f :: q) := by
  induction q with
  | nil => exact .refl _
  | cons g gs ih =>
    unfold insertFrame
    split
    · exact .refl _
    · exact (ih.cons g).trans (.swap f g gs)

theorem mem_putFrame (f : Frame) (q : List Frame) : f ∈ putFrame f q := by
  unfold putFrame
  split
  · next h =>
    obtain ⟨g, hg, hsame⟩ := List.any_eq_true.1 h
    exact List.mem_map.2 ⟨g, hg, if_pos hsame⟩
  · exact (insertFrame_perm f q).mem_iff.2 List.mem_cons_self

theorem mem_putFrame_of_mem {f g : Frame} {q : List Frame} (hg : g ∈ q) (hother : f.same g = false) : g ∈ putFrame f q := by
  unfold putFrame
  split
  · exact List.mem_map.2 ⟨g, hg, by simp [hother]⟩
  · exact (insertFrame_perm f q).mem_iff.2 (List.mem_cons_of_mem _ hg)

theorem withdrawFrame_releases {p p' : Pool} {k : NoticeKind} (hk : k ≠ .release) (h : Releases p s) :
    Releases p (withdrawFrame k p' s) := by
  obtain ⟨f, hf, hkind, hpool⟩ := h
  refine ⟨f, List.mem_filter.2 ⟨hf, ?_⟩, hkind, hpool⟩
  simp [newFrame, Frame.same, hkind, hk]

theorem withdrawFrame_queue (k : NoticeKind) (p : Pool) (s : State) : (withdrawFrame k p s).line.queue =
    s.line.queue.filter fun g => !(newFrame k p 0 0).same g := rfl

theorem withdrawFrame_lineTakes (k : NoticeKind) (p : Pool) : (withdrawFrame k p s).lineTakes = s.lineTakes := by
  have hst : (withdrawFrame k p s).line.st = s.line.st := by
    unfold withdrawFrame State.mapLine LineCtl.setFate
    dsimp only
    split <;> rfl
  simp [State.lineTakes, hst]

theorem placeFrame_queue (f : Frame) (h : s.lineTakes = true) : (placeFrame f s).line.queue = putFrame f s.line.queue := by
  unfold placeFrame
  rw [if_pos h]
  rfl

theorem mapAgent_line (p : Pool) (g : Agent → Agent) (s : State) : (s.mapAgent p g).line = s.line := by
  cases p <;> rfl

theorem releaseOrder_line (p : Pool) (h : s.lineTakes = true) : ∃ t : State, t.lineTakes = true ∧
    (∀ p', Releases p' s → Releases p' t) ∧ (releaseOrder p s).line = (placeFrame (newFrame .release p 0 0) t).line := by
  refine ⟨(withdrawFrame .adjust p (withdrawFrame .wait p (withdrawFrame .claim p s))).mapAgent p fun g =>
    { g with st := .idle, asked := none, standing := false, count := 0, timer := none }, ?_, fun p' hp' => ?_, ?_⟩
  · unfold State.lineTakes
    rw [mapAgent_line]
    exact (withdrawFrame_lineTakes _ _).trans ((withdrawFrame_lineTakes _ _).trans ((withdrawFrame_lineTakes _ _).trans h))
  · unfold Releases
    rw [mapAgent_line]
    exact withdrawFrame_releases (by simp) (withdrawFrame_releases (by simp) (withdrawFrame_releases (by simp) hp'))
  · unfold releaseOrder
    dsimp only
    rw [if_pos h]

theorem releaseOrder_releases_self (p : Pool) (h : s.lineTakes = true) : Releases p (releaseOrder p s) := by
  obtain ⟨t, ht, -, hline⟩ := releaseOrder_line p h
  unfold Releases
  rw [hline, placeFrame_queue _ ht]
  exact ⟨_, mem_putFrame _ _, rfl, rfl⟩

theorem releaseOrder_releases {p p' : Pool} (h : s.lineTakes = true) (hr : Releases p' s) :
    Releases p' (releaseOrder p s) := by
  obtain ⟨t, ht, hkeep, hline⟩ := releaseOrder_line p h
  obtain ⟨f, hf, hkind, hpool⟩ := hkeep p' hr
  unfold Releases
  rw [hline, placeFrame_queue _ ht]
  by_cases hp : p = p'
  · exact ⟨_, mem_putFrame _ _, rfl, hp⟩
  · refine ⟨f, mem_putFrame_of_mem hf ?_, hkind, hpool⟩
    simp [newFrame, Frame.same, hpool, hp]

theorem placeFrame_st (f : Frame) : (placeFrame f s).line.st = s.line.st := by
  unfold placeFrame State.mapLine LineCtl.setFate
  split
  · dsimp only
    split <;> rfl
  · rfl

theorem releaseOrder_lineTakes (p : Pool) (h : s.lineTakes = true) : (releaseOrder p s).lineTakes = true := by
  obtain ⟨t, ht, -, hline⟩ := releaseOrder_line p h
  unfold State.lineTakes at *
  rwa [hline, placeFrame_st]

/-- The stop has a RELEASE queued in each pool while the line takes frames. -/
theorem applyEstop_releases (h : AtRest s) (hl : s.lineTakes = true) (p : Pool) : Releases p (applyEstop s) := by
  obtain ⟨-, -, -, hlid, hshake⟩ := h
  unfold applyEstop
  dsimp only
  rw [haltShake_rest (by simpa [noteEverywhere] using hshake), haltLid_rest (by simpa [noteEverywhere] using hlid)]
  generalize hw : haltDisp .stopped (freeAllStirs (dropPre (jamByStop (noteEverywhere .estop (blankTrigger s))))) = w
  have hline : w.line = s.line := by simp [← hw]
  have hpower (g : ShakeBay → ShakeBay) : Releases .power (releaseOrder .power (w.mapShake g)) :=
    releaseOrder_releases_self .power (by simpa [State.lineTakes, hline] using hl)
  have htakes (g : ShakeBay → ShakeBay) : (releaseOrder .power (w.mapShake g)).lineTakes = true :=
    releaseOrder_lineTakes .power (by simpa [State.lineTakes, hline] using hl)
  have hoff (t : State) (ht : t.lineTakes = true) : (drivesOff t).lineTakes = true := by
    simpa [State.lineTakes] using ht
  have hkept (t : State) (hr : Releases p t) : Releases p (drivesOff t) := by simpa [Releases] using hr
  cases p with
  | power => exact releaseOrder_releases (hoff _ (htakes _)) (hkept _ (hpower _))
  | air => exact releaseOrder_releases_self .air (hoff _ (htakes _))

/-! ## The bays as a start places them (R203) -/

/-- The station at a start before an emergency stop found active is applied. -/
def placed (u : State) : State := placeShake (placeLid (placeDisp (startLine u)))

theorem startOnline_eq (u : State) : startOnline u = if u.inputs.estop then applyEstop (placed u) else placed u := by
  have hinputs : (placed u).inputs = u.inputs := by
    unfold placed placeShake placeLid placeDisp
    split_ifs <;> simp
  unfold startOnline
  dsimp only
  rw [← hinputs]
  rfl

/-- A station just reset, its bays as the spec resets them. -/
structure JustReset (u : State) : Prop where
  disp : u.disp = DispenseBay.reset
  lid : u.lid = LidBay.reset
  shake : u.shake = ShakeBay.reset
  pump : u.pump = PumpDrive.reset
  mon : u.mon = Monitor.reset
  flag : u.flag .orphanTin = false

theorem judged_justReset (i : Inputs) (c : Loaded) : JustReset (judged i c s) := by
  refine ⟨rfl, rfl, rfl, rfl, rfl, ?_⟩
  unfold judged State.flag
  dsimp only
  split <;> decide

theorem flag_mapMon (f : EventFlag) (g : Monitor → Monitor) : (s.mapMon g).flag f = s.flag f := rfl

theorem startLine_flag (u : State) (h : u.flag .orphanTin = false) : (startLine u).flag .orphanTin = false := by
  unfold startLine
  split
  · have hflags : (placeBeacon (enterLine .listening (u.mapLine fun c => { c with listens := 0 }))).flag .orphanTin =
        (setFlag .lineChange u).flag .orphanTin := by
      simp [State.flag, enterLine, setFlag]
    rw [hflags, flag_setFlag, h]
    decide
  · exact h

section Placed

variable {u : State} (h : JustReset u)
include h

theorem placed_disp : (placed u).disp.st = (if u.inputs.presDispense then .orphan else .empty) ∧
    (placed u).disp.cal = none := by
  unfold placed placeShake placeLid placeDisp
  split_ifs <;> simp_all [h.disp, DispenseBay.reset]

theorem placed_lid : (placed u).lid.st = if u.inputs.presLid then .orphan else .empty := by
  unfold placed placeShake placeLid placeDisp
  split_ifs <;> simp_all [h.lid, LidBay.reset]

theorem placed_shake : (placed u).shake.st =
    if u.inputs.presShake then .orphan else if u.inputs.clampClosed && !u.inputs.estop then .unclamp else .empty := by
  unfold placed placeShake placeLid placeDisp
  split_ifs <;> simp_all [h.shake, ShakeBay.reset, enterUnclamp]

theorem placed_flag : (placed u).flag .orphanTin =
    (u.inputs.presDispense || u.inputs.presLid || u.inputs.presShake) := by
  have hdisp (t : State) : (placeDisp t).flag .orphanTin = (t.flag .orphanTin || t.inputs.presDispense) ∧
      (placeDisp t).inputs = t.inputs := by
    unfold placeDisp
    split <;> simp_all [flag_setFlag]
  have hlid (t : State) : (placeLid t).flag .orphanTin = (t.flag .orphanTin || t.inputs.presLid) ∧
      (placeLid t).inputs = t.inputs := by
    unfold placeLid
    split <;> simp_all [flag_setFlag]
  have hshake (t : State) : (placeShake t).flag .orphanTin = (t.flag .orphanTin || t.inputs.presShake) := by
    unfold placeShake
    split
    · next hp => rw [flag_setFlag_self, hp, Bool.or_true]
    · split <;> simp_all [State.flag]
  have hline : (startLine u).flag .orphanTin = false := startLine_flag u h.flag
  unfold placed
  rw [hshake, (hlid _).1, (hlid _).2, (hdisp _).1, (hdisp _).2, hline, Bool.false_or]
  simp

theorem placed_rest : (placed u).pump.op = none ∧ (placed u).mon = Monitor.reset ∧ (placed u).line = (startLine u).line ∧
    (placed u).cfg = u.cfg ∧ (placed u).inputs = u.inputs := by
  unfold placed placeShake placeLid placeDisp
  split_ifs <;> simp [h.pump, h.mon, PumpDrive.reset]

end Placed

/-! ## What follows a start -/

/-- In a mode other than RUN no call follows. -/
theorem settle_paused (h : s.mon.mode ≠ .run) : (settle s).disp = s.disp ∧ (settle s).events = s.events := by
  cases hon : s.online with
  | false => simp [settle_offline hon]
  | true =>
    have hmay : mayCall (grantStirs s) = false := by
      rw [mayCall_grantStirs, Bool.eq_false_iff, Ne, mayCall_iff]
      exact fun hc => h hc.2.1
    rw [settle_online hon, askTin_uncalled (.inl hmay)]
    simp

/-- What follows a command leaves the states of the lid and shake bays, the line, the scale and the monitor. -/
theorem settle_bays (s : State) : (settle s).lid.st = s.lid.st ∧ (settle s).lid.resume = s.lid.resume ∧
    (settle s).shake.st = s.shake.st ∧ (settle s).shake.resume = s.shake.resume ∧
    (settle s).shake.clampDrive = s.shake.clampDrive ∧ (settle s).scale = s.scale ∧ (settle s).line = s.line ∧
    (settle s).mon = s.mon := by
  obtain ⟨-, -, -, -, -, -, hscale, hline, -, -, -, hmon, -, -, -, -, hlid, hshake, -⟩ := settleTouchesOnlyItsBlocks s
  exact ⟨by rw [hlid], by rw [hlid], by rw [hshake], by rw [hshake], by rw [hshake], hscale, hline, hmon⟩

theorem startLine_takes {u : State} (h : u.cfg.ident.lineMode = .peer) : (startLine u).lineTakes = true := by
  unfold startLine
  rw [if_pos h]
  have hst : (placeBeacon (enterLine .listening (u.mapLine fun c => { c with listens := 0 }))).line.st = .listening := by
    unfold placeBeacon
    rw [placeFrame_st]
    rfl
  simp [State.lineTakes, hst]

/-- Settles O8: both loads follow the judgement of the sectors, and what a start places is written out bay by bay. -/
theorem startUpPlacesTheStation : Obligations.StartUpPlacesTheStation := by
  unfold Obligations.StartUpPlacesTheStation
  refine ⟨?plain, ⟨?placed, ?offline⟩, fun s i hwhy => ?waits, ⟨fun contents hlen => ?code, fun x stored contents => ?sector,
    fun ident station => ?load⟩⟩
  case plain =>
    intro s i c hmay hload hd hl hs hc he r corrected t
    have hclear : startOnline (judged i c s) = startLine (judged i c s) := startOnline_clear hd hl hs hc he (by simp)
    refine ⟨fun hsolo => ?_, fun hpeer => ?_⟩
    · rw [exec_startUp i hmay, startUp_loaded hload, hclear, startLine_solo (show (judged i c s).cfg.ident.lineMode = _ from hsolo)]
      rfl
    · rw [exec_startUp i hmay, startUp_loaded hload, hclear, startLine_judged hpeer]
      rfl
  case placed =>
    intro s i c hmay hload
    have hreset : JustReset (judged i c s) := judged_justReset i c
    obtain ⟨hpump, hmon, hline, hcfg, hinputs⟩ := placed_rest hreset
    obtain ⟨hdisp, hcal⟩ := placed_disp hreset
    have hlid := placed_lid hreset
    have hshake := placed_shake hreset
    have hflag := placed_flag hreset
    refine ⟨_, by rw [exec_startUp i hmay, startUp_loaded hload, startOnline_eq], ?_⟩
    cases he : i.estop with
    | false =>
      have hunstopped : (judged i c s).inputs.estop = false := he
      rw [if_neg (by simp [hunstopped])]
      obtain ⟨hdisp', hevents⟩ := settle_paused (s := placed (judged i c s)) (by rw [hmon]; decide)
      obtain ⟨hlid', -, hshake', -, -, -, -, hmon'⟩ := settle_bays (placed (judged i c s))
      refine ⟨by rw [hmon', hmon]; rfl, by rw [hmon', hmon]; rfl, ?_, fun _ => ⟨?_, ?_, ?_⟩, fun hstop => by simp at hstop⟩
      · unfold State.flag at hflag ⊢
        rw [hevents, hflag]
        rfl
      · rw [hdisp', hdisp]
        rfl
      · rw [hlid', hlid]
        rfl
      · rw [hshake', hshake, hunstopped]
        simp [judged]
    | true =>
      have hstop : (judged i c s).inputs.estop = true := he
      rw [if_pos hstop]
      rw [hstop] at hshake
      simp only [Bool.not_true, Bool.and_false, Bool.false_eq_true, if_false] at hshake
      have hrest : AtRest (placed (judged i c s)) := by
        refine ⟨hpump, hcal, ?_, ?_, ?_⟩
        · rw [hdisp]
          split <;> simp
        · rw [hlid]
          split <;> simp
        · rw [hshake]
          split <;> simp
      obtain ⟨hd, hdr, hl, hlr, hs, hsr, hclamp, hblank, hevents⟩ := applyEstop_rest hrest
      have hmode : (applyEstop (placed (judged i c s))).mon.mode = .pause := by
        rw [applyEstop_mode, hmon]
        rfl
      obtain ⟨hdisp', hevents'⟩ := settle_paused (s := applyEstop (placed (judged i c s))) (by rw [hmode]; decide)
      obtain ⟨hl', hlr', hs', hsr', hclamp', hscale', hline', hmon'⟩ := settle_bays (applyEstop (placed (judged i c s)))
      refine ⟨by rw [hmon', hmode], by rw [hmon']; rfl, ?_, fun hoff => absurd hoff (by decide), fun _ => ⟨?_, by rw [hdisp', hd],
        by rw [hl', hl], by rw [hs', hs], by rw [hdisp', hdr, hdisp]; rfl, by rw [hlr', hlr, hlid]; rfl,
        by rw [hsr', hsr, hshake]; rfl, by rw [hclamp', hclamp], by rw [hscale', hblank, hcfg]; rfl, fun hpeer p => ?_⟩⟩
      · unfold State.flag at hflag ⊢
        rw [hevents', hevents]
        simp only [BitVec.getLsbD_or, hflag]
        rw [show (BitVec.twoPow 15 7).getLsbD EventFlag.orphanTin.bit = false by decide, Bool.or_false]
        rfl
      · unfold State.flag
        rw [hevents', hevents]
        simp [EventFlag.bit]
      · have htakes : (placed (judged i c s)).lineTakes = true := by
          unfold State.lineTakes
          rw [hline]
          exact startLine_takes hpeer
        obtain ⟨f, hf, hkind, hpool⟩ := applyEstop_releases hrest htakes p
        exact ⟨f, by rwa [hline'], hkind, hpool⟩
  case offline =>
    intro s i hmay hload
    have hoff : (startOffline (judged i Loaded.default s)).online = false := by
      simp [startOffline, State.online]
    refine ⟨_, by rw [exec_startUp i hmay, startUp_failed hload, settle_offline hoff], rfl, rfl, rfl, ?_, rfl, rfl, rfl, rfl, rfl⟩
    exact flag_setFlag_self .bayFault _
  case waits =>
    have hnot : mayStart s = false := by
      rcases hwhy with h | h | h | h <;> simp [mayStart, h]
    exact congrArg Host.Outcome.next (if_neg (by simp [hnot]))
  case code =>
    intro stored flip
    have hle : contents.length ≤ 395 := by omega
    have hstored : stored.length = contents.length + 2 := by simp [stored, Fits.bytesOf_length]
    refine ⟨judgeCode_sealed contents, fun n hn => judgeCode_flip contents hle n (by omega), fun n m hnm hm =>
      judgeCode_flip_flip contents hle n m hnm (by omega)⟩
  case sector =>
    intro wrong
    refine ⟨corrects_iff stored, fun h => by rw [judgeSector, h], fun h => ⟨fun p n hp hw hfirst => ?_, fun hright => ?_⟩⟩
    · obtain ⟨before, after, hparts, hbefore⟩ := sectorParts_split p
      rw [judgeSector_found x h, ← hp, hparts, firstWrongPart_append before after
        (fun q hq => hfirst q ((hbefore q hq).1.trans hp) (hbefore q hq).2) hw]
    · rw [judgeSector_found x h, firstWrongPart_none fun p hp => hright p ((mem_sectorParts x p).1 hp)]
  case load =>
    intro ri rs passes iv sv draw fits
    refine ⟨fun hnot => loadSectors_failed ?_, fun hi hs hunfit => ?_, fun hi hs hfit => ?_⟩
    · have hfailed : ¬ (ri.failed = false ∧ rs.failed = false) := by
        rw [failed_iff, failed_iff]
        exact hnot
      rwa [not_and_or, Bool.not_eq_false, Bool.not_eq_false] at hfailed
    · rw [loadSectors_passed ((failed_iff _).2 hi) ((failed_iff _).2 hs), if_neg (mt (drawsFit_iff iv sv).1 hunfit)]
    · rw [loadSectors_passed ((failed_iff _).2 hi) ((failed_iff _).2 hs), if_pos ((drawsFit_iff iv sv).2 hfit)]

end Sys2Proof.Proofs
end

