-- ==== Sys2Proof/Proofs/Submit.lean ====
section
/-! PROOF. SUBMIT: its checks, the queue a job joins, the short canisters and the id it is given (R2 to R7). -/

namespace Sys2Proof.Proofs

open Sys2Proof Sys2Proof.Machine Sys2Proof.Safety Sys2Proof.Laws

variable {s u : State} {j : Job} {f : SubmitFields}

/-! ## The id given (R6) -/

/-- The search ends at the first candidate that is free, or at the end of its fuel. -/
theorem freeId_least (fuel : Nat) : ∀ c, ∃ n, freeId s fuel c = nextCandidate^[n] c ∧
    ∀ m < n, nextCandidate^[m] c ∈ takenIds s := by
  induction fuel with
  | zero => exact fun c => ⟨0, rfl, fun m hm => absurd hm (by omega)⟩
  | succ fuel ih =>
    intro c
    rw [freeId_eq]
    split
    · next hc =>
      obtain ⟨n, hn, hbefore⟩ := ih (nextCandidate c)
      refine ⟨n + 1, hn, fun m hm => ?_⟩
      cases m with
      | zero => exact hc
      | succ m => exact hbefore m (by omega)
    · exact ⟨0, rfl, fun m hm => absurd hm (by omega)⟩

/-- The candidates go round from 1 to 65535. -/
theorem nextCandidate_round {c : Nat} (h1 : 1 ≤ c) (h2 : c ≤ 65535) (n : Nat) :
    nextCandidate^[n] c = (c - 1 + n) % 65535 + 1 := by
  cases n with
  | zero =>
    change c = _
    omega
  | succ n =>
    rw [nextCandidate_iterate]
    split <;> omega

/-- A number from 1 on is taken when a job, a tin or a waiting record bears it. -/
theorem mem_takenIds {id : Nat} (h : id ≠ 0) : id ∈ takenIds s ↔
    (∃ j ∈ s.jobs.records ++ s.jobs.reserved, j.id = id) ∨ (∃ r ∈ s.completion, r.jobId = id) ∨
    ∃ t ∈ [s.disp.tin, s.carriage.tin, s.lid.tin, s.shake.tin], t.map (·.jobId) = some id := by
  simp only [takenIds, ids, tinIds, List.mem_cons, h, false_or, List.mem_append, List.mem_map, List.mem_filterMap]
  exact or_assoc.trans (or_congr_right or_comm)

/-! ## The short canisters (R4) -/

/-- A set written as the sum of its bits has just these bits. -/
theorem testBit_sum_two_pow {l : List Nat} (hl : l.Nodup) (i : Nat) :
    (l.map (2 ^ ·)).sum.testBit i = true ↔ i ∈ l := by
  rw [← List.sum_toFinset _ hl, ← Nat.mem_bitIndices, ← List.mem_toFinset, Finset.toFinset_bitIndices_sum_two_pow,
    List.mem_toFinset]

/-- The volume after the minimum-shot rules. -/
theorem finalVolume_eq (v m : Nat) : finalVolume v m = if m ≤ v then v else if m ≤ 2 * v then m else 0 := by
  unfold finalVolume treat
  grind

theorem shortSet_testBit (hslots : (j.lines.map (·.slot)).Nodup) (i : Slot) : (shortSet s j).testBit i.val = true ↔
    ∃ l ∈ j.lines, l.slot = i ∧ shortLine s j l = true := by
  have hnodup : ((j.lines.filter (shortLine s j)).map fun l => l.slot.val).Nodup := by
    have hsub := hslots.sublist (List.filter_sublist (p := shortLine s j) |>.map (·.slot))
    simpa [Function.comp_def] using hsub.map Fin.val_injective
  have hset : shortSet s j = (((j.lines.filter (shortLine s j)).map fun l => l.slot.val).map (2 ^ ·)).sum := by
    simp [shortSet, Function.comp_def]
  rw [hset, testBit_sum_two_pow hnodup]
  simp only [List.mem_map, List.mem_filter, Fin.val_inj]
  exact exists_congr fun l => by tauto

/-! ## SUBMIT (R2) -/

theorem ownSubmit_badField (h : submitJob u f = none) : ownSubmit f u = refuse .badField u := by
  unfold ownSubmit
  rw [h]

/-- The checks on a job whose fields are in range, and what it joins when it passes them. -/
theorem ownSubmit_eq (h : submitJob u f = some j) : ownSubmit f u =
    if missingCanister u j then refuse .noCanister u
    else if overfills u j then refuse .overfill u
    else if 24 ≤ u.jobs.places then refuse .full u
    else
      { status := if shortSet u (identified u j) = 0 then .ok else .okShort
        payload := bytesOf 2 (identified u j).id ++ bytesOf 1 ((enqueue (identified u j) u.jobs).position (identified u j).id) ++
          bytesOf 2 (shortSet u (identified u j))
        after := { u with jobs := enqueue (identified u j) u.jobs } } := by
  unfold ownSubmit
  rw [h]
  rfl

theorem enqueue_step {q : JobQueue} (h : q.nextArrival < 4294967295) : enqueue j q =
    { records := insertJob j q.records, reserved := q.reserved, nextId := nextCandidate j.id,
      nextArrival := q.nextArrival + 1 } := by
  unfold enqueue stepArrival
  rw [if_neg (by dsimp only; omega)]

theorem enqueue_renumber {q : JobQueue} (h : 4294967295 ≤ q.nextArrival) : enqueue j q =
    renumber { q with records := insertJob j q.records, nextId := nextCandidate j.id } := by
  unfold enqueue stepArrival
  rw [if_pos (by dsimp only; omega)]

/-- Settles O20: the checks in their order, the queue joined, and what each check says. -/
theorem submitQueuesByPriority : Obligations.SubmitQueuesByPriority := by
  unfold Obligations.SubmitQueuesByPriority
  refine ⟨?requests, fun j l => ⟨fun k => ?_, insertJob_length j l, insertJob_inOrder⟩, fun s j => ?checks,
    fun s c hjobs hrec h1 h2 => ?identity⟩
  case requests =>
    rintro f s u hs rfl
    have answer {st : Status} {payload : List Byte} {t : State}
        (ha : ownSubmit f (restartKeepalive s) = { status := st, payload := payload, after := t }) :
        exec (.submit f) s = .next (settle (withResponse 0x01 st payload s.port.overrun t)) :=
      exec_done (r := .submit f) rfl hs.1 (.inl hs.2) ha
    refine ⟨fun hnone => answer (ownSubmit_badField hnone), fun j hj => ⟨fun hmiss => answer ?_,
      fun hmiss hover => answer ?_, fun hmiss hover hfull => answer ?_, fun hmiss hover hroom hstep => answer ?_,
      fun hmiss hover hroom hlast => answer ?_⟩⟩
    · rw [ownSubmit_eq hj, if_pos hmiss]
      rfl
    · rw [ownSubmit_eq hj, if_neg (by simp [hmiss]), if_pos hover]
      rfl
    · rw [ownSubmit_eq hj, if_neg (by simp [hmiss]), if_neg (by simp [hover]), if_pos hfull]
      rfl
    · rw [ownSubmit_eq hj, if_neg (by simp [hmiss]), if_neg (by simp [hover]), if_neg (by omega), enqueue_step hstep]
      rfl
    · rw [ownSubmit_eq hj, if_neg (by simp [hmiss]), if_neg (by simp [hover]), if_neg (by omega), enqueue_renumber hlast]
      rfl
  · rw [(insertJob_perm j l).mem_iff, List.mem_cons]
  case checks =>
    refine ⟨?_, ?_, fun hslots i => ?_⟩
    · simp only [missingCanister, List.any_eq_true, Bool.or_eq_true, decide_eq_true_eq]
      rfl
    · exact decide_eq_true_iff
    · rw [shortSet_testBit hslots]
      refine exists_congr fun l => and_congr_right fun _ => and_congr_right fun hslot => ?_
      subst hslot
      dsimp only
      rw [← finalVolume_eq]
      exact decide_eq_true_iff
  case identity =>
    obtain ⟨n, hn, hbefore⟩ := freeId_least (s := s) 64 c
    have hfree : nextCandidate^[n] c ∉ takenIds s := hn ▸ freeId_free hjobs hrec c
    rw [nextCandidate_round h1 h2] at hn hfree
    refine ⟨n, hn, mt (mem_takenIds (Nat.succ_ne_zero _)).2 hfree, fun m hm => ?_⟩
    have htaken := hbefore m hm
    rw [nextCandidate_round h1 h2] at htaken
    exact (mem_takenIds (Nat.succ_ne_zero _)).1 htaken

end Sys2Proof.Proofs
end

