-- ==== Sys2Proof/Proofs/CompletionQueue.lean ====
section
/-! PROOF. The completion queue: a record's verdict, the records that join while there is room, and TAKE_RECORD
(R98, R194, R195). -/

namespace Sys2Proof.Proofs

open Sys2Proof Sys2Proof.Machine Sys2Proof.Safety Sys2Proof.Laws

variable {s u : State} {t : TinRecord}

/-! ## The verdict (R98) -/

theorem spoils_iff (l : LineEntry) : l.spoils = true ↔
    ∃ v ∈ [LineVerdict.under, .over, .disturbed, .interrupted], l.verdict = some v := by
  simp [LineEntry.spoils, or_assoc]

theorem spoilt_iff : t.lines.any LineEntry.spoils = true ↔
    ∃ l ∈ t.lines, ∃ v ∈ [LineVerdict.under, .over, .disturbed, .interrupted], l.verdict = some v := by
  simp only [List.any_eq_true, spoils_iff]

theorem seated_iff : t.seated = true ↔ ∃ r : LidResult, t.lid = some r ∧ r.fault = none := by
  unfold TinRecord.seated
  cases t.lid <;> simp

theorem verdictOf_cancelled (h : t.cancelled = true) : verdictOf t = .cancelled := if_pos h

/-- A tin that is not cancelled is GOOD unless a line, its loss or its lid holds it. -/
theorem verdictOf_kept (h : t.cancelled = false) :
    verdictOf t = if t.lines.any LineEntry.spoils || t.lost || !t.seated then .hold else .good := by
  unfold verdictOf
  rw [if_neg (by simp [h])]

/-! ## Joining (R194) -/

theorem hasRoom_iff : hasRoom s = true ↔ s.completion.length < 16 := decide_eq_true_iff

theorem joinRecord_completion (t : TinRecord) (s : State) :
    (joinRecord t s).completion = s.completion ++ [{ t with verdict := some (verdictOf t) }] := rfl

theorem joinRecord_ready (t : TinRecord) (s : State) : (joinRecord t s).flag .completionReady = true :=
  flag_setFlag_self _ _

theorem shakeJoined_rest (s : State) : (shakeJoined s).completion = s.completion ∧
    (shakeJoined s).events = s.events ∧ (shakeJoined s).shake.tin = none := by
  unfold shakeJoined enterUnclamp
  split <;> exact ⟨rfl, rfl, rfl⟩

theorem finishLost_rest (s : State) : (finishLost s).completion = s.completion ∧
    (finishLost s).events = s.events ∧ (finishLost s).disp.tin = s.disp.tin ∧
    (finishLost s).disp.recWait = s.disp.recWait := by
  unfold finishLost
  split <;> exact ⟨rfl, rfl, rfl, rfl⟩

theorem dispJoined_rest (s : State) : (dispJoined s).completion = s.completion ∧ (dispJoined s).events = s.events ∧
    (dispJoined s).disp.tin = none ∧ (dispJoined s).disp.recWait = false := by
  unfold dispJoined
  dsimp only
  split
  · exact ⟨rfl, rfl, rfl, rfl⟩
  · split
    · exact finishLost_rest _
    · exact ⟨rfl, rfl, rfl, rfl⟩

theorem dispJoined_cancelled (h : s.disp.st = .cancelled) : (dispJoined s).disp.st = .empty := by
  unfold dispJoined
  rw [if_pos h]
  rfl

theorem dispJoined_held (h : s.disp.st ≠ .cancelled) (hl : s.disp.lost = false) :
    (dispJoined s).disp.st = s.disp.st ∧ (dispJoined s).disp.resume = some .empty := by
  unfold dispJoined
  rw [if_neg h, if_neg (by simp [hl])]
  exact ⟨rfl, rfl⟩

theorem drainShake_joins (hroom : s.completion.length < 16) (hst : s.shake.st = .awaitRoom)
    (ht : s.shake.tin = some t) : drainShake s = shakeJoined (joinRecord t s) := by
  unfold drainShake
  rw [ht]
  dsimp only
  rw [if_pos (by simp [hst, hasRoom_iff.2 hroom])]

theorem drainLid_joins (hroom : s.completion.length < 16) (hst : s.lid.st = .done) (ht : s.lid.tin = some t)
    (hlost : t.lost = true) : drainLid s = lidJoined (joinRecord t s) := by
  unfold drainLid
  rw [ht]
  dsimp only
  rw [if_pos (by simp [hst, hlost, hasRoom_iff.2 hroom])]

theorem drainDisp_joins (hroom : s.completion.length < 16) (ht : s.disp.tin = some t) (hw : s.disp.recWait = true) :
    drainDisp s = dispJoined (joinRecord t s) := by
  unfold drainDisp
  rw [ht]
  dsimp only
  rw [if_pos (by simp [hw, hasRoom_iff.2 hroom])]

theorem drain_full (h : 16 ≤ s.completion.length) : drain s = s := by
  have hno : hasRoom s = false := Bool.eq_false_iff.2 fun hr => absurd (hasRoom_iff.1 hr) (by omega)
  have hshake : drainShake s = s := by
    unfold drainShake
    rw [hno]
    split <;> simp
  have hlid : drainLid s = s := by
    unfold drainLid
    rw [hno]
    split <;> simp
  have hdisp : drainDisp s = s := by
    unfold drainDisp
    rw [hno]
    split <;> simp
  unfold drain
  rw [hshake, hlid, hdisp]

/-! ## TAKE_RECORD (R195) -/

theorem ownTakeRecord_empty (h : u.completion = []) : ownTakeRecord u = refuse .empty u := by
  unfold ownTakeRecord
  rw [h]

theorem ownTakeRecord_cons {rs : List TinRecord} (h : u.completion = t :: rs) : ownTakeRecord u =
    accept (byte1 rs.length ++ recordBytes t)
      (if (drain { u with completion := rs }).completion = [] then clearFlag .completionReady (drain { u with completion := rs })
        else drain { u with completion := rs }) := by
  unfold ownTakeRecord
  rw [h]
  simp only [List.isEmpty_iff]
  rfl

/-- Settles O22: a record taken makes room for those that wait, each with the verdict it was closed with. -/
theorem recordsJoinAndAreTaken : Obligations.RecordsJoinAndAreTaken := by
  unfold Obligations.RecordsJoinAndAreTaken
  refine ⟨?requests, ⟨?order, ?shake, ?lid, ?disp, fun s => drain_full⟩, fun t => ?verdict⟩
  case requests =>
    rintro s u hs rfl
    exact ⟨fun hnone => exec_done (r := .takeRecord) rfl hs.1 (.inl hs.2) (ownTakeRecord_empty hnone),
      fun r rs hcons => exec_done (r := .takeRecord) rfl hs.1 (.inl hs.2) (ownTakeRecord_cons hcons)⟩
  case order =>
    exact fun s hon => congrArg Host.Outcome.next (whenOnline_of_online drain hon)
  case shake =>
    intro s t hroom hst ht
    obtain ⟨hcompletion, hevents, htin⟩ := shakeJoined_rest (joinRecord t s)
    rw [drainShake_joins hroom hst ht, State.flag, hevents]
    exact ⟨hcompletion, joinRecord_ready t s, htin⟩
  case lid =>
    intro s t hroom hst ht hlost
    rw [drainLid_joins hroom hst ht hlost]
    exact ⟨rfl, joinRecord_ready t s, rfl, rfl⟩
  case disp =>
    intro s t hroom ht hw
    obtain ⟨hcompletion, hevents, htin, hwait⟩ := dispJoined_rest (joinRecord t s)
    rw [drainDisp_joins hroom ht hw, State.flag, hevents]
    refine ⟨hcompletion, joinRecord_ready t s, htin, hwait, fun hst => dispJoined_cancelled hst, fun hheld hlost => ?_⟩
    exact dispJoined_held (s := joinRecord t s) (fun hst => by rcases hheld with h | h <;> cases h.symm.trans hst) hlost
  case verdict =>
    rw [← spoilt_iff, ← seated_iff]
    refine ⟨verdictOf_cancelled, fun hkept hheld => ?_, fun hkept hgood => ?_⟩
    · rw [verdictOf_kept hkept, if_pos (by simpa [or_assoc] using hheld)]
    · rw [verdictOf_kept hkept, if_neg (by simpa [or_assoc] using hgood)]

end Sys2Proof.Proofs
end

