-- ==== Sys2Proof/Proofs/CancelAndSetPrio.lean ====
section
/-! PROOF. CANCEL in each state of the dispense bay, and SETPRIO (R9, R12 to R15). -/

namespace Sys2Proof.Proofs

open Sys2Proof Sys2Proof.Machine Sys2Proof.Safety Sys2Proof.Laws

variable {s u v : State} {t : TinRecord} {q : JobQueue} {j : Job} {job : Word16} {id : Nat}

/-! ## The queue without a job -/

theorem record?_none : q.record? id = none ↔ ∀ j ∈ q.records, j.id ≠ id := by simp [JobQueue.record?]

theorem reserved?_none : q.reserved? id = none ↔ ∀ j ∈ q.reserved, j.id ≠ id := by simp [JobQueue.reserved?]

/-- A change of the jobs of one id leaves a list without it. -/
theorem map_absent {l : List Job} (g : Job → Job) (h : ∀ j ∈ l, j.id ≠ id) :
    (l.map fun j => if j.id == id then g j else j) = l :=
  (List.map_congr_left fun j hj => if_neg (by simpa using h j hj)).trans (List.map_id l)

theorem filter_absent {l : List Job} : ∀ j ∈ l.filter (·.id != id), j.id ≠ id := by simp

/-- A job that CANCEL has removed takes no tin back. -/
theorem returnTin_removeJob (id : Nat) (q : JobQueue) : returnTin id (removeJob id q) = removeJob id q := by
  have hres : (removeJob id q).reserved? id = none := reserved?_none.2 filter_absent
  unfold returnTin
  rw [hres]
  dsimp only
  rw [map_absent (fun k => { k with issued := k.issued - 1 }) (l := (removeJob id q).records) filter_absent]

/-! ## The job's tins (R12, R15) -/

/-- A tin of the job that a shot was given stands in this place. -/
def shotIn (id : Nat) : Option TinRecord → Bool
  | none => false
  | some t => t.jobId == id && t.shotGiven

/-- A tin of the job stands in the carriage, the lid bay or the shake bay. -/
def heldElsewhere (s : State) (id : Nat) : Bool :=
  holdsJob id s.carriage.tin || holdsJob id s.lid.tin || holdsJob id s.shake.tin

theorem carriesOn_eq (s : State) (id : Nat) : carriesOn s id = (heldElsewhere s id || shotIn id s.disp.tin) := by
  unfold carriesOn heldElsewhere shotIn
  cases s.disp.tin <;> grind

theorem shotIn_own (h : t.jobId = id) : shotIn id (some t) = t.shotGiven := by simp [shotIn, h]

theorem jobKnown_tin (ht : u.disp.tin = some t) (hid : t.jobId = id) : jobKnown u id = true := by
  simp [jobKnown, ht, holdsJob, hid]

theorem effectOn_own (ht : u.disp.tin = some t) (hid : t.jobId = id) : effectOn u id = cancelEffect u t := by
  unfold effectOn
  rw [ht]
  exact if_pos (by simpa using hid)

theorem effectOn_other (h : holdsJob id u.disp.tin = false) : effectOn u id = .none := by
  unfold effectOn
  cases ht : u.disp.tin with
  | none => rfl
  | some t =>
    rw [ht] at h
    exact if_neg (by simpa [holdsJob] using h)

theorem shotIn_other (h : holdsJob id u.disp.tin = false) : shotIn id u.disp.tin = false := by
  cases ht : u.disp.tin with
  | none => rfl
  | some t => simp [shotIn, show (t.jobId == id) = false by simpa [holdsJob, ht] using h]

/-! ## R14's table -/

/-- A bay in work on its tin, in a state in which a tin without a shot is cancelled and one with a shot goes on. -/
theorem cancelEffect_working (h : u.disp.st = .dispensing ∨ u.disp.st = .waiting ∨ u.disp.st = .done) :
    cancelEffect u t = if t.shotGiven then .none else .tinCancelled := by
  unfold cancelEffect
  rcases h with h | h | h <;> rw [h]

theorem cancelEffect_unshot (h : u.disp.st = .tare ∨ u.disp.st = .dispensing ∨ u.disp.st = .waiting ∨ u.disp.st = .done)
    (hshot : t.shotGiven = false) : cancelEffect u t = .tinCancelled := by
  rcases h with h | h
  · unfold cancelEffect
    rw [h]
  · rw [cancelEffect_working h, hshot]
    rfl

theorem cancelEffect_held (h : u.disp.st = .fault ∨ u.disp.st = .stopped) : cancelEffect u t =
    if u.disp.resume = some .outbound ∨ t.shotGiven = true ∨ t.cancelled = true then .none else .tinCancelled := by
  unfold cancelEffect
  rcases h with h | h <;> rw [h] <;> simp [or_assoc]

theorem cancelEffect_past (h : u.disp.st = .outbound ∨ u.disp.st = .cancelled) : cancelEffect u t = .none := by
  unfold cancelEffect
  rcases h with h | h <;> rw [h]

/-! ## R14 carried out, on the state the job has been taken out of -/

/-- The state without the job's record and reserved place. -/
def withoutJob (id : Nat) (u : State) : State := u.mapJobs (removeJob id)

/-- TIN_WANTED is not set. -/
def unwanted (e : Events) : Events := { e with flags := e.flags &&& ~~~(BitVec.twoPow 15 2) }

/-- The tin of a job that is gone leaves the bay, and goes back to no job. -/
theorem withdrawTin_withoutJob (ht : u.disp.tin = some t) (hid : t.jobId = id) : withdrawTin (withoutJob id u) =
    { withoutJob id u with disp := { u.disp with tin := none }, events := unwanted u.events } := by
  have hback : (withoutJob id u).mapJobs (returnTin t.jobId) = withoutJob id u := by
    rw [hid]
    exact congrArg (fun q => { u with jobs := q }) (returnTin_removeJob id u.jobs)
  have htin : (withoutJob id u).disp.tin = some t := ht
  unfold withdrawTin
  rw [htin]
  dsimp only
  rw [hback, ite_self]
  rfl

theorem withdrawCall_withoutJob (ht : u.disp.tin = some t) (hid : t.jobId = id) : withdrawCall (withoutJob id u) =
    { withoutJob id u with
      disp := { u.disp with st := .empty, resume := none, tin := none }, events := unwanted u.events } := by
  unfold withdrawCall
  rw [withdrawTin_withoutJob ht hid]
  rfl

/-- A tin on the bay goes to CANCELLED. -/
theorem enterCancelled_present (ht : v.disp.tin = some t) (hpres : v.inputs.presDispense = true)
    (hrem : v.disp.removed = false) (hrec : v.disp.recWait = false) : enterCancelled v = { v with
      stir := { v.stir with pre := [] }
      scale := { v.scale with request := none }
      disp := { v.disp with
        st := .cancelled, resume := none, step := none, removed := false, quiet := false
        tin := some { t with cancelled := true } } } := by
  have hmark : v.disp.tin.map (fun t => { t with cancelled := true }) = some { t with cancelled := true } := by rw [ht]; rfl
  unfold enterCancelled
  rw [hpres, hrem, hrec, ← hmark]
  rfl

theorem loseLine_none (h : activeLine v = none) : loseLine v = v := by
  unfold loseLine
  rw [h]

theorem loseLine_before {i : Nat} {l : LineEntry} (h : activeLine v = some (i, l)) (hop : v.pump.op = none)
    (hstep : v.disp.step = some .beforeReading) :
    loseLine v = mapEntryAt i (fun l => { l with st := .pending }) v := by
  unfold loseLine
  rw [h]
  dsimp only
  rw [hop, hstep]
  rfl

theorem cancelTin_working (h : v.disp.st = .tare ∨ v.disp.st = .dispensing ∨ v.disp.st = .waiting ∨ v.disp.st = .done) :
    cancelTin v = clearFlag .tinWanted (enterCancelled (loseLine v)) :=
  if_neg (by rcases h with h | h | h | h <;> simp [h])

theorem cancelTin_held (h : v.disp.st = .fault ∨ v.disp.st = .stopped) : cancelTin v = markCancelled v :=
  if_pos (by simpa using h)

/-! ## CANCEL (R12 to R15) -/

/-- What CANCEL makes of the dispense bay: it leaves the other bays' tins. -/
structure CancelledTo (id : Nat) (e : CancelEffect) (goesOn : Bool) (u v : State) : Prop where
  effect : effectOn u id = e
  after : cancelInBay e (withoutJob id u) = v
  shot : shotIn id v.disp.tin = goesOn
  elsewhere : heldElsewhere v id = heldElsewhere u id

theorem exec_cancel {e : CancelEffect} {goesOn : Bool} {dropped code : Nat} (hs : serving s) (hu : u = restartKeepalive s)
    (hknown : jobKnown u job.toNat = true) (h : CancelledTo job.toNat e goesOn u v)
    (hdropped : unissued u.jobs job.toNat + (if e = .callWithdrawn then 1 else 0) = dropped) (hcode : e.code = code) :
    exec (.cancel job) s = .next (settle (withResponse 0x02
      (if heldElsewhere u job.toNat || goesOn then .inProgress else .ok)
      (bytesOf 1 dropped ++ bytesOf 1 code) s.port.overrun v)) := by
  obtain ⟨rfl, rfl, rfl, helse⟩ := h
  subst hu hdropped hcode
  refine exec_done (r := .cancel job) rfl hs.1 (.inl hs.2) ?_
  change ownCancel job _ = _
  unfold ownCancel
  rw [← helse, ← carriesOn_eq]
  exact if_pos hknown

/-- A bay the table leaves alone. -/
theorem cancelledTo_none (h : effectOn u id = .none) : CancelledTo id .none (shotIn id u.disp.tin) u (withoutJob id u) :=
  ⟨h, rfl, rfl, rfl⟩

theorem cancelledTo_called (ht : u.disp.tin = some t) (hid : t.jobId = id) (hst : u.disp.st = .called) :
    CancelledTo id .callWithdrawn false u { withoutJob id u with
      disp := { u.disp with st := .empty, resume := none, tin := none }, events := unwanted u.events } where
  effect := by
    rw [effectOn_own ht hid, cancelEffect, hst]
  after := (if_pos hst).trans (withdrawCall_withoutJob ht hid)
  shot := rfl
  elsewhere := rfl

theorem cancelledTo_wrongTin (ht : u.disp.tin = some t) (hid : t.jobId = id) (hst : u.disp.st = .wrongTin) :
    CancelledTo id .callWithdrawn false u { withoutJob id u with
      disp := { u.disp with tin := none }, events := unwanted u.events } where
  effect := by
    rw [effectOn_own ht hid, cancelEffect, hst]
  after :=
    have hnot : ¬ (withoutJob id u).disp.st = .called := fun h => absurd (hst.symm.trans h) (by decide)
    (if_neg hnot).trans (withdrawTin_withoutJob ht hid)
  shot := rfl
  elsewhere := rfl

/-- The tin cancelled in its place, with these lines. -/
def cancelledWith (id : Nat) (u : State) (t : TinRecord) (lines : List LineEntry) : State :=
  { withoutJob id u with
    stir := { u.stir with pre := [] }
    scale := { u.scale with request := none }
    disp := { u.disp with
      st := .cancelled, resume := none, step := none, removed := false, quiet := false
      tin := some { t with cancelled := true, lines := lines } }
    events := unwanted u.events }

/-- A tin in work before its first shot, present on the scale and not closed. -/
structure InWork (id : Nat) (u : State) (t : TinRecord) : Prop where
  tin : u.disp.tin = some t
  own : t.jobId = id
  st : u.disp.st = .tare ∨ u.disp.st = .dispensing ∨ u.disp.st = .waiting ∨ u.disp.st = .done
  unshot : t.shotGiven = false
  present : u.inputs.presDispense = true
  kept : u.disp.removed = false
  open_ : u.disp.recWait = false
  idle : u.pump.op = none

theorem shotIn_pending (h : t.shotGiven = false) (i : Nat) (b : Bool) :
    shotIn id (some { t with cancelled := b, lines := t.lines.modify i fun l => { l with st := .pending } }) = false := by
  have hplan : ∀ l ∈ t.lines, l.plan.isSome = false := by simpa [TinRecord.shotGiven] using h
  have hafter : ∀ l ∈ t.lines.modify i fun l => { l with st := .pending }, l.plan.isSome = false := by
    intro l hl
    obtain ⟨k, hk, rfl⟩ := List.mem_iff_getElem.1 hl
    rw [List.getElem_modify]
    split
    · exact hplan (t.lines[k]'(by simpa using hk)) (List.getElem_mem _)
    · exact hplan _ (List.getElem_mem _)
  have hany : (t.lines.modify i fun l => { l with st := .pending }).any (fun l => l.plan.isSome) = false :=
    List.any_eq_false.2 fun l hl => by simp [hafter l hl]
  simp only [shotIn, TinRecord.shotGiven, hany, Bool.and_false]

theorem cancelledTo_noLine (h : InWork id u t) (hline : activeLine u = none) :
    CancelledTo id .tinCancelled false u (cancelledWith id u t t.lines) where
  effect := by rw [effectOn_own h.tin h.own, cancelEffect_unshot h.st h.unshot]
  after := by
    change cancelTin (withoutJob id u) = _
    rw [cancelTin_working (v := withoutJob id u) h.st, loseLine_none (v := withoutJob id u) hline,
      enterCancelled_present (v := withoutJob id u) h.tin h.present h.kept h.open_]
    rfl
  shot := (shotIn_own (t := { t with cancelled := true }) h.own).trans h.unshot
  elsewhere := rfl

theorem cancelledTo_line {i : Nat} {l : LineEntry} (h : InWork id u t) (hline : activeLine u = some (i, l))
    (hstep : u.disp.step = some .beforeReading) :
    CancelledTo id .tinCancelled false u
      (cancelledWith id u t (t.lines.modify i fun l => { l with st := .pending })) where
  effect := by rw [effectOn_own h.tin h.own, cancelEffect_unshot h.st h.unshot]
  after := by
    change cancelTin (withoutJob id u) = _
    rw [cancelTin_working (v := withoutJob id u) h.st, loseLine_before (v := withoutJob id u) hline h.idle hstep]
    have htin : (mapEntryAt i (fun l => { l with st := .pending }) (withoutJob id u)).disp.tin =
        some { t with lines := t.lines.modify i fun l => { l with st := .pending } } :=
      congrArg (Option.map _) h.tin
    rw [enterCancelled_present htin h.present h.kept h.open_]
    rfl
  shot := shotIn_pending h.unshot i true
  elsewhere := rfl

/-- A held bay's tin is cancelled where it stands. -/
theorem cancelledTo_held (ht : u.disp.tin = some t) (hid : t.jobId = id) (hst : u.disp.st = .fault ∨ u.disp.st = .stopped)
    (hres : u.disp.resume ≠ some .outbound) (hshot : t.shotGiven = false) (hc : t.cancelled = false) :
    CancelledTo id .tinCancelled false u { withoutJob id u with
      disp := { u.disp with tin := some { t with cancelled := true }, removed := false }
      events := unwanted u.events } where
  effect := by rw [effectOn_own ht hid, cancelEffect_held hst, if_neg (by simp [hres, hshot, hc])]
  after := by
    have hmark : u.disp.tin.map (fun t => { t with cancelled := true }) = some { t with cancelled := true } := by rw [ht]; rfl
    change cancelTin (withoutJob id u) = _
    rw [cancelTin_held (v := withoutJob id u) hst, ← hmark]
    rfl
  shot := (shotIn_own (t := { t with cancelled := true }) hid).trans hshot
  elsewhere := rfl

/-- A tin that CANCEL leaves, with what its shots make of the answer. -/
theorem cancelledTo_left (ht : u.disp.tin = some t) (hid : t.jobId = id) (he : cancelEffect u t = .none) :
    CancelledTo id .none t.shotGiven u (withoutJob id u) := by
  have h := cancelledTo_none ((effectOn_own ht hid).trans he)
  rwa [ht, shotIn_own hid] at h

/-! ## SETPRIO (R9) -/

theorem ownSetPrio_badField {p : Byte} (h : 3 < p.toNat) : ownSetPrio job p u = refuse .badField u := if_pos h

theorem ownSetPrio_unknown {p : Byte} (hp : p.toNat ≤ 3) (hrec : ∀ j ∈ u.jobs.records, j.id ≠ job.toNat)
    (hres : ∀ j ∈ u.jobs.reserved, j.id ≠ job.toNat) : ownSetPrio job p u = refuse .noSuchJob u := by
  unfold ownSetPrio
  rw [if_neg (by omega)]
  exact if_neg (by simpa using ⟨hrec, hres⟩)

theorem ownSetPrio_known {p : Byte} (hp : p.toNat ≤ 3)
    (h : (∃ j ∈ u.jobs.records, j.id = job.toNat) ∨ ∃ j ∈ u.jobs.reserved, j.id = job.toNat) :
    ownSetPrio job p u = accept (bytesOf 1 ((reprioritise job.toNat p.toNat u.jobs).position job.toNat))
      { u with jobs := reprioritise job.toNat p.toNat u.jobs } := by
  unfold ownSetPrio
  rw [if_neg (by omega)]
  exact if_pos (by simpa using h)

theorem reprioritise_record {p : Nat} (h : q.record? id = some j) (hres : ∀ k ∈ q.reserved, k.id ≠ id) :
    reprioritise id p q = { q with records := insertJob { j with priority := p } (q.records.filter (·.id != id)) } := by
  unfold reprioritise
  rw [h]
  dsimp only
  rw [map_absent _ hres]

theorem reprioritise_reserved {p : Nat} (hrec : ∀ j ∈ q.records, j.id ≠ id) : reprioritise id p q =
    { q with reserved := q.reserved.map fun k => if k.id == id then { k with priority := p } else k } := by
  unfold reprioritise
  rw [record?_none.2 hrec]

theorem findIdxFrom_none {α : Type} {p : α → Bool} {l : List α} (h : ∀ a ∈ l, p a = false) :
    ∀ n, findIdxFrom p l n = none := by
  induction l with
  | nil => exact fun _ => rfl
  | cons a as ih =>
    obtain ⟨ha, has⟩ := List.forall_mem_cons.1 h
    exact fun n => (if_neg (by simp [ha])).trans (ih has (n + 1))

/-- A job without a record has no position. -/
theorem position_absent (h : ∀ j ∈ q.records, j.id ≠ id) : q.position id = 0 := by
  unfold JobQueue.position
  rw [findIdxFrom_none fun j hj => by simpa using h j hj]

theorem reprioritise_reserved_position {p : Nat} (hrec : ∀ j ∈ q.records, j.id ≠ id) :
    (reprioritise id p q).position id = 0 := by
  rw [reprioritise_reserved hrec]
  exact position_absent hrec

/-- Settles O21: R14's table state by state, and the three answers of SETPRIO. -/
theorem cancelAndSetPrio : Obligations.CancelAndSetPrio := by
  unfold Obligations.CancelAndSetPrio
  refine ⟨fun job s u hs hu => ⟨fun hunknown => ?unknown, fun hknown hother => ?other, fun t ht hid => ?tin⟩,
    fun job p s u hs hu => ?setPrio⟩
  case unknown =>
    subst hu
    exact exec_done (r := .cancel job) rfl hs.1 (.inl hs.2) (if_neg (by simp [hunknown]))
  case other =>
    have h := cancelledTo_none (effectOn_other hother)
    rw [shotIn_other hother] at h
    exact exec_cancel hs hu hknown h rfl rfl
  case tin =>
    have hknown := jobKnown_tin ht hid
    refine ⟨fun hst => exec_cancel hs hu hknown (cancelledTo_called ht hid hst) rfl rfl,
      fun hst => exec_cancel hs hu hknown (cancelledTo_wrongTin ht hid hst) rfl rfl,
      fun hst hshot hpres hrem hrec hop => ?_, fun hst hshot => ?_, fun hst hpast => ?_,
      fun hst hres hshot hc => exec_cancel hs hu hknown (cancelledTo_held ht hid hst hres hshot hc) rfl rfl,
      fun hst => ?_⟩
    · have hwork : InWork job.toNat u t := ⟨ht, hid, hst, hshot, hpres, hrem, hrec, hop⟩
      exact ⟨fun hline => exec_cancel hs hu hknown (cancelledTo_noLine hwork hline) rfl rfl,
        fun i l hline hstep => exec_cancel hs hu hknown (cancelledTo_line hwork hline hstep) rfl rfl⟩
    · have h := cancelledTo_left ht hid (by rw [cancelEffect_working hst, hshot]; rfl)
      rw [hshot] at h
      exact exec_cancel hs hu hknown h rfl rfl
    · exact exec_cancel hs hu hknown (cancelledTo_left ht hid (by rw [cancelEffect_held hst, if_pos hpast])) rfl rfl
    · exact exec_cancel hs hu hknown (cancelledTo_left ht hid (cancelEffect_past hst)) rfl rfl
  case setPrio =>
    subst hu
    have answer {st : Status} {payload : List Byte} {t : State}
        (ha : ownSetPrio job p (restartKeepalive s) = { status := st, payload := payload, after := t }) :
        exec (.setPrio job p) s = .next (settle (withResponse 0x03 st payload s.port.overrun t)) :=
      exec_done (r := .setPrio job p) rfl hs.1 (.inl hs.2) ha
    refine ⟨fun hp => answer (ownSetPrio_badField hp), fun hp hrec hres => answer (ownSetPrio_unknown hp hrec hres),
      fun j hp hj hres => answer ?_, fun hp hrec hres => answer ?_⟩
    · rw [ownSetPrio_known hp (.inl ⟨j, record?_spec hj⟩), reprioritise_record hj hres]
      rfl
    · rw [ownSetPrio_known hp (.inr hres), reprioritise_reserved_position hrec, reprioritise_reserved hrec]
      rfl

end Sys2Proof.Proofs
end

