-- ==== Sys2Proof/Proofs/CanisterTable.lean ====
section
/-! PROOF. CAN_LOAD, CAN_LEVEL and CAN_CLEAR (R20, R22, R23, R26, R31). -/

namespace Sys2Proof.Proofs

open Sys2Proof Sys2Proof.Machine Sys2Proof.Safety Sys2Proof.Laws

variable {s u : State} {i : Slot} {slot : Byte}

/-! ## One canister of the table -/

theorem mapCan_eq (i : Slot) (f : Canister → Canister) (s : State) :
    s.mapCan i f = { s with cans := s.cans.set i (f s.cans[i]) } := rfl

theorem mapCan_self (i : Slot) (f : Canister → Canister) (s : State) : (s.mapCan i f).cans[i] = f s.cans[i] := by
  rw [cans_mapCan, if_pos rfl]

/-- Two changes of one canister are one. -/
theorem mapCan_mapCan (i : Slot) (f g : Canister → Canister) (s : State) :
    (s.mapCan i f).mapCan i g = s.mapCan i (g ∘ f) := by
  rw [mapCan_eq i g, mapCan_self]
  exact congrArg (fun v => { s with cans := v }) (Vector.set_set ..)

/-- The flag of a low canister (R26). -/
def lowFlag (i : Slot) (level : Nat) (s : State) : State :=
  if level < (s.cfg.cans[i]).reserve + s.cfg.general.lowMargin then setFlag .canisterLow s else s

theorem setLevel_eq (i : Slot) (level : Nat) (s : State) :
    setLevel i level s = lowFlag i level (s.mapCan i fun c => { c with level := level }) := by
  have hlow : isLow (s.mapCan i fun c => { c with level := level }) i =
      decide (level < (s.cfg.cans[i]).reserve + s.cfg.general.lowMargin) := by
    unfold isLow State.can
    rw [mapCan_self]
    rfl
  unfold setLevel
  dsimp only
  rw [hlow]
  simp only [decide_eq_true_eq]
  rfl

/-! ## CAN_LOAD (R22) -/

theorem loadInRange_of {f : CanLoadFields} (h1 : 800 ≤ f.density.toNat) (h2 : f.density.toNat ≤ 2500)
    (hk : f.k = 0 ∨ (100 ≤ f.k.toNat ∧ f.k.toNat ≤ 6400)) (hl : f.level.toNat ≤ 500000) : loadInRange f = true := by
  simp only [loadInRange, Bool.and_eq_true, Bool.or_eq_true, decide_eq_true_eq]
  exact ⟨⟨⟨h1, h2⟩, hk⟩, hl⟩

/-- A canister whose load is taken keeps only its being FAULTED. -/
theorem loadedState_eq {st : CanState} (h : st ≠ .calibrating) (k : Word16) :
    loadedState st k.toNat = if st = .faulted then .faulted else if k = 0 then .uncalibrated else .ready := by
  have hk : k.toNat = 0 ↔ k = 0 := (BitVec.toNat_inj (x := k) (y := 0#16))
  cases st
  case calibrating => exact absurd rfl h
  all_goals simp [loadedState, hk]

section Load

variable {f : CanLoadFields} (hslot : f.slot.toNat = i.val + 1) (hrange : loadInRange f = true)
include hslot hrange

theorem ownCanLoad_busy (h : (u.cans[i]).activity = .pumping ∨ (u.cans[i]).activity = .refilling ∨
    (u.cans[i]).state = .calibrating) : ownCanLoad f u = refuse .busy u := by
  unfold ownCanLoad
  rw [slotOf_eq hslot]
  dsimp only
  rw [hrange, if_neg (by decide)]
  have hbusy : (decide ((u.can i).activity = .pumping) || decide ((u.can i).activity = .refilling) ||
      decide ((u.can i).state = .calibrating)) = true := by
    rw [Bool.or_eq_true, Bool.or_eq_true, decide_eq_true_eq, decide_eq_true_eq, decide_eq_true_eq, or_assoc]
    exact h
  exact if_pos hbusy

theorem ownCanLoad_taken (h1 : (u.cans[i]).activity ≠ .pumping) (h2 : (u.cans[i]).activity ≠ .refilling)
    (h3 : (u.cans[i]).state ≠ .calibrating) : ownCanLoad f u = accept [] (reportCanister i
      (lowFlag i f.level.toNat { u with cans := u.cans.set i { u.cans[i] with
        code := f.code.toNat, density := f.density.toNat, k := f.k.toNat, level := f.level.toNat
        state := if (u.cans[i]).state = .faulted then .faulted else if f.k = 0 then .uncalibrated else .ready } })) := by
  have hfree : ¬ (decide ((u.can i).activity = .pumping) || decide ((u.can i).activity = .refilling) ||
      decide ((u.can i).state = .calibrating)) = true := by
    simpa only [Bool.or_eq_true, decide_eq_true_eq, not_or, and_assoc] using ⟨h1, h2, h3⟩
  unfold ownCanLoad
  rw [slotOf_eq hslot]
  dsimp only
  rw [hrange, if_neg (by decide), if_neg hfree, setLevel_eq, mapCan_mapCan,
    ← loadedState_eq h3]
  rfl

end Load

/-! ## CAN_LEVEL and CAN_CLEAR (R23, R31) -/

section Level

variable {level : Word32} (hslot : slot.toNat = i.val + 1) (hlevel : level.toNat ≤ 500000)
include hslot hlevel

theorem ownCanLevel_eq : ownCanLevel slot level u =
    if (u.cans[i]).state = .absent then refuse .noCanister u
    else if (u.cans[i]).activity = .pumping then refuse .busy u
    else accept [] (reportCanister i
      (lowFlag i level.toNat { u with cans := u.cans.set i { u.cans[i] with level := level.toNat } })) := by
  unfold ownCanLevel
  rw [slotOf_eq hslot]
  dsimp only
  rw [if_neg (by unfold Config.levelLimit; omega), setLevel_eq]
  rfl

end Level

theorem ownCanClear_eq (hslot : slot.toNat = i.val + 1) : ownCanClear slot u =
    if (u.cans[i]).state = .absent then refuse .noCanister u
    else if (u.cans[i]).state = .calibrating then refuse .busy u
    else accept [] (if (u.cans[i]).state = .faulted then reportCanister i (u.mapCan i clearedCanister)
      else u.mapCan i clearedCanister) := by
  unfold ownCanClear
  rw [slotOf_eq hslot]
  rfl

theorem clearedCanister_faulted {c : Canister} (h : c.state = .faulted) :
    clearedCanister c = { c with miss := 0, reason := none, state := if 0 < c.k then .ready else .uncalibrated } := by
  unfold clearedCanister
  rw [h]

theorem clearedCanister_sound {c : Canister} (h : c.state ≠ .faulted) : clearedCanister c = { c with miss := 0 } := by
  unfold clearedCanister
  split
  case h_1 hf => exact absurd hf h
  all_goals rfl

/-- Settles O23: the three requests on one canister of the table. -/
theorem canLoadLevelAndClear : Obligations.CanLoadLevelAndClear := by
  unfold Obligations.CanLoadLevelAndClear
  refine ⟨?load, fun slot i s u hs hu hslot => ⟨fun level hlevel => ?level, ?clear⟩⟩
  case load =>
    rintro f i s u hs rfl hslot h1 h2 hk hl
    have hrange := loadInRange_of h1 h2 hk hl
    exact ⟨fun hbusy => exec_done (r := .canLoad f) rfl hs.1 (.inl hs.2) (ownCanLoad_busy hslot hrange hbusy),
      fun h1 h2 h3 => exec_done (r := .canLoad f) rfl hs.1 (.inl hs.2) (ownCanLoad_taken hslot hrange h1 h2 h3)⟩
  case level =>
    subst hu
    have answer {st : Status} {t : State}
        (ha : ownCanLevel slot level (restartKeepalive s) = { status := st, payload := [], after := t }) :
        exec (.canLevel slot level) s = .next (settle (withResponse 0x08 st [] s.port.overrun t)) :=
      exec_done (r := .canLevel slot level) rfl hs.1 (.inl hs.2) ha
    rw [ownCanLevel_eq hslot hlevel] at answer
    exact ⟨fun habsent => answer (if_pos habsent), fun hthere hbusy => answer ((if_neg hthere).trans (if_pos hbusy)),
      fun hthere hfree => answer ((if_neg hthere).trans (if_neg hfree))⟩
  case clear =>
    subst hu
    have answer {st : Status} {t : State}
        (ha : ownCanClear slot (restartKeepalive s) = { status := st, payload := [], after := t }) :
        exec (.canClear slot) s = .next (settle (withResponse 0x0A st [] s.port.overrun t)) :=
      exec_done (r := .canClear slot) rfl hs.1 (.inl hs.2) ha
    rw [ownCanClear_eq hslot] at answer
    refine ⟨fun h => answer (if_pos h), fun h => answer ?_, fun h => answer ?_, fun h => answer ?_⟩
    · rw [if_neg (h.trans_ne (by decide)), if_pos h]
      rfl
    · have hother {st : CanState} (hr : CanState.ready ≠ st) (hu : CanState.uncalibrated ≠ st) :
          ((restartKeepalive s).cans[i]).state ≠ st := h.elim (·.trans_ne hr) (·.trans_ne hu)
      have hsound := hother (st := .faulted) (by decide) (by decide)
      rw [if_neg (hother (by decide) (by decide)), if_neg (hother (by decide) (by decide)), if_neg hsound, mapCan_eq,
        clearedCanister_sound hsound]
      rfl
    · rw [if_neg (h.trans_ne (by decide)), if_neg (h.trans_ne (by decide)), if_pos h, mapCan_eq,
        clearedCanister_faulted h]
      rfl

end Sys2Proof.Proofs
end

