-- ==== Sys2Proof/Proofs/CalibrationRequests.lean ====
section
/-! PROOF. CALIBRATE and CAL_ABORT (R34, R59, R100 to R102, R107 to R109). -/

namespace Sys2Proof.Proofs

open Sys2Proof Sys2Proof.Machine Sys2Proof.Safety Sys2Proof.Laws

variable {s u v : State} {i : Slot} {slot : Byte} {mask : Option Byte} {c : CalRecord}

/-! ## CALIBRATE (R100, R101) -/

theorem ownCalibrate_badField (h : slot.toNat = 0 ∨ 16 < slot.toNat ∨
    ∃ m, mask = some m ∧ (m.toNat = 0 ∨ 15 < m.toNat)) : ownCalibrate slot mask u = refuse .badField u := by
  have hbad : slotOf slot = none ∨ maskFits mask = false := by
    rcases h with h | h | ⟨m, rfl, hm⟩
    · exact .inl (slotOf_none (.inl (BitVec.eq_of_toNat_eq h)))
    · exact .inl (slotOf_none (.inr h))
    · refine .inr (Bool.eq_false_iff.2 fun hfits => ?_)
      simp only [maskFits, Bool.and_eq_true, decide_eq_true_eq] at hfits
      omega
  unfold ownCalibrate
  cases hslot : slotOf slot with
  | none => rfl
  | some i =>
    have hmask : maskFits mask = false := hbad.resolve_left (by simp [hslot])
    rw [hmask]
    rfl

theorem ownCalibrate_eq (hslot : slot.toNat = i.val + 1) (hmask : maskFits mask = true) : ownCalibrate slot mask u =
    if u.mon.mode ≠ .maint then refuse .notPermitted u
    else if u.disp.st ≠ .empty then refuse .busy u
    else if (u.cans[i]).state = .absent then refuse .noCanister u
    else accept [] (startCal i mask u) := by
  unfold ownCalibrate
  rw [slotOf_eq hslot, hmask]
  rfl

/-- A settled canister neither stirring nor waiting for a stir has one requested. -/
def asksStir (u : State) (i : Slot) : Bool :=
  hasSettled u i && decide ((u.cans[i]).activity ≠ .stirring ∧ i ∉ u.stir.pre)

/-- The calibration is open; nothing has been weighed. -/
def calOpened (i : Slot) (mask : Option Byte) (u : State) : State :=
  { u with
    disp := { u.disp with
      st := .calCup, resume := none, step := none, removed := false, cal := some (newCal u i mask), last := none }
    cans := u.cans.set i { u.cans[i] with state := .calibrating, reason := none } }

theorem makePre_calibrating (h : (v.cans[i]).state = .calibrating) : makePre i v =
    if (v.cans[i]).activity ≠ .stirring ∧ i ∉ v.stir.pre then { v with stir := { v.stir with pre := v.stir.pre ++ [i] } }
    else v := by
  have hstate : ∀ st, CanState.calibrating ≠ st → decide ((v.can i).state = st) = false :=
    fun st hst => decide_eq_false (h.trans_ne hst)
  unfold makePre
  rw [hstate _ (by decide), hstate _ (by decide), Bool.or_self, Bool.false_or]
  by_cases hstir : (v.cans[i]).activity = .stirring
  · rw [if_pos (by simp only [State.stirring, State.can, hstir, decide_true, Bool.true_or]),
      if_neg (fun hn => hn.1 hstir)]
  · by_cases hpre : i ∈ v.stir.pre
    · rw [if_pos (by simp [State.preRequested, hpre]), if_neg (fun hn => hn.2 hpre)]
    · have hnone : (v.stirring i || v.preRequested i) = false := by
        rw [Bool.or_eq_false_iff]
        exact ⟨decide_eq_false hstir, by simpa [State.preRequested] using hpre⟩
      rw [if_neg (by rw [hnone]; decide), if_pos ⟨hstir, hpre⟩]
      rfl

theorem calOpened_can : (calOpened i mask u).cans[i] = { u.cans[i] with state := .calibrating, reason := none } :=
  mapCan_self i (fun c => { c with state := .calibrating, reason := none }) u

theorem hasSettled_calOpened : hasSettled (calOpened i mask u) i = hasSettled u i := by
  unfold hasSettled State.can
  rw [calOpened_can]
  rfl

/-- The calibration is open, with the stir it asks for. -/
theorem startCal_stirred : (if hasSettled (calOpened i mask u) i then makePre i (calOpened i mask u)
    else calOpened i mask u) = { calOpened i mask u with
      stir := if asksStir u i then { u.stir with pre := u.stir.pre ++ [i] } else u.stir } := by
  have hcal : ((calOpened i mask u).cans[i]).state = .calibrating := by rw [calOpened_can]
  have hact : ((calOpened i mask u).cans[i]).activity = (u.cans[i]).activity := by rw [calOpened_can]
  rw [hasSettled_calOpened, makePre_calibrating hcal, hact]
  unfold asksStir
  cases hasSettled u i
  · rfl
  · by_cases hask : (u.cans[i]).activity ≠ .stirring ∧ i ∉ u.stir.pre
    · rw [if_pos rfl, Bool.true_and, decide_eq_true hask]
      exact if_pos hask
    · rw [if_pos rfl, Bool.true_and, decide_eq_false hask]
      exact if_neg hask

theorem startCal_empty (h : u.inputs.presDispense = false) : startCal i mask u = { calOpened i mask u with
    stir := if asksStir u i then { u.stir with pre := u.stir.pre ++ [i] } else u.stir } := by
  rw [← startCal_stirred (i := i) (mask := mask) (u := u)]
  refine if_neg ?_
  rw [Bool.not_eq_true]
  change (if hasSettled (calOpened i mask u) i then makePre i (calOpened i mask u)
    else calOpened i mask u).inputs.presDispense = _
  rw [startCal_stirred]
  exact h

theorem startCal_cup (h : u.inputs.presDispense = true) : startCal i mask u =
    weighCup { calOpened i mask u with
      stir := if asksStir u i then { u.stir with pre := u.stir.pre ++ [i] } else u.stir } := by
  rw [← startCal_stirred (i := i) (mask := mask) (u := u)]
  refine if_pos ?_
  change (if hasSettled (calOpened i mask u) i then makePre i (calOpened i mask u)
    else calOpened i mask u).inputs.presDispense = _
  rw [startCal_stirred]
  exact h

/-! ## CAL_ABORT (R107 to R109) -/

/-- The calibration has ended ABORTED in a bay that was not held, which looks at the cup no more. -/
def calOver (c : CalRecord) (v : State) : State :=
  { v with
    stir := { v.stir with pre := [] }
    scale := { v.scale with request := none }
    events := { v.events with flags := v.events.flags ||| BitVec.twoPow 15 8 }
    cans := v.cans.set c.slot { v.cans[c.slot] with
      state := if 0 < (v.cans[c.slot]).k then .ready else .uncalibrated }
    disp := { v.disp with
      st := .calEnd
      resume := none
      step := none
      quiet := false
      cal := some { c with stage := .over, test := none }
      last := some
        { slot := c.slot, outcome := .aborted, passes := c.pass, newK := none, ks := c.results.map (·.ki) } } }

/-- The bay after the end: it waits for the cup to be lifted, or is empty. -/
def calLeft (cup : Bool) (d : DispenseBay) : DispenseBay :=
  { d with
    st := if cup then .calEnd else .empty
    resume := none
    removed := cup && d.removed
    cal := if cup then d.cal else none }

theorem calEnded_look (hst : v.disp.st = .calEnd) (hres : v.disp.resume = none) :
    calEnded v = { v with disp := calLeft v.inputs.presDispense v.disp } := by
  cases hp : v.inputs.presDispense
  · unfold calEnded
    rw [hst, hp]
    rfl
  · have hstays : calLeft true v.disp = v.disp := by
      unfold calLeft
      rw [if_pos rfl, if_pos rfl, ← hst, ← hres]
      rfl
    rw [hstays]
    exact if_neg (by simp [hp])

theorem settleCanister_none {k : Canister} (h : k.state = .calibrating) :
    settleCanister none k = { k with state := if 0 < k.k then .ready else .uncalibrated } := by
  unfold settleCanister
  rw [h]

/-- What CAL_ABORT makes of a calibration in a bay that is not held. -/
def calAborted (c : CalRecord) (v : State) : State :=
  { calOver c v with disp := calLeft v.inputs.presDispense (calOver c v).disp }

theorem abortCal_running (hcal : v.disp.cal = some c) (hstage : c.stage ≠ .over)
    (hst : v.disp.st ≠ .fault ∧ v.disp.st ≠ .stopped) (hcan : (v.cans[c.slot]).state = .calibrating) :
    abortCal v = calAborted c v := by
  have hrun : calRunning v = true := by simp [calRunning, hcal, hstage]
  have hheld : (decide (v.disp.st = .fault) || decide (v.disp.st = .stopped)) = false := by simp [hst]
  have hover : abortCal v = calEnded (calOver c v) := by
    unfold abortCal calOutcome calOver
    rw [if_pos hrun, hcal, ← settleCanister_none hcan]
    dsimp only
    rw [hheld]
    simp only [setFlag, State.mapEvents, State.mapCan, State.mapCans, State.mapDisp, State.mapStir, State.mapScale,
      dropPre, closeRequest, EventFlag.bit, Bool.false_eq_true, if_false]
  exact hover.trans (calEnded_look (v := calOver c v) rfl rfl)

theorem getElem_set_slot (l : Vector Canister 16) (i : Slot) (k : Canister) : (l.set i k)[i] = k := by simp

/-- The end of a calibration whose pump and canister have just been changed. -/
theorem abortCal_changed (p : PumpDrive) {k : Canister} (hcal : v.disp.cal = some c) (hstage : c.stage ≠ .over)
    (hst : v.disp.st ≠ .fault ∧ v.disp.st ≠ .stopped) (hk : k.state = .calibrating) :
    abortCal { v with pump := p, cans := v.cans.set c.slot k } = { calAborted c v with
      pump := p
      cans := v.cans.set c.slot { k with state := if 0 < k.k then .ready else .uncalibrated } } := by
  rw [abortCal_running (v := { v with pump := p, cans := v.cans.set c.slot k }) hcal hstage hst
    ((congrArg Canister.state (getElem_set_slot _ _ _)).trans hk)]
  unfold calAborted calOver
  dsimp only
  rw [getElem_set_slot, Vector.set_set]

theorem interruptOp_none (h : v.pump.op = none) : interruptOp v = v := by
  unfold interruptOp
  rw [h]

theorem interruptOp_some {o : PumpOp} (h : v.pump.op = some o) (hslot : o.slot = i) : interruptOp v = { v with
    pump := { v.pump with op := none }
    cans := v.cans.set i { v.cans[i] with
      activity := .idle
      level := min 500000 ((v.cans[i]).level + creditVolume o.total o.counted o.k) } } := by
  subst hslot
  unfold interruptOp
  rw [h]
  exact mapCan_mapCan o.slot (fun c => { c with activity := .idle })
    (fun c => { c with level := min 500000 (c.level + creditVolume o.total o.counted o.k) })
    (v.mapPump fun p => { p with op := none })

theorem ownCalAbort_running (h : u.disp.st = .calCup ∨ u.disp.st = .calPrime ∨ u.disp.st = .calRate) :
    ownCalAbort u = accept [] (abortCal (interruptOp u)) := if_pos (by simpa [or_assoc] using h)

theorem ownCalAbort_idle (h1 : u.disp.st ≠ .calCup) (h2 : u.disp.st ≠ .calPrime) (h3 : u.disp.st ≠ .calRate) :
    ownCalAbort u = refuse .notPermitted u := if_neg (by simp [h1, h2, h3])

/-- Settles O24: the checks of CALIBRATE, the calibration it opens, and the end that CAL_ABORT makes of one. -/
theorem calibrateAndCalAbort : Obligations.CalibrateAndCalAbort := by
  unfold Obligations.CalibrateAndCalAbort
  refine ⟨?badField, ?calibrate, ?abort, ?noCal⟩
  case badField =>
    rintro slot mask s u hs rfl h
    exact exec_done (r := .calibrate slot mask) rfl hs.1 (.inl hs.2) (ownCalibrate_badField h)
  case calibrate =>
    rintro slot i mask s u hs rfl hslot hmask
    have answer {st : Status} {t : State}
        (ha : ownCalibrate slot mask (restartKeepalive s) = { status := st, payload := [], after := t }) :
        exec (.calibrate slot mask) s = .next (settle (withResponse 0x0B st [] s.port.overrun t)) :=
      exec_done (r := .calibrate slot mask) rfl hs.1 (.inl hs.2) ha
    rw [ownCalibrate_eq hslot hmask] at answer
    refine ⟨fun hm => answer (if_pos hm), fun hm hst => answer ?_, fun hm hst habs => answer ?_,
      fun hm hst habs => ⟨fun hp => answer ?_, fun hp => answer ?_⟩⟩
    · rw [if_neg (not_not.2 hm), if_pos hst]
      rfl
    · rw [if_neg (not_not.2 hm), if_neg (not_not.2 hst), if_pos habs]
      rfl
    · rw [if_neg (not_not.2 hm), if_neg (not_not.2 hst), if_neg habs, startCal_empty hp]
      rfl
    · rw [if_neg (not_not.2 hm), if_neg (not_not.2 hst), if_neg habs, startCal_cup hp]
      rfl
  case abort =>
    rintro c s u hs rfl hst hcal hstage hcan
    have hfree : (restartKeepalive s).disp.st ≠ .fault ∧ (restartKeepalive s).disp.st ≠ .stopped := by
      rcases hst with h | h | h <;> exact ⟨h.trans_ne (by decide), h.trans_ne (by decide)⟩
    have answer {t : State} (ha : abortCal (interruptOp (restartKeepalive s)) = t) :
        exec .calAbort s = .next (settle (withResponse 0x0C .ok [] s.port.overrun t)) :=
      exec_done (r := .calAbort) rfl hs.1 (.inl hs.2) ((ownCalAbort_running hst).trans (by rw [ha]; rfl))
    refine ⟨fun hop => answer ?_, fun o hop hslot => answer ?_⟩
    · rw [interruptOp_none hop]
      exact abortCal_running hcal hstage hfree hcan
    · rw [interruptOp_some hop hslot]
      exact abortCal_changed _ hcal hstage hfree hcan
  case noCal =>
    rintro s u hs rfl h1 h2 h3
    exact exec_done (r := .calAbort) rfl hs.1 (.inl hs.2) (ownCalAbort_idle h1 h2 h3)

end Sys2Proof.Proofs
end

