-- ==== Sys2Proof/Proofs/Stirring.lean ====
section
/-! PROOF. The stirrers: their ages, the door's hold, and the judgement of their speed (R28, R32, R36 to R38). -/

namespace Sys2Proof.Proofs

open Sys2Proof Sys2Proof.Machine Sys2Proof.Safety Sys2Proof.Laws

variable {s : State} {i : Slot} {r : StirRun} {period : Nat}

theorem exec_whenOnline (f : State → State) (h : s.online = true) :
    (.next (whenOnline f s) : Host.Outcome State Fault Refusal) = .next (settle (f s)) :=
  congrArg Host.Outcome.next (whenOnline_of_online f h)

theorem exec_whenSensed {level f : State → State} (h : s.online = true) :
    (.next (whenSensed level f s) : Host.Outcome State Fault Refusal) = .next (settle (f (level s))) :=
  congrArg Host.Outcome.next (if_pos h)

/-! ## A stir that runs (R36, R37) -/

theorem runningStir_closed (h : s.inputs.doorOpen = false) : runningStir s i = s.stirRun? i := if_neg (by simp [h])

theorem runningStir_none (h : s.inputs.doorOpen = true ∨ s.stirRun? i = none) : runningStir s i = none := by
  unfold runningStir
  rcases h with h | h
  · exact if_pos h
  · rw [h, ite_self]

theorem fastStir_run (h : runningStir s i = some r) : fastStir i s =
    if r.expired then stirCompleted i s else mapRun i (fun r => { r with check := none, slow := 0 }) s := by
  unfold fastStir
  rw [h]

theorem slowStir_run (h : runningStir s i = some r) : slowStir i s =
    if r.check.isSome then s else if 2 ≤ r.slow then canisterFault i .stir s
    else mapRun i (fun r => { r with slow := r.slow + 1 }) s := by
  unfold slowStir
  rw [h]

theorem checkExpires_run (h : runningStir s i = some r) :
    checkExpires i s = if r.check.isSome then canisterFault i .stir s else s := by
  unfold checkExpires
  rw [h]

theorem runExpires_run (h : runningStir s i = some r) : runExpires i s =
    if r.check.isSome then mapRun i (fun r => { r with left := 0, expired := true }) s else stirCompleted i s := by
  unfold runExpires
  rw [h]

section Held

variable (h : runningStir s i = none)
include h

theorem fastStir_held : fastStir i s = s := by
  unfold fastStir
  rw [h]

theorem slowStir_held : slowStir i s = s := by
  unfold slowStir
  rw [h]

theorem checkExpires_held : checkExpires i s = s := by
  unfold checkExpires
  rw [h]

theorem runExpires_held : runExpires i s = s := by
  unfold runExpires
  rw [h]

end Held

/-! ## The commands (R32, R36, R37) -/

section Commands

variable (ho : s.online = true)
include ho

theorem exec_stirrerRevolution_fast (hp : period ≤ s.cfg.general.stirMinPeriod) :
    exec (.stirrerRevolution i period) s = .next (settle (fastStir i s)) :=
  (exec_whenOnline _ ho).trans (by rw [if_pos hp])

theorem exec_stirrerSpeedSaturated : exec (.stirrerSpeedSaturated i) s = .next (settle (slowStir i s)) :=
  exec_whenOnline _ ho

theorem exec_stirrerRevolution_slow (hp : s.cfg.general.stirMinPeriod < period) :
    exec (.stirrerRevolution i period) s = exec (.stirrerSpeedSaturated i) s := by
  rw [exec_stirrerSpeedSaturated ho]
  exact (exec_whenOnline _ ho).trans (by rw [if_neg (by omega)])

theorem exec_stirSpeedTimeout : exec (.stirSpeedTimeout i) s = .next (settle (checkExpires i s)) := exec_whenOnline _ ho

theorem exec_stirRunExpiry : exec (.stirRunExpiry i) s = .next (settle (runExpires i s)) := exec_whenOnline _ ho

end Commands

/-! ## The end of a stir (R28, R37) -/

theorem freeStir_stirring (h : (s.cans[i]).activity = .stirring) : freeStir i s = { s with
    stir := { s.stir with runs := s.stir.runs.filter (·.slot ≠ i) }
    cans := s.cans.set i { s.cans[i] with activity := .idle } } := by
  have hidle : (if (s.cans[i]).activity = .stirring then { s.cans[i] with activity := .idle } else s.cans[i]) =
      { s.cans[i] with activity := .idle } := if_pos h
  rw [← hidle]
  rfl

theorem completeStir_stirring (h : (s.cans[i]).activity = .stirring) : completeStir i s = { s with
    stir := { s.stir with runs := s.stir.runs.filter (·.slot ≠ i) }
    cans := s.cans.set i { s.cans[i] with activity := .idle, age := 0 } } := by
  unfold completeStir
  rw [freeStir_stirring h, mapCan_eq]
  dsimp only
  rw [getElem_set_slot, Vector.set_set]

theorem markFaulted_stirring (why : CanFault) (h : (s.cans[i]).activity = .stirring)
    (hst : (s.cans[i]).state = .ready ∨ (s.cans[i]).state = .uncalibrated ∨ (s.cans[i]).state = .calibrating) :
    markFaulted i why s = { s with
      stir := { s.stir with pre := s.stir.pre.filter (· ≠ i), runs := s.stir.runs.filter (·.slot ≠ i) }
      cans := s.cans.set i { s.cans[i] with activity := .idle, state := .faulted, reason := some why }
      events := { s.events with flags := s.events.flags ||| BitVec.twoPow 15 6 } } := by
  unfold markFaulted
  rw [freeStir_stirring (s := s.mapStir fun m => { m with pre := m.pre.filter (· ≠ i) }) h, mapCan_eq]
  dsimp only
  rw [getElem_set_slot, Vector.set_set]
  dsimp only [State.mapStir]
  rcases hst with hst | hst | hst <;> rw [hst] <;> rfl

theorem markFaulted_disp (why : CanFault) : (markFaulted i why s).disp = s.disp := rfl

theorem canisterFault_own (why : CanFault) {c : CalRecord} (hcal : s.disp.cal = some c) (hc : c.slot = i) :
    canisterFault i why s = reportCanister i (abortCal (markFaulted i why s)) := by
  unfold canisterFault
  dsimp only
  rw [markFaulted_disp, hcal]
  dsimp only
  rw [if_pos hc]

theorem canisterFault_other (why : CanFault) (h : ∀ c : CalRecord, s.disp.cal = some c → c.slot ≠ i) :
    canisterFault i why s = reportCanister i (markFaulted i why s) := by
  unfold canisterFault
  dsimp only
  rw [markFaulted_disp]
  cases hcal : s.disp.cal with
  | none => rfl
  | some c =>
    dsimp only
    rw [if_neg (h c hcal)]

/-- Settles O25: the ages, the judgement of each measurement, the two ends of a stir, and the door. -/
theorem stirrersAgeHoldAndAreJudged : Obligations.StirrersAgeHoldAndAreJudged := by
  unfold Obligations.StirrersAgeHoldAndAreJudged
  refine ⟨fun s ho => exec_whenOnline _ ho,
    ⟨⟨fun s i r period ho hdoor hr => ?running, fun s i period ho hheld => ?held⟩,
      fun s i => ⟨rfl, fun why => ⟨fun c hcal hc => canisterFault_own why hcal hc, canisterFault_other why⟩⟩,
      fun s i hstir => ⟨completeStir_stirring hstir, fun why => markFaulted_stirring why hstir⟩⟩,
    fun s ho => ⟨exec_whenSensed ho, exec_whenSensed ho⟩⟩
  case running =>
    have hrun := (runningStir_closed hdoor).trans hr
    rw [exec_stirrerSpeedSaturated ho, exec_stirSpeedTimeout ho, exec_stirRunExpiry ho, slowStir_run hrun,
      checkExpires_run hrun, runExpires_run hrun]
    refine ⟨fun hp hexp => ?_, fun hp hexp => ?_, fun hp => ?_, fun hcheck => ?_, fun hcheck hslow => ?_,
      fun hcheck hslow => ?_, fun hcheck => ?_⟩
    · rw [exec_stirrerRevolution_fast ho hp, fastStir_run hrun, if_neg (by simp [hexp])]
    · rw [exec_stirrerRevolution_fast ho hp, fastStir_run hrun, if_pos hexp]
    · rw [exec_stirrerRevolution_slow ho hp, exec_stirrerSpeedSaturated ho, slowStir_run hrun]
    · rw [if_pos hcheck, if_pos hcheck, if_pos hcheck]
      exact ⟨rfl, rfl, rfl⟩
    · rw [if_neg (by simp [hcheck]), if_neg (by omega)]
    · rw [if_neg (by simp [hcheck]), if_pos hslow]
    · rw [if_neg (by simp [hcheck]), if_neg (by simp [hcheck])]
      exact ⟨rfl, rfl⟩
  case held =>
    have hnone := runningStir_none hheld
    have hsat : exec (.stirrerSpeedSaturated i) s = .next (settle s) := by
      rw [exec_stirrerSpeedSaturated ho, slowStir_held hnone]
    refine ⟨?_, hsat, by rw [exec_stirSpeedTimeout ho, checkExpires_held hnone],
      by rw [exec_stirRunExpiry ho, runExpires_held hnone]⟩
    rcases Nat.lt_or_ge s.cfg.general.stirMinPeriod period with hp | hp
    · rw [exec_stirrerRevolution_slow ho hp, hsat]
    · rw [exec_stirrerRevolution_fast ho hp, fastStir_held hnone]

end Sys2Proof.Proofs
end

