-- ==== Sys2Proof/Proofs/PumpSegments.lean ====
section
/-! PROOF. The segments of a pump operation: their beginning, the valve's turns, the pulses, and their end (R50 to R57,
R60). -/

namespace Sys2Proof.Proofs

open Sys2Proof Sys2Proof.Machine Sys2Proof.Safety Sys2Proof.Laws

variable {s t : State} {o : PumpOp} {i : Slot}

/-! ## Valve turns and pulses (R51, R54, R56) -/

section Turns

variable (hop : s.pump.op = some o)
include hop

theorem turnDone_out (h : o.stage = .turnOut) :
    turnDone s = { s with pump := { s.pump with op := some { o with stage := .moving, turn := 0 } } } := by
  unfold turnDone
  rw [hop]
  dsimp only
  rw [h, mapOp_some hop]
  rfl

theorem turnDone_back (h : o.stage = .turnBack) : turnDone s = afterTurnBack o s := by
  unfold turnDone
  rw [hop]
  dsimp only
  rw [h]

theorem turnDone_moving (h : o.stage = .moving) : turnDone s = s := by
  unfold turnDone
  rw [hop]
  dsimp only
  rw [h]

theorem countPulse_moving (h : o.stage = .moving) (hcount : 0 < o.run ∨ o.paused = false) :
    countPulse o.slot s = { s with pump := { s.pump with op := some { o with pulses := o.pulses + 1 } } } := by
  unfold countPulse
  rw [hop]
  dsimp only
  rw [if_pos (by simpa [h] using hcount), mapOp_some hop]
  rfl

theorem countPulse_other (h : i ≠ o.slot ∨ o.stage ≠ .moving) : countPulse i s = s := by
  unfold countPulse
  rw [hop]
  refine if_neg fun hc => ?_
  simp only [Bool.and_eq_true, decide_eq_true_eq] at hc
  exact h.elim (· hc.1.1.symm) (· hc.1.2)

end Turns

theorem afterTurnBack_home (h : o.segment = .home) : afterTurnBack o s = forwardOrRefill o { s with
    pump := { s.pump with homed := s.pump.homed.set o.slot true }
    cans := s.cans.set o.slot { s.cans[o.slot] with activity := .pumping, piston := 0, snuff := 0 } } := by
  unfold afterTurnBack
  rw [if_pos h]
  exact congrArg (forwardOrRefill o) (mapCan_mapCan o.slot (fun c => { c with activity := .pumping })
    (fun c => { c with piston := 0, snuff := 0 }) (s.mapPump fun p => { p with homed := p.homed.set o.slot true }))

theorem afterTurnBack_refill (h : o.segment = .refill) : afterTurnBack o s = forwardOrRefill o { s with
    cans := s.cans.set o.slot { s.cans[o.slot] with activity := .pumping } } := by
  unfold afterTurnBack
  rw [if_neg (h.trans_ne (by decide))]
  rfl

theorem turnDone_idle (h : s.pump.op = none) : turnDone s = s := by
  unfold turnDone
  rw [h]

theorem countPulse_idle (h : s.pump.op = none) : countPulse i s = s := by
  unfold countPulse
  rw [h]

/-- Settles O27: the valve's turns by stage and segment, and the pulses that are counted. -/
theorem valveTurnsAndPulses : Obligations.ValveTurnsAndPulses := by
  unfold Obligations.ValveTurnsAndPulses
  refine ⟨fun s o ho hop => ?working, fun s i ho hop => ?idle⟩
  case working =>
    have hturn : exec .valveTurnDone s = .next (settle (turnDone s)) := exec_whenOnline _ ho
    have hpulse (i : Slot) : exec (.rotationPulse i) s = .next (settle (countPulse i s)) := exec_whenOnline _ ho
    rw [hturn, hpulse]
    refine ⟨fun h => by rw [turnDone_out hop h], fun h hg => ?_, fun h hg => ?_, fun h => by rw [turnDone_moving hop h],
      fun h hcount => by rw [countPulse_moving hop h hcount], fun i h => by rw [hpulse, countPulse_other hop h]⟩
    · rw [turnDone_back hop h, afterTurnBack_home hg]
    · rw [turnDone_back hop h, afterTurnBack_refill hg]
  case idle =>
    exact ⟨(exec_whenOnline _ ho).trans (by rw [turnDone_idle hop]),
      (exec_whenOnline _ ho).trans (by rw [countPulse_idle hop])⟩

/-! ## The segments' beginning (R50 to R54) -/

/-- The operation with a new segment. -/
def withSegment (g : Segment) (stage : SegStage) (steps : Nat) (o : PumpOp) (p : PumpDrive) : PumpDrive :=
  { p with op := some { o with
    segment := g, stage := stage, toRun := steps, run := 0, pulses := 0, turn := 0, frac := 0 } }

theorem mapOp_move (hop : s.pump.op = some o) (g : Segment) (steps : Nat) :
    mapOp (moveSegment g steps) s = { s with pump := withSegment g .moving steps o s.pump } := by
  rw [mapOp_some hop]
  rfl

theorem mapOp_turn (hop : s.pump.op = some o) (g : Segment) (steps : Nat) :
    mapOp (turnSegment g steps) s = { s with pump := withSegment g .turnOut steps o s.pump } := by
  rw [mapOp_some hop]
  rfl

section Begins

variable (hop : s.pump.op = some o)
include hop

theorem forwardOrRefill_forward (hroom : (s.cans[o.slot]).piston < (s.cfg.cans[o.slot]).travel) :
    forwardOrRefill o s = { s with
      pump := withSegment .forward .moving
        (min (o.total - o.counted) ((s.cfg.cans[o.slot]).travel - (s.cans[o.slot]).piston)) o s.pump } := by
  have hsome : ¬ (s.canStatic o.slot).travel - (s.can o.slot).piston = 0 := by
    unfold State.can State.canStatic
    omega
  unfold forwardOrRefill
  dsimp only
  rw [decide_eq_false hsome, Bool.false_and, if_neg (by decide), mapOp_move hop]
  rfl

theorem forwardOrRefill_refill (hleft : o.counted < o.total)
    (hroom : (s.cfg.cans[o.slot]).travel ≤ (s.cans[o.slot]).piston) : forwardOrRefill o s = { s with
      pump := withSegment .refill .turnOut (s.cans[o.slot]).piston o s.pump
      cans := s.cans.set o.slot { s.cans[o.slot] with activity := .refilling } } := by
  have hnone : (s.canStatic o.slot).travel - (s.can o.slot).piston = 0 := by
    unfold State.can State.canStatic
    omega
  have hsteps : 0 < o.total - o.counted := by omega
  unfold forwardOrRefill
  dsimp only
  rw [decide_eq_true hnone, decide_eq_true hsteps, if_pos (by decide), mapOp_turn hop]
  rfl

/-- An operation that goes on stays in flight. -/
theorem forwardOrRefill_busy : (forwardOrRefill o s).pump.op.isSome = true := by
  unfold forwardOrRefill
  dsimp only
  split
  · rw [mapOp_turn hop]
    rfl
  · rw [mapOp_move hop]
    rfl

theorem firstSegment_home (h : s.pump.homed[o.slot] = false) : firstSegment o s = { s with
    pump := withSegment .home .turnOut (s.cfg.cans[o.slot]).travel o s.pump
    cans := s.cans.set o.slot { s.cans[o.slot] with activity := .refilling } } := by
  unfold firstSegment
  rw [h, if_pos (by decide), mapOp_turn hop]
  rfl

theorem firstSegment_restore (h : s.pump.homed[o.slot] = true) (hsnuff : 0 < (s.cans[o.slot]).snuff) :
    firstSegment o s = { s with
      pump := withSegment .restore .moving (s.cans[o.slot]).snuff o s.pump
      cans := s.cans.set o.slot { s.cans[o.slot] with snuff := 0 } } := by
  unfold firstSegment
  rw [h, if_neg (by decide)]
  refine (if_pos hsnuff).trans ?_
  rw [mapOp_move hop]
  rfl

end Begins

theorem firstSegment_forward (h : s.pump.homed[o.slot] = true) (hsnuff : (s.cans[o.slot]).snuff = 0) :
    firstSegment o s = forwardOrRefill o s := by
  unfold firstSegment
  rw [h, if_neg (by decide)]
  exact if_neg (by unfold State.can; omega)

/-! ## The segments' end (R53 to R56, R60) -/

/-- The piston after a segment's remaining steps. -/
def endPiston (g : Segment) (piston n : Nat) : Nat :=
  match g with
  | .home => piston
  | .restore => piston + n
  | .forward => piston + n
  | .refill => piston - n
  | .snuffBack => piston - n

/-- The operation with its segment's remaining steps issued. -/
def issuedOp (o : PumpOp) : PumpOp :=
  { o with
    run := o.run + (o.toRun - o.run)
    counted := if o.segment = .forward then o.counted + (o.toRun - o.run) else o.counted }

/-- The state with the segment's remaining steps issued. -/
def issued (o : PumpOp) (s : State) : State :=
  { s with
    pump := { s.pump with op := some (issuedOp o) }
    cans := s.cans.set o.slot { s.cans[o.slot] with
      piston := endPiston o.segment (s.cans[o.slot]).piston (o.toRun - o.run) } }

/-- The pulses fit the steps (R56). -/
def pulsesFit (o : PumpOp) : Prop := o.pulses ≤ o.toRun / 32 + 2 ∧ o.toRun / 32 ≤ o.pulses + 2

theorem issueSteps_issued (hop : s.pump.op = some o) : issueSteps (o.toRun - o.run) o s = issued o s := by
  have hkeep : s.cans.set o.slot s.cans[o.slot] = s.cans := Vector.set_getElem_self ..
  rw [issueSteps_eq hop]
  refine congrArg (fun v => withPump { s.pump with op := some (issuedOp o) } v s) ?_
  unfold endPiston
  cases o.segment
  case home => exact hkeep.symm
  all_goals rfl

theorem stalls_issued : stalls (issuedOp o) = true ↔ o.segment ≠ .home ∧ ¬ pulsesFit o := by
  unfold stalls pulsesFit
  simp only [Bool.and_eq_true, Bool.or_eq_true, decide_eq_true_eq]
  refine and_congr_right fun _ => ?_
  rw [not_and_or, not_le, not_le]
  exact Iff.rfl

/-- A segment that does not stall leads to what follows it; an operation that is then over has completed. -/
theorem endSegment_fits (hop : s.pump.op = some o) (h : ¬ (o.segment ≠ .home ∧ ¬ pulsesFit o))
    (hafter : afterMove (issuedOp o) (issued o s) = t) :
    endSegment o s = if t.pump.op.isNone then opCompleted t else t := by
  have hstalls : ¬ stalls (issuedOp o) = true := mt stalls_issued.1 h
  unfold endSegment
  rw [issueSteps_issued hop, ← hafter]
  exact if_neg hstalls

theorem endSegment_stalled (hop : s.pump.op = some o) (hg : o.segment ≠ .home) (h : ¬ pulsesFit o) :
    endSegment o s = latch .dispense .pumpStall (judgePassed (markFaulted o.slot .stall (issued o s))) := by
  unfold endSegment
  rw [issueSteps_issued hop]
  exact if_pos (stalls_issued.2 ⟨hg, h⟩)

theorem endSegment_goesOn (hop : s.pump.op = some o) (h : ¬ (o.segment ≠ .home ∧ ¬ pulsesFit o))
    (hafter : afterMove (issuedOp o) (issued o s) = t) (hbusy : t.pump.op.isSome = true) : endSegment o s = t := by
  rw [endSegment_fits hop h hafter, if_neg (by simpa [Option.isSome_iff_ne_none] using hbusy)]

theorem segmentEnds_paused (hop : s.pump.op = some o) (h : o.paused = true) : segmentEnds s = s := by
  unfold segmentEnds
  rw [hop]
  exact if_neg (by simp [h])

theorem segmentEnds_moving (hop : s.pump.op = some o) (hst : o.stage = .moving) (h : o.paused = false) :
    segmentEnds s = endSegment o s := by
  unfold segmentEnds
  rw [hop]
  exact if_pos (by simp [hst, h])

/-- The operation is over; its snuff-back leaves this snuff. -/
def completed (snuff : Nat) (o : PumpOp) (s : State) : State :=
  { issued o s with
    pump := { s.pump with op := none }
    cans := s.cans.set o.slot { s.cans[o.slot] with
      piston := endPiston o.segment (s.cans[o.slot]).piston (o.toRun - o.run), snuff := snuff, activity := .idle } }

theorem issued_can : (issued o s).cans[o.slot] = { s.cans[o.slot] with
    piston := endPiston o.segment (s.cans[o.slot]).piston (o.toRun - o.run) } := getElem_set_slot _ _ _

/-- The canister changed again after the segment's steps. -/
theorem issued_set (g : Canister → Canister) : (issued o s).cans.set o.slot (g (issued o s).cans[o.slot]) =
    s.cans.set o.slot (g { s.cans[o.slot] with
      piston := endPiston o.segment (s.cans[o.slot]).piston (o.toRun - o.run) }) := by
  rw [issued_can]
  exact Vector.set_set ..

theorem endOp_issued : endOp (issuedOp o) (issued o s) = completed (s.cans[o.slot]).snuff o s :=
  congrArg (fun v => { issued o s with pump := { s.pump with op := none }, cans := v })
    (issued_set fun c => { c with activity := .idle })

theorem endOp_snuffed (b : Nat) :
    endOp (issuedOp o) ((issued o s).mapCan o.slot fun c => { c with snuff := b }) = completed b o s := by
  change State.mapCan o.slot (fun c => { c with activity := .idle })
    (((issued o s).mapPump fun p => { p with op := none }).mapCan o.slot fun c => { c with snuff := b }) = _
  rw [mapCan_mapCan]
  exact congrArg (fun v => { issued o s with pump := { s.pump with op := none }, cans := v })
    (issued_set fun c => { c with snuff := b, activity := .idle })

theorem afterMove_turns (h : o.segment = .home ∨ o.segment = .refill) : afterMove (issuedOp o) (issued o s) =
    { issued o s with pump := { s.pump with op := some { issuedOp o with stage := .turnBack, turn := 0 } } } := by
  have hg : (issuedOp o).segment = o.segment := rfl
  unfold afterMove
  rcases h with h | h <;> rw [hg, h] <;> exact mapOp_some (s := issued o s) rfl _

theorem afterMove_restore (h : o.segment = .restore) :
    afterMove (issuedOp o) (issued o s) = forwardOrRefill (issuedOp o) (issued o s) := by
  have hg : (issuedOp o).segment = o.segment := rfl
  unfold afterMove
  rw [hg, h]

theorem afterMove_forward (h : o.segment = .forward) : afterMove (issuedOp o) (issued o s) =
    if (issuedOp o).counted < o.total then forwardOrRefill (issuedOp o) (issued o s)
    else snuffOrEnd (issuedOp o) (issued o s) := by
  have hg : (issuedOp o).segment = o.segment := rfl
  unfold afterMove
  rw [hg, h]
  rfl

theorem afterMove_snuffBack (h : o.segment = .snuffBack) :
    afterMove (issuedOp o) (issued o s) = completed (s.cfg.cans[o.slot]).snuffBack o s := by
  have hg : (issuedOp o).segment = o.segment := rfl
  unfold afterMove
  rw [hg, h]
  exact endOp_snuffed _

theorem snuffOrEnd_issued : snuffOrEnd (issuedOp o) (issued o s) =
    if (s.cfg.cans[o.slot]).snuffBack = 0 ∨
      endPiston o.segment (s.cans[o.slot]).piston (o.toRun - o.run) < (s.cfg.cans[o.slot]).snuffBack then
      completed (s.cans[o.slot]).snuff o s
    else { issued o s with
      pump := withSegment .snuffBack .moving (s.cfg.cans[o.slot]).snuffBack (issuedOp o) s.pump } := by
  have hpiston : ((issued o s).can o.slot).piston = endPiston o.segment (s.cans[o.slot]).piston (o.toRun - o.run) :=
    congrArg Canister.piston issued_can
  have hb : ((issued o s).canStatic o.slot).snuffBack = (s.cfg.cans[o.slot]).snuffBack := rfl
  have hslot : (issuedOp o).slot = o.slot := rfl
  have hop : (issued o s).pump.op = some (issuedOp o) := rfl
  unfold snuffOrEnd
  dsimp only
  rw [hslot, hb, hpiston, endOp_issued, mapOp_move hop]
  simp only [Bool.or_eq_true, decide_eq_true_eq]
  rfl

theorem endSegment_completes (snuff : Nat) (hop : s.pump.op = some o) (h : ¬ (o.segment ≠ .home ∧ ¬ pulsesFit o))
    (hafter : afterMove (issuedOp o) (issued o s) = completed snuff o s) :
    endSegment o s = opCompleted (completed snuff o s) := endSegment_fits hop h hafter

/-- Settles O28: how an operation's segments begin, and what each one's end leads to. -/
theorem segmentsEndWithTheirSteps : Obligations.SegmentsEndWithTheirSteps := by
  unfold Obligations.SegmentsEndWithTheirSteps
  refine ⟨fun s o hop => ⟨firstSegment_home hop, firstSegment_restore hop, firstSegment_forward,
    fun _ => forwardOrRefill_forward hop, forwardOrRefill_refill hop⟩, fun s i kind steps k => rfl,
    fun s o ho hop hst => ⟨fun hpaused => ?paused, fun hpaused => ?moving⟩⟩
  case paused => exact (exec_whenOnline _ ho).trans (by rw [segmentEnds_paused hop hpaused])
  case moving =>
    have ends {t : State} (h : endSegment o s = t) : exec .pumpSegmentEnd s = .next (settle t) :=
      (exec_whenOnline _ ho).trans (by rw [segmentEnds_moving hop hst hpaused, h])
    have hbusy : (issued o s).pump.op = some (issuedOp o) := rfl
    have fits (hfit : pulsesFit o) : ¬ (o.segment ≠ .home ∧ ¬ pulsesFit o) := fun h => h.2 hfit
    refine ⟨fun hg hfit => ends (endSegment_stalled hop hg hfit),
      fun hg => ends (endSegment_goesOn hop (fun h => h.1 hg) (afterMove_turns (.inl hg)) rfl),
      fun hg hfit => ends (endSegment_goesOn hop (fits hfit) (afterMove_turns (.inr hg)) rfl),
      fun hg hfit => ends (endSegment_goesOn hop (fits hfit) (afterMove_restore hg) (forwardOrRefill_busy hbusy)),
      fun hg hfit hleft => ends (endSegment_goesOn hop (fits hfit) ((afterMove_forward hg).trans (if_pos hleft))
        (forwardOrRefill_busy hbusy)),
      fun hg hfit hdone hb hroom => ends (endSegment_goesOn hop (fits hfit) ?_ rfl),
      fun hg hfit hdone hnone => ends (endSegment_completes _ hop (fits hfit) ?_),
      fun hg hfit => ends (endSegment_completes _ hop (fits hfit) (afterMove_snuffBack hg))⟩
    · rw [afterMove_forward hg, if_neg (c := (issuedOp o).counted < o.total) (not_lt.2 hdone), snuffOrEnd_issued]
      exact if_neg fun h => h.elim hb.ne' (not_lt.2 hroom)
    · rw [afterMove_forward hg, if_neg (c := (issuedOp o).counted < o.total) (not_lt.2 hdone), snuffOrEnd_issued]
      exact if_pos hnone

end Sys2Proof.Proofs
end

