-- ==== Sys2Proof/Proofs/SettledReadings.lean ====
section
/-! PROOF. The scale's window, the settled reading and what it answers (R62 to R68, R71, R73). -/

namespace Sys2Proof.Proofs

open Sys2Proof Sys2Proof.Machine Sys2Proof.Safety Sys2Proof.Laws

variable {s u v : State} {raw net r : Int} {i : Nat} {l : LineEntry} {c : CalRecord}

/-! ## A sample (R62, R63) -/

/-- A net sample is recorded. -/
def sampled (net : Int) (s : State) : State :=
  { s with scale := { s.scale with last := some { value := net, saturated := false } } }

theorem takeSample_saturated (h : 4000000 ≤ raw) : takeSample raw s = saturatedSample raw s := if_pos h

theorem takeSample_net (h : raw < 4000000) : takeSample raw s =
    offerSample (raw - s.scale.zero) (testThreshold (raw - s.scale.zero) (sampled (raw - s.scale.zero) s)) :=
  if_neg (not_le.2 h)

theorem testThreshold_same (h : v.scale.above = decide (10000 ≤ net)) : testThreshold net v = v := if_pos h.symm

theorem offerSample_blanked (h : v.scale.blank.isSome = true) : offerSample net v = v := if_pos h

theorem offerSample_partial (hblank : v.scale.blank = none)
    (hlen : (offerToWindow v.cfg.general.band net v.scale.window).length < v.cfg.general.windowLen) :
    offerSample net v =
      { v with scale := { v.scale with window := offerToWindow v.cfg.general.band net v.scale.window } } := by
  unfold offerSample
  rw [hblank, if_neg (by decide)]
  exact if_neg (not_le.2 hlen)

/-- The window has filled: its mean is the latest reading. -/
def withReading (r : Int) (v : State) : State := { v with scale := { v.scale with window := [], latest := some r } }

/-- The reading of the window the sample fills. -/
def fullMean (net : Int) (v : State) : Int := settledMean (offerToWindow v.cfg.general.band net v.scale.window)

theorem offerSample_full (hblank : v.scale.blank = none)
    (hlen : v.cfg.general.windowLen ≤ (offerToWindow v.cfg.general.band net v.scale.window).length) :
    offerSample net v = trackZero (fullMean net v) (if v.scale.request.isSome then
      answerRequest (fullMean net v) (withReading (fullMean net v) v) else withReading (fullMean net v) v) := by
  unfold offerSample
  rw [hblank, if_neg (by decide)]
  exact if_pos hlen

/-! ## Zero tracking (R71) -/

theorem trackZero_away (h : ¬ (v.disp.st = .empty ∧ v.inputs.presDispense = false ∧ r.natAbs ≤ 50)) :
    trackZero r v = v := by
  refine if_neg fun hc => h ?_
  simp only [Bool.and_eq_true, decide_eq_true_eq, Bool.not_eq_true', and_assoc] at hc
  obtain ⟨hst, hpres, hband⟩ := hc
  have h50 : (r.natAbs : Int) ≤ 50 := hband
  exact ⟨hst, hpres, by omega⟩

theorem trackZero_present (h : v.inputs.presDispense = true) : trackZero r v = v :=
  trackZero_away fun hc => absurd (h.symm.trans hc.2.1) (by decide)

theorem trackZero_near (hst : v.disp.st = .empty) (hpres : v.inputs.presDispense = false) (hband : r.natAbs ≤ 50) :
    trackZero r v = { v with scale := { v.scale with
      zero := max (-100000) (min 100000 (v.scale.zero + r))
      latest := some (v.scale.zero + r - max (-100000) (min 100000 (v.scale.zero + r))) } } := by
  have h50 : (r.natAbs : Int) ≤ Config.zeroBand := by
    change (r.natAbs : Int) ≤ 50
    omega
  unfold trackZero
  rw [if_pos (by rw [hst, hpres, decide_eq_true h50]; rfl)]
  rfl

/-! ## An open request is answered (R67, R73) -/

/-- The request is closed and the reading marked fresh. -/
def answeredBay (v : State) : State :=
  { v with scale := { v.scale with request := none }, disp := { v.disp with quiet := false, fresh := true } }

theorem answerRequest_tare (h : v.disp.st = .tare) : answerRequest r v = judgeTare r (answeredBay v) := by
  unfold answerRequest
  rw [h]
  rfl

theorem answerRequest_line (h : v.disp.st = .dispensing) : answerRequest r v = lineAnswer r (answeredBay v) := by
  unfold answerRequest
  rw [h]
  rfl

theorem answerRequest_cal (h : v.disp.st = .calCup ∨ v.disp.st = .calPrime ∨ v.disp.st = .calRate) :
    answerRequest r v = calAnswer r (answeredBay v) := by
  unfold answerRequest
  rcases h with h | h | h <;> rw [h] <;> rfl

theorem lineAnswer_before (h : activeLine v = some (i, l)) (hstep : v.disp.step = some .beforeReading) : lineAnswer r v =
    if (activeLine (debitStage i l (nextVolume v l) (some r) v)).isSome then debitStage i l (nextVolume v l) (some r) v
    else selectLine (debitStage i l (nextVolume v l) (some r) v) := by
  unfold lineAnswer
  rw [h]
  dsimp only
  rw [hstep]

theorem lineAnswer_verify {p : LinePlan} (h : activeLine v = some (i, l)) (hstep : v.disp.step = some .verify)
    (hp : l.plan = some p) : lineAnswer r v = judgeReading i l p r v := by
  unfold lineAnswer
  rw [h]
  dsimp only
  rw [hstep]
  dsimp only
  rw [hp]

theorem calAnswer_cup (h : v.disp.cal = some c) (hst : c.stage = .cupReading) : calAnswer r v = judgeCup r v := by
  unfold calAnswer
  rw [h]
  dsimp only
  rw [hst]

theorem calAnswer_before (h : v.disp.cal = some c) (hst : c.stage = .beforeReading) : calAnswer r v = calDebit r c v := by
  unfold calAnswer
  rw [h]
  dsimp only
  rw [hst]

theorem calAnswer_after {before : Int} (h : v.disp.cal = some c) (hst : c.stage = .afterReading)
    (hb : c.before = some before) : calAnswer r v =
      if v.disp.st = .calPrime then judgePrime (10 * (r - before)) v else judgeTest (10 * (r - before)) v := by
  unfold calAnswer
  rw [h]
  dsimp only
  rw [hst, hb]
  rfl

/-! ## The timers (R66, R68) -/

theorem settleDue_open {n : Nat} (h : s.scale.request = some n) :
    settleDue s = decide (s.cfg.general.settleTimeout * 1000 ≤ n) := by
  unfold settleDue
  rw [h]
  rfl

theorem settleDue_none (h : s.scale.request = none) : settleDue s = false := by
  unfold settleDue
  rw [h]
  rfl

/-- Settles O30: what a settled reading is used for, and the two timers of the scale. -/
theorem readingsSettleOrTimeOut : Obligations.ReadingsSettleOrTimeOut := by
  unfold Obligations.ReadingsSettleOrTimeOut
  refine ⟨fun s raw ho hraw habove hblank => ?reading, fun s ho => ?timers⟩
  case reading =>
    intro net window r t hlen
    have htaken : takeSample raw s =
        trackZero r (if s.scale.request.isSome then answerRequest r t else t) := by
      rw [takeSample_net hraw, testThreshold_same (v := sampled _ s) habove]
      exact offerSample_full (v := sampled net s) hblank hlen
    have taken {w : State} (h : takeSample raw s = w) : exec (.scaleSample raw) s = .next (settle w) :=
      (exec_whenOnline _ ho).trans (by rw [h])
    refine ⟨fun hreq haway => taken ?_, fun hreq hst hpres hband => taken ?_, fun hreq hpres => ?answered⟩
    · rw [htaken, hreq]
      exact trackZero_away (v := t) haway
    · rw [htaken, hreq]
      exact trackZero_near (v := t) hst hpres hband
    case answered =>
      intro u
      have answer {w : State} (h : answerRequest r t = w) : exec (.scaleSample raw) s = .next (settle w) := by
        refine taken ?_
        rw [htaken, if_pos hreq, trackZero_present (by simpa using hpres), h]
      refine ⟨fun hst => answer (answerRequest_tare (v := t) hst), fun i l hst hline hstep => ?_,
        fun i l p hst hline hstep hp => ?_, fun c hcal => ⟨fun hst hstage => ?_, fun hst hstage => ?_,
        fun before hstage hb => ⟨fun hst => ?_, fun hst => ?_⟩⟩⟩
      · exact answer ((answerRequest_line (v := t) hst).trans (lineAnswer_before (v := u) hline hstep))
      · exact answer ((answerRequest_line (v := t) hst).trans (lineAnswer_verify (v := u) hline hstep hp))
      · exact answer ((answerRequest_cal (v := t) (.inl hst)).trans (calAnswer_cup (v := u) hcal hstage))
      · exact answer ((answerRequest_cal (v := t) (.inr hst)).trans (calAnswer_before (v := u) hcal hstage))
      · exact answer ((answerRequest_cal (v := t) (.inr (.inl hst))).trans
          ((calAnswer_after (v := u) hcal hstage hb).trans (if_pos hst)))
      · exact answer ((answerRequest_cal (v := t) (.inr (.inr hst))).trans
          ((calAnswer_after (v := u) hcal hstage hb).trans (if_neg (hst.trans_ne (by decide)))))
  case timers =>
    have expires {w : State} (h : settleExpires s = w) : exec .settleTimeout s = .next (settle w) :=
      (exec_whenOnline _ ho).trans (by rw [h])
    refine ⟨fun hb => (exec_whenOnline _ ho).trans (by rw [blankExpires, if_pos hb]; rfl),
      fun hb => (exec_whenOnline _ ho).trans (by rw [blankExpires, if_neg hb]), fun n hn hdue => expires ?_,
      fun n hn hdue => expires ?_, fun hn => expires ?_⟩
    · exact (if_pos ((settleDue_open hn).trans (decide_eq_true hdue)))
    · exact if_neg (by rw [settleDue_open hn]; simpa using hdue)
    · exact if_neg (by rw [settleDue_none hn]; decide)

end Sys2Proof.Proofs
end

