-- ==== Sys2Proof/Proofs/LostTins.lean ====
section
/-! PROOF. What a halt and a loss make of the dispense bay, its tin and its operation in flight (R58, R59, R91 to R94). -/

namespace Sys2Proof.Proofs

open Sys2Proof Sys2Proof.Machine Sys2Proof.Safety Sys2Proof.Laws

variable {s t u : State} {r x : TinRecord} {o : PumpOp} {i : Nat} {l : LineEntry} {k : FaultKind}

/-! ## What a step leaves of a bay that is not EMPTY -/

/-- A bay that is not EMPTY asks for no tin, and a stir that is granted changes no canister's level. -/
theorem settle_held (h : s.disp.st ≠ .empty) :
    (settle s).disp = s.disp ∧ (settle s).pump = s.pump ∧ (settle s).scale = s.scale ∧ (settle s).mon = s.mon ∧
    (settle s).completion = s.completion ∧ (settle s).jobs = s.jobs ∧ (settle s).events = s.events ∧
    ∀ j : Slot, ((settle s).cans[j]).level = (s.cans[j]).level := by
  have hcall : mayCall (grantStirs s) = false := by
    rw [mayCall_grantStirs]
    exact Bool.eq_false_iff.2 fun hm => h (mayCall_iff.1 hm).1
  have hlevel (j : Slot) : ((grantStirs s).cans[j]).level = (s.cans[j]).level := by rw [grantStirs_can]
  unfold settle
  split
  · rw [askTin_uncalled (.inl hcall)]
    simp only [keepDeferrals_frame, grantStirs_frame, true_and]
    exact hlevel
  · simp

/-! ## The lines of a tin (R83) -/

theorem findIdxFrom_some {α : Type} {p : α → Bool} {a : α} {l : List α} :
    ∀ {n k : Nat}, findIdxFrom p l n = some (k, a) → n ≤ k ∧ l[k - n]? = some a ∧ p a = true := by
  induction l with
  | nil => exact fun h => absurd h (by simp [findIdxFrom])
  | cons b bs ih =>
    intro n k h
    unfold findIdxFrom at h
    split at h
    · next hb =>
      obtain ⟨rfl, rfl⟩ := by simpa using h
      simp [hb]
    · obtain ⟨hle, hat, hp⟩ := ih h
      refine ⟨by omega, ?_, hp⟩
      rw [show k - n = k - (n + 1) + 1 by omega]
      exact hat

/-- The ACTIVE line is a line of the bay's tin. -/
theorem activeLine_some (ht : s.disp.tin = some r) (h : activeLine s = some (i, l)) :
    r.lines[i]? = some l ∧ l.st = .active := by
  unfold activeLine dispLines at h
  rw [ht] at h
  obtain ⟨-, hat, hact⟩ := findIdxFrom_some h
  exact ⟨hat, by simpa using hact⟩

/-- A report on a canister touches the tin's lines and the requests only. -/
theorem judgePassed_disp : (judgePassed s).disp = s.disp ∨
    (judgePassed s).disp = { s.disp with
      tin := s.disp.tin.map fun t => { t with lines := t.lines.map (judgeEntry s) } } := by
  unfold judgePassed
  dsimp only
  repeat' split
  · exact .inl rfl
  · exact .inr (foldl_requestFor_keeps _ _).1
  · exact .inr rfl

theorem judgeEntry_active (h : l.st = .active) : judgeEntry s l = l := by
  unfold judgeEntry
  rw [h]

/-- A line that is not PASSED is not judged. -/
theorem judgePassed_active (h : (s.disp.tin.bind fun x => x.lines[i]?) = some l) (hact : l.st = .active) :
    ((judgePassed s).disp.tin.bind fun x => x.lines[i]?) = some l := by
  rcases judgePassed_disp (s := s) with hd | hd
  · rw [hd, h]
  · rw [hd]
    cases ht : s.disp.tin with
    | none => simp [ht] at h
    | some r =>
      have hat : r.lines[i]? = some l := by simpa [ht] using h
      simp [hat, judgeEntry_active hact]

/-- The tin with other lines, of which as many have been given a shot. -/
def SameTin (r x : TinRecord) : Prop :=
  ∃ ls : List LineEntry, x = { r with lines := ls } ∧ ls.map (·.plan.isSome) = r.lines.map (·.plan.isSome)

theorem SameTin.refl (r : TinRecord) : SameTin r r := ⟨r.lines, rfl, rfl⟩

theorem SameTin.trans {y : TinRecord} (h : SameTin r x) (h' : SameTin x y) : SameTin r y := by
  obtain ⟨ls, rfl, hls⟩ := h
  obtain ⟨ls', rfl, hls'⟩ := h'
  exact ⟨ls', rfl, hls'.trans hls⟩

theorem SameTin.shotGiven (h : SameTin r x) : x.shotGiven = r.shotGiven := by
  obtain ⟨ls, rfl, hls⟩ := h
  have hany (l : List LineEntry) : l.any (fun l => l.plan.isSome) = (l.map (·.plan.isSome)).any id := by
    simp
  unfold TinRecord.shotGiven
  rw [hany, hls, ← hany]

theorem sameTin_modify (r : TinRecord) (i : Nat) {g : LineEntry → LineEntry} (hg : ∀ l, (g l).plan = l.plan) :
    SameTin r { r with lines := r.lines.modify i g } := by
  refine ⟨_, rfl, List.ext_getElem (by simp) fun k h1 h2 => ?_⟩
  simp only [List.getElem_map, List.getElem_modify]
  split
  · rw [hg]
  · rfl

theorem sameTin_map (r : TinRecord) {g : LineEntry → LineEntry} (hg : ∀ l, (g l).plan = l.plan) :
    SameTin r { r with lines := r.lines.map g } := ⟨_, rfl, by simp [Function.comp_def, hg]⟩

/-- A step that leaves the bay its tin. -/
def KeepsTin (s t : State) : Prop := ∀ r, s.disp.tin = some r → ∃ x, t.disp.tin = some x ∧ SameTin r x

theorem KeepsTin.of_eq (h : t.disp.tin = s.disp.tin) : KeepsTin s t := fun r hr => ⟨r, h.trans hr, .refl r⟩

theorem KeepsTin.trans (h : KeepsTin s t) (h' : KeepsTin t u) : KeepsTin s u := fun r hr =>
  have ⟨x, hx, hrx⟩ := h r hr
  have ⟨y, hy, hxy⟩ := h' x hx
  ⟨y, hy, hrx.trans hxy⟩

theorem mapEntryAt_keepsTin (i : Nat) {g : LineEntry → LineEntry} (hg : ∀ l, (g l).plan = l.plan) :
    KeepsTin s (mapEntryAt i g s) := fun r hr => ⟨_, congrArg (Option.map _) hr, sameTin_modify r i hg⟩

theorem judgeEntry_plan (l : LineEntry) : (judgeEntry s l).plan = l.plan := by
  unfold judgeEntry
  repeat' split
  all_goals rfl

theorem judgePassed_keepsTin : KeepsTin s (judgePassed s) := by
  intro r hr
  rcases judgePassed_disp (s := s) with hd | hd
  · exact KeepsTin.of_eq (by rw [hd]) r hr
  · exact ⟨_, by rw [hd, hr]; rfl, sameTin_map r judgeEntry_plan⟩

/-! ## The halt (R58, R91, R92) -/

/-- An interruption touches the bay's step and the ACTIVE line. -/
theorem interruptShot_disp : (interruptShot s).disp = s.disp ∨ ∃ i, (interruptShot s).disp =
    ((mapEntryAt i (fun l => { l with delivered := l.delivered - opCredit s }) s).mapDisp fun d =>
      { d with step := some .interrupted }).disp := by
  unfold interruptShot
  split
  · exact .inl rfl
  · exact .inl (by simp)
  · next _ i _ _ _ =>
    refine .inr ⟨i, ?_⟩
    simp only [interruptOp_frame]

theorem interruptShot_keepsTin : KeepsTin s (interruptShot s) := by
  rcases interruptShot_disp (s := s) with hd | ⟨i, hd⟩
  · exact .of_eq (by rw [hd])
  · have hentry : KeepsTin s (mapEntryAt i (fun l => { l with delivered := l.delivered - opCredit s }) s) :=
      mapEntryAt_keepsTin i fun _ => rfl
    exact hentry.trans (.of_eq (by rw [hd]; rfl))

/-- What a halt or a loss leaves of the bay, apart from its state, its step and its tin's lines. -/
structure BayKept (s t : State) : Prop where
  lost : t.disp.lost = s.disp.lost
  recWait : t.disp.recWait = s.disp.recWait
  above : t.scale.above = s.scale.above
  request : s.scale.request = none → t.scale.request = none

theorem BayKept.trans (h : BayKept s t) (h' : BayKept t u) : BayKept s u :=
  ⟨h'.lost.trans h.lost, h'.recWait.trans h.recWait, h'.above.trans h.above, fun hr => h'.request (h.request hr)⟩

theorem BayKept.of_eq (hd : t.disp = s.disp) (hs : t.scale = s.scale) : BayKept s t :=
  ⟨by rw [hd], by rw [hd], by rw [hs], fun h => by rw [hs, h]⟩

theorem interruptShot_kept : BayKept s (interruptShot s) := by
  refine ⟨?_, ?_, by simp, fun h => by simpa using h⟩ <;>
    rcases interruptShot_disp (s := s) with hd | ⟨i, hd⟩ <;> rw [hd] <;> rfl

theorem closeRequest_kept : BayKept s (closeRequest s) := ⟨rfl, rfl, rfl, fun _ => rfl⟩

theorem calEnded_kept : BayKept s (calEnded s) := by
  unfold calEnded
  split <;> exact ⟨rfl, rfl, rfl, id⟩

theorem calEnded_tin : (calEnded s).disp.tin = s.disp.tin := by
  unfold calEnded
  split <;> rfl

theorem calOutcome_kept (c : CalOutcome) (n : Option Nat) : BayKept s (calOutcome c n s) := by
  unfold calOutcome
  split
  · exact .of_eq rfl rfl
  · exact ⟨calEnded_kept.lost, calEnded_kept.recWait, calEnded_kept.above, fun _ => calEnded_kept.request rfl⟩

theorem calOutcome_tin (c : CalOutcome) (n : Option Nat) : (calOutcome c n s).disp.tin = s.disp.tin := by
  unfold calOutcome
  split
  · rfl
  · rw [calEnded_tin]
    rfl

theorem abortCal_kept : BayKept s (abortCal s) := by
  unfold abortCal
  split
  · exact calOutcome_kept _ _
  · exact .of_eq rfl rfl

theorem abortCal_tin : (abortCal s).disp.tin = s.disp.tin := by
  unfold abortCal
  split
  · exact calOutcome_tin _ _
  · rfl

theorem judgePassed_kept : BayKept s (judgePassed s) := by
  refine ⟨?_, ?_, by simp, fun h => by simpa using h⟩ <;>
    rcases judgePassed_disp (s := s) with hd | hd <;> rw [hd]

/-- The bay halted, before a calibration is ended and the credit reported. -/
def haltedBay (dest : DispState) (s : State) : State :=
  (dropPre (closeRequest (interruptShot s))).mapDisp fun d =>
    { d with
      st := dest
      resume := if d.st = .stopped then d.resume else some d.st
      step := haltedStep d.step
      fresh := false
      removed := if d.st = .stopped then d.removed else false
      placed := if d.st = .stopped then d.placed else false }

theorem haltDisp_eq (dest : DispState) (s : State) : haltDisp dest s =
    if s.disp.st = .fault ∨ s.disp.st = dest then s
    else if 0 < opCredit s then judgePassed (abortCal (haltedBay dest s)) else abortCal (haltedBay dest s) := by
  unfold haltDisp
  simp only [Bool.or_eq_true, decide_eq_true_eq]
  rfl

theorem haltedBay_kept (dest : DispState) : BayKept s (haltedBay dest s) :=
  interruptShot_kept.trans ⟨rfl, rfl, rfl, fun _ => rfl⟩

theorem haltDisp_kept (dest : DispState) : BayKept s (haltDisp dest s) := by
  have h := (haltedBay_kept (s := s) dest).trans abortCal_kept
  rw [haltDisp_eq]
  split
  · exact .of_eq rfl rfl
  · split
    · exact h.trans judgePassed_kept
    · exact h

theorem haltDisp_keepsTin (dest : DispState) : KeepsTin s (haltDisp dest s) := by
  have h : KeepsTin s (abortCal (haltedBay dest s)) :=
    .trans (interruptShot_keepsTin.trans (.of_eq rfl)) (.of_eq abortCal_tin)
  rw [haltDisp_eq]
  split
  · exact .of_eq rfl
  · split
    · exact h.trans judgePassed_keepsTin
    · exact h

/-! ## An operation in flight (R58, R59) -/

/-- The ACTIVE line's entry after its operation was interrupted. -/
def interruptedLine (o : PumpOp) (l : LineEntry) : LineEntry :=
  { l with delivered := l.delivered - creditVolume o.total o.counted o.k }

/-- The bay stands interrupted in its line's shot, the drive idle and the credit made. -/
structure ShotHalted (o : PumpOp) (level i : Nat) (l : LineEntry) (u : State) : Prop where
  pump : u.pump.op = none
  step : u.disp.step = some .interrupted
  level : (u.cans[o.slot]).level = level
  line : (u.disp.tin.bind fun x => x.lines[i]?) = some (interruptedLine o l)

theorem ShotHalted.of_eq {level : Nat} (h : ShotHalted o level i l s) (hp : t.pump = s.pump)
    (hstep : t.disp.step = s.disp.step) (htin : t.disp.tin = s.disp.tin) (hc : t.cans = s.cans) :
    ShotHalted o level i l t :=
  ⟨by rw [hp, h.pump], by rw [hstep, h.step], by rw [hc, h.level], by rw [htin, h.line]⟩

/-- The level of the operation's canister once its credit is made. -/
def creditedLevel (o : PumpOp) (s : State) : Nat :=
  min 500000 ((s.cans[o.slot]).level + creditVolume o.total o.counted o.k)

theorem opCredit_some (hop : s.pump.op = some o) : opCredit s = creditVolume o.total o.counted o.k := by
  unfold opCredit
  rw [hop]

theorem interruptShot_line (ht : s.disp.tin = some r) (hline : activeLine s = some (i, l)) (hop : s.pump.op = some o) :
    interruptShot s = { s with
      pump := { s.pump with op := none }
      cans := s.cans.set o.slot { s.cans[o.slot] with activity := .idle, level := creditedLevel o s }
      disp := { s.disp with
        step := some .interrupted, tin := some { r with lines := r.lines.modify i (interruptedLine o) } } } := by
  have htin : s.disp.tin.map (fun t => { t with lines := t.lines.modify i (interruptedLine o) }) =
      some { r with lines := r.lines.modify i (interruptedLine o) } := by
    rw [ht]
    rfl
  have hshot : interruptShot s = interruptOp ((mapEntryAt i (interruptedLine o) s).mapDisp fun d =>
      { d with step := some .interrupted }) := by
    unfold interruptShot
    rw [hop, hline]
    dsimp only
    rw [opCredit_some hop]
    rfl
  rw [hshot, ← htin]
  exact interruptOp_some (v := (mapEntryAt i (interruptedLine o) s).mapDisp fun d => { d with step := some .interrupted })
    hop rfl

theorem getElem?_modify_self (ls : List LineEntry) (h : ls[i]? = some l) (g : LineEntry → LineEntry) :
    (ls.modify i g)[i]? = some (g l) := by simp [h]

theorem interruptShot_halted (ht : s.disp.tin = some r) (hline : activeLine s = some (i, l)) (hop : s.pump.op = some o) :
    ShotHalted o (creditedLevel o s) i l (interruptShot s) := by
  rw [interruptShot_line ht hline hop]
  exact ⟨rfl, rfl, congrArg Canister.level (getElem_set_slot _ _ _),
    getElem?_modify_self _ (activeLine_some ht hline).1 _⟩

theorem judgePassed_step : (judgePassed s).disp.step = s.disp.step := by
  rcases judgePassed_disp (s := s) with hd | hd <;> rw [hd]

theorem ShotHalted.judgePassed {level : Nat} (h : ShotHalted o level i l s) (hact : l.st = .active) :
    ShotHalted o level i l (judgePassed s) :=
  ⟨by simp [h.pump], by rw [judgePassed_step, h.step], by simpa using h.level, judgePassed_active h.line hact⟩

/-- The bay works on the shot of its ACTIVE line. -/
structure InShot (r : TinRecord) (o : PumpOp) (i : Nat) (l : LineEntry) (s : State) : Prop where
  tin : s.disp.tin = some r
  line : activeLine s = some (i, l)
  op : s.pump.op = some o
  st : s.disp.st = .dispensing
  cal : s.disp.cal = none

/-- The ACTIVE line is a matter of the tin's lines. -/
theorem activeLine_congr (h : dispLines t = dispLines s) : activeLine t = activeLine s := by
  unfold activeLine
  rw [h]

theorem InShot.congr (h : InShot r o i l s) (hd : t.disp = s.disp) (hp : t.pump = s.pump) : InShot r o i l t :=
  ⟨by rw [hd, h.tin], (activeLine_congr (by unfold dispLines; rw [hd])).trans h.line, by rw [hp, h.op], by rw [hd, h.st],
    by rw [hd, h.cal]⟩

theorem note_lines (k : FaultKind) (r : TinRecord) : (r.note k).lines = r.lines := by
  unfold TinRecord.note
  split <;> rfl

theorem dispLines_some (h : s.disp.tin = some r) : dispLines s = r.lines := by
  unfold dispLines
  rw [h]

theorem InShot.noted (h : InShot r o i l s) (k : FaultKind) :
    InShot (r.note k) o i l (s.mapTin .dispense (TinRecord.note k)) := by
  have htin : (s.mapTin .dispense (TinRecord.note k)).disp.tin = some (r.note k) := congrArg (Option.map _) h.tin
  refine ⟨htin, (activeLine_congr ?_).trans h.line, h.op, h.st, h.cal⟩
  rw [dispLines_some htin, dispLines_some h.tin, note_lines]

/-- The bay halted in the shot of its line, to be resumed there. -/
structure HeldShot (o : PumpOp) (level i : Nat) (l : LineEntry) (dest : DispState) (u : State) : Prop
    extends ShotHalted o level i l u where
  st : u.disp.st = dest
  resume : u.disp.resume = some .dispensing

theorem HeldShot.congr {level : Nat} {dest : DispState} (h : HeldShot o level i l dest s) (hp : t.pump = s.pump)
    (hd : t.disp = s.disp) (hc : (t.cans[o.slot]).level = (s.cans[o.slot]).level) : HeldShot o level i l dest t :=
  ⟨⟨by rw [hp, h.pump], by rw [hd, h.step], by rw [hc, h.level], by rw [hd, h.line]⟩, by rw [hd, h.st],
    by rw [hd, h.resume]⟩

/-- A bay in the shot of its line is halted. -/
theorem haltDisp_shot {dest : DispState} (hdest : dest = .fault ∨ dest = .stopped) (h : InShot r o i l s) :
    HeldShot o (creditedLevel o s) i l dest (haltDisp dest s) := by
  obtain ⟨ht, hline, hop, hst, hcal⟩ := h
  have hgo : ¬ (s.disp.st = .fault ∨ s.disp.st = dest) := by rcases hdest with rfl | rfl <;> simp [hst]
  have hshot := interruptShot_halted ht hline hop
  have hcal' : abortCal (haltedBay dest s) = haltedBay dest s := by
    refine abortCal_none ?_
    change (interruptShot s).disp.cal = none
    rw [interruptShot_line ht hline hop]
    exact hcal
  have hbay : ShotHalted o (creditedLevel o s) i l (haltedBay dest s) :=
    ⟨hshot.pump, by change haltedStep (interruptShot s).disp.step = _; rw [hshot.step]; rfl, hshot.level, hshot.line⟩
  have hresume : (haltedBay dest s).disp.resume = some .dispensing := by
    change (if (interruptShot s).disp.st = .stopped then _ else some (interruptShot s).disp.st) = _
    rw [interruptShot_st, hst]
    rfl
  rw [haltDisp_eq, if_neg hgo, hcal']
  split
  · refine ⟨hbay.judgePassed (activeLine_some ht hline).2, by rw [judgePassed_st]; rfl, ?_⟩
    rcases judgePassed_disp (s := haltedBay dest s) with hd | hd <;> rw [hd] <;> exact hresume
  · exact ⟨hbay, rfl, hresume⟩

/-! ## A latched fault (R171 to R173) -/

theorem stopOthers_kept : (stopOthers .dispense s).disp = s.disp ∧ (stopOthers .dispense s).pump = s.pump ∧
    (stopOthers .dispense s).cans = s.cans := by simp [stopOthers]

/-- The reported fault joins the tin's notes and sets BAY_FAULT. -/
def reported (b : BayId) (k : FaultKind) (s : State) : State := setFlag .bayFault (s.mapTin b (TinRecord.note k))

theorem latch_behind {b : BayId} {k' : FaultKind} (h : s.fault b = some k') : latch b k s = reported b k s := by
  unfold latch
  exact if_neg (by simp [h])

theorem latch_first {b : BayId} (h : s.fault b = none) : latch b k s =
    if s.cfg.general.scope = .station ∧ s.anyFault = false then
      stopOthers b (faultBay b ((reported b k s).setFault b (some k)))
    else faultBay b ((reported b k s).setFault b (some k)) := by
  unfold latch
  refine (if_pos (by rw [h]; rfl)).trans ?_
  simp only [Bool.and_eq_true, decide_eq_true_eq, Bool.not_eq_true']
  rfl

/-- The first fault of the dispense bay halts the shot. -/
theorem latch_shot (h : InShot r o i l s) (hf : s.mon.faultD = none) :
    HeldShot o (creditedLevel o s) i l .fault (latch .dispense k s) := by
  have hbay : InShot (r.note k) o i l ((reported .dispense k s).setFault .dispense (some k)) := (h.noted k).congr rfl rfl
  have hheld : HeldShot o (creditedLevel o s) i l .fault
      (haltDisp .fault ((reported .dispense k s).setFault .dispense (some k))) := haltDisp_shot (.inl rfl) hbay
  rw [latch_first (b := .dispense) hf]
  obtain ⟨hd, hp, hc⟩ := stopOthers_kept (s := faultBay .dispense ((reported .dispense k s).setFault .dispense (some k)))
  split
  · exact hheld.congr hp hd (by rw [hc]; rfl)
  · exact hheld

/-- A station stop that another bay's fault begins halts the shot. -/
theorem latch_other_shot {b : BayId} (h : InShot r o i l s) (hb : b ≠ .dispense) (hscope : s.cfg.general.scope = .station)
    (hf : s.anyFault = false) : HeldShot o (creditedLevel o s) i l .stopped (latch b k s) := by
  have hnone : s.fault b = none := by
    simp only [State.anyFault, Bool.or_eq_false_iff, Option.isSome_eq_false_iff, Option.isNone_iff_eq_none] at hf
    cases b
    · exact hf.1.1
    · exact hf.1.2
    · exact hf.2
  rw [latch_first hnone, if_pos ⟨hscope, hf⟩]
  cases b with
  | dispense => exact absurd rfl hb
  | lid =>
    have hbay : InShot r o i l (faultBay .lid ((reported .lid k s).setFault .lid (some k))) :=
      h.congr (by simp [faultBay, reported]) (by simp [faultBay, reported])
    have hlevel : creditedLevel o (faultBay .lid ((reported .lid k s).setFault .lid (some k))) = creditedLevel o s := by
      simp [creditedLevel, faultBay, reported]
    have hheld := haltDisp_shot (.inr rfl) hbay
    rw [hlevel] at hheld
    exact hheld.congr (by simp [stopOthers]) (by simp [stopOthers]) (by simp [stopOthers])
  | shake =>
    have hbay : InShot r o i l (faultBay .shake ((reported .shake k s).setFault .shake (some k))) :=
      h.congr (by simp [faultBay, reported]) (by simp [faultBay, reported])
    have hlevel : creditedLevel o (faultBay .shake ((reported .shake k s).setFault .shake (some k))) = creditedLevel o s := by
      simp [creditedLevel, faultBay, reported]
    have hheld := haltDisp_shot (.inr rfl) hbay
    rw [hlevel] at hheld
    exact hheld.congr (by simp [stopOthers]) (by simp [stopOthers]) (by simp [stopOthers])

/-! ## The emergency stop (R175) -/

theorem freeAllStirs_level (j : Slot) : ((freeAllStirs s).cans[j]).level = (s.cans[j]).level := by
  change ((s.cans.map fun c => if c.activity = .stirring then { c with activity := .idle } else c)[j]).level = _
  simp only [Fin.getElem_fin, Vector.getElem_map]
  split <;> rfl

/-- The station as the emergency stop finds it when it halts the bays. -/
def beforeHalts (s : State) : State := freeAllStirs (dropPre (jamByStop (noteEverywhere .estop (blankTrigger s))))

theorem applyEstop_shot (h : InShot r o i l s) : HeldShot o (creditedLevel o s) i l .stopped (applyEstop s) := by
  have hdisp : (beforeHalts s).disp = (s.mapTin .dispense (TinRecord.note .estop)).disp := by
    simp [beforeHalts, noteEverywhere, blankTrigger]
    rfl
  have hlevel : creditedLevel o (beforeHalts s) = creditedLevel o s := by
    unfold creditedLevel beforeHalts
    rw [freeAllStirs_level]
    simp [noteEverywhere, blankTrigger]
  have hheld := haltDisp_shot (.inr rfl) ((h.noted .estop).congr hdisp (by simp [beforeHalts, noteEverywhere, blankTrigger]))
  rw [hlevel] at hheld
  have hidle : interruptOp (haltLid .stopped true (releaseOrder .power (haltShake .stopped true
      (haltDisp .stopped (beforeHalts s))))) = haltLid .stopped true (releaseOrder .power (haltShake .stopped true
      (haltDisp .stopped (beforeHalts s)))) := interruptOp_none (by simpa using hheld.pump)
  have happly : applyEstop s = setFlag .bayFault ((releaseOrder .air (drivesOff (haltLid .stopped true (releaseOrder .power
      (haltShake .stopped true (haltDisp .stopped (beforeHalts s))))))).mapMon fun m => { m with estop := true }) := rfl
  rw [happly]
  unfold drivesOff
  rw [hidle]
  exact hheld.congr (by simp) (by simp) (by simp)

/-! ## The loss of the tin (R93) -/

theorem dispHolds_iff : dispHolds s = true ↔
    (dispWork s = some .tare ∨ dispWork s = some .dispensing ∨ dispWork s = some .waiting ∨ dispWork s = some .done) ∧
    s.disp.lost = false ∧ s.disp.recWait = false ∧ s.disp.tin.map (·.cancelled) = some false := by
  unfold dispHolds
  cases s.disp.tin <;> simp [or_assoc, and_assoc]

/-- The bay with its tin marked lost, before the fault is reported. -/
def markedLost (s : State) : State :=
  ((dropPre (loseLine (closeRequest s))).mapDisp fun d => { d with lost := true }).mapTin .dispense fun t =>
    { t with lost := true }

theorem loseDisp_holds (h : dispHolds s = true) : loseDisp s =
    if s.mon.faultD.isNone then closeLost (latch .dispense .tinLost (markedLost s))
    else latch .dispense .tinLost (markedLost s) := if_pos h

theorem loseDisp_none (h : dispHolds s = false) : loseDisp s = s := if_neg (by simp [h])

/-- A loss touches the bay's step and its ACTIVE line. -/
theorem loseLine_disp : (loseLine s).disp = s.disp ∨ (loseLine s).disp = (interruptShot s).disp ∨
    ∃ i, (loseLine s).disp = (finishLine i .interrupted (interruptShot s)).disp ∨
      (loseLine s).disp = (mapEntryAt i (fun l => { l with st := .pending }) s).disp := by
  unfold loseLine
  split
  · exact .inl rfl
  · next i l _ =>
    split
    · refine .inr (.inr ⟨i, .inl ?_⟩)
      dsimp only
      split
      · simp only [countMiss_frame]
      · rfl
    · split
      · exact .inr (.inr ⟨i, .inr rfl⟩)
      · exact .inl rfl

theorem loseLine_kept : BayKept s (loseLine s) := by
  have hshot := interruptShot_kept (s := s)
  refine ⟨?_, ?_, by simp, fun h => by simpa using h⟩ <;> rcases loseLine_disp (s := s) with hd | hd | ⟨i, hd | hd⟩ <;> rw [hd]
  exacts [hshot.lost, hshot.lost, rfl, hshot.recWait, hshot.recWait, rfl]

theorem loseLine_st : (loseLine s).disp.st = s.disp.st := by
  rcases loseLine_disp (s := s) with hd | hd | ⟨i, hd | hd⟩ <;> rw [hd]
  exacts [interruptShot_st, interruptShot_st, rfl]

theorem loseLine_keepsTin : KeepsTin s (loseLine s) := by
  have hdone (i : Nat) : KeepsTin (interruptShot s) (finishLine i .interrupted (interruptShot s)) :=
    mapEntryAt_keepsTin i (g := fun l => { l with st := .done, verdict := some .interrupted }) fun _ => rfl
  have hpending (i : Nat) : KeepsTin s (mapEntryAt i (fun l => { l with st := .pending }) s) :=
    mapEntryAt_keepsTin i fun _ => rfl
  rcases loseLine_disp (s := s) with hd | hd | ⟨i, hd | hd⟩
  · exact .of_eq (by rw [hd])
  · exact interruptShot_keepsTin.trans (.of_eq (by rw [hd]))
  · exact (interruptShot_keepsTin.trans (hdone i)).trans (.of_eq (by rw [hd]))
  · exact (hpending i).trans (.of_eq (by rw [hd]))

end Sys2Proof.Proofs
end

