-- ==== Sys2Proof/Proofs/TinLoss.lean ====
section
/-! PROOF. The loss of the dispense bay's tin: the fault it latches, the record it closes, and the samples that find it
(R70, R84, R93, R98, R194). -/

namespace Sys2Proof.Proofs

open Sys2Proof Sys2Proof.Machine Sys2Proof.Safety Sys2Proof.Laws

variable {s t u v : State} {r x y : TinRecord} {o : PumpOp} {i : Nat} {l : LineEntry} {k : FaultKind} {net raw : Int}

/-! ## Flags that stay set -/

theorem flag_clearFlag (f g : EventFlag) (s : State) : (clearFlag f s).flag g = (s.flag g && !decide (g.bit = f.bit)) := by
  simp [State.flag, clearFlag, flag_bit_lt]

/-- A step that leaves BAY_FAULT set. -/
def KeepsBayFault (s t : State) : Prop := s.flag .bayFault = true → t.flag .bayFault = true

theorem KeepsBayFault.of_events (h : t.events = s.events) : KeepsBayFault s t := fun hs => by
  unfold State.flag at *
  rw [h, hs]

theorem KeepsBayFault.trans (h : KeepsBayFault s t) (h' : KeepsBayFault t u) : KeepsBayFault s u := fun hs => h' (h hs)

theorem setFlag_keepsBayFault (f : EventFlag) : KeepsBayFault s (setFlag f s) := fun hs => by
  rw [flag_setFlag, hs, Bool.true_or]

theorem clearFlag_keepsBayFault {f : EventFlag} (h : EventFlag.bayFault.bit ≠ f.bit) : KeepsBayFault s (clearFlag f s) :=
  fun hs => by rw [flag_clearFlag, hs, decide_eq_false h]; rfl

theorem abortCal_keepsBayFault : KeepsBayFault s (abortCal s) := by
  have hended (t : State) : (calEnded t).events = t.events := by
    unfold calEnded
    split <;> rfl
  unfold abortCal calOutcome
  split
  · split
    · exact .of_events rfl
    · refine .trans (t := _) (fun hs => ?_) (.of_events (hended _))
      rw [flag_setFlag, Bool.or_eq_true]
      exact .inl hs
  · exact .of_events rfl

theorem haltDisp_keepsBayFault (dest : DispState) : KeepsBayFault s (haltDisp dest s) := by
  have hbay : KeepsBayFault s (haltedBay dest s) := .of_events (by simp [haltedBay])
  rw [haltDisp_eq]
  split
  · exact .of_events rfl
  · split
    · exact (hbay.trans abortCal_keepsBayFault).trans (.of_events (by simp))
    · exact hbay.trans abortCal_keepsBayFault

theorem haltStroke_keepsBayFault (e : Bool) : KeepsBayFault s (haltStroke e s) := by
  unfold haltStroke
  split
  case h_1 => exact clearFlag_keepsBayFault (by decide)
  case h_6 => split <;> exact .of_events rfl
  all_goals exact .of_events (by simp)

theorem haltLid_keepsBayFault (dest : LidState) (e : Bool) : KeepsBayFault s (haltLid dest e s) := by
  unfold haltLid
  split
  · exact .of_events rfl
  · split
    · exact .of_events rfl
    · exact (haltStroke_keepsBayFault e).trans (.of_events rfl)

theorem stopOthers_keepsBayFault : KeepsBayFault s (stopOthers .dispense s) :=
  .trans (t := haltShake .stopped false s) (.of_events (by simp)) (haltLid_keepsBayFault _ _)

/-! ## The fault of a loss (R93, R171) -/

theorem note_notes (k : FaultKind) (r : TinRecord) : r.note k = { r with notes := (r.note k).notes } := by
  unfold TinRecord.note
  split <;> rfl

/-- The notes a fault leaves depend on the notes it finds. -/
theorem notes_congr (k : FaultKind) (h : x.notes = r.notes) : (x.note k).notes = (r.note k).notes := by
  unfold TinRecord.note
  rw [h]
  split
  · exact h
  · rfl

/-- The tin after its loss was marked and noted. -/
structure LostTin (r x : TinRecord) : Prop where
  lost : x.lost = true
  jobId : x.jobId = r.jobId
  index : x.index = r.index
  committed : x.committed = r.committed
  cancelled : x.cancelled = r.cancelled
  shot : x.shotGiven = r.shotGiven
  notes : x.notes = (r.note .tinLost).notes

theorem lostTin_noted (h : SameTin r y) : LostTin r (TinRecord.note .tinLost { y with lost := true }) := by
  have hshot := h.shotGiven
  obtain ⟨ls, rfl, -⟩ := h
  have hnotes := notes_congr (x := { r with lines := ls, lost := true }) (r := r) .tinLost rfl
  rw [note_notes]
  exact ⟨rfl, rfl, rfl, rfl, rfl, hshot, hnotes⟩

theorem LostTin.same (h : LostTin r x) (hs : SameTin x y) : LostTin r y := by
  have hshot := hs.shotGiven
  obtain ⟨ls, rfl, -⟩ := hs
  exact ⟨h.lost, h.jobId, h.index, h.committed, h.cancelled, hshot.trans h.shot, h.notes⟩

theorem haltShake_kept (dest : ShakeState) (e : Bool) : (haltShake dest e s).scale.above = s.scale.above ∧
    (haltShake dest e s).scale.request = s.scale.request := by
  unfold haltShake haltShaker
  repeat' split
  all_goals simp [brake, blankTrigger]

theorem stopOthers_bay : BayKept s (stopOthers .dispense s) := by
  have hs := haltShake_kept (s := s) .stopped false
  have hl (t : State) : (haltLid .stopped false t).scale = t.scale := by simp
  refine ⟨by simp [stopOthers], by simp [stopOthers], ?_, fun h => ?_⟩
  · exact (congrArg Scale.above (hl _)).trans hs.1
  · exact (congrArg Scale.request (hl _)).trans (hs.2.trans h)

/-- What the first fault of the dispense bay leaves. -/
theorem latch_disp (hf : s.mon.faultD = none) :
    (latch .dispense k s).mon.faultD = some k ∧ (latch .dispense k s).disp.st = .fault ∧
    (latch .dispense k s).flag .bayFault = true ∧ BayKept s (latch .dispense k s) ∧
    KeepsTin (s.mapTin .dispense (TinRecord.note k)) (latch .dispense k s) := by
  have hbay : (faultBay .dispense ((reported .dispense k s).setFault .dispense (some k))).disp.st = .fault := by
    change (haltDisp .fault _).disp.st = _
    rw [haltDisp_st (.inr rfl), ite_self]
  have hmon : (faultBay .dispense ((reported .dispense k s).setFault .dispense (some k))).mon.faultD = some k := by
    change (haltDisp .fault _).mon.faultD = _
    simp
    rfl
  have hflag : (faultBay .dispense ((reported .dispense k s).setFault .dispense (some k))).flag .bayFault = true :=
    haltDisp_keepsBayFault .fault (s := (reported .dispense k s).setFault .dispense (some k))
      (flag_setFlag_self .bayFault (s.mapTin .dispense (TinRecord.note k)))
  have hkept : BayKept s (faultBay .dispense ((reported .dispense k s).setFault .dispense (some k))) :=
    BayKept.trans (t := (reported .dispense k s).setFault .dispense (some k)) ⟨rfl, rfl, rfl, id⟩ (haltDisp_kept .fault)
  have htin : KeepsTin (s.mapTin .dispense (TinRecord.note k))
      (faultBay .dispense ((reported .dispense k s).setFault .dispense (some k))) :=
    haltDisp_keepsTin (s := (reported .dispense k s).setFault .dispense (some k)) .fault
  rw [latch_first (b := .dispense) hf]
  split
  · obtain ⟨hd, -, -⟩ := stopOthers_kept (s := faultBay .dispense ((reported .dispense k s).setFault .dispense (some k)))
    refine ⟨?_, by rw [hd, hbay], stopOthers_keepsBayFault hflag, hkept.trans stopOthers_bay, htin.trans (.of_eq (by rw [hd]))⟩
    rw [(stopOthers_frame _ _).2.2.2.2.2.2.2.2.1, hmon]
  · exact ⟨hmon, hbay, hflag, hkept, htin⟩

/-! ## The tin marked lost -/

theorem markedLost_kept : (markedLost s).disp.lost = true ∧ (markedLost s).disp.recWait = s.disp.recWait ∧
    (markedLost s).scale.above = s.scale.above ∧ (markedLost s).scale.request = none ∧
    (markedLost s).disp.st = s.disp.st ∧ (markedLost s).mon = s.mon ∧ (markedLost s).jobs = s.jobs ∧
    (markedLost s).completion = s.completion := by
  have hk := loseLine_kept (s := closeRequest s)
  refine ⟨rfl, hk.recWait, hk.above, hk.request rfl, loseLine_st, ?_, ?_, ?_⟩
  all_goals simp [markedLost]

theorem markedLost_tin (ht : s.disp.tin = some r) :
    ∃ y, (markedLost s).disp.tin = some { y with lost := true } ∧ SameTin r y := by
  obtain ⟨y, hy, hsame⟩ := loseLine_keepsTin (s := closeRequest s) r ht
  refine ⟨y, ?_, hsame⟩
  change (loseLine (closeRequest s)).disp.tin.map (fun t => { t with lost := true }) = _
  rw [hy]
  rfl

/-! ## Closing the lost tin (R93, R98) -/

theorem withdrawTin_some (ht : s.disp.tin = some x) : withdrawTin s = clearFlag .tinWanted
    ((if x.committed then s else s.mapJobs (returnTin x.jobId)).mapDisp fun d => { d with tin := none }) := by
  unfold withdrawTin
  rw [ht]

theorem closeLost_some (ht : s.disp.tin = some x) :
    closeLost s = if x.shotGiven then closeDispRecord s else withdrawTin s := by
  unfold closeLost
  rw [ht]

/-- The bay with its record closed. -/
def waits (s : State) : State := s.mapDisp fun b => { b with recWait := true }

theorem closeDispRecord_room (ht : s.disp.tin = some x) (hroom : s.completion.length < 16) :
    closeDispRecord s = dispJoined (joinRecord x (waits s)) := by
  unfold closeDispRecord joinOrWait
  exact (if_pos (hasRoom_iff (s := waits s) |>.2 hroom)).trans (drainDisp_joins (s := waits s) hroom ht rfl)

theorem closeDispRecord_full (hfull : 16 ≤ s.completion.length) :
    closeDispRecord s = setFlag .completionFull (waits s) := by
  unfold closeDispRecord joinOrWait
  exact if_neg fun h => absurd (hasRoom_iff.1 h) (not_lt.2 hfull)

theorem verdictOf_lost (hl : x.lost = true) (hc : x.cancelled = false) : verdictOf x = .hold := by
  rw [verdictOf_kept hc, if_pos (by simp [hl])]

/-- A lost bay's record joins while its fault stands, and the bay stays in FAULT. -/
theorem dispJoined_faulted (hst : s.disp.st = .fault) (hlost : s.disp.lost = true) (hf : s.mon.faultD = some k) :
    dispJoined s = s.mapDisp fun b => { b with tin := none, recWait := false } := by
  unfold dispJoined
  rw [if_neg (hst.trans_ne (by decide)), if_pos hlost]
  exact if_neg (by simp [hf])

/-! ## The loss as a whole -/

/-- The loss is found: it stands in the bay, BAY_FAULT is set and no request is open. -/
structure LossFound (s u : State) : Prop where
  lost : u.disp.lost = true
  flag : u.flag .bayFault = true
  above : u.scale.above = s.scale.above
  request : u.scale.request = none

/-- Behind a latched fault the tin is marked and noted, and nothing more. -/
theorem loseDisp_behind (h : dispHolds s = true) (ht : s.disp.tin = some r) (hf : s.mon.faultD = some k) :
    LossFound s (loseDisp s) ∧ (loseDisp s).mon = s.mon ∧ (loseDisp s).disp.st = s.disp.st ∧
    (loseDisp s).jobs = s.jobs ∧ ∃ x, (loseDisp s).disp.tin = some x ∧ LostTin r x := by
  obtain ⟨hlost, -, habove, hreq, hst, hmon, hjobs, -⟩ := markedLost_kept (s := s)
  obtain ⟨y, hy, hsame⟩ := markedLost_tin ht
  have hfault : (markedLost s).fault .dispense = some k := (congrArg Monitor.faultD hmon).trans hf
  have hlose : loseDisp s = reported .dispense .tinLost (markedLost s) := by
    rw [loseDisp_holds h, hf, if_neg (by simp), latch_behind hfault]
  rw [hlose]
  exact ⟨⟨hlost, flag_setFlag_self _ _, habove, hreq⟩, hmon, hst, hjobs, _, congrArg (Option.map _) hy, lostTin_noted hsame⟩

/-- The first fault of the bay, latched for the loss. -/
theorem latch_loss (ht : s.disp.tin = some r) (hf : s.mon.faultD = none) :
    LossFound s (latch .dispense .tinLost (markedLost s)) ∧
    (latch .dispense .tinLost (markedLost s)).mon.faultD = some .tinLost ∧
    (latch .dispense .tinLost (markedLost s)).disp.st = .fault ∧
    (latch .dispense .tinLost (markedLost s)).disp.recWait = s.disp.recWait ∧
    (latch .dispense .tinLost (markedLost s)).jobs = s.jobs ∧
    (latch .dispense .tinLost (markedLost s)).completion = s.completion ∧
    ∃ x, (latch .dispense .tinLost (markedLost s)).disp.tin = some x ∧ LostTin r x := by
  obtain ⟨hlost, hrec, habove, hreq, -, hmon, hjobs, hcompletion⟩ := markedLost_kept (s := s)
  obtain ⟨y, hy, hsame⟩ := markedLost_tin ht
  obtain ⟨hfault, hst, hflag, hkept, htin⟩ := latch_disp (k := .tinLost) (s := markedLost s) (by rw [hmon, hf])
  obtain ⟨x, hx, hxsame⟩ := htin _ (congrArg (Option.map _) hy)
  exact ⟨⟨hkept.lost.trans hlost, hflag, hkept.above.trans habove, hkept.request hreq⟩, hfault, hst,
    hkept.recWait.trans hrec, by simpa using hjobs, by simpa using hcompletion, x, hx, (lostTin_noted hsame).same hxsame⟩

theorem loseDisp_first (h : dispHolds s = true) (hf : s.mon.faultD = none) :
    loseDisp s = closeLost (latch .dispense .tinLost (markedLost s)) := by
  rw [loseDisp_holds h, hf]
  exact if_pos rfl

/-- The latched loss with its tin gone, or its record waiting. -/
structure LossLatched (s u : State) : Prop extends LossFound s u where
  fault : u.mon.faultD = some .tinLost
  st : u.disp.st = .fault

section FirstFault

variable (h : dispHolds s = true) (ht : s.disp.tin = some r) (hf : s.mon.faultD = none)
include h ht hf

/-- A tin without a shot goes back to its job, unless it is committed. -/
theorem loseDisp_unshot (hshot : r.shotGiven = false) : LossLatched s (loseDisp s) ∧ (loseDisp s).disp.tin = none ∧
    (loseDisp s).jobs = if r.committed then s.jobs else returnTin r.jobId s.jobs := by
  obtain ⟨⟨hlost, hflag, habove, hreq⟩, hfault, hst, -, hjobs, -, x, hx, hxr⟩ := latch_loss ht hf
  have hwithdrawn : loseDisp s = withdrawTin (latch .dispense .tinLost (markedLost s)) := by
    rw [loseDisp_first h hf, closeLost_some hx, hxr.shot, hshot]
    exact if_neg (by decide)
  have hkept : KeepsBayFault (latch .dispense .tinLost (markedLost s)) (loseDisp s) := by
    rw [hwithdrawn, withdrawTin_some hx]
    refine .trans (.of_events ?_) (clearFlag_keepsBayFault (by decide))
    split <;> rfl
  refine ⟨⟨⟨?_, hkept hflag, ?_, ?_⟩, ?_, ?_⟩, ?_, ?_⟩ <;> rw [hwithdrawn, withdrawTin_some hx]
  case refine_7 =>
    rw [← hxr.committed, ← hxr.jobId, ← hjobs]
    cases x.committed <;> rfl
  case refine_6 => rfl
  all_goals cases x.committed
  exacts [hlost, hlost, habove, habove, hreq, hreq, hfault, hfault, hst, hst]

/-- The record of a tin with a shot joins the queue, which has room, as it stands after the fault. -/
theorem loseDisp_joined (hx : (latch .dispense .tinLost (markedLost s)).disp.tin = some x) (hshot : x.shotGiven = true)
    (hroom : s.completion.length < 16) :
    loseDisp s = (joinRecord x (waits (latch .dispense .tinLost (markedLost s)))).mapDisp fun b =>
      { b with tin := none, recWait := false } := by
  obtain ⟨hfound, hfault, hst, -, -, hcompletion, -⟩ := latch_loss ht hf
  rw [loseDisp_first h hf, closeLost_some hx, hshot, if_pos rfl,
    closeDispRecord_room hx (by rw [hcompletion]; exact hroom)]
  exact dispJoined_faulted (s := joinRecord x (waits _)) hst hfound.lost hfault

/-- The record of a tin with a shot joins while there is room. -/
theorem loseDisp_joins (hshot : r.shotGiven = true) (hc : r.cancelled = false) (hroom : s.completion.length < 16) :
    LossLatched s (loseDisp s) ∧ (loseDisp s).disp.tin = none ∧ ∃ x, (loseDisp s).completion = s.completion ++ [x] ∧
      x.jobId = r.jobId ∧ x.index = r.index ∧ x.lost = true ∧ x.verdict = some .hold := by
  obtain ⟨⟨hlost, hflag, habove, hreq⟩, hfault, hst, -, -, hcompletion, x, hx, hxr⟩ := latch_loss ht hf
  have hjoined := loseDisp_joined h ht hf hx (hxr.shot.trans hshot) hroom
  rw [hjoined]
  refine ⟨⟨⟨hlost, setFlag_keepsBayFault _ hflag, habove, hreq⟩, hfault, hst⟩, rfl,
    { x with verdict := some (verdictOf x) }, ?_, hxr.jobId, hxr.index, hxr.lost, ?_⟩
  · change (joinRecord x (waits _)).completion = _
    rw [joinRecord_completion]
    exact congrArg (· ++ _) hcompletion
  · exact congrArg some (verdictOf_lost hxr.lost (hxr.cancelled.trans hc))

/-- The record of a tin with a shot waits for room. -/
theorem loseDisp_waits (hshot : r.shotGiven = true) (hfull : 16 ≤ s.completion.length) :
    LossLatched s (loseDisp s) ∧ (loseDisp s).disp.recWait = true ∧ (loseDisp s).flag .completionFull = true ∧
    (loseDisp s).completion = s.completion := by
  obtain ⟨⟨hlost, hflag, habove, hreq⟩, hfault, hst, -, -, hcompletion, x, hx, hxr⟩ := latch_loss ht hf
  have hwaits : loseDisp s = setFlag .completionFull (waits (latch .dispense .tinLost (markedLost s))) := by
    rw [loseDisp_first h hf, closeLost_some hx, hxr.shot, hshot, if_pos rfl,
      closeDispRecord_full (by rw [hcompletion]; exact hfull)]
  rw [hwaits]
  exact ⟨⟨⟨hlost, setFlag_keepsBayFault _ hflag, habove, hreq⟩, hfault, hst⟩, rfl, flag_setFlag_self _ _, hcompletion⟩

end FirstFault

/-! ## The sample that finds a crossing (R70, R84) -/

theorem dispWork_eq : dispWork s =
    if s.disp.st = .fault ∨ s.disp.st = .stopped then s.disp.resume else some s.disp.st := by
  unfold dispWork
  simp only [Bool.or_eq_true, decide_eq_true_eq]

/-- The sample is recorded and its crossing seen. -/
def crossed (net : Int) (s : State) : State :=
  { s with scale := { s.scale with
    above := decide (10000 ≤ net), last := some { value := net, saturated := false } } }

theorem takeSample_crossing (hraw : raw < 4000000) (h : s.scale.above ≠ decide (10000 ≤ raw - s.scale.zero)) :
    takeSample raw s = offerSample (raw - s.scale.zero)
      (reportCrossing (decide (10000 ≤ raw - s.scale.zero)) (crossed (raw - s.scale.zero) s)) := by
  rw [takeSample_net hraw]
  exact congrArg (offerSample _) (if_neg (Ne.symm h))

theorem reportCrossing_cal (above : Bool) (h : v.disp.st = .calCup ∨ v.disp.st = .calPrime ∨ v.disp.st = .calRate ∨
    v.disp.st = .calEnd) : reportCrossing above v = v := if_pos (by simpa [calibrating, or_assoc] using h)

/-- The mark of a fresh reading is cleared. -/
def unfresh (v : State) : State := { v with disp := { v.disp with fresh := false } }

theorem reportCrossing_work {above : Bool} (h : v.disp.st ≠ .calCup ∧ v.disp.st ≠ .calPrime ∧ v.disp.st ≠ .calRate ∧
    v.disp.st ≠ .calEnd) : reportCrossing above v = if above then unfresh v else loseDisp (unfresh v) :=
  if_neg (by simp [calibrating, h])

/-- A sample that fills no window is kept in it, or dropped while the scale is blanked. -/
theorem offerSample_short (h : v.scale.blank.isSome = true ∨ (if v.scale.blank.isSome then v.scale.window
    else offerToWindow v.cfg.general.band net v.scale.window).length < v.cfg.general.windowLen) :
    offerSample net v = { v with scale := { v.scale with
      window := if v.scale.blank.isSome then v.scale.window
        else offerToWindow v.cfg.general.band net v.scale.window } } := by
  cases hb : v.scale.blank with
  | some n => exact offerSample_blanked (by rw [hb]; rfl)
  | none =>
    rw [hb] at h
    exact offerSample_partial hb (h.resolve_left (by decide))

theorem offerSample_window {w : List Int} (hblank : v.scale.blank = none)
    (hw : offerToWindow v.cfg.general.band net v.scale.window = w) (hlen : w.length < v.cfg.general.windowLen) :
    offerSample net v = { v with scale := { v.scale with window := w } } := by
  subst hw
  exact offerSample_partial hblank hlen

/-- With no request open a sample tells the bay nothing. -/
theorem offerSample_unasked (h : v.scale.request = none) : (offerSample net v).disp = v.disp ∧
    (offerSample net v).events = v.events ∧ (offerSample net v).jobs = v.jobs ∧
    (offerSample net v).scale.above = v.scale.above := by
  have hzero (r : Int) (w : State) : (trackZero r w).scale.above = w.scale.above := by
    unfold trackZero
    split <;> rfl
  unfold offerSample produceReading
  dsimp only
  split
  · exact ⟨rfl, rfl, rfl, rfl⟩
  · split
    · rw [if_neg (by simp [h])]
      exact ⟨by simp, by simp, by simp, hzero _ _⟩
    · exact ⟨rfl, rfl, rfl, rfl⟩

/-- What the rest of the sample and of its step leave of a loss. -/
theorem settle_offered (hreq : u.scale.request = none) (hst : u.disp.st ≠ .empty) :
    (settle (offerSample net u)).disp = u.disp ∧ (settle (offerSample net u)).mon = u.mon ∧
    (settle (offerSample net u)).jobs = u.jobs ∧ (settle (offerSample net u)).completion = u.completion ∧
    (∀ f : EventFlag, (settle (offerSample net u)).flag f = u.flag f) ∧
    (settle (offerSample net u)).scale.above = u.scale.above := by
  obtain ⟨hdisp, hevents, hjobs, habove⟩ := offerSample_unasked (net := net) hreq
  obtain ⟨hd, -, hsc, hm, hcompletion, hj, he, -⟩ := settle_held (s := offerSample net u) (by rw [hdisp]; exact hst)
  refine ⟨hd.trans hdisp, by rw [hm]; simp, hj.trans hjobs, by rw [hcompletion]; simp, fun f => ?_, by rw [hsc, habove]⟩
  unfold State.flag
  rw [he, hevents]

theorem work_ne_empty (h : dispHolds s = true) : s.disp.st ≠ .empty := fun hst => by
  obtain ⟨hwork, -⟩ := dispHolds_iff.1 h
  rw [dispWork_eq, hst, if_neg (by decide)] at hwork
  simp at hwork

theorem work_not_cal (h : dispHolds s = true) : s.disp.st ≠ .calCup ∧ s.disp.st ≠ .calPrime ∧ s.disp.st ≠ .calRate ∧
    s.disp.st ≠ .calEnd := by
  obtain ⟨hwork, -⟩ := dispHolds_iff.1 h
  rw [dispWork_eq] at hwork
  refine ⟨fun hst => ?_, fun hst => ?_, fun hst => ?_, fun hst => ?_⟩ <;>
  · rw [hst, if_neg (by decide)] at hwork
    simp at hwork

/-- A fall below the threshold in a bay that holds a tin in work is its loss. -/
theorem reportLoss (hlow : net < 10000) (h : dispHolds (unfresh (crossed net s)) = true) :
    reportCrossing (decide (10000 ≤ net)) (crossed net s) = loseDisp (unfresh (crossed net s)) := by
  rw [reportCrossing_work (v := crossed net s) (work_not_cal h), decide_eq_false (not_le.2 hlow)]
  exact if_neg (by decide)

/-- Settles O29: the offer of each sample to the window, and the crossings of the tin-present threshold. -/
theorem scaleSamplesAreOffered : Obligations.ScaleSamplesAreOffered := by
  unfold Obligations.ScaleSamplesAreOffered
  intro s raw ho
  have takes {w : State} (h : takeSample raw s = w) : exec (.scaleSample raw) s = .next (settle w) :=
    (exec_whenOnline _ ho).trans (by rw [h])
  refine ⟨fun hfull => takes (takeSample_saturated hfull), fun hraw habove => ?same, fun hraw habove => ?crossing⟩
  case same =>
    intro net sample
    have htaken : takeSample raw s = offerSample net (sampled net s) := by
      rw [takeSample_net hraw, testThreshold_same (v := sampled net s) habove]
    have offered {w : List Int} (hb : s.scale.blank = none)
        (hw : offerToWindow s.cfg.general.band net s.scale.window = w) (hlen : w.length < s.cfg.general.windowLen) :=
      takes (htaken.trans (offerSample_window (v := sampled net s) hb hw hlen))
    refine ⟨fun hb => takes (htaken.trans (offerSample_blanked hb)), fun hb hw hlen => offered hb (by rw [hw]; rfl) hlen,
      fun first rest hb hw => ⟨fun hband hlen => offered hb (by rw [hw]; exact if_pos hband) (by simpa using hlen),
        fun hband hlen => offered hb (by rw [hw]; exact if_neg (not_le.2 hband)) hlen⟩⟩
  case crossing =>
    intro net window t work holds
    have htaken : takeSample raw s = offerSample net (reportCrossing (decide (10000 ≤ net)) (crossed net s)) :=
      takeSample_crossing hraw habove
    have hholds : dispHolds (unfresh (crossed net s)) = true ↔ holds := by
      rw [dispHolds_iff, dispWork_eq]
      exact Iff.rfl
    refine ⟨fun hshort => ⟨fun hcal => takes ?_, fun h1 h2 h3 h4 hno => takes ?_⟩, fun r k hlow hh ht hf => ?behind,
      fun r hlow hh ht hf => ?first⟩
    · rw [htaken, reportCrossing_cal _ (v := crossed net s) hcal]
      exact offerSample_short (v := crossed net s) hshort
    · have hreport : reportCrossing (decide (10000 ≤ net)) (crossed net s) = unfresh (crossed net s) := by
        rw [reportCrossing_work (v := crossed net s) ⟨h1, h2, h3, h4⟩]
        by_cases hhigh : 10000 ≤ net
        · rw [decide_eq_true hhigh, if_pos rfl]
        · rw [decide_eq_false hhigh, if_neg (by decide)]
          exact loseDisp_none (Bool.eq_false_iff.2 (mt hholds.1 (hno.resolve_left hhigh)))
      rw [htaken, hreport]
      exact offerSample_short (v := unfresh (crossed net s)) hshort
    case behind =>
      have hdisp := hholds.2 hh
      obtain ⟨⟨hlost, hflag, hsame, hreq⟩, hmon, hst, hjobs, x, hx, hxr⟩ :=
        loseDisp_behind (s := unfresh (crossed net s)) hdisp ht hf
      obtain ⟨hd, hm, hj, -, hfl, ha⟩ := settle_offered (net := net) hreq (by rw [hst]; exact work_ne_empty hdisp)
      refine ⟨_, takes (htaken.trans (by rw [reportLoss hlow hdisp])), by rw [hm, hmon]; exact hf, by rw [hd, hst]; rfl,
        by rw [hd, hlost], by rw [hfl, hflag], by rw [ha, hsame]; exact decide_eq_false (not_le.2 hlow),
        by rw [hd, hx]; exact congrArg some hxr.lost, by rw [hd, hx]; exact congrArg some hxr.notes,
        by rw [hj, hjobs]; rfl⟩
    case first =>
      have hdisp := hholds.2 hh
      have hc : r.cancelled = false := by simpa [ht] using hh.2.2.2
      have htin : (unfresh (crossed net s)).disp.tin = some r := ht
      have hnone : (unfresh (crossed net s)).mon.faultD = none := hf
      have hlatched : LossLatched (unfresh (crossed net s)) (loseDisp (unfresh (crossed net s))) := by
        cases hshot : r.shotGiven with
        | false => exact (loseDisp_unshot hdisp htin hnone hshot).1
        | true =>
          rcases Nat.lt_or_ge s.completion.length 16 with hroom | hfull
          · exact (loseDisp_joins hdisp htin hnone hshot hc hroom).1
          · exact (loseDisp_waits hdisp htin hnone hshot hfull).1
      obtain ⟨⟨hlost, hflag, hsame, hreq⟩, hfault, hst⟩ := hlatched
      obtain ⟨hd, hm, hj, hcm, hfl, ha⟩ := settle_offered (net := net) hreq (by rw [hst]; decide)
      refine ⟨_, takes (htaken.trans (by rw [reportLoss hlow hdisp])), by rw [hm, hfault], by rw [hd, hst],
        by rw [hd, hlost], by rw [hfl, hflag], by rw [ha, hsame]; exact decide_eq_false (not_le.2 hlow),
        fun hshot => ?_, fun hshot hroom => ?_, fun hshot hfull => ?_⟩
      · obtain ⟨-, hgone, hjobs⟩ := loseDisp_unshot hdisp htin hnone hshot
        exact ⟨by rw [hd, hgone], by rw [hj, hjobs]; rfl⟩
      · obtain ⟨-, hgone, x, hjoined, hx⟩ := loseDisp_joins hdisp htin hnone hshot hc hroom
        exact ⟨by rw [hd, hgone], x, by rw [hcm, hjoined]; rfl, hx⟩
      · obtain ⟨-, hrec, hfullFlag, hcompletion⟩ := loseDisp_waits hdisp htin hnone hshot hfull
        exact ⟨by rw [hd, hrec], by rw [hfl, hfullFlag], by rw [hcm, hcompletion]; rfl⟩

end Sys2Proof.Proofs
end

