-- ==== Sys2Proof/Proofs/Interruptions.lean ====
section
/-! PROOF. The volume of an interrupted operation comes back, by whatever it is interrupted (R25, R45, R58, R59, R92, R93,
R103). -/

namespace Sys2Proof.Proofs

open Sys2Proof Sys2Proof.Machine Sys2Proof.Safety Sys2Proof.Laws

variable {s u v : State} {r x : TinRecord} {o : PumpOp} {i : Nat} {l : LineEntry} {k : FaultKind}

/-! ## Steps and volumes (R45, R59) -/

/-- A volume is less than half a step wide from K 100 on, so rounding it to steps and back is exact. -/
theorem nominalVolume_stepCount (v : Nat) {k : Nat} (hk : 100 ≤ k) : nominalVolume (stepCount v k) k = v := by
  unfold nominalVolume stepCount roundDiv
  have hlow := Nat.div_mul_le_self (2 * (v * k) + 100) (2 * 100)
  have hhigh := Nat.lt_div_mul_add (a := 2 * (v * k) + 100) (b := 2 * 100) (by decide)
  generalize (2 * (v * k) + 100) / (2 * 100) = q at hlow hhigh ⊢
  refine Nat.div_eq_of_lt_le ?_ ?_
  · rw [show v * (2 * k) = 2 * (v * k) by ring]
    omega
  · rw [show (v + 1) * (2 * k) = 2 * (v * k) + 2 * k by ring]
    rcases hk.eq_or_lt with rfl | hk
    · omega
    · omega

/-! ## The loss of a tin in its shot (R93) -/

/-- The ACTIVE line of a tin lost in its shot. -/
def lostLine (o : PumpOp) (l : LineEntry) : LineEntry :=
  { interruptedLine o l with st := .done, verdict := some .interrupted }

theorem countMiss_level (j j' : Slot) (c : Outcome27) : ((countMiss j c s).cans[j']).level = (s.cans[j']).level := by
  have hcan (g : Canister → Canister) (hg : ∀ c, (g c).level = c.level) :
      ((s.mapCan j g).cans[j']).level = (s.cans[j']).level := by
    rw [cans_mapCan]
    split
    · exact hg _
    · rfl
  unfold countMiss
  split
  · rfl
  · exact hcan _ fun _ => rfl
  · dsimp only
    split
    · exact hcan (fun c => { c with miss := min 3 (c.miss + 1) }) fun _ => rfl
    · exact hcan (fun c => { c with miss := min 3 (c.miss + 1) }) fun _ => rfl

/-- The shot's interruption, its line closed. -/
structure ShotLost (r : TinRecord) (o : PumpOp) (level i : Nat) (l : LineEntry) (u : State) : Prop where
  pump : u.pump.op = none
  cal : u.disp.cal = none
  level : (u.cans[o.slot]).level = level
  tin : ∃ x : TinRecord, u.disp.tin = some x ∧ x.lines[i]? = some (lostLine o l)

theorem loseLine_shot (h : InShot r o i l s) : ShotLost r o (creditedLevel o s) i l (loseLine s) := by
  have hdone : ShotLost r o (creditedLevel o s) i l (finishLine i .interrupted (interruptShot s)) := by
    rw [interruptShot_line h.tin h.line h.op]
    refine ⟨rfl, h.cal, congrArg Canister.level (getElem_set_slot _ _ _), _, rfl, ?_⟩
    exact getElem?_modify_self _ (getElem?_modify_self _ (activeLine_some h.tin h.line).1 _)
      fun l => { l with st := .done, verdict := some .interrupted }
  have hlose : (∃ c, loseLine s = countMiss l.slot c (finishLine i .interrupted (interruptShot s))) ∨
      loseLine s = finishLine i .interrupted (interruptShot s) := by
    unfold loseLine
    rw [h.line]
    dsimp only
    rw [if_pos (by rw [h.op]; rfl)]
    split
    · exact .inl ⟨_, rfl⟩
    · exact .inr rfl
  rcases hlose with ⟨c, hc⟩ | hc
  · rw [hc]
    exact ⟨by simpa using hdone.pump, by simpa using hdone.cal, (countMiss_level _ _ _).trans hdone.level,
      by simpa using hdone.tin⟩
  · rw [hc]
    exact hdone

/-- The halt of a bay whose drive is idle and which calibrates nothing moves the bay only. -/
theorem haltDisp_still (dest : DispState) (hop : s.pump.op = none) (hcal : s.disp.cal = none) :
    (haltDisp dest s).disp.tin = s.disp.tin ∧ (haltDisp dest s).pump = s.pump ∧ (haltDisp dest s).cans = s.cans := by
  have hshot : interruptShot s = s := interruptShot_idle hop
  have hcal' : abortCal (haltedBay dest s) = haltedBay dest s := by
    refine abortCal_none ?_
    unfold haltedBay
    rw [hshot]
    exact hcal
  have hcredit : ¬ 0 < opCredit s := by simp [opCredit, hop]
  rw [haltDisp_eq, if_neg hcredit, hcal']
  unfold haltedBay
  rw [hshot]
  split <;> exact ⟨rfl, rfl, rfl⟩

theorem latch_still (hf : s.mon.faultD = none) (hop : s.pump.op = none) (hcal : s.disp.cal = none) :
    (latch .dispense k s).disp.tin = s.disp.tin.map (TinRecord.note k) ∧ (latch .dispense k s).pump = s.pump ∧
    (latch .dispense k s).cans = s.cans := by
  obtain ⟨htin, hpump, hcans⟩ :=
    haltDisp_still (s := (reported .dispense k s).setFault .dispense (some k)) .fault hop hcal
  rw [latch_first (b := .dispense) hf]
  split
  · obtain ⟨hd, hp, hc⟩ := stopOthers_kept (s := faultBay .dispense ((reported .dispense k s).setFault .dispense (some k)))
    exact ⟨by rw [hd]; exact htin, hp.trans hpump, hc.trans hcans⟩
  · exact ⟨htin, hpump, hcans⟩

/-- A record that joins leaves the drive and the canisters. -/
theorem joined_rest (v : State) (x : TinRecord) :
    let t := (joinRecord x (waits v)).mapDisp fun b => { b with tin := none, recWait := false }
    t.pump = v.pump ∧ t.cans = v.cans ∧ t.disp.st = v.disp.st ∧
    t.completion = v.completion ++ [{ x with verdict := some (verdictOf x) }] := ⟨rfl, rfl, rfl, rfl⟩

/-- The record of a tin lost in its shot. -/
theorem loseDisp_shot (h : InShot r o i l s) (hholds : dispHolds s = true) (hf : s.mon.faultD = none)
    (hplan : l.plan.isSome = true) (hroom : s.completion.length < 16) :
    (loseDisp s).pump.op = none ∧ ((loseDisp s).cans[o.slot]).level = creditedLevel o s ∧
    (loseDisp s).disp.st ≠ .empty ∧
    ∃ x, (loseDisp s).completion = s.completion ++ [x] ∧ x.lines[i]? = some (lostLine o l) := by
  have hclosed : InShot r o i l (closeRequest s) := ⟨h.tin, h.line, h.op, h.st, h.cal⟩
  obtain ⟨hpump, hcal, hlevel, y, hy, hline⟩ := loseLine_shot hclosed
  obtain ⟨htin, hpump', hcans⟩ := latch_still (k := .tinLost) (s := markedLost s) (by rw [markedLost_kept.2.2.2.2.2.1, hf])
    hpump hcal
  obtain ⟨x, hx, hxline⟩ : ∃ x, (latch .dispense .tinLost (markedLost s)).disp.tin = some x ∧
      x.lines[i]? = some (lostLine o l) := by
    refine ⟨TinRecord.note .tinLost { y with lost := true }, ?_, (congrArg (·[i]?) (note_lines _ _)).trans hline⟩
    rw [htin]
    change ((loseLine (closeRequest s)).disp.tin.map fun t => { t with lost := true }).map _ = _
    rw [hy]
    rfl
  have hshot : x.shotGiven = true := List.any_eq_true.2 ⟨_, List.mem_of_getElem? hxline, hplan⟩
  have hst : (latch .dispense .tinLost (markedLost s)).disp.st = .fault := (latch_loss h.tin hf).2.2.1
  have hcompletion := (latch_loss h.tin hf).2.2.2.2.2.1
  rw [loseDisp_joined hholds h.tin hf hx hshot hroom]
  obtain ⟨hjp, hjc, hjst, hjq⟩ := joined_rest (latch .dispense .tinLost (markedLost s)) x
  refine ⟨by rw [hjp, hpump']; exact hpump, by rw [hjc, hcans]; exact hlevel, by rw [hjst, hst]; decide, { x with verdict := some (verdictOf x) }, ?_, hxline⟩
  rw [hjq, hcompletion]

/-- Settles O26: the arithmetic, and what each of the four interruptions returns. -/
theorem interruptionsReturnTheirVolume : Obligations.InterruptionsReturnTheirVolume := by
  unfold Obligations.InterruptionsReturnTheirVolume
  refine ⟨fun v k hk => ⟨nominalVolume_stepCount v hk, ?_⟩, fun total counted k => rfl,
    fun s o hop => interruptOp_some hop rfl, fun s t i l o ht hline hop hst hcal => ?shot⟩
  · exact nominalVolume_stepCount v hk
  case shot =>
    intro credit level held
    have hshot : InShot t o i l s := ⟨ht, hline, hop, hst, hcal⟩
    have holds {dest : DispState} {u : State} (h : HeldShot o (creditedLevel o s) i l dest u) : held dest u :=
      ⟨h.pump, h.st, h.resume, h.step, h.level, h.line⟩
    refine ⟨fun dest hdest => holds (haltDisp_shot hdest hshot), fun k hf => holds (latch_shot hshot hf),
      fun b k hb hscope hf => holds (latch_other_shot hshot hb hscope hf), fun ho hestop => ?estop,
      fun ho hf hc hlost hrec hplan hroom => ?lost⟩
    case estop =>
      have hstop := applyEstop_shot (s := s.mapInputs fun i => { i with estop := true }) (hshot.congr rfl rfl)
      obtain ⟨hd, hp, -, -, -, -, -, hlevel⟩ := settle_held (s := applyEstop (s.mapInputs fun i => { i with estop := true }))
        (hstop.st.trans_ne (by decide))
      refine ⟨_, (exec_whenSensed ho).trans (congrArg (fun t => Host.Outcome.next (settle t)) ?_),
        holds (hstop.congr hp hd (hlevel _))⟩
      exact if_neg (by simp [hestop])
    case lost =>
      have hoff : InShot t o i l (s.mapInputs fun i => { i with presDispense := false }) := hshot.congr rfl rfl
      have hholds : dispHolds (s.mapInputs fun i => { i with presDispense := false }) = true := by
        rw [dispHolds_iff]
        refine ⟨.inr (.inl ?_), hlost, hrec, by rw [hoff.tin]; exact congrArg some hc⟩
        rw [dispWork_eq, hoff.st]
        rfl
      obtain ⟨hpump, hlevel, hne, x, hx, hxline⟩ := loseDisp_shot hoff hholds hf hplan hroom
      obtain ⟨-, hp, -, -, hcompletion, -, -, hkept⟩ := settle_held hne
      refine ⟨_, x, (exec_whenSensed ho).trans (congrArg (fun t => Host.Outcome.next (settle t)) ?_), by rw [hp, hpump],
        (hkept _).trans hlevel, hcompletion.trans hx, hxline⟩
      change dispTinOff _ = _
      unfold dispTinOff
      rw [hoff.st]

end Sys2Proof.Proofs
end

