-- ==== Sys2Proof/Proofs/ModesAndClearing.lean ====
section
/-! PROOF. MODE, the keepalive, the withdrawal of a call, CLEAR_FAULT and RESUME (R11, R79, R93, R169, R174, R176, R180,
R181). -/

namespace Sys2Proof.Proofs

open Sys2Proof Sys2Proof.Machine Sys2Proof.Safety Sys2Proof.Laws

variable {s u v : State} {t : TinRecord} {q : JobQueue} {j : Job} {id : Nat} {code : Byte} {m : Mode} {b : BayId}

/-! ## The withdrawal of a call (R11, R79) -/

theorem withdrawTin_back (ht : s.disp.tin = some t) : withdrawTin s = { s with
    jobs := if t.committed then s.jobs else returnTin t.jobId s.jobs
    disp := { s.disp with tin := none }
    events := unwanted s.events } := by
  rw [withdrawTin_some ht]
  cases t.committed <;> rfl

theorem withdrawTin_none (ht : s.disp.tin = none) : withdrawTin s = s := by
  unfold withdrawTin
  rw [ht]

theorem withdrawCall_eq : withdrawCall s = (withdrawTin s).mapDisp fun d => { d with st := .empty, resume := none } := rfl

theorem withdrawStandingCall_eq : withdrawStandingCall s =
    if s.disp.st = .called ∧ (s.mon.mode ≠ .run ∨ s.mon.safe = true) then withdrawCall s else s := by
  unfold withdrawStandingCall
  simp only [Bool.and_eq_true, Bool.or_eq_true, decide_eq_true_eq]

theorem returnTin_reserved (h : q.reserved? id = some j) : returnTin id q = { q with
    records := insertJob { j with issued := j.issued - 1 } q.records
    reserved := q.reserved.filter (·.id != id) } := by
  unfold returnTin
  rw [h]

theorem returnTin_record (h : ∀ j ∈ q.reserved, j.id ≠ id) : returnTin id q = { q with
    records := q.records.map fun k => if k.id == id then { k with issued := k.issued - 1 } else k } := by
  unfold returnTin
  rw [reserved?_none.2 h]

theorem returnTin_absent (h : ∀ j ∈ q.records ++ q.reserved, j.id ≠ id) : returnTin id q = q := by
  rw [returnTin_record fun j hj => h j (List.mem_append_right _ hj),
    map_absent (fun k => { k with issued := k.issued - 1 }) fun j hj => h j (List.mem_append_left _ hj)]

/-! ## MODE and the keepalive (R169, R180) -/

theorem modeOf_none (h : 2 < code.toNat) : modeOf code = none := by
  have hne {c : Byte} (hc : c.toNat ≤ 2) : ¬ code = c := fun heq => by subst heq; omega
  unfold modeOf
  rw [if_neg (hne (by decide)), if_neg (hne (by decide)), if_neg (hne (by decide))]

theorem ownMode_badField (h : 2 < code.toNat) : ownMode code u = refuse .badField u := by
  unfold ownMode
  rw [modeOf_none h]

theorem ownMode_eq (h : modeOf code = some m) : ownMode code u =
    if m = .run ∧ u.mon.safe = true then refuse .notPermitted u
    else if m = u.mon.mode then accept [] u
    else if m = .maint ∧ u.disp.st ≠ .empty ∧ u.disp.st ≠ .called then refuse .busy u
    else accept (bytesOf 1 (modeCode m)) (withdrawStandingCall { u with mon := { u.mon with mode := m } }) := by
  unfold ownMode
  rw [h]
  simp only [Bool.and_eq_true, decide_eq_true_eq, and_assoc]
  rfl

theorem keepaliveLost_running (h : s.mon.keepalive ≠ some 0) : keepaliveLost s = s := if_neg h

theorem keepaliveLost_expired (h : s.mon.keepalive = some 0) : keepaliveLost s = withdrawStandingCall { s with
    mon := { s.mon with keepalive := none, safe := true }
    events := { s.events with flags := s.events.flags ||| BitVec.twoPow 15 10 } } := if_pos h

/-- Settles O31: the answers of MODE, the keepalive's expiry, and what a withdrawal gives back. -/
theorem modeAndKeepaliveHoldCalls : Obligations.ModeAndKeepaliveHoldCalls := by
  unfold Obligations.ModeAndKeepaliveHoldCalls
  refine ⟨fun code s u hs hu => ?mode, fun s ho hk => (exec_whenOnline _ ho).trans (by rw [keepaliveLost_running hk]),
    fun s ho hk => (exec_whenOnline _ ho).trans ?_, fun s => ⟨fun t ht => ⟨withdrawTin_back ht, ?_⟩, fun ht =>
    ⟨withdrawTin_none ht, ?_⟩⟩, fun q id => ⟨fun j hj => returnTin_reserved hj, returnTin_record, returnTin_absent⟩⟩
  case mode =>
    subst hu
    have answer {st : Status} {payload : List Byte} {t : State}
        (ha : ownMode code (restartKeepalive s) = { status := st, payload := payload, after := t }) :
        exec (.mode code) s = .next (settle (withResponse 0x11 st payload s.port.overrun t)) :=
      exec_done (r := .mode code) rfl hs.1 (.inl hs.2) ha
    refine ⟨fun hcode => answer (ownMode_badField hcode), fun m hm => ⟨fun hrun hsafe => answer ?_,
      fun hmaint hne h1 h2 => answer ?_, fun hfree hsame => answer ?_, fun hfree hother hmaint => answer ?_⟩⟩
    all_goals rw [ownMode_eq hm]
    · exact if_pos ⟨hrun, hsafe⟩
    · rw [if_neg (by rw [hmaint]; simp), if_neg (by rw [hmaint]; exact fun h => hne h.symm)]
      exact if_pos ⟨hmaint, h1, h2⟩
    · rw [if_neg hfree]
      exact if_pos hsame.symm
    · have hbay : ¬ (m = .maint ∧ (restartKeepalive s).disp.st ≠ .empty ∧ (restartKeepalive s).disp.st ≠ .called) :=
        fun h => (hmaint h.1).elim h.2.1 h.2.2
      rw [if_neg hfree, if_neg fun h => hother h.symm, if_neg hbay, withdrawStandingCall_eq]
      rfl
  · rw [keepaliveLost_expired hk, withdrawStandingCall_eq]
    simp
  · rw [withdrawCall_eq, withdrawTin_back ht]
    rfl
  · rw [withdrawCall_eq, withdrawTin_none ht]
    rfl

end Sys2Proof.Proofs
end

