-- ==== Sys2Proof/Proofs/FaultClearing.lean ====
section
/-! PROOF. CLEAR_FAULT of a bay and of the station, and RESUME (R93, R118, R171, R174, R176, R181). -/

namespace Sys2Proof.Proofs

open Sys2Proof Sys2Proof.Machine Sys2Proof.Safety Sys2Proof.Laws

variable {s u v : State} {t : TinRecord} {b : BayId} {code : Byte}

/-! ## Stops -/

theorem stopStands_iff : u.stopStands = true ↔ u.mon.estop = true ∨ (u.cfg.general.scope = .station ∧
    (u.mon.faultD.isSome = true ∨ u.mon.faultL.isSome = true ∨ u.mon.faultS.isSome = true)) := by
  simp only [State.stopStands, State.stationStop, State.anyFault, Bool.or_eq_true, Bool.and_eq_true, decide_eq_true_eq,
    or_assoc]
  exact or_comm

theorem resumeDisp_stopped (h : v.stopStands = true) : resumeDisp v = v := by simp [resumeDisp, dispMayResume, h]
theorem resumeLid_stopped (h : v.stopStands = true) : resumeLid v = v := by simp [resumeLid, lidMayResume, h]
theorem resumeShake_stopped (h : v.stopStands = true) : resumeShake v = v := by simp [resumeShake, shakeMayResume, h]

theorem resolveCarriage_unresolved (h : v.mon.estop = true ∨ v.carriage.st ≠ .jammed) : resolveCarriage v = v :=
  if_neg (by rcases h with h | h <;> simp [h])

/-! ## The steps of a clearing (R93, R118, R174) -/

theorem clearJam_eq (b : BayId) (u : State) : clearJam b u = { u with
    carriage :=
      if u.carriage.charge = some b ∧ u.carriage.cause = some .transfer then { u.carriage with cause := none }
      else u.carriage } := by
  unfold clearJam State.mapCarriage
  simp only [Bool.and_eq_true, decide_eq_true_eq]

theorem clearJam_other (h : u.carriage.cause ≠ some .transfer) : clearJam b u = u := by
  rw [clearJam_eq, if_neg fun hc => h hc.2]

theorem holdCleared_free (h : ¬ u.stopStands = true) : holdCleared b u = u := if_neg h

theorem holdCleared_held (h : u.stopStands = true) : holdCleared b u = match b with
    | .dispense => { u with disp := if u.disp.st = .fault then { u.disp with st := .stopped } else u.disp }
    | .lid => { u with lid := if u.lid.st = .fault then { u.lid with st := .stopped } else u.lid }
    | .shake => { u with shake := if u.shake.st = .fault then { u.shake with st := .stopped } else u.shake } := by
  unfold holdCleared
  rw [if_pos h]
  cases b <;> rfl

theorem closeFound_dispense : closeFound .dispense u =
    if u.disp.lost = true ∧ u.disp.recWait = false then closeLost u else u := by
  unfold closeFound
  simp only [decide_true, Bool.true_and, Bool.and_eq_true, Bool.not_eq_true']

theorem closeFound_other (h : b ≠ .dispense) : closeFound b u = u := if_neg (by simp [h])

theorem finishLost_iff (v : State) :
    let finishes := v.disp.st = .fault ∧ v.disp.lost = true ∧ v.mon.faultD = none ∧ v.disp.tin = none ∧
      v.inputs.presDispense = false ∧ v.mon.estop = false
    (finishes → finishLost v = { v with
      disp := { v.disp with st := .empty, resume := none, step := none, lost := false, removed := false } }) ∧
    (¬ finishes → finishLost v = v) := by
  have hcond : (v.disp.st = .fault && v.disp.lost && v.mon.faultD.isNone && v.disp.tin.isNone &&
      !v.inputs.presDispense && !v.mon.estop) = true ↔ v.disp.st = .fault ∧ v.disp.lost = true ∧ v.mon.faultD = none ∧
      v.disp.tin = none ∧ v.inputs.presDispense = false ∧ v.mon.estop = false := by simp [and_assoc]
  exact ⟨fun h => if_pos (hcond.2 h), fun h => if_neg (mt hcond.1 h)⟩

/-! ## CLEAR_FAULT of a bay (R174) -/

theorem clearBay_none (h : u.fault b = none) : clearBay b u = u := if_pos (by rw [h]; rfl)

theorem clearBay_some (h : (u.fault b).isSome = true) : clearBay b u = resumeDisp (closeFound b (resumeLid (resumeShake
    (resolveCarriage (holdCleared b (clearJam b (u.setFault b none))))))) := by
  unfold clearBay
  exact if_neg (by simpa [Option.isSome_iff_ne_none] using h)

/-- A clearing while a stop stands leaves the bay STOPPED, and nothing resumes. -/
theorem clearBay_stopped {w : State} (h : (u.fault b).isSome = true)
    (hheld : holdCleared b (clearJam b (u.setFault b none)) = w) (hstop : w.stopStands = true)
    (hcar : w.mon.estop = true ∨ w.carriage.st ≠ .jammed) (hfound : b = .dispense → w.disp.lost = false) :
    clearBay b u = w := by
  have hclose : closeFound b w = w := by
    cases b with
    | dispense => rw [closeFound_dispense, if_neg (by simp [hfound rfl])]
    | lid => exact closeFound_other (by decide)
    | shake => exact closeFound_other (by decide)
  rw [clearBay_some h, hheld, resolveCarriage_unresolved hcar, resumeShake_stopped hstop, resumeLid_stopped hstop, hclose,
    resumeDisp_stopped hstop]

section Held

variable (hjam : u.carriage.cause ≠ some .transfer) (hcar : u.mon.estop = true ∨ u.carriage.st ≠ .jammed)
include hjam hcar

theorem clearBay_dispense_held (hf : u.mon.faultD.isSome = true) (hstop : (u.setFault .dispense none).stopStands = true)
    (hst : u.disp.st = .fault) (hlost : u.disp.lost = false) : clearBay .dispense u =
      { u with mon := { u.mon with faultD := none }, disp := { u.disp with st := .stopped } } := by
  refine clearBay_stopped hf ?_ hstop hcar fun _ => hlost
  rw [clearJam_other (u := u.setFault .dispense none) hjam, holdCleared_held hstop]
  exact congrArg (fun d => { u with mon := { u.mon with faultD := none }, disp := d }) (if_pos hst)

theorem clearBay_lid_held (hf : u.mon.faultL.isSome = true) (hstop : (u.setFault .lid none).stopStands = true)
    (hst : u.lid.st = .fault) : clearBay .lid u =
      { u with mon := { u.mon with faultL := none }, lid := { u.lid with st := .stopped } } := by
  refine clearBay_stopped hf ?_ hstop hcar fun h => absurd h (by decide)
  rw [clearJam_other (u := u.setFault .lid none) hjam, holdCleared_held hstop]
  exact congrArg (fun d => { u with mon := { u.mon with faultL := none }, lid := d }) (if_pos hst)

theorem clearBay_shake_held (hf : u.mon.faultS.isSome = true) (hstop : (u.setFault .shake none).stopStands = true)
    (hst : u.shake.st = .fault) : clearBay .shake u =
      { u with mon := { u.mon with faultS := none }, shake := { u.shake with st := .stopped } } := by
  refine clearBay_stopped hf ?_ hstop hcar fun h => absurd h (by decide)
  rw [clearJam_other (u := u.setFault .shake none) hjam, holdCleared_held hstop]
  exact congrArg (fun d => { u with mon := { u.mon with faultS := none }, shake := d }) (if_pos hst)

end Held

theorem codeOf_bay (h : code.toNat = match b with | .dispense => 0 | .lid => 1 | .shake => 2) :
    ownClearFault code u = accept [] (clearBay b u) := by
  have hcode {c : Byte} (hc : code.toNat = c.toNat) : code = c := BitVec.eq_of_toNat_eq hc
  cases b with
  | dispense =>
    obtain rfl : code = 0 := hcode h
    rfl
  | lid =>
    obtain rfl : code = 1 := hcode h
    rfl
  | shake =>
    obtain rfl : code = 2 := hcode h
    rfl

theorem ownClearFault_badField (h : 3 < code.toNat) : ownClearFault code u = refuse .badField u := by
  have hne {c : Byte} (hc : c.toNat ≤ 3) : ¬ code = c := fun heq => by subst heq; omega
  unfold ownClearFault
  rw [if_neg (hne (by decide)), if_neg (hne (by decide)), if_neg (hne (by decide)), if_neg (hne (by decide))]

/-! ## CLEAR_FAULT of the station (R176) -/

theorem ownClearStation_eq : ownClearStation u =
    if u.mon.estop = true ∧ u.inputs.estop = true then refuse .busy u else accept [] (clearStation u) := by
  unfold ownClearStation
  simp only [Bool.and_eq_true]

theorem ownClearStation_done (h : ¬ (u.mon.estop = true ∧ u.inputs.estop = true)) (ht : clearStation u = v) :
    ownerAnswer (.clearFault 3) u = { status := .ok, payload := [], after := v } := by
  subst ht
  exact ownClearStation_eq.trans (if_neg h)

theorem ownClearStation_busy (h : u.mon.estop = true ∧ u.inputs.estop = true) :
    ownerAnswer (.clearFault 3) u = { status := .busy, payload := [], after := u } :=
  ownClearStation_eq.trans (if_pos h)

/-- The station without ESTOP and the jam it caused. -/
def estopCleared (u : State) : State :=
  { u with
    mon := { u.mon with estop := false }
    carriage := if u.carriage.cause = some .estop then { u.carriage with cause := none } else u.carriage }

theorem clearStation_stopped (h : u.mon.estop = true) : clearStation u =
    finishLost (resumeDisp (resumeLid (resumeShake (resolveCarriage (estopCleared u))))) := if_pos h

theorem clearStation_free (h : u.mon.estop = false) : clearStation u = u := if_neg (by simp [h])

theorem clearStation_held (h : u.mon.estop = true) (hstop : (estopCleared u).stopStands = true)
    (hcar : u.carriage.st ≠ .jammed) (hcause : u.carriage.cause = none) :
    clearStation u = finishLost { u with mon := { u.mon with estop := false } } := by
  have hcleared : estopCleared u = { u with mon := { u.mon with estop := false } } := by
    unfold estopCleared
    rw [if_neg (by simp [hcause])]
  rw [clearStation_stopped h, resolveCarriage_unresolved (.inr (by rw [hcleared]; exact hcar)), resumeShake_stopped hstop,
    resumeLid_stopped hstop, resumeDisp_stopped hstop, hcleared]

/-- Settles O32: each clearing's steps, and what a stop that stands lets them do. -/
theorem faultsAreCleared : Obligations.FaultsAreCleared := by
  unfold Obligations.FaultsAreCleared
  rintro s u hs rfl
  generalize hu : restartKeepalive s = u
  have answer {c : Instr} {r : Request} {st : Status} {t : State} (hc : requestOfCommand c = some r)
      (ha : ownerAnswer r u = { status := st, payload := [], after := t }) :
      exec c s = .next (settle (withResponse (requestKind r) st [] s.port.overrun t)) := by
    subst hu
    exact exec_done hc hs.1 (.inl hs.2) ha
  have clears {b : BayId} {code : Byte} {t : State} (hcode : code.toNat = match b with
      | .dispense => 0 | .lid => 1 | .shake => 2) (h : clearBay b u = t) :
      exec (.clearFault code) s = .next (settle (withResponse 0x12 .ok [] s.port.overrun t)) :=
    answer (r := .clearFault code) rfl ((codeOf_bay hcode).trans (by rw [h]; rfl))
  have hstation : ∀ c : Instr, c = .clearFaultStation ∨ c = .clearFault 3 → requestOfCommand c = some (.clearFault 3) := by
    rintro c (rfl | rfl) <;> rfl
  refine ⟨fun code b hcode => ⟨fun hf => clears hcode (clearBay_none hf), fun hf => clears hcode (clearBay_some hf)⟩,
    fun hestop hcause => ⟨fun hf hst hlost => ?d1, fun hf hst => ?l1, fun hf hst => ?s1⟩,
    fun hestop hscope hcar hcause => ⟨fun hf hother hst hlost => ?d2, fun hf hother hst => ?l2, fun hf hother hst => ?s2⟩,
    fun b => ⟨clearJam_eq b u, fun hno => holdCleared_free (mt stopStands_iff.1 hno),
      fun hstands => holdCleared_held (stopStands_iff.2 hstands)⟩,
    fun c hc => ⟨fun hestop hin => ?busy, fun hestop => ?clear, fun hestop hin => ?cleared,
      fun hestop hin hscope hf hcar hcause hD hst hlost htin hpres => ?finished⟩, finishLost_iff,
    ⟨closeFound_dispense, closeFound_other (by decide), closeFound_other (by decide)⟩,
    fun t ht => ⟨fun hshot => (closeLost_some ht).trans (if_pos hshot), fun hshot => (closeLost_some ht).trans
      (if_neg (by simp [hshot]))⟩,
    fun code hcode => answer (r := .clearFault code) rfl (ownClearFault_badField hcode), answer (r := .resume) rfl rfl⟩
  case d1 =>
    exact clears (b := .dispense) rfl
      (clearBay_dispense_held hcause (.inl hestop) hf (stopStands_iff.2 (.inl hestop)) hst hlost)
  case l1 => exact clears (b := .lid) rfl (clearBay_lid_held hcause (.inl hestop) hf (stopStands_iff.2 (.inl hestop)) hst)
  case s1 =>
    exact clears (b := .shake) rfl (clearBay_shake_held hcause (.inl hestop) hf (stopStands_iff.2 (.inl hestop)) hst)
  case d2 =>
    exact clears (b := .dispense) rfl (clearBay_dispense_held (by simp [hcause]) (.inr hcar) hf
      (stopStands_iff.2 (.inr ⟨hscope, .inr hother⟩)) hst hlost)
  case l2 =>
    exact clears (b := .lid) rfl (clearBay_lid_held (by simp [hcause]) (.inr hcar) hf
      (stopStands_iff.2 (.inr ⟨hscope, hother.imp id .inr⟩)) hst)
  case s2 =>
    exact clears (b := .shake) rfl (clearBay_shake_held (by simp [hcause]) (.inr hcar) hf
      (stopStands_iff.2 (.inr ⟨hscope, hother.imp id .inl⟩)) hst)
  case busy =>
    exact answer (r := .clearFault 3) (hstation c hc) (ownClearStation_busy ⟨hestop, hin⟩)
  case clear =>
    exact answer (r := .clearFault 3) (hstation c hc) (ownClearStation_done (by simp [hestop]) (clearStation_free hestop))
  case cleared =>
    exact answer (r := .clearFault 3) (hstation c hc) (ownClearStation_done (by simp [hin]) (clearStation_stopped hestop))
  case finished =>
    refine answer (r := .clearFault 3) (hstation c hc) (ownClearStation_done (by simp [hin]) ?_)
    rw [clearStation_held hestop (stopStands_iff.2 (.inr ⟨hscope, .inr hf⟩)) hcar hcause]
    exact (finishLost_iff { u with mon := { u.mon with estop := false } }).1 ⟨hst, hlost, hD, htin, hpres, rfl⟩

end Sys2Proof.Proofs
end

