-- ==== Sys2Proof/Proofs/DispenseResumption.lean ====
section
/-! PROOF. The resumption of the dispense bay, state by state (R79, R93 to R96, R108, R118). -/

namespace Sys2Proof.Proofs

open Sys2Proof Sys2Proof.Machine Sys2Proof.Safety Sys2Proof.Laws

variable {s v : State} {t : TinRecord} {r : DispState} {i : Nat} {l : LineEntry}

/-! ## Whether the bay resumes (R95, R173) -/

theorem dispMayResume_iff : dispMayResume s = true ↔
    (s.disp.st = .stopped ∨ (s.disp.st = .fault ∧ s.mon.faultD = none)) ∧ s.stationStop = false ∧ s.mon.estop = false := by
  simp [dispMayResume, State.stopStands]

theorem resumeDisp_held (h : dispMayResume s = false) : resumeDisp s = s := if_neg (by simp [h])

theorem resumeDisp_point (h : dispMayResume s = true) (hl : s.disp.lost = false) (hc : dispCancelled s = false)
    (hr : s.disp.resume = some r) : resumeDisp s = resumeDispAt r s := by
  unfold resumeDisp
  rw [if_pos h, if_neg (by simp [hl]), if_neg (by simp [hc]), hr]
  rfl

/-! ## The resume points (R95, R108, R118) -/

/-- The bay is back at its resume point. -/
def dispBack (r : DispState) (s : State) : State :=
  { s with disp := { s.disp with st := r, resume := none, removed := false } }

section Lines

variable (hline : activeLine s = some (i, l))
include hline

theorem resumeLine_weighed (hstep : s.disp.step = some .interrupted) (htol : (l.plan.bind (·.tol)).isSome = true) :
    resumeLine s = openRequest { s with disp := { s.disp with step := some .verify } } := by
  unfold resumeLine
  rw [hline]
  dsimp only
  rw [hstep]
  exact if_pos htol

theorem resumeLine_volumetric (hstep : s.disp.step = some .interrupted) (htol : l.plan.bind (·.tol) = none) :
    resumeLine s = selectLine (finishLine i .interrupted s) := by
  unfold resumeLine
  rw [hline]
  dsimp only
  rw [hstep]
  exact if_neg (by simp [htol])

theorem resumeLine_verify (hstep : s.disp.step = some .verify) : resumeLine s = openRequest s := by
  unfold resumeLine
  rw [hline]
  dsimp only
  rw [hstep]

theorem resumeLine_selection (hstep : s.disp.step = some .selection) : resumeLine s =
    selectLine (mapEntryAt i (fun l => { l with st := .pending }) (s.mapDisp fun d => { d with step := none })) := by
  unfold resumeLine
  rw [hline]
  dsimp only
  rw [hstep]

end Lines

theorem resumeLine_none (hline : activeLine s = none) : resumeLine s = selectLine s := by
  unfold resumeLine
  rw [hline]

theorem callStands_iff : callStands s = true ↔ s.mon.mode = .run ∧ s.mon.safe = false := by simp [callStands]

theorem returnToCalled_eq : returnToCalled s =
    if s.disp.tin = none then dispBack .empty s
    else if ¬ (s.mon.mode = .run ∧ s.mon.safe = false) then
      withdrawCall { s with disp := { s.disp with removed := false } }
    else if s.inputs.presDispense = true then openRequest (dispBack .tare s)
    else dispBack .called s := by
  unfold returnToCalled
  simp only [Option.isNone_iff_eq_none, Bool.not_eq_true', ← callStands_iff, Bool.not_eq_true]
  rfl

theorem resumeDispAt_wrongTin : resumeDispAt .wrongTin s =
    if s.disp.removed = true ∨ s.inputs.presDispense = false then returnToCalled s else dispBack .wrongTin s := by
  unfold resumeDispAt
  simp only [Bool.or_eq_true, Bool.not_eq_true']
  rfl

theorem resumeDispAt_orphan : resumeDispAt .orphan s =
    if s.disp.removed = true ∨ s.inputs.presDispense = false then dispBack .empty s else dispBack .orphan s := by
  unfold resumeDispAt
  simp only [Bool.or_eq_true, Bool.not_eq_true']
  rfl

theorem resumeDispAt_empty : resumeDispAt .empty s =
    if s.inputs.presDispense = true ∧ s.disp.placed = true then setFlag .tinWrong (dispBack .empty s)
    else dispBack .empty s := by
  unfold resumeDispAt
  simp only [Bool.and_eq_true]
  rfl

theorem resumeDispAt_calEnd : resumeDispAt .calEnd s =
    { s with disp := calLeft s.inputs.presDispense (dispBack .calEnd s).disp } := calEnded_look (v := dispBack .calEnd s) rfl rfl

/-! ## Cancelled and lost tins (R93, R96) -/

/-- The bay waits for its cancelled tin to be lifted. -/
def awaitsLift (s : State) : State :=
  { s with
    stir := { s.stir with pre := [] }
    scale := { s.scale with request := none }
    disp := { s.disp with st := .cancelled, resume := none, step := none, removed := false, quiet := false } }

theorem enterCancelled_marked (ht : s.disp.tin = some t) (hc : t.cancelled = true) : enterCancelled s =
    if s.disp.recWait = true then drainDisp (awaitsLift s)
    else if s.disp.removed = true ∨ s.inputs.presDispense = false then closeDispRecord (awaitsLift s)
    else awaitsLift s := by
  have hmark : s.disp.tin.map (fun t => { t with cancelled := true }) = s.disp.tin := by
    rw [ht, Option.map_some, ← hc]
  have hbay : (((dropPre (closeRequest s)).mapDisp fun d =>
      { d with st := .cancelled, resume := none, step := none, removed := false }).mapTin .dispense fun t =>
      { t with cancelled := true }) = awaitsLift s :=
    congrArg (fun tin => { awaitsLift s with disp := { (awaitsLift s).disp with tin := tin } }) hmark
  unfold enterCancelled
  dsimp only
  rw [hbay]
  simp only [Bool.or_eq_true, Bool.not_eq_true']

theorem resumeDisp_cancelled (h : dispMayResume s = true) (hl : s.disp.lost = false) (ht : s.disp.tin = some t)
    (hc : t.cancelled = true) (hline : activeLine s = none) : resumeDisp s = enterCancelled s := by
  have hmark : dispCancelled s = true := by
    unfold dispCancelled
    rw [ht]
    exact hc
  unfold resumeDisp
  rw [if_pos h, if_neg (by simp [hl]), if_pos hmark, loseLine_none hline]

/-- The bay of a lost tin, back in FAULT. -/
def lostBay (s : State) : State := { s with disp := { s.disp with st := .fault } }

theorem resumeDisp_lost (h : dispMayResume s = true) (hl : s.disp.lost = true) :
    resumeDisp s = finishLost (drainDisp (lostBay s)) := by
  unfold resumeDisp
  rw [if_pos h, if_pos hl]
  rfl

theorem drainDisp_none (ht : s.disp.tin = none) : drainDisp s = s := by
  unfold drainDisp
  rw [ht]

theorem drainDisp_full (h : 16 ≤ s.completion.length) : drainDisp s = s := by
  have hno : hasRoom s = false := Bool.eq_false_iff.2 fun hr => absurd (hasRoom_iff.1 hr) (by omega)
  unfold drainDisp
  rw [hno]
  split <;> simp

/-- Settles O33: every resume point, and the bays of cancelled and of lost tins. -/
theorem dispenseBayResumes : Obligations.DispenseBayResumes := by
  unfold Obligations.DispenseBayResumes
  refine ⟨fun s => dispMayResume_iff, fun s => resumeDisp_held, fun s r h hl hc hr => ?points,
    fun s t h hl ht hcan hop hline => ?cancelled, fun s h hl => ?lost, fun s ht => ⟨fun hroom => ?_, fun hfull => ?_⟩⟩
  case points =>
    intro back weigh gone here lines stands
    have at_ {w : State} (hw : resumeDispAt r s = w) : resumeDisp s = w := (resumeDisp_point h hl hc hr).trans hw
    have hcalled (hr : r = .called ∨ r = .wrongTin ∧ gone) : resumeDispAt r s = returnToCalled s := by
      rcases hr with rfl | ⟨rfl, hg⟩
      · rfl
      · exact resumeDispAt_wrongTin.trans (if_pos hg)
    have hnotgone (hh : here) : ¬ gone := by
      rintro (hg | hg)
      · exact absurd (hh.1.symm.trans hg) (by decide)
      · exact absurd (hh.2.symm.trans hg) (by decide)
    refine ⟨fun hr => at_ (by rw [hr]; rfl), fun hr => at_ ?_, fun i l hr hline => ?_,
      fun hr hp => at_ (by subst hr; exact if_pos hp), fun hr hp => at_ (by subst hr; exact if_neg (by simp [hp])),
      fun hr => at_ (by rw [hr]; rfl), fun hr => ?_, fun hr hh => at_ ?_, fun hr hg => at_ ?_, fun hr hp hplaced => at_ ?_,
      fun hr hno => at_ ?_, fun hr hp => at_ ?_, fun hr hp => at_ ?_⟩
    · rcases hr with ⟨rfl, hline⟩ | rfl
      · exact resumeLine_none (s := dispBack .dispensing s) hline
      · rfl
    · subst hr
      exact ⟨fun hstep htol => at_ (resumeLine_weighed (s := dispBack .dispensing s) hline hstep htol),
        fun hstep htol => at_ (resumeLine_volumetric (s := dispBack .dispensing s) hline hstep htol),
        fun hstep => at_ (resumeLine_verify (s := dispBack .dispensing s) hline hstep),
        fun hstep => at_ (resumeLine_selection (s := dispBack .dispensing s) hline hstep)⟩
    · have back' {w : State} (hw : returnToCalled s = w) : resumeDisp s = w := at_ ((hcalled hr).trans hw)
      rw [returnToCalled_eq] at back'
      refine ⟨fun ht => back' (if_pos ht), fun ht hno => back' ?_, fun ht hstands hp => back' ?_,
        fun ht hstands hp => back' ?_⟩
      all_goals rw [if_neg (Option.isSome_iff_ne_none.1 ht)]
      · exact if_pos hno
      · rw [if_neg (not_not.2 hstands)]
        exact if_pos hp
      · rw [if_neg (not_not.2 hstands)]
        exact if_neg (by simp [hp])
    · rcases hr with rfl | rfl
      · exact resumeDispAt_wrongTin.trans (if_neg (hnotgone hh))
      · exact resumeDispAt_orphan.trans (if_neg (hnotgone hh))
    · subst hr
      exact resumeDispAt_orphan.trans (if_pos hg)
    · subst hr
      exact resumeDispAt_empty.trans (if_pos ⟨hp, hplaced⟩)
    · subst hr
      refine resumeDispAt_empty.trans (if_neg ?_)
      rcases hno with hno | hno <;> simp [hno]
    · subst hr
      rw [resumeDispAt_calEnd, hp]
      rfl
    · subst hr
      rw [resumeDispAt_calEnd, hp]
      rfl
  case cancelled =>
    intro u
    rw [resumeDisp_cancelled h hl ht hcan hline, enterCancelled_marked ht hcan]
    refine ⟨fun hrem hp hrec => ?_, fun hgone hrec => ?_, fun hrec => if_pos hrec⟩
    · rw [if_neg (by simp [hrec])]
      exact if_neg (by simp [hrem, hp])
    · rw [if_neg (by simp [hrec])]
      exact if_pos hgone
  case lost =>
    obtain ⟨-, -, hestop⟩ := dispMayResume_iff.1 h
    rw [resumeDisp_lost h hl]
    refine ⟨fun ht hf hp => ?_, fun ht hp => ?_, fun hrec ht hfull => ?_⟩
    · rw [drainDisp_none (s := lostBay s) ht]
      exact (finishLost_iff (lostBay s)).1 ⟨rfl, hl, hf, ht, hp, hestop⟩
    · rw [drainDisp_none (s := lostBay s) ht]
      exact (finishLost_iff (lostBay s)).2 fun hfin => absurd (hp.symm.trans hfin.2.2.2.2.1) (by decide)
    · rw [drainDisp_full (s := lostBay s) hfull]
      exact (finishLost_iff (lostBay s)).2 fun hfin => Option.isSome_iff_ne_none.1 ht hfin.2.2.2.1
  · obtain ⟨x, hx⟩ := Option.isSome_iff_exists.1 ht
    exact (closeDispRecord_room hx hroom).trans (drainDisp_joins (s := waits s) hroom hx rfl).symm
  · exact closeDispRecord_full hfull

end Sys2Proof.Proofs
end

