-- ==== Sys2Proof/Proofs/LidAndShakeResumption.lean ====
section
/-! PROOF. The resumption of the lid bay and of the shake bay (R121, R125, R126, R131 to R134, R203). -/

namespace Sys2Proof.Proofs

open Sys2Proof Sys2Proof.Machine Sys2Proof.Safety Sys2Proof.Laws

variable {s v : State} {t : TinRecord}

/-! ## Whether the bays resume -/

theorem lidMayResume_iff : lidMayResume s = true ↔ (s.lid.st = .stopped ∨ (s.lid.st = .fault ∧ s.mon.faultL = none)) ∧
    s.stationStop = false ∧ s.mon.estop = false ∧ s.lid.homeCheck = false := by
  simp [lidMayResume, State.stopStands, and_assoc]

theorem shakeMayResume_iff : shakeMayResume s = true ↔
    (s.shake.st = .stopped ∨ (s.shake.st = .fault ∧ s.mon.faultS = none)) ∧
    s.stationStop = false ∧ s.mon.estop = false ∧ s.shake.turning = false := by
  simp [shakeMayResume, State.stopStands, and_assoc]

theorem resumeLid_held (h : lidMayResume s = false) : resumeLid s = s := if_neg (by simp [h])

theorem resumeShake_held (h : shakeMayResume s = false) : resumeShake s = s := if_neg (by simp [h])

theorem resumeLid_point {r : LidState} (h : lidMayResume s = true) (hr : s.lid.resume = some r)
    (hlost : ∀ t : TinRecord, s.lid.tin = some t → t.lost = false) : resumeLid s = resumeLidAt r s := by
  unfold resumeLid
  rw [if_pos h, hr]
  cases ht : s.lid.tin with
  | none => rfl
  | some t => exact if_neg (by simp [hlost t ht])

theorem resumeShake_point {r : ShakeState} (h : shakeMayResume s = true) (hr : s.shake.resume = some r)
    (hlost : ∀ t : TinRecord, s.shake.tin = some t → t.lost = false) : resumeShake s = resumeShakeAt r s := by
  unfold resumeShake
  rw [if_pos h, hr]
  cases ht : s.shake.tin with
  | none => rfl
  | some t => exact if_neg (by simp [hlost t ht])

/-! ## The lid bay's resume points (R125) -/

/-- The lid bay is back at its resume point. -/
def lidBack (r : LidState) (s : State) : State := { s with lid := { s.lid with st := r, resume := none, removed := false } }

theorem homeCheck_home {t : TinRecord} (hp : s.inputs.pressHome = true) (ht : s.lid.tin = some t) (hl : t.lost = false) :
    homeCheck s = lidTest (giveUp .air { s with lid := { s.lid with home := none, homeCheck := false } }) := by
  have htin : (giveUp .air { s with lid := { s.lid with home := none, homeCheck := false } }).lid.tin = some t := by
    simpa using ht
  have hgo : homeCheck s = lidGoOn (giveUp .air { s with lid := { s.lid with home := none, homeCheck := false } }) :=
    if_pos hp
  rw [hgo]
  unfold lidGoOn
  rw [htin]
  exact if_neg (by simp [hl])

theorem homeCheck_away (hp : s.inputs.pressHome = false) :
    homeCheck s = { s with lid := { s.lid with home := some 0, homeCheck := true } } := if_neg (by simp [hp])

theorem loseLid_done (ht : s.lid.tin = some t) (hl : t.lost = false) (hst : s.lid.st = .done) : loseLid s = enterLidLost
    { s with lid := { s.lid with tin := some { t.note .tinLost with lost := true } } } := by
  have hmark : s.lid.tin.map (fun t => { t.note .tinLost with lost := true }) =
      some { t.note .tinLost with lost := true } := by
    rw [ht]
    rfl
  unfold loseLid
  rw [ht]
  dsimp only
  rw [if_neg (by simp [hl]), hst, ← hmark]
  rfl

theorem resumeLidAt_orphan : resumeLidAt .orphan s =
    if s.lid.removed = true ∨ s.inputs.presLid = false then lidBack .empty s else lidBack .orphan s := by
  unfold resumeLidAt
  simp only [Bool.or_eq_true, Bool.not_eq_true']
  rfl

theorem resumeLidAt_inbound : resumeLidAt .inbound s =
    if s.lid.tin.isSome then lidTest (lidBack .inbound s) else lidBack .inbound s := rfl

theorem lidTest_eq (ht : s.lid.tin = some t) : lidTest s =
    if s.lid.declared = some (s.cfg.sizes[t.size]).lidType ∧ s.inputs.magazine = true then enterAwaitAir s
    else enterAwaitLids s := by
  unfold lidTest
  rw [ht]
  simp only [lidTestPasses, Bool.and_eq_true, decide_eq_true_eq]

/-! ## The home check (R125) -/

theorem pressHomeSensed_check (hc : s.lid.homeCheck = true) (hst : s.lid.st ≠ .retract) : pressHomeSensed s =
    if (giveUp .air { s with lid := { s.lid with home := none, homeCheck := false } }).stopStands then
      giveUp .air { s with lid := { s.lid with home := none, homeCheck := false } }
    else lidGoOn (giveUp .air { s with lid := { s.lid with home := none, homeCheck := false } }) := by
  unfold pressHomeSensed
  rw [if_neg hst, if_pos hc]
  rfl

theorem lidGoOn_some (ht : s.lid.tin = some t) : lidGoOn s = if t.lost then enterLidLost s else lidTest s := by
  unfold lidGoOn
  rw [ht]

theorem homeExpires_check {n : Nat} (hc : s.lid.homeCheck = true) (hst : s.lid.st ≠ .retract) (hn : s.lid.home = some n)
    (hdue : 3000 ≤ n) : homeExpires s = latch .lid .pressHome (giveUp .air { s with lid := { s.lid with home := none } }) := by
  have hreached : reached Config.homeLimitMs s.lid.home = true := by
    rw [hn]
    exact decide_eq_true hdue
  unfold homeExpires
  rw [if_pos hreached]
  dsimp only
  rw [if_neg hst, if_pos hc]
  rfl

/-! ## A lost tin in the lid bay (R126) -/

theorem pressOut_iff : pressOut s = true ↔ s.lid.home.isSome = true ∨
    ((s.lid.resume = some .extend ∨ s.lid.resume = some .dwell ∨ s.lid.resume = some .retract) ∧
      s.inputs.pressHome = false) := by
  simp [pressOut, or_assoc]

theorem resumeLid_lost (h : lidMayResume s = true) (ht : s.lid.tin = some t) (hl : t.lost = true) :
    resumeLid s = resumeLostLid s := by
  unfold resumeLid
  rw [if_pos h, ht]
  exact if_pos hl

/-! ## The shake bay's resume points (R131 to R133, R203) -/

/-- The shake bay is back at its resume point. -/
def shakeBack (r : ShakeState) (s : State) : State :=
  { s with shake := { s.shake with st := r, resume := none, removed := false } }

/-- The clamp is driven closed on this tin. -/
def closing (t : TinRecord) (s : State) : State :=
  { s with shake := { s.shake with
    st := .clamp, resume := none, removed := false, tin := some t, clampDrive := .closing, clamp := some 0 } }

/-- The clamp is closed on this tin, and the spin-up draw asked for. -/
def clamped (t : TinRecord) (s : State) : State :=
  askClaim .power s.cfg.general.spinDraw { s with shake := { s.shake with
    st := .awaitPower, resume := none, removed := false, tin := some t, clampDrive := .off, clamp := none } }

theorem enterClamp_back (r : ShakeState) (ht : s.shake.tin = some t) : enterClamp (shakeBack r s) =
    if s.inputs.clampClosed = true then clamped t s else closing t s := by
  unfold closing clamped
  rw [← ht]
  rfl

theorem restartShake_back (r : ShakeState) (ht : s.shake.tin = some t) : restartShake (shakeBack r s) =
    if s.inputs.clampClosed = true then
      clamped { t with shake := some { t.shaken with restarts := min 255 (t.shaken.restarts + 1) } } s
    else closing { t with shake := some { t.shaken with restarts := min 255 (t.shaken.restarts + 1) } } s := by
  have htin : s.shake.tin.map (fun t =>
      { t with shake := some { t.shaken with restarts := min 255 (t.shaken.restarts + 1) } }) =
      some { t with shake := some { t.shaken with restarts := min 255 (t.shaken.restarts + 1) } } := by
    rw [ht]
    rfl
  unfold closing clamped
  rw [← htin]
  rfl

theorem resumeShakeAt_shake {r : ShakeState} (hr : r = .clamp ∨ r = .awaitPower ∨ r = .awaitQuiet ∨ r = .spinUp ∨
    r = .run ∨ r = .spinDown) : resumeShakeAt r s = restartShake (shakeBack r s) := by
  rcases hr with rfl | rfl | rfl | rfl | rfl | rfl <;> rfl

theorem resumeShakeAt_inbound : resumeShakeAt .inbound s =
    if s.shake.tin.isSome then enterClamp (shakeBack .inbound s) else shakeBack .inbound s := rfl

theorem enterUnclamp_open (h : s.inputs.clampClosed = false) : enterUnclamp s = { s with shake := { s.shake with
    st := if s.inputs.presShake = false ∨ (s.shake.joined = true ∧ s.shake.removed = true) then .empty else .awaitRemoval
    clampDrive := .off, clamp := none, resume := none, joined := false, removed := false } } := by
  unfold enterUnclamp afterUnclamp
  rw [if_neg (by simp [h])]
  unfold State.mapShake
  simp only [Bool.or_eq_true, Bool.and_eq_true, Bool.not_eq_true', or_comm]

theorem resumeShakeAt_awaitRemoval : resumeShakeAt .awaitRemoval s =
    if s.shake.removed = true ∨ s.inputs.presShake = false then shakeBack .empty s else shakeBack .awaitRemoval s := by
  unfold resumeShakeAt
  simp only [Bool.or_eq_true, Bool.not_eq_true']
  rfl

/-- The clamp is opened before the bay is empty. -/
def openingClamp (s : State) : State :=
  { s with shake := { s.shake with
    st := .unclamp, resume := none, removed := false, clampDrive := .opening, clamp := some 0 } }

theorem resumeShakeAt_empty : resumeShakeAt .empty s =
    if s.inputs.clampClosed = true then openingClamp s else shakeBack .empty s := by
  cases h : s.inputs.clampClosed
  · exact if_neg (by simp [h])
  · refine (if_pos h).trans ?_
    exact if_pos h

theorem resumeShakeAt_orphan : resumeShakeAt .orphan s =
    if s.shake.removed = true ∨ s.inputs.presShake = false then
      (if s.inputs.clampClosed = true then openingClamp s else shakeBack .empty s)
    else shakeBack .orphan s := by
  have hgone : shakeOrphanGone (shakeBack .orphan s) =
      if s.inputs.clampClosed = true then openingClamp s else shakeBack .empty s := by
    cases h : s.inputs.clampClosed
    · exact if_neg (by simp [shakeBack, h])
    · refine (if_pos h).trans ?_
      exact if_pos h
  rw [← hgone]
  unfold resumeShakeAt
  simp only [Bool.or_eq_true, Bool.not_eq_true']
  rfl

theorem resumeShake_lost (h : shakeMayResume s = true) (ht : s.shake.tin = some t) (hl : t.lost = true) :
    resumeShake s = enterAwaitRoom s := by
  unfold resumeShake
  rw [if_pos h, ht]
  exact if_pos hl

/-! ## A shaker that comes to rest (R132, R133) -/

theorem saturatedSpeed_held (hst : s.shake.st = .stopped ∨ s.shake.st = .fault) (hturn : s.shake.turning = true) :
    saturatedSpeed s = resumeShake (giveUp .power { s with
      scale := { s.scale with window := [], blank := some s.cfg.general.blankTime }
      shake := { s.shake with drive := .off, turning := false, lastSpeed := some 2000000 } }) := by
  unfold saturatedSpeed
  rcases hst with h | h <;> rw [h] <;> exact if_pos hturn

/-- Settles O34: the resume points of both bays, their lost tins, the home check and the shaker at rest. -/
theorem lidAndShakeBaysResume : Obligations.LidAndShakeBaysResume := by
  unfold Obligations.LidAndShakeBaysResume
  refine ⟨fun s => ⟨lidMayResume_iff, shakeMayResume_iff, resumeLid_held, resumeShake_held⟩,
    fun s r h hr hlost => ?lid, fun s t ht => ⟨fun hp => (lidTest_eq ht).trans (if_pos hp),
      fun hp => (lidTest_eq ht).trans (if_neg hp)⟩,
    fun s t ho hc hst ht => ?check, fun s t h ht hl => ?lost, fun s r h hr hlost => ?shake,
    fun s t => resumeShake_lost, fun s ho hst hturn => (exec_whenOnline _ ho).trans (by rw [saturatedSpeed_held hst hturn])⟩
  case lid =>
    have at_ {w : State} (hw : resumeLidAt r s = w) : resumeLid s = w := (resumeLid_point h hr hlost).trans hw
    refine ⟨fun hr => at_ ?_, fun hr => at_ ?_, fun hr => ?_, fun hr hp => at_ ?_, fun t hr hp ht => at_ ?_,
      fun hr hgone => at_ ?_, fun hr hrem hp => at_ ?_⟩
    · rcases hr with rfl | rfl | ⟨rfl, hnone⟩
      · rfl
      · rfl
      · exact resumeLidAt_inbound.trans (if_neg (by simp [hnone]))
    · rcases hr with ⟨rfl, hsome⟩ | rfl | rfl | rfl
      · exact resumeLidAt_inbound.trans (if_pos hsome)
      all_goals rfl
    · have hcheck : resumeLidAt r s = homeCheck s := by rcases hr with rfl | rfl | rfl <;> rfl
      refine ⟨fun hp hsome => at_ ?_, fun hp => at_ (hcheck.trans (homeCheck_away hp))⟩
      obtain ⟨t, ht⟩ := Option.isSome_iff_exists.1 hsome
      exact hcheck.trans (homeCheck_home hp ht (hlost t ht))
    · subst hr
      exact if_pos hp
    · subst hr
      exact (if_neg (by simp [hp])).trans (loseLid_done (s := lidBack .done s) ht (hlost t ht) rfl)
    · subst hr
      exact resumeLidAt_orphan.trans (if_pos hgone)
    · subst hr
      exact resumeLidAt_orphan.trans (if_neg (by simp [hrem, hp]))
  case check =>
    intro u stop
    have hsensed {w : State} (hw : pressHomeSensed (s.mapInputs fun i => { i with pressHome := true }) = w) :
        exec .pressHomeSensor s = .next (settle w) := (exec_whenSensed ho).trans (by rw [hw])
    have hpassed := pressHomeSensed_check (s := s.mapInputs fun i => { i with pressHome := true }) hc hst
    have hstands : u.stopStands = true ↔ stop := by
      simp [u, stop, State.stopStands, State.stationStop, State.anyFault]
    have htin : u.lid.tin = some t := by simpa [u] using ht
    refine ⟨fun hstop => hsensed (hpassed.trans (if_pos (hstands.2 hstop))), fun hno hl => hsensed ?_,
      fun hno hl => hsensed ?_, fun n hn hdue => (exec_whenOnline _ ho).trans (by rw [homeExpires_check hc hst hn hdue])⟩
    · refine hpassed.trans ((if_neg (mt hstands.1 hno)).trans ((lidGoOn_some htin).trans (if_neg (by simp [hl]))))
    · refine hpassed.trans ((if_neg (mt hstands.1 hno)).trans ((lidGoOn_some htin).trans (if_pos hl)))
  case lost =>
    intro stroke out
    rw [resumeLid_lost h ht hl]
    exact ⟨fun hout => if_pos (pressOut_iff.2 hout), fun hno => if_neg (mt pressOut_iff.1 hno)⟩
  case shake =>
    intro back closing' clamped' opening gone
    have at_ {w : State} (hw : resumeShakeAt r s = w) : resumeShake s = w := (resumeShake_point h hr hlost).trans hw
    refine ⟨fun t ht => ⟨fun hr => ?_, fun hr => ?_⟩, fun hr hnone => at_ ?_, fun hr => at_ (by rw [hr]; rfl),
      fun hr => ⟨fun hclosed => at_ ?_, fun hopen => at_ ?_⟩, fun hr hgone => at_ ?_, fun hr hno => at_ ?_, fun hr => ?_⟩
    · rw [resumeShakeAt_shake hr, restartShake_back r ht] at at_
      exact ⟨fun hopen => at_ (if_neg (by simp [hopen])), fun hclosed => at_ (if_pos hclosed)⟩
    · subst hr
      rw [resumeShakeAt_inbound, ht, if_pos (by rfl), enterClamp_back .inbound ht] at at_
      exact ⟨fun hopen => at_ (if_neg (by simp [hopen])), fun hclosed => at_ (if_pos hclosed)⟩
    · subst hr
      exact resumeShakeAt_inbound.trans (if_neg (by simp [hnone]))
    · subst hr
      exact if_pos hclosed
    · subst hr
      exact enterUnclamp_open hopen
    · subst hr
      exact resumeShakeAt_awaitRemoval.trans (if_pos hgone)
    · rcases hr with rfl | rfl
      · exact resumeShakeAt_awaitRemoval.trans (if_neg hno)
      · exact resumeShakeAt_orphan.trans (if_neg hno)
    · have hempty : resumeShakeAt r s = if s.inputs.clampClosed = true then openingClamp s else shakeBack .empty s := by
        rcases hr with rfl | ⟨rfl, hgone⟩
        · exact resumeShakeAt_empty
        · exact resumeShakeAt_orphan.trans (if_pos hgone)
      exact ⟨fun hclosed => at_ (hempty.trans (if_pos hclosed)), fun hopen => at_ (hempty.trans (if_neg (by simp [hopen])))⟩

end Sys2Proof.Proofs
end

