-- ==== Sys2Proof/Proofs/LatchedFaults.lean ====
section
/-! PROOF. A bay's first fault, the later ones, and the station stop (R98, R111, R171 to R173). -/

namespace Sys2Proof.Proofs

open Sys2Proof Sys2Proof.Machine Sys2Proof.Safety Sys2Proof.Laws

variable {s t : State} {b : BayId} {k : FaultKind}

/-! ## The halts of the other bays (R111, R125, R173) -/

theorem haltDisp_stays {dest : DispState} (h : s.disp.st = .fault ∨ s.disp.st = dest) : haltDisp dest s = s := by
  rw [haltDisp_eq, if_pos h]

/-- A calibration that runs is what a stopped bay resumes from as ended. -/
theorem abortCal_resume (hst : s.disp.st = .stopped) :
    (abortCal s).disp.resume = if calRunning s then some .calEnd else s.disp.resume := by
  unfold abortCal
  split
  · next hrun =>
    unfold calOutcome
    split
    · next hcal => simp [calRunning, hcal] at hrun
    · rw [calEnded_eq]
      · simp [hst, setFlag]
      · simp [hst, setFlag]
  · rfl

theorem judgePassed_resume : (judgePassed s).disp.resume = s.disp.resume := by
  rcases judgePassed_disp (s := s) with hd | hd <;> rw [hd]

theorem interruptShot_resting : (interruptShot s).disp.cal = s.disp.cal ∧ (interruptShot s).disp.st = s.disp.st := by
  rcases interruptShot_disp (s := s) with hd | ⟨i, hd⟩ <;> rw [hd] <;> exact ⟨rfl, rfl⟩

theorem haltDisp_stopped (hf : s.disp.st ≠ .fault) (hs : s.disp.st ≠ .stopped) :
    (haltDisp .stopped s).disp.st = .stopped ∧
    (haltDisp .stopped s).disp.resume = some (if calRunning s then .calEnd else s.disp.st) := by
  obtain ⟨hcal, hst⟩ := interruptShot_resting (s := s)
  have hrun : calRunning (haltedBay .stopped s) = calRunning s := by
    have hc : (haltedBay .stopped s).disp.cal = s.disp.cal := hcal
    unfold calRunning
    rw [hc]
  have hresume : (haltedBay .stopped s).disp.resume = some s.disp.st := by
    change (if (interruptShot s).disp.st = .stopped then _ else some (interruptShot s).disp.st) = _
    rw [hst, if_neg hs]
  have hafter : (abortCal (haltedBay .stopped s)).disp.resume = some (if calRunning s then .calEnd else s.disp.st) := by
    rw [abortCal_resume rfl, hrun, hresume]
    split <;> rfl
  refine ⟨by rw [haltDisp_st (.inl rfl), if_neg hf], ?_⟩
  rw [haltDisp_eq, if_neg (by simp [hf, hs])]
  split
  · rw [judgePassed_resume, hafter]
  · exact hafter

theorem haltLid_fault (hf : s.lid.st = .fault) (hc : s.lid.homeCheck = false) : haltLid .stopped false s = s := by
  unfold haltLid
  rw [if_neg (by simp [lidStandsStopped, hf, hc]), if_pos hf]

theorem haltLid_again (h : (s.lid.st = .fault ∧ s.lid.homeCheck = true) ∨ s.lid.st = .stopped) :
    (haltLid .stopped false s).lid = { s.lid with st := .stopped, homeCheck := false } := by
  have hstands : lidStandsStopped s = true := by rcases h with ⟨hf, hc⟩ | hs <;> simp [lidStandsStopped, *]
  unfold haltLid
  rw [if_pos (by simp [hstands])]
  rfl

/-- What a halt does to the stroke leaves the bay's state. -/
theorem haltStroke_st (e : Bool) : (haltStroke e s).lid.st = s.lid.st := by
  unfold haltStroke
  split
  case h_6 => split <;> rfl
  all_goals simp [retractPress]

theorem haltLid_working (hf : s.lid.st ≠ .fault) (hs : s.lid.st ≠ .stopped) :
    (haltLid .stopped false s).lid.st = .stopped ∧ (haltLid .stopped false s).lid.resume = some s.lid.st := by
  unfold haltLid
  rw [if_neg (by simp [lidStandsStopped, hf, hs]), if_neg hf]
  refine ⟨rfl, ?_⟩
  change (if (haltStroke false s).lid.st = .stopped then _ else some (haltStroke false s).lid.st) = _
  rw [haltStroke_st, if_neg hs]

theorem haltShake_stays (h : s.shake.st = .fault ∨ s.shake.st = .stopped) : haltShake .stopped false s = s :=
  if_pos (by simpa using h)

theorem haltShaker_st (e : Bool) : (haltShaker e s).shake.st = s.shake.st := by
  unfold haltShaker
  repeat' split
  all_goals simp [brake, blankTrigger]

theorem haltShake_working (hf : s.shake.st ≠ .fault) (hs : s.shake.st ≠ .stopped) :
    (haltShake .stopped false s).shake.st = .stopped ∧ (haltShake .stopped false s).shake.resume = some s.shake.st := by
  unfold haltShake
  rw [if_neg (by simp [hf, hs])]
  refine ⟨rfl, ?_⟩
  change (if (haltShaker false s).shake.st = .stopped then _ else some (haltShaker false s).shake.st) = _
  rw [haltShaker_st, if_neg hs]

/-! ## The bays a fault does not touch (R171 to R173) -/

/-- The fault reported and latched, its bay not yet halted. -/
def latched (b : BayId) (k : FaultKind) (s : State) : State := (reported b k s).setFault b (some k)

/-- Every bay but one stands as before. -/
structure OthersKept (b : BayId) (s t : State) : Prop where
  disp : b ≠ .dispense → t.disp = s.disp
  lid : b ≠ .lid → t.lid = s.lid
  shake : b ≠ .shake → t.shake = s.shake

theorem reported_others : OthersKept b s (reported b k s) := by
  cases b
  · exact ⟨fun h => absurd rfl h, fun _ => rfl, fun _ => rfl⟩
  · exact ⟨fun _ => rfl, fun h => absurd rfl h, fun _ => rfl⟩
  · exact ⟨fun _ => rfl, fun _ => rfl, fun h => absurd rfl h⟩

theorem faultBay_others : OthersKept b s (faultBay b (latched b k s)) := by
  cases b
  · exact ⟨fun h => absurd rfl h, fun _ => by simp [faultBay, latched, reported], fun _ => by simp [faultBay, latched, reported]⟩
  · exact ⟨fun _ => by simp [faultBay, latched, reported], fun h => absurd rfl h, fun _ => by simp [faultBay, latched, reported]⟩
  · exact ⟨fun _ => by simp [faultBay, latched, reported], fun _ => by simp [faultBay, latched, reported], fun h => absurd rfl h⟩

theorem latch_others (h : ¬ (s.cfg.general.scope = .station ∧ s.anyFault = false)) : OthersKept b s (latch b k s) := by
  cases hf : s.fault b with
  | some k' =>
    rw [latch_behind hf]
    exact reported_others
  | none =>
    rw [latch_first hf, if_neg h]
    exact faultBay_others

theorem stopOthers_disp (hb : b ≠ .dispense) : (stopOthers b s).disp = (haltDisp .stopped s).disp := by
  cases b
  · exact absurd rfl hb
  · simp [stopOthers]
  · simp [stopOthers]

theorem stopOthers_lid (hb : b ≠ .lid) : ∃ w, (stopOthers b s).lid = (haltLid .stopped false w).lid ∧ w.lid = s.lid := by
  cases b
  · exact ⟨haltShake .stopped false s, rfl, by simp⟩
  · exact absurd rfl hb
  · exact ⟨haltDisp .stopped s, rfl, by simp⟩

theorem stopOthers_shake (hb : b ≠ .shake) :
    ∃ w, (stopOthers b s).shake = (haltShake .stopped false w).shake ∧ w.shake = s.shake := by
  cases b
  · exact ⟨s, by simp [stopOthers], rfl⟩
  · exact ⟨haltDisp .stopped s, rfl, by simp⟩
  · exact absurd rfl hb

/-! ## The bay that faults (R171) -/

theorem faultBay_st : (b = .dispense → (faultBay b s).disp.st = .fault) ∧ (b = .lid → (faultBay b s).lid.st = .fault) ∧
    (b = .shake → (faultBay b s).shake.st = .fault) := by
  refine ⟨?_, ?_, ?_⟩ <;> rintro rfl
  · change (haltDisp .fault s).disp.st = _
    rw [haltDisp_st (.inr rfl), ite_self]
  · change (haltLid .fault false s).lid.st = _
    unfold haltLid
    rw [if_neg (by simp)]
    split
    · next hf => exact hf
    · rfl
  · change (haltShake .fault false s).shake.st = _
    unfold haltShake
    split
    · next hf => simpa using hf
    · rfl

theorem faultBay_mon : (faultBay b s).mon = s.mon := by cases b <;> simp [faultBay]

theorem haltShake_keepsBayFault (dest : ShakeState) (e : Bool) : KeepsBayFault s (haltShake dest e s) :=
  .of_events (by simp)

theorem faultBay_keepsBayFault : KeepsBayFault s (faultBay b s) := by
  cases b
  · exact haltDisp_keepsBayFault .fault
  · exact (haltLid_keepsBayFault .fault false).trans (.of_events rfl)
  · exact haltShake_keepsBayFault .fault false

theorem stopOthers_keepsFlag : KeepsBayFault s (stopOthers b s) := by
  cases b
  · exact stopOthers_keepsBayFault
  · exact (haltDisp_keepsBayFault .stopped).trans (haltShake_keepsBayFault _ _)
  · exact (haltDisp_keepsBayFault .stopped).trans (haltLid_keepsBayFault _ _)

theorem stopOthers_own : (b = .dispense → (stopOthers b s).disp = s.disp) ∧ (b = .lid → (stopOthers b s).lid = s.lid) ∧
    (b = .shake → (stopOthers b s).shake = s.shake) := by
  refine ⟨?_, ?_, ?_⟩ <;> rintro rfl <;> simp [stopOthers]

theorem stopOthers_mon : (stopOthers b s).mon = s.mon := by simp

theorem fault_setFault (b : BayId) (k : Option FaultKind) (s : State) : (s.setFault b k).fault b = k := by
  cases b <;> rfl

theorem fault_congr (h : t.mon = s.mon) : t.fault b = s.fault b := by cases b <;> simp [State.fault, h]

/-- The first fault of a bay. -/
theorem latch_own (h : s.fault b = none) : (latch b k s).fault b = some k ∧ (latch b k s).flag .bayFault = true ∧
    (b = .dispense → (latch b k s).disp.st = .fault) ∧ (b = .lid → (latch b k s).lid.st = .fault) ∧
    (b = .shake → (latch b k s).shake.st = .fault) := by
  have hfault : (faultBay b (latched b k s)).fault b = some k :=
    (fault_congr faultBay_mon).trans (fault_setFault b (some k) (reported b k s))
  have hset : (latched b k s).flag .bayFault = true := by
    have hrep : (reported b k s).flag .bayFault = true := flag_setFlag_self .bayFault (s.mapTin b (TinRecord.note k))
    cases b <;> exact hrep
  have hflag := faultBay_keepsBayFault (b := b) hset
  obtain ⟨hd, hl, hs⟩ := faultBay_st (b := b) (s := latched b k s)
  obtain ⟨hdo, hlo, hso⟩ := stopOthers_own (b := b) (s := faultBay b (latched b k s))
  rw [latch_first h]
  split
  · refine ⟨(fault_congr stopOthers_mon).trans hfault, stopOthers_keepsFlag hflag, fun hb => ?_, fun hb => ?_, fun hb => ?_⟩
    · exact (congrArg DispenseBay.st (hdo hb)).trans (hd hb)
    · exact (congrArg LidBay.st (hlo hb)).trans (hl hb)
    · exact (congrArg ShakeBay.st (hso hb)).trans (hs hb)
  · exact ⟨hfault, hflag, hd, hl, hs⟩

theorem calRunning_congr (h : t.disp = s.disp) : calRunning t = calRunning s := by
  unfold calRunning
  rw [h]

theorem fault_none_of_anyFault (h : s.anyFault = false) : s.fault b = none := by
  simp only [State.anyFault, Bool.or_eq_false_iff, Option.isSome_eq_false_iff, Option.isNone_iff_eq_none] at h
  obtain ⟨⟨hd, hl⟩, hs⟩ := h
  cases b
  · exact hd
  · exact hl
  · exact hs

/-- Settles O35: the bay that faults, the bays it leaves alone, and the bays a station stop holds. -/
theorem faultsLatchOncePerBay : Obligations.FaultsLatchOncePerBay := by
  unfold Obligations.FaultsLatchOncePerBay
  refine ⟨fun s b k hf => ?_, fun s b k => latch_own, fun s b k hscope => ?_, fun s b k hscope => ⟨fun hany => ?_,
    fun hany => ?stop⟩⟩
  · obtain ⟨k', hk'⟩ := Option.isSome_iff_exists.1 hf
    exact latch_behind hk'
  · have h := latch_others (b := b) (k := k) (s := s) (by simp [hscope])
    exact ⟨h.disp, h.lid, h.shake⟩
  · have h := latch_others (b := b) (k := k) (s := s) (by simp [hany])
    exact ⟨h.disp, h.lid, h.shake⟩
  case stop =>
    have hlatch : latch b k s = stopOthers b (faultBay b (latched b k s)) :=
      (latch_first (fault_none_of_anyFault hany)).trans (if_pos ⟨hscope, hany⟩)
    obtain ⟨hd, hl, hs⟩ := faultBay_others (b := b) (k := k) (s := s)
    dsimp only
    rw [hlatch]
    refine ⟨fun hb => ?_, fun hb => ?_, fun hb => ?_⟩
    · have hsame := hd hb
      rw [stopOthers_disp hb, ← hsame, ← calRunning_congr hsame]
      exact ⟨fun hheld => by rw [haltDisp_stays hheld], haltDisp_stopped⟩
    · obtain ⟨w, hw, hwl⟩ := stopOthers_lid (s := faultBay b (latched b k s)) hb
      rw [hw, ← hl hb, ← hwl]
      exact ⟨fun hf hc => by rw [haltLid_fault hf hc], haltLid_again, haltLid_working⟩
    · obtain ⟨w, hw, hws⟩ := stopOthers_shake (s := faultBay b (latched b k s)) hb
      rw [hw, ← hs hb, ← hws]
      exact ⟨fun hheld => by rw [haltShake_stays hheld], haltShake_working⟩

end Sys2Proof.Proofs
end

