-- ==== Sys2Proof/Proofs/EmergencyHalt.lean ====
section
/-! PROOF. What the emergency stop finds, halts and leaves, block by block (R39, R94, R117, R118, R163, R175). -/

namespace Sys2Proof.Proofs

open Sys2Proof Sys2Proof.Machine Sys2Proof.Safety Sys2Proof.Laws

variable {s t u : State}

/-! ## Halting the dispense bay: canisters, scale and requests -/

/-- Ages are kept, and no stir begins. -/
def NoNewStir (s t : State) : Prop :=
  ∀ i : Slot, (t.cans[i]).age = (s.cans[i]).age ∧ ((t.cans[i]).activity = .stirring → (s.cans[i]).activity = .stirring)

theorem NoNewStir.of_eq (h : t.cans = s.cans) : NoNewStir s t := fun i => by rw [h]; exact ⟨rfl, id⟩

theorem NoNewStir.trans (h : NoNewStir s t) (h' : NoNewStir t u) : NoNewStir s u := fun i =>
  ⟨(h' i).1.trans (h i).1, fun hst => (h i).2 ((h' i).2 hst)⟩

theorem mapCan_noNewStir {f : Canister → Canister} (j : Slot)
    (hf : ∀ c, (f c).age = c.age ∧ ((f c).activity = .stirring → c.activity = .stirring)) : NoNewStir s (s.mapCan j f) := by
  intro i
  rw [cans_mapCan]
  split
  · next h =>
    subst h
    exact hf _
  · exact ⟨rfl, id⟩

theorem interruptOp_noNewStir : NoNewStir s (interruptOp s) := by
  unfold interruptOp
  split
  · exact .of_eq rfl
  · next o _ =>
    have hend : NoNewStir s (endOp o s) :=
      mapCan_noNewStir (s := s.mapPump fun p => { p with op := none }) o.slot fun c => ⟨rfl, nofun⟩
    exact hend.trans (mapCan_noNewStir o.slot fun c => ⟨rfl, id⟩)

theorem settleCanister_noNewStir (k : Option Nat) (c : Canister) :
    (settleCanister k c).age = c.age ∧ (settleCanister k c).activity = c.activity := by
  unfold settleCanister
  repeat' split
  all_goals exact ⟨rfl, rfl⟩

/-- What the emergency stop needs of an operation of the dispense bay. -/
structure BayQuiets (s t : State) : Prop where
  cans : NoNewStir s t
  pre : s.stir.pre = [] → t.stir.pre = []
  window : t.scale.window = s.scale.window
  blank : t.scale.blank = s.scale.blank

theorem BayQuiets.trans (h : BayQuiets s t) (h' : BayQuiets t u) : BayQuiets s u :=
  ⟨h.cans.trans h'.cans, fun hp => h'.pre (h.pre hp), h'.window.trans h.window, h'.blank.trans h.blank⟩

theorem BayQuiets.of_eq (hc : t.cans = s.cans) (hp : t.stir = s.stir) (hs : t.scale = s.scale) : BayQuiets s t :=
  ⟨.of_eq hc, fun h => by rw [hp, h], by rw [hs], by rw [hs]⟩

theorem interruptShot_quiets : BayQuiets s (interruptShot s) := by
  have hop (v : State) : BayQuiets v (interruptOp v) :=
    ⟨interruptOp_noNewStir, fun h => by simpa using h, by simp, by simp⟩
  unfold interruptShot
  split
  · exact .of_eq rfl rfl rfl
  · exact hop s
  · refine BayQuiets.trans ?_ (hop _)
    exact .of_eq rfl rfl rfl

theorem mapDisp_quiets (f : DispenseBay → DispenseBay) : BayQuiets s (s.mapDisp f) := .of_eq rfl rfl rfl

theorem calEnded_quiets : BayQuiets s (calEnded s) := by
  unfold calEnded
  split
  · exact mapDisp_quiets _
  · exact .of_eq rfl rfl rfl

theorem calClosed_quiets (i : Slot) (k : Option Nat) : BayQuiets s (calEnded (setFlag .calDone (s.mapCan i (settleCanister k)))) := by
  have hset : BayQuiets s (s.mapCan i (settleCanister k)) := by
    refine ⟨mapCan_noNewStir i fun c => ?_, id, rfl, rfl⟩
    obtain ⟨hage, hact⟩ := settleCanister_noNewStir k c
    exact ⟨hage, fun h => hact ▸ h⟩
  have hflag (v : State) : BayQuiets v (setFlag .calDone v) := .of_eq rfl rfl rfl
  exact (hset.trans (hflag _)).trans calEnded_quiets

theorem abortCal_quiets : BayQuiets s (abortCal s) := by
  have hclose : BayQuiets s (dropPre (closeRequest s)) := ⟨.of_eq rfl, fun _ => rfl, rfl, rfl⟩
  unfold abortCal calOutcome
  split
  · split
    · exact .of_eq rfl rfl rfl
    · exact (hclose.trans (mapDisp_quiets _)).trans (calClosed_quiets _ none)
  · exact .of_eq rfl rfl rfl

/-- A held bay judges its passed lines without a stir requested. -/
theorem judgePassed_quiets (h : s.disp.st = .stopped) : BayQuiets s (judgePassed s) := by
  unfold judgePassed
  split
  · exact .of_eq rfl rfl rfl
  · rw [if_neg (by simp [h])]
    exact .of_eq rfl rfl rfl

theorem haltDisp_quiets : BayQuiets s (haltDisp .stopped s) := by
  have hbay : BayQuiets s (haltedBay .stopped s) :=
    interruptShot_quiets.trans ⟨.of_eq rfl, fun _ => rfl, rfl, rfl⟩
  have habort : BayQuiets s (abortCal (haltedBay .stopped s)) := hbay.trans abortCal_quiets
  rw [haltDisp_eq]
  split
  · exact .of_eq rfl rfl rfl
  · split
    · exact habort.trans (judgePassed_quiets (abortCal_st (.inl rfl)))
    · exact habort

theorem freeAllStirs_can (j : Slot) : ((freeAllStirs s).cans[j]).age = (s.cans[j]).age ∧
    ((freeAllStirs s).cans[j]).activity ≠ .stirring := by
  change ((s.cans.map fun c => if c.activity = .stirring then { c with activity := .idle } else c)[j]).age = _ ∧
    ((s.cans.map fun c => if c.activity = .stirring then { c with activity := .idle } else c)[j]).activity ≠ _
  simp only [Fin.getElem_fin, Vector.getElem_map]
  split
  · exact ⟨rfl, nofun⟩
  · next h => exact ⟨rfl, h⟩

/-! ## Halting the lid and shake bays: tins and agents -/

theorem haltStroke_tin (e : Bool) : (haltStroke e s).lid.tin = s.lid.tin ∧ (haltStroke e s).power = s.power := by
  unfold haltStroke
  repeat' split
  all_goals simp [retractPress, giveUp, releaseOrder, State.mapAgent]
  all_goals (repeat' split)
  all_goals simp

theorem haltLid_tin (d : LidState) (e : Bool) : (haltLid d e s).lid.tin = s.lid.tin ∧ (haltLid d e s).power = s.power := by
  unfold haltLid
  repeat' split
  · exact ⟨rfl, rfl⟩
  · exact ⟨rfl, rfl⟩
  · exact haltStroke_tin e

theorem haltShake_tin (e : Bool) : (haltShake .stopped e s).shake.tin = s.shake.tin := by
  unfold haltShake
  split
  · rfl
  · unfold haltShaker
    repeat' split
    all_goals simp [brake, blankTrigger]

/-- The stop takes the shaker's drive off without a blanking of its own. -/
theorem haltShake_scale : (haltShake .stopped true s).scale = s.scale := by
  unfold haltShake
  split
  · rfl
  · unfold haltShaker
    split <;> simp

/-! ## The agents: IDLE with a RELEASE queued (R163) -/

theorem releaseOrder_agent (p : Pool) : ((releaseOrder p s).agent p).st = .idle ∧
    (s.lineTakes = false → ((releaseOrder p s).agent p).announced = 0) := by
  unfold releaseOrder
  dsimp only
  split
  · next hl => cases p <;> exact ⟨by simp [State.agent, State.mapAgent], fun h => by simp [h] at hl⟩
  · cases p <;> exact ⟨rfl, fun _ => rfl⟩

/-- The line's state is kept, and a RELEASE that stands queued stays queued. -/
structure LineKept (p : Pool) (s t : State) : Prop where
  takes : t.lineTakes = s.lineTakes
  releases : s.lineTakes = true → Releases p s → Releases p t

theorem LineKept.of_eq {p : Pool} (h : t.line = s.line) : LineKept p s t :=
  ⟨by simp [State.lineTakes, h], fun _ hr => by simpa [Releases, h] using hr⟩

theorem LineKept.trans {p : Pool} (h : LineKept p s t) (h' : LineKept p t u) : LineKept p s u :=
  ⟨h'.takes.trans h.takes, fun hl hr => h'.releases (h.takes.trans hl) (h.releases hl hr)⟩

theorem withdrawFrame_st (k : NoticeKind) (p : Pool) : (withdrawFrame k p s).line.st = s.line.st := by
  unfold withdrawFrame
  dsimp only [State.mapLine]
  split <;> rfl

theorem releaseOrder_lineKept (p p' : Pool) : LineKept p' s (releaseOrder p s) := by
  refine ⟨?_, fun hl hr => releaseOrder_releases hl hr⟩
  have hst : (releaseOrder p s).line.st = s.line.st := by
    unfold releaseOrder
    dsimp only
    split
    · rw [placeFrame_st, mapAgent_line]
      simp only [withdrawFrame_st]
    · rw [mapAgent_line, mapAgent_line]
      simp only [withdrawFrame_st]
  simp [State.lineTakes, hst]

theorem giveUp_lineKept (p p' : Pool) : LineKept p' s (giveUp p s) := by
  unfold giveUp
  split
  · exact .of_eq rfl
  · exact releaseOrder_lineKept p p'

theorem mapShake_lineKept (p : Pool) (f : ShakeBay → ShakeBay) : LineKept p s (s.mapShake f) := .of_eq rfl

theorem mapLid_lineKept (p : Pool) (f : LidBay → LidBay) : LineKept p s (s.mapLid f) := .of_eq rfl

theorem haltShake_lineKept (p : Pool) : LineKept p s (haltShake .stopped true s) := by
  unfold haltShake
  split
  · exact .of_eq rfl
  · unfold haltShaker
    dsimp only
    split
    case h_1 | h_2 =>
      exact ((mapShake_lineKept p _).trans (giveUp_lineKept .power p)).trans (mapShake_lineKept p _)
    all_goals exact .of_eq rfl

theorem haltLid_lineKept (p : Pool) : LineKept p s (haltLid .stopped true s) := by
  unfold haltLid
  split
  · exact .of_eq rfl
  · split
    · exact .of_eq rfl
    · unfold haltStroke
      split
      case h_2 | h_3 => exact (giveUp_lineKept .air p).trans (mapLid_lineKept p _)
      all_goals exact .of_eq rfl

/-- The stop's order of release: POWER, then the lid bay and the drives, then AIR (log 62). -/
def dropClaims (v : State) : State := releaseOrder .air (drivesOff (haltLid .stopped true (releaseOrder .power v)))

theorem drivesOff_lineKept (p : Pool) : LineKept p s (drivesOff s) := .of_eq (by simp [drivesOff])

theorem dropClaims_power : (dropClaims s).power = (releaseOrder .power s).power := by
  have hair (v : State) : (releaseOrder .air v).power = v.power := by
    unfold releaseOrder
    dsimp only
    split <;> simp [State.mapAgent]
  have hlid := (haltLid_tin (s := releaseOrder .power s) .stopped true).2
  unfold dropClaims
  rw [hair, ← hlid]
  simp [drivesOff]

theorem dropClaims_agents (p : Pool) : ((dropClaims s).agent p).st = .idle ∧
    (s.lineTakes = true → Releases p (dropClaims s)) ∧ (s.lineTakes = false → ((dropClaims s).agent p).announced = 0) := by
  have hpower : LineKept p s (releaseOrder .power s) := releaseOrder_lineKept .power p
  have hlid : LineKept p (releaseOrder .power s) (haltLid .stopped true (releaseOrder .power s)) := haltLid_lineKept p
  have hoff := hlid.trans (drivesOff_lineKept p)
  have htakes := hoff.takes.trans hpower.takes
  cases p with
  | power =>
    obtain ⟨hidle, hnone⟩ := releaseOrder_agent (s := s) .power
    refine ⟨(congrArg Agent.st dropClaims_power).trans hidle, fun hl => ?_, fun hl => ?_⟩
    · exact releaseOrder_releases (htakes.trans hl)
        (hoff.releases (hpower.takes.trans hl) (releaseOrder_releases_self .power hl))
    · exact (congrArg Agent.announced dropClaims_power).trans (hnone hl)
  | air =>
    obtain ⟨hidle, hnone⟩ := releaseOrder_agent
      (s := drivesOff (haltLid .stopped true (releaseOrder .power s))) .air
    exact ⟨hidle, fun hl => releaseOrder_releases_self .air (htakes.trans hl), fun hl => hnone (htakes.trans hl)⟩

/-! ## The emergency stop (R175) -/

/-- The dispense and shake bays halted, both claims still to be given up. -/
def shaken (s : State) : State := haltShake .stopped true (haltDisp .stopped (beforeHalts s))

theorem applyEstop_eq : applyEstop s =
    setFlag .bayFault ((dropClaims (shaken s)).mapMon fun m => { m with estop := true }) := rfl

theorem beforeHalts_pre : (beforeHalts s).stir.pre = [] := rfl

theorem beforeHalts_line : (beforeHalts s).line = s.line := by simp [beforeHalts, noteEverywhere, blankTrigger]

theorem beforeHalts_scale : (beforeHalts s).scale = { s.scale with window := [], blank := some s.cfg.general.blankTime } := by
  simp [beforeHalts, noteEverywhere, blankTrigger]

theorem beforeHalts_can (i : Slot) :
    ((beforeHalts s).cans[i]).age = (s.cans[i]).age ∧ ((beforeHalts s).cans[i]).activity ≠ .stirring := by
  obtain ⟨hage, hact⟩ := freeAllStirs_can (s := dropPre (jamByStop (noteEverywhere .estop (blankTrigger s)))) i
  refine ⟨hage.trans ?_, hact⟩
  simp [noteEverywhere, blankTrigger]

theorem beforeHalts_tins : (beforeHalts s).disp.tin = s.disp.tin.map (TinRecord.note .estop) ∧
    (beforeHalts s).lid.tin = s.lid.tin.map (TinRecord.note .estop) ∧
    (beforeHalts s).shake.tin = s.shake.tin.map (TinRecord.note .estop) := by
  simp [beforeHalts, noteEverywhere, blankTrigger, State.mapTin]

theorem beforeHalts_carriage : (beforeHalts s).carriage =
    if s.carriage.st = .moving then { s.carriage with
      st := .jammed, drive := false, timer := none, deferral := none, cause := some .estop, homeDue := false
      tin := s.carriage.tin.map (TinRecord.note .estop) }
    else { s.carriage with deferral := none, tin := s.carriage.tin.map (TinRecord.note .estop) } := by
  have hst : (noteEverywhere .estop (blankTrigger s)).carriage.st = s.carriage.st := rfl
  unfold beforeHalts freeAllStirs dropPre jamByStop
  rw [hst]
  split <;> rfl

theorem haltDisp_none (d : DispState) (h : s.disp.tin = none) : (haltDisp d s).disp.tin = none := by
  have hshot : (interruptShot s).disp.tin = none := by
    rcases interruptShot_disp (s := s) with hd | ⟨i, hd⟩ <;> rw [hd]
    · exact h
    · change s.disp.tin.map _ = none
      rw [h]
      rfl
  have habort : (abortCal (haltedBay d s)).disp.tin = none := abortCal_tin.trans hshot
  rw [haltDisp_eq]
  split
  · exact h
  · split
    · rcases judgePassed_disp (s := abortCal (haltedBay d s)) with hd | hd <;> rw [hd]
      · exact habort
      · change (abortCal (haltedBay d s)).disp.tin.map _ = none
        rw [habort]
        rfl
    · exact habort

theorem haltDisp_notes (d : DispState) : (haltDisp d s).disp.tin.map (·.notes) = s.disp.tin.map (·.notes) := by
  cases ht : s.disp.tin with
  | none => rw [haltDisp_none d ht]
  | some r =>
    obtain ⟨x, hx, ls, rfl, -⟩ := haltDisp_keepsTin d r ht
    rw [hx]
    rfl

theorem dropClaims_quiets : BayQuiets s (dropClaims s) := by
  have hlid : BayQuiets s (haltLid .stopped true (releaseOrder .power s)) := .of_eq (by simp) (by simp) (by simp)
  have hop (v : State) : BayQuiets v (interruptOp v) :=
    ⟨interruptOp_noNewStir, fun h => by simpa using h, by simp, by simp⟩
  have hrest (v : State) : BayQuiets (interruptOp v) (releaseOrder .air (drivesOff v)) :=
    .of_eq (by simp [drivesOff]) (by simp [drivesOff]) (by simp [drivesOff])
  exact (hlid.trans (hop _)).trans (hrest _)

/-- Scale, stirrers and canisters as the stop leaves them. -/
theorem applyEstop_quiets : BayQuiets (beforeHalts s) (applyEstop s) := by
  have hshaken : BayQuiets (beforeHalts s) (shaken s) :=
    haltDisp_quiets.trans (.of_eq (by simp [shaken]) (by simp [shaken]) haltShake_scale)
  have hall := hshaken.trans dropClaims_quiets
  rw [applyEstop_eq]
  generalize dropClaims (shaken s) = u at hall ⊢
  exact hall.trans (.of_eq rfl rfl rfl)

theorem applyEstop_agents (p : Pool) : ((applyEstop s).agent p).st = .idle ∧
    (s.lineTakes = true → Releases p (applyEstop s)) ∧ (s.lineTakes = false → ((applyEstop s).agent p).announced = 0) := by
  have hhalted : LineKept p s (haltDisp .stopped (beforeHalts s)) := .of_eq (by simp [beforeHalts_line])
  have hshaken : LineKept p s (shaken s) := hhalted.trans (haltShake_lineKept p)
  obtain ⟨hidle, hrel, hnone⟩ := dropClaims_agents (s := shaken s) p
  rw [applyEstop_eq]
  generalize dropClaims (shaken s) = u at hidle hrel hnone ⊢
  have hagent (f : Monitor → Monitor) : (setFlag .bayFault (u.mapMon f)).agent p = u.agent p := by cases p <;> rfl
  rw [hagent]
  exact ⟨hidle, fun hl => hrel (hshaken.takes.trans hl), fun hl => hnone (hshaken.takes.trans hl)⟩

theorem dropClaims_rest : (dropClaims s).disp = s.disp ∧ (dropClaims s).shake.tin = s.shake.tin ∧
    (dropClaims s).lid.tin = s.lid.tin ∧ (dropClaims s).carriage = { s.carriage with drive := false } ∧
    (dropClaims s).mon = s.mon := by
  have hlid := (haltLid_tin (s := releaseOrder .power s) .stopped true).1
  simp only [releaseOrder_frame] at hlid
  unfold dropClaims
  refine ⟨?_, ?_, ?_, ?_, ?_⟩ <;> simp [drivesOff, hlid]

theorem shaken_rest : (shaken s).disp = (haltDisp .stopped (beforeHalts s)).disp ∧
    (shaken s).shake.tin = (beforeHalts s).shake.tin ∧ (shaken s).lid = (beforeHalts s).lid ∧
    (shaken s).carriage = (beforeHalts s).carriage ∧ (shaken s).mon = s.mon := by
  refine ⟨by simp [shaken], ?_, by simp [shaken], by simp [shaken], ?_⟩
  · unfold shaken
    rw [haltShake_tin]
    simp
  · simp [shaken, beforeHalts, noteEverywhere, blankTrigger]

theorem applyEstop_rests : (applyEstop s).disp = (haltDisp .stopped (beforeHalts s)).disp ∧
    (applyEstop s).shake.tin = (beforeHalts s).shake.tin ∧ (applyEstop s).lid.tin = (beforeHalts s).lid.tin ∧
    (applyEstop s).carriage = { (beforeHalts s).carriage with drive := false } ∧
    (applyEstop s).mon = { s.mon with estop := true } := by
  obtain ⟨hdisp, hshake, hlid, hcarriage, hmon⟩ := dropClaims_rest (s := shaken s)
  obtain ⟨hdisp', hshake', hlid', hcarriage', hmon'⟩ := shaken_rest (s := s)
  rw [hdisp'] at hdisp
  rw [hshake'] at hshake
  rw [hlid'] at hlid
  rw [hcarriage'] at hcarriage
  rw [hmon'] at hmon
  rw [applyEstop_eq]
  generalize dropClaims (shaken s) = u at hdisp hshake hlid hcarriage hmon ⊢
  exact ⟨hdisp, hshake, hlid, hcarriage, congrArg (fun m : Monitor => { m with estop := true }) hmon⟩

theorem applyEstop_flag : (applyEstop s).flag .bayFault = true := by
  rw [applyEstop_eq]
  exact flag_setFlag_self _ _

theorem applyEstop_can (i : Slot) :
    ((applyEstop s).cans[i]).age = (s.cans[i]).age ∧ ((applyEstop s).cans[i]).activity ≠ .stirring := by
  obtain ⟨hage, hact⟩ := beforeHalts_can (s := s) i
  obtain ⟨hage', hact'⟩ := applyEstop_quiets.cans i
  exact ⟨hage'.trans hage, fun h => hact (hact' h)⟩

theorem applyEstop_notes : (applyEstop s).disp.tin.map (·.notes) = s.disp.tin.map (fun r => (r.note .estop).notes) := by
  obtain ⟨hdisp, -⟩ := applyEstop_rests (s := s)
  obtain ⟨hd, -⟩ := beforeHalts_tins (s := s)
  rw [hdisp, haltDisp_notes, hd, Option.map_map]
  rfl

theorem applyEstop_carriage : (applyEstop s).carriage =
    if s.carriage.st = .moving then { s.carriage with
      st := .jammed, drive := false, timer := none, deferral := none, cause := some .estop, homeDue := false
      tin := s.carriage.tin.map (TinRecord.note .estop) }
    else { s.carriage with
      drive := false, deferral := none, tin := s.carriage.tin.map (TinRecord.note .estop) } := by
  obtain ⟨-, -, -, hcarriage, -⟩ := applyEstop_rests (s := s)
  rw [hcarriage, beforeHalts_carriage]
  split <;> rfl

theorem applyEstop_deferral : (applyEstop s).carriage.deferral = none := by
  rw [applyEstop_carriage]
  split <;> rfl

/-! ## What follows the command -/

/-- What follows the command moves nothing while the stop stands. -/
theorem settle_halted (h : Halted s) (hdef : s.carriage.deferral = none) : (settle s).carriage = s.carriage ∧
    (settle s).lid.tin = s.lid.tin ∧ (settle s).shake.tin = s.shake.tin ∧ (settle s).power = s.power ∧
    (settle s).air = s.air ∧ (settle s).line = s.line ∧ (settle s).stir = s.stir ∧ (settle s).cans = s.cans ∧
    (settle s).inputs = s.inputs := by
  obtain ⟨hstir, hcans⟩ := settle_ungranted (.inr h.estop)
  obtain ⟨-, hin, -, -, -, -, -, hline, -, hpower, hair, -, -, -, -, -, hlid, hshake, -⟩ := settleTouchesOnlyItsBlocks s
  refine ⟨?_, by rw [hlid], by rw [hshake], hpower, hair, hline, hstir, hcans, hin⟩
  unfold settle
  rw [Halted.grantStirs_eq h.estop, h.askTin_eq]
  split
  · have hdue : carriageDue s = false := by simp [carriageDue, h.moveDue_eq, h.homeRunDue_eq]
    change ({ s.carriage with deferral := deferralOf (carriageDue s) (!quietAllows s) s.carriage.deferral } : Carriage) = _
    rw [deferralOf_eq, hdue, ← hdef]
    rfl
  · rfl

theorem exec_emergencyStop (hon : s.online = true) (he : s.mon.estop = false) : exec .emergencyStop s =
    .next (settle (applyEstop (s.mapInputs fun i => { i with estop := true }))) :=
  (exec_whenSensed hon).trans (congrArg (fun u => Host.Outcome.next (settle u)) (if_neg (Bool.eq_false_iff.1 he)))

theorem exec_emergencyStop_again (hon : s.online = true) (he : s.mon.estop = true) : exec .emergencyStop s =
    .next (settle (s.mapInputs fun i => { i with estop := true })) :=
  (exec_whenSensed hon).trans (congrArg (fun u => Host.Outcome.next (settle u)) (if_pos he))

theorem note_eq (k : FaultKind) (r : TinRecord) : r.note k =
    if k ∈ r.notes ∨ 4 ≤ r.notes.length then r else { r with notes := r.notes ++ [k] } := by
  unfold TinRecord.note
  simp only [Bool.or_eq_true, List.contains_iff_mem, decide_eq_true_eq]

/-- A sensor's command in OFFLINE records the level only. -/
theorem exec_recorded {level f : State → State} (hrun : s.phase = .running) (hoff : s.mon.mode = .offline) :
    (.next (whenSensed level f s) : Host.Outcome State Fault Refusal) = .next (level s) := by
  have hon : s.online = false := by simp [State.online, hoff]
  have hrunning : s.running = true := by simp [State.running, hrun]
  unfold whenSensed
  rw [if_neg (by simp [hon]), if_pos hrunning]

/-- Settles O36: the stop's effects block by block, then the noted kinds, the recorded level and OFFLINE. -/
theorem emergencyStopHaltsEverything : Obligations.EmergencyStopHaltsEverything := by
  unfold Obligations.EmergencyStopHaltsEverything
  refine ⟨fun s hon he => ⟨_, exec_emergencyStop hon he, ?stop⟩, fun r k => note_eq k r,
    fun s hon he => exec_emergencyStop_again hon he, fun s hon => exec_whenSensed hon,
    fun s hrun hoff => ⟨exec_recorded hrun hoff, exec_recorded hrun hoff⟩⟩
  case stop =>
    have hhalted := applyEstop_halted (s.mapInputs fun i => { i with estop := true })
    obtain ⟨-, hheld, hoff, -⟩ := hhalted.settle
    obtain ⟨-, hshake, hlid, -, hmon⟩ := applyEstop_rests (s := s.mapInputs fun i => { i with estop := true })
    obtain ⟨-, hlid', hshake'⟩ := beforeHalts_tins (s := s.mapInputs fun i => { i with estop := true })
    have hflag := applyEstop_flag (s := s.mapInputs fun i => { i with estop := true })
    have hquiets := applyEstop_quiets (s := s.mapInputs fun i => { i with estop := true })
    have hcans := applyEstop_can (s := s.mapInputs fun i => { i with estop := true })
    have hagents := applyEstop_agents (s := s.mapInputs fun i => { i with estop := true })
    have hnotes := applyEstop_notes (s := s.mapInputs fun i => { i with estop := true })
    have hcarriage := applyEstop_carriage (s := s.mapInputs fun i => { i with estop := true })
    have hdef := applyEstop_deferral (s := s.mapInputs fun i => { i with estop := true })
    have hin : (applyEstop (s.mapInputs fun i => { i with estop := true })).inputs.estop = true := by simp
    have hscale := beforeHalts_scale (s := s.mapInputs fun i => { i with estop := true })
    have hwindow := hquiets.window.trans (congrArg Scale.window hscale)
    have hblank := hquiets.blank.trans (congrArg Scale.blank hscale)
    have hpre := hquiets.pre beforeHalts_pre
    generalize applyEstop (s.mapInputs fun i => { i with estop := true }) = u at *
    have hst : u.disp.st ≠ .empty := by rcases hhalted.disp with h | h <;> simp [h]
    obtain ⟨hdisp, -, hsc, hm, -, -, hev, -⟩ := settle_held hst
    obtain ⟨hcar, hl, hsh, hpow, hair, hline, hstir, hcan, hinp⟩ := settle_halted hhalted hdef
    have hagent (p : Pool) : (settle u).agent p = u.agent p := by cases p <;> [exact hpow; exact hair]
    refine ⟨by rw [hm, hmon]; rfl, by rw [hinp, hin], ?_, hheld, hoff, by rw [hstir, hpre], by rw [hsc, hwindow],
      by rw [hsc, hblank]; rfl, fun i => by rw [hcan]; exact hcans i, fun p => ?_, by rw [hdisp, hnotes]; rfl,
      by rw [hl, hlid, hlid']; rfl, by rw [hsh, hshake, hshake']; rfl, by rw [hcar, hcarriage]; rfl⟩
    · unfold State.flag
      rw [hev]
      exact hflag
    · obtain ⟨hidle, hrel, hnone⟩ := hagents p
      rw [hagent, hline]
      exact ⟨hidle, hrel, hnone⟩

end Sys2Proof.Proofs
end

