-- ==== Sys2Proof/Proofs/DispenseSensor.lean ====
section
/-! PROOF. What the dispense bay makes of its presence sensor (R78 to R80, R93, R94, R96, R102, R108, R110). -/

namespace Sys2Proof.Proofs

open Sys2Proof Sys2Proof.Machine Sys2Proof.Safety Sys2Proof.Laws

variable {s t u : State} {r : TinRecord} {c : CalRecord} {k : FaultKind}

/-! ## A calibration halted by a fault (R110, R111) -/

theorem interruptShot_pump : (interruptShot s).pump.op = none := by
  unfold interruptShot
  split
  · next h => exact h
  · exact interruptOp_op
  · exact interruptOp_op

/-- A bay that is halted leaves no operation in flight. -/
theorem haltDisp_off {d : DispState} (hf : s.disp.st ≠ .fault) (hd : s.disp.st ≠ d) : (haltDisp d s).pump.op = none := by
  rw [haltDisp_eq, if_neg (by simp [hf, hd])]
  split <;> simp [haltedBay, interruptShot_pump]

/-- A calibration that a halt has ended. -/
structure CalHalted (s : State) : Prop where
  resume : s.disp.resume = some .calEnd
  pump : s.pump.op = none
  request : s.scale.request = none
  quiet : s.disp.quiet = false
  last : s.disp.last.map (·.outcome) = some .aborted
  done : s.flag .calDone = true

theorem CalHalted.congr (h : CalHalted s) (hd : t.disp = s.disp) (hp : t.pump = s.pump)
    (hr : s.scale.request = none → t.scale.request = none) (hf : s.flag .calDone = true → t.flag .calDone = true) :
    CalHalted t := by
  obtain ⟨hresume, hpump, hreq, hquiet, hlast, hdone⟩ := h
  exact ⟨by rw [hd, hresume], by rw [hp, hpump], hr hreq, by rw [hd, hquiet], by rw [hd, hlast], hf hdone⟩

theorem abortCal_halted (hst : s.disp.st = .fault) (hrun : calRunning s = true) (hop : s.pump.op = none) :
    CalHalted (abortCal s) := by
  unfold abortCal
  rw [if_pos hrun]
  unfold calOutcome
  split
  · next hcal => simp [calRunning, hcal] at hrun
  · rw [calEnded_eq (by simp [hst, setFlag])]
    refine ⟨by simp [hst, setFlag], by simpa [setFlag] using hop, by simp [setFlag], by simp [setFlag], rfl,
      flag_setFlag_self _ _⟩

theorem judgePassed_halted (h : CalHalted s) : CalHalted (judgePassed s) := by
  obtain ⟨hresume, hpump, hreq, hquiet, hlast, hdone⟩ := h
  have hbay : (judgePassed s).disp.quiet = s.disp.quiet ∧ (judgePassed s).disp.last = s.disp.last := by
    rcases judgePassed_disp (s := s) with hd | hd <;> rw [hd] <;> exact ⟨rfl, rfl⟩
  exact ⟨judgePassed_resume.trans hresume, by simpa using hpump, by simpa using hreq, hbay.1.trans hquiet,
    by rw [hbay.2, hlast], by simpa [State.flag] using hdone⟩

theorem haltedBay_calRunning (d : DispState) : calRunning (haltedBay d s) = calRunning s := by
  have hcal : (haltedBay d s).disp.cal = s.disp.cal := interruptShot_resting.1
  unfold calRunning
  rw [hcal]

theorem haltDisp_calibrating (hf : s.disp.st ≠ .fault) (hrun : calRunning s = true) : CalHalted (haltDisp .fault s) := by
  have hst : (haltedBay .fault s).disp.st = .fault := rfl
  have hpump : (haltedBay .fault s).pump = (interruptShot s).pump := rfl
  have habort : CalHalted (abortCal (haltedBay .fault s)) :=
    abortCal_halted hst ((haltedBay_calRunning .fault).trans hrun) (by rw [hpump, interruptShot_pump])
  rw [haltDisp_eq, if_neg (by simp [hf])]
  split
  · exact judgePassed_halted habort
  · exact habort

theorem haltLid_calDone (dest : LidState) (e : Bool) (h : s.flag .calDone = true) : (haltLid dest e s).flag .calDone = true := by
  unfold haltLid
  split
  · exact h
  · split
    · exact h
    · change (haltStroke e s).flag .calDone = true
      unfold haltStroke
      split
      case h_1 => rw [flag_clearFlag, h]; rfl
      case h_6 => split <;> exact h
      all_goals simpa [State.flag] using h

theorem stopOthers_calHalted (h : CalHalted s) : CalHalted (stopOthers .dispense s) := by
  obtain ⟨hd, hp, -⟩ := stopOthers_kept (s := s)
  refine h.congr hd hp stopOthers_bay.request fun hf => haltLid_calDone _ _ ?_
  simpa [State.flag] using hf

/-- A first fault of the dispense bay ends the calibration that runs. -/
theorem latch_calibrating (hst : s.disp.st ≠ .fault) (hrun : calRunning s = true) (hf : s.mon.faultD = none) :
    CalHalted (latch .dispense k s) := by
  have hbay : CalHalted (faultBay .dispense ((reported .dispense k s).setFault .dispense (some k))) :=
    haltDisp_calibrating (s := (reported .dispense k s).setFault .dispense (some k)) hst hrun
  rw [latch_first (b := .dispense) hf]
  split
  · exact stopOthers_calHalted hbay
  · exact hbay

/-! ## The removal in a held bay (R93, R94) -/

/-- The held bay notes that nothing is set down on it any more. -/
def unplaced (s : State) : State := s.mapDisp fun d => { d with placed := false }

theorem heldTinOff_eq : heldTinOff s =
    if dispHolds (unplaced s) then loseDisp (unplaced s)
    else if s.disp.lost then finishLost (unplaced s)
    else (unplaced s).mapDisp fun d => { d with removed := true } := rfl

theorem unplaced_holds_held (hst : s.disp.st = .fault ∨ s.disp.st = .stopped) : dispHolds (unplaced s) = true ↔
    (s.disp.resume = some .tare ∨ s.disp.resume = some .dispensing ∨ s.disp.resume = some .waiting ∨
      s.disp.resume = some .done) ∧
    s.disp.lost = false ∧ s.disp.recWait = false ∧ s.disp.tin.map (·.cancelled) = some false := by
  have hwork : dispWork (unplaced s) = s.disp.resume := by
    rw [dispWork_eq]
    exact if_pos hst
  rw [dispHolds_iff, hwork]
  rfl

theorem dispTinOff_held (hst : s.disp.st = .stopped ∨ s.disp.st = .fault) : dispTinOff s = heldTinOff s := by
  unfold dispTinOff
  rcases hst with h | h <;> rw [h]

theorem dispTinOff_working (hst : s.disp.st = .tare ∨ s.disp.st = .dispensing ∨ s.disp.st = .waiting ∨ s.disp.st = .done) :
    dispTinOff s = loseDisp s := by
  unfold dispTinOff
  rcases hst with h | h | h | h <;> rw [h]

theorem dispTinOff_unheard (hst : (s.disp.st = .cancelled ∧ s.disp.recWait = true) ∨ s.disp.st = .empty ∨
    s.disp.st = .called ∨ s.disp.st = .outbound) : dispTinOff s = s := by
  unfold dispTinOff
  rcases hst with ⟨h, hw⟩ | h | h | h <;> rw [h]
  exact if_pos hw

theorem dispTinOn_unheard (h1 : s.disp.st ≠ .empty) (h2 : s.disp.st ≠ .called) (h3 : s.disp.st ≠ .calCup)
    (h4 : s.disp.st ≠ .stopped) (h5 : s.disp.st ≠ .fault) : dispTinOn s = s := by
  unfold dispTinOn
  split
  case h_1 h => exact absurd h h1
  case h_2 h => exact absurd h h2
  case h_3 h => exact absurd h h3
  case h_4 h => exact absurd h h5
  case h_5 h => exact absurd h h4
  case h_6 => rfl

/-! ## The tin lost with no fault latched (R93) -/

theorem closeLost_pump : (closeLost s).pump = s.pump := by
  unfold closeLost
  split
  · rfl
  · split <;> simp

theorem latch_off (hst : s.disp.st ≠ .fault) (hf : s.mon.faultD = none) : (latch .dispense k s).pump.op = none := by
  have hbay : (faultBay .dispense ((reported .dispense k s).setFault .dispense (some k))).pump.op = none :=
    haltDisp_off (s := (reported .dispense k s).setFault .dispense (some k)) hst hst
  rw [latch_first (b := .dispense) hf]
  split
  · rw [stopOthers_kept.2.1, hbay]
  · exact hbay

/-- A loss with no fault latched, whatever becomes of the tin's record. -/
theorem loseDisp_latched (h : dispHolds s = true) (ht : s.disp.tin = some r) (hf : s.mon.faultD = none)
    (hc : r.cancelled = false) (hst : s.disp.st ≠ .fault) : LossLatched s (loseDisp s) ∧ (loseDisp s).pump.op = none := by
  obtain ⟨-, -, -, -, hsame, hmon, -⟩ := markedLost_kept (s := s)
  have hpump : (loseDisp s).pump.op = none := by
    rw [loseDisp_first h hf, closeLost_pump]
    exact latch_off (by rw [hsame]; exact hst) ((congrArg Monitor.faultD hmon).trans hf)
  refine ⟨?_, hpump⟩
  cases hshot : r.shotGiven with
  | false => exact (loseDisp_unshot h ht hf hshot).1
  | true =>
    rcases Nat.lt_or_ge s.completion.length 16 with hroom | hfull
    · exact (loseDisp_joins h ht hf hshot hc hroom).1
    · exact (loseDisp_waits h ht hf hshot hfull).1

/-- The sensor's record off, and with it what the bay makes of the removal. -/
theorem exec_dispOff (hon : s.online = true) : exec (.tinPresenceDispense false) s =
    .next (settle (dispTinOff (s.mapInputs fun i => { i with presDispense := false }))) := exec_whenSensed hon

theorem exec_dispOn (hon : s.online = true) : exec (.tinPresenceDispense true) s =
    .next (settle (dispTinOn (s.mapInputs fun i => { i with presDispense := true }))) := exec_whenSensed hon

/-- What a first loss shows after the command. -/
theorem loss_settled (h : dispHolds u = true) (ht : u.disp.tin = some r) (hf : u.mon.faultD = none)
    (hc : r.cancelled = false) (hst : u.disp.st ≠ .fault) :
    (settle (loseDisp u)).mon.faultD = some .tinLost ∧ (settle (loseDisp u)).disp.st = .fault ∧
    (settle (loseDisp u)).disp.lost = true ∧ (settle (loseDisp u)).flag .bayFault = true ∧
    (settle (loseDisp u)).pump.op = none ∧
    (r.shotGiven = false → u.pump.op = none → (settle (loseDisp u)).disp.tin = none ∧
      (settle (loseDisp u)).jobs = if r.committed then u.jobs else returnTin r.jobId u.jobs) := by
  obtain ⟨hloss, hpump⟩ := loseDisp_latched h ht hf hc hst
  obtain ⟨hdisp, hpump', -, hmon, -, hjobs, hevents, -⟩ := settle_held (s := loseDisp u) (by rw [hloss.st]; decide)
  refine ⟨by rw [hmon, hloss.fault], by rw [hdisp, hloss.st], by rw [hdisp, hloss.lost], ?_, by rw [hpump', hpump],
    fun hshot _ => ?_⟩
  · unfold State.flag
    rw [hevents]
    exact hloss.flag
  · obtain ⟨-, htin, hjob⟩ := loseDisp_unshot h ht hf hshot
    exact ⟨by rw [hdisp, htin], by rw [hjobs, hjob]⟩

/-- The station as the sensor's record leaves it: an object stands on the scale. -/
def objectOn (s : State) : State := s.mapInputs fun i => { i with presDispense := true }

/-- The station as the sensor's record leaves it: nothing stands on the scale. -/
def objectOff (s : State) : State := s.mapInputs fun i => { i with presDispense := false }

section

variable (hon : s.online = true)
include hon

theorem exec_dispOff_eq (h : dispTinOff (objectOff s) = t) : exec (.tinPresenceDispense false) s = .next (settle t) := by
  rw [exec_dispOff hon]
  exact congrArg (fun u => Host.Outcome.next (settle u)) h

theorem exec_dispOn_eq (h : dispTinOn (objectOn s) = t) : exec (.tinPresenceDispense true) s = .next (settle t) := by
  rw [exec_dispOn hon]
  exact congrArg (fun u => Host.Outcome.next (settle u)) h

end

theorem dispTinOn_empty (h : s.disp.st = .empty) : dispTinOn s = setFlag .tinWrong s := by
  unfold dispTinOn
  rw [h]

theorem dispTinOn_called (h : s.disp.st = .called) : dispTinOn s = enterTare s := by
  unfold dispTinOn
  rw [h]

theorem dispTinOn_held (h : s.disp.st = .stopped ∨ s.disp.st = .fault) :
    dispTinOn s = s.mapDisp fun d => { d with placed := true } := by
  unfold dispTinOn
  rcases h with h | h <;> rw [h]

theorem dispTinOn_cup (h : s.disp.st = .calCup) (hc : s.disp.cal = some c) :
    dispTinOn s = if c.stage = .cupWait then weighCup s else s := by
  unfold dispTinOn
  rw [h, hc]

theorem dispTinOff_wrong (h : s.disp.st = .wrongTin) : dispTinOff s = returnToCalled s := by
  unfold dispTinOff
  rw [h]

theorem dispTinOff_orphan (h : s.disp.st = .orphan) : dispTinOff s = s.mapDisp fun d => { d with st := .empty } := by
  unfold dispTinOff
  rw [h]

theorem dispTinOff_calEnd (h : s.disp.st = .calEnd) : dispTinOff s = calEnded s := by
  unfold dispTinOff
  rw [h]

theorem dispTinOff_cancelled (h : s.disp.st = .cancelled) (hw : s.disp.recWait = false) :
    dispTinOff s = closeDispRecord s := by
  unfold dispTinOff
  rw [h, hw]
  rfl

theorem dispTinOff_cup (h : s.disp.st = .calCup) : dispTinOff s = cupLifted s := by
  unfold dispTinOff
  rw [h]

theorem dispTinOff_calibrating (h : s.disp.st = .calPrime ∨ s.disp.st = .calRate) :
    dispTinOff s = latch .dispense .tinLost s := by
  unfold dispTinOff
  rcases h with h | h <;> rw [h]

theorem cupLifted_open (hc : s.disp.cal = some c) (h : s.scale.request.isSome = true) : cupLifted s = { s with
    scale := { s.scale with request := none }
    disp := { s.disp with quiet := false, cal := some { c with stage := .cupWait } } } := by
  unfold cupLifted
  rw [if_pos h]
  simp [closeRequest, mapCal, State.mapDisp, State.mapScale, hc]

theorem cupLifted_closed (h : s.scale.request = none) : cupLifted s = s := by
  unfold cupLifted
  rw [h]
  rfl

theorem weighCup_some (hc : s.disp.cal = some c) : weighCup s = { s with
    scale := { s.scale with window := [], request := some 0 }
    disp := { s.disp with quiet := true, fresh := false, cal := some { c with stage := .cupReading } } } := by
  simp [weighCup, openRequest, mapCal, State.mapDisp, State.mapScale, hc]

/-- A removal that the held bay takes for no loss. -/
theorem heldTinOff_noted (h : dispHolds (unplaced s) = false) (hl : s.disp.lost = false) :
    heldTinOff s = { s with disp := { s.disp with placed := false, removed := true } } := by
  rw [heldTinOff_eq, if_neg (by simp [h]), if_neg (by simp [hl])]
  rfl

theorem unplaced_lost (hl : s.disp.lost = true) : dispHolds (unplaced s) = false := by
  rw [Bool.eq_false_iff, Ne, dispHolds_iff]
  rintro ⟨-, h, -⟩
  exact absurd hl (Bool.eq_false_iff.1 h)

theorem heldTinOff_lost (hl : s.disp.lost = true) : heldTinOff s = finishLost (unplaced s) := by
  rw [heldTinOff_eq, if_neg (by simp [unplaced_lost hl]), if_pos hl]

theorem returnToCalled_none (ht : s.disp.tin = none) : returnToCalled s = dispBack .empty s := by
  rw [returnToCalled_eq, if_pos ht]

theorem returnToCalled_withdrawn (ht : s.disp.tin.isSome = true) (hcall : s.mon.mode ≠ .run ∨ s.mon.safe = true) :
    returnToCalled s = withdrawCall { s with disp := { s.disp with removed := false } } := by
  have hno : ¬ (s.mon.mode = .run ∧ s.mon.safe = false) := fun hstands =>
    hcall.elim (fun hm => hm hstands.1) fun hs => Bool.eq_false_iff.1 hstands.2 hs
  rw [returnToCalled_eq, if_neg (Option.isSome_iff_ne_none.1 ht), if_pos hno]

theorem returnToCalled_called (ht : s.disp.tin.isSome = true) (hrun : s.mon.mode = .run) (hsafe : s.mon.safe = false)
    (hoff : s.inputs.presDispense = false) : returnToCalled s = dispBack .called s := by
  rw [returnToCalled_eq, if_neg (Option.isSome_iff_ne_none.1 ht), if_neg (not_not.2 ⟨hrun, hsafe⟩), if_neg (by simp [hoff])]

/-- A tin in work that is lifted while no fault is latched is found lost. -/
theorem removal_loses (ht : s.disp.tin = some r) (hc : r.cancelled = false) (hl : s.disp.lost = false)
    (hw : s.disp.recWait = false) (hf : s.mon.faultD = none)
    (hst : (s.disp.st = .tare ∨ s.disp.st = .dispensing ∨ s.disp.st = .waiting ∨ s.disp.st = .done) ∨
      (s.disp.st = .stopped ∧ (s.disp.resume = some .tare ∨ s.disp.resume = some .dispensing ∨
        s.disp.resume = some .waiting ∨ s.disp.resume = some .done))) :
    ∃ v, dispTinOff (objectOff s) = loseDisp v ∧ dispHolds v = true ∧ v.disp.st ≠ .fault ∧ v.disp.tin = some r ∧
      v.mon.faultD = none ∧ v.pump = s.pump ∧ v.jobs = s.jobs := by
  have htin : s.disp.tin.map (·.cancelled) = some false := by simp [ht, hc]
  rcases hst with hwork | ⟨hheld, hres⟩
  · have hnow : dispWork (objectOff s) = some s.disp.st := by
      rw [dispWork_eq]
      exact if_neg (by rcases hwork with h | h | h | h <;> simp [objectOff, h])
    refine ⟨objectOff s, dispTinOff_working (s := objectOff s) hwork, dispHolds_iff.2 ⟨?_, hl, hw, htin⟩, ?_, ht, hf, rfl, rfl⟩
    · simpa [hnow] using hwork
    · rcases hwork with h | h | h | h <;> simp [objectOff, h]
  · have hholds : dispHolds (unplaced (objectOff s)) = true :=
      (unplaced_holds_held (s := objectOff s) (.inr hheld)).2 ⟨hres, hl, hw, htin⟩
    refine ⟨unplaced (objectOff s), ?_, hholds, ?_, ht, hf, rfl, rfl⟩
    · exact (dispTinOff_held (s := objectOff s) (.inl hheld)).trans (heldTinOff_eq.trans (if_pos hholds))
    · exact fun h => absurd (hheld.symm.trans h) (by decide)

/-- Settles O37: the arrivals and removals state by state, then the two losses. -/
theorem dispenseSensorIsFollowed : Obligations.DispenseSensorIsFollowed := by
  unfold Obligations.DispenseSensorIsFollowed
  refine ⟨fun s hon => ⟨fun h => exec_dispOn_eq hon (dispTinOn_empty h), fun h => exec_dispOn_eq hon (dispTinOn_called h),
    fun h1 h2 h3 h4 h5 => exec_dispOn_eq hon (dispTinOn_unheard h1 h2 h3 h4 h5),
    fun h => exec_dispOn_eq hon (dispTinOn_held h), ?back, fun h => exec_dispOff_eq hon (dispTinOff_orphan h), ?calEnd,
    fun h hw => exec_dispOff_eq hon (dispTinOff_cancelled h hw), ?uncalled, ?withdrawn,
    fun h => exec_dispOff_eq hon (dispTinOff_unheard h), ?cup, ?shot, ?held⟩, ?behind, ?first⟩
  case back =>
    intro h ht hrun hsafe
    exact exec_dispOff_eq hon ((dispTinOff_wrong (s := objectOff s) h).trans (returnToCalled_called ht hrun hsafe rfl))
  case calEnd =>
    intro h
    refine exec_dispOff_eq hon ((dispTinOff_calEnd (s := objectOff s) h).trans ?_)
    unfold calEnded
    rw [if_pos (by simp [objectOff, h])]
    rfl
  case uncalled =>
    intro h ht
    exact exec_dispOff_eq hon ((dispTinOff_wrong (s := objectOff s) h).trans (returnToCalled_none ht))
  case withdrawn =>
    intro h ht hcall
    exact exec_dispOff_eq hon ((dispTinOff_wrong (s := objectOff s) h).trans (returnToCalled_withdrawn ht hcall))
  case cup =>
    intro c h hc
    refine ⟨fun hstage => exec_dispOn_eq hon ?_, fun hstage => exec_dispOn_eq hon ?_, fun hreq => exec_dispOff_eq hon ?_,
      fun hreq => exec_dispOff_eq hon ?_⟩
    · exact (dispTinOn_cup (s := objectOn s) h hc).trans ((if_pos hstage).trans (weighCup_some hc))
    · exact (dispTinOn_cup (s := objectOn s) h hc).trans (if_neg hstage)
    · exact (dispTinOff_cup (s := objectOff s) h).trans (cupLifted_open hc hreq)
    · exact (dispTinOff_cup (s := objectOff s) h).trans (cupLifted_closed hreq)
  case shot =>
    intro h
    refine ⟨exec_dispOff_eq hon (dispTinOff_calibrating (s := objectOff s) h), fun hrun hf => ?_⟩
    have hst : (objectOff s).disp.st ≠ .fault := by rcases h with h | h <;> simp [objectOff, h]
    obtain ⟨hfault, hbay, hflag, -⟩ := latch_disp (s := objectOff s) (k := .tinLost) hf
    obtain ⟨hresume, hpump, hreq, hquiet, hlast, hdone⟩ := latch_calibrating (s := objectOff s) (k := .tinLost) hst hrun hf
    exact ⟨hfault, hbay, hresume, hpump, hreq, hquiet, hlast, hdone, hflag⟩
  case held =>
    intro hst
    have hoff : dispTinOff (objectOff s) = heldTinOff (objectOff s) := dispTinOff_held hst
    refine ⟨fun hl hwhy => ?_, fun hl => ⟨fun hf hfault ht he => ?_, fun hwhy => ?_⟩⟩
    · have hholds : dispHolds (unplaced (objectOff s)) = false := by
        rw [Bool.eq_false_iff, Ne, unplaced_holds_held (s := objectOff s) hst.symm]
        rintro ⟨hres, -, hw, htin⟩
        rcases hwhy with h | h | ⟨r, hr, hc⟩ | ⟨h1, h2, h3, h4⟩
        · exact Bool.eq_false_iff.1 hw h
        · simp [objectOff, h] at htin
        · simp [objectOff, hr, hc] at htin
        · rcases hres with h | h | h | h
          exacts [h1 h, h2 h, h3 h, h4 h]
      exact exec_dispOff_eq hon (hoff.trans (heldTinOff_noted hholds hl))
    · refine exec_dispOff_eq hon (hoff.trans ((heldTinOff_lost (s := objectOff s) hl).trans ?_))
      exact (finishLost_iff (unplaced (objectOff s))).1 ⟨hf, hl, hfault, ht, rfl, he⟩
    · refine exec_dispOff_eq hon (hoff.trans ((heldTinOff_lost (s := objectOff s) hl).trans ?_))
      refine (finishLost_iff (unplaced (objectOff s))).2 ?_
      rintro ⟨hf, -, hfault, ht, -, he⟩
      rcases hwhy with h | h | h | h
      · exact absurd (h.symm.trans hf) (by decide)
      · rw [show s.mon.faultD = none from hfault] at h
        exact absurd h (by decide)
      · rw [show s.disp.tin = none from ht] at h
        exact absurd h (by simp)
      · exact Bool.eq_false_iff.1 he h
  case behind =>
    intro s r k hon ht hc hl hw hf hst hres
    have hholds : dispHolds (unplaced (objectOff s)) = true :=
      (unplaced_holds_held (s := objectOff s) (.inl hst)).2 ⟨hres, hl, hw, by simp [objectOff, ht, hc]⟩
    have hlose : dispTinOff (objectOff s) = loseDisp (unplaced (objectOff s)) :=
      (dispTinOff_held (s := objectOff s) (.inr hst)).trans ((heldTinOff_eq).trans (if_pos hholds))
    obtain ⟨hloss, hmon, hbay, hjobs, x, hx, hxr⟩ := loseDisp_behind hholds (r := r) ht hf
    have hbay' : (loseDisp (unplaced (objectOff s))).disp.st = .fault := hbay.trans hst
    refine ⟨_, exec_dispOff_eq hon hlose, ?_⟩
    generalize loseDisp (unplaced (objectOff s)) = u at *
    obtain ⟨hdisp, -, -, hmon', -, hjobs', hevents, -⟩ := settle_held (s := u) (by rw [hbay']; decide)
    refine ⟨by rw [hmon', hmon]; exact hf, by rw [hdisp, hbay'], by rw [hdisp, hloss.lost], ?_, ?_, ?_, by rw [hjobs', hjobs]; rfl⟩
    · unfold State.flag
      rw [hevents]
      exact hloss.flag
    · rw [hdisp, hx]
      exact congrArg some hxr.lost
    · rw [hdisp, hx]
      exact congrArg some hxr.notes
  case first =>
    intro s r hon ht hc hl hw hf hst
    obtain ⟨v, hlose, hholds, hne, htin, hfault, hpump, hjobs⟩ := removal_loses ht hc hl hw hf (by simpa only [or_assoc] using hst)
    obtain ⟨hfault', hbay, hlost, hflag, hoff, hback⟩ := loss_settled hholds htin hfault hc hne
    refine ⟨_, exec_dispOff_eq hon hlose, hfault', hbay, hlost, hflag, hoff, fun hshot hop => ?_⟩
    rw [← hjobs]
    exact hback hshot (by rw [hpump, hop])

end Sys2Proof.Proofs
end

