-- ==== Sys2Proof/Proofs/LineSelection.lean ====
section
/-! PROOF. What becomes of a selected line, the debit and the shot, and the plan of a line at acceptance (R24, R26, R42 to
R47, R81 to R85). -/

namespace Sys2Proof.Proofs

open Sys2Proof Sys2Proof.Machine Sys2Proof.Safety Sys2Proof.Laws

variable {s t u : State} {r : TinRecord} {l : LineEntry} {i : Nat} {c : Slot}

/-! ## The reasons of R83 -/

/-- The canister stirs, is to stir, or has settled. -/
def mustStir (s : State) (c : Slot) : Prop :=
  (s.cans[c]).activity = .stirring ∨ c ∈ s.stir.pre ∨ hasSettled s c = true

theorem stirring_iff : s.stirring c = true ↔ (s.cans[c]).activity = .stirring := by
  unfold State.stirring State.can
  rw [decide_eq_true_eq]

theorem preRequested_iff : s.preRequested c = true ↔ c ∈ s.stir.pre := by
  unfold State.preRequested
  rw [List.contains_iff_mem]

theorem mustStir_iff : (s.stirring c || s.preRequested c || hasSettled s c) = true ↔ mustStir s c := by
  rw [Bool.or_eq_true, Bool.or_eq_true, stirring_iff, preRequested_iff, or_assoc]
  rfl

theorem passReason_unready (h : (s.cans[c]).state ≠ .ready) : passReason s c = some .awaitCanister := if_pos h

theorem passReason_stir (h : (s.cans[c]).state = .ready) (hs : mustStir s c) : passReason s c = some .preStir := by
  unfold passReason
  rw [if_neg (show ¬ (s.can c).state ≠ .ready from not_not.2 h), if_pos (mustStir_iff.2 hs)]

theorem passReason_free (h : (s.cans[c]).state = .ready) (hs : ¬ mustStir s c) : passReason s c = none := by
  unfold passReason
  rw [if_neg (show ¬ (s.can c).state ≠ .ready from not_not.2 h), if_neg (mt mustStir_iff.1 hs)]

theorem passReason_iff :
    (passReason s c = some .awaitCanister ↔ (s.cans[c]).state ≠ .ready) ∧
    (passReason s c = some .preStir ↔ (s.cans[c]).state = .ready ∧ mustStir s c) ∧
    (passReason s c = none ↔ (s.cans[c]).state = .ready ∧ ¬ mustStir s c) := by
  by_cases hready : (s.cans[c]).state = .ready
  · by_cases hs : mustStir s c
    · rw [passReason_stir hready hs]
      exact ⟨⟨nofun, fun h => absurd hready h⟩, ⟨fun _ => ⟨hready, hs⟩, fun _ => rfl⟩, ⟨nofun, fun h => absurd hs h.2⟩⟩
    · rw [passReason_free hready hs]
      exact ⟨⟨nofun, fun h => absurd hready h⟩, ⟨nofun, fun h => absurd h.2 hs⟩, ⟨fun _ => ⟨hready, hs⟩, fun _ => rfl⟩⟩
  · rw [passReason_unready hready]
    exact ⟨⟨fun _ => hready, fun _ => rfl⟩, ⟨nofun, fun h => absurd h.1 hready⟩, ⟨nofun, fun h => absurd h.1 hready⟩⟩

theorem canDebit_iff {v : Nat} : canDebit s c v = true ↔ (s.cfg.cans[c]).reserve + v ≤ (s.cans[c]).level := by
  unfold canDebit State.canStatic State.can
  rw [decide_eq_true_eq]

/-! ## A line passed (R83) -/

theorem passLine_eq (ht : s.disp.tin = some r) (why : PassReason) : passLine i why s = { s with disp := { s.disp with
    step := none, tin := some { r with lines := r.lines.modify i fun l => { l with st := .passed why } } } } := by
  simp [passLine, mapEntryAt, State.mapTin, State.mapDisp, ht]

theorem makePre_passLine (why : PassReason) (h : (s.cans[c]).activity = .stirring ∨ c ∈ s.stir.pre) :
    makePre c (passLine i why s) = passLine i why s :=
  makePre_refused (.inr (.inr h))

theorem takeLine_awaitCanister (h : (s.cans[l.slot]).state ≠ .ready) : takeLine i l s = passLine i .awaitCanister s := by
  unfold takeLine
  rw [passReason_unready h]

theorem takeLine_preStir (h : (s.cans[l.slot]).state = .ready) (hs : mustStir s l.slot) :
    takeLine i l s = makePre l.slot (passLine i .preStir s) := by
  unfold takeLine
  rw [passReason_stir h hs]

/-- A volumetric line's debit is asked for at once. -/
theorem takeLine_volumetric (h : (s.cans[l.slot]).state = .ready) (hs : ¬ mustStir s l.slot) (hn : needsReading s l = false) :
    takeLine i l s = debitStage i l (nextVolume s l) none s := by
  unfold takeLine
  rw [passReason_free h hs]
  exact if_neg (by simp [hn])

theorem takeLine_fresh {x : Int} (h : (s.cans[l.slot]).state = .ready) (hs : ¬ mustStir s l.slot)
    (hn : needsReading s l = true) (hf : s.disp.fresh = true) (hx : s.scale.latest = some x) :
    takeLine i l s = debitStage i l (nextVolume s l) (some x) s := by
  unfold takeLine
  rw [passReason_free h hs, hf, hx]
  exact if_pos hn

/-- The line that waits for its before-reading. -/
def awaitReading (i : Nat) (s : State) : State :=
  openRequest ((mapEntryAt i (fun l => { l with st := .active }) s).mapDisp fun d =>
    { d with st := .dispensing, step := some .beforeReading })

theorem takeLine_unread (h : (s.cans[l.slot]).state = .ready) (hs : ¬ mustStir s l.slot) (hn : needsReading s l = true)
    (hf : s.disp.fresh = false ∨ s.scale.latest = none) : takeLine i l s = awaitReading i s := by
  unfold takeLine
  rw [passReason_free h hs]
  dsimp only
  rw [if_pos hn]
  rcases hf with hf | hx
  · rw [hf]
    rfl
  · rw [hx]
    cases s.disp.fresh <;> rfl

theorem debitStage_stirring {v : Nat} {before : Option Int} (h : (s.cans[l.slot]).activity = .stirring) :
    debitStage i l v before s = passLine i .preStir s := if_pos (stirring_iff.2 h)

theorem debitStage_short {v : Nat} {before : Option Int} (h : (s.cans[l.slot]).activity ≠ .stirring)
    (hv : (s.cans[l.slot]).level < (s.cfg.cans[l.slot]).reserve + v) :
    debitStage i l v before s = setFlag .canisterLow (passLine i .awaitRefill s) := by
  unfold debitStage
  rw [if_neg (mt stirring_iff.1 h), if_neg (mt canDebit_iff.1 (Nat.not_le.2 hv))]

theorem debitStage_granted {v : Nat} {before : Option Int} (h : (s.cans[l.slot]).activity ≠ .stirring)
    (hv : (s.cfg.cans[l.slot]).reserve + v ≤ (s.cans[l.slot]).level) :
    debitStage i l v before s = beginShot i l v before s := by
  unfold debitStage
  rw [if_neg (mt stirring_iff.1 h), if_pos (canDebit_iff.2 hv)]

/-! ## The ACTIVE line -/

theorem findIdxFrom_none_iff {α : Type} {p : α → Bool} : ∀ {l : List α} {n : Nat},
    findIdxFrom p l n = none ↔ ∀ a ∈ l, p a = false
  | [], _ => by simp [findIdxFrom]
  | a :: as, n => by
    unfold findIdxFrom
    cases hp : p a with
    | true => simp [hp]
    | false => simp [hp, findIdxFrom_none_iff (l := as)]

theorem activeLine_none_iff (ht : s.disp.tin = some r) : activeLine s = none ↔ ∀ l ∈ r.lines, l.st ≠ .active := by
  unfold activeLine
  rw [findIdxFrom_none_iff, dispLines_some ht]
  simp

/-- An entry made ACTIVE is found. -/
theorem activeLine_modified {g : LineEntry → LineEntry} (hi : i < r.lines.length)
    (hg : ∀ l, (g l).st = .active) (htin : t.disp.tin.map (·.lines) = some (r.lines.modify i g)) :
    (activeLine t).isSome = true := by
  cases hx : t.disp.tin with
  | none => simp [hx] at htin
  | some x =>
    have hlines : x.lines = r.lines.modify i g := by simpa [hx] using htin
    rw [Option.isSome_iff_ne_none, Ne, activeLine_none_iff hx, hlines]
    intro hnone
    have hmem : (r.lines.modify i g)[i]? = some (g r.lines[i]) := getElem?_modify_self _ (List.getElem?_eq_getElem hi) g
    exact hnone _ (List.mem_of_getElem? hmem) (hg _)

/-! ## The shot (R42, R85) -/

/-- The entry of a line whose shot begins. -/
def shotEntry (s : State) (l : LineEntry) (v : Nat) (before : Option Int) (e : LineEntry) : LineEntry :=
  { e with
    st := .active
    plan := some (l.plan.getD (planFor s l))
    delivered := e.delivered + v
    topUps := if l.plan.isNone then e.topUps else e.topUps + 1
    base := before.orElse fun _ => e.base }

/-- The debited bay, its tin committed, before the drive has the operation. -/
def debited (i : Nat) (l : LineEntry) (v : Nat) (before : Option Int) (r : TinRecord) (s : State) : State :=
  { debit l.slot v s with
    disp := { s.disp with
      st := .dispensing
      step := some .shot
      fresh := false
      tin := some { r with committed := true, lines := r.lines.modify i (shotEntry s l v before) } }
    jobs := { s.jobs with reserved := s.jobs.reserved.filter (·.id != r.jobId) } }

theorem beginShot_eq (v : Nat) (before : Option Int) (ht : s.disp.tin = some r) : beginShot i l v before s =
    beginOp l.slot (if l.plan.isNone then .lineShot else .topUp)
      (if l.plan.isNone then (l.plan.getD (planFor s l)).steps else stepCount v (l.plan.getD (planFor s l)).k)
      (l.plan.getD (planFor s l)).k (debited i l v before r s) := by
  have hdisp : (debit l.slot v s).disp = s.disp := by simp
  have hjobs : (debit l.slot v s).jobs = s.jobs := by simp
  unfold beginShot debited
  rw [ht]
  dsimp only
  generalize debit l.slot v s = w at hdisp hjobs ⊢
  congr 1
  change commitTin r.jobId (((mapEntryAt i (shotEntry s l v before) w).mapDisp _).mapTin .dispense TinRecord.commit) = _
  simp [mapEntryAt, State.mapTin, State.mapDisp, commitTin, State.mapJobs, TinRecord.commit, hdisp, hjobs, ht]

theorem beginShot_disp (v : Nat) (before : Option Int) (ht : s.disp.tin = some r) : (beginShot i l v before s).disp =
    { s.disp with
      st := .dispensing
      step := some .shot
      fresh := false
      tin := some { r with committed := true, lines := r.lines.modify i (shotEntry s l v before) } } := by
  rw [beginShot_eq v before ht]
  simp [debited]

end Sys2Proof.Proofs
end

