-- ==== Sys2Proof/Proofs/Acceptance.lean ====
section
/-! PROOF. A tin accepted, its lines selected one after another, and the passed ones judged afresh (R81 to R83, R97). -/

namespace Sys2Proof.Proofs

open Sys2Proof Sys2Proof.Machine Sys2Proof.Safety Sys2Proof.Laws

variable {s t u : State} {r : TinRecord} {l : LineEntry} {i : Nat} {c : Slot}

theorem mapDisp_self {f : DispenseBay → DispenseBay} (h : f s.disp = s.disp) : s.mapDisp f = s := by
  unfold State.mapDisp
  rw [h]

/-! ## Planning at acceptance (R42 to R44) -/

theorem planEntry_eq (size : SizeCode) : planEntry s size l =
    if roundDiv (l.amount * (s.cfg.sizes[size]).fill) 1000 = 0 then
      { l with plannedV := 0, st := .done, verdict := some .omittedZero }
    else if (s.cfg.cans[l.slot]).minShot ≤ roundDiv (l.amount * (s.cfg.sizes[size]).fill) 1000 then
      { l with plannedV := roundDiv (l.amount * (s.cfg.sizes[size]).fill) 1000, st := .pending }
    else if (s.cfg.cans[l.slot]).minShot ≤ 2 * roundDiv (l.amount * (s.cfg.sizes[size]).fill) 1000 then
      { l with plannedV := (s.cfg.cans[l.slot]).minShot, raised := true, st := .pending }
    else { l with plannedV := 0, st := .done, verdict := some .omittedSmall } := by
  unfold planEntry plannedVolume treat State.canStatic
  generalize roundDiv (l.amount * (s.cfg.sizes[size]).fill) 1000 = v
  generalize (s.cfg.cans[l.slot]).minShot = m
  dsimp only
  by_cases h0 : v = 0
  · rw [if_pos h0, if_pos h0]
  · rw [if_neg h0, if_neg h0]
    by_cases hm : m ≤ v
    · rw [if_neg (Nat.not_lt.2 hm), if_pos hm]
    · rw [if_pos (Nat.lt_of_not_le hm), if_neg hm]
      by_cases h2 : m ≤ 2 * v
      · rw [if_pos h2, if_pos h2]
      · rw [if_neg h2, if_neg h2]

/-! ## Which line is selectable (R82, R83) -/

theorem selectable_iff : selectable s l = true ↔
    l.st = .pending ∨ (l.st = .passed .awaitCanister ∧ (s.cans[l.slot]).state = .ready) ∨
    (l.st = .passed .preStir ∧ (s.cans[l.slot]).activity ≠ .stirring ∧ l.slot ∉ s.stir.pre) ∨
    (l.st = .passed .awaitRefill ∧ (s.cfg.cans[l.slot]).reserve + nextVolume s l ≤ (s.cans[l.slot]).level) := by
  unfold selectable
  cases l.st with
  | pending => simp
  | active => simp
  | done => simp
  | passed why =>
    cases why with
    | awaitCanister =>
      rw [decide_eq_true_eq]
      refine ⟨fun h => .inr (.inl ⟨rfl, h⟩), fun h => ?_⟩
      rcases h with h | ⟨-, h⟩ | ⟨h, -⟩ | ⟨h, -⟩
      · cases h
      · exact h
      · cases h
      · cases h
    | preStir =>
      rw [Bool.and_eq_true, Bool.not_eq_true', Bool.not_eq_true', Bool.eq_false_iff, Bool.eq_false_iff, Ne, Ne, stirring_iff,
        preRequested_iff]
      refine ⟨fun h => .inr (.inr (.inl ⟨rfl, h⟩)), fun h => ?_⟩
      rcases h with h | ⟨h, -⟩ | ⟨-, h⟩ | ⟨h, -⟩
      · cases h
      · cases h
      · exact h
      · cases h
    | awaitRefill =>
      rw [canDebit_iff]
      refine ⟨fun h => .inr (.inr (.inr ⟨rfl, h⟩)), fun h => ?_⟩
      rcases h with h | ⟨h, -⟩ | ⟨h, -⟩ | ⟨-, h⟩
      · cases h
      · cases h
      · cases h
      · exact h

/-- The canister table as selection reads it, the requests perhaps more. -/
structure StirsMore (s t : State) : Prop where
  cans : t.cans = s.cans
  cfg : t.cfg = s.cfg
  pre : ∀ c ∈ s.stir.pre, c ∈ t.stir.pre

theorem nextVolume_congr (h : t.cfg = s.cfg) : nextVolume t l = nextVolume s l := by
  unfold nextVolume topUpFor State.canStatic
  rw [h]

theorem StirsMore.selectable (h : StirsMore s t) (hs : selectable s l = false) : selectable t l = false := by
  rw [Bool.eq_false_iff, Ne, selectable_iff] at hs ⊢
  rw [h.cans, h.cfg, nextVolume_congr h.cfg]
  intro ht
  refine hs ?_
  rcases ht with ht | ht | ⟨h1, h2, h3⟩ | ht
  · exact .inl ht
  · exact .inr (.inl ht)
  · exact .inr (.inr (.inl ⟨h1, h2, fun hp => h3 (h.pre _ hp)⟩))
  · exact .inr (.inr (.inr ht))

/-! ## The selection in the formula's order (R82, R97) -/

/-- The bay at work. -/
def working (s : State) : State := s.mapDisp fun d => { d with st := .dispensing }

theorem working_stirs : StirsMore s (working s) := ⟨rfl, rfl, fun _ => id⟩

theorem selectFrom_missing {js : List Nat} {j : Nat} (h : lineAt s j = none) :
    selectFrom (j :: js) s = selectFrom js s := by
  rw [selectFrom, h]

theorem selectFrom_unselectable {js : List Nat} {j : Nat} (h : lineAt s j = some l) (hs : selectable s l = false) :
    selectFrom (j :: js) s = selectFrom js s := by
  rw [selectFrom, h]
  exact if_neg (Bool.eq_false_iff.1 hs)

theorem selectFrom_taken {js : List Nat} {j : Nat} (h : lineAt s j = some l) (hs : selectable s l = true) :
    selectFrom (j :: js) s =
      if (activeLine (takeLine j l s)).isSome then takeLine j l s else selectFrom js (takeLine j l s) := by
  rw [selectFrom, h]
  exact if_pos hs

theorem selectFrom_skip (before after : List Nat)
    (h : ∀ j ∈ before, ∀ l, lineAt s j = some l → selectable s l = false) :
    selectFrom (before ++ after) s = selectFrom after s := by
  induction before with
  | nil => rfl
  | cons j js ih =>
    have hrest := ih fun k hk => h k (List.mem_cons_of_mem j hk)
    rw [List.cons_append, ← hrest]
    cases hl : lineAt s j with
    | none => exact selectFrom_missing hl
    | some l => exact selectFrom_unselectable hl (h j List.mem_cons_self l hl)

theorem selectFrom_none {js : List Nat} (h : ∀ j ∈ js, ∀ l, lineAt s j = some l → selectable s l = false) :
    selectFrom js s = s := by
  have hskip := selectFrom_skip js [] h
  rwa [List.append_nil] at hskip

theorem selectLine_active (h : (activeLine s).isSome = true) : selectLine s = s := if_pos h

theorem selectLine_idle (h : activeLine s = none) :
    selectLine s = finishSelection (selectFrom (List.range (dispLines s).length) (working s)) := if_neg (by simp [h])

theorem finishSelection_active (h : (activeLine s).isSome = true) : finishSelection s = s := if_pos h

theorem lineAt_some (ht : s.disp.tin = some r) (j : Nat) : lineAt s j = r.lines[j]? := by
  unfold lineAt
  rw [dispLines_some ht]

theorem activeLine_working : activeLine (working s) = activeLine s := activeLine_congr rfl

/-- Nothing to select: the bay is DONE or WAITING. -/
theorem selectLine_none (ht : s.disp.tin = some r) (h : ∀ l ∈ r.lines, l.st ≠ .active ∧ selectable s l = false) :
    selectLine s = { s with disp := { s.disp with
      st := if ∀ l ∈ r.lines, l.st = .done then .done else .waiting
      step := none } } := by
  have hidle : activeLine s = none := (activeLine_none_iff ht).2 fun l hl => (h l hl).1
  have hfrom : selectFrom (List.range (dispLines s).length) (working s) = working s :=
    selectFrom_none fun j _ l hl =>
      working_stirs.selectable (h l (List.mem_of_getElem? ((lineAt_some (s := working s) ht j).symm.trans hl))).2
  rw [selectLine_idle hidle, hfrom]
  unfold finishSelection
  rw [if_neg (by simp [activeLine_working, hidle]), show dispLines (working s) = r.lines from dispLines_some ht]
  by_cases hall : ∀ l ∈ r.lines, l.st = .done
  · rw [if_pos (by simpa using hall), if_pos hall]
    rfl
  · rw [if_neg (by simpa using hall), if_neg hall]
    rfl

/-- The bay after a selected line was passed. -/
structure LinePassed (i : Nat) (l : LineEntry) (r : TinRecord) (why : PassReason) (s u : State) : Prop where
  disp : u.disp = { s.disp with
    step := none, tin := some { r with lines := r.lines.modify i fun l => { l with st := .passed why } } }
  stirs : StirsMore s u
  stays : selectable u { l with st := .passed why } = false

theorem selectable_passed {why : PassReason} (h : l.st = .passed why)
    (hc : why = .awaitCanister → (s.cans[l.slot]).state ≠ .ready)
    (hp : why = .preStir → (s.cans[l.slot]).activity = .stirring ∨ l.slot ∈ s.stir.pre)
    (hr : why = .awaitRefill → (s.cans[l.slot]).level < (s.cfg.cans[l.slot]).reserve + nextVolume s l) :
    selectable s l = false := by
  rw [Bool.eq_false_iff, Ne, selectable_iff, h]
  rintro (h | ⟨h, hready⟩ | ⟨h, hidle, hnot⟩ | ⟨h, hlevel⟩) <;> cases h
  · exact hc rfl hready
  · exact (hp rfl).elim hidle hnot
  · exact absurd hlevel (Nat.not_le.2 (hr rfl))

theorem makePre_stirs (c : Slot) : StirsMore s (makePre c s) := by
  unfold makePre
  split
  · exact ⟨rfl, rfl, fun _ => id⟩
  · exact ⟨rfl, rfl, fun _ h => List.mem_append_left _ h⟩

theorem makePre_requested (hst : (s.cans[c]).state = .ready) :
    (s.cans[c]).activity = .stirring ∨ c ∈ (makePre c s).stir.pre := by
  by_cases h : (s.cans[c]).activity = .stirring ∨ c ∈ s.stir.pre
  · exact h.imp_right fun hp => (makePre_stirs c).pre c hp
  · rw [makePre_joins (by rw [hst]; simpa using h)]
    exact .inr (List.mem_append_right _ (List.mem_singleton_self c))

theorem debitStage_cases (i : Nat) (l : LineEntry) (v : Nat) (before : Option Int) (s : State) :
    (debitStage i l v before s = passLine i .preStir s ∧ (s.cans[l.slot]).activity = .stirring) ∨
    (debitStage i l v before s = setFlag .canisterLow (passLine i .awaitRefill s) ∧
      (s.cans[l.slot]).level < (s.cfg.cans[l.slot]).reserve + v) ∨
    debitStage i l v before s = beginShot i l v before s := by
  by_cases h : (s.cans[l.slot]).activity = .stirring
  · exact .inl ⟨debitStage_stirring h, h⟩
  · rcases Nat.lt_or_ge (s.cans[l.slot]).level ((s.cfg.cans[l.slot]).reserve + v) with hv | hv
    · exact .inr (.inl ⟨debitStage_short h hv, hv⟩)
    · exact .inr (.inr (debitStage_granted h hv))

theorem passLine_disp (ht : s.disp.tin = some r) (why : PassReason) : (passLine i why s).disp = { s.disp with
    step := none, tin := some { r with lines := r.lines.modify i fun l => { l with st := .passed why } } } := by
  rw [passLine_eq ht]

theorem shot_active {v : Nat} {before : Option Int} (ht : s.disp.tin = some r) (hi : i < r.lines.length) :
    (activeLine (beginShot i l v before s)).isSome = true :=
  activeLine_modified (g := shotEntry s l v before) hi (fun _ => rfl) (by rw [beginShot_disp v before ht]; rfl)

theorem awaitReading_active (ht : s.disp.tin = some r) (hi : i < r.lines.length) :
    (activeLine (awaitReading i s)).isSome = true :=
  activeLine_modified (g := fun l => { l with st := .active }) hi (fun _ => rfl)
    (by simp [awaitReading, mapEntryAt, State.mapTin, ht])

/-- A line that was taken and is not ACTIVE was passed, for a reason that holds. -/
theorem takeLine_passed (ht : s.disp.tin = some r) (hi : i < r.lines.length) (h : activeLine (takeLine i l s) = none) :
    ∃ why, LinePassed i l r why s (takeLine i l s) := by
  have hstage {v : Nat} {before : Option Int} (hv : nextVolume s l = v)
      (hu : activeLine (debitStage i l v before s) = none) : ∃ why, LinePassed i l r why s (debitStage i l v before s) := by
    rcases debitStage_cases i l v before s with ⟨hd, hst⟩ | ⟨hd, hlevel⟩ | hd <;> rw [hd] at hu ⊢
    · exact ⟨.preStir, passLine_disp ht _, ⟨rfl, rfl, fun _ => id⟩, selectable_passed rfl nofun (fun _ => .inl hst) nofun⟩
    · subst hv
      exact ⟨.awaitRefill, passLine_disp ht _, ⟨rfl, rfl, fun _ => id⟩, selectable_passed rfl nofun nofun fun _ => hlevel⟩
    · rw [Option.eq_none_iff_forall_ne_some] at hu
      obtain ⟨x, hx⟩ := Option.isSome_iff_exists.1 (shot_active (l := l) (v := v) (before := before) ht hi)
      exact absurd hx (hu x)
  by_cases hready : (s.cans[l.slot]).state = .ready
  · by_cases hs : mustStir s l.slot
    · rw [takeLine_preStir hready hs]
      refine ⟨.preStir, ?_, ?_, selectable_passed rfl nofun (fun _ => ?_) nofun⟩
      · rw [show (makePre l.slot (passLine i .preStir s)).disp = (passLine i .preStir s).disp by simp, passLine_disp ht]
      · obtain ⟨hc, hcfg, hpre⟩ := makePre_stirs (s := passLine i .preStir s) l.slot
        exact ⟨hc, hcfg, hpre⟩
      · have hc := (makePre_stirs (s := passLine i .preStir s) l.slot).cans
        rw [hc]
        exact makePre_requested (s := passLine i .preStir s) hready
    · cases hn : needsReading s l with
      | false =>
        rw [takeLine_volumetric hready hs hn] at h ⊢
        exact hstage rfl h
      | true =>
        by_cases hf : s.disp.fresh = false ∨ s.scale.latest = none
        · rw [takeLine_unread hready hs hn hf] at h
          have hact := awaitReading_active ht hi
          rw [h] at hact
          exact absurd hact (by decide)
        · rw [not_or, Bool.not_eq_false] at hf
          obtain ⟨hfresh, hlatest⟩ := hf
          obtain ⟨x, hx⟩ := Option.ne_none_iff_exists'.1 hlatest
          rw [takeLine_fresh hready hs hn hfresh hx] at h ⊢
          exact hstage rfl h
  · rw [takeLine_awaitCanister hready]
    exact ⟨.awaitCanister, passLine_disp ht _, ⟨rfl, rfl, fun _ => id⟩,
      selectable_passed rfl (fun _ => hready) nofun nofun⟩

theorem range_split {i n : Nat} (h : i < n) : ∃ rest, List.range n = List.range i ++ i :: rest := by
  obtain ⟨k, rfl⟩ := Nat.exists_eq_add_of_lt h
  refine ⟨(List.range k).map (i + ·.succ), ?_⟩
  rw [Nat.add_assoc, List.range_add, List.range_succ_eq_map, List.map_cons, List.map_map]
  rfl

/-- The first selectable line is taken; where it is passed, the next selection follows. -/
theorem selectLine_first (ht : s.disp.tin = some r) (hi : r.lines[i]? = some l) (hsel : selectable s l = true)
    (hidle : ∀ m ∈ r.lines, m.st ≠ .active)
    (hfirst : ∀ (j : Nat) (m : LineEntry), j < i → r.lines[j]? = some m → selectable s m = false) :
    ((activeLine (takeLine i l (working s))).isSome = true → selectLine s = takeLine i l (working s)) ∧
    (activeLine (takeLine i l (working s)) = none → selectLine s = selectLine (takeLine i l (working s))) := by
  obtain ⟨hlt, -⟩ := List.getElem?_eq_some_iff.1 hi
  obtain ⟨rest, hrange⟩ := range_split hlt
  have hskip : ∀ j ∈ List.range i, ∀ m, lineAt (working s) j = some m → selectable (working s) m = false := by
    intro j hj m hm
    exact working_stirs.selectable (hfirst j m (List.mem_range.1 hj) ((lineAt_some (s := working s) ht j).symm.trans hm))
  have hsel' : selectable (working s) l = true := by
    rw [selectable_iff] at hsel ⊢
    exact hsel
  have hnow : selectLine s = finishSelection (if (activeLine (takeLine i l (working s))).isSome then takeLine i l (working s)
      else selectFrom rest (takeLine i l (working s))) := by
    rw [selectLine_idle ((activeLine_none_iff ht).2 hidle), dispLines_some ht, hrange, selectFrom_skip _ _ hskip,
      selectFrom_taken ((lineAt_some (s := working s) ht i).trans hi) hsel']
  refine ⟨fun hact => ?_, fun hnone => ?_⟩
  · rw [hnow, if_pos hact, finishSelection_active hact]
  · obtain ⟨why, hdisp, hstirs, hstays⟩ := takeLine_passed (s := working s) ht hlt hnone
    rw [hnow, if_neg (by simp [hnone])]
    generalize takeLine i l (working s) = u at hnone hdisp hstirs hstays ⊢
    have hself : working u = u := mapDisp_self (by rw [hdisp]; rfl)
    have htin : u.disp.tin = some { r with lines := r.lines.modify i fun l => { l with st := .passed why } } := by rw [hdisp]
    have hskip' : ∀ j ∈ List.range i ++ [i], ∀ m, lineAt u j = some m → selectable u m = false := by
      intro j hj m hm
      rw [lineAt_some htin] at hm
      by_cases hji : j = i
      · subst hji
        rw [getElem?_modify_self _ hi] at hm
        cases hm
        exact hstays
      · have hlow : j < i := by simpa [hji] using hj
        dsimp only at hm
        rw [List.getElem?_modify_ne _ _ (Ne.symm hji)] at hm
        exact hstirs.selectable (working_stirs.selectable (hfirst j m hlow hm))
    rw [selectLine_idle hnone, hself, dispLines_some htin, List.length_modify, hrange, ← List.singleton_append,
      ← List.append_assoc, selectFrom_skip _ _ hskip']

/-! ## Requests made line by line (R81, R83) -/

/-- Two ways to make requests agree when they do in every state with the same canister table. -/
theorem foldl_requests {f g : State → LineEntry → State} (ls : List LineEntry)
    (hfg : ∀ l ∈ ls, ∀ u : State, u.cans = s.cans → u.cfg = s.cfg → f u l = g u l)
    (hg : ∀ (u : State) (l : LineEntry), (g u l).cans = u.cans ∧ (g u l).cfg = u.cfg) :
    ∀ u : State, u.cans = s.cans → u.cfg = s.cfg → ls.foldl f u = ls.foldl g u := by
  induction ls with
  | nil => exact fun _ _ _ => rfl
  | cons l ls ih =>
    intro u hc hcfg
    rw [List.foldl_cons, List.foldl_cons, hfg l List.mem_cons_self u hc hcfg]
    exact ih (fun m hm => hfg m (List.mem_cons_of_mem l hm)) _ ((hg u l).1.trans hc) ((hg u l).2.trans hcfg)

theorem hasSettled_congr (hc : t.cans = s.cans) (hcfg : t.cfg = s.cfg) : hasSettled t c = hasSettled s c := by
  unfold hasSettled State.canStatic State.can
  rw [hc, hcfg]

/-- A request made or not, the canister table is the same. -/
theorem ask_keeps (p : Prop) [Decidable p] : (if p then makePre c s else s).cans = s.cans ∧
    (if p then makePre c s else s).cfg = s.cfg := by
  obtain ⟨hc, hcfg, -⟩ := makePre_stirs (s := s) c
  split
  · exact ⟨hc, hcfg⟩
  · exact ⟨rfl, rfl⟩

theorem lookAhead_eq (hc : u.cans = s.cans) (hcfg : u.cfg = s.cfg) : lookAhead l u =
    if l.st = .pending ∧ hasSettled s l.slot = true then makePre l.slot u else u := by
  unfold lookAhead
  rw [hasSettled_congr hc hcfg]
  simp only [Bool.and_eq_true, decide_eq_true_eq]

theorem judgeTare_outside {x : Int} (ht : s.disp.tin = some r)
    (h : ¬ (((s.cfg.sizes[r.size]).grossLow : Int) ≤ x ∧ x ≤ (s.cfg.sizes[r.size]).grossHigh)) :
    judgeTare x s = setFlag .tinWrong (s.mapDisp fun d => { d with st := .wrongTin }) := by
  unfold judgeTare
  rw [ht]
  exact if_neg (by simpa using h)

theorem judgeTare_inside {x : Int} (ht : s.disp.tin = some r)
    (h : ((s.cfg.sizes[r.size]).grossLow : Int) ≤ x ∧ x ≤ (s.cfg.sizes[r.size]).grossHigh) :
    judgeTare x s = acceptTin x r s := by
  unfold judgeTare
  rw [ht]
  exact if_pos (by simpa using h)

theorem acceptTin_eq (x : Int) (ht : s.disp.tin = some r) : acceptTin x r s =
    selectLine ((r.lines.map (planEntry s r.size)).foldl
      (fun (u : State) l => if l.st = .pending ∧ hasSettled s l.slot = true then makePre l.slot u else u) { s with
        disp := { s.disp with tin := some { r with tare := some x, lines := r.lines.map (planEntry s r.size) } }
        events := { s.events with flags := s.events.flags &&& ~~~(BitVec.twoPow 15 2) } }) := by
  have haccepted : clearFlag .tinWanted (s.mapTin .dispense fun v =>
      { v with tare := some x, lines := v.lines.map (planEntry s r.size) }) = { s with
        disp := { s.disp with tin := some { r with tare := some x, lines := r.lines.map (planEntry s r.size) } }
        events := { s.events with flags := s.events.flags &&& ~~~(BitVec.twoPow 15 2) } } := by
    simp [clearFlag, State.mapEvents, State.mapTin, State.mapDisp, ht, EventFlag.bit]
  unfold acceptTin
  dsimp only
  rw [haccepted]
  exact congrArg selectLine (foldl_requests (s := s) _ (fun l _ u hc hcfg => lookAhead_eq hc hcfg)
    (fun u l => ask_keeps _) _ rfl rfl)

/-! ## The passed lines judged afresh (R83) -/

theorem judgeEntry_settled (h : ∀ why : PassReason, l.st ≠ .passed why) : judgeEntry s l = l := by
  unfold judgeEntry
  split
  · next why hl => exact absurd hl (h why)
  all_goals rfl

theorem judgeEntry_reason {why q : PassReason} (h : l.st = .passed why) (hq : passReason s l.slot = some q) :
    judgeEntry s l = { l with st := .passed q } := by
  unfold judgeEntry
  rw [h]
  dsimp only
  rw [hq]

theorem judgeEntry_free {why : PassReason} (h : l.st = .passed why) (hq : passReason s l.slot = none) :
    judgeEntry s l =
      if (s.cfg.cans[l.slot]).reserve + nextVolume s l ≤ (s.cans[l.slot]).level then l else { l with st := .passed .awaitRefill } := by
  unfold judgeEntry
  rw [h]
  dsimp only
  rw [hq]
  simp only [canDebit_iff]

theorem requestFor_passed {why : PassReason} (h : l.st = .passed why) :
    requestFor l u = if passReason u l.slot = some .preStir then makePre l.slot u else u := by
  unfold requestFor
  rw [h]

theorem requestFor_other (h : ∀ why : PassReason, l.st ≠ .passed why) : requestFor l u = u := by
  unfold requestFor
  split
  · next why hl => exact absurd hl (h why)
  all_goals rfl

theorem judgeEntry_slot : (judgeEntry s l).slot = l.slot := by
  unfold judgeEntry
  repeat' split
  all_goals rfl

/-- A judged line that is passed has the reason its canister gives. -/
theorem judgeEntry_passed {why q : PassReason} (hw : (judgeEntry s l).st = .passed why)
    (hq : passReason s (judgeEntry s l).slot = some q) : (judgeEntry s l).st = .passed q := by
  rw [judgeEntry_slot] at hq
  by_cases he : ∃ w : PassReason, l.st = .passed w
  · obtain ⟨w, hw'⟩ := he
    rw [judgeEntry_reason hw' hq]
  · rw [not_exists] at he
    rw [judgeEntry_settled he] at hw
    exact absurd hw (he why)

/-- The request of a judged line is R83's third case, whatever requests were made before it. -/
theorem requestFor_judged {e : LineEntry} (hl : judgeEntry s e = l) (hc : u.cans = s.cans) (hcfg : u.cfg = s.cfg) :
    requestFor l u = if l.st = .passed .preStir ∧ hasSettled s l.slot = true then makePre l.slot u else u := by
  have hreason {why q : PassReason} (hw : l.st = .passed why) (hq : passReason s l.slot = some q) : l.st = .passed q := by
    subst hl
    exact judgeEntry_passed hw hq
  by_cases hp : ∃ why : PassReason, l.st = .passed why
  case neg =>
    rw [not_exists] at hp
    rw [requestFor_other hp, if_neg fun h => hp _ h.1]
  obtain ⟨why, hw⟩ := hp
  rw [requestFor_passed hw]
  by_cases hready : (s.cans[l.slot]).state = .ready
  case neg =>
    have hunready : (u.cans[l.slot]).state ≠ .ready := hc ▸ hready
    have hcan := hreason hw (passReason_unready hready)
    rw [passReason_unready hunready, if_neg (by decide), if_neg (by rw [hcan]; simp)]
  have hready' : (u.cans[l.slot]).state = .ready := hc ▸ hready
  have hsame : hasSettled u l.slot = hasSettled s l.slot := hasSettled_congr hc hcfg
  by_cases hs : hasSettled s l.slot = true
  · rw [if_pos (passReason_stir hready' (.inr (.inr (hsame.trans hs)))),
      if_pos ⟨hreason hw (passReason_stir hready (.inr (.inr hs))), hs⟩]
  · rw [if_neg (c := _ ∧ _) fun h => hs h.2]
    by_cases hstir : passReason u l.slot = some .preStir
    · obtain ⟨-, hst | hpre | hset⟩ := passReason_iff.2.1.1 hstir
      · rw [if_pos hstir, makePre_refused (.inr (.inr (.inl hst)))]
      · rw [if_pos hstir, makePre_refused (.inr (.inr (.inr hpre)))]
      · exact absurd (hsame.symm.trans hset) hs
    · rw [if_neg hstir]

/-- The tin's lines as they are judged afresh. -/
def rejudged (r : TinRecord) (s : State) : State :=
  { s with disp := { s.disp with tin := some { r with lines := r.lines.map (judgeEntry s) } } }

theorem judgePassed_idle (ht : s.disp.tin = some r) (h : s.disp.lost = true ∨ r.cancelled = true) : judgePassed s = s := by
  have hc : (s.disp.lost || dispCancelled s) = true := by
    unfold dispCancelled
    rw [ht]
    simpa using h
  exact if_pos hc

theorem judgePassed_eq (ht : s.disp.tin = some r) (hl : s.disp.lost = false) (hc : r.cancelled = false) : judgePassed s =
    if s.disp.st = .dispensing ∨ s.disp.st = .waiting then
      (r.lines.map (judgeEntry s)).foldl (fun (u : State) l =>
        if l.st = .passed .preStir ∧ hasSettled s l.slot = true then makePre l.slot u else u) (rejudged r s)
    else rejudged r s := by
  have hno : (s.disp.lost || dispCancelled s) = false := by
    unfold dispCancelled
    rw [ht, hl]
    exact hc
  have hmap : (s.mapTin .dispense fun t => { t with lines := t.lines.map (judgeEntry s) }) = rejudged r s := by
    simp [State.mapTin, State.mapDisp, rejudged, ht]
  unfold judgePassed
  rw [hno, hmap]
  simp only [Bool.false_eq_true, if_false, Bool.or_eq_true, decide_eq_true_eq]
  refine if_congr Iff.rfl (foldl_requests (s := s) _ (fun l hmem u hcans hcfg => ?_) (fun u l => ask_keeps _) _ rfl rfl) rfl
  obtain ⟨e, -, he⟩ := List.mem_map.1 hmem
  exact requestFor_judged he hcans hcfg

/-! ## The report on a canister (R29, R82, R83) -/

theorem reportCanister_waiting (h : (judgePassed s).disp.st = .waiting) (htin : (judgePassed s).disp.tin = some r) :
    reportCanister c s =
      if ∃ l ∈ r.lines, selectable (judgePassed s) l = true then selectLine (judgePassed s) else judgePassed s := by
  unfold reportCanister
  dsimp only
  rw [h]
  dsimp only
  rw [dispLines_some htin]
  simp only [List.any_eq_true]

theorem reportCanister_working (h : (judgePassed s).disp.st = .dispensing)
    (hstep : (judgePassed s).disp.step ≠ some .beforeReading ∨ activeLine (judgePassed s) = none) :
    reportCanister c s = judgePassed s := by
  unfold reportCanister
  dsimp only
  rw [h]
  dsimp only
  split
  · next i l hl =>
    rw [if_neg]
    rcases hstep with hstep | hnone
    · simp [hstep]
    · rw [hnone] at hl
      cases hl
  · rfl

theorem reportCanister_unheard (h1 : (judgePassed s).disp.st ≠ .dispensing) (h2 : (judgePassed s).disp.st ≠ .waiting)
    (h3 : (judgePassed s).disp.st ≠ .calPrime) (h4 : (judgePassed s).disp.st ≠ .calRate) :
    reportCanister c s = judgePassed s := by
  unfold reportCanister
  dsimp only
  split
  case h_1 h => exact absurd h h1
  case h_2 h => exact absurd h h2
  case h_3 h => exact absurd h h3
  case h_4 h => exact absurd h h4
  case h_5 => rfl

/-- Settles O38: acceptance, planning, selection, the reasons, the judgement of the passed lines and the report. -/
theorem tinsAreAcceptedAndLinesSelected : Obligations.TinsAreAcceptedAndLinesSelected := by
  unfold Obligations.TinsAreAcceptedAndLinesSelected
  refine ⟨fun s r x ht => ⟨judgeTare_outside ht, fun hlow hhigh => ?_⟩, fun s size l => planEntry_eq size,
    fun s l => selectable_iff, fun s r ht => ⟨?active, ?done, ?waiting, fun i l hi hsel hidle hfirst =>
      selectLine_first ht hi hsel hidle hfirst⟩, fun s c => passReason_iff,
    fun s l => ⟨judgeEntry_settled, fun why hw => ⟨fun q hq => judgeEntry_reason hw hq, fun hq => ⟨fun hlevel => ?_,
      fun hlevel => ?_⟩⟩⟩,
    fun s r ht => ⟨judgePassed_idle ht, fun hl hc => ⟨fun hst => ?_, fun h1 h2 => ?_⟩⟩,
    fun s c => ⟨fun hst r htin => ⟨fun hex => ?_, fun hall => ?_⟩, reportCanister_working, reportCanister_unheard⟩⟩
  case active =>
    rintro ⟨l, hl, hact⟩
    refine selectLine_active (Option.isSome_iff_ne_none.2 fun hnone => ?_)
    exact (activeLine_none_iff ht).1 hnone l hl hact
  case done =>
    intro hdone
    have hno : ∀ l ∈ r.lines, l.st ≠ .active ∧ selectable s l = false := fun l hl =>
      ⟨by rw [hdone l hl]; decide, by unfold selectable; rw [hdone l hl]⟩
    rw [selectLine_none ht hno, if_pos hdone]
  case waiting =>
    rintro hno ⟨l, hl, hnot⟩
    rw [selectLine_none ht hno, if_neg fun hall => hnot (hall l hl)]
  · exact (judgeTare_inside ht ⟨hlow, hhigh⟩).trans (acceptTin_eq x ht)
  · rw [judgeEntry_free hw hq, if_neg (Nat.not_le.2 hlevel)]
  · rw [judgeEntry_free hw hq, if_pos hlevel]
  · exact (judgePassed_eq ht hl hc).trans (if_pos hst)
  · exact (judgePassed_eq ht hl hc).trans (if_neg fun h => h.elim h1 h2)
  · exact (reportCanister_waiting hst htin).trans (if_pos hex)
  · refine (reportCanister_waiting hst htin).trans (if_neg ?_)
    rintro ⟨l, hl, hsel⟩
    exact Bool.eq_false_iff.1 (hall l hl) hsel

end Sys2Proof.Proofs
end

