-- ==== Sys2Proof/Proofs/ShotBegins.lean ====
section
/-! PROOF. The debit, the operation handed to the drive, and what a taken line becomes (R24, R26, R42, R52, R82 to R85). -/

namespace Sys2Proof.Proofs

open Sys2Proof Sys2Proof.Machine Sys2Proof.Safety Sys2Proof.Laws

variable {s t u : State} {r : TinRecord} {l : LineEntry} {i : Nat} {c : Slot} {o p : PumpOp}

/-! ## The operation handed to the drive (R52) -/

/-- The operation of an order, at some segment of it. -/
structure Assigned (o p : PumpOp) : Prop where
  slot : p.slot = o.slot
  kind : p.kind = o.kind
  total : p.total = o.total
  k : p.k = o.k
  counted : p.counted = o.counted

/-- The levels of the canisters are kept. -/
def KeepsLevels (s t : State) : Prop := ∀ c : Slot, (t.cans[c]).level = (s.cans[c]).level

theorem KeepsLevels.of_eq (h : t.cans = s.cans) : KeepsLevels s t := fun c => by rw [h]

theorem KeepsLevels.trans (h : KeepsLevels s t) (h' : KeepsLevels t u) : KeepsLevels s u := fun c => (h' c).trans (h c)

theorem mapCan_keepsLevels {f : Canister → Canister} (j : Slot) (hf : ∀ k, (f k).level = k.level) :
    KeepsLevels s (s.mapCan j f) := by
  intro c
  rw [cans_mapCan]
  split
  · next h =>
    subst h
    exact hf _
  · rfl

/-- An order under way, in the drive with the levels kept. -/
structure Begun (o : PumpOp) (s t : State) : Prop where
  op : ∃ p, t.pump.op = some p ∧ Assigned o p
  levels : KeepsLevels s t

theorem mapOp_begun {f : PumpOp → PumpOp} (hop : s.pump.op = some o) (hf : Assigned o (f o)) : Begun o s (mapOp f s) :=
  ⟨⟨f o, congrArg (Option.map f) hop, hf⟩, .of_eq rfl⟩

theorem Begun.mapCan {f : Canister → Canister} (h : Begun o s t) (j : Slot) (hf : ∀ k, (f k).level = k.level) :
    Begun o s (t.mapCan j f) := ⟨h.op, h.levels.trans (mapCan_keepsLevels j hf)⟩

theorem forwardOrRefill_begun (hop : s.pump.op = some o) : Begun o s (forwardOrRefill o s) := by
  unfold forwardOrRefill
  dsimp only
  split
  · exact (mapOp_begun hop ⟨rfl, rfl, rfl, rfl, rfl⟩).mapCan o.slot fun _ => rfl
  · exact mapOp_begun hop ⟨rfl, rfl, rfl, rfl, rfl⟩

theorem firstSegment_begun (hop : s.pump.op = some o) : Begun o s (firstSegment o s) := by
  unfold firstSegment
  split
  · exact (mapOp_begun hop ⟨rfl, rfl, rfl, rfl, rfl⟩).mapCan o.slot fun _ => rfl
  · split
    · exact (mapOp_begun hop ⟨rfl, rfl, rfl, rfl, rfl⟩).mapCan o.slot fun _ => rfl
    · exact forwardOrRefill_begun hop

/-- The drive has the operation; the canister pumps, its level as the debit left it. -/
theorem beginOp_begun (kind : OpKind) (steps k : Nat) :
    (∃ p, (beginOp c kind steps k s).pump.op = some p ∧ p.slot = c ∧ p.kind = kind ∧ p.total = steps ∧ p.k = k ∧
      p.counted = 0) ∧ KeepsLevels s (beginOp c kind steps k s) := by
  unfold beginOp
  dsimp only
  generalize hw : setActivity c .pumping (s.mapPump fun p => { p with op := some _ }) = w
  have hlevels : KeepsLevels s w := by
    rw [← hw]
    exact KeepsLevels.trans (.of_eq rfl) (mapCan_keepsLevels (s := s.mapPump fun p => { p with op := some _ }) c fun _ => rfl)
  obtain ⟨⟨p, hp, hslot, hkind, htotal, hk, hcounted⟩, hl⟩ := firstSegment_begun (s := w) (by rw [← hw]; rfl)
  exact ⟨⟨p, hp, hslot, hkind, htotal, hk, hcounted⟩, hlevels.trans hl⟩

/-! ## The debit (R24, R26) -/

theorem debit_level (v : Nat) : ((debit c v s).cans[c]).level = (s.cans[c]).level - v := by
  have hcan := congrArg Canister.level (mapCan_self c (fun k => { k with level := k.level - v }) s)
  unfold debit
  dsimp only
  split <;> exact hcan

theorem isLow_eq : isLow s c = decide ((s.cans[c]).level < (s.cfg.cans[c]).reserve + s.cfg.general.lowMargin) := rfl

theorem debit_flag (v : Nat) : (debit c v s).flag .canisterLow = (s.flag .canisterLow ||
    (decide ((s.cfg.cans[c]).reserve + s.cfg.general.lowMargin ≤ (s.cans[c]).level) &&
      decide ((s.cans[c]).level - v < (s.cfg.cans[c]).reserve + s.cfg.general.lowMargin))) := by
  have hlow : isLow (s.mapCan c fun k => { k with level := k.level - v }) c =
      decide ((s.cans[c]).level - v < (s.cfg.cans[c]).reserve + s.cfg.general.lowMargin) := by
    rw [isLow_eq, mapCan_self]
    rfl
  have hhigh : (!isLow s c) = decide ((s.cfg.cans[c]).reserve + s.cfg.general.lowMargin ≤ (s.cans[c]).level) := by
    rw [isLow_eq, Bool.eq_iff_iff, Bool.not_eq_true', decide_eq_false_iff_not, decide_eq_true_eq, Nat.not_lt]
  unfold debit
  dsimp only
  rw [hlow, hhigh]
  split
  · next h => rw [flag_setFlag_self, h, Bool.or_true]
  · next h =>
    rw [Bool.eq_false_iff.2 h, Bool.or_false]
    rfl

/-! ## The shot (R42, R85) -/

theorem beginShot_jobs (v : Nat) (before : Option Int) (ht : s.disp.tin = some r) : (beginShot i l v before s).jobs =
    { s.jobs with reserved := s.jobs.reserved.filter (·.id != r.jobId) } := by
  rw [beginShot_eq v before ht]
  simp [debited]

theorem beginShot_level (v : Nat) (before : Option Int) (ht : s.disp.tin = some r) :
    ((beginShot i l v before s).cans[l.slot]).level = (s.cans[l.slot]).level - v := by
  rw [beginShot_eq v before ht, (beginOp_begun _ _ _).2 l.slot]
  exact debit_level v

theorem beginShot_flag (v : Nat) (before : Option Int) (ht : s.disp.tin = some r) :
    (beginShot i l v before s).flag .canisterLow = (debit l.slot v s).flag .canisterLow := by
  rw [beginShot_eq v before ht]
  simp [State.flag, debited]

theorem beginShot_op (v : Nat) (before : Option Int) (ht : s.disp.tin = some r) :
    ∃ p, (beginShot i l v before s).pump.op = some p ∧ p.slot = l.slot ∧
      p.kind = (if l.plan.isNone then .lineShot else .topUp) ∧
      p.total = (if l.plan.isNone then (l.plan.getD (planFor s l)).steps else stepCount v (l.plan.getD (planFor s l)).k) ∧
      p.k = (l.plan.getD (planFor s l)).k ∧ p.counted = 0 := by
  rw [beginShot_eq v before ht]
  exact (beginOp_begun _ _ _).1

/-! ## What a line needs -/

theorem needsReading_iff : needsReading s l = true ↔
    l.plan.isSome = true ∨ s.cfg.general.verifyFloor ≤ roundDiv (l.plannedV * (s.cans[l.slot]).density) 100 := by
  have htol : (planFor s l).tol.isSome = true ↔
      s.cfg.general.verifyFloor ≤ roundDiv (l.plannedV * (s.cans[l.slot]).density) 100 := by
    unfold planFor expectedGain State.can
    dsimp only
    split
    · next h => exact ⟨fun _ => h, fun _ => rfl⟩
    · next h => exact ⟨nofun, fun h' => absurd h' h⟩
  unfold needsReading
  rw [Bool.or_eq_true, htol]

theorem awaitReading_eq (ht : s.disp.tin = some r) : awaitReading i s = { s with
    scale := { s.scale with window := [], request := some 0 }
    disp := { s.disp with
      st := .dispensing
      step := some .beforeReading
      quiet := true
      fresh := false
      tin := some { r with lines := r.lines.modify i fun l => { l with st := .active } } } } := by
  simp [awaitReading, openRequest, mapEntryAt, State.mapTin, State.mapDisp, State.mapScale, ht]

theorem not_mustStir (h1 : (s.cans[c]).activity ≠ .stirring) (h2 : c ∉ s.stir.pre) (h3 : hasSettled s c = false) :
    ¬ mustStir s c := by
  rintro (h | h | h)
  · exact h1 h
  · exact h2 h
  · exact Bool.eq_false_iff.1 h3 h

/-- Settles O39: what a taken line becomes, the volume it asks for, and the shot that a granted debit begins. -/
theorem linesArePassedOrShot : Obligations.LinesArePassedOrShot := by
  unfold Obligations.LinesArePassedOrShot
  refine ⟨fun s r i l ht => ⟨fun h => ?_, fun h hs => ?_, fun h h1 h2 => ⟨fun hset => ?settled, fun hset hn hf => ?unread,
    fun x hset hn hf hx => ?fresh, fun hset hn => ?volumetric⟩, fun v before => ⟨fun h => ?_, fun h hv => ?_,
    debitStage_granted⟩⟩, fun s l => ?volume, fun s r i l v before ht => ⟨?_, ?_, ?_, ?_, ?op⟩⟩
  · rw [takeLine_awaitCanister h, passLine_eq ht]
  · rw [takeLine_preStir h (hs.imp_right .inl), makePre_passLine _ hs, passLine_eq ht]
  case settled =>
    rw [takeLine_preStir h (.inr (.inr hset)), passLine_eq ht]
    exact makePre_joins (by rw [show _ = CanState.ready from h]; simpa using ⟨h1, h2⟩)
  case unread =>
    rw [takeLine_unread h (not_mustStir h1 h2 hset) (needsReading_iff.2 hn) (.inl hf), awaitReading_eq ht]
  case fresh => exact takeLine_fresh h (not_mustStir h1 h2 hset) (needsReading_iff.2 hn) hf hx
  case volumetric =>
    exact takeLine_volumetric h (not_mustStir h1 h2 hset) (Bool.eq_false_iff.2 (mt needsReading_iff.1 hn))
  · rw [debitStage_stirring h, passLine_eq ht]
  · rw [debitStage_short h hv, passLine_eq ht]
    rfl
  case volume =>
    unfold nextVolume
    cases l.plan <;> rfl
  · exact beginShot_disp v before ht
  · exact beginShot_jobs v before ht
  · exact beginShot_level v before ht
  · rw [beginShot_flag v before ht, debit_flag]
  case op =>
    obtain ⟨p, hp, hslot, hkind, htotal, hk, hcounted⟩ := beginShot_op (i := i) (l := l) v before ht
    refine ⟨p, hp, hslot, hk, hcounted, fun hplan => ?_, fun hplan => ?_⟩
    · rw [hkind, htotal, hplan]
      exact ⟨rfl, rfl⟩
    · have hsome : l.plan.isNone = false := by rw [← Option.not_isSome, hplan]; rfl
      rw [hkind, htotal, hsome]
      exact ⟨rfl, rfl⟩

end Sys2Proof.Proofs
end

