-- ==== Sys2Proof/Proofs/Weighings.lean ====
section
/-! PROOF. The end of a shot, and what the after-reading makes of its line (R27, R86 to R89). -/

namespace Sys2Proof.Proofs

open Sys2Proof Sys2Proof.Machine Sys2Proof.Safety Sys2Proof.Laws

variable {s t u : State} {r : TinRecord} {l : LineEntry} {i : Nat} {c : Slot} {p : LinePlan}

/-! ## The shot completes (R86) -/

theorem mapEntryAt_eq (ht : s.disp.tin = some r) (g : LineEntry → LineEntry) : mapEntryAt i g s =
    { s with disp := { s.disp with tin := some { r with lines := r.lines.modify i g } } } := by
  simp [mapEntryAt, State.mapTin, State.mapDisp, ht]

theorem finishLine_eq (ht : s.disp.tin = some r) (v : LineVerdict) : finishLine i v s = { s with disp := { s.disp with
    step := none, tin := some { r with lines := r.lines.modify i fun e => { e with st := .done, verdict := some v } } } } := by
  unfold finishLine
  rw [mapEntryAt_eq ht]
  rfl

theorem shotDone_volumetric (h : activeLine s = some (i, l)) (htol : l.plan.bind (·.tol) = none) :
    shotDone s = selectLine (finishLine i (if l.raised then .raised else .volumetric) s) := by
  unfold shotDone
  rw [h]
  dsimp only
  rw [htol]

theorem shotDone_weighed (h : activeLine s = some (i, l)) (htol : (l.plan.bind (·.tol)).isSome = true) :
    shotDone s = openRequest (s.mapDisp fun d => { d with step := some .verify }) := by
  obtain ⟨tol, htol⟩ := Option.isSome_iff_exists.1 htol
  unfold shotDone
  rw [h]
  dsimp only
  rw [htol]

theorem opCompleted_line (h : s.disp.st = .dispensing) : opCompleted s = shotDone s := by
  unfold opCompleted
  rw [h]

/-! ## The miss count (R27) -/

theorem countMiss_corrected (h : (s.cans[c]).miss ≠ 2) :
    countMiss c .corrected s = s.mapCan c fun k => { k with miss := min 3 (k.miss + 1) } := if_neg h

theorem countMiss_third (h : (s.cans[c]).miss = 2) :
    countMiss c .corrected s = setFlag .recalAdvised (s.mapCan c fun k => { k with miss := min 3 (k.miss + 1) }) := if_pos h

/-! ## The judgement (R87) -/

section Judgement

variable {mExp tol topUps maxTopUps : Nat} {g : Int}

theorem judgeGain_disturbed (h : g < -(tol : Int)) : judgeGain mExp tol topUps maxTopUps g = .disturbed := if_pos h

theorem judgeGain_within (h : -(tol : Int) ≤ g) (hd : ((mExp : Int) - g).natAbs ≤ tol) :
    judgeGain mExp tol topUps maxTopUps g = .within := by
  unfold judgeGain
  dsimp only
  rw [if_neg (by omega), if_pos hd]

theorem judgeGain_over (h : -(tol : Int) ≤ g) (hd : (mExp : Int) - g < -(tol : Int)) :
    judgeGain mExp tol topUps maxTopUps g = .over := by
  unfold judgeGain
  dsimp only
  rw [if_neg (by omega), if_neg (by omega), if_pos (by omega)]

theorem judgeGain_noFlow (h : -(tol : Int) ≤ g) (hd : (tol : Int) < (mExp : Int) - g)
    (hhalf : ((mExp / 2 : Nat) : Int) < (mExp : Int) - g) : judgeGain mExp tol topUps maxTopUps g = .noFlow := by
  unfold judgeGain
  dsimp only
  rw [if_neg (by omega), if_neg (by omega), if_neg (by omega), if_pos hhalf]

theorem judgeGain_short (h : -(tol : Int) ≤ g) (hd : (tol : Int) < (mExp : Int) - g)
    (hhalf : (mExp : Int) - g ≤ ((mExp / 2 : Nat) : Int)) :
    judgeGain mExp tol topUps maxTopUps g = if topUps < maxTopUps then .topUp else .short := by
  unfold judgeGain
  dsimp only
  rw [if_neg (by omega), if_neg (by omega), if_neg (by omega), if_neg (by omega)]

end Judgement

/-- The measured gain of a reading. -/
def gainAt (l : LineEntry) (x : Int) : Int := gainOf l.carried x (l.base.getD x)

/-- The bay with the gain recorded. -/
def measured (i : Nat) (l : LineEntry) (x : Int) (s : State) : State :=
  mapEntryAt i (fun e => { e with gain := some (gainAt l x) }) s

theorem measured_eq (ht : s.disp.tin = some r) (x : Int) : measured i l x s = { s with disp := { s.disp with
    tin := some { r with lines := r.lines.modify i fun e => { e with gain := some (gainAt l x) } } } } :=
  mapEntryAt_eq ht _

section Reading

variable {x : Int} {j : Judgement}
  (hj : judgeGain p.mExp (p.tol.getD 0) l.topUps s.cfg.general.maxTopUps (gainAt l x) = j)
include hj

theorem judgeReading_disturbed (h : j = .disturbed) :
    judgeReading i l p x s = endWeighed i l .disturbed .disturbed (measured i l x s) := by
  unfold judgeReading
  dsimp only
  rw [show judgeGain _ _ _ _ (gainOf _ _ _) = _ from hj.trans h]
  rfl

theorem judgeReading_within (h : j = .within) :
    judgeReading i l p x s = endWeighed i l (if l.raised then .raised else .ok) .within (measured i l x s) := by
  unfold judgeReading
  dsimp only
  rw [show judgeGain _ _ _ _ (gainOf _ _ _) = _ from hj.trans h]
  rfl

theorem judgeReading_over (h : j = .over) :
    judgeReading i l p x s = endWeighed i l .over .over (measured i l x s) := by
  unfold judgeReading
  dsimp only
  rw [show judgeGain _ _ _ _ (gainOf _ _ _) = _ from hj.trans h]
  rfl

theorem judgeReading_under (h : j = .noFlow ∨ j = .short) :
    judgeReading i l p x s = endWeighed i l .under j (measured i l x s) := by
  unfold judgeReading
  dsimp only
  rw [show judgeGain _ _ _ _ (gainOf _ _ _) = _ from hj]
  rcases h with rfl | rfl <;> rfl

theorem judgeReading_topUp (h : j = .topUp) :
    judgeReading i l p x s = topUpNow i l p (gainAt l x) (measured i l x s) := by
  unfold judgeReading
  dsimp only
  rw [show judgeGain _ _ _ _ (gainOf _ _ _) = _ from hj.trans h]
  rfl

end Reading

/-! ## The line's end and the top-up (R87 to R89) -/

theorem endWeighed_flows {v : LineVerdict} {j : Judgement} (h : j ≠ .noFlow) :
    endWeighed i l v j s = selectLine (countMiss l.slot (outcomeOf j l.topUps) (finishLine i v s)) := if_neg h

theorem endWeighed_noFlow {v : LineVerdict} : endWeighed i l v .noFlow s =
    selectLine (judgePassed (markFaulted l.slot .noFlow (countMiss l.slot (outcomeOf .noFlow l.topUps) (finishLine i v s)))) := by
  unfold endWeighed
  exact if_pos rfl

theorem topUpNow_canister {g : Int} (h : passReason s l.slot = some .awaitCanister) :
    topUpNow i l p g s = selectLine (passLine i .awaitCanister (closeRun i g s)) := by
  unfold topUpNow
  rw [h]

theorem topUpNow_stir {g : Int} (h : passReason s l.slot = some .preStir) :
    topUpNow i l p g s = selectLine (makePre l.slot (passLine i .preStir (closeRun i g s))) := by
  unfold topUpNow
  rw [h]

theorem topUpNow_shot {g : Int} (h : passReason s l.slot = none)
    (hv : (s.cfg.cans[l.slot]).reserve + topUpFor s l p g ≤ (s.cans[l.slot]).level) :
    topUpNow i l p g s = beginShot i l (topUpFor s l p g) none s := by
  unfold topUpNow
  rw [h]
  exact if_pos (canDebit_iff.2 hv)

theorem topUpNow_short {g : Int} (h : passReason s l.slot = none)
    (hv : (s.cans[l.slot]).level < (s.cfg.cans[l.slot]).reserve + topUpFor s l p g) :
    topUpNow i l p g s = selectLine (setFlag .canisterLow (passLine i .awaitRefill (closeRun i g s))) := by
  unfold topUpNow
  rw [h]
  exact if_neg (mt canDebit_iff.1 (Nat.not_le.2 hv))

theorem closeRun_passed (ht : s.disp.tin = some r) (g : Int) (why : PassReason) : passLine i why (closeRun i g s) =
    { s with disp := { s.disp with
      step := none
      tin := some { r with
        lines := (r.lines.modify i fun e => { e with carried := g, base := none }).modify i fun e =>
          { e with st := .passed why } } } } := by
  unfold closeRun
  rw [mapEntryAt_eq ht, passLine_eq rfl]

/-- Settles O40: the shot's end, the judgement case by case, and the miss count. -/
theorem weighingsAreJudged : Obligations.WeighingsAreJudged := by
  unfold Obligations.WeighingsAreJudged
  refine ⟨fun s r i l hst ht hline => ⟨fun htol => ?_, fun htol => ?_⟩, fun s r i l p x ht => ⟨fun h => ?_, fun h hd => ?_,
    fun h hd => ?_, fun h hd hhalf => ?_, fun h hd hhalf => ⟨fun hmax => ?_, fun hmore => ⟨fun hq hv => ?_, fun hq hv => ?_,
      fun hq => ?_, fun hq => ?_⟩⟩⟩, fun s c => ⟨rfl, mapCan_eq c (fun k => { k with miss := 0 }) s, fun h => ?_, fun h => ?_⟩⟩
  · rw [opCompleted_line hst, shotDone_volumetric hline htol, finishLine_eq ht]
  · rw [opCompleted_line hst, shotDone_weighed hline htol]
    rfl
  · rw [judgeReading_disturbed (judgeGain_disturbed h) rfl, endWeighed_flows (by decide), measured_eq ht, finishLine_eq rfl]
    rfl
  · rw [judgeReading_within (judgeGain_within h hd) rfl, endWeighed_flows (by decide), measured_eq ht, finishLine_eq rfl]
    rfl
  · rw [judgeReading_over (judgeGain_over h hd) rfl, endWeighed_flows (by decide), measured_eq ht, finishLine_eq rfl]
    rfl
  · rw [judgeReading_under (judgeGain_noFlow h hd hhalf) (.inl rfl), endWeighed_noFlow, measured_eq ht, finishLine_eq rfl]
    rfl
  · have hj := (judgeGain_short h hd hhalf).trans (if_neg (Nat.not_lt.2 hmax))
    rw [judgeReading_under hj (.inr rfl), endWeighed_flows (by decide), measured_eq ht, finishLine_eq rfl]
    rfl
  · have hj := (judgeGain_short h hd hhalf).trans (if_pos hmore)
    rw [judgeReading_topUp hj rfl, topUpNow_shot (s := measured i l x s) (g := gainAt l x) hq hv, measured_eq ht]
    rfl
  · have hj := (judgeGain_short h hd hhalf).trans (if_pos hmore)
    rw [judgeReading_topUp hj rfl, topUpNow_short (s := measured i l x s) (g := gainAt l x) hq hv, measured_eq ht, closeRun_passed rfl]
    rfl
  · have hj := (judgeGain_short h hd hhalf).trans (if_pos hmore)
    rw [judgeReading_topUp hj rfl, topUpNow_canister (s := measured i l x s) hq, measured_eq ht, closeRun_passed rfl]
    rfl
  · have hj := (judgeGain_short h hd hhalf).trans (if_pos hmore)
    rw [judgeReading_topUp hj rfl, topUpNow_stir (s := measured i l x s) hq, measured_eq ht, closeRun_passed rfl]
    rfl
  · rw [countMiss_corrected h, mapCan_eq]
  · rw [countMiss_third h, mapCan_eq]
    dsimp only
    rw [show _ = 2 from h]
    rfl

end Sys2Proof.Proofs
end

