-- ==== Sys2Proof/Proofs/CalibrationCourse.lean ====
section
/-! PROOF. A calibration from its cup to its outcome (R102 to R107). -/

namespace Sys2Proof.Proofs

open Sys2Proof Sys2Proof.Machine Sys2Proof.Safety Sys2Proof.Laws

variable {s t u : State} {c : CalRecord}

theorem mapCal_eq (hcal : s.disp.cal = some c) (f : CalRecord → CalRecord) :
    mapCal f s = { s with disp := { s.disp with cal := some (f c) } } := by
  simp [mapCal, State.mapDisp, hcal]

/-- The bay in a calibration state with its record. -/
def calAt (st : DispState) (d : CalRecord) (s : State) : State :=
  { s with disp := { s.disp with st := st, cal := some d } }

theorem mapCal_calAt (hcal : s.disp.cal = some c) (f : CalRecord → CalRecord) : mapCal f s = calAt s.disp.st (f c) s :=
  mapCal_eq hcal f

theorem enter_calAt (hcal : s.disp.cal = some c) (st : DispState) :
    (s.mapDisp fun d => { d with st := st }) = calAt st c s := by
  simp [State.mapDisp, calAt, ← hcal]

/-! ## The cup and the prime tries (R102, R104) -/

theorem judgeCup_light {x : Int} (hcal : s.disp.cal = some c) (h : x ≤ s.cfg.general.cupMax) :
    judgeCup x s = primeTry (some x) (calAt .calPrime c s) := by
  unfold judgeCup
  rw [if_pos h, enter_calAt hcal]

theorem judgeCup_heavy {x : Int} (hcal : s.disp.cal = some c) (h : (s.cfg.general.cupMax : Int) < x) :
    judgeCup x s = setFlag .tinWrong (calAt s.disp.st { c with stage := .cupWait } s) := by
  unfold judgeCup
  rw [if_neg (by omega), mapCal_calAt hcal]

theorem primeTry_long {before : Option Int} (hcal : s.disp.cal = some c)
    (h : (s.cfg.cans[c.slot]).travel < 400 * (c.primeTry + 1)) : primeTry before s =
      calOutcome .primeMaxstroke none (calAt s.disp.st { c with primeTry := c.primeTry + 1 } s) := by
  unfold primeTry
  rw [hcal]
  dsimp only
  rw [mapCal_calAt hcal]
  exact if_pos h

theorem calShot_eq {steps : Nat} {before : Option Int} (hcal : s.disp.cal = some c) : calShot steps before s =
    calRecheck (calAt s.disp.st { c with steps := steps, stage := .stirWait, before := before } s) := by
  unfold calShot
  rw [mapCal_calAt hcal]

theorem primeTry_fits {before : Option Int} (hcal : s.disp.cal = some c)
    (h : 400 * (c.primeTry + 1) ≤ (s.cfg.cans[c.slot]).travel) : primeTry before s =
      calRecheck (calAt s.disp.st
        { c with primeTry := c.primeTry + 1, steps := 400 * (c.primeTry + 1), stage := .stirWait, before := before } s) := by
  unfold primeTry
  rw [hcal]
  dsimp only
  rw [mapCal_calAt hcal]
  exact (if_neg (Nat.not_lt.2 h)).trans (calShot_eq (s := calAt s.disp.st { c with primeTry := c.primeTry + 1 } s)
    (c := { c with primeTry := c.primeTry + 1 }) rfl)

theorem judgePrime_primed {gain : Int} (hcal : s.disp.cal = some c) (h : 50 ≤ gain) :
    judgePrime gain s = calPass (calAt .calRate c s) := by
  unfold judgePrime
  rw [hcal]
  dsimp only
  rw [enter_calAt hcal]
  exact if_pos h

theorem judgePrime_again {gain : Int} (hcal : s.disp.cal = some c) (h : gain < 50) (hn : c.primeTry < 6) :
    judgePrime gain s = primeTry none s := by
  unfold judgePrime
  rw [hcal]
  exact (if_neg (Int.not_le.2 h)).trans (if_neg (Nat.not_le.2 hn))

theorem judgePrime_loops {gain : Int} (hcal : s.disp.cal = some c) (h : gain < 50) (hn : 6 ≤ c.primeTry) :
    judgePrime gain s = calOutcome .primeLoops none s := by
  unfold judgePrime
  rw [hcal]
  exact (if_neg (Int.not_le.2 h)).trans (if_pos hn)

/-! ## The passes and their tests (R105, R106) -/

theorem calPass_first {i : Fin 4} {rest : List (Fin 4)} (hcal : s.disp.cal = some c) (h : c.tests = i :: rest) :
    calPass s = calTest i (calAt s.disp.st { c with pass := c.pass + 1, results := [] } s) := by
  unfold calPass
  dsimp only
  rw [mapCal_calAt hcal]
  simp only [calAt, h]

theorem calTest_eq (i : Fin 4) (hcal : s.disp.cal = some c) : calTest i s = calRecheck (calAt s.disp.st { c with
    test := some i
    steps := roundDiv (s.cfg.general.testVolumes[i] * c.kp) 100
    stage := .stirWait
    before := none } s) := by
  unfold calTest
  rw [hcal]
  dsimp only
  rw [mapCal_calAt hcal]
  exact calShot_eq (s := calAt s.disp.st { c with test := some i } s) (c := { c with test := some i }) rfl

/-- The factor a test's gain gives. -/
def testK (c : CalRecord) (gain : Int) : Nat := roundDiv (c.steps * c.density) gain.toNat

/-- The record with one more test's result. -/
def withResult (c : CalRecord) (gain : Int) : CalRecord :=
  { c with results := c.results ++ [{ steps := c.steps, gain := gain, ki := testK c gain }] }

theorem judgeTest_low {gain : Int} (hcal : s.disp.cal = some c) (h : gain < s.cfg.general.verifyFloor ∨ 6400 < testK c gain) :
    judgeTest gain s = calOutcome .rateLow none s := by
  unfold judgeTest
  rw [hcal]
  dsimp only
  by_cases hlow : gain < s.cfg.general.verifyFloor
  · exact if_pos hlow
  · exact (if_neg hlow).trans (if_pos (h.resolve_left hlow))

theorem judgeTest_next {gain : Int} {i : Fin 4} (hcal : s.disp.cal = some c) (h : s.cfg.general.verifyFloor ≤ gain)
    (hk : testK c gain ≤ 6400) (hi : (c.tests.find? fun t => decide (c.test.getD 0 < t)) = some i) :
    judgeTest gain s = calTest i (calAt s.disp.st (withResult c gain) s) := by
  unfold judgeTest
  rw [hcal]
  dsimp only
  rw [if_neg (Int.not_lt.2 h), if_neg (show ¬ Config.maxK < testFactor _ _ _ from Nat.not_lt.2 hk), hi, mapCal_calAt hcal]
  rfl

theorem judgeTest_last {gain : Int} (hcal : s.disp.cal = some c) (h : s.cfg.general.verifyFloor ≤ gain)
    (hk : testK c gain ≤ 6400) (hi : (c.tests.find? fun t => decide (c.test.getD 0 < t)) = none) :
    judgeTest gain s = judgePass (calAt s.disp.st (withResult c gain) s) := by
  unfold judgeTest
  rw [hcal]
  dsimp only
  rw [if_neg (Int.not_lt.2 h), if_neg (show ¬ Config.maxK < testFactor _ _ _ from Nat.not_lt.2 hk), hi, mapCal_calAt hcal]
  rfl

theorem passSucceeds_iff {spread : Nat} {results : List CalResult} : passSucceeds spread results = true ↔
    passSpread results ≤ roundDiv (passK results * spread) 1000 ∧ 100 ≤ passK results ∧ passK results ≤ 6400 := by
  unfold passSucceeds
  rw [Bool.and_eq_true, Bool.and_eq_true, decide_eq_true_eq, decide_eq_true_eq, decide_eq_true_eq, and_assoc]
  rfl

/-- The pass succeeds, in terms of its factors. -/
theorem passSucceeds_factors {spread : Nat} {results : List CalResult} : passSucceeds spread results = true ↔
    (results.map (·.ki)).foldl max 0 - (results.map (·.ki)).foldl min ((results.map (·.ki)).headD 0) ≤
      roundDiv (roundDiv (results.map (·.ki)).sum (results.map (·.ki)).length * spread) 1000 ∧
    100 ≤ roundDiv (results.map (·.ki)).sum (results.map (·.ki)).length ∧
    roundDiv (results.map (·.ki)).sum (results.map (·.ki)).length ≤ 6400 := by
  rw [passSucceeds_iff, List.length_map]
  rfl

theorem judgePass_eq (hcal : s.disp.cal = some c) : judgePass s =
    if passSucceeds s.cfg.general.spread c.results = true then calOutcome .pass (some (passK c.results)) s
    else if c.pass < 5 then calPass s
    else calOutcome .rateSpread none s := by
  unfold judgePass
  rw [hcal]
  rfl

/-! ## The shot (R103) -/

/-- The debited bay of a calibration shot, before the drive has the operation. -/
def calDebited (before : Int) (c : CalRecord) (s : State) : State :=
  { debit c.slot (nominalVolume c.steps c.kp) s with
    disp := { s.disp with fresh := false, cal := some { c with before := some before, stage := .shot } } }

theorem calDebit_shot {before : Int} (hcal : s.disp.cal = some c) (h : (s.cans[c.slot]).activity ≠ .stirring) :
    calDebit before c s = beginOp c.slot (if s.disp.st = .calPrime then .primeShot else .testShot) c.steps c.kp
      (calDebited before c s) := by
  have hdisp : (debit c.slot (nominalVolume c.steps c.kp) s).disp = s.disp := by simp
  unfold calDebit
  rw [if_neg (mt stirring_iff.1 h)]
  unfold calDebited
  generalize debit c.slot (nominalVolume c.steps c.kp) s = w at hdisp ⊢
  simp [mapCal, State.mapDisp, hdisp, hcal]

theorem calDebit_stirring {before : Int} (hcal : s.disp.cal = some c) (h : (s.cans[c.slot]).activity = .stirring) :
    calDebit before c s = { s with disp := { s.disp with cal := some { c with stage := .stirWait } } } := by
  unfold calDebit
  rw [if_pos (stirring_iff.2 h), mapCal_eq hcal]

section Recheck

variable (hcal : s.disp.cal = some c) (hst : s.disp.st = .calPrime ∨ s.disp.st = .calRate)
include hcal

theorem calRecheck_other (h : c.stage ≠ .stirWait) : calRecheck s = s := by
  unfold calRecheck
  rw [hcal]
  exact if_neg (by simp [h])

include hst

theorem calRecheck_waits (hstage : c.stage = .stirWait) (h : (s.cans[c.slot]).activity = .stirring ∨ c.slot ∈ s.stir.pre) :
    calRecheck s = s := by
  unfold calRecheck
  rw [hcal]
  dsimp only
  rw [if_pos (by simpa [hstage] using hst)]
  exact if_pos (by rw [Bool.or_eq_true, stirring_iff, preRequested_iff]; exact h)

theorem calRecheck_free (hstage : c.stage = .stirWait) (h1 : (s.cans[c.slot]).activity ≠ .stirring)
    (h2 : c.slot ∉ s.stir.pre) : calRecheck s =
      if hasSettled s c.slot = true then makePre c.slot s
      else if s.disp.fresh = true ∧ s.scale.latest.isSome = true then calDebit (s.scale.latest.getD 0) c s
      else openRequest (mapCal (fun c => { c with stage := .beforeReading }) s) := by
  unfold calRecheck
  rw [hcal]
  dsimp only
  rw [if_pos (by simpa [hstage] using hst),
    if_neg (by rw [Bool.or_eq_true, stirring_iff, preRequested_iff]; exact fun h => h.elim h1 h2)]
  cases s.disp.fresh <;> cases s.scale.latest <;> simp

end Recheck

theorem opCompleted_cal (hst : s.disp.st = .calPrime ∨ s.disp.st = .calRate) : opCompleted s = calShotDone s := by
  unfold opCompleted
  rcases hst with h | h <;> rw [h]

theorem reportCanister_cal {i : Slot} (hst : s.disp.st = .calPrime ∨ s.disp.st = .calRate) :
    reportCanister i s = calRecheck (judgePassed s) := by
  unfold reportCanister
  dsimp only
  rw [judgePassed_st]
  rcases hst with h | h <;> rw [h]

/-! ## The outcome (R107) -/

/-- In CAL_END the bay waits while the cup stands. -/
theorem calEnded_cup (h : s.inputs.presDispense = true) : calEnded s = s := by
  unfold calEnded
  rw [h, Bool.not_true, Bool.and_false]
  exact if_neg (by decide)

/-- A bay that is not held at the outcome of its calibration. -/
def outcomeBay (c : CalRecord) (o : CalOutcome) (newK : Option Nat) (d : DispenseBay) : DispenseBay :=
  { d with
    st := .calEnd
    resume := none
    step := none
    quiet := false
    cal := some { c with stage := .over, test := none }
    last := some { slot := c.slot, outcome := o, passes := c.pass, newK := newK, ks := c.results.map (·.ki) } }

theorem calOutcome_free {o : CalOutcome} {newK : Option Nat} (hcal : s.disp.cal = some c) (hf : s.disp.st ≠ .fault)
    (hs : s.disp.st ≠ .stopped) : calOutcome o newK s = calEnded (setFlag .calDone
      (((dropPre (closeRequest s)).mapDisp (outcomeBay c o newK)).mapCan c.slot (settleCanister newK))) := by
  have hheld : (decide (s.disp.st = .fault) || decide (s.disp.st = .stopped)) = false := by simp [hf, hs]
  unfold calOutcome
  rw [hcal]
  dsimp only
  rw [hheld]
  rfl

theorem calOutcome_eq {o : CalOutcome} {newK : Option Nat} (hcal : s.disp.cal = some c) (hf : s.disp.st ≠ .fault)
    (hs : s.disp.st ≠ .stopped) (hpres : s.inputs.presDispense = true) : calOutcome o newK s = { s with
      stir := { s.stir with pre := [] }
      scale := { s.scale with request := none }
      events := { s.events with flags := s.events.flags ||| BitVec.twoPow 15 8 }
      cans := s.cans.set c.slot (settleCanister newK s.cans[c.slot])
      disp := outcomeBay c o newK s.disp } := by
  rw [calOutcome_free hcal hf hs, calEnded_cup (by simpa using hpres), mapCan_eq]
  rfl

theorem calibratingCanister_pass {k : Canister} (h : k.state = .calibrating) (n : Nat) :
    settleCanister (some n) k = { k with state := .ready, k := n, miss := 0 } := by
  unfold settleCanister
  rw [h]

theorem calibratingCanister_end {k : Canister} (h : k.state = .calibrating) :
    settleCanister none k = { k with state := if 0 < k.k then .ready else .uncalibrated } := by
  unfold settleCanister
  rw [h]

/-- Settles O41: the course from the cup to the judged pass, the shot, its waits and the outcome. -/
theorem calibrationsRunTheirCourse : Obligations.CalibrationsRunTheirCourse := by
  unfold Obligations.CalibrationsRunTheirCourse
  refine ⟨fun s c hcal => ⟨fun x => ⟨judgeCup_light hcal, judgeCup_heavy hcal⟩, fun before => ⟨primeTry_long hcal,
      primeTry_fits hcal⟩, fun gain => ⟨judgePrime_primed hcal, judgePrime_again hcal, judgePrime_loops hcal⟩,
      fun i rest => calPass_first hcal, fun i => calTest_eq i hcal, fun gain => ⟨judgeTest_low hcal, fun h hk =>
      ⟨fun i => judgeTest_next hcal h hk, judgeTest_last hcal h hk⟩⟩, fun hgood => ?good, fun hbad hp => ?again,
      fun hbad hp => ?spread⟩,
    fun s c before hcal hst hact => ⟨fun hstage hpre hset => ⟨fun hf hx => ?fresh, fun hf => ?stale⟩, ?disp, ?level, ?op, ?done⟩,
    fun s c hcal hst => ⟨fun hstage => ⟨calRecheck_waits hcal hst hstage, fun hfree hset => ?stir⟩, calRecheck_other hcal,
      fun before => calDebit_stirring hcal, fun i => reportCanister_cal hst⟩,
    fun s c o newK hcal hf hs hpres hcan => ?outcome⟩
  case good =>
    rw [judgePass_eq hcal, if_pos (passSucceeds_factors.2 hgood), List.length_map]
    rfl
  case again => rw [judgePass_eq hcal, if_neg (mt passSucceeds_factors.1 hbad), if_pos hp]
  case spread => rw [judgePass_eq hcal, if_neg (mt passSucceeds_factors.1 hbad), if_neg (Nat.not_lt.2 hp)]
  case fresh =>
    rw [calRecheck_free hcal hst hstage hact hpre, if_neg (by simp [hset]), if_pos (by simp [hf, hx]), hx]
    rfl
  case stale =>
    rw [calRecheck_free hcal hst hstage hact hpre, if_neg (by simp [hset]), if_neg (by simp [hf]), mapCal_eq hcal]
    rfl
  case disp =>
    rw [calDebit_shot hcal hact]
    simp [calDebited]
  case level =>
    rw [calDebit_shot hcal hact, (beginOp_begun _ _ _).2 c.slot]
    exact debit_level _
  case op =>
    obtain ⟨p, hp, hslot, hkind, htotal, hk, hcounted⟩ := (beginOp_begun (s := calDebited before c s) (c := c.slot)
      (if s.disp.st = .calPrime then .primeShot else .testShot) c.steps c.kp).1
    rw [calDebit_shot hcal hact]
    exact ⟨p, hp, hslot, htotal, hk, hcounted, hkind⟩
  case done =>
    rw [opCompleted_cal hst]
    unfold calShotDone
    rw [mapCal_eq hcal]
    rfl
  case stir =>
    rw [not_or] at hfree
    rw [calRecheck_free hcal hst hstage hfree.1 hfree.2, if_pos hset]
  case outcome =>
    rw [calOutcome_eq hcal hf hs hpres]
    cases newK with
    | none =>
      rw [calibratingCanister_end hcan]
      rfl
    | some n =>
      rw [calibratingCanister_pass hcan]
      rfl

end Sys2Proof.Proofs
end

