-- ==== Sys2Proof/Proofs/DueStarts.lean ====
section
/-! PROOF. When the starts are due, when they are taken, and what each does (R113 to R115, R118, R122, R123, R128, R129). -/

namespace Sys2Proof.Proofs

open Sys2Proof Sys2Proof.Machine Sys2Proof.Safety Sys2Proof.Laws

variable {s t u : State} {r : TinRecord} {l : LineEntry} {i : Nat} {c : Slot}

/-! ## When a start is due -/

theorem lidMoveEligible_iff : lidMoveEligible s = true ↔
    s.lid.st = .done ∧ s.shake.st = .empty ∧ ∃ r : TinRecord, s.lid.tin = some r ∧ r.lost = false := by
  unfold lidMoveEligible
  cases s.lid.tin <;> simp [and_assoc]

theorem dispMoveEligible_iff : dispMoveEligible s = true ↔
    s.disp.st = .done ∧ s.lid.st = .empty ∧ s.disp.tin.isSome = true := by
  simp [dispMoveEligible, and_assoc]

theorem stopStands_scope : s.stopStands = true ↔
    s.mon.estop = true ∨ (s.cfg.general.scope = .station ∧ s.anyFault = true) := by
  simp only [State.stopStands, State.stationStop, Bool.or_eq_true, Bool.and_eq_true, decide_eq_true_eq, or_comm]

theorem moveDue_iff : moveDue s = true ↔ s.carriage.st = .idle ∧ (lidMoveEligible s = true ∨ dispMoveEligible s = true) ∧
    ¬ (s.mon.estop = true ∨ (s.cfg.general.scope = .station ∧ s.anyFault = true)) := by
  rw [← stopStands_scope]
  simp only [moveDue, Bool.and_eq_true, Bool.or_eq_true, decide_eq_true_eq, Bool.not_eq_true', Bool.not_eq_true, and_assoc]

theorem homeRunDue_iff : homeRunDue s = true ↔ s.carriage.st = .jammed ∧ s.carriage.homeDue = true ∧
    ¬ (s.mon.estop = true ∨ (s.cfg.general.scope = .station ∧ s.anyFault = true)) := by
  rw [← stopStands_scope]
  simp only [homeRunDue, Bool.and_eq_true, decide_eq_true_eq, Bool.not_eq_true', Bool.not_eq_true, and_assoc]

theorem carriageDue_iff : carriageDue s = true ↔ moveDue s = true ∨ homeRunDue s = true := by
  simp only [carriageDue, Bool.or_eq_true]

theorem pressDue_iff : pressDue s = true ↔ s.lid.st = .awaitQuiet ∧ s.air.st = .held ∧ s.inputs.guardOpen = false := by
  simp only [pressDue, Bool.and_eq_true, decide_eq_true_eq, Bool.not_eq_true', and_assoc]

theorem spinDue_iff : spinDue s = true ↔ s.shake.st = .awaitQuiet ∧ s.power.st = .held := by
  simp only [spinDue, Bool.and_eq_true, decide_eq_true_eq]

theorem quietAllows_true_iff : quietAllows s = true ↔ s.disp.quiet = false ∨ s.cfg.general.quietLimit = 0 := by
  simp only [quietAllows, Bool.or_eq_true, Bool.not_eq_true', decide_eq_true_eq]

/-! ## What a start does -/

/-- The carriage as it sets off. -/
def settingOff (m : Move) (tin : Option TinRecord) (charge : Option BayId) : Carriage :=
  { st := .moving, move := some m, tin := tin, deferral := none, timer := some 0, charge := charge, drive := true
    cause := none, homeDue := false }

theorem setOff_eq (m : Move) (tin : Option TinRecord) (charge : Option BayId) : setOff m tin charge s = { s with
    scale := { s.scale with window := [], blank := some s.cfg.general.blankTime }
    carriage := settingOff m tin charge } := rfl

theorem startMove_lid (h : lidMoveEligible s = true) : startMove s = { s with
    scale := { s.scale with window := [], blank := some s.cfg.general.blankTime }
    carriage := settingOff .lidToShake s.lid.tin (some .lid)
    lid := { s.lid with st := .outbound, tin := none }
    shake := { s.shake with st := .inbound } } := if_pos h

theorem commitTaken_eq (t : TinRecord) : commitTaken t s = { s with
    jobs := if t.shotGiven then s.jobs else { s.jobs with reserved := s.jobs.reserved.filter (·.id != t.jobId) } } := by
  unfold commitTaken
  split <;> rfl

theorem startMove_disp (h : lidMoveEligible s = false) (ht : s.disp.tin = some r) : startMove s = { s with
    scale := { s.scale with window := [], blank := some s.cfg.general.blankTime }
    carriage := settingOff .dispenseToLid (some { r with committed := true }) (some .dispense)
    jobs := if r.shotGiven then s.jobs else { s.jobs with reserved := s.jobs.reserved.filter (·.id != r.jobId) }
    disp := { s.disp with st := .outbound, tin := none, step := none }
    lid := { s.lid with st := .inbound } } := by
  unfold startMove
  rw [if_neg (Bool.eq_false_iff.1 h), ht]
  dsimp only
  rw [commitTaken_eq]
  rfl

/-! ## When a start is taken (R114; log 8) -/

theorem exec_onlineEq {f : State → State} (hon : s.online = true) (h : f s = t) :
    (.next (whenOnline f s) : Host.Outcome State Fault Refusal) = .next (settle t) := by
  rw [exec_whenOnline f hon, h]

theorem takeDeferred_carriage_move (hd : s.carriage.deferral.isSome = true) (h : moveDue s = true) :
    takeDeferred .carriage s = startMove s := by
  unfold takeDeferred startCarriage
  rw [if_pos hd, if_pos h]

theorem takeDeferred_carriage_home (hd : s.carriage.deferral.isSome = true) (hm : moveDue s = false)
    (h : homeRunDue s = true) : takeDeferred .carriage s = startHomeRun s := by
  unfold takeDeferred startCarriage
  rw [if_pos hd, if_neg (Bool.eq_false_iff.1 hm), if_pos h]

theorem takeDeferred_carriage_none (h : s.carriage.deferral = none ∨ (moveDue s = false ∧ homeRunDue s = false)) :
    takeDeferred .carriage s = s := by
  unfold takeDeferred startCarriage
  rcases h with h | ⟨hm, hh⟩
  · exact if_neg (by simp [h])
  · rw [if_neg (Bool.eq_false_iff.1 hm), if_neg (Bool.eq_false_iff.1 hh), ite_self]

theorem takeDeferred_lid : takeDeferred .lid s = if s.lid.deferral.isSome && pressDue s then startPress s else s := rfl

theorem takeDeferred_shake : takeDeferred .shake s = if s.shake.deferral.isSome && spinDue s then startSpin s else s := rfl

theorem takeDeferred_carriage : takeDeferred .carriage s =
    if s.carriage.deferral.isSome && moveDue s then startMove s
    else if s.carriage.deferral.isSome && homeRunDue s then startHomeRun s else s := by
  unfold takeDeferred startCarriage
  cases s.carriage.deferral.isSome <;> simp

theorem reportCanister_reading (hst : (judgePassed s).disp.st = .dispensing) (hline : activeLine (judgePassed s) = some (i, l))
    (hslot : l.slot = c) (hstep : (judgePassed s).disp.step = some .beforeReading) :
    reportCanister c s = retakeLine i l (takeAllDeferred (closeRequest (judgePassed s))) := by
  unfold reportCanister
  dsimp only
  rw [hst]
  dsimp only
  rw [hline]
  exact if_pos (by simp [hslot, hstep])

/-- Settles O42: the commands that take a start, what each start does, when each is due, and the report that lowers the
quiet request. -/
theorem dueStartsDriveAndBlank : Obligations.DueStartsDriveAndBlank := by
  unfold Obligations.DueStartsDriveAndBlank
  have hboth {a b : Bool} (ha : a = true) (hb : b = true) : (a && b) = true := by rw [ha, hb]; rfl
  refine ⟨fun s hon => ⟨fun hd hq => exec_onlineEq hon (if_pos (hboth hd hq)),
      fun hd hq => exec_onlineEq hon (if_pos (hboth hd hq)), fun hd hq => exec_onlineEq hon (if_pos (hboth hd hq)),
      fun hd hq => exec_onlineEq hon (if_pos (hboth hd hq)),
      fun hdef => ⟨fun h => exec_onlineEq hon (takeDeferred_carriage_move hdef h),
        fun hm h => exec_onlineEq hon (takeDeferred_carriage_home hdef hm h)⟩,
      fun hdef h => exec_onlineEq hon (if_pos (hboth hdef h)), fun hdef h => exec_onlineEq hon (if_pos (hboth hdef h)),
      fun h => exec_onlineEq hon (takeDeferred_carriage_none h), fun h => exec_onlineEq hon (if_neg ?lid),
      fun h => exec_onlineEq hon (if_neg ?shake), fun h => exec_onlineEq hon (if_neg (Bool.eq_false_iff.1 h)),
      fun h => exec_onlineEq hon (if_neg (Bool.eq_false_iff.1 h)), fun h => exec_onlineEq hon (if_neg (Bool.eq_false_iff.1 h)),
      fun h => exec_onlineEq hon (if_neg (Bool.eq_false_iff.1 h))⟩,
    fun s => ⟨startMove_lid, fun t h ht => startMove_disp h ht, rfl, rfl, rfl⟩,
    fun s => ⟨lidMoveEligible_iff, dispMoveEligible_iff, moveDue_iff, homeRunDue_iff, carriageDue_iff, pressDue_iff,
      spinDue_iff, quietAllows_true_iff⟩, fun s => ?_, fun s c i l hst hline hslot hstep =>
      reportCanister_reading hst hline hslot hstep⟩
  case lid => rcases h with h | h <;> simp [h]
  case shake => rcases h with h | h <;> simp [h]
  · dsimp only
    rw [← takeDeferred_carriage, ← takeDeferred_lid, ← takeDeferred_shake]
    rfl

end Sys2Proof.Proofs
end

