-- ==== Sys2Proof/Proofs/ArrivalsAndJams.lean ====
section
/-! PROOF. The end of a move: arrival, jam, the placement of a jammed carriage's tin, and the home run (R116 to R118). -/

namespace Sys2Proof.Proofs

open Sys2Proof Sys2Proof.Machine Sys2Proof.Safety Sys2Proof.Laws

variable {s t u : State} {r : TinRecord} {p : Pool} {f : Carriage → Carriage}

/-! ## What the bays make of a tin that leaves or comes -/

def dispAt (q : DispState) (d : DispenseBay) : DispenseBay :=
  if d.st = .fault ∨ d.st = .stopped then { d with resume := some q }
  else if d.st = .outbound then { d with st := q } else d

def lidAt (q : LidState) (b : LidBay) : LidBay :=
  if b.st = .fault ∨ b.st = .stopped then { b with resume := some q }
  else if b.st = .inbound ∨ b.st = .outbound then { b with st := q } else b

def shakeAt (q : ShakeState) (b : ShakeBay) : ShakeBay :=
  if b.st = .fault ∨ b.st = .stopped then { b with resume := some q }
  else if b.st = .inbound then { b with st := q } else b

theorem dispPoint_eq (q : DispState) : dispPoint q s = { s with disp := dispAt q s.disp } := by
  unfold dispPoint dispAt State.mapDisp
  simp only [Bool.or_eq_true, decide_eq_true_eq]

theorem lidPoint_eq (q : LidState) : lidPoint q s = { s with lid := lidAt q s.lid } := by
  unfold lidPoint lidAt State.mapLid
  simp only [Bool.or_eq_true, decide_eq_true_eq]

theorem shakePoint_eq (q : ShakeState) : shakePoint q s = { s with shake := shakeAt q s.shake } := by
  unfold shakePoint shakeAt State.mapShake
  simp only [Bool.or_eq_true, decide_eq_true_eq]

/-! ## The carriage apart from the work of the bays -/

theorem mapAgent_mapCarriage (g : Agent → Agent) : (s.mapAgent p g).mapCarriage f = (s.mapCarriage f).mapAgent p g := by
  cases p <;> rfl

theorem agent_mapCarriage : (s.mapCarriage f).agent p = s.agent p := by cases p <;> rfl

theorem placeFrame_mapCarriage (g : Frame) : (placeFrame g s).mapCarriage f = placeFrame g (s.mapCarriage f) := by
  unfold placeFrame
  rw [apply_ite (State.mapCarriage f)]
  rfl

theorem placeClaim_mapCarriage : (placeClaim p s).mapCarriage f = placeClaim p (s.mapCarriage f) := by
  unfold placeClaim
  rw [placeFrame_mapCarriage, mapAgent_mapCarriage, agent_mapCarriage]

theorem beginWait_mapCarriage : (beginWait p s).mapCarriage f = beginWait p (s.mapCarriage f) := by
  unfold beginWait placeWait
  rw [placeFrame_mapCarriage, mapAgent_mapCarriage, ← mapAgent_mapCarriage, agent_mapCarriage]

theorem grantOwn_mapCarriage (a : Nat) : (grantOwn p a s).mapCarriage f = grantOwn p a (s.mapCarriage f) := by
  cases p <;> rfl

/-- What a claim asks for does not depend on the carriage. -/
theorem askClaim_mapCarriage (a : Nat) : (askClaim p a s).mapCarriage f = askClaim p a (s.mapCarriage f) := by
  unfold askClaim
  dsimp only
  rw [apply_ite (State.mapCarriage f), apply_ite (State.mapCarriage f), apply_ite (State.mapCarriage f),
    apply_ite (State.mapCarriage f), grantOwn_mapCarriage, mapAgent_mapCarriage, placeClaim_mapCarriage,
    beginWait_mapCarriage, mapAgent_mapCarriage, agent_mapCarriage]
  cases p <;> rfl

theorem lidTest_mapCarriage : (lidTest s).mapCarriage f = lidTest (s.mapCarriage f) := by
  have hair : (enterAwaitAir s).mapCarriage f = enterAwaitAir (s.mapCarriage f) := by
    unfold enterAwaitAir
    rw [askClaim_mapCarriage]
    rfl
  have hlid : (s.mapCarriage f).lid.tin = s.lid.tin := rfl
  unfold lidTest
  rw [hlid]
  cases s.lid.tin with
  | none => rfl
  | some x =>
    dsimp only
    rw [apply_ite (State.mapCarriage f), hair]
    rfl

/-! ## A tin handed to a bay (R116) -/

/-- The dispense bay's tin taken off the carriage. -/
def offDispense (s : State) : State :=
  { s with carriage := { s.carriage with tin := none }, disp := dispAt .empty s.disp }

/-- The lid bay's tin taken off the carriage. -/
def offLid (s : State) : State :=
  { s with carriage := { s.carriage with tin := none }, lid := lidAt .empty s.lid }

theorem handOver_lid : handOver .dispenseToLid r s = lidArrive r (offDispense s) := by
  unfold handOver
  dsimp only
  rw [dispPoint_eq]
  rfl

theorem handOver_shake : handOver .lidToShake r s = shakeArrive r (offLid s) := by
  unfold handOver
  dsimp only
  rw [lidPoint_eq]
  rfl

theorem lidArrive_inbound (h : s.lid.st = .inbound) :
    lidArrive r s = lidTest { s with lid := { s.lid with tin := some r } } := if_pos h

theorem lidArrive_held (h : s.lid.st ≠ .inbound) : lidArrive r s = { s with lid := { s.lid with tin := some r } } := if_neg h

theorem shakeArrive_open (h : s.shake.st = .inbound) (hc : s.inputs.clampClosed = false) : shakeArrive r s = { s with
    shake := { s.shake with st := .clamp, resume := none, clampDrive := .closing, clamp := some 0, tin := some r } } := by
  unfold shakeArrive enterClamp
  rw [if_pos h]
  exact if_neg (Bool.eq_false_iff.1 hc)

theorem shakeArrive_closed (h : s.shake.st = .inbound) (hc : s.inputs.clampClosed = true) : shakeArrive r s =
    askClaim .power s.cfg.general.spinDraw { s with
      shake := { s.shake with st := .awaitPower, resume := none, clampDrive := .off, clamp := none, tin := some r } } := by
  unfold shakeArrive enterClamp
  rw [if_pos h]
  exact if_pos hc

theorem shakeArrive_held (h : s.shake.st ≠ .inbound) : shakeArrive r s = { s with shake := { s.shake with tin := some r } } :=
  if_neg h

/-- The carriage once its move has ended. -/
def moveEnded (s : State) : State :=
  { s with
    scale := { s.scale with window := [], blank := some s.cfg.general.blankTime }
    carriage := { s.carriage with
      st := .idle, drive := false, timer := none, deferral := none, move := none, charge := none } }

theorem arrive_tin (m : Move) (h : s.carriage.tin = some r) : arrive m s = handOver m r (moveEnded s) := by
  unfold arrive
  rw [h]
  rfl

theorem arrivalSensed_lid (hst : s.carriage.st = .moving) (hm : s.carriage.move = some .dispenseToLid) :
    arrivalSensed s = arrive .dispenseToLid s := by
  unfold arrivalSensed
  rw [hst, hm]

theorem arrivalSensed_shake (hst : s.carriage.st = .moving) (hm : s.carriage.move = some .lidToShake) :
    arrivalSensed s = arrive .lidToShake s := by
  unfold arrivalSensed
  rw [hst, hm]

theorem arrivalSensed_other (h : s.carriage.st ≠ .moving ∨ s.carriage.move = some .homeRun) : arrivalSensed s = s := by
  unfold arrivalSensed
  split
  · next hst hm => exact h.elim (fun hne => absurd hst hne) fun hh => by rw [hh] at hm; cases hm
  · next hst hm => exact h.elim (fun hne => absurd hst hne) fun hh => by rw [hh] at hm; cases hm
  · rfl

theorem homeSensed_home (hst : s.carriage.st = .moving) (hm : s.carriage.move = some .homeRun) :
    homeSensed s = moveEnded s := by
  unfold homeSensed
  rw [hst, hm]
  rfl

theorem homeSensed_other (h : s.carriage.st ≠ .moving ∨ s.carriage.move ≠ some .homeRun) : homeSensed s = s := by
  unfold homeSensed
  split
  · next hst hm => exact h.elim (fun hne => absurd hst hne) fun hne => absurd hm hne
  · rfl

theorem reached_some {limit n : Nat} {timer : Option Nat} (h : timer = some n) : reached limit timer = decide (limit ≤ n) := by
  rw [h]
  rfl

theorem moveJams_late {n : Nat} (hst : s.carriage.st = .moving) (hn : s.carriage.timer = some n) (h : 8000 ≤ n) :
    moveJams s = latch (s.carriage.charge.getD .dispense) .transferJam { s with
      carriage := { s.carriage with
        st := .jammed, drive := false, timer := none, deferral := none, cause := some .transfer, homeDue := false
        tin := s.carriage.tin.map (TinRecord.note .transferJam) } } := by
  unfold moveJams
  rw [reached_some hn, if_pos (by simp [hst, Config.moveLimitMs, h])]
  rfl

theorem moveJams_none (h : s.carriage.st ≠ .moving ∨ s.carriage.timer = none ∨ ∃ n, s.carriage.timer = some n ∧ n < 8000) :
    moveJams s = s := by
  unfold moveJams
  refine if_neg ?_
  rcases h with h | h | ⟨n, hn, hlt⟩
  · simp [h]
  · simp [h, reached]
  · rw [reached_some hn]
    simp [Config.moveLimitMs, Nat.not_le.2 hlt]

/-! ## A jammed carriage resolved (R118; log 55) -/

/-- The home run is due. -/
def homeRunOwed (c : Carriage) : Carriage := { c with homeDue := true, move := some .homeRun }

theorem resolveCarriage_due (hst : s.carriage.st = .jammed) (hc : s.carriage.cause = none) (hd : s.carriage.homeDue = false)
    (he : s.mon.estop = false) : resolveCarriage s = (placeTin s).mapCarriage homeRunOwed :=
  if_pos (by simp [hst, hc, hd, he])

theorem resolveCarriage_not (h : s.carriage.st ≠ .jammed ∨ s.carriage.cause.isSome = true ∨ s.carriage.homeDue = true ∨
    s.mon.estop = true) : resolveCarriage s = s := by
  refine if_neg ?_
  rcases h with h | h | h | h
  · simp [h]
  · simp [Option.isSome_iff_ne_none.1 h]
  · simp [h]
  · simp [h]

theorem placeTin_none (h : s.carriage.tin = none) : placeTin s = s := by
  unfold placeTin
  rw [h]
  cases s.carriage.move <;> rfl

theorem placeTin_some {m : Move} (hm : s.carriage.move = some m) (h : s.carriage.tin = some r) :
    placeTin s = if targetSensor s m then handOver m r s else handBack m r s := by
  unfold placeTin
  rw [hm, h]

theorem handBack_lid : handBack .dispenseToLid r s = { s with
    carriage := { s.carriage with tin := none }
    disp := { dispAt .done s.disp with tin := some r }
    lid := lidAt .empty s.lid } := by
  unfold handBack
  dsimp only
  rw [lidPoint_eq, dispPoint_eq]
  rfl

theorem handBack_shake : handBack .lidToShake r s = { s with
    carriage := { s.carriage with tin := none }
    lid := { lidAt .done s.lid with tin := some r }
    shake := shakeAt .empty s.shake } := by
  unfold handBack
  dsimp only
  rw [shakePoint_eq, lidPoint_eq]
  rfl

section Resolved

variable (hst : s.carriage.st = .jammed) (hc : s.carriage.cause = none) (hd : s.carriage.homeDue = false)
  (he : s.mon.estop = false)
include hst hc hd he

theorem resolve_handedOver {m : Move} (hm : s.carriage.move = some m) (ht : s.carriage.tin = some r)
    (hs : targetSensor s m = true) : resolveCarriage s = (handOver m r s).mapCarriage homeRunOwed := by
  rw [resolveCarriage_due hst hc hd he, placeTin_some hm ht, if_pos hs]

theorem resolve_handedBack {m : Move} (hm : s.carriage.move = some m) (ht : s.carriage.tin = some r)
    (hs : targetSensor s m = false) : resolveCarriage s = (handBack m r s).mapCarriage homeRunOwed := by
  rw [resolveCarriage_due hst hc hd he, placeTin_some hm ht, if_neg (Bool.eq_false_iff.1 hs)]

end Resolved

/-- Settles O43: arrivals, home runs and jams, then the resolution of a jammed carriage. -/
theorem movesEndInArrivalOrJam : Obligations.MovesEndInArrivalOrJam := by
  unfold Obligations.MovesEndInArrivalOrJam
  refine ⟨fun s hon => ⟨fun r hst hm ht => ⟨fun hin => exec_onlineEq hon ?_, fun hin => exec_onlineEq hon ?_⟩,
      fun r hst hm ht => ⟨fun hin hcl => exec_onlineEq hon ?_, fun hin hcl => exec_onlineEq hon ?_,
        fun hin => exec_onlineEq hon ?_⟩,
      fun hst hm => ⟨exec_onlineEq hon (arrivalSensed_other (.inr hm)), fun ht => exec_onlineEq hon ?home⟩,
      fun hst hm => exec_onlineEq hon (homeSensed_other (.inr hm)),
      fun n hst hn hle => exec_onlineEq hon (moveJams_late hst hn hle),
      fun h => exec_onlineEq hon (moveJams_none (.inr h)),
      fun h => ⟨exec_onlineEq hon (arrivalSensed_other (.inl h)), exec_onlineEq hon (homeSensed_other (.inl h)),
        exec_onlineEq hon (moveJams_none (.inl h))⟩⟩,
    fun s => ⟨resolveCarriage_not, fun hst hc hd he => ⟨fun ht => ?none, fun r ht hm => ⟨fun hp hin => ?_, fun hp hin => ?_,
      fun hp => ?_⟩, fun r ht hm => ⟨fun hp hin hcl => ?_, fun hp hin hcl => ?_, fun hp hin => ?_, fun hp => ?_⟩⟩⟩⟩
  · rw [arrivalSensed_lid hst hm, arrive_tin _ ht, handOver_lid]
    exact lidArrive_inbound hin
  · rw [arrivalSensed_lid hst hm, arrive_tin _ ht, handOver_lid]
    exact lidArrive_held hin
  · rw [arrivalSensed_shake hst hm, arrive_tin _ ht, handOver_shake]
    exact shakeArrive_open hin hcl
  · rw [arrivalSensed_shake hst hm, arrive_tin _ ht, handOver_shake]
    exact shakeArrive_closed hin hcl
  · rw [arrivalSensed_shake hst hm, arrive_tin _ ht, handOver_shake]
    exact shakeArrive_held hin
  case home =>
    rw [homeSensed_home hst hm]
    unfold moveEnded
    rw [← ht]
  case none =>
    rw [resolveCarriage_due hst hc hd he, placeTin_none ht, ← ht]
    rfl
  · rw [resolve_handedOver hst hc hd he hm ht hp, handOver_lid, lidArrive_inbound (s := offDispense s) hin, lidTest_mapCarriage]
    rfl
  · rw [resolve_handedOver hst hc hd he hm ht hp, handOver_lid, lidArrive_held (s := offDispense s) hin]
    rfl
  · rw [resolve_handedBack hst hc hd he hm ht hp, handBack_lid]
    rfl
  · rw [resolve_handedOver hst hc hd he hm ht hp, handOver_shake, shakeArrive_open (s := offLid s) hin hcl]
    rfl
  · rw [resolve_handedOver hst hc hd he hm ht hp, handOver_shake, shakeArrive_closed (s := offLid s) hin hcl, askClaim_mapCarriage]
    rfl
  · rw [resolve_handedOver hst hc hd he hm ht hp, handOver_shake, shakeArrive_held (s := offLid s) hin]
    rfl
  · rw [resolve_handedBack hst hc hd he hm ht hp, handBack_shake]
    rfl

end Sys2Proof.Proofs
end

