-- ==== Sys2Proof/Proofs/LidWork.lean ====
section
/-! PROOF. The lid bay: its test made afresh, its stroke, its faults and its lost tins (R119 to R126). -/

namespace Sys2Proof.Proofs

open Sys2Proof Sys2Proof.Machine Sys2Proof.Safety Sys2Proof.Laws

variable {s t u : State} {r : TinRecord} {p : Pool} {f : LidBay → LidBay} {g : ShakeBay → ShakeBay} {e : Events → Events}

/-! ## A claim given up beside the work of the bays -/

/-- Changes of the lid bay, the shake bay and the event flags. -/
def beside (f : LidBay → LidBay) (g : ShakeBay → ShakeBay) (e : Events → Events) (s : State) : State :=
  { s with lid := f s.lid, shake := g s.shake, events := e s.events }

theorem placeFrame_beside (x : Frame) : beside f g e (placeFrame x s) = placeFrame x (beside f g e s) := by
  unfold placeFrame
  rw [apply_ite (beside f g e)]
  rfl

theorem agent_beside : (beside f g e s).agent p = s.agent p := by cases p <;> rfl

theorem mapAgent_beside (a : Agent → Agent) : beside f g e (s.mapAgent p a) = (beside f g e s).mapAgent p a := by
  cases p <;> rfl

theorem releaseOrder_beside : beside f g e (releaseOrder p s) = releaseOrder p (beside f g e s) := by
  unfold releaseOrder
  dsimp only
  rw [apply_ite (beside f g e), placeFrame_beside, mapAgent_beside, mapAgent_beside, mapAgent_beside]
  cases p <;> rfl

/-- Giving a claim up concerns the line and the agent alone. -/
theorem giveUp_beside : beside f g e (giveUp p s) = giveUp p (beside f g e s) := by
  unfold giveUp
  rw [apply_ite (beside f g e), releaseOrder_beside, agent_beside]

theorem giveUp_mapLid : (giveUp p s).mapLid f = giveUp p (s.mapLid f) := giveUp_beside (g := id) (e := id)

theorem giveUp_lid : (giveUp p s).lid = s.lid := by simp

/-! ## The lid test made afresh (R120, R121) -/

theorem ownLids_badField {code : Byte} (h : 15 < code.toNat) : ownLids code u = refuse .badField u := if_pos h

theorem ownLids_taken {code : Byte} (h : code.toNat ≤ 15) :
    ownLids code u = accept [] (lidRecheck { u with lid := { u.lid with declared := some code.toNat } }) :=
  if_neg (Nat.not_lt.2 h)

theorem lidTestPasses_iff : lidTestPasses s r = true ↔
    s.lid.declared = some (s.cfg.sizes[r.size]).lidType ∧ s.inputs.magazine = true := by
  unfold lidTestPasses
  rw [Bool.and_eq_true, decide_eq_true_eq]

theorem lidRecheck_other (h1 : s.lid.st ≠ .awaitLids) (h2 : s.lid.st ≠ .awaitAir) (h3 : s.lid.st ≠ .awaitQuiet) :
    lidRecheck s = s := by
  unfold lidRecheck
  split
  · rfl
  · split
    case h_1 h => exact absurd h h1
    case h_2 h => exact absurd h h2
    case h_3 h => exact absurd h h3
    case h_4 => rfl

theorem lidRecheck_lids (ht : s.lid.tin = some r) (h : s.lid.st = .awaitLids) :
    lidRecheck s = if lidTestPasses s r then enterAwaitAir (clearFlag .lidsWanted s) else s := by
  unfold lidRecheck
  rw [ht]
  dsimp only
  rw [h]

theorem lidRecheck_asked (ht : s.lid.tin = some r) (h : s.lid.st = .awaitAir ∨ s.lid.st = .awaitQuiet) :
    lidRecheck s = if lidTestPasses s r then s else enterAwaitLids (giveUp .air s) := by
  unfold lidRecheck
  rw [ht]
  dsimp only
  rcases h with h | h <;> rw [h]

theorem enterAwaitLids_giveUp : enterAwaitLids (giveUp .air s) = giveUp .air { s with
    lid := { s.lid with st := .awaitLids, resume := none, deferral := none }
    events := { s.events with flags := s.events.flags ||| BitVec.twoPow 15 4 } } :=
  giveUp_beside (f := fun b => { b with st := .awaitLids, resume := none, deferral := none }) (g := id)
    (e := fun v => { v with flags := v.flags ||| BitVec.twoPow 15 4 })

theorem exec_sensedEq {level f : State → State} (hon : s.online = true) (h : f (level s) = t) :
    (.next (whenSensed level f s) : Host.Outcome State Fault Refusal) = .next (settle t) := by
  rw [exec_whenSensed hon, h]

/-- Settles O44: the declaration, the magazine, and the test in each state that waits. -/
theorem lidTestsAreMadeAfresh : Obligations.LidTestsAreMadeAfresh := by
  unfold Obligations.LidTestsAreMadeAfresh
  refine ⟨?lids, fun s present hon => exec_sensedEq hon rfl, fun s => lidRecheck_other, fun s r ht => ⟨fun h hno => ?_,
    fun h hp => ?_, fun h hp => ?_, fun h hno => ?_⟩⟩
  case lids =>
    rintro code s u hs rfl
    exact ⟨fun h => exec_done (r := .lids code) rfl hs.1 (.inl hs.2) (ownLids_badField h),
      fun h => exec_done (r := .lids code) rfl hs.1 (.inl hs.2) (ownLids_taken h)⟩
  · rw [lidRecheck_lids ht h, if_neg (mt lidTestPasses_iff.1 hno)]
  · rw [lidRecheck_lids ht h, if_pos (lidTestPasses_iff.2 hp)]
    rfl
  · rw [lidRecheck_asked ht h, if_pos (lidTestPasses_iff.2 hp)]
  · rw [lidRecheck_asked ht h, if_neg (mt lidTestPasses_iff.1 hno), enterAwaitLids_giveUp]

/-! ## The stroke (R123) -/

theorem seatedSensed_late {time : Nat} (hst : s.lid.st = .extend) (hseat : s.lid.seat = some time) (h : 150 ≤ time) :
    seatedSensed s = seatLid time s := by
  have hsofar : s.lid.seatSoFar = time := by simp [LidBay.seatSoFar, hseat]
  unfold seatedSensed
  rw [if_pos hst, hsofar]
  exact if_neg (Nat.not_lt.2 h)

theorem seatedSensed_early {time : Nat} (hst : s.lid.st = .extend) (hseat : s.lid.seat = some time) (h : time < 150) :
    seatedSensed s = strokeFails .lidMissing s := by
  have hsofar : s.lid.seatSoFar = time := by simp [LidBay.seatSoFar, hseat]
  unfold seatedSensed
  rw [if_pos hst, hsofar]
  exact if_pos h

theorem endStroke_kept (ht : s.lid.tin = some r) (hl : r.lost = false) : endStroke s = giveUp .air { s with
    lid := { s.lid with
      st := .done
      home := none
      tin := some { r with lid := some { fault := none, seatTime := s.lid.seatTime } } } } := by
  have htin : (giveUp .air (s.mapLid fun b => { b with home := none })).lid.tin = some r :=
    (congrArg LidBay.tin giveUp_lid).trans ht
  unfold endStroke
  dsimp only
  rw [htin]
  dsimp only
  rw [if_neg (Bool.eq_false_iff.1 hl)]
  refine (giveUp_mapLid (f := fun b => { b with
    st := .done
    tin := b.tin.map fun x => { x with lid := some { fault := none, seatTime := s.lid.seatTime } } })).trans
      (congrArg (giveUp .air) ?_)
  simp only [State.mapLid, ht, Option.map_some]

theorem endStroke_lost (ht : s.lid.tin = some r) (hl : r.lost = true) :
    endStroke s = enterLidLost (giveUp .air (s.mapLid fun b => { b with home := none })) := by
  have htin : (giveUp .air (s.mapLid fun b => { b with home := none })).lid.tin = some r :=
    (congrArg LidBay.tin giveUp_lid).trans ht
  unfold endStroke
  dsimp only
  rw [htin]
  exact if_pos hl

theorem pressHomeSensed_retract (h : s.lid.st = .retract) : pressHomeSensed s = endStroke s := if_pos h

theorem pressHomeSensed_held (h : s.lid.st ≠ .retract) (hc : s.lid.homeCheck = false) : pressHomeSensed s =
    if s.lid.home.isSome then giveUp .air (s.mapLid fun b => { b with home := none }) else s := by
  unfold pressHomeSensed
  rw [if_neg h, hc]
  rfl

/-- Settles O45: the seated lid, the dwell's end, the press home, and the commands that find no stroke. -/
theorem lidStrokeSeatsTheLid : Obligations.LidStrokeSeatsTheLid := by
  unfold Obligations.LidStrokeSeatsTheLid
  refine fun s hon => ⟨fun time hst hseat h => exec_onlineEq hon (seatedSensed_late hst hseat h),
    fun hst => exec_onlineEq hon (if_pos hst), fun r hst ht hl => exec_sensedEq hon ?home,
    fun hst => ⟨exec_onlineEq hon (if_neg hst), exec_onlineEq hon (if_neg hst)⟩, fun hst => exec_onlineEq hon (if_neg hst),
    fun hst hc hh => exec_sensedEq hon ?none⟩
  case home =>
    refine (pressHomeSensed_retract (s := s.mapInputs _) hst).trans ?_
    exact endStroke_kept (s := s.mapInputs fun i => { i with pressHome := true }) ht hl
  case none =>
    refine (pressHomeSensed_held (s := s.mapInputs _) hst hc).trans (if_neg ?_)
    exact Option.not_isSome_iff_eq_none.2 hh

end Sys2Proof.Proofs
end

