-- ==== Sys2Proof/Proofs/LidFaults.lean ====
section
/-! PROOF. The faults of the lid bay's stroke, the lifted tin, and the lost record (R119, R124 to R126, R194). -/

namespace Sys2Proof.Proofs

open Sys2Proof Sys2Proof.Machine Sys2Proof.Safety Sys2Proof.Laws

variable {s t u : State} {r : TinRecord} {k : FaultKind}

/-! ## The stroke fails (R124) -/

/-- The lid result FAILED. -/
def failedLid (k : FaultKind) (time : Nat) (s : State) : State :=
  s.mapTin .lid fun r => { r with lid := some { fault := some k, seatTime := time } }

theorem strokeFails_eq (time : Nat) (h : s.lid.seatSoFar = time) : strokeFails k s = latch .lid k (failedLid k time s) := by
  rw [← h]
  rfl

theorem guardChanged_stroke (h : s.lid.st = .extend ∨ s.lid.st = .dwell) :
    guardChanged true s = strokeFails .guardBreach s := if_pos (by simpa using h)

theorem guardChanged_other {isOpen : Bool} (h : isOpen = false ∨ (s.lid.st ≠ .extend ∧ s.lid.st ≠ .dwell)) :
    guardChanged isOpen s = s := by
  refine if_neg ?_
  rcases h with h | ⟨h1, h2⟩
  · simp [h]
  · simp [h1, h2]

/-- The air given up with the home timer stopped. -/
def homeless (s : State) : State := giveUp .air { s with lid := { s.lid with home := none } }

theorem homeless_seatSoFar : (homeless s).lid.seatSoFar = s.lid.seatSoFar := by
  unfold homeless
  rw [giveUp_lid]
  rfl

section HomeLimit

variable {n : Nat} (hn : s.lid.home = some n) (h : 3000 ≤ n)
include hn h

theorem reached_home : reached Config.homeLimitMs s.lid.home = true := by
  rw [reached_some hn]
  exact decide_eq_true h

theorem homeExpires_kept (hst : s.lid.st = .retract) (ht : s.lid.tin = some r) (hl : r.lost = false) :
    homeExpires s = strokeFails .pressHome (homeless s) := by
  unfold homeExpires
  rw [if_pos (reached_home hn h), if_pos hst, ht]
  exact if_neg (Bool.eq_false_iff.1 hl)

theorem homeExpires_lost (hst : s.lid.st = .retract) (ht : s.lid.tin = some r) (hl : r.lost = true) :
    homeExpires s = latch .lid .pressHome (homeless s) := by
  unfold homeExpires
  rw [if_pos (reached_home hn h), if_pos hst, ht]
  exact if_pos hl

theorem homeExpires_fault (hst : s.lid.st = .fault) (hc : s.lid.homeCheck = false) (hf : s.mon.faultL.isSome = true) :
    homeExpires s = latch .lid .pressHome (homeless s) := by
  unfold homeExpires
  rw [if_pos (reached_home hn h), if_neg (by simp [hst]), if_neg (by simp [hc])]
  exact if_pos (by simp [hst, hf])

theorem homeExpires_stopped (hst : s.lid.st = .stopped) (hc : s.lid.homeCheck = false) : homeExpires s = homeless s := by
  unfold homeExpires
  rw [if_pos (reached_home hn h), if_neg (by simp [hst]), if_neg (by simp [hc])]
  exact if_neg (by simp [hst])

end HomeLimit

theorem homeExpires_early (h : s.lid.home = none ∨ ∃ n, s.lid.home = some n ∧ n < 3000) : homeExpires s = s := by
  refine if_neg ?_
  rcases h with h | ⟨n, hn, hlt⟩
  · simp [h, reached]
  · rw [reached_some hn]
    exact fun hd => absurd (of_decide_eq_true hd) (Nat.not_le.2 hlt)

/-! ## The tin is lifted (R119, R126) -/

theorem lidTinOff_orphan (h : s.lid.st = .orphan) : lidTinOff s = s.mapLid fun b => { b with st := .empty } := if_pos h

theorem lidTinOff_noted (h : s.lid.st = .fault ∨ s.lid.st = .stopped) (ht : s.lid.tin = none) :
    lidTinOff s = s.mapLid fun b => { b with removed := true } := by
  unfold lidTinOff
  rw [if_neg (by rcases h with h | h <;> simp [h])]
  exact if_pos (by simpa [ht] using h)

theorem loseLid_none (ht : s.lid.tin = none) : loseLid s = s := by
  unfold loseLid
  rw [ht]

theorem lidTinOff_empty (ht : s.lid.tin = none) (h1 : s.lid.st ≠ .orphan) (h2 : s.lid.st ≠ .fault) (h3 : s.lid.st ≠ .stopped) :
    lidTinOff s = s := by
  unfold lidTinOff
  rw [if_neg h1, if_neg (by simp [h2, h3]), loseLid_none ht]

theorem lidTinOff_tin (ht : s.lid.tin = some r) (h : s.lid.st ≠ .orphan) : lidTinOff s = loseLid s := by
  unfold lidTinOff
  rw [if_neg h, if_neg (by simp [ht])]

/-- The lid bay with its tin marked and noted. -/
def lidLost (r : TinRecord) (s : State) : State :=
  { s with lid := { s.lid with tin := some { r.note .tinLost with lost := true } } }

theorem loseLid_again (ht : s.lid.tin = some r) (hl : r.lost = true) : loseLid s = s := by
  unfold loseLid
  rw [ht]
  exact if_pos hl

section LidLoss

variable (ht : s.lid.tin = some r)
include ht

theorem lidLost_marked : (s.mapTin .lid fun x => { x.note .tinLost with lost := true }) = lidLost r s := by
  simp only [State.mapTin, State.mapLid, lidLost, ht, Option.map_some]

variable (hl : r.lost = false)
include hl

theorem loseLid_awaitLids (h : s.lid.st = .awaitLids) :
    loseLid s = enterLidLost (clearFlag .lidsWanted (lidLost r s)) := by
  unfold loseLid
  rw [ht]
  dsimp only
  rw [if_neg (Bool.eq_false_iff.1 hl), lidLost_marked ht, h]

theorem loseLid_awaitAir (h : s.lid.st = .awaitAir ∨ s.lid.st = .awaitQuiet) :
    loseLid s = enterLidLost (giveUp .air (lidLost r s)) := by
  unfold loseLid
  rw [ht]
  dsimp only
  rw [if_neg (Bool.eq_false_iff.1 hl), lidLost_marked ht]
  rcases h with h | h <;> rw [h]

theorem loseLid_inStroke (h : s.lid.st = .extend ∨ s.lid.st = .dwell) :
    loseLid s = (lidLost r s).mapLid fun b => { retractPress b with st := .retract } := by
  unfold loseLid
  rw [ht]
  dsimp only
  rw [if_neg (Bool.eq_false_iff.1 hl), lidLost_marked ht]
  rcases h with h | h <;> rw [h]

theorem loseLid_inDone (h : s.lid.st = .done) : loseLid s = enterLidLost (lidLost r s) := by
  unfold loseLid
  rw [ht]
  dsimp only
  rw [if_neg (Bool.eq_false_iff.1 hl), lidLost_marked ht, h]

theorem loseLid_goesOn (h : s.lid.st = .retract ∨ s.lid.st = .fault ∨ s.lid.st = .stopped) : loseLid s = lidLost r s := by
  unfold loseLid
  rw [ht]
  dsimp only
  rw [if_neg (Bool.eq_false_iff.1 hl), lidLost_marked ht]
  rcases h with h | h | h <;> rw [h]

end LidLoss

/-! ## The lost record (R126, R194) -/

theorem enterLidLost_joins (ht : s.lid.tin = some r) (hl : r.lost = true) (hroom : s.completion.length < 16) :
    enterLidLost s = { s with
      completion := s.completion ++ [{ r with verdict := some (verdictOf r) }]
      events := { s.events with flags := s.events.flags ||| BitVec.twoPow 15 0 }
      lid := { s.lid with st := .empty, resume := none, tin := none, removed := false } } := by
  unfold enterLidLost joinOrWait
  rw [if_pos (hasRoom_iff.2 (show (s.mapLid _).completion.length < 16 from hroom)),
    drainLid_joins (s := s.mapLid fun b => { b with st := .done, resume := none }) hroom rfl ht hl]
  rfl

theorem enterLidLost_waits (hfull : 16 ≤ s.completion.length) : enterLidLost s = { s with
    events := { s.events with flags := s.events.flags ||| BitVec.twoPow 15 1 }
    lid := { s.lid with st := .done, resume := none } } := by
  unfold enterLidLost joinOrWait
  exact if_neg fun h => absurd (hasRoom_iff.1 h) (Nat.not_lt.2 hfull)

theorem exec_lidOff (hon : s.online = true) (h : lidTinOff (s.mapInputs fun i => { i with presLid := false }) = t) :
    exec (.tinPresenceLid false) s = .next (settle t) := exec_sensedEq hon h

/-- Settles O46: the stroke's faults, the home limit, the lifted tin, and the lost record's wait. -/
theorem lidFaultsFailTheLid : Obligations.LidFaultsFailTheLid := by
  unfold Obligations.LidFaultsFailTheLid
  refine ⟨fun s hon => ⟨fun time hst hseat h => exec_onlineEq hon ?early, fun hst => exec_onlineEq hon ?jam,
    fun hst => exec_sensedEq hon ?guard, fun isOpen h => exec_sensedEq hon (guardChanged_other (s := s.mapInputs _) h),
    fun r n hst hn hle ht => ⟨fun hl => exec_onlineEq hon ?kept, fun hl => exec_onlineEq hon (homeExpires_lost hn hle hst ht hl)⟩,
    fun n hst hc hn => ⟨fun hf hlatched hle => exec_onlineEq hon (homeExpires_fault hn hle hf hc hlatched),
      fun hf hle => exec_onlineEq hon (homeExpires_stopped hn hle hf hc), exec_sensedEq hon ?home⟩,
    fun h => exec_onlineEq hon (homeExpires_early h), fun hst => exec_lidOff hon (lidTinOff_orphan (s := s.mapInputs _) hst),
    fun ht hst => exec_lidOff hon (lidTinOff_noted (s := s.mapInputs _) hst ht),
    fun ht h1 h2 h3 => exec_lidOff hon (lidTinOff_empty (s := s.mapInputs _) ht h1 h2 h3), fun r ht hst => ?lifted,
    fun r hst ht hl => exec_sensedEq hon ?lostHome, exec_sensedEq hon rfl⟩,
    fun s r ht hl => ⟨enterLidLost_joins ht hl, enterLidLost_waits⟩⟩
  case early =>
    rw [seatedSensed_early hst hseat h, strokeFails_eq time (by simp [LidBay.seatSoFar, hseat])]
    rfl
  case jam =>
    unfold seatExpires
    rw [if_pos hst, strokeFails_eq 3000 rfl]
    rfl
  case guard => exact (guardChanged_stroke (s := s.mapInputs _) hst).trans (strokeFails_eq _ rfl)
  case kept =>
    rw [homeExpires_kept hn hle hst ht hl]
    exact strokeFails_eq _ homeless_seatSoFar
  case home =>
    have hne : s.lid.st ≠ .retract := by rcases hst with h | h <;> simp [h]
    exact (pressHomeSensed_held (s := s.mapInputs _) hne hc).trans (if_pos (by simp [hn]))
  case lostHome =>
    exact (pressHomeSensed_retract (s := s.mapInputs _) hst).trans (endStroke_lost (s := s.mapInputs _) ht hl)
  case lifted =>
    have hoff := lidTinOff_tin (s := s.mapInputs fun i => { i with presLid := false }) ht hst
    exact ⟨fun hl => exec_lidOff hon (hoff.trans (loseLid_again ht hl)), fun hl =>
      ⟨fun h => exec_lidOff hon (hoff.trans (loseLid_awaitLids ht hl h)), fun h => exec_lidOff hon (hoff.trans (loseLid_awaitAir ht hl h)),
        fun h => exec_lidOff hon (hoff.trans (loseLid_inStroke ht hl h)), fun h => exec_lidOff hon (hoff.trans (loseLid_inDone ht hl h)),
        fun h => exec_lidOff hon (hoff.trans (loseLid_goesOn ht hl h))⟩⟩

end Sys2Proof.Proofs
end

