-- ==== Sys2Proof/Proofs/ShakeWork.lean ====
section
/-! PROOF. The shake bay: its course from clamp to removal, its faults, its lost tins and the record's wait (R128 to
R134, R194). -/

namespace Sys2Proof.Proofs

open Sys2Proof Sys2Proof.Machine Sys2Proof.Safety Sys2Proof.Laws

variable {s t u : State} {r : TinRecord} {period : Nat}

/-! ## The clamp (R128, R131) -/

theorem clampSensed_closed (h : s.shake.st = .clamp) : clampSensed true s = clampConfirmed s := if_pos h

theorem clampSensed_open (h : s.shake.st = .unclamp) : clampSensed false s = afterUnclamp s := if_pos h

theorem clampSensed_recorded {closed : Bool} (h : s.shake.st ≠ if closed then .clamp else .unclamp) :
    clampSensed closed s = s := by
  cases closed
  · exact if_neg h
  · exact if_neg h

theorem afterUnclamp_eq : afterUnclamp s = { s with shake := { s.shake with
    st := if s.inputs.presShake = false ∨ (s.shake.joined = true ∧ s.shake.removed = true) then .empty else .awaitRemoval
    clampDrive := .off, clamp := none, resume := none, joined := false, removed := false } } := by
  have hiff : (s.shake.joined && s.shake.removed || !s.inputs.presShake) = true ↔
      s.inputs.presShake = false ∨ (s.shake.joined = true ∧ s.shake.removed = true) := by
    rw [Bool.or_eq_true, Bool.and_eq_true, Bool.not_eq_true', or_comm]
  unfold afterUnclamp State.mapShake
  dsimp only
  rw [if_congr hiff rfl rfl]

/-! ## The speed (R129, R130) -/

theorem measure_spinUp (h : s.shake.st = .spinUp) : Machine.measure period s =
    if period ≤ reachLimit (shakeTarget s) then reachSpeed (s.mapShake fun b => { b with lastSpeed := some period })
    else s.mapShake fun b => { b with lastSpeed := some period } := by
  unfold Machine.measure
  dsimp only
  rw [h]

theorem measure_run (h : s.shake.st = .run) :
    Machine.measure period s = judgeSpeed period (s.mapShake fun b => { b with lastSpeed := some period }) := by
  unfold Machine.measure
  dsimp only
  rw [h]

theorem measure_other (h1 : s.shake.st ≠ .spinUp) (h2 : s.shake.st ≠ .run) :
    Machine.measure period s = s.mapShake fun b => { b with lastSpeed := some period } := by
  unfold Machine.measure
  dsimp only
  split
  case h_1 h => exact absurd h h1
  case h_2 h => exact absurd h h2
  case h_3 => rfl

theorem judgeSpeed_fast (h : period ≤ slowLimit (shakeTarget s)) :
    judgeSpeed period s = s.mapShake fun b => { b with slow := 0 } := if_neg (Nat.not_lt.2 h)

theorem judgeSpeed_slow (h : slowLimit (shakeTarget s) < period) (hn : s.shake.slow < 2) :
    judgeSpeed period s = s.mapShake fun b => { b with slow := b.slow + 1 } := by
  unfold judgeSpeed
  rw [if_pos h, if_neg (Nat.not_le.2 hn)]

theorem judgeSpeed_third (h : slowLimit (shakeTarget s) < period) (hn : 2 ≤ s.shake.slow) :
    judgeSpeed period s = latch .shake .shakeSpeed (s.mapShake fun b => { b with slow := 3 }) := by
  unfold judgeSpeed
  rw [if_pos h, if_pos hn]

theorem saturatedSpeed_spinDown (h : s.shake.st = .spinDown) :
    saturatedSpeed s = endShake (s.mapShake fun b => { b with lastSpeed := some 2000000 }) := by
  unfold saturatedSpeed
  dsimp only
  rw [h]
  rfl

theorem saturatedSpeed_run (h : s.shake.st = .run) :
    saturatedSpeed s = judgeSpeed 2000000 (s.mapShake fun b => { b with lastSpeed := some 2000000 }) := by
  unfold saturatedSpeed
  dsimp only
  rw [h]
  rfl

theorem saturatedSpeed_other (h1 : s.shake.st ≠ .spinDown) (h2 : s.shake.st ≠ .run) (ht : s.shake.turning = false) :
    saturatedSpeed s = s.mapShake fun b => { b with lastSpeed := some 2000000 } := by
  unfold saturatedSpeed
  dsimp only
  split
  case h_1 h => exact absurd h h1
  case h_2 h => exact absurd h h2
  case h_3 => exact if_neg (by simp [ht])

/-! ## The end of the shake (R130, R134) -/

/-- The shaker at rest, POWER still to be given up. -/
def atRest (s : State) : State :=
  { s with
    scale := { s.scale with window := [], blank := some s.cfg.general.blankTime }
    shake := { s.shake with drive := .off, turning := false } }

theorem comeToRest_eq : comeToRest s = giveUp .power (atRest s) := rfl

theorem comeToRest_mapShake (g : ShakeBay → ShakeBay) : (comeToRest s).mapShake g = giveUp .power ((atRest s).mapShake g) :=
  giveUp_beside (f := id) (g := g) (e := id)

theorem comeToRest_tin : (comeToRest s).shake.tin = s.shake.tin := by
  rw [comeToRest_eq]
  simp [atRest]

theorem endShake_kept (ht : s.shake.tin = some r) (hl : r.lost = false) : endShake s = enterAwaitRoom (giveUp .power
    ((atRest s).mapShake fun b => { b with tin := some { r with shake := some r.shaken } })) := by
  have hmap : ((comeToRest s).mapTin .shake fun x => if x.lost then x else { x with shake := some x.shaken }) =
      (comeToRest s).mapShake fun b => { b with tin := some { r with shake := some r.shaken } } := by
    have hif : (if r.lost = true then r else { r with shake := some r.shaken }) = { r with shake := some r.shaken } :=
      if_neg (Bool.eq_false_iff.1 hl)
    simp only [State.mapTin, State.mapShake, comeToRest_tin, ht, Option.map_some, hif]
  unfold endShake
  rw [hmap, comeToRest_mapShake]

theorem endShake_lost (ht : s.shake.tin = some r) (hl : r.lost = true) :
    endShake s = enterAwaitRoom (giveUp .power (atRest s)) := by
  have hmap : ((comeToRest s).mapTin .shake fun x => if x.lost then x else { x with shake := some x.shaken }) =
      comeToRest s := by
    have hif : (if r.lost = true then r else { r with shake := some r.shaken }) = r := if_pos hl
    have hback : (some r : Option TinRecord) = (comeToRest s).shake.tin := (comeToRest_tin.trans ht).symm
    simp only [State.mapTin, State.mapShake, comeToRest_tin, ht, Option.map_some, hif]
    rw [hback]
  unfold endShake
  rw [hmap, comeToRest_eq]

/-- Settles O47: the clamp, the speed, the run, the rest and the removal. -/
theorem shakeRunsItsCourse : Obligations.ShakeRunsItsCourse := by
  unfold Obligations.ShakeRunsItsCourse
  refine fun s hon => ⟨fun h => exec_sensedEq hon (clampSensed_closed (s := s.mapInputs _) h),
    fun period h hp => exec_onlineEq hon ?reached, fun period h hp => exec_onlineEq hon ?unreached,
    fun period h hp => exec_onlineEq hon ?fast, fun r h ht => exec_onlineEq hon ?second, fun h => exec_onlineEq hon (if_pos h),
    fun r h ht hl => exec_onlineEq hon ?rest, fun h => exec_sensedEq hon ?opened, fun h => exec_sensedEq hon ?gone,
    fun closed h => exec_sensedEq hon (clampSensed_recorded (s := s.mapInputs _) h),
    fun period h1 h2 => exec_onlineEq hon (measure_other h1 h2),
    fun h1 h2 ht => exec_onlineEq hon (saturatedSpeed_other h1 h2 ht),
    fun h => ⟨exec_onlineEq hon (if_neg h), exec_onlineEq hon (if_neg h)⟩⟩
  case reached =>
    rw [measure_spinUp h, if_pos (show period ≤ reachLimit (shakeTarget s) from hp)]
    rfl
  case unreached =>
    rw [measure_spinUp h, if_neg (show ¬ period ≤ reachLimit (shakeTarget s) from Nat.not_le.2 hp)]
    rfl
  case fast => exact (measure_run h).trans (judgeSpeed_fast (s := s.mapShake _) hp)
  case second =>
    unfold secondRun
    rw [if_pos h]
    simp only [State.mapTin, State.mapShake, ht, Option.map_some]
  case rest => exact (saturatedSpeed_spinDown h).trans (endShake_kept (s := s.mapShake _) ht hl)
  case opened => exact (clampSensed_open (s := s.mapInputs _) h).trans afterUnclamp_eq
  case gone =>
    change shakeTinOff _ = _
    unfold shakeTinOff
    rw [show (s.mapInputs _).shake.st = _ from h]
    rfl

/-! ## The lifted tin (R131, R134, R203) -/

theorem shakeTinOff_noted (h : s.shake.st = .unclamp ∨ (s.shake.tin = none ∧ (s.shake.st = .fault ∨ s.shake.st = .stopped))) :
    shakeTinOff s = s.mapShake fun b => { b with removed := true } := by
  unfold shakeTinOff
  rcases h with h | ⟨ht, h | h⟩ <;> rw [h]
  · exact if_pos (by simp [ht])
  · exact if_pos (by simp [ht])

theorem shakeTinOff_orphan (h : s.shake.st = .orphan) : shakeTinOff s =
    if s.inputs.clampClosed then enterUnclamp s
    else s.mapShake fun b => { b with st := .empty, resume := none, removed := false } := by
  unfold shakeTinOff
  rw [h]
  rfl

theorem enterUnclamp_closed (h : s.inputs.clampClosed = true) : enterUnclamp s =
    s.mapShake fun b => { b with st := .unclamp, resume := none, clampDrive := .opening, clamp := some 0 } := if_pos h

theorem shakeTinOff_tin (ht : s.shake.tin = some r) (h1 : s.shake.st ≠ .orphan) (h2 : s.shake.st ≠ .awaitRemoval)
    (h3 : s.shake.st ≠ .unclamp) : shakeTinOff s = loseShake s := by
  unfold shakeTinOff
  split
  case h_1 h => exact absurd h h1
  case h_2 h => exact absurd h h2
  case h_3 h => exact absurd h h3
  case h_4 => exact if_neg (by simp [ht])
  case h_5 => exact if_neg (by simp [ht])
  case h_6 => rfl

/-- The shake bay with its tin marked and noted. -/
def shakeLost (r : TinRecord) (s : State) : State :=
  { s with shake := { s.shake with tin := some { r.note .tinLost with lost := true } } }

theorem loseShake_again (ht : s.shake.tin = some r) (hl : r.lost = true) : loseShake s = s := by
  unfold loseShake
  rw [ht]
  exact if_pos hl

section ShakeLoss

variable (ht : s.shake.tin = some r)
include ht

theorem shakeLost_marked : (s.mapTin .shake fun x => { x.note .tinLost with lost := true }) = shakeLost r s := by
  simp only [State.mapTin, State.mapShake, shakeLost, ht, Option.map_some]

variable (hl : r.lost = false)
include hl

theorem loseShake_inClamp (h : s.shake.st = .clamp) : loseShake s =
    enterAwaitRoom ((shakeLost r s).mapShake fun b => { b with clampDrive := .off, clamp := none }) := by
  unfold loseShake
  rw [ht]
  dsimp only
  rw [if_neg (Bool.eq_false_iff.1 hl), shakeLost_marked ht, h]

theorem loseShake_awaitPower (h : s.shake.st = .awaitPower ∨ s.shake.st = .awaitQuiet) :
    loseShake s = enterAwaitRoom (giveUp .power (shakeLost r s)) := by
  unfold loseShake
  rw [ht]
  dsimp only
  rw [if_neg (Bool.eq_false_iff.1 hl), shakeLost_marked ht]
  rcases h with h | h <;> rw [h]

theorem loseShake_shaking (h : s.shake.st = .spinUp ∨ s.shake.st = .run) :
    loseShake s = (brake (shakeLost r s)).mapShake fun b => { b with st := .spinDown } := by
  unfold loseShake
  rw [ht]
  dsimp only
  rw [if_neg (Bool.eq_false_iff.1 hl), shakeLost_marked ht]
  rcases h with h | h <;> rw [h]

theorem loseShake_goesOn (h : s.shake.st = .inbound ∨ s.shake.st = .spinDown ∨ s.shake.st = .awaitRoom ∨
    s.shake.st = .fault ∨ s.shake.st = .stopped) : loseShake s = shakeLost r s := by
  unfold loseShake
  rw [ht]
  dsimp only
  rw [if_neg (Bool.eq_false_iff.1 hl), shakeLost_marked ht]
  rcases h with h | h | h | h | h <;> rw [h]

end ShakeLoss

/-! ## The record joins or waits (R131, R194) -/

theorem enterAwaitRoom_joins (ht : s.shake.tin = some r) (hroom : s.completion.length < 16) :
    enterAwaitRoom s = shakeJoined (joinRecord r (s.mapShake fun b => { b with st := .awaitRoom, resume := none })) := by
  unfold enterAwaitRoom joinOrWait
  rw [if_pos (hasRoom_iff.2 (show (s.mapShake _).completion.length < 16 from hroom)),
    drainShake_joins (s := s.mapShake fun b => { b with st := .awaitRoom, resume := none }) hroom rfl ht]

theorem enterAwaitRoom_waits (hfull : 16 ≤ s.completion.length) : enterAwaitRoom s = { s with
    events := { s.events with flags := s.events.flags ||| BitVec.twoPow 15 1 }
    shake := { s.shake with st := .awaitRoom, resume := none } } := by
  unfold enterAwaitRoom joinOrWait
  exact if_neg fun h => absurd (hasRoom_iff.1 h) (Nat.not_lt.2 hfull)

theorem shakeJoined_closed (h : s.inputs.clampClosed = true) : shakeJoined s = s.mapShake fun b =>
    { b with
      tin := none, joined := true, removed := false, st := .unclamp, resume := none, clampDrive := .opening, clamp := some 0 } :=
  if_pos h

theorem shakeJoined_open (h : s.inputs.clampClosed = false) : shakeJoined s = s.mapShake fun b =>
    { b with
      st := if s.inputs.presShake then .awaitRemoval else .empty
      tin := none, clampDrive := .off, clamp := none, resume := none, joined := false, removed := false } := by
  unfold shakeJoined enterUnclamp
  rw [if_neg (show ¬ (s.mapShake _).inputs.clampClosed = true from Bool.eq_false_iff.1 h), afterUnclamp_eq]
  cases hp : s.inputs.presShake <;> simp [State.mapShake, hp]

theorem exec_shakeOff (hon : s.online = true) (h : shakeTinOff (s.mapInputs fun i => { i with presShake := false }) = t) :
    exec (.tinPresenceShake false) s = .next (settle t) := exec_sensedEq hon h

/-- Settles O48: the timeouts and the slow revolutions, the lifted tin, and the record's wait. -/
theorem shakeFaultsAreLatched : Obligations.ShakeFaultsAreLatched := by
  unfold Obligations.ShakeFaultsAreLatched
  refine ⟨fun s hon => ⟨fun h => exec_onlineEq hon (if_pos h), fun h => exec_onlineEq hon (if_neg (by simp [h])),
    fun h => exec_onlineEq hon (if_pos h), fun h => exec_onlineEq hon (if_neg h),
    fun period h hs hn => exec_onlineEq hon ((measure_run h).trans (judgeSpeed_slow (s := s.mapShake _) hs hn)),
    fun period h hs hn => exec_onlineEq hon ((measure_run h).trans (judgeSpeed_third (s := s.mapShake _) hs hn)),
    fun h hs => ⟨fun hn => exec_onlineEq hon ((saturatedSpeed_run h).trans (judgeSpeed_slow (s := s.mapShake _) hs hn)),
      fun hn => exec_onlineEq hon ((saturatedSpeed_run h).trans (judgeSpeed_third (s := s.mapShake _) hs hn))⟩,
    fun r ht h1 h2 h3 => ?lifted, fun r h ht hl => exec_onlineEq hon ((saturatedSpeed_spinDown h).trans
      (endShake_lost (s := s.mapShake _) ht hl)), fun h => exec_shakeOff hon (shakeTinOff_noted (s := s.mapInputs _) h),
    fun h => ⟨fun hc => exec_shakeOff hon ?orphanOpen, fun hc => exec_shakeOff hon ?orphanClosed⟩, exec_sensedEq hon rfl⟩,
    fun s r ht => ⟨fun hroom hc => ?_, fun hroom hc => ?_, enterAwaitRoom_waits⟩⟩
  case lifted =>
    have hoff := shakeTinOff_tin (s := s.mapInputs fun i => { i with presShake := false }) ht h1 h2 h3
    exact ⟨fun hl => exec_shakeOff hon (hoff.trans (loseShake_again ht hl)), fun hl =>
      ⟨fun h => exec_shakeOff hon (hoff.trans (loseShake_inClamp ht hl h)),
        fun h => exec_shakeOff hon (hoff.trans (loseShake_awaitPower ht hl h)),
        fun h => exec_shakeOff hon (hoff.trans (loseShake_shaking ht hl h)),
        fun h => exec_shakeOff hon (hoff.trans (loseShake_goesOn ht hl h))⟩⟩
  case orphanOpen =>
    exact (shakeTinOff_orphan (s := s.mapInputs _) h).trans (if_neg (Bool.eq_false_iff.1 hc))
  case orphanClosed =>
    exact (shakeTinOff_orphan (s := s.mapInputs _) h).trans ((if_pos hc).trans (enterUnclamp_closed hc))
  · exact (enterAwaitRoom_joins ht hroom).trans (shakeJoined_closed (s := joinRecord r (s.mapShake _)) hc)
  · exact (enterAwaitRoom_joins ht hroom).trans (shakeJoined_open (s := joinRecord r (s.mapShake _)) hc)

end Sys2Proof.Proofs
end

