-- ==== Sys2Proof/Proofs/ReceivedBeacons.lean ====
section
/-! PROOF. What a received BEACON of a peer makes of its roster entry (R148). -/

namespace Sys2Proof.Proofs

open Sys2Proof Sys2Proof.Machine

variable {s : State} {src : Station} {b : Beacon}

/-- The entry that a BEACON leaves of `e`: PRESENT and age are kept, the rest is the BEACON's. -/
def beaconEntry (i : Identity) (b : Beacon) (e : RosterEntry) : RosterEntry :=
  { e with
    heldPower := b.powerHeld.toNat
    heldAir := b.airHeld.toNat
    waitPower := carriedWait b.powerWait b.powerCount
    waitAir := carriedWait b.airWait b.airCount
    summary := some { mode := b.mode.toNat, interval := b.interval.toNat, jobs := b.jobs.toNat, bays := b.bays.toNat }
    mismatch := decide (b.interval.toNat ≠ intervalCode i) }

/-- The mark of the entry that the BEACON finds decides, with the new mark, over LINE_CHANGE. -/
theorem beaconPeer_withPeer (e : RosterEntry) : beaconPeer src b (withPeer src e s) =
    if decide (b.interval.toNat ≠ intervalCode s.cfg.ident) = true ∧ e.mismatch = false then
      setFlag .lineChange (withPeer src (beaconEntry s.cfg.ident b e) s)
    else withPeer src (beaconEntry s.cfg.ident b e) s := by
  unfold beaconPeer
  dsimp only
  rw [mapEntry_withPeer, withPeer_entry]
  refine ite_congr ?_ (fun _ => rfl) (fun _ => rfl)
  rw [Bool.and_eq_true, Bool.not_eq_true']
  rfl

/-- A BEACON with its contents in range is received as a notice (R137). -/
theorem execBeaconReceived_inRange (hr : b.inRange = true) : exec (.beaconReceived src b) s =
    .next (whenOnline (receive src (thenTell (beaconPeer src b))) s) := by
  change execBeaconReceived src b s = _
  unfold execBeaconReceived
  exact congrArg (fun f => Host.Outcome.next (whenOnline f s)) (if_pos hr)

/-- Settles O52: the BEACON is met in the state in which its sender has been heard, and sets the sender's entry alone. -/
theorem receivedBeaconsSetTheEntry : Obligations.ReceivedBeaconsSetTheEntry := by
  unfold Obligations.ReceivedBeaconsSetTheEntry
  intro s src b hon hl hn hr differs wait t
  rw [execBeaconReceived_inRange hr]
  refine exec_onlineEq hon ((receive_of_peer _ hl hn).trans (congrArg tryBoth ?_))
  exact beaconPeer_withPeer (heardEntry src s)

end Sys2Proof.Proofs
end

