-- ==== Sys2Proof/Proofs/LineFrames.lean ====
section
/-! PROOF. Rules of the transmit queue and of the two claim agents: placing and withdrawing a frame, an agent read after
an update (R138 to R141, R152). -/

namespace Sys2Proof.Proofs

open Sys2Proof Sys2Proof.Machine Sys2Proof.Safety Sys2Proof.Laws

variable {s : State} {p p' : Pool} {k : NoticeKind} {f g : Frame} {q : List Frame}

/-! ## Frames of one kind and pool -/

theorem same_iff : f.same g = true ↔ f.kind = g.kind ∧ f.pool = g.pool := by simp [Frame.same]

theorem same_newFrame_iff {a c : Nat} : (newFrame k p a c).same g = true ↔ g.kind = k ∧ g.pool = p :=
  same_iff.trans (and_congr eq_comm eq_comm)

theorem same_newFrame {a c : Nat} : (newFrame k p a c).same g = (decide (g.kind = k) && decide (g.pool = p)) := by
  rw [Bool.eq_iff_iff, same_newFrame_iff, Bool.and_eq_true, decide_eq_true_eq, decide_eq_true_eq]

/-- The amount and the count of a frame do not say which frames are like it. -/
theorem same_newFrame_eq (a c : Nat) : (newFrame k p a c).same = (newFrame k p 0 0).same := rfl

/-! ## The queue -/

theorem mem_of_mem_putFrame (h : g ∈ putFrame f q) : g = f ∨ g ∈ q := by
  unfold putFrame at h
  split at h
  · obtain ⟨x, hx, hg⟩ := List.mem_map.1 h
    split at hg
    · exact .inl hg.symm
    · exact .inr (hg ▸ hx)
  · exact List.mem_cons.1 ((insertFrame_perm f q).mem_iff.1 h)

/-- A frame goes behind those of its urgency and before those of a later one. -/
theorem insertFrame_append {l r : List Frame} (hl : ∀ x ∈ l, x.kind.urgency ≤ f.kind.urgency)
    (hr : ∀ x ∈ r, f.kind.urgency < x.kind.urgency) : insertFrame f (l ++ r) = l ++ f :: r := by
  induction l with
  | nil =>
    cases r with
    | nil => rfl
    | cons y ys => exact if_pos (hr y List.mem_cons_self)
  | cons y ys ih =>
    obtain ⟨hy, hys⟩ := List.forall_mem_cons.1 hl
    exact (if_neg (Nat.not_lt.2 hy)).trans (congrArg (y :: ·) (ih hys))

theorem any_same_eq_false (h : ∀ x ∈ q, f.same x = false) : q.any f.same = false :=
  List.any_eq_false.2 fun x hx => Bool.eq_false_iff.1 (h x hx)

theorem putFrame_new (h : q.any f.same = false) : putFrame f q = insertFrame f q :=
  if_neg (Bool.eq_false_iff.1 h)

theorem putFrame_again (h : q.any f.same = true) : putFrame f q = q.map fun x => if f.same x = true then f else x :=
  if_pos h

theorem sending_iff {c : LineCtl} : c.sending f = true ↔
    ∃ a, c.attempt = some a ∧ a.fate = .queued ∧ f.same a.frame = true := by
  unfold LineCtl.sending
  split
  · next a ha => simp [ha]
  · next ha => simp [ha]

/-! ## Placing and withdrawing -/

theorem placeFrame_refused (h : s.lineTakes = false) : placeFrame f s = s := if_neg (Bool.eq_false_iff.1 h)

/-- The attempt in progress for a frame like `f`, ending with the fate `x`. -/
def overtake (f : Frame) (x : Fate) (a : Attempt) : Attempt :=
  if a.fate = .queued ∧ f.same a.frame = true then { a with fate := x } else a

theorem setFate_of_sending (c : LineCtl) (x : Fate) : (if c.sending f then c.setFate x else c) =
    { c with attempt := c.attempt.map (overtake f x) } := by
  split
  · next h =>
    obtain ⟨a, ha, hq, hs⟩ := sending_iff.1 h
    simp [LineCtl.setFate, ha, overtake, hq, hs]
  · next h =>
    have hkeep : c.attempt.map (overtake f x) = c.attempt := by
      cases ha : c.attempt with
      | none => rfl
      | some a => exact congrArg some (if_neg fun ⟨hq, hs⟩ => h (sending_iff.2 ⟨a, ha, hq, hs⟩))
    rw [hkeep]

theorem placeFrame_taken (h : s.lineTakes = true) : placeFrame f s = { s with line := { s.line with
    queue := putFrame f s.line.queue, attempt := s.line.attempt.map (overtake f .superseded) } } := by
  unfold placeFrame
  rw [if_pos h]
  unfold State.mapLine
  dsimp only
  rw [setFate_of_sending]

theorem withdrawFrame_eq : withdrawFrame k p s = { s with line := { s.line with
    queue := s.line.queue.filter fun x => !(newFrame k p 0 0).same x
    attempt := s.line.attempt.map (overtake (newFrame k p 0 0) .withdrawn) } } := by
  unfold withdrawFrame State.mapLine
  dsimp only
  rw [setFate_of_sending]

/-- Without an attempt of the pool in progress, the pool's frames come and go in the queue alone. -/
theorem overtake_other {x : Fate} (h : ∀ a, s.line.attempt = some a → a.frame.pool = p → a.fate ≠ .queued)
    (hf : f.pool = p) : s.line.attempt.map (overtake f x) = s.line.attempt := by
  cases ha : s.line.attempt with
  | none => rfl
  | some a =>
    exact congrArg some (if_neg fun ⟨hq, hs⟩ => h a ha (((same_iff.1 hs).2).symm.trans hf) hq)

theorem placeFrame_lineTakes : (placeFrame f s).lineTakes = s.lineTakes := by
  unfold State.lineTakes
  rw [placeFrame_st]

/-! ## The agents -/

@[simp] theorem agent_mapAgent (a : Agent → Agent) : (s.mapAgent p a).agent p = a (s.agent p) := by cases p <;> rfl

theorem agent_mapAgent_ne (a : Agent → Agent) (h : p' ≠ p) : (s.mapAgent p a).agent p' = s.agent p' :=
  match p, p', h with
  | .power, .air, _ | .air, .power, _ => rfl
  | .power, .power, h | .air, .air, h => absurd rfl h

@[simp] theorem agent_placeFrame : (placeFrame f s).agent p = s.agent p := by cases p <;> simp [State.agent]

@[simp] theorem agent_withdrawFrame : (withdrawFrame k p' s).agent p = s.agent p := by cases p <;> simp [State.agent]

/-- An update of an agent is what it makes of the agent that stands. -/
theorem mapAgent_congr {a b : Agent → Agent} (h : a (s.agent p) = b (s.agent p)) : s.mapAgent p a = s.mapAgent p b := by
  cases p
  · exact congrArg (fun x => { s with power := x }) h
  · exact congrArg (fun x => { s with air := x }) h

theorem mapAgent_mapAgent (a b : Agent → Agent) : (s.mapAgent p a).mapAgent p b = s.mapAgent p fun x => b (a x) := by
  cases p <;> rfl

theorem mapAgent_lineTakes (a : Agent → Agent) : (s.mapAgent p a).lineTakes = s.lineTakes := by
  unfold State.lineTakes
  rw [mapAgent_line]

end Sys2Proof.Proofs
end

