-- ==== Sys2Proof/Proofs/ClaimAgents.lean ====
section
/-! PROOF. The claim agents: asking, waiting, trying, lowering, releasing, and the frames they place and withdraw
(R152 to R167). -/

namespace Sys2Proof.Proofs

open Sys2Proof Sys2Proof.Machine Sys2Proof.Safety Sys2Proof.Laws

variable {s : State} {p : Pool} {a b : Nat} {f : Frame}

/-! ## Room and courtesy (R154, R155) -/

/-- The held amounts of the PRESENT peers, summed over the stations. -/
def peersHold (s : State) (held : RosterEntry → Nat) : Nat :=
  ((List.finRange 16).map fun i : Station =>
    if (s.roster[i]).present = true ∧ i ≠ s.cfg.ident.number then held s.roster[i] else 0).sum

theorem ownRoom_eq : ownRoom s p = s.budget p - peersHold s fun e => e.held p := by
  have hcounted : counted s p = fun i : Station =>
      if (s.roster[i]).present = true ∧ i ≠ s.cfg.ident.number then (s.roster[i]).held p else 0 := by
    funext i
    simp [counted]
  unfold ownRoom
  rw [hcounted]
  rfl

/-- No peer that waits in the pool is senior to this station. -/
def NoSenior (s : State) (p : Pool) : Prop :=
  ∀ i : Station, i ≠ s.cfg.ident.number → (s.roster[i]).present = true → ∀ w : PoolWait,
    (s.roster[i]).wait p = some w →
      w.count ≤ (s.agent p).count ∧ (w.count = (s.agent p).count → s.cfg.ident.number ≤ i)

theorem seniorWaiter_iff {i : Station} : seniorWaiter s p i = true ↔ i ≠ s.cfg.ident.number ∧
    (s.roster[i]).present = true ∧ ∃ w : PoolWait, (s.roster[i]).wait p = some w ∧
      ((s.agent p).count < w.count ∨ w.count = (s.agent p).count ∧ i < s.cfg.ident.number) := by
  unfold seniorWaiter
  dsimp only
  rw [Bool.and_eq_true, Bool.and_eq_true, decide_eq_true_eq]
  cases (s.roster[i]).wait p with
  | none => simp
  | some w => simp only [Bool.or_eq_true, Bool.and_eq_true, decide_eq_true_eq, Option.some.injEq, exists_eq_left']; tauto

theorem noSenior_iff : (!stations.any (seniorWaiter s p)) = true ↔ NoSenior s p := by
  rw [Bool.not_eq_true', List.any_eq_false]
  constructor
  · intro h i hi hp w hw
    have hnot : ¬ ((s.agent p).count < w.count ∨ w.count = (s.agent p).count ∧ i < s.cfg.ident.number) := fun hs =>
      h i (List.mem_finRange i) (seniorWaiter_iff.2 ⟨hi, hp, w, hw, hs⟩)
    rw [not_or, not_and] at hnot
    exact ⟨Nat.le_of_not_lt hnot.1, fun he => Fin.not_lt.1 (hnot.2 he)⟩
  · intro h i _ hs
    obtain ⟨hi, hp, w, hw, hs⟩ := seniorWaiter_iff.1 hs
    obtain ⟨hle, hnumber⟩ := h i hi hp w hw
    rcases hs with hlt | ⟨he, hlt⟩
    · exact Nat.not_lt.2 hle hlt
    · exact Fin.not_lt.2 (hnumber he) hlt

theorem courtesy_iff : courtesy s p a = true ↔ s.line.st = .active ∧ a ≤ ownRoom s p ∧ NoSenior s p := by
  unfold courtesy
  rw [Bool.and_eq_true, Bool.and_eq_true, decide_eq_true_eq, decide_eq_true_eq, noSenior_iff, and_assoc]

theorem lineTakes_of_courtesy (h : courtesy s p a = true) : s.lineTakes = true := by
  simp [State.lineTakes, (courtesy_iff.1 h).1]

/-- What an agent has asked for is not looked at by the courtesy of its pool. -/
theorem courtesy_asked (x : Option Nat) : courtesy (s.mapAgent p fun g => { g with asked := x }) p a = courtesy s p a := by
  cases p <;> rfl

/-! ## Asking and waiting (R156, R160, R167) -/

theorem askClaim_busy (h : (s.agent p).st ≠ .idle) : askClaim p a s = s := if_neg h

theorem askClaim_solo (hi : (s.agent p).st = .idle) (hm : s.cfg.ident.lineMode = .solo) : askClaim p a s =
    if a ≤ s.budget p then grantOwn p a s else s.mapAgent p fun g => { g with st := .waiting, asked := some a } :=
  (if_pos hi).trans (if_pos hm)

theorem askClaim_peer (hi : (s.agent p).st = .idle) (hm : s.cfg.ident.lineMode = .peer) : askClaim p a s =
    if courtesy s p a then placeClaim p (s.mapAgent p fun g => { g with asked := some a })
    else beginWait p (s.mapAgent p fun g => { g with asked := some a }) := by
  refine ((if_pos hi).trans (if_neg (by simp [hm]))).trans ?_
  dsimp only
  rw [courtesy_asked]

theorem placeClaim_asked (h : (s.agent p).asked = some a) : placeClaim p s =
    placeFrame (newFrame .claim p a 0) (s.mapAgent p fun g => { g with st := .asking }) := by
  unfold placeClaim
  rw [h]
  rfl

theorem beginWait_fresh (h : (s.agent p).asked = some a) (hw : (s.agent p).standing = false) : beginWait p s =
    placeFrame (newFrame .wait p a 0)
      (s.mapAgent p fun g => { g with st := .waiting, standing := true, count := 0, timer := some 0 }) := by
  have hwait : beginWait p s = placeWait p (s.mapAgent p fun g => { g with st := .waiting, standing := true, count := 0, timer := some 0 }) :=
    congrArg (placeWait p) (mapAgent_congr (if_neg (Bool.eq_false_iff.1 hw)))
  rw [hwait]
  unfold placeWait
  rw [agent_mapAgent]
  dsimp only
  rw [h]
  rfl

theorem beginWait_standing (h : (s.agent p).asked = some a) (hw : (s.agent p).standing = true) : beginWait p s =
    placeFrame (newFrame .wait p a (s.agent p).count) (s.mapAgent p fun g => { g with st := .waiting }) := by
  have hwait : beginWait p s = placeWait p (s.mapAgent p fun g => { g with st := .waiting }) :=
    congrArg (placeWait p) (mapAgent_congr (if_pos hw))
  rw [hwait]
  unfold placeWait
  rw [agent_mapAgent]
  dsimp only
  rw [h]
  rfl

/-! ## A try (R160) -/

theorem tryClaim_other (h : (s.agent p).st ≠ .waiting) : tryClaim p s = s := by
  unfold tryClaim
  exact if_neg (by simp [h])

theorem tryClaim_waiting (hw : (s.agent p).st = .waiting) (ha : (s.agent p).asked = some a) : tryClaim p s =
    if courtesy s p a then placeClaim p (withdrawFrame .wait p s) else s := by
  unfold tryClaim
  rw [hw, ha]
  rfl

/-- The try that goes through: the WAIT leaves the queue, the agent is ASKING, and its CLAIM is placed. -/
theorem tryClaim_claims (hw : (s.agent p).st = .waiting) (ha : (s.agent p).asked = some a) (hc : courtesy s p a = true) :
    tryClaim p s = placeFrame (newFrame .claim p a 0)
      ((withdrawFrame .wait p s).mapAgent p fun g => { g with st := .asking }) := by
  rw [tryClaim_waiting hw ha, if_pos hc, placeClaim_asked (a := a) (by rw [agent_withdrawFrame, ha])]

theorem tried_lineTakes (hc : courtesy s p a = true) :
    ((withdrawFrame .wait p s).mapAgent p fun g => { g with st := .asking }).lineTakes = true := by
  rw [mapAgent_lineTakes, withdrawFrame_lineTakes, lineTakes_of_courtesy hc]

theorem tryClaim_queue (hw : (s.agent p).st = .waiting) (ha : (s.agent p).asked = some a) (hc : courtesy s p a = true) :
    (tryClaim p s).line.queue =
      putFrame (newFrame .claim p a 0) (s.line.queue.filter fun g => !(newFrame .wait p 0 0).same g) := by
  rw [tryClaim_claims hw ha hc, placeFrame_queue _ (tried_lineTakes hc), mapAgent_line, withdrawFrame_queue]

theorem tryClaim_agent (hw : (s.agent p).st = .waiting) (ha : (s.agent p).asked = some a) (hc : courtesy s p a = true) :
    ((tryClaim p s).agent p).st = .asking := by
  rw [tryClaim_claims hw ha hc, agent_placeFrame, agent_mapAgent]

theorem tryClaim_unmet (hw : (s.agent p).st = .waiting) (ha : (s.agent p).asked = some a) (hc : courtesy s p a = true)
    (hx : ∀ x : Attempt, s.line.attempt = some x → x.frame.pool = p → x.fate ≠ .queued) :
    tryClaim p s = ({ s with line := { s.line with
      queue := putFrame (newFrame .claim p a 0)
        (s.line.queue.filter fun g : Frame => !(g.kind = .wait && g.pool = p)) } } : State).mapAgent p fun g =>
          { g with st := .asking } := by
  have hfilter : (fun g : Frame => !(newFrame .wait p 0 0).same g) = fun g : Frame => !(g.kind = .wait && g.pool = p) :=
    funext fun g => congrArg (!·) same_newFrame
  rw [tryClaim_claims hw ha hc, placeFrame_taken (tried_lineTakes hc), mapAgent_line, withdrawFrame_eq, ← hfilter]
  dsimp only
  rw [overtake_other hx rfl, overtake_other hx rfl]
  cases p <;> rfl

/-! ## Lowering and releasing (R162, R163) -/

theorem lowerClaim_held (hh : (s.agent p).st = .held) (hb : b < (s.agent p).announced) : lowerClaim p b s =
    if s.lineTakes then placeFrame (newFrame .adjust p b 0) s else s.mapAgent p fun g => { g with announced := b } :=
  if_pos (by simp [hh, hb])

theorem lowerClaim_other (h : (s.agent p).st ≠ .held ∨ (s.agent p).announced ≤ b) : lowerClaim p b s = s := by
  refine if_neg ?_
  rw [Bool.and_eq_true, decide_eq_true_eq, decide_eq_true_eq]
  rintro ⟨hh, hb⟩
  exact h.elim (· hh) (Nat.not_le.2 hb)

/-- The state of a release order before its RELEASE: CLAIM, WAIT and ADJUST withdrawn, the agent IDLE. -/
def releasing (p : Pool) (s : State) : State :=
  (withdrawFrame .adjust p (withdrawFrame .wait p (withdrawFrame .claim p s))).mapAgent p fun g =>
    { g with st := .idle, asked := none, standing := false, count := 0, timer := none }

theorem releaseOrder_taken (h : s.lineTakes = true) :
    releaseOrder p s = placeFrame (newFrame .release p 0 0) (releasing p s) := if_pos h

theorem releaseOrder_refused (h : s.lineTakes = false) :
    releaseOrder p s = (releasing p s).mapAgent p fun g => { g with announced := 0 } := if_neg (Bool.eq_false_iff.1 h)

theorem releasing_agent : (releasing p s).agent p =
    { s.agent p with st := .idle, asked := none, standing := false, count := 0, timer := none } := by
  unfold releasing
  rw [agent_mapAgent, agent_withdrawFrame, agent_withdrawFrame, agent_withdrawFrame]

theorem releasing_lineTakes : (releasing p s).lineTakes = s.lineTakes := by
  unfold releasing
  rw [mapAgent_lineTakes, withdrawFrame_lineTakes, withdrawFrame_lineTakes, withdrawFrame_lineTakes]

/-- Of the pool's frames only a RELEASE and a BEACON are left in the queue. -/
theorem mem_releasing (hf : f ∈ (releasing p s).line.queue) (hp : f.pool = p) : f.kind = .release ∨ f.kind = .beacon := by
  have hgone (k : NoticeKind) (u : State) (hu : f ∈ (withdrawFrame k p u).line.queue) :
      f.kind ≠ k ∧ f ∈ u.line.queue := by
    rw [withdrawFrame_queue, List.mem_filter, Bool.not_eq_true'] at hu
    exact ⟨fun hk => Bool.eq_false_iff.1 hu.2 (same_newFrame_iff.2 ⟨hk, hp⟩), hu.1⟩
  unfold releasing at hf
  rw [mapAgent_line] at hf
  obtain ⟨hadjust, hf⟩ := hgone _ _ hf
  obtain ⟨hwait, hf⟩ := hgone _ _ hf
  obtain ⟨hclaim, -⟩ := hgone _ _ hf
  cases hk : f.kind with
  | claim => exact absurd hk hclaim
  | adjust => exact absurd hk hadjust
  | release => exact .inl rfl
  | wait => exact absurd hk hwait
  | beacon => exact .inr rfl

/-- The agent after a release order. -/
theorem releaseOrder_self : (releaseOrder p s).agent p = { s.agent p with
    st := .idle, asked := none, standing := false, count := 0, timer := none
    announced := if s.lineTakes then (s.agent p).announced else 0 } := by
  cases h : s.lineTakes with
  | true => rw [releaseOrder_taken h, agent_placeFrame, releasing_agent]; rfl
  | false => rw [releaseOrder_refused h, agent_mapAgent, releasing_agent]; rfl

theorem mem_releaseOrder (h : s.lineTakes = true) (hf : f ∈ (releaseOrder p s).line.queue) (hp : f.pool = p) :
    f.kind = .release ∨ f.kind = .beacon := by
  rw [releaseOrder_taken h, placeFrame_queue _ (releasing_lineTakes.trans h)] at hf
  rcases mem_of_mem_putFrame hf with rfl | hf
  · exact .inl rfl
  · exact mem_releasing hf hp

/-! ## What the agents are told (R158, R159) -/

theorem claimLost_asking (h : (s.agent p).st = .asking) : claimLost p s = beginWait p s := if_pos h

theorem claimLost_other (h : (s.agent p).st ≠ .asking) : claimLost p s = s := if_neg h

theorem reportUnsent_claim (h : f.kind = .claim) : reportUnsent f s = claimLost f.pool s := by simp [reportUnsent, h]

theorem reportUnsent_adjust (h : f.kind = .adjust) :
    reportUnsent f s = s.mapAgent f.pool fun g => { g with announced := min g.announced f.amount } := by
  simp [reportUnsent, h, adjustDone]

theorem reportUnsent_release (h : f.kind = .release) :
    reportUnsent f s = s.mapAgent f.pool fun g => { g with announced := 0 } := by
  simp [reportUnsent, h, releaseDone]

theorem reportUnsent_other (h : f.kind = .wait ∨ f.kind = .beacon) : reportUnsent f s = s := by
  rcases h with h | h <;> simp [reportUnsent, h]

theorem ask_idle (hi : (s.agent p).st = .idle) :
    (s.cfg.ident.lineMode = .solo → a ≤ s.budget p → askClaim p a s = grantOwn p a s) ∧
    (s.cfg.ident.lineMode = .solo → s.budget p < a →
      askClaim p a s = s.mapAgent p fun g => { g with st := .waiting, asked := some a }) ∧
    (s.cfg.ident.lineMode = .peer → courtesy s p a = true → askClaim p a s = placeFrame (newFrame .claim p a 0)
      (s.mapAgent p fun g => { g with st := .asking, asked := some a })) ∧
    (s.cfg.ident.lineMode = .peer → courtesy s p a = false →
      askClaim p a s = beginWait p (s.mapAgent p fun g => { g with asked := some a })) := by
  refine ⟨fun hm hb => (askClaim_solo hi hm).trans (if_pos hb),
    fun hm hb => (askClaim_solo hi hm).trans (if_neg (Nat.not_le.2 hb)), fun hm hc => ?_,
    fun hm hc => (askClaim_peer hi hm).trans (if_neg (Bool.eq_false_iff.1 hc))⟩
  rw [askClaim_peer hi hm, if_pos hc, placeClaim_asked (a := a) (by rw [agent_mapAgent]), mapAgent_mapAgent]

/-- Settles O54, by the rule of each order, try and report of an agent. -/
theorem agentsAskAndRelease : Obligations.AgentsAskAndRelease := by
  unfold Obligations.AgentsAskAndRelease
  refine ⟨⟨fun s p a hi => ask_idle hi, fun s p a h => askClaim_busy h, fun s a => ⟨rfl, rfl⟩,
    fun s p a ha => ⟨beginWait_fresh ha, beginWait_standing ha⟩, fun s p a hw ha => ⟨fun hc hx => ?unmet,
      fun hc => ⟨tryClaim_agent hw ha hc, fun f hf => ?noWait, ?claim⟩, fun hc => ?discourteous⟩,
    fun s p h => tryClaim_other h, fun s => rfl, fun s p a => courtesy_iff, fun s => ?room⟩,
    fun s p b => ⟨fun hh hb => ⟨fun h => (lowerClaim_held hh hb).trans (if_pos h),
      fun h => (lowerClaim_held hh hb).trans (if_neg (Bool.eq_false_iff.1 h))⟩, lowerClaim_other⟩,
    fun s p => ?release, fun s f => ⟨placeFrame_refused, placeFrame_taken, fun q => putFrame_again, ?behind⟩,
    fun s f => ⟨reportUnsent_claim, claimLost_asking, claimLost_other, reportUnsent_adjust, reportUnsent_release,
      reportUnsent_other⟩⟩
  case unmet => exact tryClaim_unmet hw ha hc hx
  case noWait =>
    rintro ⟨hk, hp⟩
    rw [tryClaim_queue hw ha hc] at hf
    rcases mem_of_mem_putFrame hf with rfl | hf
    · exact absurd hk (by simp [newFrame])
    · rw [List.mem_filter, Bool.not_eq_true'] at hf
      exact Bool.eq_false_iff.1 hf.2 (same_newFrame_iff.2 ⟨hk, hp⟩)
  case claim =>
    rw [tryClaim_queue hw ha hc]
    exact ⟨_, mem_putFrame _ _, rfl, rfl, rfl⟩
  case discourteous => exact (tryClaim_waiting hw ha).trans (if_neg (Bool.eq_false_iff.1 hc))
  case room =>
    intro peers leaves
    constructor <;> (rw [ownRoom_eq]; exact sub_leaves _ _)
  case release =>
    intro t
    have hagent : t.agent p = _ := releaseOrder_self
    rw [hagent]
    refine ⟨rfl, rfl, rfl, rfl, rfl, fun h => ⟨if_pos h, releaseOrder_releases_self p h, fun f hf => mem_releaseOrder h hf⟩,
      fun h => if_neg (Bool.eq_false_iff.1 h), fun h => if_pos h, fun h => if_neg h⟩
  case behind =>
    intro l r hnew hl hr
    rw [putFrame_new (any_same_eq_false hnew), insertFrame_append hl hr]

end Sys2Proof.Proofs
end

