-- ==== Sys2Proof/Proofs/Attempts.lean ====
section
/-! PROOF. The frame that is started, its bytes, and an attempt that ends without being sent (R138 to R141, R145, R211). -/

namespace Sys2Proof.Proofs

open Sys2Proof Sys2Proof.Machine Sys2Proof.Safety Sys2Proof.Laws

variable {s : State} {a : Attempt} {f : Frame}

/-! ## Starting a frame (R138, R141) -/

theorem allows_iff {l : LineCtlState} {k : NoticeKind} : l.allows k = true ↔
    l = .active ∨ l = .listening ∧ k ≠ .claim ∨ l = .down ∧ k = .beacon := by
  cases l <;> simp [LineCtlState.allows]

theorem next_eq_some_iff {c : LineCtl} : c.next = some f ↔ c.st.allows f.kind = true ∧
    ∃ l r : List Frame, c.queue = l ++ f :: r ∧ ∀ g ∈ l, ¬ c.st.allows g.kind = true := by
  unfold LineCtl.next
  rw [List.find?_eq_some_iff_append]
  simp

theorem next_eq_none_iff {c : LineCtl} : c.next = none ↔ ∀ g ∈ c.queue, ¬ c.st.allows g.kind = true := by
  unfold LineCtl.next
  rw [List.find?_eq_none]

theorem startFrame_idle (h : s.line.attempt = none) (hn : s.line.next = some f) : startFrame s = { s with
    line := { s.line with attempt := some { frame := f, fate := .queued, bytes := frameBytes s f }, awaitIdle := false } } := by
  simp only [startFrame, h, hn]
  rfl

theorem startFrame_not (h : s.line.attempt.isSome = true ∨ s.line.next = none) : startFrame s = s := by
  unfold startFrame
  split
  · next ha hn => simp [ha, hn] at h
  · rfl

/-! ## The bytes of a frame (R145, R211) -/

/-- The three occupancy bits are those of a sum of powers of two. -/
theorem baysOccupied_eq : baysOccupied s = BitVec.ofNat 8 ((if s.disp.st ≠ .empty then 1 else 0) +
    (if s.lid.st ≠ .empty then 2 else 0) + (if s.shake.st ≠ .empty then 4 else 0)) := by
  unfold baysOccupied
  split <;> split <;> split <;> rfl

theorem poolByte_eq (p : Pool) : BitVec.ofNat 8 (poolCode p) = if p = .power then 0 else 1 := by cases p <;> rfl

theorem frameBytes_eq {k : NoticeKind} (hk : f.kind = k) : frameBytes s f =
    let body := [arbitrationByte k.urgency s.cfg.ident.number.val, BitVec.ofNat 8 k.code] ++ payloadBytes s f
    body ++ crcBytes body := by
  rw [← hk]
  rfl

/-! ## An attempt ends unsent (R138 to R140, R143) -/

theorem loseArbitration_of_some (h : s.line.attempt = some a) :
    loseArbitration s = attemptFailed false a (endAttempt Config.idleBits s) := by simp only [loseArbitration, h]

theorem loseArbitration_of_none (h : s.line.attempt = none) : loseArbitration s = s := by simp only [loseArbitration, h]

theorem transmitFails_of_some (h : s.line.attempt = some a) :
    transmitFails s = attemptFailed true a (endAttempt ((s.cfg.ident.number.val + 1) * 16) s) := by
  simp only [transmitFails, h]

theorem transmitFails_of_none (h : s.line.attempt = none) : transmitFails s = s := by simp only [transmitFails, h]

theorem frameEnds_of_some (h : s.line.attempt = some a) : frameEnds s = frameDone a s := by simp only [frameEnds, h]

theorem frameEnds_of_none (h : s.line.attempt = none) : frameEnds s = s := by simp only [frameEnds, h]

theorem attemptFailed_uncounted (hq : a.fate = .queued) : attemptFailed false a s = s := by
  simp [attemptFailed, hq]

theorem attemptFailed_down (hq : a.fate = .queued) (hd : s.line.st = .down) (hk : a.frame.kind = .claim) :
    attemptFailed true a s = claimLost a.frame.pool (unqueue a.frame s) := by
  simp [attemptFailed, hq, hd, hk, reportUnsent]

theorem attemptFailed_again (hq : a.fate = .queued) (hd : ¬ (s.line.st = .down ∧ a.frame.kind = .claim))
    (hn : a.frame.attempts < 7) : attemptFailed true a s = s.mapLine fun c =>
      { c with queue := c.queue.map fun g => if a.frame.same g then { g with attempts := g.attempts + 1 } else g } := by
  simp only [attemptFailed, hq]
  rw [if_neg (by simpa using hd), if_pos trivial]
  exact if_neg (Nat.not_le.2 (Nat.succ_lt_succ hn))

theorem attemptFailed_eighth (hq : a.fate = .queued) (hd : ¬ (s.line.st = .down ∧ a.frame.kind = .claim))
    (hn : 7 ≤ a.frame.attempts) :
    attemptFailed true a s = countDrop (reportUnsent a.frame (unqueue a.frame s)) := by
  simp only [attemptFailed, hq]
  rw [if_neg (by simpa using hd), if_pos trivial]
  exact if_pos (Nat.succ_le_succ hn)

theorem attemptFailed_beacon (counted : Bool) (hx : a.fate = .superseded) (hk : a.frame.kind = .beacon) :
    attemptFailed counted a s = countDrop s := by
  simp [attemptFailed, hx, hk]

theorem attemptFailed_overtaken (counted : Bool) (hq : a.fate ≠ .queued)
    (hx : a.fate = .withdrawn ∨ a.frame.kind ≠ .beacon) : attemptFailed counted a s = s := by
  unfold attemptFailed
  split
  · rfl
  · next hf => exact if_neg (hx.resolve_left (by simp [hf]))
  · next hf => exact absurd hf hq

/-- Settles O49, by the fate of the attempt and, of a queued frame, by its attempts. -/
theorem framesStartAndFail : Obligations.FramesStartAndFail := by
  unfold Obligations.FramesStartAndFail
  refine ⟨fun s hon => ⟨fun f h hn => exec_onlineEq hon (startFrame_idle h hn),
      fun h => exec_onlineEq hon (startFrame_not h),
      fun a ha hq => exec_onlineEq hon ((loseArbitration_of_some ha).trans (attemptFailed_uncounted hq)),
      fun a ha hq hd hk => exec_onlineEq hon ((transmitFails_of_some ha).trans (attemptFailed_down hq hd hk)),
      fun a ha hq hd => ⟨fun hn => exec_onlineEq hon ((transmitFails_of_some ha).trans (attemptFailed_again hq hd hn)),
        fun hn => exec_onlineEq hon ((transmitFails_of_some ha).trans (attemptFailed_eighth hq hd hn))⟩,
      fun a ha hq => ⟨fun hx hk =>
          ⟨exec_onlineEq hon ((loseArbitration_of_some ha).trans (attemptFailed_beacon false hx hk)),
            exec_onlineEq hon ((transmitFails_of_some ha).trans (attemptFailed_beacon true hx hk))⟩,
        fun hx => ⟨exec_onlineEq hon ((loseArbitration_of_some ha).trans (attemptFailed_overtaken false hq hx)),
          exec_onlineEq hon ((transmitFails_of_some ha).trans (attemptFailed_overtaken true hq hx))⟩⟩,
      fun h => ⟨exec_onlineEq hon (loseArbitration_of_none h), exec_onlineEq hon (transmitFails_of_none h),
        exec_onlineEq hon (frameEnds_of_none h)⟩⟩,
    fun c => ?next, fun s f => ?bytes⟩
  case next =>
    have hallowed (k : NoticeKind) := allows_iff (l := c.st) (k := k)
    simp only [← hallowed]
    exact ⟨fun f => next_eq_some_iff, next_eq_none_iff⟩
  case bytes =>
    refine ⟨fun hk => ?_, fun hk => ?_, fun hk => ?_, fun hk => ?_, fun hk => ?_⟩ <;>
      simp only [frameBytes_eq hk, payloadBytes, hk, poolByte_eq, beaconBytes, baysOccupied_eq] <;> rfl

end Sys2Proof.Proofs
end

