-- ==== Sys2Proof/Proofs/SentAndDropped.lean ====
section
/-! PROOF. A frame that is sent, the owner that is told of it, and the run of drops that takes the line DOWN (R138, R139,
R143, R158). -/

namespace Sys2Proof.Proofs

open Sys2Proof Sys2Proof.Machine Sys2Proof.Safety Sys2Proof.Laws

variable {s : State} {p : Pool} {a : Attempt} {f : Frame}

/-! ## The owner is told that its frame was sent (R138, R158, R162, R163) -/

theorem reportSent_withdrawn (hk : a.frame.kind = .claim) (hx : a.fate = .withdrawn) :
    reportSent a s = judgeWithdrawn a.frame.pool a.frame.amount s := by simp [reportSent, hk, hx]

theorem reportSent_claim (hk : a.frame.kind = .claim) (hx : a.fate ≠ .withdrawn) :
    reportSent a s = judgeOwn a.frame.pool s := by simp [reportSent, hk, hx]

theorem reportSent_adjust (hk : a.frame.kind = .adjust) :
    reportSent a s = adjustDone a.frame.pool a.frame.amount s := by simp [reportSent, hk]

theorem reportSent_release (hk : a.frame.kind = .release) : reportSent a s = releaseDone a.frame.pool s := by
  simp [reportSent, hk]

theorem reportSent_other (hk : a.frame.kind = .wait ∨ a.frame.kind = .beacon) : reportSent a s = s := by
  rcases hk with hk | hk <;> simp [reportSent, hk]

theorem judgeOwn_asking (h : (s.agent p).st = .asking) : judgeOwn p s =
    if (s.agent p).asked.getD 0 ≤ ownRoom s p then grantOwn p ((s.agent p).asked.getD 0) s else beginWait p s := if_pos h

theorem judgeOwn_other (h : (s.agent p).st ≠ .asking) : judgeOwn p s = s := if_neg h

theorem beginWait_st : (beginWait p s).line.st = s.line.st := by
  unfold beginWait placeWait
  rw [placeFrame_st, mapAgent_line]

theorem grantOwn_line (n : Nat) : (grantOwn p n s).line = s.line := by cases p <;> rfl

theorem reportSent_st : (reportSent a s).line.st = s.line.st := by
  unfold reportSent judgeWithdrawn judgeOwn adjustDone releaseDone
  dsimp only
  split
  · split
    · split
      · rw [mapAgent_line]
      · rfl
    · split
      · split
        · rw [grantOwn_line]
        · exact beginWait_st
      · rfl
  · rw [mapAgent_line]
  · rw [mapAgent_line]
  · rfl
  · rfl

/-! ## The end of an attempt that is sent (R138, R143) -/

/-- The attempt ended by its frame end, the run of drops ended; the frame has left the queue unless it was out of it. -/
def sentOff (a : Attempt) (s : State) : State :=
  if a.fate = .queued then { s with line := { s.line with
    attempt := none, startReq := 12, drops := 0, queue := s.line.queue.filter fun g => !a.frame.same g } }
  else { s with line := { s.line with attempt := none, startReq := 12, drops := 0 } }

theorem frameEnds_sent (h : s.line.attempt = some a) : frameEnds s = returnFromDown (reportSent a (sentOff a s)) := by
  rw [frameEnds_of_some h]
  rfl

theorem sentOff_queued (hq : a.fate = .queued) : sentOff a s = { s with line := { s.line with
    attempt := none, startReq := 12, drops := 0, queue := s.line.queue.filter fun g => !a.frame.same g } } := if_pos hq

theorem returnFromDown_up (h : s.line.st ≠ .down) : returnFromDown s = s := if_neg h

theorem returnFromDown_listening (h : s.line.st = .down) (hr : s.line.ret = .listening) :
    returnFromDown s = enterLine .listening (s.mapLine fun c => { c with listens := 0 }) := (if_pos h).trans (if_pos hr)

theorem returnFromDown_active (h : s.line.st = .down) (hr : s.line.ret ≠ .listening) :
    returnFromDown s = tryBoth (enterLine .active s) := (if_pos h).trans (if_neg hr)

/-- A frame sent outside DOWN leaves the line state. -/
theorem frameEnds_up (h : s.line.attempt = some a) (hq : a.fate = .queued) (hd : s.line.st ≠ .down) :
    frameEnds s = reportSent a { s with line := { s.line with
      attempt := none, startReq := 12, drops := 0, queue := s.line.queue.filter fun g => !a.frame.same g } } := by
  rw [frameEnds_sent h, sentOff_queued hq]
  refine returnFromDown_up ?_
  rw [reportSent_st]
  exact hd

/-! ## CLAIMs returned unsent (R143; log 62) -/

/-- The pool's CLAIMs out of the queue. -/
def claimsOut (p : Pool) (s : State) : State := unqueue (newFrame .claim p 0 0) s

theorem queuedClaim_iff : s.line.queue.any (newFrame .claim p 0 0).same = true ↔
    ∃ g ∈ s.line.queue, g.kind = .claim ∧ g.pool = p := by
  simp [List.any_eq_true, same_newFrame_iff]

theorem sendingClaim_iff {c : LineCtl} : c.sending (newFrame .claim p 0 0) = true ↔
    ∃ a : Attempt, c.attempt = some a ∧ a.fate = .queued ∧ a.frame.kind = .claim ∧ a.frame.pool = p := by
  simp only [sending_iff, same_newFrame_iff]

theorem returnClaim_unsent (hq : ∃ g ∈ s.line.queue, g.kind = .claim ∧ g.pool = p)
    (hd : ¬ s.line.sending (newFrame .claim p 0 0) = true) : returnClaim p s = claimLost p (claimsOut p s) :=
  if_pos (by rw [queuedClaim_iff.2 hq, Bool.eq_false_iff.2 hd]; rfl)

theorem returnClaim_not (h : (¬ ∃ g ∈ s.line.queue, g.kind = .claim ∧ g.pool = p) ∨
    s.line.sending (newFrame .claim p 0 0) = true) : returnClaim p s = s := by
  refine if_neg ?_
  rw [Bool.and_eq_true, Bool.not_eq_true', queuedClaim_iff]
  rintro ⟨hq, hd⟩
  exact h.elim (· hq) (Bool.eq_false_iff.1 hd)

theorem claimsOut_eq : claimsOut p s = { s with line := { s.line with
    queue := s.line.queue.filter fun g : Frame => !(g.kind = .claim && g.pool = p) } } := by
  have hfilter : (fun g : Frame => !(newFrame .claim p 0 0).same g) = fun g : Frame => !(g.kind = .claim && g.pool = p) :=
    funext fun g => congrArg (!·) same_newFrame
  unfold claimsOut unqueue State.mapLine
  rw [hfilter]

/-- Nothing of a line but its WAITs differs: its state, the CLAIMs it holds and the CLAIM it is driving stay. -/
structure ClaimsKept (s t : State) : Prop where
  st : t.line.st = s.line.st
  ret : t.line.ret = s.line.ret
  queue : ∀ f ∈ t.line.queue, f.kind = .claim → f ∈ s.line.queue
  sending : ∀ f : Frame, f.kind = .claim → t.line.sending f = s.line.sending f

theorem ClaimsKept.refl (s : State) : ClaimsKept s s := ⟨rfl, rfl, fun _ hf _ => hf, fun _ _ => rfl⟩

theorem ClaimsKept.trans {t u : State} (h : ClaimsKept s t) (h' : ClaimsKept t u) : ClaimsKept s u where
  st := h'.st.trans h.st
  ret := h'.ret.trans h.ret
  queue f hf hk := h.queue f (h'.queue f hf hk) hk
  sending f hk := (h'.sending f hk).trans (h.sending f hk)

/-- An attempt for a CLAIM is not overtaken by a frame of another kind. -/
theorem sending_overtake {c : LineCtl} {q : List Frame} {w : Frame} {x : Fate} (hw : w.kind ≠ .claim)
    (hf : f.kind = .claim) :
    { c with queue := q, attempt := c.attempt.map (overtake w x) : LineCtl }.sending f = c.sending f := by
  cases ha : c.attempt with
  | none => simp [LineCtl.sending, ha]
  | some a =>
    by_cases hs : w.same a.frame = true
    · have hkind : f.kind ≠ a.frame.kind := fun h => hw ((same_iff.1 hs).1.trans (h.symm.trans hf))
      have hnot : f.same a.frame = false := Bool.eq_false_iff.2 fun h => hkind (same_iff.1 h).1
      have hframe : (overtake w x a).frame = a.frame := by unfold overtake; split <;> rfl
      simp [LineCtl.sending, ha, hframe, hnot]
    · have hkeep : overtake w x a = a := if_neg fun h => hs h.2
      simp [LineCtl.sending, ha, hkeep]

theorem placeFrame_claimsKept {w : Frame} (hw : w.kind ≠ .claim) : ClaimsKept s (placeFrame w s) := by
  cases h : s.lineTakes with
  | false => rw [placeFrame_refused h]; exact .refl s
  | true =>
    rw [placeFrame_taken h]
    exact ⟨rfl, rfl, fun f hf hk => (mem_of_mem_putFrame hf).resolve_left fun he => hw (he ▸ hk),
      fun f hk => sending_overtake hw hk⟩

theorem claimLost_claimsKept : ClaimsKept s (claimLost p s) := by
  unfold claimLost
  split
  · unfold beginWait placeWait
    have hagent (g : Agent → Agent) : ClaimsKept s (s.mapAgent p g) := by
      cases p <;> exact ⟨rfl, rfl, fun _ hf _ => hf, fun _ _ => rfl⟩
    exact (hagent _).trans (placeFrame_claimsKept (by simp [newFrame]))
  · exact .refl s

theorem claimsOut_claimsKept : ClaimsKept s (claimsOut p s) :=
  ⟨rfl, rfl, fun _ hf _ => List.mem_of_mem_filter hf, fun _ _ => rfl⟩

theorem returnClaim_claimsKept : ClaimsKept s (returnClaim p s) := by
  unfold returnClaim
  dsimp only
  split
  · exact (claimsOut_claimsKept (p := p)).trans claimLost_claimsKept
  · exact .refl s

/-- Of the pool's CLAIMs only the one in progress is left. -/
theorem mem_returnClaim (hf : f ∈ (returnClaim p s).line.queue) (hk : f.kind = .claim) (hp : f.pool = p) :
    s.line.sending f = true := by
  have hlike : s.line.sending f = s.line.sending (newFrame .claim p 0 0) := by
    rw [Bool.eq_iff_iff, sendingClaim_iff, sending_iff]
    simp only [same_iff, hk, hp]
    simp only [eq_comm]
  rw [hlike]
  by_contra hd
  have hq : ∃ g ∈ s.line.queue, g.kind = .claim ∧ g.pool = p :=
    ⟨f, returnClaim_claimsKept.queue f hf hk, hk, hp⟩
  rw [returnClaim_unsent hq hd] at hf
  have hout := claimLost_claimsKept.queue f hf hk
  rw [claimsOut_eq] at hout
  simp [hk, hp] at hout

theorem returnClaim_events : (returnClaim p s).events = s.events := by simp

/-! ## The run of drops (R139, R143) -/

/-- The line DOWN with LINE_CHANGE, returning to where it was; no CLAIM has been returned yet. -/
def goneDown (s : State) : State := { s with
  line := { s.line with drops := 3, ret := s.line.st, st := .down }
  events := { s.events with flags := s.events.flags ||| BitVec.twoPow 15 11 } }

theorem countDrop_few (h : s.line.drops < 2) :
    countDrop s = { s with line := { s.line with drops := s.line.drops + 1 } } := by
  have hdrops : (s.mapLine fun c => { c with drops := min 3 (c.drops + 1) }) =
      { s with line := { s.line with drops := s.line.drops + 1 } } :=
    congrArg (fun n => { s with line := { s.line with drops := n } }) (Nat.min_eq_right (by omega))
  unfold countDrop
  rw [hdrops]
  refine if_neg ?_
  simp only [Bool.and_eq_true, decide_eq_true_eq]
  omega

theorem third_drop (h : 2 ≤ s.line.drops) : (s.mapLine fun c => { c with drops := min 3 (c.drops + 1) }) =
    { s with line := { s.line with drops := 3 } } :=
  congrArg (fun n => { s with line := { s.line with drops := n } }) (Nat.min_eq_left (by omega))

theorem countDrop_third_elsewhere (h : 2 ≤ s.line.drops) (hl : s.line.st ≠ .listening) (ha : s.line.st ≠ .active) :
    countDrop s = { s with line := { s.line with drops := 3 } } := by
  unfold countDrop
  rw [third_drop h]
  exact if_neg (by simp [hl, ha])

theorem countDrop_third (h : 2 ≤ s.line.drops) (hl : s.line.st = .listening ∨ s.line.st = .active) :
    countDrop s = returnClaim .air (returnClaim .power (goneDown s)) := by
  unfold countDrop
  rw [third_drop h]
  exact if_pos (by simpa using hl)

theorem returned_claimsKept : ClaimsKept s (returnClaim .air (returnClaim .power s)) :=
  returnClaim_claimsKept.trans returnClaim_claimsKept

theorem mem_returned (hf : f ∈ (returnClaim .air (returnClaim .power s)).line.queue) (hk : f.kind = .claim) :
    s.line.sending f = true := by
  cases hp : f.pool with
  | air => rw [← returnClaim_claimsKept.sending f hk]; exact mem_returnClaim hf hk hp
  | power => exact mem_returnClaim (returnClaim_claimsKept.queue f hf hk) hk hp

theorem goneDown_flag : (goneDown s).flag .lineChange = true := flag_setFlag_self .lineChange s

/-! ## The obligation -/

theorem frameSent_up (hon : s.online = true) (h : s.line.attempt = some a) (hq : a.fate = .queued)
    (hd : s.line.st ≠ .down) :
    let p := a.frame.pool
    let t := { s with line := { s.line with
      attempt := none, startReq := 12, drops := 0, queue := s.line.queue.filter fun g => !a.frame.same g } }
    (a.frame.kind = .wait ∨ a.frame.kind = .beacon → exec .frameSent s = .next (settle t)) ∧
    (a.frame.kind = .release → exec .frameSent s = .next (settle (t.mapAgent p fun g => { g with announced := 0 }))) ∧
    (a.frame.kind = .adjust → exec .frameSent s =
      .next (settle (t.mapAgent p fun g => { g with announced := min g.announced a.frame.amount }))) ∧
    (a.frame.kind = .claim → (s.agent p).st = .asking →
      let asked := (s.agent p).asked.getD 0
      (asked ≤ ownRoom s p → exec .frameSent s = .next (settle (grantOwn p asked t))) ∧
      (ownRoom s p < asked → exec .frameSent s = .next (settle (beginWait p t)))) ∧
    (a.frame.kind = .claim → (s.agent p).st ≠ .asking → exec .frameSent s = .next (settle t)) := by
  intro p t
  have hends : frameEnds s = reportSent a t := frameEnds_up h hq hd
  have hagent : t.agent p = s.agent p := by cases p <;> rfl
  have hroom : ownRoom t p = ownRoom s p := by cases p <;> rfl
  have hnot : a.fate ≠ .withdrawn := by simp [hq]
  refine ⟨fun hk => exec_onlineEq hon (hends.trans (reportSent_other hk)),
    fun hk => exec_onlineEq hon (hends.trans (reportSent_release hk)),
    fun hk => exec_onlineEq hon (hends.trans (reportSent_adjust hk)), fun hk ha => ?_,
    fun hk ha => exec_onlineEq hon (hends.trans ((reportSent_claim hk hnot).trans (judgeOwn_other (hagent ▸ ha))))⟩
  have hjudged := hends.trans ((reportSent_claim hk hnot).trans (judgeOwn_asking (hagent ▸ ha)))
  rw [hagent, hroom] at hjudged
  exact ⟨fun hle => exec_onlineEq hon (hjudged.trans (if_pos hle)),
    fun hlt => exec_onlineEq hon (hjudged.trans (if_neg (Nat.not_le.2 hlt)))⟩

theorem countDrop_down (h : 2 ≤ s.line.drops) (hl : s.line.st = .listening ∨ s.line.st = .active) :
    (countDrop s).line.st = .down ∧ (countDrop s).line.ret = s.line.st ∧ (countDrop s).flag .lineChange = true ∧
    ∀ f ∈ (countDrop s).line.queue, f.kind = .claim → s.line.sending f = true := by
  have hkept : ClaimsKept (goneDown s) (countDrop s) := countDrop_third h hl ▸ returned_claimsKept
  refine ⟨hkept.st, hkept.ret, ?_, fun f hf hk => ?_⟩
  · rw [countDrop_third h hl]
    unfold State.flag
    rw [returnClaim_events, returnClaim_events]
    exact goneDown_flag
  · rw [countDrop_third h hl] at hf
    exact mem_returned (s := goneDown s) hf hk

theorem returnClaim_cases (s : State) (p : Pool) :
    let queued : Prop := ∃ f ∈ s.line.queue, f.kind = .claim ∧ f.pool = p
    let driven : Prop := ∃ a : Attempt, s.line.attempt = some a ∧ a.fate = .queued ∧ a.frame.kind = .claim ∧ a.frame.pool = p
    let rest := { s with line := { s.line with
      queue := s.line.queue.filter fun g => !(g.kind = .claim && g.pool = p) } }
    (queued → ¬ driven → (s.agent p).st = .asking → returnClaim p s = beginWait p rest) ∧
    (queued → ¬ driven → (s.agent p).st ≠ .asking → returnClaim p s = rest) ∧
    (¬ queued ∨ driven → returnClaim p s = s) := by
  intro queued driven rest
  have hout : claimsOut p s = rest := claimsOut_eq
  have hagent : rest.agent p = s.agent p := by cases p <;> rfl
  have hunsent (hq : queued) (hd : ¬ driven) : returnClaim p s = claimLost p rest :=
    hout ▸ returnClaim_unsent hq fun h => hd (sendingClaim_iff.1 h)
  exact ⟨fun hq hd ha => (hunsent hq hd).trans (claimLost_asking (hagent ▸ ha)),
    fun hq hd ha => (hunsent hq hd).trans (claimLost_other (hagent ▸ ha)),
    fun h => returnClaim_not (h.imp_right sendingClaim_iff.2)⟩

/-- Settles O50: a sent frame by its kind and the line state, a drop by the run of drops. -/
theorem sentAndDroppedFrames : Obligations.SentAndDroppedFrames := by
  unfold Obligations.SentAndDroppedFrames
  refine ⟨fun s a hon h hq hd => frameSent_up hon h hq hd, ⟨fun s h => countDrop_few h,
    fun s h hl ha => countDrop_third_elsewhere h hl ha, fun s h hl => ⟨countDrop_third h hl, countDrop_down h hl⟩,
    returnClaim_cases, fun s a hon h hq => ?gone, fun s a => ?told, fun s a hon h hq hd => ?down,
    fun s h hr => returnFromDown_listening h hr, fun s h hr => returnFromDown_active h hr, fun s h => returnFromDown_up h⟩,
    fun s => ?room⟩
  case gone =>
    intro t
    have hoff : sentOff a s = t := if_neg hq
    exact exec_onlineEq hon (hoff ▸ frameEnds_sent h)
  case told =>
    intro p announce
    exact ⟨fun hk hx => reportSent_withdrawn hk hx,
      fun hk hx ha => (reportSent_claim hk hx).trans (judgeOwn_asking ha),
      fun hk hx ha => (reportSent_claim hk hx).trans (judgeOwn_other ha),
      fun hk => (reportSent_adjust hk).trans (mapAgent_congr rfl), fun hk => reportSent_release hk,
      fun hk => reportSent_other hk⟩
  case down =>
    intro t
    have hoff : sentOff a s = t := if_pos hq
    have hends : frameEnds s = returnFromDown (reportSent a t) := hoff ▸ frameEnds_sent h
    exact ⟨exec_onlineEq hon hends,
      fun hk => exec_onlineEq hon (hends.trans (congrArg returnFromDown (reportSent_other (.inr hk))))⟩
  case room =>
    intro peers leaves
    constructor <;> (rw [ownRoom_eq]; exact sub_leaves _ _)

end Sys2Proof.Proofs
end

