-- ==== Sys2Proof/Proofs/LineTimers.lean ====
section
/-! PROOF. The line's timers: the beacon timer, the ages of the roster and the wait timers (R142, R146, R147, R160, R161). -/

namespace Sys2Proof.Proofs

open Sys2Proof Sys2Proof.Machine Sys2Proof.Safety Sys2Proof.Laws

variable {s : State} {p : Pool} {i : Station}

/-! ## The beacon timer (R142, R146, R160) -/

theorem beaconExpiry_running (h : s.line.beacon.isSome = true) : beaconExpiry s =
    countListening (raiseCount .air (raiseCount .power (placeBeacon (supersedeBeacon s)))) := if_pos h

theorem beaconExpiry_stopped (h : s.line.beacon = none) : beaconExpiry s = s := if_neg (by simp [h])

theorem supersedeBeacon_none (h : s.line.queue.any beaconFrame.same = false) : supersedeBeacon s = s :=
  if_neg (Bool.eq_false_iff.1 h)

/-- The earlier BEACON in progress is left to its attempt's end, out of the queue. -/
theorem supersedeBeacon_sending {a : Attempt} (h : s.line.queue.any beaconFrame.same = true)
    (ha : s.line.attempt = some a) (hq : a.fate = .queued) (hk : a.frame.kind = .beacon) (hp : a.frame.pool = .power) :
    supersedeBeacon s = { s with line := { s.line with
      queue := s.line.queue.filter fun g => !beaconFrame.same g, attempt := some { a with fate := .superseded } } } := by
  have hsending : s.line.sending beaconFrame = true := sending_iff.2 ⟨a, ha, hq, same_newFrame_iff.2 ⟨hk, hp⟩⟩
  refine ((if_pos h).trans (if_pos hsending)).trans ?_
  unfold unqueue State.mapLine LineCtl.setFate
  dsimp only
  rw [ha]
  rfl

theorem supersedeBeacon_queued (h : s.line.queue.any beaconFrame.same = true)
    (hn : s.line.sending beaconFrame = false) : supersedeBeacon s = countDrop { s with
      line := { s.line with queue := s.line.queue.filter fun g => !beaconFrame.same g } } :=
  (if_pos h).trans (if_neg (Bool.eq_false_iff.1 hn))

theorem raiseCount_standing (h : (s.agent p).standing = true) : raiseCount p s =
    tryClaim p (s.mapAgent p fun g => { g with count := min 255 (g.count + 1) }) := if_pos h

theorem raiseCount_none (h : (s.agent p).standing = false) : raiseCount p s = s := if_neg (Bool.eq_false_iff.1 h)

theorem countListening_other (h : s.line.st ≠ .listening) : countListening s = s := if_neg h

/-- The count of expiries in LISTENING rises, up to 4. -/
def listened (s : State) : State := s.mapLine fun c => { c with listens := min 4 (c.listens + 1) }

theorem countListening_listening (h : s.line.st = .listening) : countListening s =
    if 4 ≤ (listened s).line.listens then tryBoth (enterLine .active (listened s)) else listened s := if_pos h

theorem listened_eq {n : Nat} (h : min 4 (s.line.listens + 1) = n) :
    listened s = { s with line := { s.line with listens := n } } :=
  congrArg (fun n => { s with line := { s.line with listens := n } }) h

theorem countListening_early (h : s.line.st = .listening) (hn : s.line.listens < 3) : countListening s =
    { s with line := { s.line with listens := s.line.listens + 1 } } := by
  rw [countListening_listening h, listened_eq (Nat.min_eq_right (by omega)), if_neg (by dsimp only; omega)]

/-- The fourth expiry takes the line to ACTIVE. -/
theorem countListening_fourth (h : s.line.st = .listening) (hn : s.line.listens = 3) : countListening s =
    tryBoth { s with
      line := { s.line with st := .active, listens := 4 }
      events := { s.events with flags := s.events.flags ||| BitVec.twoPow 15 11 } } := by
  rw [countListening_listening h, listened_eq (n := 4) (by omega), if_pos (Nat.le_refl 4)]
  refine congrArg tryBoth ?_
  rfl

/-! ## The ages of the roster and the wait timers (R147, R161) -/

theorem ageOut_due (hl : s.line.st ≠ .silent) (hp : (s.roster[i]).present = true)
    (ha : 4 * s.cfg.ident.beaconInterval ≤ (s.roster[i]).age) : ageOut i s = tryBoth { s with
      roster := s.roster.set i { s.roster[i] with
        present := false, heldPower := 0, heldAir := 0, waitPower := none, waitAir := none } } := by
  refine if_pos ?_
  rw [Bool.and_eq_true, Bool.and_eq_true, decide_eq_true_eq, decide_eq_true_eq]
  exact ⟨⟨hl, hp⟩, ha⟩

theorem ageOut_not (h : s.line.st = .silent ∨ (s.roster[i]).present = false ∨
    (s.roster[i]).age < 4 * s.cfg.ident.beaconInterval) : ageOut i s = s := by
  refine if_neg ?_
  rw [Bool.and_eq_true, Bool.and_eq_true, decide_eq_true_eq, decide_eq_true_eq]
  rintro ⟨⟨hl, hp⟩, ha⟩
  rcases h with h | h | h
  · exact hl h
  · exact Bool.eq_false_iff.1 h hp
  · exact Nat.not_le.2 h ha

theorem waitExpires_running (h : (s.agent p).timer.isSome = true) :
    waitExpires p s = setFlag .budgetWait (s.mapAgent p fun g => { g with timer := none }) := if_pos h

theorem waitExpires_stopped (h : (s.agent p).timer = none) : waitExpires p s = s := if_neg (by simp [h])

/-- Settles O55, by whether each timer runs, and the age has come. -/
theorem lineTimersExpire : Obligations.LineTimersExpire := by
  unfold Obligations.LineTimersExpire
  exact ⟨fun s hon => ⟨fun h => exec_onlineEq hon (beaconExpiry_running h),
      fun h => exec_onlineEq hon (beaconExpiry_stopped h), fun i hl hp ha => exec_onlineEq hon (ageOut_due hl hp ha),
      fun i h => exec_onlineEq hon (ageOut_not h), fun p h => exec_onlineEq hon (waitExpires_running h),
      fun p h => exec_onlineEq hon (waitExpires_stopped h)⟩,
    fun s => ⟨supersedeBeacon_none, fun a => supersedeBeacon_sending, supersedeBeacon_queued, rfl,
      fun p => ⟨raiseCount_standing, raiseCount_none⟩, countListening_other, countListening_early,
      countListening_fourth⟩⟩

end Sys2Proof.Proofs
end

