-- ==== Sys2Proof/Proofs/UncountedNotices.lean ====
section
/-! PROOF. Notices that are not counted: a SILENT line, a discarded frame, and a notice under this station's own number,
which bars the line (R137, R144). -/

namespace Sys2Proof.Proofs

open Sys2Proof Sys2Proof.Machine Sys2Proof.Safety Sys2Proof.Laws

variable {s u : State} {src : Station} {p : Pool} {f : Frame} {q : List Frame} {g : Agent}

/-! ## Which notices are received (R137) -/

/-- The notices in range that a frame under `src`'s number can carry. -/
def noticesFrom (src : Station) (pool : Pool) (amount count : Byte) (b : Beacon) : List Instr :=
  [.claimReceived src pool amount, .adjustReceived src pool amount, .releaseReceived src pool,
    .waitReceived src pool amount count, .beaconReceived src b]

/-- Whatever a notice in range does, it does it where the controller receives. -/
theorem notice_received {pool : Pool} {amount count : Byte} {b : Beacon} (h0 : amount ≠ 0) (hr : b.inRange = true)
    {c : Instr} (hc : c ∈ noticesFrom src pool amount count b) :
    ∃ act : State → State, exec c s = .next (whenOnline (receive src act) s) := by
  simp only [noticesFrom, List.mem_cons, List.not_mem_nil, or_false] at hc
  rcases hc with rfl | rfl | rfl | rfl | rfl
  · exact ⟨_, congrArg (fun f => Host.Outcome.next (whenOnline f s)) (if_neg h0)⟩
  · exact ⟨_, congrArg (fun f => Host.Outcome.next (whenOnline f s)) (if_neg h0)⟩
  · exact ⟨_, rfl⟩
  · exact ⟨_, congrArg (fun f => Host.Outcome.next (whenOnline f s)) (if_neg h0)⟩
  · exact ⟨_, execBeaconReceived_inRange hr⟩

theorem exec_claimReceived_zero (src : Station) (pool : Pool) :
    exec (.claimReceived src pool 0) s = .next (whenOnline discardFrame s) := rfl

theorem receive_silent (act : State → State) (hl : s.line.st = .silent) : receive src act s = s := if_pos hl

theorem discardFrame_silent (hl : s.line.st = .silent) : discardFrame s = s := if_pos hl

theorem discardFrame_heard (hl : s.line.st ≠ .silent) :
    discardFrame s = { s with line := { s.line with awaitIdle := true } } := if_neg hl

/-- The state in which a valid frame has been received: the wait for idle is over. -/
def afterFrame (s : State) : State := { s with line := { s.line with awaitIdle := false } }

theorem receive_own_barred (act : State → State) (hl : s.line.st = .barred) (hn : src = s.cfg.ident.number) :
    receive src act s = afterFrame s := by
  unfold receive
  rw [if_neg (by simp [hl])]
  exact (if_pos hn).trans (if_pos hl)

theorem receive_own (act : State → State) (hs : s.line.st ≠ .silent) (hb : s.line.st ≠ .barred)
    (hn : src = s.cfg.ident.number) : receive src act s = barLine (afterFrame s) := by
  unfold receive
  rw [if_neg hs]
  exact (if_pos hn).trans (if_neg hb)

/-! ## What a frame returned unsent makes of an agent, where no frame is taken (R144, R159, R162, R163) -/

/-- The agent of pool `p` told that `f` was not sent. -/
def told (f : Frame) (p : Pool) (g : Agent) : Agent :=
  if f.pool = p then
    match f.kind with
    | .claim =>
      if g.st = .asking then
        if g.standing then { g with st := .waiting }
        else { g with st := .waiting, standing := true, count := 0, timer := some 0 }
      else g
    | .adjust => { g with announced := min g.announced f.amount }
    | .release => { g with announced := 0 }
    | .wait => g
    | .beacon => g
  else g

theorem claimLost_barred (h : s.lineTakes = false) : claimLost p s = s.mapAgent p fun g =>
    if g.st = .asking then
      if g.standing then { g with st := .waiting }
      else { g with st := .waiting, standing := true, count := 0, timer := some 0 }
    else g := by
  by_cases ha : (s.agent p).st = .asking
  · rw [claimLost_asking ha]
    unfold beginWait placeWait
    rw [placeFrame_refused (by rw [mapAgent_lineTakes, h])]
    exact mapAgent_congr (if_pos ha).symm
  · rw [claimLost_other ha]
    have hself : s.mapAgent p id = s := by cases p <;> rfl
    exact hself.symm.trans (mapAgent_congr (if_neg ha).symm)

theorem told_eq (h : s.lineTakes = false) : reportUnsent f s = s.mapAgent f.pool (told f f.pool) := by
  have hself : s.mapAgent f.pool id = s := by cases f.pool <;> rfl
  cases hk : f.kind with
  | claim =>
    rw [reportUnsent_claim hk, claimLost_barred h]
    exact mapAgent_congr (by simp [told, hk])
  | adjust =>
    rw [reportUnsent_adjust hk]
    exact mapAgent_congr (by simp [told, hk])
  | release =>
    rw [reportUnsent_release hk]
    exact mapAgent_congr (by simp [told, hk])
  | wait =>
    rw [reportUnsent_other (.inl hk)]
    exact hself.symm.trans (mapAgent_congr (by simp [told, hk]))
  | beacon =>
    rw [reportUnsent_other (.inr hk)]
    exact hself.symm.trans (mapAgent_congr (by simp [told, hk]))

theorem told_other (h : f.pool ≠ p) : told f p g = g := if_neg h

theorem reportUnsent_agent (h : s.lineTakes = false) : (reportUnsent f s).agent p = told f p (s.agent p) := by
  rw [told_eq h]
  by_cases hp : p = f.pool
  · rw [hp, agent_mapAgent]
  · rw [agent_mapAgent_ne _ hp, told_other (Ne.symm hp)]

theorem reportUnsent_line (h : s.lineTakes = false) : (reportUnsent f s).line = s.line := by
  rw [told_eq h, mapAgent_line]

/-- The frames of a queue returned unsent, one after the other. -/
def returnAll (q : List Frame) (s : State) : State := q.foldl (fun t f => reportUnsent f t) s

theorem returnAll_rest : (returnAll q s).events = s.events ∧ (returnAll q s).mon = s.mon := by
  induction q generalizing s with
  | nil => exact ⟨rfl, rfl⟩
  | cons f fs ih =>
    obtain ⟨he, hm⟩ := ih (s := reportUnsent f s)
    exact ⟨he.trans (by simp), hm.trans (by simp)⟩

theorem returnAll_line (h : s.lineTakes = false) : (returnAll q s).line = s.line := by
  induction q generalizing s with
  | nil => rfl
  | cons f fs ih =>
    have hline : (reportUnsent f s).line = s.line := reportUnsent_line h
    exact (ih (by rw [State.lineTakes, hline]; exact h)).trans hline

theorem returnAll_agent (h : s.lineTakes = false) :
    (returnAll q s).agent p = q.foldl (fun g f => told f p g) (s.agent p) := by
  induction q generalizing s with
  | nil => rfl
  | cons f fs ih =>
    have hline : (reportUnsent f s).line = s.line := reportUnsent_line h
    refine (ih (by rw [State.lineTakes, hline]; exact h)).trans ?_
    rw [reportUnsent_agent h]
    rfl

/-! ## An agent told of a whole queue -/

/-- The agent of pool `p` told that none of the frames of `q` was sent. -/
def toldAll (q : List Frame) (p : Pool) (g : Agent) : Agent := q.foldl (fun g f => told f p g) g

/-- The two differ in the announced holding alone. -/
def SameWait (g h : Agent) : Prop :=
  h.st = g.st ∧ h.standing = g.standing ∧ h.count = g.count ∧ h.timer = g.timer ∧ h.asked = g.asked

theorem SameWait.trans {g h k : Agent} (hgh : SameWait g h) (hhk : SameWait h k) : SameWait g k := by
  obtain ⟨h1, h2, h3, h4, h5⟩ := hgh
  obtain ⟨k1, k2, k3, k4, k5⟩ := hhk
  exact ⟨k1.trans h1, k2.trans h2, k3.trans h3, k4.trans h4, k5.trans h5⟩

/-- Only an ASKING agent's CLAIM makes it wait. -/
theorem told_sameWait (h : g.st ≠ .asking ∨ ¬ (f.kind = .claim ∧ f.pool = p)) : SameWait g (told f p g) := by
  unfold told
  split
  · next hp =>
    split
    · next hk =>
      rw [if_neg (h.resolve_right (not_not_intro ⟨hk, hp⟩))]
      exact ⟨rfl, rfl, rfl, rfl, rfl⟩
    all_goals exact ⟨rfl, rfl, rfl, rfl, rfl⟩
  · exact ⟨rfl, rfl, rfl, rfl, rfl⟩

theorem toldAll_sameWait (h : g.st ≠ .asking ∨ ¬ ∃ f ∈ q, f.kind = .claim ∧ f.pool = p) : SameWait g (toldAll q p g) := by
  induction q generalizing g with
  | nil => exact ⟨rfl, rfl, rfl, rfl, rfl⟩
  | cons f fs ih =>
    have hhead : SameWait g (told f p g) := told_sameWait (h.imp_right fun hn hf => hn ⟨f, List.mem_cons_self, hf⟩)
    refine hhead.trans (ih (h.imp (fun hst => ?_) fun hn ⟨x, hx, hf⟩ => hn ⟨x, List.mem_cons_of_mem f hx, hf⟩))
    rw [hhead.1]
    exact hst

/-- What an agent whose CLAIM is returned has begun, or goes on with. -/
def BegunWait (g h : Agent) : Prop :=
  h.st = .waiting ∧ h.standing = true ∧ h.asked = g.asked ∧ (g.standing = false → h.count = 0 ∧ h.timer = some 0)

theorem told_begunWait (hg : g.st = .asking) (hf : f.kind = .claim ∧ f.pool = p) : BegunWait g (told f p g) := by
  obtain ⟨hk, hp⟩ := hf
  cases hw : g.standing with
  | true => simp [BegunWait, told, hk, hp, hg, hw]
  | false => simp [BegunWait, told, hk, hp, hg, hw]

theorem toldAll_begunWait (hq : ∃ f ∈ q, f.kind = .claim ∧ f.pool = p) (hg : g.st = .asking) :
    BegunWait g (toldAll q p g) := by
  induction q generalizing g with
  | nil => simp at hq
  | cons f fs ih =>
    by_cases hf : f.kind = .claim ∧ f.pool = p
    · obtain ⟨hst, hstanding, hasked, hfresh⟩ := told_begunWait hg hf
      obtain ⟨kst, kstanding, kcount, ktimer, kasked⟩ :=
        toldAll_sameWait (q := fs) (p := p) (g := told f p g) (.inl (by simp [hst]))
      exact ⟨kst.trans hst, kstanding.trans hstanding, kasked.trans hasked, fun hw =>
        ⟨kcount.trans (hfresh hw).1, ktimer.trans (hfresh hw).2⟩⟩
    · obtain ⟨x, hx, hxf⟩ := hq
      have hfs : x ∈ fs := (List.mem_cons.1 hx).resolve_left fun he => hf (he ▸ hxf)
      obtain ⟨hst, hstanding, hcount, htimer, hasked⟩ := told_sameWait (g := g) (.inr hf)
      obtain ⟨kst, kstanding, kasked, kfresh⟩ := ih ⟨x, hfs, hxf⟩ (hst.trans hg)
      exact ⟨kst, kstanding, kasked.trans hasked, fun hw => kfresh (hstanding.trans hw)⟩

theorem told_announced_le : (told f p g).announced ≤ g.announced := by
  unfold told
  split
  · split
    · split
      · split <;> exact Nat.le_refl _
      · exact Nat.le_refl _
    · exact Nat.min_le_left _ _
    · exact Nat.zero_le _
    · exact Nat.le_refl _
    · exact Nat.le_refl _
  · exact Nat.le_refl _

theorem toldAll_announced_le : (toldAll q p g).announced ≤ g.announced := by
  induction q generalizing g with
  | nil => exact Nat.le_refl _
  | cons f fs ih => exact ih.trans told_announced_le

/-- A bound that one frame of the queue sets stands to the end. -/
theorem toldAll_announced_of_mem {n : Nat} (hf : f ∈ q) (hn : ∀ g, (told f p g).announced ≤ n) :
    (toldAll q p g).announced ≤ n := by
  induction q generalizing g with
  | nil => simp at hf
  | cons x xs ih =>
    rcases List.mem_cons.1 hf with rfl | hf
    · have hrest : (toldAll xs p (told f p g)).announced ≤ (told f p g).announced := toldAll_announced_le
      exact hrest.trans (hn g)
    · exact ih hf

theorem told_announced_of_other (hr : ¬ (f.kind = .release ∧ f.pool = p)) (ha : ¬ (f.kind = .adjust ∧ f.pool = p)) :
    (told f p g).announced = g.announced := by
  unfold told
  split
  · next hp =>
    split
    · split
      · split <;> rfl
      · rfl
    · next hk => exact absurd ⟨hk, hp⟩ ha
    · next hk => exact absurd ⟨hk, hp⟩ hr
    · rfl
    · rfl
  · rfl

theorem toldAll_announced (hr : ¬ ∃ f ∈ q, f.kind = .release ∧ f.pool = p)
    (ha : ¬ ∃ f ∈ q, f.kind = .adjust ∧ f.pool = p) : (toldAll q p g).announced = g.announced := by
  induction q generalizing g with
  | nil => rfl
  | cons f fs ih =>
    refine (ih (fun ⟨x, hx, hk⟩ => hr ⟨x, List.mem_cons_of_mem f hx, hk⟩)
      fun ⟨x, hx, hk⟩ => ha ⟨x, List.mem_cons_of_mem f hx, hk⟩).trans ?_
    exact told_announced_of_other (fun h => hr ⟨f, List.mem_cons_self, h⟩) fun h => ha ⟨f, List.mem_cons_self, h⟩

/-! ## The barred line (R144) -/

/-- The line BARRED and empty, before the frames are returned. -/
def barredLine (s : State) : State := setFlag .lineChange { s with
  line := { s.line with st := .barred, queue := [], attempt := none, beacon := none } }

theorem barLine_eq : barLine s =
    setFlag .bayFault ((returnAll s.line.queue (barredLine s)).mapMon fun m => { m with barred := true }) := rfl

theorem barredLine_takes : (barredLine s).lineTakes = false := rfl

theorem barLine_agent : (barLine s).agent p = toldAll s.line.queue p (s.agent p) := by
  have hagent : (barLine s).agent p = (returnAll s.line.queue (barredLine s)).agent p := by
    rw [barLine_eq]
    cases p <;> rfl
  have hstart : (barredLine s).agent p = s.agent p := by cases p <;> rfl
  rw [hagent, returnAll_agent barredLine_takes, hstart]
  rfl

theorem barLine_line : (barLine s).line =
    { s.line with st := .barred, queue := [], attempt := none, beacon := none } := by
  rw [barLine_eq]
  exact returnAll_line barredLine_takes

theorem barLine_mon : (barLine s).mon = { s.mon with barred := true } := by
  rw [barLine_eq]
  exact congrArg (fun m : Monitor => { m with barred := true }) returnAll_rest.2

theorem barLine_flag : (barLine s).flag .lineChange = true ∧ (barLine s).flag .bayFault = true := by
  have hchange : (returnAll s.line.queue (barredLine s)).flag .lineChange = true := by
    unfold State.flag
    rw [returnAll_rest.1]
    exact flag_setFlag_self .lineChange _
  rw [barLine_eq]
  refine ⟨?_, flag_setFlag_self _ _⟩
  rw [flag_setFlag, flag_mapMon, hchange, Bool.true_or]

theorem settle_flag {x : EventFlag} (h : s.flag x = true) : (settle s).flag x = true := by
  have hask {v : State} (hv : v.flag x = true) : (askTin v).flag x = true := by
    unfold askTin
    split
    · split
      · exact hv
      · rw [flag_setFlag, Bool.or_eq_true]
        exact .inl hv
    · exact hv
  unfold settle
  split
  · have hgranted : (grantStirs s).flag x = true := by
      unfold State.flag at h ⊢
      simpa using h
    have hasked := hask hgranted
    unfold State.flag at hasked ⊢
    simpa using hasked
  · exact h

/-! ## The obligation -/

theorem barLine_pool (s : State) (p : Pool) :
    let g := s.agent p
    let h := (barLine s).agent p
    let queued (k : NoticeKind) : Prop := ∃ f ∈ s.line.queue, f.kind = k ∧ f.pool = p
    (queued .claim → g.st = .asking → h.st = .waiting ∧ h.standing = true ∧ h.asked = g.asked ∧
      (g.standing = false → h.count = 0 ∧ h.timer = some 0)) ∧
    (g.st ≠ .asking ∨ ¬ queued .claim →
      h.st = g.st ∧ h.standing = g.standing ∧ h.count = g.count ∧ h.timer = g.timer ∧ h.asked = g.asked) ∧
    (queued .release → h.announced = 0) ∧
    (∀ f ∈ s.line.queue, f.kind = .adjust → f.pool = p → h.announced ≤ f.amount) ∧
    (¬ queued .release → ¬ queued .adjust → h.announced = g.announced) := by
  intro g h queued
  have htold : h = toldAll s.line.queue p g := barLine_agent
  rw [htold]
  refine ⟨toldAll_begunWait, toldAll_sameWait, fun ⟨f, hf, hk, hp⟩ => ?_, fun f hf hk hp => ?_, toldAll_announced⟩
  · exact Nat.le_zero.1 (toldAll_announced_of_mem hf fun g => by simp [told, hk, hp])
  · exact toldAll_announced_of_mem hf fun g => by simp [told, hk, hp]

/-- Settles O53: a notice in range is received like any other, whatever it carries, and the frames of a barred line are
told to each agent in turn. -/
theorem noticesThatDoNotCount : Obligations.NoticesThatDoNotCount := by
  unfold Obligations.NoticesThatDoNotCount
  intro s src pool amount count b cause hon h0 hr notices
  have hexec {t : State} {c : Instr} (hc : c ∈ notices) (hact : ∀ act, receive src act s = t) :
      exec c s = .next (settle t) := by
    obtain ⟨act, hact'⟩ := notice_received (s := s) h0 hr hc
    exact hact'.trans (exec_onlineEq hon (hact act))
  have hown (hs : s.line.st ≠ .silent) (hb : s.line.st ≠ .barred) (hn : src = s.cfg.ident.number) {c : Instr}
      (hc : c ∈ notices) : exec c s = .next (settle (barLine (afterFrame s))) :=
    hexec hc fun act => receive_own act hs hb hn
  refine ⟨fun hl c hc => ?silent, fun hl => ⟨exec_onlineEq hon (discardFrame_heard hl),
      (exec_claimReceived_zero src pool).trans (exec_onlineEq hon (discardFrame_heard hl))⟩,
    fun hs hb hn c hc => ⟨_, hown hs hb hn hc, ?_⟩, fun hn =>
      ⟨fun hl c hc => hexec hc fun act => receive_own_barred act hl hn,
        fun hs hb c hc => ⟨hown hs hb hn hc, barLine_eq⟩⟩, barLine_pool s⟩
  case silent =>
    rcases List.mem_cons.1 hc with rfl | hc
    · exact exec_onlineEq hon (discardFrame_silent hl)
    · exact hexec hc fun act => receive_silent act hl
  obtain ⟨-, -, -, -, -, -, hline, hmon⟩ := settle_bays (barLine (afterFrame s))
  obtain ⟨hchange, hfault⟩ := barLine_flag (s := afterFrame s)
  rw [hline, hmon, barLine_line, barLine_mon]
  exact ⟨rfl, rfl, rfl, rfl, rfl, settle_flag hchange, settle_flag hfault, rfl⟩

end Sys2Proof.Proofs
end
